-- ==== Sys2Proof/Word.lean ====
section
/-! DEFINITION. The word types of the machine and the names of its agents (00 R5, R8; 01 R13). -/

namespace Sys2Proof

/-- A byte (R8). -/
abbrev Byte := BitVec 8
/-- A dword: the width of scalar registers, addresses and instruction words (R8, R13, R57). -/
abbrev Word := BitVec 64
/-- A vector register, a tile-store row or an engine record register: 512 bytes, lane `i` at bits
`32i+31:32i` (R13, R16). -/
abbrev VReg := BitVec 4096
/-- A mask register: bit `i` governs lane `i` (R13). -/
abbrev Mask := BitVec 128

/-- Who executes instructions: a warp, named by its slot, or a distaff thread (R13, R353). -/
inductive Agent where
  | warp (d : Fin 2) (core : Fin 24) (ply : Fin 8) (slot : Fin 4)
  | thread (d : Fin 2) (t : Fin 64)
  deriving DecidableEq, Repr

/-- A hardware queue: its die and number (R335). -/
structure QueueRef where
  d : Fin 2
  q : Fin 64
  deriving DecidableEq, Repr

/-- Modular signed distance test of R337 and R338: `(a - b) mod 2^32` lies in `1` to `2^31 - 1`. -/
def ahead32 (a b : BitVec 32) : Bool :=
  let k := (a - b).toNat
  decide (1 ≤ k) && decide (k < 2147483648)

end Sys2Proof
end

