-- ==== Sys2Proof/Machine/Bits.lean ====
section
/-! DEFINITION. Bit fields, byte order, lanes and elements, register groups, and finite tables (00 R5, R8; 01 R16, R17). -/

namespace Sys2Proof.Machine

/-- A list in the order of `le`, equals as they stood. -/
def sortBy {α : Type} (le : α → α → Bool) : List α → List α
  | [] => []
  | a :: t => insertBy a (sortBy le t)
where
  insertBy (a : α) : List α → List α
  | [] => [a]
  | b :: t => if le a b then a :: b :: t else b :: insertBy a t

/-- Bits `hi:lo` of a number (R5). -/
def bits (x hi lo : Nat) : Nat := (x >>> lo) % 2 ^ (hi + 1 - lo)

/-- Bit `i` of a number (R5). -/
def bitAt (x i : Nat) : Bool := x.testBit i

/-- The number whose bit field of `w` bits at position `w * i` is `f i`, for `i` below `n`. -/
def packNat (w : Nat) (f : Nat → Nat) : Nat → Nat
  | 0 => 0
  | n + 1 => packNat w f n + ((f n) % 2 ^ w) <<< (w * n)

/-- A vector register from its elements of `w` bits (R16). -/
def buildReg (w : Nat) (f : Nat → Nat) : VReg := BitVec.ofNat 4096 (packNat w f (4096 / w))

/-- Element `e` of width `w` of a register: bits `w*e` to `w*e + w - 1` (R16). -/
def elemOf (r : VReg) (w e : Nat) : Nat := (r.toNat >>> (w * e)) % 2 ^ w

/-- Lane `i` of a register (R16). -/
def laneOf (r : VReg) (i : Nat) : BitVec 32 := r.extractLsb' (32 * i) 32

/-- A mask from its bits. -/
def buildMask (f : Nat → Bool) : Mask := BitVec.ofNat 128 (packNat 1 (fun i => if f i then 1 else 0) 128)

/-- Registers in a group that holds `n` elements of width `w` (R17): 1, 2 or 4. -/
def groupSize (n w : Nat) : Nat := n * w / 4096

/-- Element `e` of a group of `n` elements of width `w` that starts at register `base` (R17). -/
def readGroup (v : Vector VReg 64) (base n w e : Nat) : Nat :=
  let f := groupSize n w
  elemOf (v.toArray.getD (base + e % f) 0) w (e / f)

/-- Register `base + k` after the active elements of a group are written (R17, R18). -/
def groupReg (old : VReg) (f k w : Nat) (act : Nat → Bool) (val : Nat → Nat) : VReg :=
  buildReg w fun p => if act (p * f + k) then val (p * f + k) else elemOf old w p

/-- A register set at index `r`, unchanged when `r` names none. -/
def setReg (v : Vector VReg 64) (r : Nat) (x : VReg) : Vector VReg 64 := v.setIfInBounds r x

/-- The active elements of a group written (R17, R18); the inactive keep their bits. -/
def writeGroup (v : Vector VReg 64) (base n w : Nat) (act : Nat → Bool) (val : Nat → Nat) : Vector VReg 64 :=
  let f := groupSize n w
  (List.range f).foldl (fun acc k => setReg acc (base + k) (groupReg (v.toArray.getD (base + k) 0) f k w act val)) v

/-- Sign extension of the low `w` bits of `x` to 64 bits when `signed`, zero extension otherwise (R94, R142). -/
def extendTo64 (w : Nat) (signed : Bool) (x : Nat) : Word :=
  if signed then (BitVec.ofNat w x).signExtend 64 else BitVec.ofNat 64 (x % 2 ^ w)

/-- The signed value of the low `w` bits. -/
def toSigned (w x : Nat) : Int := (BitVec.ofNat w x).toInt

/-- Two's-complement bits of width `w` of an integer (R41). -/
def ofSigned (w : Nat) (x : Int) : Nat := (BitVec.ofInt w x).toNat

/-- Little-endian bytes of a number (R8). -/
def toBytes (x : Nat) : Nat → List Byte
  | 0 => []
  | n + 1 => BitVec.ofNat 8 x :: toBytes (x / 256) n

/-- The number whose little-endian bytes are given (R8). -/
def ofBytes : List Byte → Nat
  | [] => 0
  | b :: bs => b.toNat + 256 * ofBytes bs

/-- Leading zeros of a `w`-bit number; `w` for 0 (R95, R120). -/
def clzOf (w x : Nat) : Nat := if x = 0 then w else w - 1 - Nat.log2 x

/-- Trailing zeros of a number, counting up to the fuel; the width for 0 (R95). -/
def ctzOf : Nat → Nat → Nat
  | 0, _ => 0
  | w + 1, x => if x % 2 = 1 then 0 else 1 + ctzOf w (x / 2)

/-- 1 bits among the low `w` bits (R95, R120). -/
def popOf : Nat → Nat → Nat
  | 0, _ => 0
  | w + 1, x => x % 2 + popOf w (x / 2)

/-- Bit `i` of `x` moved to bit `w - 1 - i` (R95). -/
def brevOf (w x : Nat) : Nat := packNat 1 (fun i => bits x (w - 1 - i) (w - 1 - i)) w

/-- Number rounded up to a multiple of `m`. -/
def roundUp (x m : Nat) : Nat := (x + m - 1) / m * m

/-- Quotient rounded up. -/
def ceilDiv (a b : Nat) : Nat := (a + b - 1) / b

/-- The entry of a table at a key. -/
def tblGet {α : Type} : List (Nat × α) → Nat → Option α
  | [], _ => none
  | (k, a) :: t, j => if k = j then some a else tblGet t j

/-- The table with the entry at a key set, keys rising. -/
def tblSet {α : Type} : List (Nat × α) → Nat → α → List (Nat × α)
  | [], j, b => [(j, b)]
  | (k, a) :: t, j, b => if j < k then (j, b) :: (k, a) :: t else if j = k then (j, b) :: t else (k, a) :: tblSet t j b

/-- The table with no entry at a key. -/
def tblErase {α : Type} (t : List (Nat × α)) (j : Nat) : List (Nat × α) := t.filter fun p => p.1 != j

/-- The entry at a key, or a default. -/
def tblGetD {α : Type} (t : List (Nat × α)) (j : Nat) (b : α) : α := (tblGet t j).getD b

end Sys2Proof.Machine
end

