-- ==== Sys2Proof/Machine/Fp.lean ====
section
/-! DEFINITION. Number formats and exact arithmetic (02 R41 to R55): values, rounding, the conversion policy, group sums.
Every operation computes its exact value and rounds once. -/

namespace Sys2Proof.Machine

/-- How a format encodes infinities and NaN (R43). -/
inductive FpSpecials where
  | ieee
  | nanOnly
  | none
  deriving DecidableEq, Repr

/-- A floating-point format (R43): exponent and fraction widths, bias, specials. -/
structure FpFmt where
  eb : Nat
  mb : Nat
  bias : Nat
  sp : FpSpecials
  deriving DecidableEq, Repr

def fmtF64 : FpFmt := ⟨11, 52, 1023, .ieee⟩
def fmtF32 : FpFmt := ⟨8, 23, 127, .ieee⟩
def fmtF16 : FpFmt := ⟨5, 10, 15, .ieee⟩
def fmtBf16 : FpFmt := ⟨8, 7, 127, .ieee⟩
def fmtE5m2 : FpFmt := ⟨5, 2, 15, .ieee⟩
def fmtE4m3 : FpFmt := ⟨4, 3, 7, .nanOnly⟩
def fmtE3m2 : FpFmt := ⟨3, 2, 3, .none⟩
def fmtE2m3 : FpFmt := ⟨2, 3, 1, .none⟩
def fmtE2m1 : FpFmt := ⟨2, 1, 1, .none⟩

/-- Width in bits. -/
def FpFmt.width (f : FpFmt) : Nat := 1 + f.eb + f.mb
/-- Exponent of the last fraction bit of the smallest normal. -/
def FpFmt.qmin (f : FpFmt) : Int := 1 - f.bias - f.mb
/-- Bits of the largest finite magnitude (R43). -/
def FpFmt.maxBits (f : FpFmt) : Nat :=
  match f.sp with
  | .ieee => (2 ^ f.eb - 2) <<< f.mb + (2 ^ f.mb - 1)
  | .nanOnly => 2 ^ (f.eb + f.mb) - 2
  | .none => 2 ^ (f.eb + f.mb) - 1
/-- Bits of infinity, for a format that has it. -/
def FpFmt.infBits (f : FpFmt) : Nat := (2 ^ f.eb - 1) <<< f.mb
/-- The canonical quiet NaN (R45). -/
def FpFmt.nanBits (f : FpFmt) : Nat :=
  match f.sp with
  | .ieee => f.infBits + 2 ^ (f.mb - 1)
  | _ => 2 ^ (f.eb + f.mb) - 1
/-- Bits with a sign. -/
def FpFmt.signed (f : FpFmt) (neg : Bool) (mag : Nat) : Nat := if neg then mag + 2 ^ (f.eb + f.mb) else mag

/-- A value: NaN, an infinity, or `(-1)^neg * m * 2^e`. -/
inductive Fv where
  | nan
  | inf (neg : Bool)
  | fin (neg : Bool) (m : Nat) (e : Int)
  deriving DecidableEq, Repr

/-- The value of a bit pattern (R43). -/
def decodeFp (f : FpFmt) (x : Nat) : Fv :=
  let neg := x.testBit (f.eb + f.mb)
  let e := bits x (f.eb + f.mb - 1) f.mb
  let m := x % 2 ^ f.mb
  let special := match f.sp with
    | .ieee => decide (e = 2 ^ f.eb - 1)
    | .nanOnly => decide (e = 2 ^ f.eb - 1) && decide (m = 2 ^ f.mb - 1)
    | .none => false
  if special then
    if f.sp = .ieee ∧ m = 0 then .inf neg else .nan
  else if e = 0 then .fin neg m f.qmin
  else .fin neg (2 ^ f.mb + m) (f.qmin + e - 1)

/-- The rounding codes of R49; `sr` carries the 16 random bits of R50. -/
inductive Rnd where
  | rne
  | rtz
  | rup
  | rdn
  | sr (rnd : Nat)
  deriving DecidableEq, Repr

/-- The rounding mode of codes 0 to 3 (R49); others do not reach here. -/
def rndOf (c : BitVec 3) : Rnd :=
  match c.toNat with
  | 1 => .rtz
  | 2 => .rup
  | 3 => .rdn
  | _ => .rne

/-- Whether a magnitude with integer part `n` and remainder `r` of `2^s` rounds up (R49, R50). -/
def roundsUp (md : Rnd) (neg : Bool) (n r s : Nat) : Bool :=
  match md with
  | .rne => decide (2 ^ s < 2 * r) || (decide (2 * r = 2 ^ s) && decide (n % 2 = 1))
  | .rtz => false
  | .rup => !neg && decide (r ≠ 0)
  | .rdn => neg && decide (r ≠ 0)
  | .sr rnd => decide (65536 ≤ (r * 65536) >>> s + rnd)

/-- `m * 2^e` rounded to a multiple of `2^q`; the multiple. -/
def roundTo (md : Rnd) (neg : Bool) (m : Nat) (e q : Int) : Nat :=
  if q ≤ e then m <<< (e - q).toNat
  else
    let s := (q - e).toNat
    let n := m >>> s
    if roundsUp md neg n (m % 2 ^ s) s then n + 1 else n

/-- Exponent of the last place in which `m * 2^e` rounds in format `f`. -/
def placeOf (f : FpFmt) (m : Nat) (e : Int) : Int := max ((Nat.log2 m : Int) + e - f.mb) f.qmin

/-- The magnitude `m * 2^e` rounded to format `f` with no upper limit on its exponent (R49): multiple and place. -/
def roundFree (f : FpFmt) (md : Rnd) (neg : Bool) (m : Nat) (e : Int) : Nat × Int :=
  let q := placeOf f m e
  (roundTo md neg m e q, q)

/-- Bits of the magnitude `n * 2^q`, `n` at most `2^(mb+1)`, exponent unlimited: beyond `maxBits` when it overflows. -/
def magBits (f : FpFmt) (n : Nat) (q : Int) : Nat :=
  if n < 2 ^ f.mb then n else ((q - f.qmin).toNat + 1) <<< f.mb + (n - 2 ^ f.mb)

/-- The IEEE 754-2019 overflow result of a mode (R51). -/
def overflowBits (f : FpFmt) (md : Rnd) (neg : Bool) : Nat :=
  match md with
  | .rtz => f.maxBits
  | .rup => if neg then f.maxBits else f.infBits
  | .rdn => if neg then f.infBits else f.maxBits
  | _ => f.infBits

/-- The bits of a value rounded once into an arithmetic format (R45). -/
def encodeFp (f : FpFmt) (md : Rnd) : Fv → Nat
  | .nan => f.nanBits
  | .inf neg => f.signed neg f.infBits
  | .fin neg m e =>
    if m = 0 then f.signed neg 0
    else
      let (n, q) := roundFree f md neg m e
      let b := magBits f n q
      f.signed neg (if b ≤ f.maxBits then b else overflowBits f md neg)

/-- `m * 2^e` as a signed multiple of `2^k`, for `k` at most `e`. -/
def atScale (neg : Bool) (m : Nat) (e k : Int) : Int :=
  let v : Int := ((m <<< (e - k).toNat : Nat) : Int)
  if neg then -v else v

/-- Exact negation. -/
def Fv.neg : Fv → Fv
  | .nan => .nan
  | .inf s => .inf !s
  | .fin s m e => .fin (!s) m e

/-- Exact sum; an exact zero sum of unlike signs is +0, or -0 in RDN (R97, R124). -/
def Fv.add (md : Rnd) : Fv → Fv → Fv
  | .nan, _ => .nan
  | _, .nan => .nan
  | .inf a, .inf b => if a = b then .inf a else .nan
  | .inf a, _ => .inf a
  | _, .inf b => .inf b
  | .fin sa ma ea, .fin sb mb eb =>
    if ma = 0 ∧ mb = 0 then .fin (if sa = sb then sa else decide (md = .rdn)) 0 0
    else
      let k := min ea eb
      let t := atScale sa ma ea k + atScale sb mb eb k
      if t = 0 then .fin (decide (md = .rdn)) 0 0 else .fin (decide (t < 0)) t.natAbs k

/-- Exact product. -/
def Fv.mul : Fv → Fv → Fv
  | .nan, _ => .nan
  | _, .nan => .nan
  | .inf a, .inf b => .inf (a != b)
  | .inf a, .fin s m _ => if m = 0 then .nan else .inf (a != s)
  | .fin s m _, .inf b => if m = 0 then .nan else .inf (s != b)
  | .fin sa ma ea, .fin sb mb eb => .fin (sa != sb) (ma * mb) (ea + eb)

/-- Quotient, with a last bit that stands for any remainder: it rounds as the exact quotient in every format. -/
def Fv.div : Fv → Fv → Fv
  | .nan, _ => .nan
  | _, .nan => .nan
  | .inf _, .inf _ => .nan
  | .inf a, .fin s _ _ => .inf (a != s)
  | .fin s _ _, .inf b => .fin (s != b) 0 0
  | .fin sa ma ea, .fin sb mb eb =>
    if mb = 0 then (if ma = 0 then .nan else .inf (sa != sb))
    else if ma = 0 then .fin (sa != sb) 0 0
    else
      let k := 66 + Nat.log2 mb
      let n := ma <<< k
      .fin (sa != sb) (2 * (n / mb) + (if n % mb = 0 then 0 else 1)) (ea - eb - k - 1)

/-- Bitwise integer square root: `r` is the root so far, bit `i` the next candidate. -/
def isqrtLoop (x : Nat) : Nat → Nat → Nat
  | 0, r => r
  | i + 1, r => let c := r + 2 ^ i; isqrtLoop x i (if c * c ≤ x then c else r)

/-- Integer square root of `x`. -/
def isqrt (x : Nat) : Nat := isqrtLoop x (Nat.log2 x / 2 + 1) 0

/-- Square root (R56), with a last bit that stands for any remainder. -/
def Fv.sqrt : Fv → Fv
  | .nan => .nan
  | .inf neg => if neg then .nan else .inf false
  | .fin neg m e =>
    if m = 0 then .fin neg 0 0
    else if neg then .nan
    else
      let k := if (e % 2 = 0) then 140 else 141
      let x := m <<< k
      let r := isqrt x
      .fin false (2 * r + (if r * r = x then 0 else 1)) ((e - k) / 2 - 1)

/-- Order of two values that are not NaN, zeros equal: -1, 0 or 1. -/
def Fv.cmp : Fv → Fv → Int
  | .inf a, .inf b => if a = b then 0 else if a then -1 else 1
  | .inf a, _ => if a then -1 else 1
  | _, .inf b => if b then 1 else -1
  | .fin sa ma ea, .fin sb mb eb =>
    let k := min ea eb
    let x := atScale sa ma ea k
    let y := atScale sb mb eb k
    if x < y then -1 else if x = y then 0 else 1
  | _, _ => 0

/-- A value is NaN. -/
def Fv.isNan : Fv → Bool
  | .nan => true
  | _ => false
/-- The sign of a value; NaN counts as positive. -/
def Fv.isNeg : Fv → Bool
  | .nan => false
  | .inf s => s
  | .fin s _ _ => s
/-- A value is zero. -/
def Fv.isZero : Fv → Bool
  | .fin _ m _ => decide (m = 0)
  | _ => false
/-- A value is infinite. -/
def Fv.isInf : Fv → Bool
  | .inf _ => true
  | _ => false

/-- Minimum and maximum of R45: a NaN yields the other operand, -0 lies below +0. -/
def Fv.min (a b : Fv) : Fv :=
  if a.isNan then b else if b.isNan then a
  else match Fv.cmp a b with
    | .negSucc _ => a
    | .ofNat 0 => if a.isNeg then a else b
    | _ => b
def Fv.max (a b : Fv) : Fv :=
  if a.isNan then b else if b.isNan then a
  else match Fv.cmp a b with
    | .negSucc _ => b
    | .ofNat 0 => if a.isNeg then b else a
    | _ => a

/-- One operation on bit patterns of a format: decode, compute exactly, round once. -/
def fpAdd (f : FpFmt) (md : Rnd) (a b : Nat) : Nat := encodeFp f md (Fv.add md (decodeFp f a) (decodeFp f b))
def fpSub (f : FpFmt) (md : Rnd) (a b : Nat) : Nat := encodeFp f md (Fv.add md (decodeFp f a) (decodeFp f b).neg)
def fpMul (f : FpFmt) (md : Rnd) (a b : Nat) : Nat := encodeFp f md (Fv.mul (decodeFp f a) (decodeFp f b))
def fpDiv (f : FpFmt) (md : Rnd) (a b : Nat) : Nat := encodeFp f md (Fv.div (decodeFp f a) (decodeFp f b))
def fpSqrt (f : FpFmt) (md : Rnd) (a : Nat) : Nat := encodeFp f md (decodeFp f a).sqrt
def fpMin (f : FpFmt) (a b : Nat) : Nat := encodeFp f .rne (Fv.min (decodeFp f a) (decodeFp f b))
def fpMax (f : FpFmt) (a b : Nat) : Nat := encodeFp f .rne (Fv.max (decodeFp f a) (decodeFp f b))
/-- `(-1)^negp * a * b + (-1)^negc * c`, rounded once (R97, R124). -/
def fpFma (f : FpFmt) (md : Rnd) (negp negc : Bool) (a b c : Nat) : Nat :=
  let p := Fv.mul (decodeFp f a) (decodeFp f b)
  let p := if negp then p.neg else p
  let c := decodeFp f c
  let c := if negc then c.neg else c
  encodeFp f md (Fv.add md p c)

/-- The integer a finite value rounds to. -/
def roundInt (md : Rnd) (neg : Bool) (m : Nat) (e : Int) : Int :=
  let n : Int := (roundTo md neg m e 0 : Nat)
  if neg then -n else n

/-- Rounding to an integral value, the sign kept (R124 VROUND). -/
def fpRound (f : FpFmt) (md : Rnd) (a : Nat) : Nat :=
  match decodeFp f a with
  | .fin neg m e => encodeFp f .rne (.fin neg (roundTo md neg m e 0) 0)
  | v => encodeFp f .rne v

/-- The fractional part `a - floor a` (R124 VFRAC). -/
def fpFrac (f : FpFmt) (md : Rnd) (a : Nat) : Nat :=
  match decodeFp f a with
  | .fin neg m e =>
    let k := min e 0
    let x := atScale neg m e k
    let fr := (x % (2 ^ (-k).toNat : Nat)).toNat
    if fr = 0 then 0
    else
      let b := encodeFp f md (.fin false fr k)
      if b = f.bias <<< f.mb then b - 1 else b
  | _ => f.nanBits

/-- `a * 2^b`, rounded once (R124 VSCALE). -/
def fpScale (f : FpFmt) (md : Rnd) (a : Nat) (b : Int) : Nat :=
  match decodeFp f a with
  | .fin neg m e => encodeFp f md (.fin neg m (if m = 0 then 0 else e + b))
  | v => encodeFp f md v

/-- The class bit of R125. -/
def fpClass (f : FpFmt) (a : Nat) : Nat :=
  match decodeFp f a with
  | .nan => if a.testBit (f.mb - 1) then 512 else 256
  | .inf neg => if neg then 1 else 128
  | .fin neg m _ =>
    if m = 0 then (if neg then 8 else 16)
    else if m < 2 ^ f.mb then (if neg then 4 else 32)
    else if neg then 2 else 64

/-- Outcome of a conversion (R51): bits, or the fault case whose action is 3. -/
inductive CvtResult where
  | ok (bits : Nat)
  | fault (case_ : Nat)
  deriving DecidableEq, Repr

/-- What a conversion does with a case (R51): codes 0 saturate, 1 zero, 2 propagate, 3 fault. -/
structure Policy where
  ufl : Nat
  ofl : Nat
  inf : Nat
  nan : Nat
  deriving DecidableEq, Repr

/-- The fields of a policy byte (R51). -/
def policyOf (p : Nat) : Policy := ⟨bits p 7 6, bits p 5 4, bits p 3 2, bits p 1 0⟩

/-- The format of a floating-point type code (R66). -/
def fmtOf (t : Nat) : Option FpFmt :=
  match t with
  | 8 => some fmtF16
  | 9 => some fmtBf16
  | 10 => some fmtF32
  | 11 => some fmtF64
  | 12 => some fmtE4m3
  | 13 => some fmtE5m2
  | 15 => some fmtE2m1
  | _ => none

/-- An integer type code is signed (R66). -/
def tySigned (t : Nat) : Bool := t < 8 && t % 2 == 0
/-- Width of a type code (R66). -/
def widthOf (t : Nat) : Nat :=
  match t with
  | 0 | 1 | 12 | 13 => 8
  | 2 | 3 | 8 | 9 => 16
  | 4 | 5 | 10 => 32
  | 6 | 7 | 11 => 64
  | _ => 4
/-- MIN and MAX of an integer type (R41). -/
def intMin (t : Nat) : Int := if tySigned t then -(2 ^ (widthOf t - 1) : Nat) else 0
def intMax (t : Nat) : Int := if tySigned t then (2 ^ (widthOf t - 1) : Nat) - 1 else (2 ^ widthOf t : Nat) - 1

/-- The value of an element of any type but cb4 (R41, R43). -/
def valueOf (t x : Nat) : Fv :=
  match fmtOf t with
  | some f => decodeFp f (x % 2 ^ f.width)
  | none =>
    let v := if tySigned t then toSigned (widthOf t) x else ((x % 2 ^ widthOf t : Nat) : Int)
    .fin (decide (v < 0)) v.natAbs 0

/-- Policy results for a floating-point destination (R51). -/
def fpNanCase (f : FpFmt) (p : Policy) : CvtResult :=
  match p.nan with
  | 0 => .ok f.maxBits
  | 1 => .ok 0
  | 2 => .ok (if f.sp = .none then 0 else f.nanBits)
  | _ => .fault 0
def fpInfCase (f : FpFmt) (p : Policy) (neg : Bool) : CvtResult :=
  match p.inf with
  | 0 => .ok (f.signed neg f.maxBits)
  | 1 => .ok (f.signed neg 0)
  | 2 => .ok (match f.sp with
      | .ieee => f.signed neg f.infBits
      | .nanOnly => f.nanBits
      | .none => f.signed neg f.maxBits)
  | _ => .fault 1
def fpOvfCase (f : FpFmt) (p : Policy) (md : Rnd) (neg : Bool) : CvtResult :=
  match p.ofl with
  | 0 => .ok (f.signed neg f.maxBits)
  | 1 => .ok (f.signed neg 0)
  | 2 => .ok (match f.sp with
      | .ieee => f.signed neg (overflowBits f md neg)
      | .nanOnly => f.nanBits
      | .none => f.signed neg f.maxBits)
  | _ => .fault 2
def fpUflCase (f : FpFmt) (p : Policy) (neg : Bool) : CvtResult :=
  match p.ufl with
  | 0 => .ok (f.signed neg 1)
  | 1 => .ok (f.signed neg 0)
  | 2 => .ok (f.signed neg 0)
  | _ => .fault 3

/-- Conversion of a value to a floating-point format under a policy (R51). -/
def toFp (f : FpFmt) (md : Rnd) (p : Policy) : Fv → CvtResult
  | .nan => fpNanCase f p
  | .inf neg => fpInfCase f p neg
  | .fin neg m e =>
    if m = 0 then .ok (f.signed neg 0)
    else
      let (n, q) := roundFree f md neg m e
      if n = 0 then fpUflCase f p neg
      else
        let b := magBits f n q
        if b ≤ f.maxBits then .ok (f.signed neg b) else fpOvfCase f p md neg

/-- Conversion of a value to an integer type under a policy (R51). -/
def toInt (t : Nat) (md : Rnd) (p : Policy) : Fv → CvtResult
  | .nan =>
    match p.nan with
    | 0 => .ok (ofSigned (widthOf t) (intMax t))
    | 1 => .ok 0
    | 2 => .ok 0
    | _ => .fault 0
  | .inf neg =>
    match p.inf with
    | 1 => .ok 0
    | 3 => .fault 1
    | _ => .ok (ofSigned (widthOf t) (if neg then intMin t else intMax t))
  | .fin neg m e =>
    let v := roundInt md neg m e
    if intMin t ≤ v ∧ v ≤ intMax t then .ok (ofSigned (widthOf t) v)
    else
      match p.ofl with
      | 0 => .ok (ofSigned (widthOf t) (if neg then intMin t else intMax t))
      | 1 => .ok 0
      | 2 => .ok (ofSigned (widthOf t) v)
      | _ => .fault 2

/-- Conversion of an element between types other than cb4 (R51, R127). -/
def convertElem (dst src : Nat) (md : Rnd) (p : Policy) (x : Nat) : CvtResult :=
  match fmtOf dst with
  | some f => toFp f md p (valueOf src x)
  | none => toInt dst md p (valueOf src x)

/-- The index a value stores as in a cb4 destination (R47); `v` is the bits of an f32. -/
def cbIndex (cb : Vector (BitVec 16) 16) (v : Nat) : Nat :=
  let fv := decodeFp fmtF32 v
  if fv.isNan then 15
  else
    ((List.range 16).foldl (fun (best : Nat × Option Fv) i =>
      let c := decodeFp fmtBf16 (cb.toArray.getD i 0).toNat
      let d : Fv :=
        if c.isNan then .nan
        else if Fv.cmp fv c = 0 then .fin false 0 0
        else
          match decodeFp fmtF32 (encodeFp fmtF32 .rne (Fv.add .rne fv c.neg)) with
          | .inf _ => .inf false
          | .fin _ m e => .fin false m e
          | .nan => .nan
      if d.isNan then best
      else match best.2 with
        | none => (i, some d)
        | some b => if Fv.cmp d b < 0 then (i, some d) else best) (15, none)).1

/-- Exponent floor(log2 |t|) of a non-zero term. -/
def expOf (m : Nat) (e : Int) : Int := (Nat.log2 m : Int) + e

/-- One group of R53: accumulator bits and exact product terms; a product of zero and infinity is NaN. -/
def groupSum (c : Nat) (products : List Fv) : Nat :=
  let terms := decodeFp fmtF32 c :: products
  if terms.any Fv.isNan then fmtF32.nanBits
  else
    let pinf := terms.any fun t => t.isInf && !t.isNeg
    let ninf := terms.any fun t => t.isInf && t.isNeg
    if pinf && ninf then fmtF32.nanBits
    else if pinf then fmtF32.infBits
    else if ninf then fmtF32.signed true fmtF32.infBits
    else
      let exps := terms.filterMap fun t => match t with
        | .fin _ m e => if m = 0 then none else some (expOf m e)
        | _ => none
      match exps with
      | [] => if terms.all Fv.isNeg then fmtF32.signed true 0 else 0
      | x :: xs =>
        let emax := xs.foldl max x
        let q := emax - 47
        let s : Int := terms.foldl (fun acc t => match t with
          | .fin neg m e =>
            let n : Int := (roundTo .rtz neg m e q : Nat)
            if neg then acc - n else acc + n
          | _ => acc) 0
        if s = 0 then (if terms.all (fun t => t.isNeg && t.isZero) then fmtF32.signed true 0 else 0)
        else encodeFp fmtF32 .rne (.fin (decide (s < 0)) s.natAbs q)

end Sys2Proof.Machine
end

