-- ==== Sys2Proof/Config.lean ====
section
/-! DEFINITION. What an implementation fixes and the values the spec leaves open. Every constant here is opaque:
no proof can see its value, so a statement about the machine holds whatever it is. -/

namespace Sys2Proof.Config

/-- Byte `off` of a freshly allocated scratchpad range or tile-store row group, allocation `seed` (R235, R261:
unspecified data at start). Log entry 5. -/
opaque padByte (seed off : Nat) : Byte

/-- The choice, among `n` allowed orders or results, made the `k`-th time one is open (R147, R159, R361). Log entry 10. -/
opaque pick (k n : Nat) : Nat

/-- Which of the results within its bound the special-function unit returns: function code, format and input bits
give one choice, the same on every core (R45, R56). Log entry 9. -/
opaque sfuPick (fn : Nat) (input : BitVec 32) : Nat

/-- Which line, among those a cache may let go, its `k`-th choice of a victim names: `which` 0 and 1 are the L2s of the dies, 2 and 3
their system caches (R264, R265 give no rule). Log entry 47. -/
opaque victim (which k : Nat) : Nat

/-- The `k`-th value a PCIe function or other unit outside the module returns to a read of `addr` (R376). Log entry 11. -/
opaque deviceRead (k addr : Nat) : Word

/-- The fused weight in picojoules of an event class (R414), numbered as `Die.work` counts them, and the static energy of a core for
one clock. Log entry 13. -/
opaque eventPj (cls : Nat) : Nat
opaque staticPj : Nat

/-- The Jorrad chiplet's measured power in mW over the `k`-th period (R420). Log entry 13. -/
opaque jorradPower (k : Nat) : Nat

/-- Pixel `i` of the `k`-th scan of a line is not fetched in time (R411): what is in time is the memory's timing. Log entry 39. -/
opaque pixelLate (k i : Nat) : Bool

/-- The batches the raster front end of a die has room for (R288). Log entry 34. -/
opaque frontRoom : Nat

/-- The unique device secret (R385). This and the fuses below: DESIGN CHOICE, safe, log entry 8. -/
opaque uds : BitVec 256
/-- Root-key digests KD0 to KD3, byte 0 the least significant (R385). -/
opaque keyDigest (k : Fin 4) : BitVec 512
/-- The revocation bit of each root key (R385). -/
opaque keyRevoked (k : Fin 4) : Bool
/-- The lifecycle fuse, 0 to 2 (R385). -/
opaque lifecycle : Fin 3
/-- The debug-enable fuse (R385). -/
opaque debugFuse : Bool
/-- The boot ROM revision (R391). -/
opaque romRevision : BitVec 32
/-- The `k`-th 32 bytes of the attestation engine's entropy source (R393). -/
opaque entropy (k : Nat) : BitVec 256

end Sys2Proof.Config
end

