-- ==== Sys2Proof/Syntax.lean ====
section
/-! DEFINITION. The fields of the eight instruction formats (03 R58 to R64), the bodies of queue packets (17 R341),
and the one inductive of all instructions and events. -/

namespace Sys2Proof

/-- Fields of formats A and F below MAJOR and MINOR (R58). -/
structure FmtA where
  d : BitVec 6
  a : BitVec 6
  b : BitVec 6
  c : BitVec 6
  pm : BitVec 4
  pi : BitVec 1
  ty : BitVec 4
  rnd : BitVec 3
  ty2 : BitVec 4
  bx : BitVec 1
  mod : BitVec 11
  deriving DecidableEq, Repr

/-- Fields of format I (R59); `res` is reserved bit 23. -/
structure FmtI where
  d : BitVec 6
  a : BitVec 6
  imm : BitVec 32
  res : BitVec 1
  ty : BitVec 4
  mod : BitVec 3
  deriving DecidableEq, Repr

/-- Fields of format M (R60); `space` is MINOR bits 5:4 (R69), `hi` is OFFHI or SCOPE. -/
structure FmtM where
  space : BitVec 2
  d : BitVec 6
  a : BitVec 6
  b : BitVec 6
  hi : BitVec 6
  pm : BitVec 4
  pi : BitVec 1
  ty : BitVec 4
  lo : BitVec 18
  nt : BitVec 1
  deriving DecidableEq, Repr

/-- Fields of format B (R61); `res1` is bit 46, `res2` bits 1:0. -/
structure FmtB where
  cond : BitVec 4
  uns : BitVec 1
  res1 : BitVec 1
  a : BitVec 6
  b : BitVec 6
  off : BitVec 32
  res2 : BitVec 2
  deriving DecidableEq, Repr

/-- Fields of format K (R62). -/
structure FmtK where
  d : BitVec 6
  a : BitVec 6
  b : BitVec 6
  scope : BitVec 6
  kidx : BitVec 10
  kspace : BitVec 2
  kmode : BitVec 1
  kval : BitVec 15
  deriving DecidableEq, Repr

/-- Fields of format E (R63); `res` is bits 30:19. -/
structure FmtE where
  d : BitVec 6
  a : BitVec 6
  b : BitVec 6
  slot : BitVec 3
  res : BitVec 12
  eng : BitVec 3
  stream : BitVec 16
  deriving DecidableEq, Repr

/-- Fields of format S (R64). -/
structure FmtS where
  d : BitVec 6
  a : BitVec 6
  b : BitVec 6
  scope : BitVec 6
  sel : BitVec 8
  imm : BitVec 20
  deriving DecidableEq, Repr

/-- Body of a LAUNCH_GRID packet (R341). -/
structure GridPacket where
  kdesc : Nat
  args : Nat
  teams : Nat
  cls : Nat
  deadline : Nat
  fence : Nat
  fval : Nat
  rsb : Nat
  deriving DecidableEq, Repr

/-- Body of a LAUNCH_GRAPH packet (R341); `ncnt` is the field, nodes less 1. -/
structure GraphPacket where
  nodes : Nat
  ncnt : Nat
  tensors : Nat
  fence : Nat
  fval : Nat
  rsb : Nat
  deriving DecidableEq, Repr

/-- Body of a COPY packet (R341). -/
structure CopyPacket where
  src : Nat
  dst : Nat
  bytes : Nat
  qos : Nat
  fence : Nat
  fval : Nat
  deriving DecidableEq, Repr

/-- Body of a FLIP packet (R341). -/
structure FlipPacket where
  image : Nat
  release : Nat
  dhead : Fin 2
  fence : Nat
  fval : Nat
  deriving DecidableEq, Repr

/-- The PCIe AtomicOps a home performs for an I/O requester (R382, R384). -/
inductive IoAtomicOp where
  | fetchAdd
  | swap
  | cas
  deriving DecidableEq, Repr

/-- What the sensors and meters tell the arbiter at a period boundary: the Jorrad chiplet's power and the charged
power of LPDDR-6, links and display, in milliwatts; for each die its charge of the period in picojoules; and the
charges in picojoules of the period to contexts, partitions, cores and to the rest of each die (R414, R416, R420). -/
structure PeriodMeter where
  jorradMw : Nat
  deriving DecidableEq, Repr

/-- The instructions and events of the machine: one constructor for each row of spec/opcode_table.json, in the
table's order. A constructor of an Esros instruction carries the fields of its word (R58 to R64); an event carries
what the hardware or the outside world supplies. -/
inductive Instr where
  /-- ADD (R95): Scalar integer add of two registers at the width TYPE selects. -/
  | add (f : FmtA)
  /-- ADD_IMM (R95): Scalar integer add of a register and a sign-extended 32-bit immediate. -/
  | addImm (f : FmtI)
  /-- SUB (R95): Scalar integer subtract. -/
  | sub (f : FmtA)
  /-- MUL (R95): Low w bits of a scalar product. -/
  | mul (f : FmtA)
  /-- MUL_IMM (R95): Low w bits of the product of a register and an immediate. -/
  | mulImm (f : FmtI)
  /-- MULH (R95): High w bits of the exact scalar product. -/
  | mulh (f : FmtA)
  /-- DIV (R42): Scalar integer quotient that never traps. -/
  | div (f : FmtA)
  /-- REM (R42): Scalar integer remainder that never traps. -/
  | rem (f : FmtA)
  /-- AND (R95): Bitwise AND of two registers. -/
  | and (f : FmtA)
  /-- AND_IMM (R95): Bitwise AND of a register and an immediate. -/
  | andImm (f : FmtI)
  /-- OR (R95): Bitwise OR of two registers. -/
  | or (f : FmtA)
  /-- OR_IMM (R95): Bitwise OR of a register and an immediate. -/
  | orImm (f : FmtI)
  /-- XOR (R95): Bitwise XOR of two registers. -/
  | xor (f : FmtA)
  /-- XOR_IMM (R95): Bitwise XOR of a register and an immediate. -/
  | xorImm (f : FmtI)
  /-- ANDN (R95): a AND NOT b. -/
  | andn (f : FmtA)
  /-- SHL (R95): Shift left by b mod w. -/
  | shl (f : FmtA)
  /-- SHL_IMM (R95): Shift left by an immediate count mod w. -/
  | shlImm (f : FmtI)
  /-- SHR (R95): Logical shift right by b mod w. -/
  | shr (f : FmtA)
  /-- SHR_IMM (R95): Logical shift right by an immediate count. -/
  | shrImm (f : FmtI)
  /-- SAR (R95): Arithmetic shift right by b mod w. -/
  | sar (f : FmtA)
  /-- SAR_IMM (R95): Arithmetic shift right by an immediate count. -/
  | sarImm (f : FmtI)
  /-- ROL (R95): Rotate left within w bits. -/
  | rol (f : FmtA)
  /-- ROL_IMM (R95): Rotate left within w bits by an immediate. -/
  | rolImm (f : FmtI)
  /-- ROR (R95): Rotate right within w bits. -/
  | ror (f : FmtA)
  /-- ROR_IMM (R95): Rotate right within w bits by an immediate. -/
  | rorImm (f : FmtI)
  /-- MIN (R95): Smaller of two registers, signed or unsigned by type. -/
  | min (f : FmtA)
  /-- MIN_IMM (R95): Smaller of a register and an immediate. -/
  | minImm (f : FmtI)
  /-- MAX (R95): Larger of two registers. -/
  | max (f : FmtA)
  /-- MAX_IMM (R95): Larger of a register and an immediate. -/
  | maxImm (f : FmtI)
  /-- CLZ (R95): Count leading zero bits. -/
  | clz (f : FmtA)
  /-- CTZ (R95): Count trailing zero bits. -/
  | ctz (f : FmtA)
  /-- POPC (R95): Count of 1 bits. -/
  | popc (f : FmtA)
  /-- BREV (R95): Bit reversal within w bits. -/
  | brev (f : FmtA)
  /-- BFX (R96): Extracts a bit field whose position and length come from x[B]. -/
  | bfx (f : FmtA)
  /-- BFI (R96): Inserts a bit field into x[D]. -/
  | bfi (f : FmtA)
  /-- SEL (R95): Selects a or b by whether x[C] is non-zero. -/
  | sel (f : FmtA)
  /-- MOV (R95): Scalar register move. -/
  | mov (f : FmtA)
  /-- ADDSH (R95): a + (b << s). -/
  | addsh (f : FmtA)
  /-- CMP (R95): Writes 1 when the condition holds between two registers. -/
  | cmp (f : FmtA)
  /-- CMP_IMM (R95): Writes 1 when the condition holds between a register and an immediate. -/
  | cmpImm (f : FmtI)
  /-- MOVI (R95): Loads a sign-extended 32-bit immediate. -/
  | movi (f : FmtI)
  /-- MOVHI (R95): Sets bits 63:32 of x[D] and keeps bits 31:0. -/
  | movhi (f : FmtI)
  /-- FADD (R97): Scalar floating-point add. -/
  | fadd (f : FmtA)
  /-- FSUB (R97): Scalar floating-point subtract. -/
  | fsub (f : FmtA)
  /-- FMUL (R97): Scalar floating-point multiply. -/
  | fmul (f : FmtA)
  /-- FMA (R97): Scalar fused multiply-add with one rounding. -/
  | fma (f : FmtA)
  /-- FDIV (R97): Correctly rounded scalar division. -/
  | fdiv (f : FmtA)
  /-- FMIN (R45): Scalar floating-point minimum. -/
  | fmin (f : FmtA)
  /-- FMAX (R45): Scalar floating-point maximum. -/
  | fmax (f : FmtA)
  /-- FCMP (R97): Scalar floating-point compare. -/
  | fcmp (f : FmtA)
  /-- FCVT (R98): Scalar conversion under a policy, with a possible CONVERT trap. -/
  | fcvt (f : FmtA)
  /-- BRA (R99): Direct branch. -/
  | bra (f : FmtB)
  /-- BRA_INDIRECT (R99): Indirect branch to x[A] + 8 × OFFSET. -/
  | braIndirect (f : FmtB)
  /-- BCC (R99): Conditional branch on a compare of two scalar registers. -/
  | bcc (f : FmtB)
  /-- BMK (R99): Branch on a mask condition. -/
  | bmk (f : FmtB)
  /-- CALL (R99): Direct call; writes x62. -/
  | call (f : FmtB)
  /-- CALL_INDIRECT (R99): Indirect call; writes x62 after computing the target. -/
  | callIndirect (f : FmtB)
  /-- RET (R99): Return to the address in x[A]. -/
  | ret (f : FmtB)
  /-- LOOP (R99): Decrements a counter and branches while it is non-zero. -/
  | loop (f : FmtB)
  /-- SPLIT (R102): Sorts lanes into arm lists and pushes a split-stack entry. -/
  | split (f : FmtA)
  /-- ARM (R103): Activates an arm of the top split entry. -/
  | arm (f : FmtS)
  /-- JOIN (R104): Pops the split stack and restores VL and m1-m15. -/
  | join
  /-- EXIT (R106): Ends the warp. -/
  | exit
  /-- YIELD (R107): Skips a clock and goes last in rotating order. -/
  | yield
  /-- NOP (R108): No effect. -/
  | nop
  /-- TRAP (R112): Raises a TRAPI trap. -/
  | trap (f : FmtS)
  /-- SVC (R112): Raises an SVCALL trap. -/
  | svc (f : FmtS)
  /-- TRET (R111): Returns from a trap to sr.epc and arms replay. -/
  | tret
  /-- SRRD (R113): Reads a special register. -/
  | srrd (f : FmtS)
  /-- SRWR (R113): Writes the RW fields of a special register. -/
  | srwr (f : FmtS)
  /-- SNAP (R367): Reads one word of a snapshot register. -/
  | snap (f : FmtS)
  /-- ROVE_OFF (R115): Sets ROVEOFF. -/
  | roveOff
  /-- ROVE_ON (R115): Clears ROVEOFF. -/
  | roveOn
  /-- HALT (R116): Stops the warp and sends a halt notice to the distaff. -/
  | halt
  /-- VADD (R120): Vector integer add. -/
  | vadd (f : FmtA)
  /-- VSUB (R120): Vector integer subtract. -/
  | vsub (f : FmtA)
  /-- VADDS (R120): Saturating vector add. -/
  | vadds (f : FmtA)
  /-- VSUBS (R120): Saturating vector subtract. -/
  | vsubs (f : FmtA)
  /-- VMUL (R120): Low w bits of vector products. -/
  | vmul (f : FmtA)
  /-- VMULH (R120): High w bits of vector products. -/
  | vmulh (f : FmtA)
  /-- VMAD (R120): Vector integer multiply-add. -/
  | vmad (f : FmtA)
  /-- VDIV (R120): Vector integer quotient that never traps. -/
  | vdiv (f : FmtA)
  /-- VMIN (R120): Vector integer minimum. -/
  | vmin (f : FmtA)
  /-- VMAX (R120): Vector integer maximum. -/
  | vmax (f : FmtA)
  /-- VABS (R120): Vector absolute value. -/
  | vabs (f : FmtA)
  /-- VNEG (R120): Vector negation. -/
  | vneg (f : FmtA)
  /-- VAND (R120): Vector bitwise AND. -/
  | vand (f : FmtA)
  /-- VOR (R120): Vector bitwise OR. -/
  | vor (f : FmtA)
  /-- VXOR (R120): Vector bitwise XOR. -/
  | vxor (f : FmtA)
  /-- VANDN (R120): Vector a AND NOT b. -/
  | vandn (f : FmtA)
  /-- VNOT (R120): Vector bitwise NOT. -/
  | vnot (f : FmtA)
  /-- VSHL (R120): Vector shift left. -/
  | vshl (f : FmtA)
  /-- VSHR (R120): Vector logical shift right. -/
  | vshr (f : FmtA)
  /-- VSAR (R120): Vector arithmetic shift right. -/
  | vsar (f : FmtA)
  /-- VCLZ (R120): Vector count of leading zeros. -/
  | vclz (f : FmtA)
  /-- VPOPC (R120): Vector population count. -/
  | vpopc (f : FmtA)
  /-- VBFX (R121): Vector bit-field extract. -/
  | vbfx (f : FmtA)
  /-- VCMP (R122): Vector integer compare into a mask. -/
  | vcmp (f : FmtA)
  /-- VSEL (R123): Per-element select by a mask. -/
  | vsel (f : FmtA)
  /-- VMOV (R123): Vector move. -/
  | vmov (f : FmtA)
  /-- VBCAST (R123): Broadcasts a scalar to every active element. -/
  | vbcast (f : FmtA)
  /-- VIOTA (R123): Writes x[B] + e to each element. -/
  | viota (f : FmtA)
  /-- VEXTR (R123): Extracts one element to a scalar register. -/
  | vextr (f : FmtA)
  /-- VINS (R123): Inserts a scalar into one element. -/
  | vins (f : FmtA)
  /-- VFADD (R124): Vector floating-point add. -/
  | vfadd (f : FmtA)
  /-- VFSUB (R124): Vector floating-point subtract. -/
  | vfsub (f : FmtA)
  /-- VFMUL (R124): Vector floating-point multiply. -/
  | vfmul (f : FmtA)
  /-- VFMA (R124): Vector fused multiply-add. -/
  | vfma (f : FmtA)
  /-- VFMIN (R124): Vector floating-point minimum. -/
  | vfmin (f : FmtA)
  /-- VFMAX (R124): Vector floating-point maximum. -/
  | vfmax (f : FmtA)
  /-- VFCMP (R122): Vector floating-point compare into a mask. -/
  | vfcmp (f : FmtA)
  /-- VFCLASS (R125): Writes class bits per element. -/
  | vfclass (f : FmtA)
  /-- VROUND (R124): Rounds each element to an integral value. -/
  | vround (f : FmtA)
  /-- VFRAC (R124): Fractional part of each element. -/
  | vfrac (f : FmtA)
  /-- VSCALE (R124): a × 2^b rounded once. -/
  | vscale (f : FmtA)
  /-- VDOT2 (R126): Two-product dot accumulate per lane. -/
  | vdot2 (f : FmtA)
  /-- VDOT4 (R126): Four-product dot accumulate per lane. -/
  | vdot4 (f : FmtA)
  /-- VCVT (R127): Vector conversion under a policy, with a possible CONVERT trap. -/
  | vcvt (f : FmtA)
  /-- VRCP (R129): Vector reciprocal. -/
  | vrcp (f : FmtA)
  /-- VRSQ (R129): Vector reciprocal square root. -/
  | vrsq (f : FmtA)
  /-- VSQRT (R129): Correctly rounded vector square root. -/
  | vsqrt (f : FmtA)
  /-- VFDIV (R129): Correctly rounded vector division. -/
  | vfdiv (f : FmtA)
  /-- VEXP2 (R129): Vector 2^a. -/
  | vexp2 (f : FmtA)
  /-- VLOG2 (R129): Vector log2. -/
  | vlog2 (f : FmtA)
  /-- VSINPI (R129): Vector sin(πa). -/
  | vsinpi (f : FmtA)
  /-- VCOSPI (R129): Vector cos(πa). -/
  | vcospi (f : FmtA)
  /-- VTANH (R129): Vector tanh. -/
  | vtanh (f : FmtA)
  /-- VPERM (R131): Permutes elements by an index vector. -/
  | vperm (f : FmtA)
  /-- VPERMX (R131): Permutes elements from two registers. -/
  | vpermx (f : FmtA)
  /-- VROT (R131): Rotates elements within VL. -/
  | vrot (f : FmtA)
  /-- VSHUFX (R131): XOR, up or down shuffle step. -/
  | vshufx (f : FmtA)
  /-- VTRN (R131): Interleaves blocks of 2^s elements of two registers. -/
  | vtrn (f : FmtA)
  /-- VRED (R134): Fixed-tree reduction over member lanes. -/
  | vred (f : FmtA)
  /-- VSCAN (R135): Prefix scan over member lanes. -/
  | vscan (f : FmtA)
  /-- VVOTE (R136): Vote over member lanes into a mask. -/
  | vvote (f : FmtA)
  /-- VCOMP (R132): Packs selected lanes into low positions. -/
  | vcomp (f : FmtA)
  /-- VEXPD (R132): Expands low positions into selected lanes. -/
  | vexpd (f : FmtA)
  /-- MAND (R137): Mask AND. -/
  | mand (f : FmtA)
  /-- MOR (R137): Mask OR. -/
  | mor (f : FmtA)
  /-- MXOR (R137): Mask XOR. -/
  | mxor (f : FmtA)
  /-- MANDN (R137): Mask a AND NOT b. -/
  | mandn (f : FmtA)
  /-- MNOT (R137): Mask NOT. -/
  | mnot (f : FmtA)
  /-- MMOV (R137): Mask move. -/
  | mmov (f : FmtA)
  /-- MSET (R137): Sets active mask bits to 0 or 1. -/
  | mset (f : FmtA)
  /-- MPOPC (R137): Counts set mask bits below VL. -/
  | mpopc (f : FmtA)
  /-- MFFS (R137): Lowest set mask position below VL. -/
  | mffs (f : FmtA)
  /-- MTOX (R137): Copies half a mask to a scalar register. -/
  | mtox (f : FmtA)
  /-- XTOM (R137): Copies a scalar register into half a mask. -/
  | xtom (f : FmtA)
  /-- CBLD (R138): Loads the codebook from 32 bytes of a register. -/
  | cbld (f : FmtA)
  /-- CBST (R138): Stores the codebook into 32 bytes of a register. -/
  | cbst (f : FmtA)
  /-- LD (R142): Scalar load from the named address space. -/
  | ld (f : FmtM)
  /-- ST (R142): Scalar store. -/
  | st (f : FmtM)
  /-- VLD (R145): Contiguous vector load. -/
  | vld (f : FmtM)
  /-- VST (R145): Contiguous vector store. -/
  | vst (f : FmtM)
  /-- VLDS (R145): Strided vector load. -/
  | vlds (f : FmtM)
  /-- VSTS (R145): Strided vector store. -/
  | vsts (f : FmtM)
  /-- VGATH (R146): Gather by per-lane index. -/
  | vgath (f : FmtM)
  /-- VSCAT (R146): Scatter by per-lane index. -/
  | vscat (f : FmtM)
  /-- PREF (R152): Prefetches a line into L1 and L2 with a lease. -/
  | pref (f : FmtM)
  /-- ATOM_ADD (R143): Atomic integer add returning the old value. -/
  | atomAdd (f : FmtM)
  /-- ATOM_AND (R143): Atomic AND. -/
  | atomAnd (f : FmtM)
  /-- ATOM_OR (R143): Atomic OR. -/
  | atomOr (f : FmtM)
  /-- ATOM_XOR (R143): Atomic XOR. -/
  | atomXor (f : FmtM)
  /-- ATOM_MIN (R143): Atomic integer minimum. -/
  | atomMin (f : FmtM)
  /-- ATOM_MAX (R143): Atomic integer maximum. -/
  | atomMax (f : FmtM)
  /-- ATOM_XCHG (R143): Atomic exchange. -/
  | atomXchg (f : FmtM)
  /-- ATOM_CAS (R143): Atomic compare and swap. -/
  | atomCas (f : FmtM)
  /-- ATOM_FADD (R143): Atomic floating-point add. -/
  | atomFadd (f : FmtM)
  /-- ATOM_FMIN (R143): Atomic floating-point minimum. -/
  | atomFmin (f : FmtM)
  /-- ATOM_FMAX (R143): Atomic floating-point maximum. -/
  | atomFmax (f : FmtM)
  /-- VATOM_ADD (R148): Per-lane atomic add. -/
  | vatomAdd (f : FmtM)
  /-- VATOM_AND (R148): Per-lane atomic AND. -/
  | vatomAnd (f : FmtM)
  /-- VATOM_OR (R148): Per-lane atomic OR. -/
  | vatomOr (f : FmtM)
  /-- VATOM_XOR (R148): Per-lane atomic XOR. -/
  | vatomXor (f : FmtM)
  /-- VATOM_MIN (R148): Per-lane atomic minimum. -/
  | vatomMin (f : FmtM)
  /-- VATOM_MAX (R148): Per-lane atomic maximum. -/
  | vatomMax (f : FmtM)
  /-- VATOM_XCHG (R148): Per-lane atomic exchange. -/
  | vatomXchg (f : FmtM)
  /-- VATOM_CAS (R148): Per-lane atomic compare and swap. -/
  | vatomCas (f : FmtM)
  /-- VATOM_FADD (R148): Per-lane atomic floating-point add. -/
  | vatomFadd (f : FmtM)
  /-- VATOM_FMIN (R148): Per-lane atomic floating-point minimum. -/
  | vatomFmin (f : FmtM)
  /-- VATOM_FMAX (R148): Per-lane atomic floating-point maximum. -/
  | vatomFmax (f : FmtM)
  /-- FENCE_ACQ (R155): Acquire fence at a scope. -/
  | fenceAcq (f : FmtS)
  /-- FENCE_REL (R155): Release fence at a scope. -/
  | fenceRel (f : FmtS)
  /-- FENCE_ACQREL (R155): Acquire-and-release fence at a scope. -/
  | fenceAcqrel (f : FmtS)
  /-- KCFG (R161): Reconfigures a knot as one update at its home. -/
  | kcfg (f : FmtK)
  /-- KARR (R160): Release then an arrival of n at a knot. -/
  | karr (f : FmtK)
  /-- KSIG (R160): Release then an arrival, optionally setting ERR. -/
  | ksig (f : FmtK)
  /-- KWAIT (R162): Waits for a phase or threshold condition until a deadline. -/
  | kwait (f : FmtK)
  /-- KTRY (R162): Tests a knot condition once. -/
  | ktry (f : FmtK)
  /-- KARRW (R163): Arrives, then waits for the next phase flip. -/
  | karrw (f : FmtK)
  /-- KRD (R160): Reads the knot word, relaxed. -/
  | krd (f : FmtK)
  /-- TLAUNCH (R166): Launches a task on the die and returns a handle or a refusal. -/
  | tlaunch (f : FmtS)
  /-- TFENCE (R167): Waits on a task until a deadline and writes a status. -/
  | tfence (f : FmtS)
  /-- NOTIFY (R169): System release fence, then one posted 64-bit store. -/
  | notify (f : FmtS)
  /-- SLEEPUNTIL (R170): Sleeps until a stage-time deadline. -/
  | sleepuntil (f : FmtS)
  /-- CPY (R174): Pushes a copy record into the core's copy issue queue. -/
  | cpy (f : FmtE)
  /-- CPYT (R182): Pushes a stage copy on a reel stream and returns its promise. -/
  | cpyt (f : FmtE)
  /-- CPYQ (R185): Reads copy status and clears ERRCNT and LASTERR. -/
  | cpyq (f : FmtE)
  /-- MXACQ (R186): Reserves the team's matrix engines all or nothing. -/
  | mxacq (f : FmtE)
  /-- MXREL (R186): Releases the team's matrix engines after their queues drain. -/
  | mxrel (f : FmtE)
  /-- MXPUSH (R187): Pushes a matrix record to a held engine. -/
  | mxpush (f : FmtE)
  /-- MXQS (R193): Reads the state of a matrix engine. -/
  | mxqs (f : FmtE)
  /-- TSLD (R194): Loads a tile-store row into a register. -/
  | tsld (f : FmtA)
  /-- TSST (R194): Stores a register into a tile-store row. -/
  | tsst (f : FmtA)
  /-- TSZERO (R194): Zeroes n tile-store rows. -/
  | tszero (f : FmtA)
  /-- XFM_CVT (R195): Conversion on the transform pipe. -/
  | xfmCvt (f : FmtA)
  /-- XFM_QUANT (R195): cb4 quantisation on the transform pipe. -/
  | xfmQuant (f : FmtA)
  /-- XFM_TR8 (R195): Transposes 16 × 16 tiles of 8-bit elements. -/
  | xfmTr8 (f : FmtA)
  /-- XFM_TR16 (R195): Transposes 16 × 16 tiles of 16-bit elements. -/
  | xfmTr16 (f : FmtA)
  /-- XFM_TR32 (R195): Transposes 16 × 16 tiles of 32-bit elements. -/
  | xfmTr32 (f : FmtA)
  /-- XFM_PACK (R195): Packs lanes into narrow elements. -/
  | xfmPack (f : FmtA)
  /-- XFM_UNPACK (R195): Unpacks narrow elements into lanes. -/
  | xfmUnpack (f : FmtA)
  /-- XFM_REPLY (R195): The transform pipe writes the destination about 24 clocks after issue. -/
  | xfmReply (d : Fin 2) (core : Fin 24) (pipe : Fin 2)
  /-- SAMPLE (R199): Filtered texture sample. -/
  | sample (f : FmtA)
  /-- SGATH (R198): Gathers one channel of the bilinear footprint. -/
  | sgath (f : FmtA)
  /-- TLD (R198): Loads one decoded, unfiltered texel. -/
  | tld (f : FmtA)
  /-- TQRY (R201): Queries a texture level's size and format. -/
  | tqry (f : FmtA)
  /-- WTINV (R202): Drops one slot's weight table and decoded texels on the core. -/
  | wtinv (f : FmtA)
  /-- WTINV_ALL (R202): Drops every weight table, decoded texel and sampler line of the core. -/
  | wtinvAll (f : FmtA)
  /-- WTPF (R202): Prefetches a slot's weight table. -/
  | wtpf (f : FmtA)
  /-- TRACE (R203): Starts a ray query per lane and traverses to a result or candidate. -/
  | trace (f : FmtA)
  /-- RQNEXT (R204): Rejects a pending candidate and resumes traversal. -/
  | rqnext (f : FmtA)
  /-- RQCOMMIT (R204): Commits the pending candidate. -/
  | rqcommit (f : FmtA)
  /-- RQTERM (R204): Ends the query and writes the closest committed hit. -/
  | rqterm (f : FmtA)
  /-- GEMIT_VTX (R206): Emits vertices into the open batch. -/
  | gemitVtx (f : FmtA)
  /-- GEMIT_PRIM (R206): Emits triangles into the open batch. -/
  | gemitPrim (f : FmtA)
  /-- GEMIT_END (R288): Closes the batch and hands it to the raster front end. -/
  | gemitEnd (f : FmtA)
  /-- FEMIT (R297): Sends each active lane's fragment to the depth and blend unit. -/
  | femit (f : FmtA)
  /-- QWAIT (R354): Distaff thread sleeps until an event is pending and reads the events. -/
  | qwait (f : FmtS)
  /-- QTAIL (R354): Reads PUB of the bound queue as an acquire. -/
  | qtail (f : FmtS)
  /-- QHAND_PACKET (R354): Hands a packet to the swift. -/
  | qhandPacket (f : FmtS)
  /-- QHAND_NODE (R354): Hands one node of a graph to the swift. -/
  | qhandNode (f : FmtS)
  /-- PRD (R354): Reads a distaff port. -/
  | prd (f : FmtS)
  /-- PWR (R354): Writes a distaff port. -/
  | pwr (f : FmtS)
  /-- FANSW (R363): Answers a spool record as resolved or failed. -/
  | fansw (f : FmtS)
  /-- LOAD_DATA_RETURN (R151): Load, gather or sample data returns and is written or found uncorrectable. -/
  | loadDataReturn (who : Agent) (n : Nat) (bad : Option Nat)
  /-- ROVE_ENTER (R32): A stalled warp checkpoints and begins roving. -/
  | roveEnter (who : Agent)
  /-- ROVE_INSTRUCTION_LIMIT (R37): Roving ends after 1,024 executed instructions. -/
  | roveInstructionLimit (who : Agent)
  /-- ROVE_RESTORE_DONE (R38): Eight clocks after restore begins the slot frees and the warp resumes. -/
  | roveRestoreDone (who : Agent)
  /-- LOGICAL_TICK (R221): Every 1,024 clocks TC advances and resident warps' wclk rises. -/
  | logicalTick (d : Fin 2)
  /-- KNOT_UPDATE (R159): The knot home applies an arrival, KCFG or error signal and tests waiters. -/
  | knotUpdate (n : Nat)
  /-- DEADLINE_REACHED (R164): A wait or sleep deadline passes; timeout status or MISSED_PROMISE. -/
  | deadlineReached (who : Agent)
  /-- DEADLOCK_DETECT (R247): The count reaches 65,536 clocks and the cluster freezes with DEADLOCK. -/
  | deadlockDetect (d : Fin 2) (cluster : Nat)
  /-- COMMAND_START (R172): An accepted engine command's wait is satisfied and it starts. -/
  | commandStart (cmd : Nat)
  /-- COPY_COMPLETE (R177): A copy command ends and signals its knot. -/
  | copyComplete (cmd : Nat)
  /-- MATRIX_COMPLETE (R189): A matrix command ends and signals its knot. -/
  | matrixComplete (cmd : Nat)
  /-- STAGE_COPY_COMPLETE (R183): A stage copy's last flit leaves the module. -/
  | stageCopyComplete (cmd : Nat)
  /-- SPOOL_POST (R361): A fault record or notice is written to the spool ring. -/
  | spoolPost (d : Fin 2)
  /-- ERROR_LOG_POST (R430): An error record is written to the error log. -/
  | errorLogPost (d : Fin 2)
  /-- TEAM_PLACE (R240): The swift places a team or cluster with room. -/
  | teamPlace (d : Fin 2)
  /-- TEAM_RETIRE (R236): A team whose warps and commands have ended retires. -/
  | teamRetire (team : Nat)
  /-- PREEMPT_REQUEST (R249): A team is stopped at instruction boundaries and saved. -/
  | preemptRequest (team : Nat)
  /-- PREEMPT_CLASS0 (R369): A class-0 node passed over for 10 µs causes pre-emption. -/
  | preemptClass0 (d : Fin 2)
  /-- TEAM_RESUME (R250): A pre-empted team resumes on a core. -/
  | teamResume (team : Nat)
  /-- LAUNCH_GRID (R342): Packet that enters a grid into the ready pool. -/
  | launchGrid (q : QueueRef) (p : GridPacket)
  /-- LAUNCH_GRAPH (R347): Packet that reads and enters a node graph. -/
  | launchGraph (q : QueueRef) (p : GraphPacket)
  /-- COPY (R342): Packet that streams bytes between two global buffers. -/
  | copy (q : QueueRef) (p : CopyPacket)
  /-- WAIT_FENCE (R342): Packet that holds later packets until a fence word is satisfied. -/
  | waitFence (q : QueueRef) (addr value : Nat) (abortDep : Bool)
  /-- WAIT_FENCE_SATISFIED (R342): The awaited fence word is satisfied and the queue continues. -/
  | waitFenceSatisfied (q : QueueRef)
  /-- SIGNAL_FENCE (R344): Packet that signals a fence word. -/
  | signalFence (q : QueueRef) (addr value : Nat)
  /-- FLIP (R413): Packet that queues an image for a display head. -/
  | flip (q : QueueRef) (p : FlipPacket)
  /-- TIMESTAMP (R342): Packet that writes stage time and the core-clock count. -/
  | timestamp (q : QueueRef) (addr : Nat)
  /-- QUEUE_BARRIER (R342): Packet that waits for every earlier packet. -/
  | queueBarrier (q : QueueRef)
  /-- SET_CONTEXT (R359): Packet that loads a context record. -/
  | setContext (q : QueueRef) (recAddr cid : Nat)
  /-- SET_ENERGY (R350): Packet that sets CAP and PERIOD of the partition. -/
  | setEnergy (q : QueueRef) (cap period : Nat)
  /-- RESET_QUEUE_DRAIN (R352): Stops reading a queue and lets started packets complete. -/
  | resetQueueDrain (q : QueueRef) (target : Fin 64) (addr value : Nat)
  /-- RESET_QUEUE_ABORT (R352): Stops a queue, discarding and killing its work. -/
  | resetQueueAbort (q : QueueRef) (target : Fin 64) (addr value : Nat)
  /-- NOP_PACKET (R342): Packet that completes at once. -/
  | nopPacket (q : QueueRef)
  /-- QUEUE_NOTIFY (R337): Write to NOTIFY that may advance PUB and wakes the bound thread. -/
  | queueNotify (q : QueueRef) (v : BitVec 64)
  /-- QUEUE_ENABLE (R335): Write setting EN from 0 to 1; HEAD = PUB, STATE IDLE. -/
  | queueEnable (q : QueueRef) (v : BitVec 64)
  /-- QUEUE_DISABLE (R335): Write of EN 0, taken only in STATE 6 or 7. -/
  | queueDisable (q : QueueRef) (v : BitVec 64)
  /-- THREAD_RESUME (R355): TCTL RESUME restarts a frozen or halted distaff thread. -/
  | threadResume (d : Fin 2) (t : Fin 64)
  /-- HOSTIRQ (R379): Write that pushes a value into the die's HIRQ queue. -/
  | hostirq (d : Fin 2) (v : BitVec 64)
  /-- HIRQ_READ (R379): Read that removes the oldest HIRQ value. -/
  | hirqRead (d : Fin 2)
  /-- FKOWN (R435): Write that allocates or frees a far knot and resets it. -/
  | fkown (d : Fin 2) (k : Fin 2048) (v : BitVec 64)
  /-- RESUME (R366): MCTL action that resumes a frozen or halted agent. -/
  | resume (d : Fin 2) (v : BitVec 64)
  /-- KILL (R366): MCTL action that kills the agent's team. -/
  | kill (d : Fin 2) (v : BitVec 64)
  /-- SHOOTDOWN_PAGE (R360): Drops TLB entries covering SDVA in one context. -/
  | shootdownPage (d : Fin 2) (cid : Nat)
  /-- SHOOTDOWN_CONTEXT (R360): Drops every TLB entry of one context. -/
  | shootdownContext (d : Fin 2) (cid : Nat)
  /-- SHOOTDOWN_ALL (R360): Drops every TLB entry of the die. -/
  | shootdownAll (d : Fin 2)
  /-- SHOOTDOWN_COMPLETE (R360): Accesses and write-backs drain and BUSY returns to 0. -/
  | shootdownComplete (d : Fin 2)
  /-- SPTAIL_WRITE (R368): Advances the spool tail, never past the head. -/
  | sptailWrite (d : Fin 2) (v : BitVec 64)
  /-- ELTAIL_WRITE (R430): Advances the error-log tail, never past the head. -/
  | eltailWrite (d : Fin 2) (v : BitVec 64)
  /-- LOAD (R372): PCTL operation that loads a partition record. -/
  | load (d : Fin 2) (p : Fin 8)
  /-- SWAPOUT (R373): PCTL operation that saves a partition's teams to shadow ways. -/
  | swapout (d : Fin 2) (p : Fin 8)
  /-- SWAPIN (R373): PCTL operation that restores a partition's teams. -/
  | swapin (d : Fin 2) (p : Fin 8)
  /-- SWAP_COMPLETE (R373): A partition operation finishes and PBUSY returns to 0. -/
  | swapComplete (d : Fin 2)
  /-- SVNMIN_RAISE (R392): Raises a kind's minimum security version. -/
  | svnminRaise (v : BitVec 64)
  /-- ROMEND (R391): Clears ROMMODE. -/
  | romend
  /-- LOCK4 (R391): Locks MR4 against further extends. -/
  | lock4
  /-- EXTEND (R391): Extends MR[MRIDX] with EXTBUF. -/
  | extend (idx : Fin 8)
  /-- REPORT (R394): Produces a signed attestation report. -/
  | report
  /-- ATTEST_OP_COMPLETE (R394): An EXTEND or REPORT finishes and BUSY returns to 0. -/
  | attestOpComplete
  /-- CLOCK_SET (R397): Write of 0x1680 that sets the whole stage clock. -/
  | clockSet (v : BitVec 64)
  /-- STEP (R398): Adds a signed count of nanoseconds to the stage clock. -/
  | step (v : BitVec 64)
  /-- SECLO_READ (R397): Read of the seconds that latches SECHI. -/
  | secloRead (d : Fin 2)
  /-- TIMESTAMP_QUEUE_READ (R397): Read of word 1 that removes the head timestamp entry. -/
  | timestampQueueRead (e : Fin 2)
  /-- PTP_TIMESTAMP (R396): A 1588 event message passes a port and is timestamped. -/
  | ptpTimestamp (e : Fin 2) (egress : Bool) (msgType : BitVec 4) (seqId : BitVec 16)
  /-- REEL_RUN (R403): RCTL.RUN written 1 starts link training. -/
  | reelRun
  /-- REEL_STOP (R403): RCTL.RUN written 0 turns the reel OFF. -/
  | reelStop
  /-- REEL_LOCK_WRITE (R403): Write of LOCK; 0 forces RESYNC. -/
  | reelLockWrite (lock : Bool)
  /-- REEL_SECOND_BOUNDARY (R403): At a stage-second boundary with LOCK 1 the reel enters RUN. -/
  | reelSecondBoundary
  /-- TABLE_SWITCH (R406): Requests a reel table image to take force at EPOCH. -/
  | tableSwitch (v : BitVec 64)
  /-- TABLE_TAKES_FORCE (R406): At the chosen second the checked image takes force or is refused. -/
  | tableTakesForce
  /-- LINK_TRAIN (R400): A skein link trains its PHY and measures LAT. -/
  | linkTrain (l : Fin 8)
  /-- LINK_UP (R400): Training ends with LAT within limit and the link is UP. -/
  | linkUp (l : Fin 8) (rounds : List (Nat × Nat)) (peer : BitVec 8)
  /-- LINK_TRAIN_TIMEOUT (R400): A link not UP within 250 ms fails its first attempt. -/
  | linkTrainTimeout (l : Fin 8)
  /-- LINK_LOSS (R400): Loss of PHY lock takes the link down for retraining. -/
  | linkLoss (l : Fin 8)
  /-- SLOT_TRANSMIT (R405): A reel slot sends the next flit of its stream or an idle flit. -/
  | slotTransmit (l : Fin 8)
  /-- FLIT_RECEIVE (R408): An arriving flit is checked and written or counted in RXBAD. -/
  | flitReceive (l : Fin 8) (flit : BitVec 2048)
  /-- RECEIVER_TIMEOUT (R409): Two whole cycles without a flit close the open copy. -/
  | receiverTimeout (stream : Nat)
  /-- HEAD_ENABLE (R411): HEN write that starts or refuses scanning of a head. -/
  | headEnable (d : Fin 2) (h : Fin 2) (v : BitVec 64)
  /-- FRAME_START (R412): At T_k a display head begins frame k. -/
  | frameStart (d : Fin 2) (h : Fin 2)
  /-- RASTER_BATCH (R290): The front end clips, rasterises a batch and packs fragment warps. -/
  | rasterBatch (d : Fin 2)
  /-- FRAGMENT_APPLY (R299): Depth test and blend applied indivisibly at the pixel's home. -/
  | fragmentApply (d : Fin 2)
  /-- READ_SHARED (R382): Coherence read-shared request served by the home. -/
  | readShared (agent : Fin 3) (line : Nat)
  /-- READ_UNIQUE (R382): Coherence read-unique request served by the home. -/
  | readUnique (agent : Fin 3) (line : Nat)
  /-- UPGRADE (R382): Upgrade request from a sharer. -/
  | upgrade (agent : Fin 3) (line : Nat)
  /-- WRITE_BACK (R382): Owner writes a dirty line back to the home. -/
  | writeBack (agent : Fin 3) (line : Nat) (lost : Option Nat)
  /-- EVICTION_NOTICE (R381): Clean eviction notice from S or E. -/
  | evictionNotice (agent : Fin 3) (line : Nat)
  /-- IO_READ (R382): I/O read served without changing holders. -/
  | ioRead (addr : Nat) (size : Nat)
  /-- IO_WRITE (R382): I/O write that invalidates holders and writes at the home. -/
  | ioWrite (addr : Nat) (data : List (BitVec 8))
  /-- IO_ATOMIC (R382): I/O atomic performed at the home. -/
  | ioAtomic (addr : Nat) (op : IoAtomicOp) (wide : Bool) (a b : BitVec 64)
  /-- DIRECTORY_EVICT (R383): Directory eviction invalidates every holder of the line. -/
  | directoryEvict (line : Nat)
  /-- IMSIC_WRITE (R378): Write to an IMSIC file raises an interrupt identity. -/
  | imsicWrite (addr : Nat) (v : BitVec 64)
  /-- MGMT_READ (R433): A management frame reads dwords and gets a reply. -/
  | mgmtRead (d : Fin 2) (frame : List (BitVec 8))
  /-- ARBITER_PERIOD (R420): Every 10 µs the arbiter sets clocks, allowances and duty cycles. -/
  | arbiterPeriod (m : PeriodMeter)
  /-- ENERGY_PERIOD (R350): REM is reset to CAP at each PERIOD boundary. -/
  | energyPeriod (d : Fin 2) (p : Fin 8)
  /-- CAL_FIT (R418): Once a second the firmware fits CAL. -/
  | calFit (d : Fin 2) (fit : Nat)
  /-- PATROL_SCRUB (R427): Daily patrol of LPDDR-6 corrects and writes back errors. -/
  | patrolScrub (d : Fin 2) (sector : Nat) (corrected : Bool)
  /-- FATAL_ERROR (R431): A fatal module error stops every master of both dies. -/
  | fatalError (jorradLink : Bool)
  /-- RESET (R389): Module reset starts the boot sequence. -/
  | reset
  /-- BOOT_ROM_LOAD (R389): The boot ROM trains links, verifies and starts first-stage firmware. -/
  | bootRomLoad (linksTrain : Bool) (manifest image : List (BitVec 8))
  /-- DISTAFF_IMAGE_START (R389): Each die verifies and starts its distaff image. -/
  | distaffImageStart (d : Fin 2) (manifest image : List (BitVec 8))
  /-- MEMORY_TRAINING (R389): Distaff thread 0 trains LPDDR-6 and POOLRDY is set. -/
  | memoryTraining (d : Fin 2) (ok : Bool)
  /-- LOADER_START (R389): The loader image is verified, MR4 extended and harts released. -/
  | loaderStart (manifest image : List (BitVec 8))
  /-- REG_WRITE (R9): Write to a register that has no behaviour of its own. -/
  | regWrite (addr : Nat) (v : BitVec 64)
  /-- COPY_ELEMENT_FAULT (R180): While a running copy command moves its elements, one element fails translation or meets an uncorrectable read; the command pauses there and posts a spool record, or freezes with UNCORRECTED. -/
  | copyElementFault (cmd : Nat)
  deriving DecidableEq, Repr

end Sys2Proof
end

