-- ==== Sys2Proof/Machine/State.lean ====
section
/-! DEFINITION. Every piece of state the spec gives the machine, as plain data, and the machine right after reset.
Each field's docstring names the rule of spec/ that gives it; INVENTORY.md lists them with their reset values. -/

namespace Sys2Proof.Machine

/-- Reasons the machine stops with no next state. -/
inductive Fault where
  /-- A ray walk did not end within the model's bound on visited nodes; raised by TRACE and RQNEXT on a structure
  whose walk is longer (for example cyclic), for which R309 gives no end. Safe: the machine goes no further. -/
  | rayWalkBound
  deriving DecidableEq, Repr

/-- Reasons for which an instruction has no meaning. -/
inductive Refusal where
  /-- No meaning has been given; raised by the arms of `exec` that name the mnemonic. Safe. -/
  | notModelled (mnemonic : String)
  deriving DecidableEq, Repr

/-- Bytes at addresses: strictly rising addresses, no listed byte equal to what an unlisted one reads as. -/
abbrev Memory := List Host.Cell

/-- A finite table keyed by numbers, rising keys. -/
abbrev Tbl (α : Type) := List (Nat × α)

/-- An entry of the split stack (R24): the VL and masks before the SPLIT, each arm's list of physical lanes, and the
active arm. -/
structure SplitEntry where
  vl : Nat
  masks : Vector Mask 16
  arms : List (List Nat)
  active : Option Nat
  deriving DecidableEq, Repr

/-- A knot: of a team's range (team identity and index), or far (R62, R156). -/
inductive KnotRef where
  | team (id : Nat) (idx : Nat)
  | far (k : Nat)
  deriving DecidableEq, Repr

/-- State of a knot (R156), its flip count (R163) and its time KTS for each die (R221). -/
structure Knot where
  err : Bool
  counter : Bool
  scope : Nat
  phase : Bool
  expect : Nat
  count : Nat
  flips : Nat
  kts0 : Nat
  kts1 : Nat
  deriving DecidableEq, Repr

/-- Reset values of R156 with the given scope: 1 for core knots, 4 for far knots. -/
def Knot.fresh (scope : Nat) : Knot :=
  { err := false, counter := false, scope, phase := false, expect := 1, count := 0, flips := 0, kts0 := 0, kts1 := 0 }

/-- An update of a knot (R158, R161, R435). -/
inductive KnotOp where
  | arrive (n : Nat) (err : Bool)
  | config (counter : Bool) (scope : Nat) (val : Nat) (phase : Bool)
  deriving DecidableEq, Repr

/-- A warp by its team and index: stable across migration (R250). -/
structure WarpId where
  team : Nat
  widx : Nat
  deriving DecidableEq, Repr

/-- The arrival a KARRW keeps (R163, R164): the instruction's address, the model's token of its update, and the flip count noted where
it was applied. -/
structure Arrival where
  addr : Word
  token : Nat
  flips : Option Nat
  deriving DecidableEq, Repr

/-- An update on its way to a knot's home (R159): who arrives, for the check of R435 and the KTS of R221; `note` is the token of the
KARRW arrival it is (R163); `cmdTeam` is the team whose command signals (R172, R236); `recv` marks a receiver's arrival (R184). -/
structure KnotUpdate where
  home : KnotRef
  op : KnotOp
  src : Option WarpId
  ctx : Nat
  d : Fin 2
  time : Nat
  note : Option Nat
  cmdTeam : Option Nat
  recv : Option Nat
  deriving DecidableEq, Repr

/-- The condition a wait tests (R162, R163). `flip none` is a KARRW whose arrival is still on its way. -/
inductive WaitCond where
  | phase (p : Bool)
  | threshold (t : Nat)
  | flip (after : Option Nat)
  deriving DecidableEq, Repr

/-- A warp's wait on a knot: destination register, knot, the index it named (for DEADLOCK), whether the knot is of
KSPACE 0 or 1, condition and deadline (R160 to R164, R246). -/
structure KnotWait where
  dst : BitVec 6
  home : KnotRef
  idx : Nat
  near : Bool
  cond : WaitCond
  deadline : Word
  deriving DecidableEq, Repr

/-- How a frozen warp was frozen (R364 FKIND, R366). -/
inductive FreezeKind where
  | violation
  | trapNoVector
  | doubleTrap
  | failedAnswer
  | startFailed
  deriving DecidableEq, Repr

/-- What an agent is held at (R171, R183, R187, R379): a full copy issue queue, the eight promises of a warp, a full queue
of a matrix engine, or a full HIRQ queue. -/
inductive HeldAt where
  | copies
  | promises
  | matrix (ply : Nat)
  | port
  deriving DecidableEq, Repr

/-- Where a warp or a distaff thread stands. -/
inductive Status where
  | running
  | knotWait (w : KnotWait)
  | taskWait (dst : BitVec 6) (handle deadline : Word)
  | sleepUntil (dst : BitVec 6) (deadline : Word)
  | spool (tokens : List Nat)
  | held (why : HeldAt)
  | halted
  | frozen (k : FreezeKind)
  | startWait
  | exited
  | qwait (dst : BitVec 6)
  deriving DecidableEq, Repr

/-- A register of a warp (R28, R35). -/
inductive RegRef where
  | x (n : Nat)
  | v (n : Nat)
  | m (n : Nat)
  | cb
  deriving DecidableEq, Repr

/-- A 32-byte sector in an L1 (R221, R262). -/
structure L1Sector where
  data : BitVec 256
  wts : Nat
  rts : Nat
  deriving DecidableEq, Repr

/-- A sector on its way to an L1 (R225): its copy, how many invalidations its line had met at the die's L2, and how many
stores of the core itself and requests of its L1 the sector had met when it was asked for, this request among them. -/
structure Fill where
  sec : Nat
  copy : L1Sector
  invals : Nat
  drops : Nat
  deriving DecidableEq, Repr

/-- A cached weight table (R279). -/
structure CachedTable where
  ctx : Nat
  slot : Nat
  /-- 2,688 bytes, lowest first. -/
  data : BitVec 21504
  /-- The largest wts among what it was read from (R221). -/
  ts : Nat
  deriving DecidableEq, Repr

/-- A cached decoded texel (R280). -/
structure CachedTexel where
  ctx : Nat
  slot : Nat
  block : Nat
  lx : Nat
  ly : Nat
  rgba : BitVec 64
  ts : Nat
  deriving DecidableEq, Repr

/-- A line in a sampler's line cache (R228, R280), with the context and decoder slot it was read under, and the largest wts among its
sectors (R221). -/
structure CachedLine where
  ctx : Nat
  slot : Option Nat
  line : Nat
  data : BitVec 1024
  ts : Nat
  deriving DecidableEq, Repr

/-- What a sampler instruction whose data is on its way will leave in its core's sampler caches (R279, R280, R282); how many drops
those had met when it issued, of everything and by slot; and the slot whose table it decodes with (R279). -/
structure SampFill where
  drops : Nat
  slotDrops : Tbl Nat
  uses : Option (Nat × Nat)
  lines : List CachedLine
  tables : List CachedTable
  texels : List CachedTexel
  deriving DecidableEq, Repr

/-- Nothing for the sampler caches. -/
def SampFill.empty : SampFill := ⟨0, [], none, [], [], []⟩

/-- A load whose data has not returned (R28, R151): the registers it owes with the bits it will write; the sectors it reads, each
with the place of a register it feeds among those owed; whether it runs as a replay; what it fills its L1 with (R225), whether
under NT (R262), and what its sampler caches; and whether its request missed the system cache (R32). -/
structure Pending where
  xw : List (BitVec 6 × Word)
  vw : List (BitVec 6 × VReg × VReg)
  mw : List (BitVec 4 × Mask × Mask)
  sectors : List (Nat × Nat)
  replay : Bool
  pc : Word
  fills : List Fill
  weak : Bool
  samp : SampFill
  missed : Bool
  deriving DecidableEq, Repr

/-- A committed hit or pending candidate of a ray query (R203). -/
structure RayHit where
  t : BitVec 32
  inst : BitVec 32
  prim : BitVec 32
  u : BitVec 32
  v : BitVec 32
  deriving DecidableEq, Repr

/-- An instance the walk is inside (R305): index, mask bits FLIPFACE, NOCULL, FORCEOPAQUE and transform words. -/
structure RayInstance where
  index : BitVec 32
  flip : Bool
  nocull : Bool
  opq : Bool
  xf : List (BitVec 32)
  deriving DecidableEq, Repr

/-- Work on a traversal stack (R309): a child to visit with its entry distance, or the rest of a leaf range. -/
structure RayEntry where
  tn : BitVec 32
  kind : BitVec 2
  addr : Nat
  nleaf : Nat
  inst : Option RayInstance
  deriving DecidableEq, Repr

/-- The ray query a lane holds (R203, R309). -/
structure RayQuery where
  o : Vector (BitVec 32) 3
  dir : Vector (BitVec 32) 3
  tmin : BitVec 32
  tcur : BitVec 32
  root : Nat
  imask : BitVec 8
  opq : Bool
  first : Bool
  cull : Bool
  stack : List RayEntry
  hit : Option RayHit
  cand : Option RayHit
  done : Bool
  deriving DecidableEq, Repr

/-- A vertex of a raster batch: clip position and attributes (R206). -/
structure Vertex where
  x : BitVec 32
  y : BitVec 32
  z : BitVec 32
  w : BitVec 32
  attrs : List (BitVec 32)
  deriving DecidableEq, Repr

/-- A raster batch (R206): vertices and the vertex numbers of its triangles. -/
structure Batch where
  verts : List Vertex
  prims : List (Nat × Nat × Nat)
  deriving DecidableEq, Repr

/-- The roving states of R40 other than RUN and STALL. -/
inductive RovePhase where
  | rove
  | ended
  | restore
  deriving DecidableEq, Repr

/-- A checkpoint slot and the roving warp's run-ahead state (R33 to R38): `needs` are the registers the stalled instruction names,
`minv` the masks that were INV at each SPLIT made while roving, innermost first, and `clean` the registers written whole since roving
began, whose run-ahead values no soft error of the checkpointed ones touches (R429). -/
structure Roving where
  phase : RovePhase
  needs : List RegRef
  minv : List (List RegRef)
  entered : Nat
  x : Vector Word 64
  m : Vector Mask 16
  cb : Vector (BitVec 16) 16
  vl : Nat
  split : List SplitEntry
  mapping : Option (List Nat)
  pc : Word
  inv : List RegRef
  clean : List RegRef
  shadow : List (Nat × VReg)
  stores : List (Nat × Nat × List (Nat × Option Byte))
  overflow : Bool
  count : Nat
  deriving DecidableEq, Repr

/-- The state of a warp (R13 to R15, R20) and of a distaff thread (R353), which uses `who`, `x`, `pc`, `status` and
`events`. -/
structure Warp where
  /-- Slot of the warp or number of the thread (R20 sr.warp, sr.core, sr.die; R353). -/
  who : Agent
  /-- x0 to x63 (R13). -/
  x : Vector Word 64
  /-- v0 to v63 (R13). -/
  v : Vector VReg 64
  /-- m0 to m15 (R13); m0 is read as R14 gives. -/
  m : Vector Mask 16
  /-- The codebook (R13). -/
  cb : Vector (BitVec 16) 16
  /-- VL, 0 to 128 (R13, R22). -/
  vl : Nat
  /-- The split stack, top first (R24). -/
  split : List SplitEntry
  /-- The operand mapping in force: the active arm's list of physical lanes, or identity (R24, R102 to R104). -/
  mapping : Option (List Nat)
  /-- PC (R13). -/
  pc : Word
  /-- sr.replay (R20). -/
  replay : Mask
  /-- The next instruction runs as a replay (R111, R150). -/
  replayNext : Bool
  /-- sr.seed (R20). -/
  seed : BitVec 32
  /-- Lane generators (R50). -/
  gens : Vector (BitVec 32) 128
  /-- sr.wclk (R20, R221). -/
  wclk : Nat
  /-- Largest timestamp of earlier stores and atomics (R155). -/
  smax : Nat
  /-- Largest timestamp returned to earlier loads and atomics (R155). -/
  rmax : Nat
  /-- A store or atomic of its has not completed at module scope (R155, R221). -/
  wrote : Bool
  /-- The SECHI latch of R21. -/
  stimeLatch : BitVec 16
  /-- sr.rove ROVEOFF (R20, R115). -/
  roveOff : Bool
  /-- sr.rove LASTEND (R37). -/
  lastEnd : BitVec 3
  /-- sr.rove LASTLEN (R20). -/
  lastLen : BitVec 12
  /-- sr.rove PREFS (R20). -/
  prefs : BitVec 24
  /-- sr.rove EPISODES (R20). -/
  episodes : BitVec 24
  /-- sr.cause (R20, R23). -/
  cause : Word
  /-- sr.epc (R20). -/
  epc : Word
  /-- sr.tval (R20). -/
  tval : Word
  /-- The warp's team (R233). -/
  team : Nat
  /-- sr.warp WIDX (R20). -/
  widx : Nat
  /-- sr.team TIDX (R20). -/
  tidx : Nat
  /-- sr.team CRANK (R20). -/
  crank : Nat
  /-- sr.team CW (R20). -/
  cw : Nat
  /-- sr.team CH (R20). -/
  ch : Nat
  /-- sr.ctx (R20). -/
  ctx : Nat
  /-- Where the warp stands. -/
  status : Status
  /-- The KARRW arrival it keeps (R164). -/
  karrw : Option Arrival
  /-- Promises held: stream, promised time, stage copy (R183). -/
  promises : List (Nat × Nat × Nat)
  /-- Loads whose data is owed (R28). -/
  pend : List Pending
  /-- Registers whose data was uncorrectable, with the sector (R151). -/
  poison : List (RegRef × Nat)
  /-- Ray queries by physical lane (R205). -/
  queries : Tbl RayQuery
  /-- The open raster batch (R288). -/
  batch : Option Batch
  /-- Roving (R40). -/
  rove : Option Roving
  /-- YIELD was taken and nothing has issued since (R107). -/
  yielded : Bool
  /-- Region of the stack arena (R436). -/
  region : Option Nat
  /-- Pending events of a distaff thread (R354). -/
  events : BitVec 4
  deriving DecidableEq, Repr

/-- The kernel descriptor (R88). -/
structure KDesc where
  entry : Nat
  scratch : Nat
  stack : Nat
  knots : Nat
  cells : Nat
  regs : Nat
  warps : Nat
  cw : Nat
  ch : Nat
  nargs : Nat
  version : Nat
  norove : Bool
  reservedClear : Bool
  deriving DecidableEq, Repr

/-- The context record (R359) with the scope-group table it names (R214). -/
structure CtxRec where
  ppn : Nat
  lease : Nat
  roveEn : Bool
  hintEn : Bool
  tvec : Word
  groups : List (BitVec 48)
  decTab : Nat
  stkBase : Nat
  stkSlot : Nat
  stkCount : Nat
  ranges : List (BitVec 128)
  deriving DecidableEq, Repr

/-- A texture or target descriptor (R196). -/
structure TexDesc where
  base : Nat
  width : Nat
  height : Nat
  fmt : Nat
  levels : Nat
  pitch : Nat
  slot : Nat
  deriving DecidableEq, Repr

/-- A raster state block as taken with its packet (R285, R287): its 1,024 bits, enabled targets, fragment kernel. -/
structure RasterState where
  raw : BitVec 1024
  targets : List (Option TexDesc)
  depth : Option TexDesc
  kernel : KDesc
  deriving DecidableEq, Repr

/-- An entry of a transform pipe in flight (R195, R367): its word, owner and active lanes, and the registers it will write
with the bits it writes. -/
structure XfmEntry where
  word : Word
  owner : WarpId
  active : Mask
  writes : List (BitVec 6 × VReg × VReg)
  deriving DecidableEq, Repr

/-- Where a team stands between placement and retirement (R235, R236, R249). -/
inductive TeamPhase where
  | starting
  | running
  | saved
  | ended
  deriving DecidableEq, Repr

/-- Who wrote the byte that replaced an older one of a scratchpad. -/
inductive LooseBy where
  | warp (w : WarpId)
  | cmd (id : Nat)
  deriving DecidableEq, Repr

/-- An older byte of a scratchpad that an unordered read may still find: the number of the store that replaced it, and its writer. -/
structure LooseByte where
  seq : Nat
  by_ : LooseBy
  old : Byte
  deriving DecidableEq, Repr

/-- The stores to a team's scratchpad that nothing has ordered: how many there have been, what each byte held before them, the newest
first, and the commands whose signal follows their stores, with its knot (R173, R181, R218, R227). -/
structure Loose where
  seq : Nat
  bytes : Tbl (List LooseByte)
  signalled : Tbl KnotRef
  deriving DecidableEq, Repr

/-- Every store ordered. -/
def Loose.empty : Loose := ⟨0, [], []⟩

/-- A team (R233). -/
structure Team where
  /-- The model's identity. -/
  id : Nat
  /-- The die whose pool holds its node (R348), and the die and core it stands on (R240, R249). -/
  home : Fin 2
  d : Fin 2
  core : Fin 24
  /-- Ply base (R241). -/
  base : Nat
  /-- Its node (R348) and index in the grid (R20). -/
  node : Nat
  tidx : Nat
  /-- Cluster identity and rank (R234). -/
  cluster : Nat
  crank : Nat
  /-- Context and the record in force (R359). -/
  ctx : Nat
  ctxRec : CtxRec
  /-- Its kernel (R88) and argument block (R235). -/
  kernel : KDesc
  args : Nat
  /-- Where its scratchpad range begins in its core's 4 MiB (R255), and its first tile-store row in each of its plies (R261). -/
  sbase : Nat
  row0 : Nat
  /-- Scratchpad range (R255): listed bytes by offset; unlisted bytes are the allocation's free values. -/
  scratch : Tbl Byte
  /-- Its stores that nothing has ordered (R173, R227). -/
  loose : Loose
  /-- Tile-store rows at 256 x ply + row (R261), plies counted from the ply base; unlisted rows hold free values. -/
  tiles : Tbl VReg
  /-- Seed of the free values of its scratchpad and tile rows (R235). -/
  seed : Nat
  /-- Knots changed since start (R156). -/
  knots : Tbl Knot
  /-- Where it stands. -/
  phase : TeamPhase
  /-- It was killed (R352, R366). -/
  killed : Bool
  /-- Frozen as a team: its commands are stopped (R365). -/
  stopped : Bool
  /-- CPYQ ERRCNT and LASTERR (R185). -/
  errCnt : Nat
  lastErr : Nat
  /-- Charged to the reserve (R244). -/
  inReserve : Bool
  /-- Warps saved by pre-emption (R249); that it held its plies' engines, and whether their release was pending (R186, R250). -/
  saved : List Warp
  savedHeld : Option Bool
  /-- The entries of its warps in the transform pipes, saved with them (R195, R249). -/
  savedXfm : List XfmEntry
  /-- The answer on its argument block given while it was saved, failed or not (R370). -/
  startAnswer : Option Bool
  /-- Largest timestamp of its writes and signals (R221 TTS). -/
  tts : Nat
  /-- Saved by a SWAPOUT: it returns with its partition (R373). -/
  swapped : Bool
  /-- Regions of the stack arena its warps took, by WIDX; empty when a task holds them (R436). -/
  regions : List Nat
  /-- For a fragment team: its node's batch and lanes in the depth and blend unit (R294). -/
  fragment : Bool
  deriving DecidableEq, Repr

/-- Kinds of engine command (R174, R182, R187, R342). -/
inductive CmdKind where
  | copy
  | stage (stream : Nat)
  | matrix (ply : Nat)
  | queue (q : QueueRef) (launch : Nat)
  deriving DecidableEq, Repr

/-- States of a command (R367). -/
inductive CmdState where
  | waiting
  | running
  | paused
  | frozen
  | signalling
  deriving DecidableEq, Repr

/-- An accepted command (R171, R367): entry in its queue, owner, record, state, next element in the order of R177 or
R189, the fault it is paused on, its error, its clock (R221), its promise (R182) and, for a stage copy, its copy number
and the flits sent on each link (R402). -/
structure Cmd where
  id : Nat
  kind : CmdKind
  d : Fin 2
  core : Fin 24
  entry : Nat
  team : Nat
  widx : Nat
  ctx : Nat
  record : BitVec 512
  st : CmdState
  next : Nat
  token : Nat
  err : Nat
  time : Nat
  maxTs : Nat
  promise : Nat
  copyNo : Nat
  sent : Tbl Nat
  /-- For a stage copy: the stage nanosecond from which its flits may leave (R407). -/
  since : Nat
  /-- Its wait has been satisfied (R172). -/
  ready : Bool
  /-- While paused: the error a failed answer ends it with (R180, R185), and the answer given while its team was saved, failed or
  not (R370). -/
  failErr : Nat
  answered : Option Bool
  /-- The sector of global memory it read last, which it has at hand (R269). -/
  lastSector : Option Nat
  deriving DecidableEq, Repr

/-- A TLB entry: context, level of the leaf, page number at that level, PTE (R357, R358). -/
structure TlbEntry where
  ctx : Nat
  level : Nat
  page : Nat
  pte : Word
  deriving DecidableEq, Repr

/-- A line in a system cache: its way, and whether memory is behind it (R265). -/
structure SysLine where
  line : Nat
  way : Nat
  dirty : Bool
  deriving DecidableEq, Repr

/-- State of a core other than its warps and teams. -/
structure Core where
  /-- L1 sectors by physical sector number (R262). -/
  l1 : Tbl L1Sector
  /-- L1 lines, the most recently used first, each with whether it was filled under NT or by roving and not yet read (R262). -/
  l1Use : List (Nat × Bool)
  /-- How many stores of its own and requests each sector has met, for the fills on their way, of which the last asked for is
  installed (R210, R225, R263); the model's own. -/
  drops : Tbl Nat
  /-- The core's TLBs (R358). -/
  tlb : List TlbEntry
  /-- Sampler caches (R279, R280), and how often all of them has been dropped, and a slot of a context, by 4,096 x context + slot; the
  counts are the model's own. -/
  tables : List CachedTable
  texels : List CachedTexel
  lines : List CachedLine
  sampDrops : Nat
  slotDrops : Tbl Nat
  /-- Transform pipes 0 and 1, oldest first (R195). -/
  pipe0 : List XfmEntry
  pipe1 : List XfmEntry
  /-- Matrix engines by ply: team holding it and whether its release is pending (R186). -/
  engines : Tbl (Nat × Bool)
  /-- Ply base last given (R241). -/
  lastBase : Nat
  /-- Reserve charges: task and slots (R244). -/
  charges : List (Nat × Nat)
  /-- Duty cycle D of its matrix engines and whether held in the last period (R421). -/
  duty : Nat
  throttled : Bool
  /-- Current allowance in mW (R420). -/
  allow : Nat
  /-- Partition that last ran here (R373). -/
  lastPart : Option Nat
  /-- Energy charged for its work since the last period boundary, in pJ before CAL (R414, R421). -/
  raw : Nat
  deriving DecidableEq, Repr

/-- What a spool record or its answer is about (R363, R437). -/
inductive Master where
  | warp (w : WarpId)
  | cmd (id : Nat)
  | start (team : Nat)
  | queue (q : QueueRef)
  | signal (id : Nat)
  | none
  deriving DecidableEq, Repr

/-- A spool record before it is posted (R364), with the model's token and the master that waits on it. -/
structure SpoolRec where
  token : Nat
  master : Master
  kind : Nat
  access : Nat
  agent : Nat
  ctx : Nat
  reason : Nat
  agentId : BitVec 16
  fkind : Nat
  pc : Word
  va : Word
  lanes : Mask
  cause : Word
  tval : Word
  deriving DecidableEq, Repr

/-- An outstanding fault: RID, token, master, and the answer kept for a master that is suspended (R362, R370). -/
structure Outstanding where
  rid : Nat
  token : Nat
  master : Master
  deriving DecidableEq, Repr

/-- An error-log record before it is posted (R430). -/
structure ElogRec where
  kind : Nat
  struct : Nat
  ctx : Nat
  count : Nat
  agentId : BitVec 16
  addr : Nat
  deriving DecidableEq, Repr

/-- A write-back of a line with an uncorrectable error: the agent that sent it, the line as it was sent, and what memory holds of it
(R429). -/
structure LostBack where
  agent : Fin 3
  line : Nat
  sent : BitVec 1024
  held : BitVec 1024
  deriving DecidableEq, Repr

/-- States of a queue (R335). -/
inductive QueueState where
  | disabled
  | idle
  | run
  | blocked
  | draining
  | aborting
  | stopped
  | malformed
  deriving DecidableEq, Repr

/-- A packet a queue has read (R341). -/
inductive Packet where
  | grid (p : GridPacket)
  | graph (p : GraphPacket)
  | copy (p : CopyPacket)
  | waitFence (addr value : Nat) (abortDep : Bool)
  | signalFence (addr value : Nat)
  | flip (p : FlipPacket)
  | timestamp (addr : Nat)
  | barrier
  | setContext (recAddr cid : Nat)
  | setEnergy (cap period : Nat)
  | reset (target : Fin 64) (abort : Bool) (addr value : Nat)
  | nop
  deriving DecidableEq, Repr

/-- What holds a queue in STATE 3 (R342): a WAIT_FENCE, or a packet read that has not started. -/
inductive QueueHold where
  | fence (addr value : Nat) (abortDep : Bool)
  | packet (p : Packet)
  deriving DecidableEq, Repr

/-- The fence a RESET_QUEUE packet asks for (R340, R352): the queue that asked, its context and the packet's sequence then, address
and value. -/
structure ResetFence where
  q : QueueRef
  ctx : Nat
  seq : Nat
  addr : Nat
  value : Nat
  deriving DecidableEq, Repr

/-- A queue: registers of R335, then what the bound thread holds for it (R342, R343, R349, R352). -/
structure Queue where
  rbase : Word
  en : Bool
  weight : BitVec 8
  part : BitVec 3
  log2n : BitVec 5
  pub : BitVec 32
  head : BitVec 32
  err : BitVec 8
  st : QueueState
  ctx : Nat
  /-- A SET_CONTEXT has been made since EN was set (R343 ERR 7). -/
  ctxSet : Bool
  /-- What it waits for in STATE 3, and whether nodes of its launches wait for pool slots (R351). -/
  hold : Option QueueHold
  full : Bool
  /-- Its thread found the slot at HEAD unwritten and waits for a NOTIFY write (R338). -/
  unwritten : Bool
  /-- Launches, copies and flips started and not completed. -/
  open_ : List Nat
  /-- Fences to write at STATE 6 (R352). -/
  resets : List ResetFence
  /-- Smooth round-robin counter C_q (R349). -/
  credit : Int
  deriving DecidableEq, Repr

/-- States of a node (R348). -/
inductive NodeState where
  | pending
  | ready
  | running
  | done
  | aborted
  deriving DecidableEq, Repr

/-- A variant of a node (R345). -/
structure Variant where
  kernel : KDesc
  teams : Nat
  cyc : Nat
  energy : Nat
  deriving DecidableEq, Repr

/-- What launched a node: a grid packet, a graph packet's node, a task (R348), or the raster front end for a geometry
node (R294). -/
inductive NodeOrigin where
  | launch (id : Nat) (index : Nat)
  | task (slot : Nat)
  | fragment (parent : Nat)
  deriving DecidableEq, Repr

/-- The registers a fragment warp starts with (R295): VL, m1, and v0 to v4 and the attributes. -/
structure FragInit where
  vl : Nat
  m1 : Mask
  v : List (Nat × VReg)
  deriving DecidableEq, Repr

/-- A node of the swift (R348): a grid, a graph node, a task or a fragment warp. -/
structure Node where
  id : Nat
  q : QueueRef
  origin : NodeOrigin
  join : Bool
  cls : Nat
  deadline : Nat
  args : Nat
  fence : Nat
  fval : Nat
  ctx : Nat
  part : Nat
  preds : Nat
  succ : List Nat
  variants : List Variant
  chosen : Option Nat
  /-- Address of its first declared tile, and the preferred core once fixed (R239, R294). -/
  tile : Option Nat
  pref : Option Nat
  /-- Start clock it supplies to its teams (R221). -/
  start : Nat
  st : NodeState
  readyAt : Nat
  /-- The stage nanosecond at which the swift first passed it over for lack of room (R369). -/
  passed : Option Nat
  /-- Sequence of the packet whose node launched it (R364, R437). -/
  seq : Nat
  placed : Nat
  ended : Nat
  killed : Bool
  /-- ABORT has taken it: what its fragments have had accepted remains to be applied (R300, R301, R352). -/
  aborted : Bool
  /-- The die clock at which its last team retired: it ends when that clock has passed (R352). -/
  doneAt : Option Nat
  near : Option (Fin 24)
  rsb : Option RasterState
  tts : Nat
  /-- Fragment warps it caused that have not ended, by node (R301). -/
  fragTeams : List Nat
  /-- Start registers of a fragment warp (R295). -/
  init : Option FragInit
  deriving DecidableEq, Repr

/-- A started packet that completes later (R342): launch, copy or flip, with the fence it signals. -/
structure Launch where
  id : Nat
  q : QueueRef
  seq : BitVec 32
  graph : Bool
  fence : Nat
  fval : Nat
  nodes : List Nat
  aborted : Bool
  deriving DecidableEq, Repr

/-- A task (R166): slot, generation, launching team, node, outcome. -/
structure Task where
  slot : Nat
  gen : Nat
  team : Nat
  node : Nat
  core : Fin 24
  slots : Nat
  regions : List Nat
  outcome : Option Bool
  tts : Nat
  deriving DecidableEq, Repr

/-- A fence-word signal being made (R344, R437), with its packet's sequence (R364). -/
structure Signal where
  id : Nat
  d : Fin 2
  q : QueueRef
  ctx : Nat
  seq : Nat
  addr : Nat
  value : Nat
  aborted : Bool
  task : Bool
  token : Nat
  /-- The timestamp that the release of the work it reports carries (R221, R344). -/
  tts : Nat
  deriving DecidableEq, Repr

/-- A partition record (R371, R422). -/
structure PartRec where
  cores : Vector (BitVec 24) 2
  shways : Vector Nat 2
  resv : Nat
  margin : Nat
  scways : Vector (BitVec 24) 2
  qos : Word
  deriving DecidableEq, Repr

/-- Partition operations (R368). -/
inductive PartOp where
  | load
  | swapout
  | swapin
  deriving DecidableEq, Repr

/-- A shootdown (R360): mode, context, page. -/
structure Shootdown where
  mode : Nat
  ctx : Nat
  page : Nat
  deriving DecidableEq, Repr

/-- A FLIP that waits to latch (R413). -/
structure Flip where
  launch : Nat
  image : Nat
  release : Nat
  start : Nat
  deriving DecidableEq, Repr

/-- States of a head (R411). -/
inductive HeadState where
  | off
  | on
  | refused
  deriving DecidableEq, Repr

/-- A display head (R411): its five writable dwords, BGCOLOR, and its status. -/
structure Head where
  cfg : BitVec 64
  timing : BitVec 64
  rate : BitVec 64
  phase : BitVec 64
  image : Word
  frame : Nat
  nextFrame : Nat
  late : BitVec 16
  underrun : BitVec 16
  st : HeadState
  bg : BitVec 30
  flips : List Flip
  /-- A FLIP has latched. -/
  flipped : Bool
  /-- The next active line of the frame to scan, and the pixels of the last one scanned: each its dword in the image, or the
  background. -/
  line : Option Nat
  scan : List (Option (BitVec 32))
  deriving DecidableEq, Repr

/-- Where a fragment's depth test stands (R297). -/
inductive DepthTest where
  | untested
  | passed
  | failed
  deriving DecidableEq, Repr

/-- A fragment in the depth and blend unit (R297 to R300), in sequence order: geometry node, its launch's raster state,
owner and lane, pixel, interpolated depth, the depth of its first FEMIT with its target pixel, the colours its FEMITs
sent and not yet applied, oldest first, as target, address and channels, and whether its warp has ended. -/
structure Fragment where
  node : Nat
  rs : RasterState
  owner : Nat
  lane : Nat
  px : Nat
  py : Nat
  zf : BitVec 32
  depth : Option (BitVec 32 × Option Nat)
  ops : List (Nat × Nat × Vector (BitVec 32) 4)
  test : DepthTest
  complete : Bool
  deriving DecidableEq, Repr

/-- A batch in the raster front end (R288). -/
structure FrontBatch where
  node : Nat
  batch : Batch
  deriving DecidableEq, Repr

/-- Energy not yet flushed and the cached balance of a context (R416, R417). -/
structure CtxEnergy where
  charge : Nat
  bal : Option Int
  deriving DecidableEq, Repr

/-- TCTL of a distaff thread (R355). -/
structure Tctl where
  frozen : Bool
  halted : Bool
  spool : Bool
  bound : Bool
  queue : Fin 64
  deriving DecidableEq, Repr

/-- Identity of a firmware image a die or the host has loaded (R389, R393): digest and SVN. -/
structure ImageInfo where
  digest : List Byte
  svn : Nat
  entry : Nat
  deriving DecidableEq, Repr

/-- State of a compute die other than its warps and teams. -/
structure Die where
  /-- sr.clock (R20). -/
  clock : Nat
  /-- TC and XTS (R221). -/
  tc : Nat
  xts : Nat
  cores : Vector Core 24
  /-- wts and rts of sectors at the L2 homes (R221), MAXRTS of the slices and the largest wts they let go (R264). -/
  l2 : Tbl (Nat × Nat)
  maxRts : Tbl Nat
  maxWts : Tbl Nat
  /-- How many invalidations from the directory each line has met at the L2 (R225); the model's own. -/
  invals : Tbl Nat
  /-- Lines in the system cache of those homed here, the most recently used first (R265). -/
  sys : List SysLine
  /-- Victims its caches have chosen (log entry 47); the model's own. -/
  victims : Nat
  /-- The die's last-level TLB (R358). -/
  tlb : List TlbEntry
  /-- Far knots this die homes, by knot number (R156), and their owners (R435). -/
  farKnots : Tbl Knot
  fkown : Tbl (BitVec 16)
  /-- Loaded context records (R359). -/
  contexts : Tbl CtxRec
  queues : Vector Queue 64
  tctl : Vector Tctl 64
  nodes : List Node
  tasks : List Task
  taskGen : Nat
  /-- Stack-arena regions taken: context and region (R436). -/
  regions : List (Nat × Nat)
  /-- Fault spool (R361, R368). -/
  spBase : Word
  spEn : Bool
  spLog2n : Nat
  spHead : BitVec 32
  spTail : BitVec 32
  drops : Nat
  spoolQ : List SpoolRec
  outst : List Outstanding
  nextRid : Nat
  /-- Shootdown (R360). -/
  sdva : Word
  shootdown : Option Shootdown
  sdWaiting : List Shootdown
  /-- Partitions (R368, R371). -/
  ptBase : Word
  parts : Tbl PartRec
  res : BitVec 8
  perr : BitVec 4
  partOp : Option (PartOp × Fin 8)
  rem : Vector Nat 8
  ecfg : Vector (BitVec 64) 8
  /-- Energy and power (R416, R419). -/
  pused : Vector Nat 8
  pcharge : Vector Nat 8
  sysUsed : Nat
  sysCharge : Nat
  energy : Tbl CtxEnergy
  cal : Nat
  fgrant : Nat
  /-- Events counted and not yet charged, by class; then what the period has charged, in pJ before CAL: to each context, to each
  partition, to the die itself, and how much of all that for LPDDR-6 and links (R414, R420). -/
  work : Vector Nat 15
  rawCtx : Tbl Nat
  rawPart : Vector Nat 8
  rawSys : Nat
  rawOut : Nat
  /-- The token buckets of the partitions (R423), each with the stage nanosecond of its last refill; the PERIODs of each partition
  that had passed at the last refill of its REM (R350). -/
  buckets : Vector (Int × Nat) 8
  refills : Vector Nat 8
  /-- The thread that last issued: the others follow it in barrel order (R353). -/
  lastThread : Fin 64
  /-- Telemetry (R426). -/
  counters : Vector Nat 16
  /-- Error log (R430). -/
  elBase : Word
  elEn : Bool
  elLog2n : Nat
  elHead : BitVec 32
  elTail : BitVec 32
  fatal : Bool
  elogQ : List ElogRec
  /-- Corrections at sectors of the die's LPDDR-6 since the last record of each (R430). -/
  mended : Tbl Nat
  /-- Write-backs on their way whose line holds an uncorrectable error: each bad sector will be discarded (R429). -/
  lostBacks : List LostBack
  heads : Vector Head 2
  /-- Raster front end and depth and blend unit (R288, R300). -/
  front : List FrontBatch
  frags : List Fragment
  /-- Timestamp queue of the die's Ethernet port (R397), reply of its management interface (R433). -/
  stamps : List (BitVec 64 × BitVec 48)
  mgmtReply : List Byte
  /-- Distaff memory, which the die's threads fetch from (R389), its image, and memory training. -/
  dmem : Memory
  image : Option ImageInfo
  trained : Bool
  /-- Consecutive clocks the deadlock detector has counted, by cluster (R246). -/
  stalls : Tbl Nat
  deriving DecidableEq, Repr

/-- The stage clock (R395, R397): seconds, nanoseconds, fraction in units of 2^-80 ns, rate, the SECHI buffers, and the oscillator's
time since reset in units of 2^-40 ns. -/
structure StageClock where
  sec : Nat
  nsec : Nat
  frac : Nat
  rate : BitVec 32
  hiWrite : BitVec 16
  hiLatch : BitVec 16
  osc : Nat
  deriving DecidableEq, Repr

/-- Reel states (R403). -/
inductive ReelState where
  | off
  | train
  | wait
  | run
  | resync
  deriving DecidableEq, Repr

/-- A skein link (R400, R404) with the last data or time flit it sent, and the slot that left in. -/
structure Link where
  training : Bool
  up : Bool
  lat : Nat
  peer : BitVec 8
  rxBad : Nat
  failedFirst : Bool
  /-- The next slot it will carry, counted over all cycles from stage second 0 (R401). -/
  nextSlot : Nat
  lastFlit : BitVec 2048
  lastSlot : Option Nat
  deriving DecidableEq, Repr

/-- An open receive copy of a stream (R409): copy number, flits handled, flits expected, signal, time of the last. -/
structure RxCopy where
  copy : Nat
  handled : Nat
  nflits : Nat
  lost : Bool
  ren : Bool
  rinc : Nat
  rknot : Nat
  lastAt : Nat
  deriving DecidableEq, Repr

/-- The reel (R403, R404): ports, state, table in force and switch in preparation. -/
structure Reel where
  rtbase0 : Word
  rtbase1 : Word
  lock : Bool
  run : Bool
  terr : BitVec 8
  inForce : Bool
  st : ReelState
  table : Option Memory
  switch : Option (Bool × Nat × Memory)
  /-- Oscillator time at which TRAIN began. -/
  trainAt : Nat
  /-- Stage second of the last boundary it has passed in WAIT or RESYNC. -/
  since : Nat
  links : Vector Link 8
  copyNos : Tbl Nat
  rx : Tbl RxCopy
  deriving DecidableEq, Repr

/-- Operations of the attestation engine (R394). -/
inductive AttestOp where
  | extend (idx : Fin 8) (val : List Byte)
  | report (nonce : List Byte) (mrs : List (List Byte)) (time : Nat)
  deriving DecidableEq, Repr

/-- The host interface block and what stands behind it (R379, R389, R391, R392). -/
structure HostBlock where
  hirq0 : List (BitVec 32)
  hirq1 : List (BitVec 32)
  bootStat : BitVec 8
  poolRdy : Bool
  svnMin : Vector Nat 4
  lock4 : Bool
  err : Bool
  romMode : Bool
  mrIdx : Fin 8
  busy : Option AttestOp
  waiting : List (BitVec 64)
  nonce : List Byte
  extBuf : List Byte
  mr : Vector (List Byte) 8
  report : List Byte
  svns : Vector Nat 4
  harts : Bool
  hart0 : Bool
  imsic : List (Nat × BitVec 32)
  aplic3 : Bool
  aplic4 : Bool
  entropyCtr : Nat
  l3 : Memory
  ioRoot : Option Nat
  deriving DecidableEq, Repr

/-- Directory states (R381). -/
inductive DirState where
  | s
  | x
  | o
  deriving DecidableEq, Repr

/-- MOESI states an agent holds a line in (R381). -/
inductive Moesi where
  | m
  | o
  | e
  | s
  deriving DecidableEq, Repr

/-- A tracked line: directory state, owner, the states its holders have, and for a dirty line what its home's memory
still holds (R381, R429). Untracked lines are I. -/
structure DirLine where
  st : DirState
  owner : Option (Fin 3)
  held : List (Fin 3 × Moesi)
  stale : Option (BitVec 1024)
  deriving DecidableEq, Repr

/-- An uncorrectable error present in storage (R429): in a warp's register, a tile-store row, a scratchpad dword, a knot, or a
sector of the pool by physical sector number. -/
inductive ErrSite where
  | reg (w : WarpId) (r : RegRef)
  | tile (team : Nat) (row : Nat)
  | scratch (team : Nat) (dword : Nat)
  | knot (k : KnotRef)
  | sector (n : Nat)
  deriving DecidableEq, Repr

/-- A copy that another place of the machine still holds (R428): a line of a core's L1, of a die's L2, or of its home's system cache, an
entry of a TLB of a core or a die, by its place in the list. -/
inductive CleanCopy where
  | l1 (d : Fin 2) (core : Fin 24) (line : Nat)
  | l2 (d : Fin 2) (line : Nat)
  | sys (line : Nat)
  | coreTlb (d : Fin 2) (core : Fin 24) (n : Nat)
  | dieTlb (d : Fin 2) (n : Nat)
  deriving DecidableEq, Repr

/-- A move of the machine's order of steps: an event of the hardware or the outside, an agent that issues, a queue whose
bound thread takes its next packet, time that passes, a store a Jorrad hart makes to a line it holds, a soft error, or an error in
an SRAM that is corrected, which the die counts (R428); an error of LPDDR-6 corrected in a sector that a context reads, and one in a
clean copy, which is dropped (R428); an address a hardware prefetcher of a core's L1, or of its L2 or sampler, asks for (R358); the
root the IOMMU's device context names for the functions of PCIe (R384). Log entry 2. -/
inductive Move where
  | event (i : Instr)
  | run (who : Agent)
  | queue (q : QueueRef)
  | elapse (clocks0 clocks1 ns : Nat)
  | hartStore (addr : Nat) (data : List Byte)
  | strike (site : ErrSite)
  | corrected (d : Fin 2)
  | mended (sector ctx : Nat)
  | dropCopy (c : CleanCopy)
  | prefetch (d : Fin 2) (core : Fin 24) (team : Nat) (va : Word) (l1 : Bool)
  | ioRoot (ppn : Option Nat)
  deriving DecidableEq, Repr

/-- The machine. -/
structure State where
  /-- The agent whose instruction the next step issues. -/
  cur : Warp
  /-- Every other warp and distaff thread. -/
  others : List Warp
  /-- The pool (R266). -/
  mem : Memory
  dies : Vector Die 2
  teams : List Team
  cmds : List Cmd
  launches : List Launch
  signals : List Signal
  /-- Updates on their way to knots (R159). -/
  knotQ : List KnotUpdate
  /-- Directory (R381), by line number. -/
  dir : Tbl DirLine
  stage : StageClock
  reel : Reel
  host : HostBlock
  /-- Module-wide energy ports (R419). -/
  etBase : Word
  roveFloor : Word
  plimit : Nat
  /-- The periods of 10,000 ns that had passed at the arbiter's last boundary (R420). -/
  arbiter : Nat
  /-- Soft errors present (R429). -/
  softErrs : List ErrSite
  /-- Identities given to teams, clusters, nodes, launches, commands, tokens; the model's own. -/
  nextId : Nat
  /-- Counter that picks the next free value; the model's own. -/
  freeCtr : Nat
  /-- The order of the next moves and what the outside supplies; the model's own (log entry 2). -/
  agenda : List Move
  deriving DecidableEq, Repr

/-- An agent's registers all zero, at the values R15 gives a warp. Lane generators follow the Reset SEED (R50). -/
def Warp.blank (who : Agent) : Warp :=
  { who, x := Vector.replicate 64 0, v := Vector.replicate 64 0, m := Vector.replicate 16 0,
    cb := Vector.replicate 16 0, vl := 128, split := [], mapping := none, pc := 0, replay := 0, replayNext := false,
    seed := 0x1F3D5B79#32,
    gens := Vector.ofFn fun lane : Fin 128 =>
      let g := 0x1F3D5B79#32 ^^^ (BitVec.ofNat 32 (lane.val * 0x9E3779B9))
      if g = 0 then 0x6D2B79F5#32 else g,
    wclk := 0, smax := 0, rmax := 0, wrote := false, stimeLatch := 0, roveOff := false, lastEnd := 0, lastLen := 0, prefs := 0,
    episodes := 0, cause := 0, epc := 0, tval := 0, team := 0, widx := 0, tidx := 0, crank := 0, cw := 1, ch := 1,
    ctx := 0, status := .running, karrw := none, promises := [], pend := [], poison := [], queries := [],
    batch := none, rove := none, yielded := false, region := none, events := 0 }

/-- A distaff thread before its image starts: it does not issue (R389; log entry 6). -/
def Warp.idleThread (d : Fin 2) (t : Fin 64) : Warp :=
  { Warp.blank (.thread d t) with status := .exited }

/-- A core at die reset. -/
def Core.reset : Core :=
  { l1 := [], l1Use := [], drops := [], tlb := [], tables := [], texels := [], lines := [], sampDrops := 0, slotDrops := [],
    pipe0 := [], pipe1 := [], engines := [], lastBase := 7, charges := [], duty := 16, throttled := false, allow := 2000, lastPart := none, raw := 0 }

/-- A queue at reset (R335). -/
def Queue.reset : Queue :=
  { rbase := 0, en := false, weight := 1, part := 0, log2n := 4, pub := 0, head := 0, err := 0, st := .disabled,
    ctx := 0, ctxSet := false, hold := none, full := false, unwritten := false, open_ := [], resets := [], credit := 0 }

/-- A head at reset (R411). -/
def Head.reset : Head :=
  { cfg := 0, timing := 0, rate := 0, phase := 0, image := 0, frame := 0, nextFrame := 0, late := 0, underrun := 0,
    st := .off, bg := 0, flips := [], flipped := false, line := none, scan := [] }

/-- A die at reset. DESIGN CHOICE, unsafe, where the spec gives no value: log entry 7. -/
def Die.reset : Die :=
  { clock := 0, tc := 0, xts := 0, cores := Vector.replicate 24 Core.reset, l2 := [], maxRts := [], maxWts := [],
    invals := [], sys := [], victims := 0, tlb := [],
    farKnots := [], fkown := [], contexts := [], queues := Vector.replicate 64 Queue.reset,
    tctl := Vector.ofFn fun t : Fin 64 => { frozen := false, halted := false, spool := false, bound := true, queue := t },
    nodes := [], tasks := [], taskGen := 1, regions := [], spBase := 0, spEn := false, spLog2n := 6, spHead := 0,
    spTail := 0, drops := 0, spoolQ := [], outst := [], nextRid := 1, sdva := 0, shootdown := none, sdWaiting := [],
    ptBase := 0, parts := [], res := 0, perr := 0, partOp := none, rem := Vector.replicate 8 0,
    ecfg := Vector.replicate 8 0, pused := Vector.replicate 8 0, pcharge := Vector.replicate 8 0, sysUsed := 0,
    sysCharge := 0, energy := [], cal := 0x10000, fgrant := 2000,
    work := Vector.replicate 15 0, rawCtx := [], rawPart := Vector.replicate 8 0, rawSys := 0, rawOut := 0,
    buckets := Vector.replicate 8 (0, 0), refills := Vector.replicate 8 0, lastThread := 63, counters := Vector.replicate 16 0, elBase := 0,
    elEn := false, elLog2n := 6, elHead := 0, elTail := 0, fatal := false, elogQ := [], mended := [], lostBacks := [],
    heads := Vector.replicate 2 Head.reset, front := [], frags := [], stamps := [], mgmtReply := [], dmem := [], image := none,
    trained := false, stalls := [] }

/-- A link at reset (R404). -/
def Link.reset : Link :=
  { training := false, up := false, lat := 0, peer := 0, rxBad := 0, failedFirst := false,
    nextSlot := 0, lastFlit := 0, lastSlot := none }

/-- The reel at reset (R404). -/
def Reel.reset : Reel :=
  { rtbase0 := 0, rtbase1 := 0, lock := false, run := false, terr := 0, inForce := false, st := .off, table := none,
    switch := none, trainAt := 0, since := 0, links := Vector.replicate 8 Link.reset, copyNos := [], rx := [] }

/-- The host interface block at reset (R391, R392). -/
def HostBlock.reset : HostBlock :=
  { hirq0 := [], hirq1 := [], bootStat := 0, poolRdy := false, svnMin := Vector.replicate 4 0, lock4 := false,
    err := false, romMode := true, mrIdx := 0, busy := none, waiting := [], nonce := List.replicate 64 0,
    extBuf := List.replicate 64 0, mr := Vector.replicate 8 (List.replicate 64 0), report := [],
    svns := Vector.replicate 4 0, harts := false, hart0 := true, imsic := [], aplic3 := false, aplic4 := false,
    entropyCtr := 0, l3 := [], ioRoot := none }

/-- The distaff threads other than thread 0 of die 0. -/
def idleThreads : List Warp :=
  (List.ofFn fun t : Fin 63 => Warp.idleThread 0 ⟨t.val + 1, by omega⟩) ++
    (List.ofFn fun t : Fin 64 => Warp.idleThread 1 t)

/-- The machine right after module reset, before step 1 of the boot sequence (R389): no warp, no partition, nothing
listed in memory. -/
def State.reset : State :=
  { cur := Warp.idleThread 0 0, others := idleThreads, mem := [], dies := Vector.replicate 2 Die.reset, teams := [],
    cmds := [], launches := [], signals := [], knotQ := [], dir := [],
    stage := { sec := 0, nsec := 0, frac := 0, rate := 0, hiWrite := 0, hiLatch := 0, osc := 0 }, reel := Reel.reset,
    host := HostBlock.reset, etBase := 0, roveFloor := 0, plimit := 1200, arbiter := 0, softErrs := [], nextId := 1, freeCtr := 0,
    agenda := [] }

end Sys2Proof.Machine
end

