-- ==== Sys2Proof/WellFormed.lean ====
section
/-! DEFINITION. Which words of an assigned opcode are legal as far as the word alone decides: reserved fields and codes
(check 4 of 03 R73, sub-cause 2), the special-register selector (check 5, sub-cause 7) and the operand and type rules of
the instruction entries (check 6, sub-cause 3). Events are always well formed. -/

namespace Sys2Proof

/-- The fields of formats A and F that an instruction may use. -/
inductive AField where
  | d | a | b | c | p | ty | rnd | ty2 | bx
  deriving DecidableEq, Repr

/-- Every field of `f` outside `u`, and every MOD bit outside `mm`, is zero (R58, R65). -/
def FmtA.only (f : FmtA) (u : List AField) (mm : BitVec 11) : Bool :=
  (u.contains .d || f.d == 0) && (u.contains .a || f.a == 0) && (u.contains .b || f.b == 0) &&
  (u.contains .c || f.c == 0) && (u.contains .p || (f.pm == 0 && f.pi == 0)) && (u.contains .ty || f.ty == 0) &&
  (u.contains .rnd || f.rnd == 0) && (u.contains .ty2 || f.ty2 == 0) && (u.contains .bx || f.bx == 0) &&
  (f.mod &&& ~~~mm) == 0

/-- A used rounding code is not reserved (R49: codes 5 to 7). -/
def FmtA.rndOk (f : FmtA) : Bool := f.rnd.toNat < 5
/-- COND in MOD bits 3:0 is not reserved (R68). -/
def FmtA.condOk (f : FmtA) : Bool := (f.mod &&& 8) == 0
/-- Bits of an M-format word that only predicated forms use. -/
def FmtM.noPred (f : FmtM) : Bool := f.pm == 0 && f.pi == 0
/-- A scope code is not one of 7 to 31 (R67). -/
def scopeCodeOk (c : BitVec 6) : Bool := c.toNat < 7 || 32 ≤ c.toNat
/-- The S-format fields outside those named are zero (R64). -/
def FmtS.only (f : FmtS) (d a b scope sel imm : Bool) : Bool :=
  (d || f.d == 0) && (a || f.a == 0) && (b || f.b == 0) && (scope || f.scope == 0) && (sel || f.sel == 0) &&
  (imm || f.imm == 0)
/-- The E-format fields outside those named are zero, bits 30:19 always (R63). -/
def FmtE.only (f : FmtE) (d a eng stream : Bool) : Bool :=
  (d || f.d == 0) && (a || (f.a == 0 && f.slot == 0)) && f.b == 0 && f.res == 0 && (eng || f.eng == 0) &&
  (stream || f.stream == 0)
/-- The B-format fields outside those named are zero, bits 46 and 1:0 always (R61, R99). -/
def FmtB.only (f : FmtB) (cond uns a b off : Bool) : Bool :=
  (cond || f.cond == 0) && (uns || f.uns == 0) && (a || f.a == 0) && (b || f.b == 0) && (off || f.off == 0) &&
  f.res1 == 0 && f.res2 == 0
/-- The K-format fields outside those named are zero, and KSPACE is not 3 (R62, R160). -/
def FmtK.only (f : FmtK) (d b scope kmode kval : Bool) : Bool :=
  (d || f.d == 0) && (b || f.b == 0) && (scope || f.scope == 0) && (kmode || f.kmode == 0) && (kval || f.kval == 0) &&
  f.kspace != 3

/-- Check 4 of R73: no reserved field is set and no field holds a reserved code. -/
def Instr.reservedOk : Instr → Bool
  | .add f | .sub f | .mul f | .mulh f | .div f | .rem f | .and f | .or f | .xor f | .andn f | .shl f | .shr f
  | .sar f | .rol f | .ror f | .min f | .max f | .bfx f | .bfi f => f.only [.d, .a, .b, .ty] 0
  | .clz f | .ctz f | .popc f | .brev f | .mov f => f.only [.d, .a, .ty] 0
  | .sel f => f.only [.d, .a, .b, .c, .ty] 0
  | .addsh f => f.only [.d, .a, .b, .ty] 7
  | .cmp f | .fcmp f => f.only [.d, .a, .b, .ty] 15 && f.condOk
  | .addImm f | .mulImm f | .andImm f | .orImm f | .xorImm f | .shlImm f | .shrImm f | .sarImm f | .rolImm f
  | .rorImm f | .minImm f | .maxImm f => f.res == 0 && f.mod == 0
  | .cmpImm f => f.res == 0
  | .movi f | .movhi f => f.res == 0 && f.mod == 0 && f.a == 0
  | .fadd f | .fsub f | .fmul f | .fdiv f => f.only [.d, .a, .b, .ty, .rnd] 0 && f.rndOk
  | .fma f => f.only [.d, .a, .b, .c, .ty, .rnd] 0x600 && f.rndOk
  | .fmin f | .fmax f => f.only [.d, .a, .b, .ty] 0
  | .fcvt f => f.only [.d, .a, .ty, .rnd, .ty2] 0xFF && f.rndOk
  | .bra f => f.only false false false false true
  | .braIndirect f => f.only false false true false true
  | .bcc f => f.only true true true true true && f.cond.toNat < 8
  | .bmk f => f.only true false true false true && f.cond.toNat < 4
  | .call f => f.only false false false false true
  | .callIndirect f => f.only false false true false true
  | .ret f => f.only false false true false false
  | .loop f => f.only false false true false true
  | .split f => f.only [.d, .a, .b, .p, .ty] 3 && f.mod != 3
  | .arm f => f.only false false false false true false && f.sel.toNat < 4
  | .join | .exit | .yield | .nop | .tret | .halt | .roveOff | .roveOn => true
  | .trap f | .svc f => f.only false false false false false true
  | .srrd f => f.only true false false false true false
  | .srwr f => f.only false true false false true false
  | .snap f => f.only true true false false true false && f.sel.toNat < 4
  | .vadd f | .vsub f | .vadds f | .vsubs f | .vmul f | .vmulh f | .vdiv f | .vmin f | .vmax f | .vand f | .vor f
  | .vxor f | .vandn f | .vshl f | .vshr f | .vsar f | .vfmin f | .vfmax f | .vperm f =>
      f.only [.d, .a, .b, .p, .ty, .bx] 0
  | .vabs f | .vneg f | .vnot f | .vclz f | .vpopc f | .vmov f | .vfclass f | .vcomp f | .vexpd f =>
      f.only [.d, .a, .p, .ty] 0
  | .vmad f => f.only [.d, .a, .b, .c, .p, .ty, .bx] 0x600
  | .vbfx f => f.only [.d, .a, .p, .ty] 0x7FF
  | .vcmp f | .vfcmp f => f.only [.d, .a, .b, .p, .ty, .bx] 0x3F && f.condOk
  | .vsel f => f.only [.d, .a, .b, .c, .p, .ty, .bx] 0
  | .vbcast f | .viota f => f.only [.d, .b, .p, .ty] 0
  | .vextr f | .vins f => f.only [.d, .a, .b, .ty] 0
  | .vfadd f | .vfsub f | .vfmul f | .vscale f | .vfdiv f => f.only [.d, .a, .b, .p, .ty, .rnd, .bx] 0 && f.rndOk
  | .vfma f => f.only [.d, .a, .b, .c, .p, .ty, .rnd, .bx] 0x600 && f.rndOk
  | .vround f | .vfrac f | .vrcp f | .vrsq f | .vsqrt f | .vexp2 f | .vlog2 f | .vsinpi f | .vcospi f | .vtanh f =>
      f.only [.d, .a, .p, .ty, .rnd] 0 && f.rndOk
  | .vdot2 f | .vdot4 f => f.only [.d, .a, .b, .c, .p, .ty, .ty2, .bx] 0x600
  | .vcvt f => f.only [.d, .a, .p, .ty, .rnd, .ty2] 0xFF && f.rndOk
  | .vpermx f => f.only [.d, .a, .b, .c, .p, .ty] 0
  | .vrot f => f.only [.d, .a, .b, .p, .ty] 0
  | .vshufx f => f.only [.d, .a, .b, .p, .ty] 3 && f.mod != 3
  | .vtrn f => f.only [.d, .a, .b, .p, .ty] 0x1F
  | .vred f => f.only [.d, .a, .p, .ty] 7 && f.mod.toNat < 6
  | .vscan f => f.only [.d, .a, .p, .ty] 15 && (f.mod &&& 7).toNat < 6
  | .vvote f => f.only [.d, .a, .p, .ty] 3
  | .mand f | .mor f | .mxor f | .mandn f => f.only [.d, .a, .b, .p] 0
  | .mnot f | .mmov f => f.only [.d, .a, .p] 0
  | .mset f => f.only [.d, .p] 1
  | .mpopc f | .mffs f => f.only [.d, .a] 0
  | .mtox f => f.only [.d, .a] 1
  | .xtom f => f.only [.d, .a, .p] 1
  | .cbld f => f.only [.a, .ty] 15
  | .cbst f => f.only [.d, .ty] 15
  | .ld f | .st f => f.b == 0 && f.noPred && f.space != 3
  | .vld f | .vst f => f.b == 0 && f.space != 3
  | .vlds f | .vsts f | .vgath f | .vscat f => f.space != 3
  | .pref f => f.d == 0 && f.b == 0 && f.noPred && f.ty == 0 && f.space == 0
  | .atomAdd f | .atomAnd f | .atomOr f | .atomXor f | .atomMin f | .atomMax f | .atomXchg f | .atomFadd f
  | .atomFmin f | .atomFmax f => f.b == 0 && f.noPred && scopeCodeOk f.hi && f.space != 3
  | .atomCas f => f.noPred && scopeCodeOk f.hi && f.space != 3
  | .vatomAdd f | .vatomAnd f | .vatomOr f | .vatomXor f | .vatomMin f | .vatomMax f | .vatomXchg f | .vatomCas f
  | .vatomFadd f | .vatomFmin f | .vatomFmax f => scopeCodeOk f.hi && f.space != 3
  | .fenceAcq f => f.only false false false true true false && scopeCodeOk f.scope && f.sel == 0
  | .fenceRel f => f.only false false false true true false && scopeCodeOk f.scope && f.sel == 1
  | .fenceAcqrel f => f.only false false false true true false && scopeCodeOk f.scope && f.sel == 2
  | .kcfg f => f.only false true true true true && scopeCodeOk f.scope
  | .karr f => f.only false false false false true
  | .ksig f => f.only false false false true true
  | .kwait f => f.only true true false true true
  | .ktry f => f.only true false false true true
  | .karrw f => f.only true true false false true
  | .krd f => f.only true false false false false
  | .tlaunch f | .tfence f => f.only true true true false false false
  | .notify f => f.only false true true false false false
  | .sleepuntil f => f.only true true false false false false
  | .cpy f => f.only false true false false
  | .cpyt f => f.only true true false true
  | .cpyq f => f.only true false false false
  | .mxacq f => f.only true false false false
  | .mxrel f => f.only false false false false
  | .mxpush f => f.only false true true false
  | .mxqs f => f.only true false true false
  | .tsld f => f.only [.d, .a, .p, .ty] 0xFF
  | .tsst f => f.only [.a, .b, .p, .ty] 0xFF
  | .tszero f => f.only [.a] 0xFF
  | .xfmCvt f => f.only [.d, .a, .p, .ty, .rnd, .ty2] 0xFF && f.rndOk
  | .xfmQuant f => f.only [.d, .a, .p, .ty, .rnd, .ty2] 0x1FF && f.rndOk && f.mod.extractLsb' 8 3 == 1
  | .xfmTr8 f => f.only [.d, .a] 0x700 && f.mod.extractLsb' 8 3 == 2
  | .xfmTr16 f => f.only [.d, .a] 0x700 && f.mod.extractLsb' 8 3 == 3
  | .xfmTr32 f => f.only [.d, .a] 0x700 && f.mod.extractLsb' 8 3 == 4
  | .xfmPack f => f.only [.d, .a, .ty] 0x700 && f.mod.extractLsb' 8 3 == 5
  | .xfmUnpack f => f.only [.d, .a, .ty] 0x700 && f.mod.extractLsb' 8 3 == 6
  | .sample f => f.only [.d, .a, .b, .c, .p, .ty] 3 && f.mod != 3
  | .sgath f => f.only [.d, .a, .b, .c, .p, .ty] 0x3F
  | .tld f => f.only [.d, .a, .b, .p, .ty] 0xF
  | .tqry f => f.only [.d, .b] 0xF
  | .wtinv f => f.only [.a] 0
  | .wtinvAll f => f.only [] 1 && f.mod == 1
  | .wtpf f => f.only [.a] 0
  | .trace f => f.only [.d, .a, .b, .c, .p, .ty] 0x7FF
  | .rqnext f | .rqterm f => f.only [.d, .c, .p, .ty] 0
  | .rqcommit f => f.only [.p] 0
  | .gemitVtx f => f.only [.a, .b, .p, .ty] 0x7C
  | .gemitPrim f => f.only [.a, .p] 1 && f.mod == 1
  | .gemitEnd f => f.only [] 2 && f.mod == 2
  | .femit f => f.only [.a, .b, .p, .ty] 0xF && (f.mod.getLsbD 3 || f.b == 0)
  | .qwait f | .qtail f => f.only true false false false false false
  | .qhandPacket f => f.only true true true false true false && f.sel == 0
  | .qhandNode f => f.only true true true false true false && f.sel == 1
  | .prd f => f.only true true false false false false
  | .pwr f | .fansw f => f.only false true true false false false
  | _ => true

/-- Check 5 of R73: an SRRD or SRWR names an assigned selector (R19). -/
def Instr.selOk : Instr → Bool
  | .srrd f | .srwr f => f.sel.toNat < 18
  | _ => true

/-- Width in bits of the element types of R66. -/
def tyWidth (t : BitVec 4) : Nat :=
  match t.toNat with
  | 0 | 1 | 12 | 13 => 8
  | 2 | 3 | 8 | 9 => 16
  | 4 | 5 | 10 => 32
  | 6 | 7 | 11 => 64
  | _ => 4

/-- `t` is one of the listed type codes. -/
def tyIn (t : BitVec 4) (l : List Nat) : Bool := l.contains t.toNat

/-- A register field obeys R17 for a group of `g` registers. -/
def aligned (r : BitVec 6) (g : Nat) : Bool := r.toNat % g == 0

/-- The registers of a 64-bit operand are pairs (R117): fields are even when the type is 64 bits wide. -/
def pairOk (t : BitVec 4) (rs : List (BitVec 6)) : Bool := tyWidth t != 64 || rs.all (aligned · 2)

/-- The vector registers fields A and B name, B only without BX. -/
def FmtA.srcAB (f : FmtA) : List (BitVec 6) := f.a :: if f.bx == 1 then [] else [f.b]

/-- A mask field is below 16 (R65). -/
def maskField (r : BitVec 6) : Bool := r.toNat < 16

/-- Floating-point types a conversion may name with SR (R49). -/
def srDest (t : BitVec 4) : Bool := tyIn t [9, 12, 13]

/-- The type pairs and register groups VCVT accepts (R127). -/
def cvtOk (f : FmtA) : Bool :=
  let wd := tyWidth f.ty
  let ws := tyWidth f.ty2
  f.ty != f.ty2 && f.ty != 11 && f.ty2 != 11 &&
  (wd ≤ 4 * ws && ws ≤ 4 * wd) &&
  (!(tyIn f.ty [6, 7]) || tyIn f.ty2 [4, 5, 6, 7, 10]) && (!(tyIn f.ty2 [6, 7]) || tyIn f.ty [4, 5, 6, 7, 10]) &&
  (f.ty != 14 || (tyIn f.ty2 [8, 9] && f.mod.extractLsb' 0 8 == 0 && f.rnd == 0)) &&
  (f.ty2 != 14 || tyIn f.ty [8, 9]) &&
  (f.rnd != 4 || srDest f.ty) &&
  (if ws < wd then aligned f.d (wd / ws) else if wd < ws then aligned f.a (ws / wd)
   else wd != 64 || (aligned f.d 2 && aligned f.a 2))

/-- Scopes an atomic takes in its space (R143). -/
def atomScopeOk (f : FmtM) : Bool :=
  if f.space == 0 then f.hi.toNat < 6 || 32 ≤ f.hi.toNat else f.hi.toNat < 3

/-- The index pair of .glb pair mode is even (R145, R146). -/
def pairModeOk (f : FmtM) : Bool := !(f.space == 0 && f.a == 0) || aligned f.b 2

/-- Check 6 of R73 as far as the word decides it: operand and type rules. -/
def Instr.operandOk : Instr → Bool
  | .add f | .sub f | .mul f | .mulh f | .div f | .rem f | .and f | .or f | .xor f | .andn f | .shl f | .shr f
  | .sar f | .rol f | .ror f | .min f | .max f | .clz f | .ctz f | .popc f | .brev f | .mov f | .sel f | .addsh f =>
      tyIn f.ty [4, 5, 6, 7]
  | .bfx f | .bfi f => tyIn f.ty [6, 7]
  | .cmp f => tyIn f.ty [4, 5, 6, 7] && f.mod.toNat < 6
  | .addImm f | .mulImm f | .andImm f | .orImm f | .xorImm f | .shlImm f | .shrImm f | .sarImm f | .rolImm f
  | .rorImm f | .minImm f | .maxImm f => tyIn f.ty [4, 5, 6, 7]
  | .cmpImm f => tyIn f.ty [4, 5, 6, 7] && f.mod.toNat < 6
  | .movi f | .movhi f => f.ty == 6
  | .fadd f | .fsub f | .fmul f | .fdiv f | .fma f => tyIn f.ty [10, 11] && f.rnd != 4
  | .fmin f | .fmax f | .fcmp f => tyIn f.ty [10, 11]
  | .fcvt f => f.ty != 14 && f.ty2 != 14 && f.ty != f.ty2 && (f.rnd != 4 || srDest f.ty)
  | .bcc f => f.cond.toNat < 6
  | .bmk f => maskField f.a
  | .loop f => f.a != 0
  | .split f => f.ty == 5
  | .vadd f | .vsub f | .vmul f | .vmin f | .vmax f | .vand f | .vor f | .vxor f | .vandn f | .vshl f | .vshr f
  | .vsar f => tyIn f.ty [0, 1, 2, 3, 4, 5, 6, 7] && pairOk f.ty (f.d :: f.srcAB)
  | .vnot f => tyIn f.ty [0, 1, 2, 3, 4, 5, 6, 7] && pairOk f.ty [f.d, f.a]
  | .vadds f | .vsubs f | .vmulh f | .vdiv f | .vmad f | .vclz f | .vpopc f => tyIn f.ty [0, 1, 2, 3, 4, 5]
  | .vabs f | .vneg f => tyIn f.ty [0, 2, 4]
  | .vbfx f =>
      let pos := (f.mod.extractLsb' 0 5).toNat
      let len := (f.mod.extractLsb' 5 6).toNat
      tyIn f.ty [0, 1, 2, 3, 4, 5] && pos < tyWidth f.ty && pos + len ≤ tyWidth f.ty
  | .vcmp f => tyIn f.ty [0, 1, 2, 3, 4, 5, 6, 7] && (f.mod.extractLsb' 0 4).toNat < 6 && maskField f.d &&
      (f.mod.extractLsb' 4 2).toNat * tyWidth f.ty < 32 + (if tyWidth f.ty == 64 then 32 else 0) &&
      (tyWidth f.ty < 32 || f.mod.extractLsb' 4 2 == 0) && pairOk f.ty f.srcAB
  | .vfcmp f => tyIn f.ty [8, 9, 10] && maskField f.d && (f.mod.extractLsb' 4 2).toNat * tyWidth f.ty < 32
  | .vsel f => f.ty != 11 && maskField f.c && pairOk f.ty (f.d :: f.srcAB)
  | .vmov f => f.ty != 11 && pairOk f.ty [f.d, f.a]
  | .vbcast f => f.ty != 11 && pairOk f.ty [f.d]
  | .viota f => tyIn f.ty [0, 1, 2, 3, 4, 5, 6, 7] && pairOk f.ty [f.d]
  | .vextr f => f.ty != 11 && pairOk f.ty [f.a]
  | .vins f => f.ty != 11 && pairOk f.ty [f.d]
  | .vfadd f | .vfsub f | .vfmul f | .vfma f | .vround f | .vfrac f | .vscale f => tyIn f.ty [8, 9, 10] && f.rnd != 4
  | .vfmin f | .vfmax f | .vfclass f => tyIn f.ty [8, 9, 10]
  | .vdot2 f => f.ty == 10 && tyIn f.ty2 [8, 9]
  | .vdot4 f => (f.ty == 10 && tyIn f.ty2 [12, 13]) || (f.ty == 4 && tyIn f.ty2 [0, 1])
  | .vcvt f => cvtOk f
  | .vrcp f | .vrsq f | .vsqrt f | .vfdiv f | .vexp2 f | .vlog2 f | .vsinpi f | .vcospi f | .vtanh f =>
      tyIn f.ty [8, 10] && f.rnd != 4
  | .vperm f | .vpermx f | .vrot f | .vshufx f | .vcomp f | .vexpd f => tyIn f.ty [4, 5, 10]
  | .vtrn f => tyIn f.ty [0, 1, 2, 3, 4, 5, 8, 9, 10, 12, 13] &&
      2 ^ ((f.mod.extractLsb' 1 4).toNat + 1) * tyWidth f.ty ≤ 4096
  | .vred f | .vscan f => tyIn f.ty [4, 5, 10] && (f.ty != 10 || (f.mod.extractLsb' 0 3).toNat < 3)
  | .vvote f => tyIn f.ty [4, 5, 10] && maskField f.d
  | .mand f | .mor f | .mxor f | .mandn f => maskField f.d && maskField f.a && maskField f.b
  | .mnot f | .mmov f => maskField f.d && maskField f.a
  | .mset f | .xtom f => maskField f.d
  | .mpopc f | .mffs f | .mtox f => maskField f.a
  | .cbld f | .cbst f => f.ty == 9
  | .ld f | .st f => f.ty.toNat < 14
  | .vld f | .vst f => f.ty != 11 && pairOk f.ty [f.d]
  | .vlds f | .vsts f => f.ty.toNat < 14 && f.ty != 11 && pairOk f.ty [f.d]
  | .vgath f | .vscat f => f.ty.toNat < 14 && f.ty != 11 && pairOk f.ty [f.d] && pairModeOk f
  | .atomAdd f | .atomAnd f | .atomOr f | .atomXor f | .atomMin f | .atomMax f =>
      tyIn f.ty [4, 5, 6, 7] && atomScopeOk f
  | .atomXchg f | .atomCas f => tyIn f.ty [4, 5, 6, 7, 10, 11] && atomScopeOk f
  | .atomFadd f | .atomFmin f | .atomFmax f => tyIn f.ty [10, 11] && atomScopeOk f
  | .vatomAdd f | .vatomAnd f | .vatomOr f | .vatomXor f | .vatomMin f | .vatomMax f =>
      tyIn f.ty [4, 5] && atomScopeOk f && pairModeOk f
  | .vatomXchg f => tyIn f.ty [4, 5, 10] && atomScopeOk f && pairModeOk f
  | .vatomCas f => tyIn f.ty [4, 5, 10] && atomScopeOk f && pairModeOk f && aligned f.d 2
  | .vatomFadd f | .vatomFmin f | .vatomFmax f => f.ty == 10 && atomScopeOk f && pairModeOk f
  | .kcfg f => f.kmode == 1 || f.kval != 0
  | .karr f | .ksig f | .karrw f => f.kval != 0
  | .kwait f | .ktry f => f.kmode == 1 || f.kval.toNat < 2
  | .mxacq f => maskField f.d
  | .tsld f | .tsst f => f.ty == 5
  | .xfmCvt f => f.ty != 14 && f.ty2 != 14 && cvtOk f
  | .xfmQuant f => f.ty == 14 && tyIn f.ty2 [8, 9] && f.rnd == 0 && f.mod.extractLsb' 0 8 == 0 && aligned f.a 4
  | .xfmTr32 f => aligned f.d 2 && aligned f.a 2
  | .xfmPack f => tyIn f.ty [1, 3] && aligned f.a (32 / tyWidth f.ty)
  | .xfmUnpack f => tyIn f.ty [0, 1, 2, 3] && aligned f.d (32 / tyWidth f.ty)
  | .sample f => f.ty == 8 && aligned f.d 2 && aligned f.a (if f.mod == 0 then 2 else 4)
  | .sgath f | .tld f => f.ty == 8 && aligned f.d 2 && aligned f.a 2
  | .trace f => f.ty == 10 && aligned f.d 4 && aligned f.a 8 && maskField f.c
  | .rqnext f | .rqterm f => f.ty == 10 && aligned f.d 4 && maskField f.c
  | .gemitVtx f => f.ty == 10 && aligned f.a 4 && (f.mod.extractLsb' 2 5).toNat ≤ 16 &&
      f.b.toNat + (f.mod.extractLsb' 2 5).toNat ≤ 64
  | .femit f => (f.ty == 10 && aligned f.a 4) || (f.ty == 8 && aligned f.a 2)
  | _ => true

/-- A well-formed instruction: one whose word passes checks 4 to 6 of R73 as far as the word decides them. -/
def Instr.wf (i : Instr) : Bool := i.reservedOk && i.selOk && i.operandOk

end Sys2Proof
end

