-- ==== Sys2Proof/Machine/Operands.lean ====
section
/-! DEFINITION. Operand forms: registers and their hard-wired values, lane mapping, active lanes, broadcast, element
placement, and the end of an instruction (01 R14, R16 to R18, R22; 06 R117, R118; 05 R111). -/

namespace Sys2Proof.Machine

/-- x[r]; x0 reads as zero (R14). -/
def readX (w : Warp) (r : BitVec 6) : Word := if r = 0 then 0 else w.x[r.toNat]'(r.isLt)

/-- x[r] written; a write to x0 is discarded (R14). -/
def writeX (w : Warp) (r : BitVec 6) (val : Word) : Warp :=
  if r = 0 then w else { w with x := w.x.set r.toNat val r.isLt }

/-- v[r]. -/
def readV (w : Warp) (r : BitVec 6) : VReg := w.v[r.toNat]'(r.isLt)

/-- v[n] by number, zero beyond v63. -/
def vAt (w : Warp) (n : Nat) : VReg := w.v.toArray.getD n 0

/-- v[n] written by number. -/
def setV (w : Warp) (n : Nat) (r : VReg) : Warp := { w with v := setReg w.v n r }

/-- Position of a physical lane under the mapping in force (R24, R118). -/
def posOf (w : Warp) (pl : Nat) : Option Nat :=
  match w.mapping with
  | none => some pl
  | some l => l.idxOf? pl

/-- Physical lane of a position (R24, R118). -/
def physOf (w : Warp) (p : Nat) : Option Nat :=
  match w.mapping with
  | none => if p < 128 then some p else none
  | some l => l[p]?

/-- The physical lanes whose position lies below VL: what m0 reads as (R14). -/
def vlMask (w : Warp) : Mask :=
  buildMask fun pl => match posOf w pl with
    | some p => decide (p < w.vl)
    | none => false

/-- m[r], by physical lane; m0 covers the lanes below VL (R14, R24). -/
def readM (w : Warp) (r : BitVec 4) : Mask := if r = 0 then vlMask w else w.m[r.toNat]'(r.isLt)

/-- m[r] written; a write to m0 is discarded (R14). -/
def writeM (w : Warp) (r : BitVec 4) (val : Mask) : Warp :=
  if r = 0 then w else { w with m := w.m.set r.toNat val r.isLt }

/-- A mask field of six bits that the word has been checked to hold below 16 (R65). -/
def mfield (r : BitVec 6) : BitVec 4 := r.setWidth 4

/-- The lanes a replay confines an instruction to (R111, R150). -/
def replayLanes (w : Warp) : Mask := if w.replayNext then w.replay else BitVec.allOnes 128

/-- The active physical lanes of a predicated instruction (R18, R111). -/
def activeMask (w : Warp) (pm : BitVec 4) (pi : BitVec 1) : Mask :=
  (if pi = 1 then ~~~(readM w pm) else readM w pm) &&& vlMask w &&& replayLanes w

/-- Elements per lane of `n` elements, and the lane of an element (R18). -/
def laneOfElem (n e : Nat) : Nat := e * 128 / n

/-- Elements per register for a type, or 128 for a 64-bit pair (R16, R17). -/
def elemCount (t : BitVec 4) : Nat := if tyWidth t = 64 then 128 else 4096 / tyWidth t

/-- The end of an instruction that does not transfer control: the next PC, and the end of any replay (R99, R111). -/
def retire (w : Warp) : Warp :=
  { w with pc := w.pc + 8, replay := if w.replayNext then 0 else w.replay, replayNext := false, yielded := false,
           status := .running }

/-- The end of an instruction that transfers control to `target`. -/
def jump (w : Warp) (target : Word) : Warp := { retire w with pc := target }

/-- Element `e` of the group of `n` elements at field `r` (R17). -/
def srcElem (w : Warp) (r : BitVec 6) (n wd e : Nat) : Nat := readGroup w.v r.toNat n wd e

/-- Element `e` of source B: of v[B], or the broadcast low bits of x[B] (R117). -/
def srcB (w : Warp) (f : FmtA) (n wd e : Nat) : Nat :=
  if f.bx = 1 then (readX w f.b).toNat % 2 ^ wd else srcElem w f.b n wd e

/-- The active elements of the group of `n` elements at field `d` written (R17, R18). -/
def writeElems (w : Warp) (d : BitVec 6) (n wd : Nat) (act : Mask) (val : Nat → Nat) : Warp :=
  { w with v := writeGroup w.v d.toNat n wd (fun e => act.getLsbD (laneOfElem n e)) val }

/-- The numbering an arm sees: element `e` in arm numbering for physical element `e` (R118). -/
def armElem (w : Warp) (n e : Nat) : Nat :=
  let k := n / 128
  match posOf w (e / k) with
  | some p => p * k + e % k
  | none => e

/-- The physical element of element `j` in arm numbering, when its position has a lane (R118). -/
def physElem (w : Warp) (n j : Nat) : Option Nat :=
  let k := n / 128
  (physOf w (j / k)).map fun pl => pl * k + j % k

/-- Element `j` in arm numbering of v[r]; a position at or beyond VL reads as zero (R130). -/
def crossElem (w : Warp) (r : BitVec 6) (n wd j : Nat) : Nat :=
  if j / (n / 128) < w.vl then
    match physElem w n j with
    | some e => srcElem w r n wd e
    | none => 0
  else 0

/-- Bits by position from a mask held by physical lane (R118). -/
def maskBitAt (w : Warp) (m : Mask) (p : Nat) : Bool :=
  match physOf w p with
  | some pl => m.getLsbD pl
  | none => false

/-! ### Registers by name (R28, R35) -/

/-- x[r]; x0 is no register that waits or is invalid (R14, R35). -/
def xOf (r : BitVec 6) : List RegRef := if r = 0 then [] else [.x r.toNat]
/-- The group of `g` vector registers at a field (R17). -/
def vOf (r : BitVec 6) (g : Nat) : List RegRef := (List.range g).map fun k => .v (r.toNat + k)
/-- m[r]; m0 is VL (R14). -/
def mOf (r : BitVec 6) : List RegRef := if r.toNat % 16 = 0 then [] else [.m (r.toNat % 16)]
/-- The predicate mask of a form. -/
def predOf (pm : BitVec 4) : List RegRef := mOf (pm.setWidth 6)

/-- Two lists of registers share one. -/
def meets (a b : List RegRef) : Bool := a.any fun r => b.contains r

/-- The registers a load still owes. -/
def owedBy (p : Pending) : List RegRef :=
  p.xw.flatMap (fun q => xOf q.1) ++ p.vw.map (fun q => .v q.1.toNat) ++ p.mw.flatMap fun q => mOf (q.1.setWidth 6)

/-- The registers that wait for load data. -/
def owedRegs (w : Warp) : List RegRef := w.pend.flatMap owedBy

/-- m1 to m15, which SPLIT saves and JOIN restores (R24). -/
def allMasks : List RegRef := (List.range 15).map fun k => .m (k + 1)

/-- IMM32 sign-extended (R59). -/
def immX (f : FmtI) : Word := f.imm.signExtend 64

/-- The byte offset of a memory instruction (R60): 24 bits, or 18 for ATOM and VATOM. -/
def memOffset (f : FmtM) : Word := (f.hi ++ f.lo : BitVec 24).signExtend 64
def atomOffset (f : FmtM) : Word := f.lo.signExtend 64

/-- 8 x OFFSET of a branch (R61). -/
def branchOffset (f : FmtB) : Word := (f.off ++ (0 : BitVec 3)).signExtend 64

end Sys2Proof.Machine
end

