-- ==== Sys2Proof/Machine/Flags.lean ====
section
/-! DEFINITION. Condition codes (03 R68): the machine has no flags register, so a compare's outcome is its result. -/

namespace Sys2Proof.Machine

/-- COND codes 0 to 5 on the outcome of an ordering of a with b: negative, zero or positive. -/
def condHolds (c : Nat) (o : Int) : Bool :=
  match c with
  | 0 => decide (o = 0)
  | 1 => decide (o ≠ 0)
  | 2 => decide (o < 0)
  | 3 => decide (o ≤ 0)
  | 4 => decide (0 < o)
  | _ => decide (0 ≤ o)

/-- The ordering of two integers of width `w`, signed or unsigned (R68). -/
def intOrder (w : Nat) (signed : Bool) (a b : Nat) : Int :=
  if signed then toSigned w a - toSigned w b else ((a % 2 ^ w : Nat) : Int) - ((b % 2 ^ w : Nat) : Int)

/-- A condition on integers (R68). -/
def intCond (c w : Nat) (signed : Bool) (a b : Nat) : Bool := condHolds c (intOrder w signed a b)

/-- A condition on floating-point values: all but NE and UNO are false on NaN (R68). -/
def fpCond (c : Nat) (a b : Fv) : Bool :=
  let nan := a.isNan || b.isNan
  match c with
  | 6 => !nan
  | 7 => nan
  | 1 => nan || decide (Fv.cmp a b ≠ 0)
  | _ => !nan && condHolds c (Fv.cmp a b)

/-- The mask conditions of BMK over the bits of the lanes below VL (R68). -/
def maskCond (c : Nat) (m lanes : Mask) : Bool :=
  match c with
  | 0 => m &&& lanes != 0
  | 1 => m &&& lanes == 0
  | 2 => m &&& lanes == lanes
  | _ => m &&& lanes != lanes

end Sys2Proof.Machine
end

