-- ==== Sys2Proof/Machine/Alu.lean ====
section
/-! DEFINITION. Integer arithmetic shared by scalar and vector instructions (02 R41, R42; 05 R94 to R96): each operation
takes its operands' low `w` bits and gives a result whose low `w` bits are the result. -/

namespace Sys2Proof.Machine

/-- High `w` bits of the exact product (R95 MULH, R119 VMULH). -/
def aluMulh (w : Nat) (sg : Bool) (a b : Nat) : Nat :=
  if sg then ofSigned w ((toSigned w a * toSigned w b) / (2 ^ w : Nat)) else a * b / 2 ^ w

/-- Quotient of R42. -/
def aluDiv (w : Nat) (sg : Bool) (a b : Nat) : Nat :=
  if b = 0 then 2 ^ w - 1
  else if sg then ofSigned w (Int.tdiv (toSigned w a) (toSigned w b)) else a / b

/-- Remainder of R42. -/
def aluRem (w : Nat) (sg : Bool) (a b : Nat) : Nat :=
  if b = 0 then a
  else if sg then ofSigned w (Int.tmod (toSigned w a) (toSigned w b)) else a % b

/-- Shifts and rotations by `b mod w` (R95). -/
def aluShl (w a b : Nat) : Nat := (a <<< (b % w)) % 2 ^ w
def aluShr (w a b : Nat) : Nat := a >>> (b % w)
def aluSar (w a b : Nat) : Nat := ofSigned w (toSigned w a >>> (b % w))
def aluRol (w a b : Nat) : Nat := ((a <<< (b % w)) ||| (a >>> (w - b % w))) % 2 ^ w
def aluRor (w a b : Nat) : Nat := ((a >>> (b % w)) ||| (a <<< (w - b % w))) % 2 ^ w

/-- The smaller and the larger by the type's order (R95). -/
def aluMin (w : Nat) (sg : Bool) (a b : Nat) : Nat := if intCond 2 w sg b a then b else a
def aluMax (w : Nat) (sg : Bool) (a b : Nat) : Nat := if intCond 2 w sg a b then b else a

/-- Length of the field BFX and BFI take from x[B] (R96), and its mask. -/
def fieldLen (b : Nat) : Nat := min (bits b 14 8) (64 - b % 64)
def fieldOnes (len : Nat) : Nat := 2 ^ len - 1

/-- Field extract (R96). -/
def aluBfx (sg : Bool) (a b : Nat) : Word :=
  let len := fieldLen b
  if len = 0 then 0 else extendTo64 len sg (a >>> (b % 64))

/-- Field insert into `d` (R96). -/
def aluBfi (d a b : Nat) : Word :=
  let len := fieldLen b
  let pos := b % 64
  let m := BitVec.ofNat 64 (fieldOnes len <<< pos)
  (BitVec.ofNat 64 d &&& ~~~m) ||| BitVec.ofNat 64 ((a &&& fieldOnes len) <<< pos)

end Sys2Proof.Machine
end

