-- ==== Sys2Proof/Decode.lean ====
section
/-! DEFINITION. From a 64-bit word to an instruction and back (03 R57 to R74). `parse` reads the opcode, `decode` adds the
checks the word alone decides, `encode` writes a word from the same tables. -/

namespace Sys2Proof

/-- MAJOR, bits 63:58 (R57). -/
def majorOf (w : Word) : Nat := (w.extractLsb' 58 6).toNat
/-- MINOR, bits 57:52 (R57). -/
def minorOf (w : Word) : Nat := (w.extractLsb' 52 6).toNat

/-- Fields of format A and F (R58). -/
def unpackA (w : Word) : FmtA :=
  { d := w.extractLsb' 46 6, a := w.extractLsb' 40 6, b := w.extractLsb' 34 6, c := w.extractLsb' 28 6,
    pm := w.extractLsb' 24 4, pi := w.extractLsb' 23 1, ty := w.extractLsb' 19 4, rnd := w.extractLsb' 16 3,
    ty2 := w.extractLsb' 12 4, bx := w.extractLsb' 11 1, mod := w.extractLsb' 0 11 }
/-- Word of format A and F (R58). -/
def packA (major minor : BitVec 6) (f : FmtA) : Word :=
  (major ++ minor ++ f.d ++ f.a ++ f.b ++ f.c ++ f.pm ++ f.pi ++ f.ty ++ f.rnd ++ f.ty2 ++ f.bx ++ f.mod : BitVec 64)
/-- Fields of format I; IMM32 is IMMHI:IMMLO (R59). -/
def unpackI (w : Word) : FmtI :=
  { d := w.extractLsb' 46 6, a := w.extractLsb' 40 6, imm := w.extractLsb' 24 16 ++ w.extractLsb' 3 16,
    res := w.extractLsb' 23 1, ty := w.extractLsb' 19 4, mod := w.extractLsb' 0 3 }
/-- Word of format I (R59). -/
def packI (major minor : BitVec 6) (f : FmtI) : Word :=
  (major ++ minor ++ f.d ++ f.a ++ f.imm.extractLsb' 16 16 ++ f.res ++ f.ty ++ f.imm.extractLsb' 0 16 ++ f.mod : BitVec 64)
/-- Fields of format M; the space is MINOR bits 5:4 (R60, R69). -/
def unpackM (w : Word) : FmtM :=
  { space := w.extractLsb' 56 2, d := w.extractLsb' 46 6, a := w.extractLsb' 40 6, b := w.extractLsb' 34 6,
    hi := w.extractLsb' 28 6, pm := w.extractLsb' 24 4, pi := w.extractLsb' 23 1, ty := w.extractLsb' 19 4,
    lo := w.extractLsb' 1 18, nt := w.extractLsb' 0 1 }
/-- Word of format M; `op` is MINOR bits 3:0 (R60, R69). -/
def packM (major : BitVec 6) (op : BitVec 4) (f : FmtM) : Word :=
  (major ++ f.space ++ op ++ f.d ++ f.a ++ f.b ++ f.hi ++ f.pm ++ f.pi ++ f.ty ++ f.lo ++ f.nt : BitVec 64)
/-- Fields of format B (R61). -/
def unpackB (w : Word) : FmtB :=
  { cond := w.extractLsb' 48 4, uns := w.extractLsb' 47 1, res1 := w.extractLsb' 46 1, a := w.extractLsb' 40 6,
    b := w.extractLsb' 34 6, off := w.extractLsb' 2 32, res2 := w.extractLsb' 0 2 }
/-- Word of format B (R61). -/
def packB (major minor : BitVec 6) (f : FmtB) : Word :=
  (major ++ minor ++ f.cond ++ f.uns ++ f.res1 ++ f.a ++ f.b ++ f.off ++ f.res2 : BitVec 64)
/-- Fields of format K (R62). -/
def unpackK (w : Word) : FmtK :=
  { d := w.extractLsb' 46 6, a := w.extractLsb' 40 6, b := w.extractLsb' 34 6, scope := w.extractLsb' 28 6,
    kidx := w.extractLsb' 18 10, kspace := w.extractLsb' 16 2, kmode := w.extractLsb' 15 1, kval := w.extractLsb' 0 15 }
/-- Word of format K (R62). -/
def packK (major minor : BitVec 6) (f : FmtK) : Word :=
  (major ++ minor ++ f.d ++ f.a ++ f.b ++ f.scope ++ f.kidx ++ f.kspace ++ f.kmode ++ f.kval : BitVec 64)
/-- Fields of format E (R63). -/
def unpackE (w : Word) : FmtE :=
  { d := w.extractLsb' 46 6, a := w.extractLsb' 40 6, b := w.extractLsb' 34 6, slot := w.extractLsb' 31 3,
    res := w.extractLsb' 19 12, eng := w.extractLsb' 16 3, stream := w.extractLsb' 0 16 }
/-- Word of format E (R63). -/
def packE (major minor : BitVec 6) (f : FmtE) : Word :=
  (major ++ minor ++ f.d ++ f.a ++ f.b ++ f.slot ++ f.res ++ f.eng ++ f.stream : BitVec 64)
/-- Fields of format S (R64). -/
def unpackS (w : Word) : FmtS :=
  { d := w.extractLsb' 46 6, a := w.extractLsb' 40 6, b := w.extractLsb' 34 6, scope := w.extractLsb' 28 6,
    sel := w.extractLsb' 20 8, imm := w.extractLsb' 0 20 }
/-- Word of format S (R64). -/
def packS (major minor : BitVec 6) (f : FmtS) : Word :=
  (major ++ minor ++ f.d ++ f.a ++ f.b ++ f.scope ++ f.sel ++ f.imm : BitVec 64)

/-- Minor opcodes of major 0x01 (R71). -/
def parse01 (w : Word) : Except Nat Instr :=
  match minorOf w with
    | 0 => .ok (.add (unpackA w))
    | 1 => .ok (.sub (unpackA w))
    | 2 => .ok (.mul (unpackA w))
    | 3 => .ok (.mulh (unpackA w))
    | 4 => .ok (.div (unpackA w))
    | 5 => .ok (.rem (unpackA w))
    | 6 => .ok (.and (unpackA w))
    | 7 => .ok (.or (unpackA w))
    | 8 => .ok (.xor (unpackA w))
    | 9 => .ok (.andn (unpackA w))
    | 10 => .ok (.shl (unpackA w))
    | 11 => .ok (.shr (unpackA w))
    | 12 => .ok (.sar (unpackA w))
    | 13 => .ok (.rol (unpackA w))
    | 14 => .ok (.ror (unpackA w))
    | 15 => .ok (.min (unpackA w))
    | 16 => .ok (.max (unpackA w))
    | 17 => .ok (.clz (unpackA w))
    | 18 => .ok (.ctz (unpackA w))
    | 19 => .ok (.popc (unpackA w))
    | 20 => .ok (.brev (unpackA w))
    | 21 => .ok (.bfx (unpackA w))
    | 22 => .ok (.bfi (unpackA w))
    | 23 => .ok (.sel (unpackA w))
    | 24 => .ok (.mov (unpackA w))
    | 25 => .ok (.addsh (unpackA w))
    | 26 => .ok (.cmp (unpackA w))
    | _ => .error 1

/-- Minor opcodes of major 0x02 (R71). -/
def parse02 (w : Word) : Except Nat Instr :=
  match minorOf w with
    | 0 => .ok (.addImm (unpackI w))
    | 2 => .ok (.mulImm (unpackI w))
    | 6 => .ok (.andImm (unpackI w))
    | 7 => .ok (.orImm (unpackI w))
    | 8 => .ok (.xorImm (unpackI w))
    | 10 => .ok (.shlImm (unpackI w))
    | 11 => .ok (.shrImm (unpackI w))
    | 12 => .ok (.sarImm (unpackI w))
    | 13 => .ok (.rolImm (unpackI w))
    | 14 => .ok (.rorImm (unpackI w))
    | 15 => .ok (.minImm (unpackI w))
    | 16 => .ok (.maxImm (unpackI w))
    | 26 => .ok (.cmpImm (unpackI w))
    | 28 => .ok (.movi (unpackI w))
    | 29 => .ok (.movhi (unpackI w))
    | _ => .error 1

/-- Minor opcodes of major 0x03 (R71). -/
def parse03 (w : Word) : Except Nat Instr :=
  match minorOf w with
    | 0 => .ok (.fadd (unpackA w))
    | 1 => .ok (.fsub (unpackA w))
    | 2 => .ok (.fmul (unpackA w))
    | 3 => .ok (.fma (unpackA w))
    | 4 => .ok (.fdiv (unpackA w))
    | 5 => .ok (.fmin (unpackA w))
    | 6 => .ok (.fmax (unpackA w))
    | 7 => .ok (.fcmp (unpackA w))
    | 8 => .ok (.fcvt (unpackA w))
    | _ => .error 1

/-- Minor opcodes of major 0x04 (R71). -/
def parse04 (w : Word) : Except Nat Instr :=
  match minorOf w with
    | 0 => .ok (.bra (unpackB w))
    | 1 => .ok (.braIndirect (unpackB w))
    | 2 => .ok (.bcc (unpackB w))
    | 3 => .ok (.bmk (unpackB w))
    | 4 => .ok (.call (unpackB w))
    | 5 => .ok (.callIndirect (unpackB w))
    | 6 => .ok (.ret (unpackB w))
    | 7 => .ok (.loop (unpackB w))
    | _ => .error 1

/-- Minor opcodes of major 0x05 (R71). -/
def parse05 (w : Word) : Except Nat Instr :=
  match minorOf w with
    | 0 => .ok (.split (unpackA w))
    | 1 => .ok (.arm (unpackS w))
    | 2 => if w.extractLsb' 0 52 = 0 then .ok .join else .error 2
    | 3 => if w.extractLsb' 0 52 = 0 then .ok .exit else .error 2
    | 4 => if w.extractLsb' 0 52 = 0 then .ok .yield else .error 2
    | 5 => if w.extractLsb' 0 52 = 0 then .ok .nop else .error 2
    | _ => .error 1

/-- Minor opcodes of major 0x06 (R71). -/
def parse06 (w : Word) : Except Nat Instr :=
  match minorOf w with
    | 0 => .ok (.trap (unpackS w))
    | 1 => if w.extractLsb' 0 52 = 0 then .ok .tret else .error 2
    | 2 => .ok (.svc (unpackS w))
    | 3 => .ok (.srrd (unpackS w))
    | 4 => .ok (.srwr (unpackS w))
    | 5 => .ok (.snap (unpackS w))
    | 6 =>
      if w.extractLsb' 28 24 = 0 ∧ w.extractLsb' 0 20 = 0 then
        match (w.extractLsb' 20 8).toNat with
        | 0 => .ok .roveOff
        | 1 => .ok .roveOn
        | _ => .error 2
      else .error 2
    | 7 => if w.extractLsb' 0 52 = 0 then .ok .halt else .error 2
    | _ => .error 1

/-- Minor opcodes of major 0x08 (R71). -/
def parse08 (w : Word) : Except Nat Instr :=
  match minorOf w with
    | 0 => .ok (.vadd (unpackA w))
    | 1 => .ok (.vsub (unpackA w))
    | 2 => .ok (.vadds (unpackA w))
    | 3 => .ok (.vsubs (unpackA w))
    | 4 => .ok (.vmul (unpackA w))
    | 5 => .ok (.vmulh (unpackA w))
    | 6 => .ok (.vmad (unpackA w))
    | 7 => .ok (.vdiv (unpackA w))
    | 8 => .ok (.vmin (unpackA w))
    | 9 => .ok (.vmax (unpackA w))
    | 10 => .ok (.vabs (unpackA w))
    | 11 => .ok (.vneg (unpackA w))
    | 12 => .ok (.vand (unpackA w))
    | 13 => .ok (.vor (unpackA w))
    | 14 => .ok (.vxor (unpackA w))
    | 15 => .ok (.vandn (unpackA w))
    | 16 => .ok (.vnot (unpackA w))
    | 17 => .ok (.vshl (unpackA w))
    | 18 => .ok (.vshr (unpackA w))
    | 19 => .ok (.vsar (unpackA w))
    | 20 => .ok (.vclz (unpackA w))
    | 21 => .ok (.vpopc (unpackA w))
    | 22 => .ok (.vbfx (unpackA w))
    | 23 => .ok (.vcmp (unpackA w))
    | 24 => .ok (.vsel (unpackA w))
    | 25 => .ok (.vmov (unpackA w))
    | 26 => .ok (.vbcast (unpackA w))
    | 27 => .ok (.viota (unpackA w))
    | 28 => .ok (.vextr (unpackA w))
    | 29 => .ok (.vins (unpackA w))
    | _ => .error 1

/-- Minor opcodes of major 0x09 (R71). -/
def parse09 (w : Word) : Except Nat Instr :=
  match minorOf w with
    | 0 => .ok (.vfadd (unpackA w))
    | 1 => .ok (.vfsub (unpackA w))
    | 2 => .ok (.vfmul (unpackA w))
    | 3 => .ok (.vfma (unpackA w))
    | 4 => .ok (.vfmin (unpackA w))
    | 5 => .ok (.vfmax (unpackA w))
    | 6 => .ok (.vfcmp (unpackA w))
    | 7 => .ok (.vfclass (unpackA w))
    | 8 => .ok (.vround (unpackA w))
    | 9 => .ok (.vfrac (unpackA w))
    | 10 => .ok (.vscale (unpackA w))
    | 11 => .ok (.vdot2 (unpackA w))
    | 12 => .ok (.vdot4 (unpackA w))
    | 13 => .ok (.vcvt (unpackA w))
    | _ => .error 1

/-- Minor opcodes of major 0x0A (R71). -/
def parse0A (w : Word) : Except Nat Instr :=
  match minorOf w with
    | 0 => .ok (.vrcp (unpackA w))
    | 1 => .ok (.vrsq (unpackA w))
    | 2 => .ok (.vsqrt (unpackA w))
    | 3 => .ok (.vfdiv (unpackA w))
    | 4 => .ok (.vexp2 (unpackA w))
    | 5 => .ok (.vlog2 (unpackA w))
    | 6 => .ok (.vsinpi (unpackA w))
    | 7 => .ok (.vcospi (unpackA w))
    | 8 => .ok (.vtanh (unpackA w))
    | _ => .error 1

/-- Minor opcodes of major 0x0B (R71). -/
def parse0B (w : Word) : Except Nat Instr :=
  match minorOf w with
    | 0 => .ok (.vperm (unpackA w))
    | 1 => .ok (.vpermx (unpackA w))
    | 2 => .ok (.vrot (unpackA w))
    | 3 => .ok (.vshufx (unpackA w))
    | 4 => .ok (.vred (unpackA w))
    | 5 => .ok (.vscan (unpackA w))
    | 6 => .ok (.vvote (unpackA w))
    | 7 => .ok (.vcomp (unpackA w))
    | 8 => .ok (.vexpd (unpackA w))
    | 9 => .ok (.vtrn (unpackA w))
    | _ => .error 1

/-- Minor opcodes of major 0x0C (R71). -/
def parse0C (w : Word) : Except Nat Instr :=
  match minorOf w with
    | 0 => .ok (.mand (unpackA w))
    | 1 => .ok (.mor (unpackA w))
    | 2 => .ok (.mxor (unpackA w))
    | 3 => .ok (.mandn (unpackA w))
    | 4 => .ok (.mnot (unpackA w))
    | 5 => .ok (.mmov (unpackA w))
    | 6 => .ok (.mset (unpackA w))
    | 7 => .ok (.mpopc (unpackA w))
    | 8 => .ok (.mffs (unpackA w))
    | 9 => .ok (.mtox (unpackA w))
    | 10 => .ok (.xtom (unpackA w))
    | 16 => .ok (.cbld (unpackA w))
    | 17 => .ok (.cbst (unpackA w))
    | _ => .error 1

/-- Minor opcodes of major 0x10 (R71): bits 5:4 are the address space, 3 being unassigned (R69). -/
def parse10 (w : Word) : Except Nat Instr :=
  if w.extractLsb' 56 2 = 3 then .error 1 else
  match (w.extractLsb' 52 4).toNat with
    | 0 => .ok (.ld (unpackM w))
    | 1 => .ok (.st (unpackM w))
    | 2 => .ok (.vld (unpackM w))
    | 3 => .ok (.vst (unpackM w))
    | 4 => .ok (.vlds (unpackM w))
    | 5 => .ok (.vsts (unpackM w))
    | 6 => .ok (.vgath (unpackM w))
    | 7 => .ok (.vscat (unpackM w))
    | 8 => if w.extractLsb' 56 2 = 0 then .ok (.pref (unpackM w)) else .error 1
    | _ => .error 1

/-- Minor opcodes of major 0x11 (R71): bits 5:4 are the address space, 3 being unassigned (R69). -/
def parse11 (w : Word) : Except Nat Instr :=
  if w.extractLsb' 56 2 = 3 then .error 1 else
  match (w.extractLsb' 52 4).toNat with
    | 0 => .ok (.atomAdd (unpackM w))
    | 1 => .ok (.atomAnd (unpackM w))
    | 2 => .ok (.atomOr (unpackM w))
    | 3 => .ok (.atomXor (unpackM w))
    | 4 => .ok (.atomMin (unpackM w))
    | 5 => .ok (.atomMax (unpackM w))
    | 6 => .ok (.atomXchg (unpackM w))
    | 7 => .ok (.atomCas (unpackM w))
    | 8 => .ok (.atomFadd (unpackM w))
    | 9 => .ok (.atomFmin (unpackM w))
    | 10 => .ok (.atomFmax (unpackM w))
    | _ => .error 1

/-- Minor opcodes of major 0x12 (R71): bits 5:4 are the address space, 3 being unassigned (R69). -/
def parse12 (w : Word) : Except Nat Instr :=
  if w.extractLsb' 56 2 = 3 then .error 1 else
  match (w.extractLsb' 52 4).toNat with
    | 0 => .ok (.vatomAdd (unpackM w))
    | 1 => .ok (.vatomAnd (unpackM w))
    | 2 => .ok (.vatomOr (unpackM w))
    | 3 => .ok (.vatomXor (unpackM w))
    | 4 => .ok (.vatomMin (unpackM w))
    | 5 => .ok (.vatomMax (unpackM w))
    | 6 => .ok (.vatomXchg (unpackM w))
    | 7 => .ok (.vatomCas (unpackM w))
    | 8 => .ok (.vatomFadd (unpackM w))
    | 9 => .ok (.vatomFmin (unpackM w))
    | 10 => .ok (.vatomFmax (unpackM w))
    | _ => .error 1

/-- Minor opcodes of major 0x13 (R71). -/
def parse13 (w : Word) : Except Nat Instr :=
  match minorOf w with
    | 0 =>
      match (w.extractLsb' 20 8).toNat with
      | 0 => .ok (.fenceAcq (unpackS w))
      | 1 => .ok (.fenceRel (unpackS w))
      | 2 => .ok (.fenceAcqrel (unpackS w))
      | _ => .error 2
    | _ => .error 1

/-- Minor opcodes of major 0x14 (R71). -/
def parse14 (w : Word) : Except Nat Instr :=
  match minorOf w with
    | 0 => .ok (.kcfg (unpackK w))
    | 1 => .ok (.karr (unpackK w))
    | 2 => .ok (.ksig (unpackK w))
    | 3 => .ok (.kwait (unpackK w))
    | 4 => .ok (.ktry (unpackK w))
    | 5 => .ok (.karrw (unpackK w))
    | 6 => .ok (.krd (unpackK w))
    | _ => .error 1

/-- Minor opcodes of major 0x15 (R71). -/
def parse15 (w : Word) : Except Nat Instr :=
  match minorOf w with
    | 0 => .ok (.tlaunch (unpackS w))
    | 1 => .ok (.tfence (unpackS w))
    | 2 => .ok (.notify (unpackS w))
    | 3 => .ok (.sleepuntil (unpackS w))
    | _ => .error 1

/-- Minor opcodes of major 0x18 (R71). -/
def parse18 (w : Word) : Except Nat Instr :=
  match minorOf w with
    | 0 => .ok (.cpy (unpackE w))
    | 1 => .ok (.cpyt (unpackE w))
    | 2 => .ok (.cpyq (unpackE w))
    | _ => .error 1

/-- Minor opcodes of major 0x19 (R71). -/
def parse19 (w : Word) : Except Nat Instr :=
  match minorOf w with
    | 0 => .ok (.mxacq (unpackE w))
    | 1 => .ok (.mxrel (unpackE w))
    | 2 => .ok (.mxpush (unpackE w))
    | 3 => .ok (.mxqs (unpackE w))
    | _ => .error 1

/-- Minor opcodes of major 0x1A (R71). -/
def parse1A (w : Word) : Except Nat Instr :=
  match minorOf w with
    | 0 => .ok (.tsld (unpackA w))
    | 1 => .ok (.tsst (unpackA w))
    | 2 => .ok (.tszero (unpackA w))
    | _ => .error 1

/-- Minor opcodes of major 0x1B (R71). -/
def parse1B (w : Word) : Except Nat Instr :=
  match minorOf w with
    | 0 =>
      match (w.extractLsb' 8 3).toNat with
      | 0 => .ok (.xfmCvt (unpackA w))
      | 1 => .ok (.xfmQuant (unpackA w))
      | 2 => .ok (.xfmTr8 (unpackA w))
      | 3 => .ok (.xfmTr16 (unpackA w))
      | 4 => .ok (.xfmTr32 (unpackA w))
      | 5 => .ok (.xfmPack (unpackA w))
      | 6 => .ok (.xfmUnpack (unpackA w))
      | _ => .error 2
    | _ => .error 1

/-- Minor opcodes of major 0x1C (R71). -/
def parse1C (w : Word) : Except Nat Instr :=
  match minorOf w with
    | 0 => .ok (.sample (unpackA w))
    | 1 => .ok (.sgath (unpackA w))
    | 2 => .ok (.tld (unpackA w))
    | 3 => .ok (.tqry (unpackA w))
    | 4 =>
      match (w.extractLsb' 0 1).toNat with
      | 0 => .ok (.wtinv (unpackA w))
      | 1 => .ok (.wtinvAll (unpackA w))
      | _ => .error 2
    | 5 => .ok (.wtpf (unpackA w))
    | _ => .error 1

/-- Minor opcodes of major 0x1D (R71). -/
def parse1D (w : Word) : Except Nat Instr :=
  match minorOf w with
    | 0 => .ok (.trace (unpackA w))
    | 1 => .ok (.rqnext (unpackA w))
    | 2 => .ok (.rqcommit (unpackA w))
    | 3 => .ok (.rqterm (unpackA w))
    | _ => .error 1

/-- Minor opcodes of major 0x1E (R71). -/
def parse1E (w : Word) : Except Nat Instr :=
  match minorOf w with
    | 0 =>
      match (w.extractLsb' 0 2).toNat with
      | 0 => .ok (.gemitVtx (unpackA w))
      | 1 => .ok (.gemitPrim (unpackA w))
      | 2 => .ok (.gemitEnd (unpackA w))
      | _ => .error 2
    | 1 => .ok (.femit (unpackA w))
    | _ => .error 1

/-- Minor opcodes of major 0x3D (R71). -/
def parse3D (w : Word) : Except Nat Instr :=
  match minorOf w with
    | 0 => .ok (.qwait (unpackS w))
    | 1 => .ok (.qtail (unpackS w))
    | 2 =>
      match (w.extractLsb' 20 8).toNat with
      | 0 => .ok (.qhandPacket (unpackS w))
      | 1 => .ok (.qhandNode (unpackS w))
      | _ => .error 2
    | 3 => .ok (.prd (unpackS w))
    | 4 => .ok (.pwr (unpackS w))
    | 5 => .ok (.fansw (unpackS w))
    | _ => .error 1

/-- Reading of a word by its opcode (R70, R71): the instruction, or the sub-cause of the first failing check among 1
(major unassigned: 0), 3 (minor unassigned: 1) and a reserved operation code (2) of R73. -/
def parse (w : Word) : Except Nat Instr :=
  match majorOf w with
  | 1 => parse01 w
  | 2 => parse02 w
  | 3 => parse03 w
  | 4 => parse04 w
  | 5 => parse05 w
  | 6 => parse06 w
  | 8 => parse08 w
  | 9 => parse09 w
  | 10 => parse0A w
  | 11 => parse0B w
  | 12 => parse0C w
  | 16 => parse10 w
  | 17 => parse11 w
  | 18 => parse12 w
  | 19 => parse13 w
  | 20 => parse14 w
  | 21 => parse15 w
  | 24 => parse18 w
  | 25 => parse19 w
  | 26 => parse1A w
  | 27 => parse1B w
  | 28 => parse1C w
  | 29 => parse1D w
  | 30 => parse1E w
  | 61 => parse3D w
  | _ => .error 0

/-- Decoding of a word: the instruction, or the sub-cause of the first check of R73 that the word alone fails
(checks 1 and 3 to 6; check 2 depends on who executes, see `decodeFor`). -/
def decode (w : Word) : Except Nat Instr :=
  match parse w with
  | .error c => .error c
  | .ok i =>
    if !i.reservedOk then .error 2
    else if !i.selOk then .error 7
    else if !i.operandOk then .error 3
    else .ok i

/-- Instructions of the scalar subset, which a distaff thread executes (R71). -/
def threadMajors (w : Word) : Except Nat Unit :=
  match majorOf w with
  | 1 | 2 | 3 | 4 | 0x13 | 0x3D => .ok ()
  | 5 => if minorOf w = 3 ∨ minorOf w = 4 ∨ minorOf w = 5 then .ok () else .error 1
  | 6 => if minorOf w = 6 then .error 1 else .ok ()
  | 0x10 => if minorOf w = 0 ∨ minorOf w = 1 ∨ minorOf w = 8 then .ok () else .error 1
  | 0x11 => if minorOf w < 16 then .ok () else .error 1
  | _ => .error 0

/-- Decoding for a warp, to which the distaff major is check 2 of R73 (sub-cause 6), and for a distaff thread, to which
every encoding outside the scalar subset is unassigned (R71). -/
def decodeFor (thread : Bool) (w : Word) : Except Nat Instr :=
  if thread then
    match threadMajors w with
    | .error c => .error c
    | .ok _ => decode w
  else if majorOf w = 0x3D then .error 6 else decode w

/-- The words of an instruction, from the encoding tables of R58 to R64, R70 and R71; events have none. -/
def encode : Instr → Option Word
  | .add f => some (packA 0x01#6 0x00#6 f)
  | .addImm f => some (packI 0x02#6 0x00#6 f)
  | .sub f => some (packA 0x01#6 0x01#6 f)
  | .mul f => some (packA 0x01#6 0x02#6 f)
  | .mulImm f => some (packI 0x02#6 0x02#6 f)
  | .mulh f => some (packA 0x01#6 0x03#6 f)
  | .div f => some (packA 0x01#6 0x04#6 f)
  | .rem f => some (packA 0x01#6 0x05#6 f)
  | .and f => some (packA 0x01#6 0x06#6 f)
  | .andImm f => some (packI 0x02#6 0x06#6 f)
  | .or f => some (packA 0x01#6 0x07#6 f)
  | .orImm f => some (packI 0x02#6 0x07#6 f)
  | .xor f => some (packA 0x01#6 0x08#6 f)
  | .xorImm f => some (packI 0x02#6 0x08#6 f)
  | .andn f => some (packA 0x01#6 0x09#6 f)
  | .shl f => some (packA 0x01#6 0x0A#6 f)
  | .shlImm f => some (packI 0x02#6 0x0A#6 f)
  | .shr f => some (packA 0x01#6 0x0B#6 f)
  | .shrImm f => some (packI 0x02#6 0x0B#6 f)
  | .sar f => some (packA 0x01#6 0x0C#6 f)
  | .sarImm f => some (packI 0x02#6 0x0C#6 f)
  | .rol f => some (packA 0x01#6 0x0D#6 f)
  | .rolImm f => some (packI 0x02#6 0x0D#6 f)
  | .ror f => some (packA 0x01#6 0x0E#6 f)
  | .rorImm f => some (packI 0x02#6 0x0E#6 f)
  | .min f => some (packA 0x01#6 0x0F#6 f)
  | .minImm f => some (packI 0x02#6 0x0F#6 f)
  | .max f => some (packA 0x01#6 0x10#6 f)
  | .maxImm f => some (packI 0x02#6 0x10#6 f)
  | .clz f => some (packA 0x01#6 0x11#6 f)
  | .ctz f => some (packA 0x01#6 0x12#6 f)
  | .popc f => some (packA 0x01#6 0x13#6 f)
  | .brev f => some (packA 0x01#6 0x14#6 f)
  | .bfx f => some (packA 0x01#6 0x15#6 f)
  | .bfi f => some (packA 0x01#6 0x16#6 f)
  | .sel f => some (packA 0x01#6 0x17#6 f)
  | .mov f => some (packA 0x01#6 0x18#6 f)
  | .addsh f => some (packA 0x01#6 0x19#6 f)
  | .cmp f => some (packA 0x01#6 0x1A#6 f)
  | .cmpImm f => some (packI 0x02#6 0x1A#6 f)
  | .movi f => some (packI 0x02#6 0x1C#6 f)
  | .movhi f => some (packI 0x02#6 0x1D#6 f)
  | .fadd f => some (packA 0x03#6 0x00#6 f)
  | .fsub f => some (packA 0x03#6 0x01#6 f)
  | .fmul f => some (packA 0x03#6 0x02#6 f)
  | .fma f => some (packA 0x03#6 0x03#6 f)
  | .fdiv f => some (packA 0x03#6 0x04#6 f)
  | .fmin f => some (packA 0x03#6 0x05#6 f)
  | .fmax f => some (packA 0x03#6 0x06#6 f)
  | .fcmp f => some (packA 0x03#6 0x07#6 f)
  | .fcvt f => some (packA 0x03#6 0x08#6 f)
  | .bra f => some (packB 0x04#6 0x00#6 f)
  | .braIndirect f => some (packB 0x04#6 0x01#6 f)
  | .bcc f => some (packB 0x04#6 0x02#6 f)
  | .bmk f => some (packB 0x04#6 0x03#6 f)
  | .call f => some (packB 0x04#6 0x04#6 f)
  | .callIndirect f => some (packB 0x04#6 0x05#6 f)
  | .ret f => some (packB 0x04#6 0x06#6 f)
  | .loop f => some (packB 0x04#6 0x07#6 f)
  | .split f => some (packA 0x05#6 0x00#6 f)
  | .arm f => some (packS 0x05#6 0x01#6 f)
  | .join => some 0x1420000000000000#64
  | .exit => some 0x1430000000000000#64
  | .yield => some 0x1440000000000000#64
  | .nop => some 0x1450000000000000#64
  | .trap f => some (packS 0x06#6 0x00#6 f)
  | .svc f => some (packS 0x06#6 0x02#6 f)
  | .tret => some 0x1810000000000000#64
  | .srrd f => some (packS 0x06#6 0x03#6 f)
  | .srwr f => some (packS 0x06#6 0x04#6 f)
  | .snap f => some (packS 0x06#6 0x05#6 f)
  | .roveOff => some 0x1860000000000000#64
  | .roveOn => some 0x1860000000100000#64
  | .halt => some 0x1870000000000000#64
  | .vadd f => some (packA 0x08#6 0x00#6 f)
  | .vsub f => some (packA 0x08#6 0x01#6 f)
  | .vadds f => some (packA 0x08#6 0x02#6 f)
  | .vsubs f => some (packA 0x08#6 0x03#6 f)
  | .vmul f => some (packA 0x08#6 0x04#6 f)
  | .vmulh f => some (packA 0x08#6 0x05#6 f)
  | .vmad f => some (packA 0x08#6 0x06#6 f)
  | .vdiv f => some (packA 0x08#6 0x07#6 f)
  | .vmin f => some (packA 0x08#6 0x08#6 f)
  | .vmax f => some (packA 0x08#6 0x09#6 f)
  | .vabs f => some (packA 0x08#6 0x0A#6 f)
  | .vneg f => some (packA 0x08#6 0x0B#6 f)
  | .vand f => some (packA 0x08#6 0x0C#6 f)
  | .vor f => some (packA 0x08#6 0x0D#6 f)
  | .vxor f => some (packA 0x08#6 0x0E#6 f)
  | .vandn f => some (packA 0x08#6 0x0F#6 f)
  | .vnot f => some (packA 0x08#6 0x10#6 f)
  | .vshl f => some (packA 0x08#6 0x11#6 f)
  | .vshr f => some (packA 0x08#6 0x12#6 f)
  | .vsar f => some (packA 0x08#6 0x13#6 f)
  | .vclz f => some (packA 0x08#6 0x14#6 f)
  | .vpopc f => some (packA 0x08#6 0x15#6 f)
  | .vbfx f => some (packA 0x08#6 0x16#6 f)
  | .vcmp f => some (packA 0x08#6 0x17#6 f)
  | .vsel f => some (packA 0x08#6 0x18#6 f)
  | .vmov f => some (packA 0x08#6 0x19#6 f)
  | .vbcast f => some (packA 0x08#6 0x1A#6 f)
  | .viota f => some (packA 0x08#6 0x1B#6 f)
  | .vextr f => some (packA 0x08#6 0x1C#6 f)
  | .vins f => some (packA 0x08#6 0x1D#6 f)
  | .vfadd f => some (packA 0x09#6 0x00#6 f)
  | .vfsub f => some (packA 0x09#6 0x01#6 f)
  | .vfmul f => some (packA 0x09#6 0x02#6 f)
  | .vfma f => some (packA 0x09#6 0x03#6 f)
  | .vfmin f => some (packA 0x09#6 0x04#6 f)
  | .vfmax f => some (packA 0x09#6 0x05#6 f)
  | .vfcmp f => some (packA 0x09#6 0x06#6 f)
  | .vfclass f => some (packA 0x09#6 0x07#6 f)
  | .vround f => some (packA 0x09#6 0x08#6 f)
  | .vfrac f => some (packA 0x09#6 0x09#6 f)
  | .vscale f => some (packA 0x09#6 0x0A#6 f)
  | .vdot2 f => some (packA 0x09#6 0x0B#6 f)
  | .vdot4 f => some (packA 0x09#6 0x0C#6 f)
  | .vcvt f => some (packA 0x09#6 0x0D#6 f)
  | .vrcp f => some (packA 0x0A#6 0x00#6 f)
  | .vrsq f => some (packA 0x0A#6 0x01#6 f)
  | .vsqrt f => some (packA 0x0A#6 0x02#6 f)
  | .vfdiv f => some (packA 0x0A#6 0x03#6 f)
  | .vexp2 f => some (packA 0x0A#6 0x04#6 f)
  | .vlog2 f => some (packA 0x0A#6 0x05#6 f)
  | .vsinpi f => some (packA 0x0A#6 0x06#6 f)
  | .vcospi f => some (packA 0x0A#6 0x07#6 f)
  | .vtanh f => some (packA 0x0A#6 0x08#6 f)
  | .vperm f => some (packA 0x0B#6 0x00#6 f)
  | .vpermx f => some (packA 0x0B#6 0x01#6 f)
  | .vrot f => some (packA 0x0B#6 0x02#6 f)
  | .vshufx f => some (packA 0x0B#6 0x03#6 f)
  | .vtrn f => some (packA 0x0B#6 0x09#6 f)
  | .vred f => some (packA 0x0B#6 0x04#6 f)
  | .vscan f => some (packA 0x0B#6 0x05#6 f)
  | .vvote f => some (packA 0x0B#6 0x06#6 f)
  | .vcomp f => some (packA 0x0B#6 0x07#6 f)
  | .vexpd f => some (packA 0x0B#6 0x08#6 f)
  | .mand f => some (packA 0x0C#6 0x00#6 f)
  | .mor f => some (packA 0x0C#6 0x01#6 f)
  | .mxor f => some (packA 0x0C#6 0x02#6 f)
  | .mandn f => some (packA 0x0C#6 0x03#6 f)
  | .mnot f => some (packA 0x0C#6 0x04#6 f)
  | .mmov f => some (packA 0x0C#6 0x05#6 f)
  | .mset f => some (packA 0x0C#6 0x06#6 f)
  | .mpopc f => some (packA 0x0C#6 0x07#6 f)
  | .mffs f => some (packA 0x0C#6 0x08#6 f)
  | .mtox f => some (packA 0x0C#6 0x09#6 f)
  | .xtom f => some (packA 0x0C#6 0x0A#6 f)
  | .cbld f => some (packA 0x0C#6 0x10#6 f)
  | .cbst f => some (packA 0x0C#6 0x11#6 f)
  | .ld f => some (packM 0x10#6 0#4 f)
  | .st f => some (packM 0x10#6 1#4 f)
  | .vld f => some (packM 0x10#6 2#4 f)
  | .vst f => some (packM 0x10#6 3#4 f)
  | .vlds f => some (packM 0x10#6 4#4 f)
  | .vsts f => some (packM 0x10#6 5#4 f)
  | .vgath f => some (packM 0x10#6 6#4 f)
  | .vscat f => some (packM 0x10#6 7#4 f)
  | .pref f => some (packM 0x10#6 8#4 f)
  | .atomAdd f => some (packM 0x11#6 0#4 f)
  | .atomAnd f => some (packM 0x11#6 1#4 f)
  | .atomOr f => some (packM 0x11#6 2#4 f)
  | .atomXor f => some (packM 0x11#6 3#4 f)
  | .atomMin f => some (packM 0x11#6 4#4 f)
  | .atomMax f => some (packM 0x11#6 5#4 f)
  | .atomXchg f => some (packM 0x11#6 6#4 f)
  | .atomCas f => some (packM 0x11#6 7#4 f)
  | .atomFadd f => some (packM 0x11#6 8#4 f)
  | .atomFmin f => some (packM 0x11#6 9#4 f)
  | .atomFmax f => some (packM 0x11#6 10#4 f)
  | .vatomAdd f => some (packM 0x12#6 0#4 f)
  | .vatomAnd f => some (packM 0x12#6 1#4 f)
  | .vatomOr f => some (packM 0x12#6 2#4 f)
  | .vatomXor f => some (packM 0x12#6 3#4 f)
  | .vatomMin f => some (packM 0x12#6 4#4 f)
  | .vatomMax f => some (packM 0x12#6 5#4 f)
  | .vatomXchg f => some (packM 0x12#6 6#4 f)
  | .vatomCas f => some (packM 0x12#6 7#4 f)
  | .vatomFadd f => some (packM 0x12#6 8#4 f)
  | .vatomFmin f => some (packM 0x12#6 9#4 f)
  | .vatomFmax f => some (packM 0x12#6 10#4 f)
  | .fenceAcq f => some (packS 0x13#6 0x00#6 f)
  | .fenceRel f => some (packS 0x13#6 0x00#6 f)
  | .fenceAcqrel f => some (packS 0x13#6 0x00#6 f)
  | .kcfg f => some (packK 0x14#6 0x00#6 f)
  | .karr f => some (packK 0x14#6 0x01#6 f)
  | .ksig f => some (packK 0x14#6 0x02#6 f)
  | .kwait f => some (packK 0x14#6 0x03#6 f)
  | .ktry f => some (packK 0x14#6 0x04#6 f)
  | .karrw f => some (packK 0x14#6 0x05#6 f)
  | .krd f => some (packK 0x14#6 0x06#6 f)
  | .tlaunch f => some (packS 0x15#6 0x00#6 f)
  | .tfence f => some (packS 0x15#6 0x01#6 f)
  | .notify f => some (packS 0x15#6 0x02#6 f)
  | .sleepuntil f => some (packS 0x15#6 0x03#6 f)
  | .cpy f => some (packE 0x18#6 0x00#6 f)
  | .cpyt f => some (packE 0x18#6 0x01#6 f)
  | .cpyq f => some (packE 0x18#6 0x02#6 f)
  | .mxacq f => some (packE 0x19#6 0x00#6 f)
  | .mxrel f => some (packE 0x19#6 0x01#6 f)
  | .mxpush f => some (packE 0x19#6 0x02#6 f)
  | .mxqs f => some (packE 0x19#6 0x03#6 f)
  | .tsld f => some (packA 0x1A#6 0x00#6 f)
  | .tsst f => some (packA 0x1A#6 0x01#6 f)
  | .tszero f => some (packA 0x1A#6 0x02#6 f)
  | .xfmCvt f => some (packA 0x1B#6 0x00#6 f)
  | .xfmQuant f => some (packA 0x1B#6 0x00#6 f)
  | .xfmTr8 f => some (packA 0x1B#6 0x00#6 f)
  | .xfmTr16 f => some (packA 0x1B#6 0x00#6 f)
  | .xfmTr32 f => some (packA 0x1B#6 0x00#6 f)
  | .xfmPack f => some (packA 0x1B#6 0x00#6 f)
  | .xfmUnpack f => some (packA 0x1B#6 0x00#6 f)
  | .sample f => some (packA 0x1C#6 0x00#6 f)
  | .sgath f => some (packA 0x1C#6 0x01#6 f)
  | .tld f => some (packA 0x1C#6 0x02#6 f)
  | .tqry f => some (packA 0x1C#6 0x03#6 f)
  | .wtinv f => some (packA 0x1C#6 0x04#6 f)
  | .wtinvAll f => some (packA 0x1C#6 0x04#6 f)
  | .wtpf f => some (packA 0x1C#6 0x05#6 f)
  | .trace f => some (packA 0x1D#6 0x00#6 f)
  | .rqnext f => some (packA 0x1D#6 0x01#6 f)
  | .rqcommit f => some (packA 0x1D#6 0x02#6 f)
  | .rqterm f => some (packA 0x1D#6 0x03#6 f)
  | .gemitVtx f => some (packA 0x1E#6 0x00#6 f)
  | .gemitPrim f => some (packA 0x1E#6 0x00#6 f)
  | .gemitEnd f => some (packA 0x1E#6 0x00#6 f)
  | .femit f => some (packA 0x1E#6 0x01#6 f)
  | .qwait f => some (packS 0x3D#6 0x00#6 f)
  | .qtail f => some (packS 0x3D#6 0x01#6 f)
  | .qhandPacket f => some (packS 0x3D#6 0x02#6 f)
  | .qhandNode f => some (packS 0x3D#6 0x02#6 f)
  | .prd f => some (packS 0x3D#6 0x03#6 f)
  | .pwr f => some (packS 0x3D#6 0x04#6 f)
  | .fansw f => some (packS 0x3D#6 0x05#6 f)
  | _ => none

/-- The instruction the decoder reads from the bits of a table row: `nbits` bits of `w`, every higher bit 0. -/
def decodeTableWord (nbits w : Nat) : Option Instr :=
  match decode (BitVec.ofNat 64 (w % 2 ^ nbits)) with
  | .ok i => some i
  | .error _ => none

end Sys2Proof
end

