-- ==== Sys2Proof/Machine/Ops.lean ====
section
/-! DEFINITION. Named operations over the state: memory bytes, agents, teams, dies, time, records to the distaff, and taking
a trap, freezing and returning from a trap (05 R109 to R111; 18 R361 to R365). -/

namespace Sys2Proof.Machine

/-- An outcome of the machine. -/
abbrev Out := Host.Outcome State Fault Refusal

/-! ### The pool -/

/-- What an address of the pool that is not listed reads as (log entry 4). -/
def poolDefault : Byte := 0

/-- One byte of memory. -/
def Memory.get (m : Memory) (a : Nat) : Byte :=
  match m with
  | [] => poolDefault
  | (k, b) :: t => if k = a then b else if a < k then poolDefault else Memory.get t a

/-- One byte written, in canonical form. -/
def Memory.put (m : Memory) (a : Nat) (b : Byte) : Memory :=
  match m with
  | [] => if b = poolDefault then [] else [(a, b)]
  | (k, c) :: t =>
    if a < k then (if b = poolDefault then (k, c) :: t else (a, b) :: (k, c) :: t)
    else if k = a then (if b = poolDefault then t else (a, b) :: t)
    else (k, c) :: Memory.put t a b

/-- `n` bytes from `a`, lowest first. -/
def Memory.read (m : Memory) (a : Nat) : Nat → List Byte
  | 0 => []
  | n + 1 => m.get a :: Memory.read m (a + 1) n

/-- Bytes written from `a` upward. -/
def Memory.write (m : Memory) (a : Nat) : List Byte → Memory
  | [] => m
  | b :: bs => Memory.write (m.put a b) (a + 1) bs

/-- A little-endian number of `n` bytes (R8). -/
def Memory.num (m : Memory) (a n : Nat) : Nat := ofBytes (m.read a n)

/-- The canonical form: addresses strictly rise and no entry holds what an unlisted address reads as. -/
def Memory.wf : Memory → Bool
  | [] => true
  | [(_, b)] => b != poolDefault
  | (a, b) :: (c, d) :: t => (b != poolDefault) && decide (a < c) && Memory.wf ((c, d) :: t)

/-! ### Parts of the state -/

/-- Both dies. -/
def bothDies : List (Fin 2) := [0, 1]

/-- A die. -/
def State.die (s : State) (d : Fin 2) : Die := s.dies[d]
/-- A die changed. -/
def State.onDie (s : State) (d : Fin 2) (f : Die → Die) : State := { s with dies := s.dies.set d (f s.dies[d]) }
/-- A core. -/
def State.coreAt (s : State) (d : Fin 2) (c : Fin 24) : Core := (s.die d).cores[c]
/-- A core changed. -/
def State.onCore (s : State) (d : Fin 2) (c : Fin 24) (f : Core → Core) : State :=
  s.onDie d fun x => { x with cores := x.cores.set c (f x.cores[c]) }
/-- A queue. -/
def State.queue (s : State) (q : QueueRef) : Queue := (s.die q.d).queues[q.q]
/-- A queue changed. -/
def State.onQueue (s : State) (q : QueueRef) (f : Queue → Queue) : State :=
  s.onDie q.d fun x => { x with queues := x.queues.set q.q (f x.queues[q.q]) }

/-- The die of an agent. -/
def agentDie : Agent → Fin 2
  | .warp d _ _ _ => d
  | .thread d _ => d
/-- The core of an agent; a thread has none. -/
def agentCore : Agent → Option (Fin 24)
  | .warp _ c _ _ => some c
  | .thread _ _ => none
/-- The ply of a warp, 0 for a thread. -/
def agentPly : Agent → Nat
  | .warp _ _ p _ => p.val
  | .thread _ _ => 0
/-- The slot of a warp, 0 for a thread. -/
def agentSlot : Agent → Nat
  | .warp _ _ _ k => k.val
  | .thread _ _ => 0
/-- An agent is a distaff thread. -/
def isThread : Agent → Bool
  | .thread _ _ => true
  | _ => false

/-- AGENTID of a spool record: die, core, ply and slot (R364 bits 63:48 of dword 0). -/
def agentIdBits (a : Agent) : BitVec 16 :=
  match a with
  | .warp d c p k => BitVec.ofNat 16 (d.val + 2 * c.val + 64 * p.val + 512 * k.val)
  | .thread d _ => BitVec.ofNat 16 d.val
/-- AGENTID of a command: its pushing core, ply and slot 0 (R366). -/
def coreIdBits (d : Fin 2) (c : Fin 24) : BitVec 16 := BitVec.ofNat 16 (d.val + 2 * c.val)

/-- Every agent, the issuing one first. -/
def State.agents (s : State) : List Warp := s.cur :: s.others
/-- Every warp and thread that satisfies `p` changed by `f`. -/
def State.mapAgents (s : State) (p : Warp → Bool) (f : Warp → Warp) : State :=
  { s with cur := if p s.cur then f s.cur else s.cur, others := s.others.map fun w => if p w then f w else w }
/-- The warp an identity names. -/
def isWarp (id : WarpId) (w : Warp) : Bool := !(isThread w.who) && w.team == id.team && w.widx == id.widx
/-- The identity of a warp. -/
def warpId (w : Warp) : WarpId := ⟨w.team, w.widx⟩
/-- A resident warp by identity. -/
def State.findWarp (s : State) (id : WarpId) : Option Warp := s.agents.find? (isWarp id)
/-- A warp by identity changed, resident or saved with its team. -/
def State.onWarp (s : State) (id : WarpId) (f : Warp → Warp) : State :=
  let s := s.mapAgents (isWarp id) f
  { s with teams := s.teams.map fun t => { t with saved := t.saved.map fun w => if isWarp id w then f w else w } }
/-- An agent by its slot. -/
def State.findAgent (s : State) (a : Agent) : Option Warp := s.agents.find? fun w => w.who == a && w.status != .exited
/-- An agent by its slot changed. -/
def State.onAgent (s : State) (a : Agent) (f : Warp → Warp) : State :=
  s.mapAgents (fun w => w.who == a && w.status != .exited) f
/-- A distaff thread changed. -/
def State.onThread (s : State) (d : Fin 2) (t : Fin 64) (f : Warp → Warp) : State :=
  s.mapAgents (fun w => w.who == .thread d t) f

/-- An operation written for the issuing agent, done for another: it stands in the issuing agent's place meanwhile. `f` keeps
the order of the agents. -/
def State.withAgent (s : State) (a : Agent) (f : State → State) : State :=
  if s.cur.who = a ∧ s.cur.status ≠ .exited then f s
  else match s.others.find? fun w => w.who == a && w.status != .exited with
    | none => s
    | some w =>
      let t := f { s with cur := w, others := s.cur :: s.others.filter fun o => !(o.who == a && o.status != .exited) }
      match t.others with
      | [] => t
      | c :: rest => { t with cur := c, others := t.cur :: rest }

/-- A team. -/
def State.findTeam (s : State) (id : Nat) : Option Team := s.teams.find? (·.id == id)
/-- A team changed. -/
def State.onTeam (s : State) (id : Nat) (f : Team → Team) : State :=
  { s with teams := s.teams.map fun t => if t.id == id then f t else t }
/-- The resident warps of a team. -/
def State.teamWarps (s : State) (id : Nat) : List Warp :=
  s.agents.filter fun w => !(isThread w.who) && w.team == id && w.status != .exited
/-- A command. -/
def State.findCmd (s : State) (id : Nat) : Option Cmd := s.cmds.find? (·.id == id)
/-- A command changed. -/
def State.onCmd (s : State) (id : Nat) (f : Cmd → Cmd) : State :=
  { s with cmds := s.cmds.map fun c => if c.id == id then f c else c }
/-- A command removed. -/
def State.dropCmd (s : State) (id : Nat) : State := { s with cmds := s.cmds.filter (·.id != id) }
/-- A node of a die. -/
def Die.findNode (x : Die) (id : Nat) : Option Node := x.nodes.find? (·.id == id)
/-- A node of a die changed. -/
def Die.onNode (x : Die) (id : Nat) (f : Node → Node) : Die :=
  { x with nodes := x.nodes.map fun n => if n.id == id then f n else n }
/-- The team of the issuing warp. -/
def State.curTeam (s : State) : Option Team := s.findTeam s.cur.team

/-- An identity the model has not used. -/
def State.freshId (s : State) : Nat × State := (s.nextId, { s with nextId := s.nextId + 1 })
/-- A free choice among `n` (log entry 10). -/
def State.choose (s : State) (n : Nat) : Nat × State :=
  (Config.pick s.freeCtr n % n, { s with freeCtr := s.freeCtr + 1 })

/-- The meaning of an instruction that changes only the issuing agent. -/
def answer (s : State) (w : Warp) : Out := .next { s with cur := w }

/-! ### Time -/

/-- The stage nanosecond count (R168). -/
def stageNs (s : State) : Nat := (s.stage.sec * 1000000000 + s.stage.nsec) % 2 ^ 64

/-- A deadline is reached (R168); 0 means none (R164). -/
def deadlineReached (s : State) (dl : Word) : Bool := dl != 0 && decide (dl.toNat ≤ stageNs s)

/-- The stage clock set to a signed count of nanoseconds from 0 (R397). -/
def setStage (c : StageClock) (ns : Int) : StageClock :=
  let t := (ns % (281474976710656000000000 : Int)).toNat
  { c with sec := t / 1000000000, nsec := t % 1000000000 }

/-- Oscillator time passes: the clock advances (1 + RATE x 2^-40) ns per ns, to the last bit (R397); `t` is in units of 2^-40
ns. -/
def advanceStage (c : StageClock) (t : Nat) : StageClock :=
  let total : Int := c.frac + t * (1099511627776 + c.rate.toInt)
  let ns := total / 1208925819614629174706176
  { setStage c ((c.sec * 1000000000 + c.nsec : Nat) + ns) with
    frac := (total % 1208925819614629174706176).toNat, osc := c.osc + t }

/-- A command begins or resumes: no flit of a stage copy leaves in a slot already past (R405). -/
def beginCmd (s : State) (c : Cmd) : Cmd := { c with st := .running, since := max c.since (stageNs s) }

/-! ### Records to the distaff -/

/-- Events raised on the distaff threads that satisfy `p` (R354). -/
def raiseEvents (s : State) (d : Fin 2) (p : Tctl → Bool) (ev : BitVec 4) : State :=
  s.mapAgents (fun w => match w.who with
    | .thread d' t => d' == d && p ((s.die d).tctl[t])
    | _ => false) fun w => { w with events := w.events ||| ev }

/-- A record joins those its die will post (R361); an advisory record is told from the others by its KIND (R364). -/
def enqueueRec (s : State) (d : Fin 2) (r : SpoolRec) : State :=
  s.onDie d fun x => { x with spoolQ := x.spoolQ ++ [r] }

/-- The record of a warp (R364). -/
def warpRec (w : Warp) (kind : Nat) : SpoolRec :=
  { token := 0, master := .none, kind, access := 0, agent := 0, ctx := w.ctx, reason := 0,
    agentId := agentIdBits w.who, fkind := 0, pc := w.pc, va := 0, lanes := 0, cause := 0, tval := 0 }

/-! ### Draining, traps and freezes -/

/-- Bits written into vector registers. -/
def landV (w : Warp) (l : List (BitVec 6 × VReg × VReg)) : Warp :=
  l.foldl (fun w q => setV w q.1.toNat ((readV w q.1 &&& ~~~q.2.1) ||| q.2.2)) w

/-- A pipe entry's effect on its owner. -/
def xfmComplete (w : Warp) (e : XfmEntry) : Warp := landV w e.writes

/-- The pipe of a ply: pipe 0 serves plies 0 to 3 (R195). -/
def pipeOf (c : Core) (ply : Nat) : List XfmEntry := if ply < 4 then c.pipe0 else c.pipe1
def setPipe (c : Core) (ply : Nat) (l : List XfmEntry) : Core := if ply < 4 then { c with pipe0 := l } else { c with pipe1 := l }

/-- The issuing warp's results in the transform pipe written (R109 step 1). -/
def drainXfm (s : State) : State :=
  match s.cur.who with
  | .thread _ _ => s
  | .warp d c p _ =>
    let mine := (pipeOf (s.coreAt d c) p.val).filter fun e => e.owner == warpId s.cur
    let s' := s.onCore d c fun x => setPipe x p.val ((pipeOf x p.val).filter fun e => !(e.owner == warpId s.cur))
    { s' with cur := mine.foldl xfmComplete s.cur }

/-- sr.cause of a CODE and SUB, with VIOL when `viol` (R20, R23). -/
def causeWord (viol : Bool) (code sub : Nat) : Word :=
  BitVec.ofNat 64 ((if viol then 2 ^ 63 else 0) + (sub % 256) * 256 + code)

/-- Cause codes of R23. -/
def cTrapi : Nat := 0x01
def cSvcall : Nat := 0x02
def cConvert : Nat := 0x03
def cMissed : Nat := 0x04
def cIllegal : Nat := 0x10
def cBounds : Nat := 0x11
def cMxbank : Nat := 0x12
def cDeadlock : Nat := 0x13
def cTablever : Nat := 0x14
def cUncorrected : Nat := 0x15

/-- A freeze notice for a warp (R364, R365). -/
def freezeNotice (s : State) (w : Warp) (fkind : Nat) (cause tval : Word) : State :=
  enqueueRec s (agentDie w.who) { warpRec w 0x10 with fkind, cause, tval, pc := w.pc }

/-- A distaff thread stops on ILLEGAL: TCTL.FROZEN and HOSTIRQ with the cause and the thread (R354). DEDUCED, unsafe: log entry 23. -/
def stopThread (s : State) (halt : Bool) (code : Nat) : State :=
  match s.cur.who with
  | .thread d t =>
    let v : BitVec 32 := BitVec.ofNat 32 (code + 256 * t.val)
    let s := s.onDie d fun x =>
      { x with tctl := x.tctl.set t { x.tctl[t] with frozen := x.tctl[t].frozen || !halt, halted := x.tctl[t].halted || halt } }
    let s := { s with cur := { s.cur with status := .halted } }
    if d = 0 then { s with host := { s.host with hirq0 := s.host.hirq0 ++ [v] } }
    else { s with host := { s.host with hirq1 := s.host.hirq1 ++ [v] } }
  | _ => s

/-- A violation at the issuing warp's instruction (R23, R365): after the drain of R109 step 1, sr.* name it, the warp stops there, the
distaff is told. A distaff thread stops as R354 gives. -/
def violate (s : State) (code sub : Nat) (tval : Word) : State :=
  if isThread s.cur.who then stopThread s false code
  else
    let cause := causeWord true code sub
    let s := drainXfm s
    let w := { s.cur with epc := s.cur.pc, cause, tval, status := .frozen .violation }
    freezeNotice { s with cur := w } w 0 cause tval

/-- ILLEGAL at the issuing agent with the instruction's word as sr.tval (R23, R72). -/
def illegal (s : State) (sub : Nat) (i : Instr) : Out :=
  .next (violate s cIllegal sub ((encode i).getD 0))

/-- BOUNDS of a warp's own access: SUB 0xFF (R140, R157, R194). -/
def boundsAt (s : State) (tval : Word) : Out := .next (violate s cBounds 0xFF tval)

/-- The trap vector of the issuing warp's context record in force (R109, R359). -/
def trapVector (s : State) (w : Warp) : Word :=
  match s.findTeam w.team with
  | some t => t.ctxRec.tvec
  | none => 0

/-- Taking a trap at warp `w`'s instruction (R109, R110), after the drain of step 1: the saved registers and the jump to
TVEC; or the freeze, when a trap is already being handled or TVEC is 0; of both, the first. The notice carries the cause. sr.replay
stays, its replay over. DESIGN CHOICE, unsafe: log entry 51. -/
def trapInto (s : State) (w : Warp) (code sub : Nat) (tval : Word) : Warp × Option (Nat × Word × Word) :=
  let cause := causeWord false code sub
  if w.cause.extractLsb' 0 8 ≠ 0 then
    ({ w with status := .frozen .doubleTrap }, some (2, cause, tval))
  else if trapVector s w = 0 then
    ({ w with epc := w.pc, cause, tval, status := .frozen .trapNoVector }, some (1, cause, tval))
  else
    ({ w with epc := w.pc, cause, tval, pc := trapVector s w, status := .running, replayNext := false,
              yielded := false }, none)

/-- A trap taken by the issuing agent (R109). A distaff thread has no context and no trap vector: it stops frozen with the
cause, its saved registers written (R110, R354). -/
def takeTrap (s : State) (code sub : Nat) (tval : Word) : State :=
  if isThread s.cur.who then
    stopThread { s with cur := { s.cur with epc := s.cur.pc, cause := causeWord false code sub, tval } } false code
  else
    let (w, note) := trapInto s s.cur code sub tval
    let s := { s with cur := w }
    match note with
    | none => s
    | some (fk, c, tv) => freezeNotice s w fk c tv

/-- Return from a trap (R111); a noted KARRW arrival is dropped when the warp goes elsewhere (R164). -/
def trapReturn (w : Warp) : Warp :=
  { w with pc := w.epc, cause := 0, replayNext := w.replay != 0, status := .running, yielded := false,
           karrw := w.karrw.filter fun k => k.addr == w.epc }

/-- Faulting lanes grouped by 4 KiB page: page, lowest address, reason, lanes (R150). -/
def groupPages : List (Nat × Word × Nat) → List (Nat × Word × Nat × Mask)
  | [] => []
  | (pl, va, r) :: t =>
    let rest := groupPages t
    let page := va.toNat / 4096
    let bit : Mask := BitVec.ofNat 128 (2 ^ pl)
    match rest.find? (·.1 == page) with
    | some (_, va', _, m) =>
      (page, if va.toNat ≤ va'.toNat then va else va', r, m ||| bit) :: rest.filter (·.1 != page)
    | none => (page, va, r, bit) :: rest

/-- A recoverable memory fault of the issuing warp (R150): one record for each page, and the warp sleeps until all are
answered. `lanes` is none for a scalar access, whose lanes are not recorded. -/
def memFault (s : State) (access : Nat) (faults : List (Nat × Word × Nat)) (vector : Bool) : State :=
  let groups := groupPages faults
  let all : Mask := groups.foldl (fun m g => m ||| g.2.2.2) 0
  let (s, toks) := groups.foldl (fun (acc : State × List Nat) g =>
    let (tok, s) := acc.1.freshId
    let r := { warpRec s.cur 1 with token := tok, master := .warp (warpId s.cur), access, reason := g.2.2.1,
                                    va := g.2.1, lanes := if vector then g.2.2.2 else 0 }
    (enqueueRec s (agentDie s.cur.who) r, acc.2 ++ [tok])) (s, [])
  { s with cur := { s.cur with status := .spool toks,
                               replay := if vector then all else s.cur.replay,
                               replayNext := if vector then true else s.cur.replayNext } }

end Sys2Proof.Machine
end

