-- ==== Sys2Proof/Machine/Directory.lean ====
section
/-! DEFINITION. The coherence directory at the homes (19 R381, R382). A line number is its physical address over 128.
Agents 0 and 1 are the L2s of CD0 and CD1, agent 2 the Jorrad L3. `State.mem` holds the newest bytes of every line; a
dirty line's entry keeps what its home still holds. -/

namespace Sys2Proof.Machine

/-- The state an agent holds a line in. -/
def heldBy (l : DirLine) (a : Fin 3) : Option Moesi := (l.held.find? (·.1 == a)).map (·.2)

/-- A holder's state set. -/
def setHeld (h : List (Fin 3 × Moesi)) (a : Fin 3) (held : Moesi) : List (Fin 3 × Moesi) :=
  h.filter (fun p => p.1 != a) ++ [(a, held)]

/-- A line no agent holds, taken by `a` (R382 row I). -/
def freshLine (a : Fin 3) : DirLine := { st := .x, owner := some a, held := [(a, .e)], stale := none }

/-- The owner's copy is dirty. -/
def ownerDirty (l : DirLine) : Bool :=
  match l.owner with
  | some o => heldBy l o == some .m || heldBy l o == some .o
  | none => false

/-- Read shared by `a`, which does not hold the line (R382). -/
def dirReadShared (x : Option DirLine) (a : Fin 3) : DirLine :=
  match x with
  | none => freshLine a
  | some l =>
    match l.st, l.owner with
    | .x, some o =>
      if ownerDirty l then { l with st := .o, held := setHeld (setHeld l.held o .o) a .s }
      else { l with st := .s, owner := none, held := setHeld (setHeld l.held o .s) a .s }
    | _, _ => { l with held := setHeld l.held a .s }

/-- Read unique or upgrade by `a` (R382). -/
def dirReadUnique (x : Option DirLine) (a : Fin 3) : DirLine :=
  match x with
  | none => freshLine a
  | some l =>
    if ownerDirty l then { l with st := .x, owner := some a, held := [(a, .m)] }
    else { l with st := .x, owner := some a, held := [(a, .e)] }

/-- The owner stores to its line (R381): E becomes M with no word to the home, which keeps `old`. -/
def dirDirty (l : DirLine) (a : Fin 3) (old : BitVec 1024) : DirLine :=
  if heldBy l a = some .m then l
  else { l with held := setHeld l.held a .m, stale := match l.stale with
    | some b => some b
    | none => some old }

/-- The bytes of a sector of the pool. -/
def sectorBits (m : Memory) (sec : Nat) : BitVec 256 := BitVec.ofNat 256 (m.num (32 * sec) 32)

/-- The bytes of a line of the pool. -/
def lineBytes (m : Memory) (line : Nat) : BitVec 1024 := BitVec.ofNat 1024 (m.num (128 * line) 128)


/-- The directory's agent for a die. -/
def dieAgent (d : Fin 2) : Fin 3 := if d = 0 then 0 else 1

end Sys2Proof.Machine
end

