-- ==== Sys2Proof/Machine/Translate.lean ====
section
/-! DEFINITION. The physical address map (19 R376, R377), Sv57 translation with Svpbmt (18 R356 to R358), and TLBs. -/

namespace Sys2Proof.Machine

/-- What an access needs (R141, R100; ACCESS codes of R364). -/
inductive Access where
  | read
  | write
  | atomic
  | fetch
  deriving DecidableEq, Repr

/-- ACCESS of a spool record (R364). -/
def accessCode : Access → Nat
  | .read => 0
  | .write => 1
  | .atomic => 2
  | .fetch => 3

/-- How an access through a page is performed (R141, R377). -/
inductive PageKind where
  | pma
  | nc
  | io
  deriving DecidableEq, Repr

/-- A translated address. -/
structure Phys where
  pa : Nat
  kind : PageKind
  deriving DecidableEq, Repr

/-- Ranges of the physical address map (R376). -/
inductive Region where
  | pool
  | control (d : Fin 2) (off : Nat)
  | queues (d : Fin 2) (off : Nat)
  | hostBlock (off : Nat)
  | imsic (off : Nat)
  | imsicM (off : Nat)
  | ecam (off : Nat)
  | pcie (off : Nat)
  | reserved
  deriving DecidableEq, Repr

/-- The die a window offset names. -/
def dieOf (n : Nat) : Fin 2 := if n = 0 then 0 else 1

/-- The physical address map (R376). -/
def regionOf (pa : Nat) : Region :=
  if pa < 0x10000000000 then .pool
  else if 0x20000000000 ≤ pa ∧ pa < 0x20002000000 then
    .control (dieOf ((pa - 0x20000000000) / 0x1000000)) ((pa - 0x20000000000) % 0x1000000)
  else if 0x20010000000 ≤ pa ∧ pa < 0x20010080000 then
    .queues (dieOf ((pa - 0x20010000000) / 0x40000)) ((pa - 0x20010000000) % 0x40000)
  else if 0x20020000000 ≤ pa ∧ pa < 0x20020010000 then .hostBlock (pa - 0x20020000000)
  else if 0x20030000000 ≤ pa ∧ pa < 0x20030100000 then .imsic (pa - 0x20030000000)
  else if 0x20040000000 ≤ pa ∧ pa < 0x20040020000 then .imsicM (pa - 0x20040000000)
  else if 0x30000000000 ≤ pa ∧ pa < 0x30020000000 then .ecam (pa - 0x30000000000)
  else if 0x40000000000 ≤ pa ∧ pa < 0x48000000000 then .pcie (pa - 0x40000000000)
  else .reserved

/-- The address lies in the pool (R266). -/
def inPool (pa : Nat) : Bool := decide (pa < 0x10000000000)

/-- Fields of a page-table entry (R356). -/
def pteBit (pte i : Nat) : Bool := pte.testBit i
def ptePpn (pte : Nat) : Nat := bits pte 53 10
def ptePbmt (pte : Nat) : Nat := bits pte 62 61

/-- REASON 0 for an entry whatever its level (R356). -/
def pteBad (pte : Nat) : Bool :=
  !(pteBit pte 0) || (pteBit pte 2 && !(pteBit pte 1)) || ptePbmt pte == 3 || pteBit pte 63 || bits pte 60 54 != 0

/-- An entry is a leaf. -/
def pteLeaf (pte : Nat) : Bool := pteBit pte 1 || pteBit pte 3

/-- Physical address a leaf of a level gives for `va`. -/
def leafPa (level pte va : Nat) : Nat :=
  let span := 2 ^ (12 + 9 * level)
  ptePpn pte * 4096 / span * span + va % span

/-- What a leaf refuses an access with (R356): 0 where its address lies in no memory or window, 1 for its permissions, 2
for A and D. -/
def leafReason (level pte va : Nat) (acc : Access) : Option Nat :=
  if ptePpn pte % 2 ^ (9 * level) ≠ 0 then some 0
  else if regionOf (leafPa level pte va) = .reserved then some 0
  else
    let r := pteBit pte 1
    let w := pteBit pte 2
    let x := pteBit pte 3
    let ok := match acc with
      | .read => r
      | .write => w
      | .atomic => r && w
      | .fetch => x
    let store := match acc with
      | .write => true
      | .atomic => true
      | _ => false
    if !(pteBit pte 4) || !ok then some 1
    else if !(pteBit pte 6) || (store && !(pteBit pte 7)) then some 2
    else none

/-- The walk of Sv57 from a table down (R356): the leaf and its level, or REASON 0. -/
def walkFrom (m : Memory) (va : Nat) : Nat → Nat → Except Nat (Nat × Nat)
  | level, table =>
    if !(inPool table) then .error 0
    else
      let pte := m.num (table + 8 * (va / 2 ^ (12 + 9 * level) % 512)) 8
      if pteBad pte then .error 0
      else if pteLeaf pte then .ok (level, pte)
      else if ptePbmt pte ≠ 0 then .error 0
      else match level with
        | 0 => .error 0
        | l + 1 => walkFrom m va l (ptePpn pte * 4096)

/-- The type of an access through a leaf (R377): a window is IO whatever its page says. -/
def leafKind (pte pa : Nat) : PageKind :=
  if !(inPool pa) then .io
  else match ptePbmt pte with
    | 0 => .pma
    | 1 => .nc
    | _ => .io

/-- The entry of a list that covers an address (R357). -/
def tlbCovers (l : List TlbEntry) (ctx va : Nat) : Option TlbEntry :=
  l.find? fun e => e.ctx == ctx && e.page == va / 2 ^ (12 + 9 * e.level)

/-- The TLB entry of a die that covers an address (R358). -/
def tlbFind (x : Die) (ctx va : Nat) : Option TlbEntry := tlbCovers x.tlb ctx va

/-- An entry installed; the TLB holds 16,384 (R358). -/
def tlbFill (x : Die) (e : TlbEntry) : Die :=
  { x with tlb := (e :: x.tlb.filter fun o => !(o.ctx == e.ctx && o.level == e.level && o.page == e.page)).take 16384 }

/-- The slice, and core, whose L2 owns a physical address on a die (R239). -/
def sliceOf (pa : Nat) : Nat :=
  ((List.range 5).foldl (fun h k => h ^^^ bits pa (15 + 9 * k) (7 + 9 * k)) 0) % 24

end Sys2Proof.Machine
end

