-- ==== Sys2Proof/Machine/Caches.lean ====
section
/-! DEFINITION. What the caches of a die hold: 11 R254, R262, R264 to R266; the ways a partition may fill, 21 R425; the bytes
LPDDR-6 moves, 21 R426. Victims where the spec gives no rule, the system cache's index and the shadow ways are DESIGN CHOICE: log
entry 47. Nothing here changes a value, an order or a fault. -/

namespace Sys2Proof.Machine

/-! ### Places (R266) -/

/-- A line of the pool, which the homes track (R266, R381). -/
def lineInPool (line : Nat) : Bool := inPool (128 * line)
/-- The die a line is homed on (R266). -/
def lineHome (line : Nat) : Fin 2 := dieOf (bits (128 * line) 12 12)
/-- One of the 16 packages of the home die, and one of its 48 channels, that hold an address of the pool (R266). -/
def packageOf (pa : Nat) : Nat := bits pa 11 8
def channelOf (pa : Nat) : Nat := 3 * packageOf pa + pa / 8192 % 3

/-- A telemetry counter raised (R426). -/
def countUp (x : Die) (i : Fin 16) (n : Nat) : Die := { x with counters := x.counters.set i ((x.counters[i] + n) % 2 ^ 64) }

/-- Events of a class counted for the energy they cost (R414): 0 to 4 matrix steps by operand class, 5 vector and SFU issue, 6 scalar
issue, 7 to 9 accesses of L1, L2 and system cache, 10 LPDDR-6 beats of 32 bytes, 11 mesh flits, 12 reel flits, 13 texels decoded, 14
UCIe flits, which weigh as mesh flits. -/
def workUp (x : Die) (i : Fin 15) (n : Nat) : Die := { x with work := x.work.set i (x.work[i] + n) }

/-- Bytes LPDDR-6 reads, counter 5, or writes, counter 6 (R426). -/
def dramUp (x : Die) (i : Fin 16) (n : Nat) : Die := workUp (countUp x i n) 10 ((n + 31) / 32)

/-- Messages over the mesh of a die counted, one flit for each (log entry 13). -/
def meshFlits (s : State) (d : Fin 2) (n : Nat) : State := s.onDie d fun x => workUp x 11 n

/-- The die whose L2 is an agent of the directory; agent 2 is the Jorrad L3. -/
def agentL2 (a : Fin 3) : Option (Fin 2) := if a = 0 then some 0 else if a = 1 then some 1 else none

/-- One of `n` lines a cache of a die may let go: `which` as `Config.victim` gives it. -/
def pickVictim (x : Die) (which n : Nat) : Nat := Config.victim which x.victims % n

/-! ### The system cache (R265, R425) -/

/-- The resident partition that holds a core of a die (R371), with its number. -/
def coreSeat (x : Die) (d : Fin 2) (c : Fin 24) : Option (Fin 8 × PartRec) :=
  (x.parts.find? fun e => decide (e.1 < 8) && x.res.getLsbD e.1 && e.2.cores[d].getLsbD c.val).map fun e => (Fin.ofNat 8 e.1, e.2)
/-- The partition whose cores and engines send a core's requests. -/
def corePart (x : Die) (d : Fin 2) (c : Fin 24) : Option (Fin 8) := (coreSeat x d c).map (·.1)

/-- Ways a die holds as shadow storage: the highest, as many as its partitions take (R265). -/
def shadowWays (x : Die) (d : Fin 2) : Nat := x.parts.foldl (fun n e => n + e.2.shways[d]) 0

/-- The ways of home `h` a request may fill: those its partition's SCWAYS names, 0 naming every way, and none held as shadow
storage (R425). -/
def fillWays (s : State) (h : Fin 2) (a : Fin 3) (part : Option (Fin 8)) : List Nat :=
  let mask : BitVec 24 := match agentL2 a, part with
    | some d, some p => ((tblGet (s.die d).parts p.val).map fun r => r.scways[h]).getD 0
    | _, _ => 0
  (List.range (24 - shadowWays (s.die h) h)).filter fun w => mask == 0 || mask.getLsbD w

/-- Set of a line in its home's system cache: 65,536 sets of lines, whose address bit 12 is the die's. -/
def sysSet (line : Nat) : Nat := (line / 64 * 32 + line % 32) % 65536

/-- A line enters a system cache in one of the ways given; a line it pushes out goes to LPDDR-6 where it is dirty. -/
def sysFill (x : Die) (h : Fin 2) (ways : List Nat) (line : Nat) (dirty : Bool) : Die :=
  let there := x.sys.filter fun e => sysSet e.line == sysSet line
  match ways.find? fun w => !(there.any (·.way == w)) with
  | some w => { x with sys := ⟨line, w, dirty⟩ :: x.sys }
  | none =>
    match there.filter fun e => ways.contains e.way with
    | [] => if dirty then dramUp x 6 128 else x
    | e0 :: es =>
      let out := (e0 :: es).getD (pickVictim x (2 + h.val) (es.length + 1)) e0
      let x := if out.dirty then dramUp x 6 128 else x
      { x with sys := ⟨line, out.way, dirty⟩ :: x.sys.filter (·.line != out.line), victims := x.victims + 1 }

/-- A partition's bucket pays for a request of 128 tokens at a stage time (R423): the clocks the request waits are counted (R426). -/
def payTokens (x : Die) (p : Fin 8) (rate burst now : Nat) : Die :=
  let (tokens, at_) := x.buckets[p]
  let have_ : Int := min (burst * 1024 : Nat) (tokens + (rate * (now - at_) : Nat))
  let waits := ((128 - have_).toNat + rate - 1) / rate * x.fgrant / 1000
  countUp { x with buckets := x.buckets.set p (have_ - 128, now) } 14 waits

/-- A request that a partition sends past its die's L2 is regulated where its BWRATE is not 0 (R422, R423). -/
def regulate (s : State) (a : Fin 3) (part : Option (Fin 8)) : State :=
  match agentL2 a, part with
  | some d, some p =>
    match tblGet (s.die d).parts p.val with
    | some r =>
      let rate := bits r.qos.toNat 63 48
      let burst := if bits r.qos.toNat 47 32 = 0 then 64 else bits r.qos.toNat 47 32
      if rate = 0 then s else s.onDie d fun x => payTokens x p rate burst (stageNs s)
    | none => s
  | _, _ => s

/-- A request of an agent goes past its L2 slice toward a line's home: it is regulated, and a flit crosses UCIe where the home is the
other die (R267, R414, R423). -/
def sendHome (s : State) (a : Fin 3) (part : Option (Fin 8)) (line : Nat) : State :=
  match agentL2 a with
  | some d => (if lineHome line = d then id else fun s : State => s.onDie d fun x => workUp x 14 1) (regulate s a part)
  | none => s

/-- A line read at its home, or written back whole there: a hit, or a miss that reads LPDDR-6 unless the whole line is written.
Answers whether it missed (R32). -/
def sysAccess (s : State) (a : Fin 3) (part : Option (Fin 8)) (line : Nat) (write : Bool) : State × Bool :=
  let h := lineHome line
  match (s.die h).sys.find? (·.line == line) with
  | some e =>
    (s.onDie h fun x => workUp { x with sys := { e with dirty := e.dirty || write } :: x.sys.filter (·.line != line) } 9 1, false)
  | none =>
    let ways := fillWays s h a part
    (s.onDie h fun x => workUp (sysFill (if write then x else dramUp x 5 128) h ways line write) 9 1, true)

/-! ### The L2 slices (R264) -/

/-- A holder gone: the line is S with the sharers that remain, or I (R382). -/
def dropHolder (dir : Tbl DirLine) (line : Nat) (l : DirLine) (a : Fin 3) : Tbl DirLine :=
  match l.held.filter fun p => p.1 != a with
  | [] => tblErase dir line
  | rest => tblSet dir line { st := .s, owner := none, held := rest, stale := none }

/-- wts and rts of a sector at a die's home slices; a sector not tracked has what its slice has let go (R264). -/
def l2Get (x : Die) (sec : Nat) : Nat × Nat :=
  (tblGet x.l2 sec).getD (let k := sliceOf (32 * sec); (tblGetD x.maxWts k 0, tblGetD x.maxRts k 0))

/-- A die's slice lets a line go: the largest rts and wts of the line's sectors are folded into its registers, so that no
timestamp is lowered (R264). -/
def evictL2 (s : State) (a : Fin 3) (line : Nat) : State :=
  match agentL2 a with
  | none => s
  | some d => s.onDie d fun x =>
    let secs := (List.range 4).map (4 * line + ·)
    let top := fun g : Nat × Nat → Nat => secs.foldl (fun m k => max m (g (l2Get x k))) 0
    let slice := sliceOf (128 * line)
    { x with l2 := secs.foldl tblErase x.l2, maxRts := tblSet x.maxRts slice (max (top Prod.snd) (tblGetD x.maxRts slice 0)),
             maxWts := tblSet x.maxWts slice (max (top Prod.fst) (tblGetD x.maxWts slice 0)) }

/-- The write-back of a dirty line leaves an agent; one whose line holds an uncorrectable error is kept, to be discarded where it is bad
(R429). -/
def noteLost (s : State) (a : Fin 3) (line : Nat) (l : DirLine) : State :=
  match l.stale with
  | none => s
  | some old =>
    if (List.range 4).any fun k => s.softErrs.contains (.sector (4 * line + k)) then
      s.onDie (lineHome line) fun x => { x with lostBacks := x.lostBacks ++ [⟨a, line, lineBytes s.mem line, old⟩] }
    else s

/-- An agent lets a line go: its owner writes a dirty line back to the home's system cache, which `part` pays for, any other holder's
copy is dropped (R264, R382, R423). -/
def letGo (s : State) (a : Fin 3) (part : Option (Fin 8)) (line : Nat) : State :=
  match tblGet s.dir line with
  | none => s
  | some l =>
    if l.owner = some a ∧ ownerDirty l then
      let s := noteLost s a line l
      (sysAccess (sendHome (evictL2 { s with dir := dropHolder s.dir line l a } a line) a part line) a part line true).1
    else match heldBy l a, l.owner with
      | none, _ => s
      | some .s, some _ =>
        evictL2 { s with dir := tblSet s.dir line { l with held := l.held.filter fun p => p.1 != a } } a line
      | _, _ => evictL2 { s with dir := dropHolder s.dir line l a } a line

/-- The other lines of a line's slice and set that a die's L2 holds: 1,024 sets by address bits 16:7 (R264). -/
def l2Set (s : State) (a : Fin 3) (line : Nat) : List Nat :=
  (s.dir.filter fun q => q.1 != line && q.1 % 1024 == line % 1024 && (heldBy q.2 a).isSome &&
    sliceOf (128 * q.1) == sliceOf (128 * line)).map (·.1)

/-- Room for a line among the 16 ways of its set (R264). A line that leaves for it is written back on account of the partition that
needs the room (log entry 13). -/
def l2Room (s : State) (a : Fin 3) (part : Option (Fin 8)) (line : Nat) : State :=
  match agentL2 a with
  | none => s
  | some d =>
    match l2Set s a line with
    | [] => s
    | k :: ks =>
      if ks.length < 15 then s
      else (letGo s a part ((k :: ks).getD (pickVictim (s.die d) d.val (ks.length + 1)) k)).onDie d fun x =>
        { x with victims := x.victims + 1 }

/-! ### The agents' transactions (R382) -/

/-- An invalidation of a line reaches the L2 of every die that holds it, but the one of `keep` (R225). -/
def noteInval (s : State) (line : Nat) (keep : Option (Fin 3)) : State :=
  let hit := fun a : Fin 3 => keep != some a && (match tblGet s.dir line with
    | some l => (heldBy l a).isSome
    | none => false)
  let bump := fun x : Die => { x with invals := tblSet x.invals line (tblGetD x.invals line 0 + 1) }
  let s' := if hit 0 then s.onDie 0 bump else s
  if hit 1 then s'.onDie 1 bump else s'

/-- An access of an L2 slice counted (R414). -/
def touchL2 (s : State) (a : Fin 3) : State :=
  match agentL2 a with
  | some d => s.onDie d fun x => workUp x 8 1
  | none => s

/-- A line enters the L2 slice of an agent: MAXRTS counts as granted on its sectors (R264). -/
def fillL2 (s : State) (a : Fin 3) (line : Nat) : State :=
  match agentL2 a with
  | none => s
  | some d => s.onDie d fun x =>
    let top := tblGetD x.maxRts (sliceOf (128 * line)) 0
    { x with l2 := (List.range 4).foldl (fun l k => match tblGet l (4 * line + k) with
        | some g => tblSet l (4 * line + k) (g.1, max g.2 top)
        | none => l) x.l2 }

/-- Room made for a line, which then enters. -/
def l2Take (s : State) (a : Fin 3) (part : Option (Fin 8)) (line : Nat) : State := fillL2 (l2Room s a part line) a line

/-- An agent reads a line: a transaction when it does not hold it (R382). Answers whether the line missed the system cache. -/
def agentFetch (s : State) (a : Fin 3) (part : Option (Fin 8)) (line : Nat) : State × Bool :=
  let s := touchL2 s a
  match tblGet s.dir line with
  | some l =>
    if (heldBy l a).isSome then (s, false)
    else
      let s := sendHome (l2Take { s with dir := tblSet s.dir line (dirReadShared (some l) a) } a part line) a part line
      if ownerDirty l then (s, false) else sysAccess s a part line false
  | none =>
    sysAccess (sendHome (l2Take { s with dir := tblSet s.dir line (dirReadShared none a) } a part line) a part line) a part line false

/-- The same, where only the state matters. -/
def agentRead (s : State) (a : Fin 3) (part : Option (Fin 8)) (line : Nat) : State := (agentFetch s a part line).1

/-- The line an agent needs to be the unique holder of is fetched, unless it holds it or a dirty owner forwards it (R382). -/
def ownFetch (s : State) (a : Fin 3) (part : Option (Fin 8)) (line : Nat) : State :=
  match tblGet s.dir line with
  | some l =>
    let s := sendHome (noteInval s line (some a)) a part line
    if (heldBy l a).isSome then s
    else if ownerDirty l then l2Take s a part line
    else (sysAccess (l2Take s a part line) a part line false).1
  | none => (sysAccess (l2Take (sendHome s a part line) a part line) a part line false).1

/-- An agent stores to a line: it takes the line unique unless it holds it in E or M, and the line is dirty (R381, R382). -/
def agentOwn (s : State) (a : Fin 3) (part : Option (Fin 8)) (line : Nat) : State :=
  let s := touchL2 s a
  let x := tblGet s.dir line
  let own : Bool := match x with
    | some l => decide (l.st = .x ∧ l.owner = some a)
    | none => false
  let s := if own then s else ownFetch s a part line
  let l := match x with
    | some l => if own then l else dirReadUnique (some l) a
    | none => dirReadUnique none a
  { s with dir := tblSet s.dir line (dirDirty l a (lineBytes s.mem line)) }

/-- READ_UNIQUE by an agent (R382). The owner in E or M asks for nothing. -/
def agentUnique (s : State) (a : Fin 3) (line : Nat) : State :=
  let x := tblGet s.dir line
  let own : Bool := match x with
    | some l => decide (l.st = .x ∧ l.owner = some a)
    | none => false
  if own then s
  else
    let s := ownFetch s a none line
    { s with dir := tblSet s.dir line (dirReadUnique x a) }

/-- A requester that caches nothing reads a line at the home: no holder changes (R382). -/
def homeRead (s : State) (line : Nat) : State :=
  let dirty : Bool := match tblGet s.dir line with
    | some l => ownerDirty l
    | none => false
  if dirty then s else (sysAccess s 2 none line false).1

/-- Every holder of a line loses it, a dirty one merged into the system cache (R382, R383). -/
def homeDrop (s : State) (line : Nat) : State :=
  let t := noteInval s line none
  let t := { t with dir := tblErase t.dir line }
  match tblGet s.dir line with
  | some l => if ownerDirty l then (sysAccess (noteLost t (l.owner.getD 2) line l) 2 none line true).1 else t
  | none => t

/-- A requester that caches nothing writes a line at the home (R382). -/
def homeOwn (s : State) (line : Nat) : State :=
  let s := (sysAccess (homeDrop s line) 2 none line false).1
  (sysAccess s 2 none line true).1

/-! ### The L1 lease cache (R262) -/

/-- Lines of an L1 that share a line's set: 256 sets by address bits 14:7. -/
def l1Set (c : Core) (line : Nat) : List (Nat × Bool) := c.l1Use.filter fun e => e.1 % 256 == line % 256 && e.1 != line

/-- The line an L1 lets go: the least recent of those filled under NT or by roving and not yet read, else the least recent. -/
def l1Victim (l : List (Nat × Bool)) : Nat := ((l.reverse.find? (·.2)).getD (l.getLastD (0, false))).1

/-- A line becomes the most recently used of an L1; `weak` marks one filled under NT or by roving. -/
def l1Touch (c : Core) (line : Nat) (weak : Bool) : Core :=
  { c with l1Use := (line, weak) :: c.l1Use.filter (·.1 != line) }

/-- A sector enters an L1; a line new to its set of 16 ways pushes one out. -/
def l1Place (c : Core) (sec : Nat) (v : L1Sector) (weak : Bool) : Core :=
  let line := sec / 4
  let set := l1Set c line
  let c :=
    if (c.l1Use.any (·.1 == line)) || decide (set.length < 16) then c
    else
      let out := l1Victim set
      { c with l1 := c.l1.filter fun e => e.1 / 4 != out, l1Use := c.l1Use.filter (·.1 != out) }
  let old := c.l1Use.any fun e => e.1 == line && !e.2
  l1Touch { c with l1 := tblSet c.l1 sec v } line (weak && !old)

end Sys2Proof.Machine
end

