-- ==== Sys2Proof/Machine/Charge.lean ====
section
/-! DEFINITION. Who pays for the energy of the events counted (21 R414). DESIGN CHOICE where the spec gives no figure: log entry
13. -/

namespace Sys2Proof.Machine

/-- Who pays for an event: a context, a partition, and the core the work ran on, where one did. -/
structure Payer where
  ctx : Nat
  part : Fin 8
  core : Option (Fin 2 × Fin 24)
  deriving DecidableEq, Repr

/-- The payer of work of a context on a core: none where no resident partition holds the core (R414). -/
def corePayer (s : State) (ctx : Nat) (d : Fin 2) (c : Fin 24) : Option Payer :=
  (corePart (s.die d) d c).map fun p => ⟨ctx, p, some (d, c)⟩

/-- The fused weight of a class of events. -/
def workWeight (i : Fin 15) : Nat := Config.eventPj (if i = 14 then 11 else i.val)

/-- PERIOD of a partition's energy in us, from ECFG (R355). -/
def energyPeriod (x : Die) (p : Fin 8) : Nat := x.ecfg[p].toNat % 2 ^ 20

/-- ECFG of a partition written at a stage time: REM is next set to CAP at the first multiple of the new PERIOD to come (R350, R355). -/
def setEnergy (now : Nat) (p : Fin 8) (v : Word) (x : Die) : Die :=
  { x with ecfg := x.ecfg.set p v, refills := x.refills.set p (now / (1000 * (v.toNat % 2 ^ 20))) }

/-- The energy of the events a die has counted, before CAL, and the part of LPDDR-6, UCIe and the links of the reel. -/
def workPj (x : Die) : Nat := (List.finRange 15).foldl (fun n i => n + workWeight i * x.work[i]) 0
def outPj (x : Die) : Nat := workWeight 10 * x.work[(10 : Fin 15)] + workWeight 12 * x.work[(12 : Fin 15)] + workWeight 14 * x.work[(14 : Fin 15)]

/-- A die charges what it has counted to a context and partition, or to itself (R414). -/
def chargeDie (pay : Option (Nat × Fin 8)) (x : Die) : Die :=
  if x.work = Vector.replicate 15 0 then x
  else
    let e := workPj x
    let x := { x with rawOut := x.rawOut + outPj x, work := Vector.replicate 15 0 }
    match pay with
    | some (ctx, p) => { x with rawCtx := tblSet x.rawCtx ctx (tblGetD x.rawCtx ctx 0 + e), rawPart := x.rawPart.set p (x.rawPart[p] + e) }
    | none => { x with rawSys := x.rawSys + e }

/-- What both dies have counted is charged to a payer: its core, its context and its partition; the dies themselves pay where nobody
does (R414). -/
def chargeTo (s : State) (who : Option Payer) : State :=
  let s := match who.bind (·.core) with
    | some (d, c) =>
      if (s.die d).work = Vector.replicate 15 0 then s else s.onCore d c fun x => { x with raw := x.raw + workPj (s.die d) }
    | none => s
  let pay := who.map fun q => (q.ctx, q.part)
  (s.onDie 0 (chargeDie pay)).onDie 1 (chargeDie pay)

/-- What the scan-out of a head has made the dies count is their own, and the display's share of the budget (R414, R420). -/
def chargeScan (s : State) : State :=
  let f := fun x : Die => { x with rawSys := x.rawSys + workPj x, rawOut := x.rawOut + workPj x, work := Vector.replicate 15 0 }
  (s.onDie 0 f).onDie 1 f

end Sys2Proof.Machine
end

