-- ==== Sys2Proof/Machine/Sha3.lean ====
section
/-! DEFINITION. SHA3-512, the digest of 19 R385 to R391 and 21 R434, and SHAKE128 and SHAKE256, on which FIPS 204 rests, as FIPS 202
defines them. Lane (x, y) of the state is lane x + 5y. -/

namespace Sys2Proof.Machine

/-- The 25 lanes of a Keccak state. -/
abbrev Lanes := List (BitVec 64)

/-- A lane. -/
def laneAt (l : Lanes) (n : Nat) : BitVec 64 := l.getD n 0

/-- Rotation offsets by lane. -/
def keccakOffsets : List Nat :=
  [0, 1, 62, 28, 27, 36, 44, 6, 55, 20, 3, 10, 43, 25, 39, 41, 45, 15, 21, 8, 18, 2, 61, 56, 14]

/-- Round constants. -/
def keccakConstants : List (BitVec 64) :=
  [0x0000000000000001, 0x0000000000008082, 0x800000000000808A, 0x8000000080008000, 0x000000000000808B, 0x0000000080000001,
   0x8000000080008081, 0x8000000000008009, 0x000000000000008A, 0x0000000000000088, 0x0000000080008009, 0x000000008000000A] ++
  [0x000000008000808B, 0x800000000000008B, 0x8000000000008089, 0x8000000000008003, 0x8000000000008002, 0x8000000000000080,
   0x000000000000800A, 0x800000008000000A, 0x8000000080008081, 0x8000000000008080, 0x0000000080000001, 0x8000000080008008]

/-- Step theta. -/
def keccakTheta (a : Lanes) : Lanes :=
  let c := (List.range 5).map fun x => (List.range 5).foldl (fun v y => v ^^^ laneAt a (x + 5 * y)) 0
  (List.range 25).map fun n => laneAt a n ^^^ laneAt c ((n % 5 + 4) % 5) ^^^ (laneAt c ((n % 5 + 1) % 5)).rotateLeft 1

/-- Steps rho and pi: lane (y, 2x + 3y) takes lane (x, y) rotated. -/
def keccakRhoPi (a : Lanes) : Lanes :=
  (List.range 25).map fun n =>
    let src := (n % 5 + 3 * (n / 5)) % 5 + 5 * (n % 5)
    (laneAt a src).rotateLeft (keccakOffsets.getD src 0)

/-- Step chi. -/
def keccakChi (a : Lanes) : Lanes :=
  (List.range 25).map fun n =>
    laneAt a n ^^^ (~~~(laneAt a ((n + 1) % 5 + 5 * (n / 5))) &&& laneAt a ((n + 2) % 5 + 5 * (n / 5)))

/-- One round. -/
def keccakRound (a : Lanes) (rc : BitVec 64) : Lanes :=
  let b := keccakChi (keccakRhoPi (keccakTheta a))
  b.set 0 (laneAt b 0 ^^^ rc)

/-- Keccak-f[1600]. -/
def keccakF (a : Lanes) : Lanes := keccakConstants.foldl keccakRound a

/-- Padding to whole blocks of `rate` bytes: the function's own bits, zeros, and the last byte's top bit. -/
def spongePad (rate : Nat) (suffix : Byte) (m : List Byte) : List Byte :=
  let z := rate - 1 - m.length % rate
  if z = 0 then m ++ [suffix ||| 0x80] else m ++ [suffix] ++ List.replicate (z - 1) 0 ++ [0x80]

/-- A block of `rate` bytes absorbed. -/
def spongeAbsorb (rate : Nat) (a : Lanes) (block : List Byte) : Lanes :=
  keccakF ((List.range 25).map fun n =>
    if n < rate / 8 then laneAt a n ^^^ BitVec.ofNat 64 (ofBytes ((block.drop (8 * n)).take 8)) else laneAt a n)

/-- Blocks absorbed in order. -/
def spongeBlocks (rate : Nat) : Nat → Lanes → List Byte → Lanes
  | 0, a, _ => a
  | n + 1, a, m => spongeBlocks rate n (spongeAbsorb rate a (m.take rate)) (m.drop rate)

/-- A message absorbed whole. -/
def sponge (rate : Nat) (suffix : Byte) (m : List Byte) : Lanes :=
  let p := spongePad rate suffix m
  spongeBlocks rate (p.length / rate) (List.replicate 25 0) p

/-- The bytes of a state that a block of output gives. -/
def spongeOut (rate : Nat) (a : Lanes) : List Byte := (a.take (rate / 8)).flatMap fun w => toBytes w.toNat 8

/-- `n` blocks of output. -/
def squeeze (rate : Nat) : Nat → Lanes → List Byte
  | 0, _ => []
  | n + 1, a => spongeOut rate a ++ squeeze rate n (keccakF a)

/-- SHA3-512 of a message, 64 bytes. -/
def sha3 (m : List Byte) : List Byte := (spongeOut 72 (sponge 72 0x06 m)).take 64

/-- SHAKE256 of a message, `n` bytes. -/
def shake256 (m : List Byte) (n : Nat) : List Byte := (squeeze 136 (n / 136 + 1) (sponge 136 0x1F m)).take n

end Sys2Proof.Machine
end

