-- ==== Sys2Proof/Machine/MlDsa.lean ====
section
/-! DEFINITION. ML-DSA-87 of FIPS 204, the signature scheme that 19 R385 to R388 and R393 name. PRESUMED: the spec names the standard
and does not repeat it (log entry 14). A polynomial is the list of its 256 coefficients, least power first, each below q. -/

namespace Sys2Proof.Machine.MlDsa

/-! ### Numbers modulo q -/

abbrev q : Nat := 8380417
abbrev Poly := List Nat

/-- The difference of two residues. -/
def sub (a b : Nat) : Nat := (a + q - b) % q
/-- The residue nearest 0 of `r` modulo `n`, in (-n/2, n/2]. -/
def centred (r n : Nat) : Int := if r % n ≤ n / 2 then (r % n : Nat) else (r % n : Nat) - (n : Int)
/-- The residue of an integer. -/
def residue (i : Int) : Nat := (i % (q : Int)).toNat
/-- How far a residue lies from 0. -/
def size (a : Nat) : Nat := min a (q - a)

/-- A power of the 512th root of unity 1753, by the bits of the exponent, lowest first. -/
def powBits : Nat → Nat → Nat → Nat
  | 0, _, _ => 1
  | k + 1, z, e => (if e % 2 = 1 then z else 1) * powBits k (z * z % q) (e / 2) % q
/-- The eight bits of a number reversed. -/
def rev8 (m : Nat) : Nat := (List.range 8).foldl (fun r k => 2 * r + m / 2 ^ k % 2) 0
/-- The multipliers of the transform's nodes, and their inverses. -/
def zetas : Array Nat := ((List.range 256).map fun m => powBits 9 1753 (rev8 m)).toArray
def zetaInvs : Array Nat := ((List.range 256).map fun m => powBits 9 1753 ((512 - rev8 m) % 512)).toArray

/-! ### Polynomials -/

def polyAdd (a b : Poly) : Poly := List.zipWith (fun x y => (x + y) % q) a b
def polySub (a b : Poly) : Poly := List.zipWith sub a b
def polyMul (a b : Poly) : Poly := List.zipWith (fun x y => x * y % q) a b
def polyScale (k : Nat) (a : Poly) : Poly := a.map fun x => k * x % q

/-- The transform from node `m`, whose list has 2^k coefficients. -/
def nttFrom : Nat → Nat → Poly → Poly
  | 0, _, l => l
  | k + 1, m, l =>
    let lo := l.take (2 ^ k)
    let hi := polyScale (zetas.getD m 0) (l.drop (2 ^ k))
    nttFrom k (2 * m) (polyAdd lo hi) ++ nttFrom k (2 * m + 1) (polySub lo hi)
/-- Its inverse, but for the factor 2^k. -/
def inttFrom : Nat → Nat → Poly → Poly
  | 0, _, l => l
  | k + 1, m, l =>
    let lo := inttFrom k (2 * m) (l.take (2 ^ k))
    let hi := inttFrom k (2 * m + 1) (l.drop (2 ^ k))
    polyAdd lo hi ++ polyScale (zetaInvs.getD m 0) (polySub lo hi)
/-- NTT and its inverse, which divides by 256. -/
def ntt (a : Poly) : Poly := nttFrom 8 1 a
def intt (a : Poly) : Poly := polyScale 8347681 (inttFrom 8 1 a)

/-- A sum of products, of transformed polynomials. -/
def dot (a b : List Poly) : Poly := (List.zipWith polyMul a b).foldl polyAdd (List.replicate 256 0)
/-- A matrix applied to a vector, both transformed, and brought back. -/
def apply (m : List (List Poly)) (v : List Poly) : List Poly := m.map fun row => intt (dot row v)
/-- The largest size of a coefficient. -/
def norm (v : List Poly) : Nat := v.foldl (fun m p => p.foldl (fun m x => max m (size x)) m) 0

/-! ### Bytes -/

/-- Numbers of `n` bits each packed in bytes, the lowest bits first, and unpacked. -/
def packBits (n : Nat) (l : List Nat) : List Byte := toBytes (l.foldr (fun x r => x % 2 ^ n + 2 ^ n * r) 0) (l.length * n / 8)
def unpackBits (n count : Nat) (l : List Byte) : List Nat :=
  let v := ofBytes l
  (List.range count).map fun k => v / 2 ^ (n * k) % 2 ^ n
/-- A list cut into pieces. -/
def pieces {α : Type} (n : Nat) : Nat → List α → List (List α)
  | 0, _ => []
  | k + 1, l => l.take n :: pieces n k (l.drop n)

/-! ### Sampling -/

/-- Blocks of output taken, each giving the coefficients `f` reads in it, until there are 256. The standard allows a bound on the
number of blocks; none of these runs out of 64 but with a chance far below 2^-256. -/
def fillFrom (f : List Byte → List Nat) (rate : Nat) : Nat → Lanes → Poly → Poly
  | 0, _, got => got ++ List.replicate (256 - got.length) 0
  | n + 1, a, got =>
    let got := got ++ f (spongeOut rate a)
    if 256 ≤ got.length then got.take 256 else fillFrom f rate n (keccakF a) got

/-- Three bytes give a number of 23 bits, kept below q. -/
def threeBytes (l : List Byte) : List Nat :=
  (pieces 3 (l.length / 3) l).filterMap fun b =>
    let z := ofBytes b % 2 ^ 23
    if z < q then some z else none
/-- A half byte below 15 gives a coefficient of -2 to 2. -/
def halfBytes (l : List Byte) : List Nat :=
  l.flatMap fun b => [b.toNat % 16, b.toNat / 16].filterMap fun h => if h < 15 then some (sub 2 (h % 5)) else none

/-- ExpandA: 8 rows of 7 polynomials, transformed. -/
def expandA (rho : List Byte) : List (List Poly) :=
  (List.range 8).map fun r => (List.range 7).map fun s =>
    fillFrom threeBytes 168 64 (sponge 168 0x1F (rho ++ [BitVec.ofNat 8 s, BitVec.ofNat 8 r])) []
/-- ExpandS: polynomial `r` of the two secret vectors. -/
def expandS (rho : List Byte) (r : Nat) : Poly := fillFrom halfBytes 136 64 (sponge 136 0x1F (rho ++ toBytes r 2)) []
/-- ExpandMask: 7 polynomials of coefficients in (-2^19, 2^19]. -/
def expandMask (rho : List Byte) (k : Nat) : List Poly :=
  (List.range 7).map fun r => (unpackBits 20 256 (shake256 (rho ++ toBytes (k + r) 2) 640)).map fun z => sub (2 ^ 19) z

/-- One step of SampleInBall: the first byte at most `i` chooses the coefficient that moves to place `i`. -/
def ballStep (signs : Nat) (r : Array Nat × List Byte) (i : Nat) : Array Nat × List Byte :=
  match r.2.dropWhile fun b => decide (i < b.toNat) with
  | [] => r
  | b :: rest => ((r.1.setIfInBounds i (r.1.getD b.toNat 0)).setIfInBounds b.toNat (if signs / 2 ^ (i - 196) % 2 = 1 then q - 1 else 1), rest)
/-- SampleInBall: 60 coefficients of 1 or -1. -/
def sampleInBall (c : List Byte) : Poly :=
  let out := squeeze 136 4 (sponge 136 0x1F c)
  (((List.range' 196 60).foldl (ballStep (ofBytes (out.take 8))) ((List.replicate 256 0).toArray, out.drop 8)).1).toList

/-! ### Rounding -/

abbrev gamma2 : Nat := 261888

/-- Power2Round with d = 13: the high part and the low part. -/
def power2Round (r : Nat) : Nat × Int :=
  let r0 := centred r 8192
  ((((r : Int) - r0) / 8192).toNat, r0)
/-- Decompose. -/
def decompose (r : Nat) : Nat × Int :=
  let r0 := centred r (2 * gamma2)
  if (r : Int) - r0 = q - 1 then (0, r0 - 1) else ((((r : Int) - r0) / (2 * gamma2)).toNat, r0)
def highBits (r : Nat) : Nat := (decompose r).1
def lowBits (r : Nat) : Nat := residue (decompose r).2
/-- MakeHint and UseHint. -/
def makeHint (z r : Nat) : Bool := highBits r != highBits ((r + z) % q)
def useHint (h : Bool) (r : Nat) : Nat :=
  let (r1, r0) := decompose r
  if h then (if 0 < r0 then (r1 + 1) % 16 else (r1 + 15) % 16) else r1

/-! ### Encodings -/

def w1Encode (w : List Poly) : List Byte := w.flatMap (packBits 4)
def pkEncode (rho : List Byte) (t1 : List Poly) : List Byte := rho ++ t1.flatMap (packBits 10)
/-- The places of each polynomial's hints, then how many there are up to each polynomial. -/
def hintPack (h : List (List Bool)) : List Byte :=
  let at_ := h.map fun p => (List.range 256).filter fun k => p.getD k false
  let places := at_.flatten.map fun k => BitVec.ofNat 8 k
  places ++ List.replicate (75 - places.length) 0 ++ (List.range 8).map fun i => BitVec.ofNat 8 ((at_.take (i + 1)).flatten.length)
/-- Strictly rising numbers. -/
def rising : List Nat → Bool
  | a :: b :: l => decide (a < b) && rising (b :: l)
  | _ => true
/-- The hints from the counts left, from place `done` on; none where they are malformed. -/
def hintsFrom (places : List Nat) : Nat → List Nat → Option (List (List Bool))
  | done, [] => if (places.drop done).all (· == 0) then some [] else none
  | done, c :: cs =>
    let mine := (places.take c).drop done
    if c < done ∨ 75 < c ∨ !(rising mine) then none
    else (hintsFrom places c cs).map fun l => ((List.range 256).map fun k => mine.contains k) :: l
/-- HintBitUnpack. -/
def hintUnpack (l : List Byte) : Option (List (List Bool)) :=
  hintsFrom ((l.take 75).map BitVec.toNat) 0 ((l.drop 75).map BitVec.toNat)

/-! ### Keys -/

/-- The key pair a seed of 32 bytes gives. -/
structure Keys where
  rho : List Byte
  key : List Byte
  a : List (List Poly)
  s1 : List Poly
  s2 : List Poly
  t : List Poly

/-- ML-DSA.KeyGen_internal. -/
def keyGen (seed : List Byte) : Keys :=
  let h := shake256 (seed ++ [8, 7]) 128
  let a := expandA (h.take 32)
  let sec := (h.drop 32).take 64
  let s1 := (List.range 7).map (expandS sec)
  let s2 := (List.range 8).map fun r => expandS sec (r + 7)
  { rho := h.take 32, key := h.drop 96, a, s1, s2, t := List.zipWith polyAdd (apply a (s1.map ntt)) s2 }

/-- Its public key, 2,592 bytes. -/
def Keys.pk (k : Keys) : List Byte := pkEncode k.rho (k.t.map fun p => p.map fun r => (power2Round r).1)

/-! ### Signing -/

/-- One attempt of ML-DSA.Sign_internal with the counter `n`; none where it is rejected. -/
def attempt (k : Keys) (mu rho : List Byte) (n : Nat) : Option (List Byte) :=
  let y := expandMask rho n
  let w := apply k.a (y.map ntt)
  let ct := shake256 (mu ++ w1Encode (w.map fun p => p.map highBits)) 64
  let c := ntt (sampleInBall ct)
  let times := fun p : Poly => intt (polyMul c (ntt p))
  let z := List.zipWith polyAdd y (k.s1.map times)
  let low := List.zipWith polySub w (k.s2.map times)
  let ct0 := k.t.map fun p => times (p.map fun r => residue (power2Round r).2)
  let h := List.zipWith (fun p r => List.zipWith (fun x y => makeHint (sub 0 x) ((y + x) % q)) p r) ct0 low
  if 524168 ≤ norm z ∨ 261768 ≤ norm (low.map fun p => p.map lowBits) ∨ gamma2 ≤ norm ct0 ∨ 75 < (h.flatten.filter id).length then none
  else some (ct ++ z.flatMap (fun p => packBits 20 (p.map fun x => sub (2 ^ 19) x)) ++ hintPack h)

/-- Attempts until one is not rejected, as many as the counter of 16 bits has room for. -/
def attempts (k : Keys) (mu rho : List Byte) : Nat → Nat → List Byte
  | 0, _ => []
  | fuel + 1, n => match attempt k mu rho n with
    | some sig => sig
    | none => attempts k mu rho fuel (n + 7)

/-- ML-DSA.Sign_internal of a message that carries its context string, 4,627 bytes. -/
def sign (seed msg entropy : List Byte) : List Byte :=
  let k := keyGen seed
  let mu := shake256 (shake256 k.pk 64 ++ msg) 64
  attempts k mu (shake256 (k.key ++ entropy ++ mu) 64) 9362 0

/-! ### Verification -/

/-- ML-DSA.Verify_internal of a message that carries its context string. -/
def verifyInternal (pk msg sig : List Byte) : Bool :=
  let t1 := (pieces 320 8 (pk.drop 32)).map (unpackBits 10 256)
  let ct := sig.take 64
  let z := (pieces 640 7 (sig.drop 64)).map fun b => (unpackBits 20 256 b).map fun x => sub (2 ^ 19) x
  match hintUnpack (sig.drop 4544) with
  | none => false
  | some h =>
    let mu := shake256 (shake256 pk 64 ++ msg) 64
    let c := ntt (sampleInBall ct)
    let az := (expandA (pk.take 32)).map fun row => dot row (z.map ntt)
    let w := List.zipWith (fun p t => intt (polySub p (polyMul c (ntt (polyScale 8192 t))))) az t1
    let w1 := List.zipWith (fun hp p => List.zipWith useHint hp p) h w
    decide (norm z < 524168) && ct == shake256 (mu ++ w1Encode w1) 64

/-- ML-DSA.Verify with an empty context string. -/
def verify (pk msg sig : List Byte) : Bool := pk.length == 2592 && sig.length == 4627 && verifyInternal pk (0 :: 0 :: msg) sig

end Sys2Proof.Machine.MlDsa
end

