-- ==== Sys2Proof/Machine/PortReads.lean ====
section
/-! DEFINITION. What a read of a port or of a window answers: 17 R335, R354, R355; 18 R368; 19 R376 to R379, R391, R392;
20 R397, R404, R411; 21 R419, R426, R430. -/

namespace Sys2Proof.Machine

/-- STATE of R335. -/
def queueStateCode : QueueState → Nat
  | .disabled => 0
  | .idle => 1
  | .run => 2
  | .blocked => 3
  | .draining => 4
  | .aborting => 5
  | .stopped => 6
  | .malformed => 7

/-- STATE. -/
def reelStateCode : ReelState → Nat
  | .off => 0
  | .train => 1
  | .wait => 2
  | .run => 3
  | .resync => 4

/-- HSTATE. -/
def headStateCode : HeadState → Nat
  | .off => 0
  | .on => 1
  | .refused => 2

/-- Teams a node runs: those of its chosen variant, or of its first (R345, R350). -/
def nodeTeams (n : Node) : Nat := ((n.variants[n.chosen.getD 0]?).map (·.teams)).getD 0

/-- A node holds a pool slot from READY until its last team is placed, or until it is killed (R348, R352). -/
def holdsSlot (n : Node) : Bool := !n.aborted && (n.st == .ready || (n.st == .running && decide (n.placed < nodeTeams n)))

/-- A dword of a queue's register block (R335). -/
def queueRead (q : Queue) (off : Nat) : Word :=
  match off with
  | 0x00 => q.rbase
  | 0x08 => BitVec.ofNat 64 ((if q.en then 2 ^ 24 else 0) + q.weight.toNat * 2 ^ 16 + q.part.toNat * 2 ^ 8 + q.log2n.toNat)
  | 0x18 => q.pub.setWidth 64
  | 0x20 => q.head.setWidth 64
  | 0x28 => BitVec.ofNat 64 (q.err.toNat * 2 ^ 8 + queueStateCode q.st)
  | 0x30 => BitVec.ofNat 64 q.ctx
  | _ => 0

/-- TCTL of a thread (R355). -/
def tctlRead (t : Tctl) : Word :=
  BitVec.ofNat 64 ((if t.frozen then 2 ^ 15 else 0) + (if t.halted then 2 ^ 14 else 0) + (if t.spool then 2 ^ 7 else 0) +
    (if t.bound then 2 ^ 6 else 0) + t.queue.val)

/-- Free slots of a die's pool (R351). -/
def poolFree (x : Die) : Nat := 4096 - (x.nodes.filter holdsSlot).length

/-- A reel port read. -/
def reelRead (s : State) (port : Nat) : Word :=
  let r := s.reel
  match port with
  | 0x1600 => r.rtbase0
  | 0x1608 => r.rtbase1
  | 0x1610 => BitVec.ofNat 64 ((if r.lock then 2 else 0) + (if r.run then 1 else 0))
  | 0x1620 => BitVec.ofNat 64 (r.terr.toNat * 256 + (if r.inForce then 16 else 0) + reelStateCode r.st)
  | _ =>
    if 0x1630 ≤ port ∧ port < 0x1670 then
      let l := r.links[Fin.ofNat 8 ((port - 0x1630) / 8)]
      BitVec.ofNat 64 (l.rxBad * 2 ^ 32 + l.peer.toNat * 2 ^ 24 + l.lat % 2 ^ 23 * 2 + (if l.up then 1 else 0))
    else 0

/-- A read of 0x1680: seconds and nanoseconds, SECHI latched (R397). -/
def secloRead (s : State) : State × Word :=
  ({ s with stage := { s.stage with hiLatch := BitVec.ofNat 16 (s.stage.sec / 2 ^ 32) } },
   BitVec.ofNat 64 (s.stage.sec % 2 ^ 32 * 2 ^ 32 + s.stage.nsec % 2 ^ 32))

/-- Word 1 of the head of port `e`'s timestamp queue, which the read removes (R397). -/
def stampTake (s : State) (e : Fin 2) : State × Word :=
  match (s.die e).stamps with
  | [] => (s, 0)
  | p :: rest => (s.onDie e fun x => { x with stamps := rest }, p.2.setWidth 64)

/-- Word 0 of the head of port `e`'s timestamp queue. -/
def stampPeek (s : State) (e : Fin 2) : Word := (((s.die e).stamps.head?).map (·.1)).getD 0

/-- A time port read (R397): 0x1680 and the timestamp queues' word 1 have their effect. -/
def timeRead (s : State) (port : Nat) : State × Word :=
  match port with
  | 0x1680 => secloRead s
  | 0x1688 => (s, s.stage.hiLatch.setWidth 64)
  | 0x1698 => (s, s.stage.rate.setWidth 64)
  | 0x16A0 => (s, stampPeek s 0)
  | 0x16A8 => stampTake s 0
  | 0x16B0 => (s, stampPeek s 1)
  | 0x16B8 => stampTake s 1
  | _ => (s, 0)

/-- A dword of a head's ports (R411). -/
def headRead (h : Head) (off : Nat) : Word :=
  match off with
  | 0x00 => h.cfg
  | 0x08 => h.timing
  | 0x10 => h.rate
  | 0x18 => h.phase
  | 0x20 => h.image
  | 0x28 => BitVec.ofNat 64 (h.frame % 2 ^ 32 * 2 ^ 32 + h.late.toNat * 2 ^ 16 + h.underrun.toNat)
  | 0x30 => BitVec.ofNat 64 (h.flips.length * 2 ^ 8 + headStateCode h.st)
  | 0x38 => h.bg.setWidth 64
  | _ => 0

/-- THROT (R419). -/
def throtWord (x : Die) : Word :=
  BitVec.ofNat 64 (packNat 1 (fun i => if (x.cores[Fin.ofNat 24 i]).throttled then 1 else 0) 24)

/-- Spool, shootdown and partition ports (R368). -/
def spoolRead (x : Die) (p : Nat) : Word :=
  match p with
  | 0x1400 => x.spBase
  | 0x1408 => BitVec.ofNat 64 ((if x.spEn then 256 else 0) + x.spLog2n)
  | 0x1410 => x.spHead.setWidth 64
  | 0x1418 => x.spTail.setWidth 64
  | 0x1420 => BitVec.ofNat 64 (x.drops * 65536 + x.outst.length % 8192)
  | 0x1430 => x.sdva
  | 0x1440 => if x.shootdown.isSome then 1 else 0
  | 0x1448 => x.ptBase
  | 0x1458 => BitVec.ofNat 64 (x.perr.toNat * 4096 + (if x.partOp.isSome then 256 else 0) + x.res.toNat)
  | _ => 0

/-- A telemetry counter (R426). -/
def counterRead (x : Die) (i : Nat) : Word := BitVec.ofNat 64 (x.counters[Fin.ofNat 16 i])

/-- Energy, telemetry and error-log ports (R355, R419, R426, R430). -/
def meterRead (s : State) (d : Fin 2) (p : Nat) : Word :=
  let x := s.die d
  if p < 0x1840 then BitVec.ofNat 64 (x.rem[Fin.ofNat 8 ((p - 0x1800) / 8)])
  else if p < 0x1880 then x.ecfg[Fin.ofNat 8 ((p - 0x1840) / 8)]
  else if p < 0x18C0 then BitVec.ofNat 64 (x.pused[Fin.ofNat 8 ((p - 0x1880) / 8)])
  else match p with
    | 0x18C0 => s.etBase
    | 0x18C8 => s.roveFloor
    | 0x18D0 => BitVec.ofNat 64 x.cal
    | 0x18D8 => BitVec.ofNat 64 x.sysUsed
    | 0x18E0 => BitVec.ofNat 64 s.plimit
    | 0x18E8 => BitVec.ofNat 64 x.fgrant
    | 0x18F0 => throtWord x
    | 0x1A00 => BitVec.ofNat 64 x.clock
    | 0x1B00 => x.elBase
    | 0x1B08 => BitVec.ofNat 64 ((if x.elEn then 256 else 0) + x.elLog2n)
    | 0x1B10 => x.elHead.setWidth 64
    | 0x1B18 => x.elTail.setWidth 64
    | 0x1B20 => BitVec.ofNat 64 ((if x.fatal then 2 else 0) + (if x.elogQ.any (·.kind != 1) then 1 else 0))
    | _ => if 0x1A00 ≤ p ∧ p < 0x1A80 then counterRead x ((p - 0x1A00) / 8) else 0

/-- FKOWN of a knot (R435). -/
def fkownRead (x : Die) (p : Nat) : Word := (tblGetD x.fkown ((p - 0x2000) / 8) 0).setWidth 64

/-- Ports that a map assigns; the range of the spool ports is assigned whole (R355, R368). -/
def portAssigned (p : Nat) : Bool :=
  p % 8 == 0 &&
  (decide (p < 0x1210) || (decide (0x1400 ≤ p) && decide (p < 0x1500)) || [0x1600, 0x1608, 0x1610, 0x1618, 0x1620].contains p ||
   (decide (0x1630 ≤ p) && decide (p < 0x1670)) || (decide (0x1680 ≤ p) && decide (p < 0x16C0)) ||
   (decide (0x1700 ≤ p) && decide (p < 0x1780)) || (decide (0x1800 ≤ p) && decide (p < 0x18F8)) ||
   (decide (0x1A00 ≤ p) && decide (p < 0x1A80)) || (decide (0x1B00 ≤ p) && decide (p < 0x1B28)) ||
   (decide (0x2000 ≤ p) && decide (p < 0x6000)))

/-- A port's content without effect. -/
def portPeek (s : State) (d : Fin 2) (p : Nat) : Word :=
  let x := s.die d
  if p < 0x1000 then queueRead (x.queues[Fin.ofNat 64 (p / 64)]) (p % 64)
  else if p < 0x1200 then tctlRead (x.tctl[Fin.ofNat 64 ((p - 0x1000) / 8)])
  else if p = 0x1200 then BitVec.ofNat 64 (poolFree x)
  else if 0x1400 ≤ p ∧ p < 0x1500 then spoolRead x p
  else if 0x1600 ≤ p ∧ p < 0x1670 then reelRead s p
  else if 0x1680 ≤ p ∧ p < 0x16C0 then (timeRead s p).2
  else if 0x1700 ≤ p ∧ p < 0x1780 then headRead (x.heads[Fin.ofNat 2 ((p - 0x1700) / 64)]) ((p - 0x1700) % 64)
  else if 0x1800 ≤ p ∧ p < 0x1C00 then meterRead s d p
  else if 0x2000 ≤ p ∧ p < 0x6000 then fkownRead x p
  else 0

/-- A port read: the time ports latch and take (R397). -/
def portRead (s : State) (d : Fin 2) (p : Nat) : State × Word :=
  if 0x1680 ≤ p ∧ p < 0x16C0 then timeRead s p else (s, portPeek s d p)

/-- The seed of the identity key pair (R386). -/
def identitySeed : List Byte := (sha3 (toBytes Config.uds.toNat 32 ++ [0x49, 0x44])).take 32

/-- The identity public key, 2,592 bytes, and DEVID (R386). -/
def identityKey : List Byte := (MlDsa.keyGen identitySeed).pk

def deviceId : List Byte := sha3 identityKey

/-- A list cut or filled with zeros to `n` bytes. -/
def fitBytes (n : Nat) (l : List Byte) : List Byte := (l ++ List.replicate (n - l.length) 0).take n

/-- Dword at an offset of a byte field. -/
def byteField (l : List Byte) (off : Nat) : Word := BitVec.ofNat 64 (ofBytes (fitBytes 8 (l.drop off)))

/-- A dword of the block without effect; the HIRQ queues are read by `hostRead`. -/
def hostPeek (h : HostBlock) (off : Nat) : Word :=
  match off with
  | 0x0010 => h.bootStat.setWidth 64
  | 0x0018 => if h.poolRdy then 1 else 0
  | 0x0028 => BitVec.ofNat 64 (h.svnMin[(1 : Fin 4)] + h.svnMin[(2 : Fin 4)] * 256 + h.svnMin[(3 : Fin 4)] * 65536)
  | 0x0100 => if h.lock4 then 0x1000000 else 0
  | 0x0108 => BitVec.ofNat 64 ((if h.err then 256 else 0) + (if h.romMode then 2 else 0) + (if h.busy.isSome then 1 else 0))
  | _ =>
    if 0x1000 ≤ off ∧ off < 0x1040 then byteField h.nonce (off - 0x1000)
    else if 0x1100 ≤ off ∧ off < 0x1140 then byteField h.extBuf (off - 0x1100)
    else if 0x2000 ≤ off ∧ off < 0x2A20 then byteField identityKey (off - 0x2000)
    else if 0x3000 ≤ off ∧ off < 0x3200 then byteField h.mr.toList.flatten (off - 0x3000)
    else if 0x4000 ≤ off ∧ off < 0x5518 then (if h.busy.isSome then 0 else byteField (h.report.take 5395) (off - 0x4000))
    else 0

/-- Values in a die's HIRQ queue, then the writes that wait for room. -/
def hirqOf (s : State) (d : Fin 2) : List (BitVec 32) := if d = 0 then s.host.hirq0 else s.host.hirq1

def setHirq (s : State) (d : Fin 2) (l : List (BitVec 32)) : State :=
  if d = 0 then { s with host := { s.host with hirq0 := l } } else { s with host := { s.host with hirq1 := l } }

/-- A read of the HIRQ queue: the oldest value with VALID, removed (R392). -/
def hirqTake (s : State) (d : Fin 2) : State × Word :=
  match hirqOf s d with
  | [] => (s, 0)
  | v :: rest => (setHirq s d rest, BitVec.ofNat 64 (2 ^ 63 + v.toNat))

/-- A load of a dword of the block. -/
def hostRead (s : State) (off : Nat) : State × Word :=
  if off = 0 then hirqTake s 0 else if off = 8 then hirqTake s 1 else (s, hostPeek s.host off)

/-- Queue and register of an offset in a queue window; bytes 64 to 4,095 of a page are no register. -/
def queuePage (off : Nat) : Option (Fin 64 × Nat) :=
  if off % 4096 < 64 then some (Fin.ofNat 64 (off / 4096), off % 4096) else none

/-- The aligned dword at an address outside the pool read; a unit outside the module supplies free values (log entry 11). -/
def windowRead (s : State) (pa : Nat) : State × Word :=
  match regionOf pa with
  | .control d off => if portAssigned off then portRead s d off else (s, 0)
  | .queues d off => match queuePage off with
    | some (q, o) => (s, queueRead (s.queue ⟨d, q⟩) o)
    | none => (s, 0)
  | .hostBlock off => hostRead s off
  | .imsic _ => (s, 0)
  | .imsicM _ => (s, 0)
  | .ecam _ => ({ s with freeCtr := s.freeCtr + 1 }, Config.deviceRead s.freeCtr pa)
  | .pcie _ => ({ s with freeCtr := s.freeCtr + 1 }, Config.deviceRead s.freeCtr pa)
  | .pool => (s, 0)
  | .reserved => (s, 0)

/-- A window whose accesses are made to the enclosing aligned dword (R378). -/
def dwordWindow (pa : Nat) : Bool :=
  match regionOf pa with
  | .control _ _ => true
  | .queues _ _ => true
  | .hostBlock _ => true
  | _ => false

end Sys2Proof.Machine
end

