-- ==== Sys2Proof/Machine/Scratch.lean ====
section
/-! DEFINITION. Scratchpad and tile-store storage of a team (07 R139, R140; 08 R194; 11 R255, R256, R261), and soft errors
met by a read of on-chip storage (21 R429). -/

namespace Sys2Proof.Machine

/-- A byte of a team's scratchpad; one not written since placement is a free value (R235; log entry 5). -/
def spdByte (t : Team) (off : Nat) : Byte := (tblGet t.scratch off).getD (Config.padByte t.seed off)
/-- `n` bytes from an offset. -/
def spdRead (t : Team) (off n : Nat) : List Byte := (List.range n).map fun k => spdByte t (off + k)
/-- What a byte held before the stores to it that come after a reader's point of order: `known` says which writers come before the
reader. -/
def looseFor (t : Team) (known : LooseBy → Bool) (off : Nat) : List LooseByte :=
  (tblGetD t.loose.bytes off []).takeWhile fun e => !(known e.by_)
/-- A byte before the store of a number, as a reader may find it. -/
def spdBefore (t : Team) (known : LooseBy → Bool) (seq off : Nat) : Byte :=
  match ((looseFor t known off).filter fun e => decide (seq ≤ e.seq)).getLast? with
  | some e => e.old
  | none => spdByte t off
/-- The whole values that a reader may find in `n` bytes: what they hold, and what they held before each store to them that nothing
orders before it (R173, R181, R218, R227). -/
def spdValues (t : Team) (known : LooseBy → Bool) (off n : Nat) : List (List Byte) :=
  let seqs := ((List.range n).flatMap fun k => (looseFor t known (off + k)).map (·.seq)).eraseDups
  (spdRead t off n :: seqs.map fun q => (List.range n).map fun k => spdBefore t known q (off + k)).eraseDups
/-- The commands whose stores come before a command that has waited on a knot: those that signalled it (R172, R218). -/
def knownBy (t : Team) (wait : Option KnotRef) : LooseBy → Bool
  | .cmd id => wait.isSome && tblGet t.loose.signalled id == wait
  | .warp _ => false
/-- An element of `n` bytes as a command that has waited on a knot reads it: one of its whole values, a choice left open (R181; log
entry 10). -/
def spdFetch (s : State) (t : Team) (wait : Option KnotRef) (off n : Nat) : State × List Byte :=
  match spdValues t (knownBy t wait) off n with
  | v :: w :: l =>
    let (k, s) := s.choose (l.length + 2)
    (s, (v :: w :: l).getD k v)
  | _ => (s, spdRead t off n)
/-- A store about to replace `n` bytes kept for the reads that nothing orders after it. -/
def markLoose (t : Team) (by_ : LooseBy) (off n : Nat) : Team :=
  { t with loose := { t.loose with
      seq := t.loose.seq + 1
      bytes := (List.range n).foldl (fun l k =>
        tblSet l (off + k) (⟨t.loose.seq, by_, spdByte t (off + k)⟩ :: tblGetD l (off + k) [])) t.loose.bytes } }
/-- The stores of writers come before every later read: what their bytes held before is gone. -/
def settle (l : Loose) (known : LooseBy → Bool) : Loose :=
  { l with bytes := (l.bytes.map fun e => (e.1, e.2.takeWhile fun b => !(known b.by_))).filter fun e => !(e.2.isEmpty) }
/-- Bytes written from an offset. -/
def spdWrite (t : Team) (off : Nat) : List Byte → Team
  | [] => t
  | b :: bs => spdWrite { t with scratch := tblSet t.scratch off b } (off + 1) bs

/-- The physical byte of a team's scratchpad offset, and the bank and bank group of one (R256). -/
def spdPhys (t : Team) (off : Nat) : Nat := t.sbase + off
def spdBank (off : Nat) : Nat := bits off 9 3
def spdGroup (off : Nat) : Nat := bits off 9 7
/-- The physical row of a team's tile row, the same in each of its plies (R261). -/
def tilePhys (t : Team) (row : Nat) : Nat := t.row0 + row

/-- Key of a row of a ply's tile store. -/
def tileKey (ply row : Nat) : Nat := 256 * ply + row
/-- A row of a ply of a team; one not written since placement holds free values (R235, R261; log entry 5). -/
def tileRow (t : Team) (ply row : Nat) : VReg :=
  (tblGet t.tiles (tileKey ply row)).getD
    (buildReg 8 fun k => (Config.padByte t.seed (2 ^ 23 + 512 * tileKey ply row + k)).toNat)
/-- A row written. -/
def tileSet (t : Team) (ply row : Nat) (r : VReg) : Team := { t with tiles := tblSet t.tiles (tileKey ply row) r }

/-- A team of the cluster by rank. -/
def State.clusterTeam (s : State) (cluster rank : Nat) : Option Team :=
  s.teams.find? fun t => t.cluster == cluster && t.crank == rank

/-- The team and offset a scratchpad address names, for `n` bytes, or none where R139 does not hold: .spd for space 1, .rsp
for space 2. -/
def spdTarget (s : State) (w : Warp) (space : Nat) (addr n : Nat) : Option (Nat × Nat) :=
  match s.findTeam w.team with
  | none => none
  | some t =>
    if space = 1 then (if addr + n ≤ t.kernel.scratch then some (t.id, addr) else none)
    else if addr / 2 ^ 26 ≠ 0 ∨ w.cw * w.ch ≤ addr / 2 ^ 22 then none
    else match s.clusterTeam t.cluster (addr / 2 ^ 22) with
      | none => none
      | some u => if addr % 2 ^ 22 + n ≤ u.kernel.scratch then some (u.id, addr % 2 ^ 22) else none

/-- A soft error present at one of the sites (R429). -/
def softHit (s : State) (sites : List ErrSite) : Option ErrSite := sites.find? fun e => s.softErrs.contains e

/-- STRUCT and word index of a site, the address of a sector of the pool, taken as one of LPDDR-6 (R429, R430). -/
def siteCode : ErrSite → Nat × Nat
  | .reg _ r => (4, match r with
      | .x n => n
      | .v n => 64 + n
      | .m n => 128 + n
      | .cb => 144)
  | .tile _ row => (5, row)
  | .scratch _ dw => (6, dw)
  | .knot k => (7, match k with
      | .team _ i => i
      | .far n => n)
  | .sector n => (0, 32 * n)

/-- sr.tval of an error in on-chip storage (R23, R429). -/
def siteTval (e : ErrSite) : Word :=
  match e with
  | .sector n => BitVec.ofNat 64 (32 * n)
  | _ => BitVec.ofNat 64 (2 ^ 63 + (siteCode e).1 * 2 ^ 32 + (siteCode e).2)

/-- Records are posted, and the ring has room for one (R430). -/
def elogRoom (x : Die) : Bool := x.elEn && decide ((x.elHead - x.elTail).toNat < 2 ^ x.elLog2n)

/-- A record of an uncorrectable error joins those its die will post, up to 16 of them; what does not is counted in counter 13, and the
error in counter 12 (R426, R430). -/
def logError (s : State) (d : Fin 2) (r : ElogRec) : State :=
  s.onDie d fun x =>
    let x := countUp x 12 1
    if (x.elogQ.filter (·.kind != 1)).length < 16 then { x with elogQ := x.elogQ ++ [r] } else countUp x 13 1

/-- Corrections at a sector of LPDDR-6 since its last record, saturating (R430). -/
def mendedUp (x : Die) (sector n : Nat) : Nat := min (tblGetD x.mended sector 0 + n) (2 ^ 32 - 1)

/-- A correction in LPDDR-6 at a sector: counter 10, and a record of KIND 1, dropped where there is no room for one (R426, R428, R430). -/
def logMended (s : State) (d : Fin 2) (ctx sector : Nat) : State :=
  s.onDie d fun x =>
    let n := mendedUp x sector 1
    let x := countUp x 10 1
    if elogRoom x then
      { x with mended := tblErase x.mended sector,
               elogQ := x.elogQ ++ [{ kind := 1, struct := 0, ctx, count := n, agentId := 0, addr := 32 * sector }] }
    else countUp { x with mended := tblSet x.mended sector n } 13 1

/-- Records of KIND 1 that wait are dropped where the log has no room for them: their corrections are still to be reported (R430). -/
def dropMended (x : Die) : Die :=
  if elogRoom x then x
  else
    let l := x.elogQ.filter (·.kind == 1)
    countUp { x with elogQ := x.elogQ.filter (·.kind != 1),
                     mended := l.foldl (fun t r => tblSet t (r.addr / 32) (min (tblGetD t (r.addr / 32) 0 + r.count) (2 ^ 32 - 1))) x.mended }
      13 l.length

/-- The issuing warp freezes with UNCORRECTED, and the error is logged as consumed (R429, R430). -/
def uncorrected (s : State) (struct addr : Nat) (tval : Word) : State :=
  let d := agentDie s.cur.who
  let s := logError s d { kind := 3, struct, ctx := s.cur.ctx, count := 0, agentId := agentIdBits s.cur.who, addr }
  violate s cUncorrected 0 tval

/-- The issuing warp read a site with a soft error. -/
def softStop (s : State) (e : ErrSite) : State := uncorrected s (siteCode e).1 (siteCode e).2 (siteTval e)

/-- The dwords `n` bytes from an offset lie in. -/
def dwordsOf (off n : Nat) : List Nat := (List.range ((off + n - 1) / 8 - off / 8 + 1)).map (· + off / 8)

end Sys2Proof.Machine
end

