-- ==== Sys2Proof/Machine/Walk.lean ====
section
/-! DEFINITION. Translation of an address: page walks and the TLBs that spare them (18 R356 to R358; 17 R353). -/

namespace Sys2Proof.Machine

/-- The addresses of the entries a walk reads from a table down (R356). -/
def walkReads (m : Memory) (va : Nat) : Nat → Nat → List Nat
  | level, table =>
    if !(inPool table) then []
    else
      let at_ := table + 8 * (va / 2 ^ (12 + 9 * level) % 512)
      let pte := m.num at_ 8
      if pteBad pte || pteLeaf pte || ptePbmt pte != 0 then [at_]
      else match level with
        | 0 => [at_]
        | l + 1 => at_ :: walkReads m va l (ptePpn pte * 4096)

/-- A walk reads each entry at its L2 home slice, on account of a partition, and takes no lease (R357, R423). -/
def walkTraffic (s : State) (d : Fin 2) (part : Option (Fin 8)) (l : List Nat) : State :=
  l.foldl (fun s a => agentRead s (dieAgent d) part (a / 128)) s

/-- Translation of `va` in a context with root page number `ppn` for a request of a partition (R356, R357): a TLB entry that permits
the access serves it; otherwise the tables are walked, and a walk that succeeds fills the TLB. A failure is not cached. -/
def translateFrom (part : Option (Fin 8)) (s : State) (d : Fin 2) (ctx ppn : Nat) (va : Word) (acc : Access) : State × Except Nat Phys :=
  let a := va.toNat % 2 ^ 57
  if va.toNat / 2 ^ 56 ≠ 0 ∧ va.toNat / 2 ^ 56 ≠ 255 then (s, .error 0)
  else
    let cached := match tlbFind (s.die d) ctx a with
      | some e => if leafReason e.level e.pte.toNat a acc = none then some e else none
      | none => none
    match cached with
    | some e =>
      let pa := leafPa e.level e.pte.toNat a
      (s, .ok ⟨pa, leafKind e.pte.toNat pa⟩)
    | none =>
      let s := walkTraffic s d part (walkReads s.mem a 4 (ppn * 4096))
      match walkFrom s.mem a 4 (ppn * 4096) with
      | .error r => (s, .error r)
      | .ok (level, pte) =>
        match leafReason level pte a acc with
        | some r => (s, .error r)
        | none =>
          let pa := leafPa level pte a
          (s.onDie d fun x => tlbFill x ⟨ctx, level, a / 2 ^ (12 + 9 * level), BitVec.ofNat 64 pte⟩,
           .ok ⟨pa, leafKind pte pa⟩)

/-- Translation for a request of no partition. -/
def translate (s : State) (d : Fin 2) (ctx ppn : Nat) (va : Word) (acc : Access) : State × Except Nat Phys :=
  translateFrom none s d ctx ppn va acc

/-- Translation by a unit of a core, through the core's TLBs before the die's (R358). The spec gives the core's TLBs no size: none of
their entries is pushed out (log entry 47). -/
def translateOn (s : State) (d : Fin 2) (core : Option (Fin 24)) (ctx ppn : Nat) (va : Word) (acc : Access) :
    State × Except Nat Phys :=
  match core with
  | none => translate s d ctx ppn va acc
  | some c =>
    let a := va.toNat % 2 ^ 57
    let own := match tlbCovers (s.coreAt d c).tlb ctx a with
      | some e => if leafReason e.level e.pte.toNat a acc = none ∧ (va.toNat / 2 ^ 56 = 0 ∨ va.toNat / 2 ^ 56 = 255) then some e else none
      | none => none
    match own with
    | some e =>
      let pa := leafPa e.level e.pte.toNat a
      (s, .ok ⟨pa, leafKind e.pte.toNat pa⟩)
    | none =>
      match translateFrom (corePart (s.die d) d c) s d ctx ppn va acc with
      | (s, .error r) => (s, .error r)
      | (s, .ok ph) =>
        (s.onCore d c fun x => match tlbFind (s.die d) ctx a with
          | some e => { x with tlb := e :: x.tlb.filter fun o => !(o.ctx == e.ctx && o.level == e.level && o.page == e.page) }
          | none => x, .ok ph)

/-- Translation for a distaff thread: physical, PMA in the pool and IO in the windows (R353). -/
def translateThread (va : Word) : Except Nat Phys :=
  match regionOf va.toNat with
  | .pool => .ok ⟨va.toNat, .pma⟩
  | .reserved => .error 0
  | _ => .ok ⟨va.toNat, .io⟩

/-- The partition a warp's requests are made for. -/
def agentPart (s : State) (a : Agent) : Option (Fin 8) := (agentCore a).bind fun c => corePart (s.die (agentDie a)) (agentDie a) c

/-- The context record in force for a warp: its team's (R359). -/
def warpCtx (s : State) (w : Warp) : Option CtxRec := (s.findTeam w.team).map (·.ctxRec)

/-- Translation for an agent: a warp through its team's record, a thread physically. -/
def translateFor (s : State) (w : Warp) (va : Word) (acc : Access) : State × Except Nat Phys :=
  if isThread w.who then (s, translateThread va)
  else translateOn s (agentDie w.who) (agentCore w.who) w.ctx (((warpCtx s w).map (·.ppn)).getD 0) va acc

end Sys2Proof.Machine
end

