-- ==== Sys2Proof/Machine/Mem.lean ====
section
/-! DEFINITION. Accesses to the pool: leases and logical time (09 R221, R222), the L1 lease cache (11 R262, R263), stores at
the home, atomics (07 R143, R144), and accesses from outside a die (09 R221). -/

namespace Sys2Proof.Machine

/-- The die other than `d`. -/
def otherDie (d : Fin 2) : Fin 2 := if d = 0 then 1 else 0

/-- A renewal at the home (R221): rts rises to TC + L. -/
def renewLease (s : State) (d : Fin 2) (sec lease : Nat) : State × Nat × Nat :=
  let (wts, rts) := l2Get (s.die d) sec
  let rts := max rts ((s.die d).tc + lease)
  (s.onDie d fun x => { x with l2 := tblSet x.l2 sec (wts, rts) }, wts, rts)

/-- A party's clock and place for pool accesses: die, core, the partition its requests are made for (R423, R425), wclk and lease
length, and its context's compression ranges (R268). -/
structure Party where
  d : Fin 2
  core : Option (Fin 24)
  part : Option (Fin 8)
  wclk : Nat
  lease : Nat
  ranges : List (BitVec 128)
  deriving DecidableEq, Repr

/-- The copy of a sector a core's L1 holds under a lease live for `wclk` (R221). -/
def l1Look (s : State) (d : Fin 2) (c : Fin 24) (wclk sec : Nat) : Option L1Sector :=
  match tblGet (s.coreAt d c).l1 sec with
  | some l => if wclk ≤ l.rts then some l else none
  | none => none

/-- Compression of one sector on the mesh (R269): bytes sent, for elements of `w` bits. -/
def meshBytes (data : BitVec 256) (w : Nat) : Nat :=
  let es := (List.range (256 / w)).map fun k => elemBits data w k
  let e0 := es.headD 0
  let near := fun lim : Int => es.all fun e =>
    let d := (BitVec.ofNat w (e + 2 ^ w - e0)).toInt
    decide (-lim ≤ d) && decide (d < lim)
  if data = 0 then 0
  else if es.all (· == e0) then 8
  else if w ≠ 8 ∧ near (if w = 16 then 8 else 128) = true then 16
  else 32
where
  /-- Element `k` of `w` bits of a sector. -/
  elemBits (data : BitVec 256) (w k : Nat) : Nat := data.toNat / 2 ^ (w * k) % 2 ^ w

/-- The element width of the compression range in force at a virtual address, the range of lower index first (R268). -/
def rangeWidth (ranges : List (BitVec 128)) (va : Word) : Option Nat :=
  (ranges.find? fun r =>
    let page := va.toNat % 2 ^ 57 / 4096
    let base := (r.extractLsb' 12 45).toNat
    r.getLsbD 0 && decide (base ≤ page) && decide (page < base + (r.extractLsb' 64 36).toNat)).map fun r =>
      8 * 2 ^ (r.extractLsb' 1 2).toNat

/-- A sector of a PMA page sent over the mesh: the bytes its compression saves are counted (R269, R270, R426). -/
def meshSend (s : State) (d : Fin 2) (ranges : List (BitVec 128)) (va : Word) (data : BitVec 256) : State :=
  s.onDie d fun x => workUp (match rangeWidth ranges va with
    | none => x
    | some w => countUp x 8 (32 - meshBytes data w)) 11 1

/-- A sector asked for at the home slice by a core's L1 (R221): its copy with the lease, and whether its line missed the system
cache. -/
def l1Ask (s : State) (d : Fin 2) (part : Option (Fin 8)) (lease sec : Nat) : State × L1Sector × Bool :=
  let (s, missed) := agentFetch s (dieAgent d) part (sec / 4)
  let (s, wts, rts) := renewLease s d sec lease
  (s, ⟨sectorBits s.mem sec, wts, rts⟩, missed)

/-- A fill as it leaves for the L1 of a core (R225). -/
def newFill (s : State) (d : Fin 2) (c : Fin 24) (sec : Nat) (copy : L1Sector) : Fill :=
  { sec, copy, invals := tblGetD (s.die d).invals (sec / 4) 0, drops := tblGetD (s.coreAt d c).drops sec 0 }

/-- Fills that return are installed in an L1, unless their line was invalidated, or the core stored to the sector or asked for it again
meanwhile (R210, R225, R263). -/
def installFills (s : State) (d : Fin 2) (c : Fin 24) (weak : Bool) (fs : List Fill) : State :=
  let live := fs.filter fun f =>
    tblGetD (s.die d).invals (f.sec / 4) 0 == f.invals && tblGetD (s.coreAt d c).drops f.sec 0 == f.drops
  s.onCore d c fun x => live.foldl (fun x f => l1Place x f.sec f.copy weak) x

/-- Lines of an L1 that were read become the most recently used (R262). -/
def l1Read (s : State) (d : Fin 2) (c : Fin 24) (secs : List Nat) : State :=
  (s.onDie d fun x => workUp x 7 secs.length).onCore d c fun x => secs.foldl (fun x sec => if (tblGet x.l1 sec).isSome then l1Touch x (sec / 4) false else x) x

/-- A live lease of a party's core covers a sector of a page of a kind. -/
def leased (s : State) (p : Party) (kind : PageKind) (sec : Nat) : Bool :=
  kind == .pma && p.core.any fun c => (l1Look s p.d c p.wclk sec).isSome

/-- What the fills of a read send over the mesh: a copy whose version is the one the L1 holds sends the lease alone (R262). `place`
gives the virtual address of a sector. -/
def sendFills (s : State) (d : Fin 2) (c : Fin 24) (ranges : List (BitVec 128)) (place : Nat → Option Word) (fs : List Fill) :
    State :=
  let known := fun f : Fill => match tblGet (s.coreAt d c).l1 f.sec with
    | some l => l.wts == f.copy.wts && l.data == f.copy.data
    | none => false
  (fs.eraseDups.filter fun f => !known f).foldl (fun s f => match place f.sec with
    | some va => meshSend s d ranges va f.copy.data
    | none => s) s

/-- What a request of an L1 has come to: the state, its fills, and whether it missed the system cache. -/
structure Asked where
  s : State
  fills : List Fill
  missed : Bool

/-- A fill of a sector on its way to a core's L1 will not be installed: a later request or a store of the core has overtaken it (R210,
R263). -/
def passFills (s : State) (d : Fin 2) (c : Fin 24) (sec : Nat) : State :=
  s.onCore d c fun x => { x with drops := tblSet x.drops sec (tblGetD x.drops sec 0 + 1) }

/-- A sector asked for by a core where no live lease covers it. -/
def askSector (p : Party) (c : Fin 24) (r : Asked) (sec : Nat) : Asked :=
  match l1Look r.s p.d c p.wclk sec with
  | some _ => r
  | none =>
    let (s, copy, missed) := l1Ask r.s p.d p.part p.lease sec
    let s := passFills s p.d c sec
    ⟨s, r.fills ++ [newFill s p.d c sec copy], r.missed || missed⟩

/-- The sectors of a line. -/
def lineSectors (line : Nat) : List Nat := (List.range 4).map (4 * line + ·)

/-- The missing and the expired sectors of a line asked for at once (R262). -/
def askLine (s : State) (p : Party) (c : Fin 24) (line : Nat) : Asked :=
  (lineSectors line).foldl (askSector p c) ⟨s, [], false⟩

/-- The sectors of a list that hold an uncorrectable error (R429). -/
def lostSectors (s : State) (l : List Nat) : List Nat := l.filter fun k => s.softErrs.contains (.sector k)

/-- The fills of no line with a lost sector. -/
def soundFills (fs : List Fill) (lost : List Nat) : List Fill := fs.filter fun f => !(lost.any fun b => b / 4 == f.sec / 4)

/-- Whether an agent's L2 or cache owns a line dirty (R382). -/
def ownsDirty (s : State) (a : Fin 3) (line : Nat) : Bool :=
  match tblGet s.dir line with
  | some l => l.owner == some a && ownerDirty l
  | none => false

/-- The line of an uncorrectable sector leaves the L2 of a die and the home's system cache, but where it is dirty there: no cache
installs it (R151, R429). -/
def unhold (d : Fin 2) (s : State) (sec : Nat) : State :=
  let line := sec / 4
  let s := if ownsDirty s (dieAgent d) line then s else letGo s (dieAgent d) none line
  s.onDie (lineHome line) fun x => { x with sys := x.sys.filter fun e => e.line != line || e.dirty }

/-- Uncorrectable errors met by a read that freezes nothing (R36, R429). -/
def logLost (s : State) (d : Fin 2) (ctx : Nat) (l : List Nat) : State :=
  l.foldl (fun s k => logError s d { kind := 2, struct := 0, ctx, count := 0, agentId := 0, addr := 32 * k }) s

/-- A line of a PMA page brought into a core's L1 with leases (R152, R262); one that holds an uncorrectable error is not installed
(R151, R429). Answers whether anything was asked for. -/
def fetchLine (s : State) (p : Party) (c : Fin 24) (ctx : Nat) (va : Word) (line : Nat) (weak : Bool) : State × Bool :=
  let r := askLine s p c line
  let s := sendFills r.s p.d c p.ranges (fun _ => some va) r.fills
  let lost := lostSectors s (r.fills.map (·.sec))
  (if lost = [] then installFills s p.d c weak r.fills else logLost (lost.foldl (unhold p.d) s) p.d ctx lost, !r.fills.isEmpty)

/-- A write of a die performed at its home slice (R221, R263): the sector's timestamp there, the write as one from outside
at the other die. Answers the timestamp. -/
def stampWrite (s : State) (d : Fin 2) (wclk sec : Nat) : State × Nat :=
  let (_, rts) := l2Get (s.die d) sec
  let ts := 1 + max wclk rts
  let s1 := s.onDie d fun x => { x with l2 := tblSet x.l2 sec (ts, rts) }
  let o := otherDie d
  let x := s1.die o
  let (_, ort) := l2Get x sec
  let ots := 1 + max x.xts (max x.tc ort)
  (s1.onDie o fun x => { x with l2 := tblSet x.l2 sec (ots, ort), xts := ots }, ts)

/-- A write taken in at a die from outside it (R221). -/
def stampOutside (s : State) (d : Fin 2) (sec : Nat) : State :=
  let x := s.die d
  let (_, rts) := l2Get x sec
  let ts := 1 + max x.xts (max x.tc rts)
  s.onDie d fun x => { x with l2 := tblSet x.l2 sec (ts, rts), xts := ts }

/-- Errors in sectors of the pool that writes replace whole are gone (R429). -/
def healed (l : List ErrSite) (ws : List (Nat × List Byte)) : List ErrSite :=
  l.filter fun e => match e with
    | .sector k => !((List.range 32).all fun b => ws.any fun w => decide (w.1 ≤ 32 * k + b ∧ 32 * k + b < w.1 + w.2.length))
    | _ => true

/-- The sectors `n` bytes from `pa` touch. -/
def sectorsOf (pa n : Nat) : List Nat := (List.range ((pa + n - 1) / 32 - pa / 32 + 1)).map (· + pa / 32)
/-- The lines `n` bytes from `pa` touch. -/
def linesOf (pa n : Nat) : List Nat := (List.range ((pa + n - 1) / 128 - pa / 128 + 1)).map (· + pa / 128)

/-- Bytes stored to the pool by a party of die `d` through its L2 (R263): ownership, timestamps, then the bytes, a message for each
sector. Answers the largest timestamp. -/
def dieStore (s : State) (d : Fin 2) (part : Option (Fin 8)) (wclk pa : Nat) (bs : List Byte) : State × Nat :=
  if bs = [] then (s, 0)
  else
    let s := (linesOf pa bs.length).foldl (fun s l => agentOwn s (dieAgent d) part l) (meshFlits s d (sectorsOf pa bs.length).length)
    let (s, ts) := (sectorsOf pa bs.length).foldl (fun (acc : State × Nat) sec =>
      let (s, t) := stampWrite acc.1 d wclk sec
      (s, max acc.2 t)) (s, 0)
    ({ s with mem := s.mem.write pa bs, softErrs := healed s.softErrs [(pa, bs)] }, ts)

/-- Distinct members. -/
def distinct (l : List Nat) : List Nat := l.eraseDups

/-- Several writes of one party in one message for each sector (R263): ownership and one timestamp for each sector, then the
bytes in the order given. Answers the largest timestamp. -/
def dieStores (s : State) (d : Fin 2) (part : Option (Fin 8)) (wclk : Nat) (ws : List (Nat × List Byte)) : State × Nat :=
  let lines := distinct (ws.flatMap fun w => linesOf w.1 w.2.length)
  let secs := distinct (ws.flatMap fun w => sectorsOf w.1 w.2.length)
  let s := lines.foldl (fun s l => agentOwn s (dieAgent d) part l) (meshFlits s d secs.length)
  let (s, ts) := secs.foldl (fun (acc : State × Nat) sec =>
    let (s, t) := stampWrite acc.1 d wclk sec
    (s, max acc.2 t)) (s, 0)
  ({ s with mem := ws.foldl (fun m w => m.write w.1 w.2) s.mem, softErrs := healed s.softErrs ws }, ts)

/-- Bytes read from the pool by a party of die `d` through its L2, with no L1 lease. -/
def dieLoad (s : State) (d : Fin 2) (part : Option (Fin 8)) (pa n : Nat) : State × List Byte :=
  if n = 0 then (s, []) else ((linesOf pa n).foldl (fun s l => agentRead s (dieAgent d) part l) s, s.mem.read pa n)

/-- Bytes written at their homes by a requester that is no die: a receiver or PCIe, or a hart (R221 outside write). -/
def outsideStore (s : State) (pa : Nat) (bs : List Byte) : State :=
  if bs = [] then s
  else
    let s := (sectorsOf pa bs.length).foldl (fun s sec => stampOutside (stampOutside s 0 sec) 1 sec) s
    { s with mem := s.mem.write pa bs, softErrs := healed s.softErrs [(pa, bs)] }
/-- The same with every holder's copy taken (R382 I/O write). -/
def ioStore (s : State) (pa : Nat) (bs : List Byte) : State :=
  outsideStore ((if bs = [] then [] else linesOf pa bs.length).foldl homeOwn s) pa bs

/-- A hart's store: the L3 takes the lines unique, and the bytes are written (R381, R382). -/
def hartPut (s : State) (pa : Nat) (bs : List Byte) : State :=
  outsideStore ((if bs = [] then [] else linesOf pa bs.length).foldl (fun s l => agentOwn s 2 none l) s) pa bs

/-- A core's own copies of the sectors it writes are dropped, those on their way with them (R263). -/
def dropOwnSectors (s : State) (d : Fin 2) (c : Fin 24) (pa n : Nat) : State :=
  s.onCore d c fun x => { x with
    l1 := (sectorsOf pa n).foldl tblErase x.l1
    drops := (sectorsOf pa n).foldl (fun l sec => tblSet l sec (tblGetD l sec 0 + 1)) x.drops }

/-- The largest wts at a die of the sectors `n` bytes from `pa` touch. -/
def wtsAt (s : State) (d : Fin 2) (pa n : Nat) : Nat :=
  (sectorsOf pa n).foldl (fun m sec => max m (l2Get (s.die d) sec).1) 0

/-- Result of a load: bytes, largest wts, whether every byte was there at once, what fills the L1, and whether the request missed
the system cache. -/
structure Loaded where
  bytes : List Byte
  ts : Nat
  now : Bool
  fills : List Fill
  missed : Bool
  deriving DecidableEq, Repr

/-- Nothing read, and two reads taken together. -/
def Loaded.empty : Loaded := ⟨[], 0, true, [], false⟩
def Loaded.join (a b : Loaded) : Loaded := ⟨a.bytes ++ b.bytes, max a.ts b.ts, a.now && b.now, a.fills ++ b.fills, a.missed || b.missed⟩

/-- `n` bytes within one sector of the pool read by a party (R221, R230): a PMA load of a core through its L1, whose fill is still on
its way; any other at the home or its memory controller. The version read has its wts at the party's die, for a page of any
type (log entry 48). -/
def poolRead (s : State) (p : Party) (kind : PageKind) (pa n : Nat) : State × Loaded :=
  match kind, p.core with
  | .pma, some c =>
    match l1Look s p.d c p.wclk (pa / 32) with
    | some l => (s, ⟨toBytes (l.data.toNat >>> (8 * (pa % 32))) n, l.wts, true, [], false⟩)
    | none =>
      let r := askLine s p c (pa / 128)
      (r.s, ⟨r.s.mem.read pa n, (l2Get (r.s.die p.d) (pa / 32)).1, false, r.fills, r.missed⟩)
  | .pma, none =>
    let (s, bs) := dieLoad s p.d p.part pa n
    (s, ⟨bs, wtsAt s p.d pa n, true, [], false⟩)
  | _, _ => (s.onDie (lineHome (pa / 128)) fun x => dramUp x 5 n, ⟨s.mem.read pa n, wtsAt s p.d pa n, false, [], false⟩)

/-- A write of a core to an NC or IO page of the pool (R230): one from outside at both dies, later at the writer's than its clock.
Answers the timestamp (log entry 48). -/
def controllerWrite (s : State) (p : Party) (pa : Nat) (bs : List Byte) : State × Nat :=
  let s := s.onDie p.d fun x => { x with xts := max x.xts p.wclk }
  let s := outsideStore ((if bs = [] then [] else linesOf pa bs.length).foldl homeDrop s) pa bs
  let s := s.onDie (lineHome (pa / 128)) fun x => dramUp x 6 bs.length
  (s, (s.die p.d).xts)

/-- Bytes within one sector of the pool written by a party, with the timestamp received. A write to an NC or IO page is performed at
the memory controller (R230). The writing core's own copies go (R263). -/
def poolWrite (s : State) (p : Party) (kind : PageKind) (pa : Nat) (bs : List Byte) : State × Nat :=
  let s := match p.core with
    | some c => dropOwnSectors s p.d c pa bs.length
    | none => s
  match kind with
  | .pma => dieStore s p.d p.part p.wclk pa bs
  | _ => controllerWrite s p pa bs

/-! ### Atomics (R143) -/

/-- Operations of ATOM and VATOM. -/
inductive AtomOp where
  | add
  | and
  | or
  | xor
  | min
  | max
  | xchg
  | cas
  | fadd
  | fmin
  | fmax
  deriving DecidableEq, Repr

/-- The new value of an atomic on an element of type code `t` (R143): `x` is x[D] or the lane of v[D], `b` the new value of
a compare and swap. -/
def atomNew (op : AtomOp) (t : Nat) (old x b : Nat) : Nat :=
  let w := widthOf t
  let f := (fmtOf t).getD fmtF32
  match op with
  | .add => (old + x) % 2 ^ w
  | .and => old &&& x
  | .or => old ||| x
  | .xor => old ^^^ x
  | .min => aluMin w (tySigned t) old x
  | .max => aluMax w (tySigned t) old x
  | .xchg => x
  | .cas => if old = x then b else old
  | .fadd => fpAdd f .rne old x
  | .fmin => fpMin f old x
  | .fmax => fpMax f old x

/-- An atomic's read at its point (R144): the coherent bytes, with the sector's wts at the home of a PMA line. -/
def poolAtomic (s : State) (p : Party) (kind : PageKind) (pa n : Nat) (f : Nat → Nat) : State × Nat × Nat :=
  let old := s.mem.num pa n
  let (s, ts) := poolWrite s p kind pa (toBytes (f old) n)
  (s, old, ts)

end Sys2Proof.Machine
end

