-- ==== Sys2Proof/Machine/Convert.lean ====
section
/-! DEFINITION. Conversion of vector elements (02 R46, R47, R50 to R52; 06 R127, R128), used by VCVT and XFM. -/

namespace Sys2Proof.Machine

/-- One xorshift32 step (R50). -/
def xorshift (g : BitVec 32) : BitVec 32 :=
  let g := g ^^^ (g <<< 13)
  let g := g ^^^ (g >>> 17)
  g ^^^ (g <<< 5)

/-- `n` uses of a generator (R50). -/
def advanceGen : Nat → BitVec 32 → BitVec 32
  | 0, g => g
  | n + 1, g => advanceGen n (xorshift g)

/-- The generators a seed sets (R50). -/
def seedGens (seed : BitVec 32) : Vector (BitVec 32) 128 :=
  Vector.ofFn fun lane : Fin 128 =>
    let g := seed ^^^ BitVec.ofNat 32 (lane.val * 0x9E3779B9)
    if g = 0 then 0x6D2B79F5#32 else g

/-- The rounding of code `rnd` with a generator already advanced to its use (R49, R50). -/
def rndWith (rnd : BitVec 3) (g : BitVec 32) : Rnd := if rnd = 4 then .sr (g >>> 16).toNat else rndOf rnd

/-- Elements a conversion processes: those of a register of its narrower type (R127). -/
def cvtCount (dst src : BitVec 4) : Nat := if min (tyWidth dst) (tyWidth src) = 64 then 128 else 4096 / min (tyWidth dst) (tyWidth src)

/-- One element converted (R127): a cb4 source is read through cb, a cb4 destination receives an index. -/
def cvtElem (cb : Vector (BitVec 16) 16) (dst src : Nat) (md : Rnd) (p : Policy) (x : Nat) : CvtResult :=
  let src' := if src = 14 then 9 else src
  let x' := if src = 14 then (cb.toArray.getD (x % 16) 0).toNat else x
  if dst = 14 then .ok (cbIndex cb (encodeFp fmtF32 .rne (valueOf src' x')))
  else convertElem dst src' md p x'

/-- The result of each element, in physical numbering. -/
def cvtResult (w : Warp) (f : FmtA) (e : Nat) : CvtResult :=
  let n := cvtCount f.ty f.ty2
  let k := n / 128
  let g := advanceGen (e % k + 1) (w.gens.toArray.getD (e / k) 0)
  cvtElem w.cb f.ty.toNat f.ty2.toNat (rndWith f.rnd g) (policyOf (f.mod.toNat % 256)) (srcElem w f.a n (tyWidth f.ty2) e)

/-- A result is a fault case. -/
def isFaultCase : CvtResult → Bool
  | .fault _ => true
  | .ok _ => false

/-- The bits of a result. -/
def cvtBits : CvtResult → Nat
  | .ok b => b
  | .fault _ => 0

/-- The lanes of `act` with a faulting element (R128). -/
def cvtFaults (w : Warp) (f : FmtA) (act : Mask) : Mask :=
  let k := cvtCount f.ty f.ty2 / 128
  buildMask fun pl => act.getLsbD pl && (List.range k).any fun j => isFaultCase (cvtResult w f (pl * k + j))

/-- The lowest fault case among the elements of `act` (R52). -/
def cvtLowest (w : Warp) (f : FmtA) (act : Mask) : Nat :=
  let n := cvtCount f.ty f.ty2
  (List.range n).foldl (fun m e => if act.getLsbD (laneOfElem n e) then
    match cvtResult w f e with
    | .fault c => min m c
    | .ok _ => m
    else m) 3

/-- The elements of `act` converted, those in a fault case left unwritten, one generator use for each under SR (R127, R128). -/
def cvtWrite (w : Warp) (f : FmtA) (act : Mask) : Warp :=
  let n := cvtCount f.ty f.ty2
  let v := writeGroup w.v f.d.toNat n (tyWidth f.ty)
    (fun e => act.getLsbD (laneOfElem n e) && !(isFaultCase (cvtResult w f e))) fun e => cvtBits (cvtResult w f e)
  let gens := if f.rnd = 4 then
      Vector.ofFn fun lane : Fin 128 => if act.getLsbD lane.val then advanceGen (n / 128) w.gens[lane] else w.gens[lane]
    else w.gens
  { w with v, gens }

/-- The policy byte selects fault for some case (R29, R51). -/
def hasFaultPolicy (f : FmtA) : Bool :=
  let p := policyOf (f.mod.toNat % 256)
  p.ufl == 3 || p.ofl == 3 || p.inf == 3 || p.nan == 3

end Sys2Proof.Machine
end

