-- ==== Sys2Proof/Machine/Pipe.lean ====
section
/-! DEFINITION. The transform pipe's operations (08 R195) and its drain before a trap (05 R109 step 1). -/

namespace Sys2Proof.Machine

/-- Elements of `wd` bits moved by the transposition of 16 x 16 tiles: element `256k + 16j + i` takes `256k + 16i + j`. -/
def trIndex (e : Nat) : Nat := e / 256 * 256 + e % 16 * 16 + e / 16 % 16

/-- Element `e` of registers taken one after another, `per` to a register (R195). -/
def seqElem (w : Warp) (r : BitVec 6) (wd per e : Nat) : Nat := elemOf (vAt w (r.toNat + e / per)) wd (e % per)

/-- Bits of a register an operation writes whole. -/
def wholeReg (r : BitVec 6) (v : VReg) : BitVec 6 × VReg × VReg := (r, BitVec.allOnes 4096, v)

/-- tr8, tr16 and tr32 (R195); tr32 takes a pair. -/
def xfmTrOwed (w : Warp) (f : FmtA) (wd : Nat) : List (BitVec 6 × VReg × VReg) :=
  let per := 4096 / wd
  let out := fun k => buildReg wd fun p => seqElem w f.a wd per (trIndex (k * per + p))
  wholeReg f.d (out 0) :: (if wd = 32 then [wholeReg (f.d + 1) (out 1)] else [])

/-- pack (R195). -/
def xfmPackOwed (w : Warp) (f : FmtA) : List (BitVec 6 × VReg × VReg) :=
  let wd := tyWidth f.ty
  [wholeReg f.d (buildReg wd fun e => (laneOf (vAt w (f.a.toNat + e / 128)) (e % 128)).toNat)]

/-- unpack (R195). -/
def xfmUnpackOwed (w : Warp) (f : FmtA) : List (BitVec 6 × VReg × VReg) :=
  let wd := tyWidth f.ty
  let src := readV w f.a
  (List.range (32 / wd)).map fun k => wholeReg (f.d + BitVec.ofNat 6 k) (buildReg 32 fun p =>
    (extendTo64 wd (tySigned f.ty.toNat) (elemOf src wd (k * 128 + p))).toNat)

/-- cvt and quant: the elements of `act`, those in a fault case left unwritten (R127, R195). -/
def xfmCvtOwed (w : Warp) (f : FmtA) (act : Mask) : List (BitVec 6 × VReg × VReg) :=
  let n := cvtCount f.ty f.ty2
  let wd := tyWidth f.ty
  let on := fun e => act.getLsbD (laneOfElem n e) && !(isFaultCase (cvtResult w f e))
  (List.range (groupSize n wd)).map fun k =>
    (f.d + BitVec.ofNat 6 k, groupReg 0 (groupSize n wd) k wd on fun _ => 2 ^ wd - 1,
     groupReg 0 (groupSize n wd) k wd on fun e => cvtBits (cvtResult w f e))

/-- The registers an accepted XFM will write, with their bits, from its operands at issue (R195). -/
def xfmOwed (w : Warp) (i : Instr) (act : Mask) : List (BitVec 6 × VReg × VReg) :=
  match i with
  | .xfmCvt f => xfmCvtOwed w f act
  | .xfmQuant f => xfmCvtOwed w f act
  | .xfmTr8 f => xfmTrOwed w f 8
  | .xfmTr16 f => xfmTrOwed w f 16
  | .xfmTr32 f => xfmTrOwed w f 32
  | .xfmPack f => xfmPackOwed w f
  | .xfmUnpack f => xfmUnpackOwed w f
  | _ => []

/-- A trap taken by the issuing warp, its pipe results written first (R109). -/
def raiseTrap (s : State) (code sub : Nat) (tval : Word) : State := takeTrap (drainXfm s) code sub tval

end Sys2Proof.Machine
end

