-- ==== Sys2Proof/Machine/Landing.lean ====
section
/-! DEFINITION. Data that returns to its registers, and the end of roving (01 R28, R34 to R40; 07 R151; 09 R225; 11 R262; 21 R429).
DEDUCED readings, unsafe: log entry 15. -/

namespace Sys2Proof.Machine

/-! ### The end of roving (R37, R38) -/

/-- Roving ends for a reason of R37: the warp stays stalled. -/
def endRove (w : Warp) (r : Roving) (why : BitVec 3) : Warp :=
  { w with lastEnd := why, lastLen := BitVec.ofNat 12 (min r.count 4095), rove := some { r with phase := .ended } }

/-- The checkpoint restored and the slot freed (R38); the tick count TC of the die, which a roving warp's wclk does not follow, is
its own again (R221, R224). -/
def roveRestore (tc : Nat) (w : Warp) : Warp :=
  match w.rove with
  | some r => { w with x := r.x, m := r.m, cb := r.cb, vl := r.vl, split := r.split, mapping := r.mapping, pc := r.pc,
                       wclk := max w.wclk tc, rove := none }
  | none => w

/-- The same for a warp that still roves, which ends for a reason. -/
def roveLeave (tc : Nat) (why : BitVec 3) (w : Warp) : Warp :=
  match w.rove with
  | some r => roveRestore tc (if r.phase = .rove then endRove w r why else w)
  | none => w

/-- The restore starts (R38, R40). -/
def startRestore (clock : Nat) (w : Warp) : Warp :=
  match w.rove with
  | none => w
  | some r =>
    let w := if r.phase = .rove then endRove w r 0 else w
    { w with rove := some { r with phase := .restore, entered := clock } }

/-- A warp that roves, or has ended and waits, and is owed none of the registers its stalled instruction names (R38, R40). -/
def roveArrived (w : Warp) : Bool :=
  match w.rove with
  | none => false
  | some r => r.phase != .restore && !(meets r.needs (owedRegs w))

/-- The restore is over 8 clocks after it began (R38). -/
def restoreDue (s : State) (w : Warp) : Bool :=
  match w.rove with
  | some r => r.phase == .restore && decide (r.entered + 8 ≤ (s.die (agentDie w.who)).clock)
  | none => false

/-! ### Returning data (R28, R151) -/

/-- Registers a returned load writes (R28). -/
def applyPending (w : Warp) (p : Pending) : Warp :=
  let w := p.xw.foldl (fun w q => writeX w q.1 q.2) w
  let w := landV w p.vw
  p.mw.foldl (fun w q => writeM w q.1 ((readM w q.1 &&& ~~~q.2.1) ||| q.2.2)) w

/-- Returned data in its registers; a roving warp's goes to its checkpoint (R35). -/
def landRegs (w : Warp) (p : Pending) : Warp :=
  match w.rove with
  | none => applyPending w p
  | some r =>
    let c := applyPending { w with x := r.x, m := r.m } p
    { w with v := c.v, rove := some { r with x := c.x, m := c.m } }

/-- The contexts and slots of the tables that decodes in flight on a core use (R279). -/
def tablesInUse (s : State) (d : Fin 2) (c : Fin 24) : List (Nat × Nat) :=
  s.agents.flatMap fun w => match w.who with
    | .warp d' c' _ _ => if d' = d ∧ c' = c then w.pend.filterMap (·.samp.uses) else []
    | .thread _ _ => []

/-- A table becomes the last used. -/
def useTable (c : Core) (t : CachedTable) : Core :=
  { c with tables := t :: c.tables.filter fun o => !(o.ctx == t.ctx && o.slot == t.slot) }

/-- A table enters a core's cache of 16 unless a copy of its slot is there, which never changes (R279); the least recently used that no
decode in flight uses leaves. -/
def placeTable (pins : List (Nat × Nat)) (c : Core) (t : CachedTable) : Core :=
  if c.tables.any fun o => o.ctx == t.ctx && o.slot == t.slot then c
  else
    let l := t :: c.tables
    if l.length ≤ 16 then { c with tables := l }
    else match l.reverse.find? fun o => !(pins.contains (o.ctx, o.slot)) with
      | some out => { c with tables := l.filter fun o => !(o.ctx == out.ctx && o.slot == out.slot) }
      | none => c

/-- A decoded texel put in use, last used first; the cache holds 8,192 (R280). -/
def useTexel (c : Core) (t : CachedTexel) : Core :=
  { c with texels := (t :: c.texels.filter fun o =>
      !(o.ctx == t.ctx && o.slot == t.slot && o.block == t.block && o.lx == t.lx && o.ly == t.ly)).take 8192 }

/-- A line put in the sampler's line cache (R228, R280). -/
def useLine (c : Core) (e : CachedLine) : Core :=
  { c with lines := e :: c.lines.filter fun l => !(l.ctx == e.ctx && l.slot == e.slot && l.line == e.line) }

/-- The part of what a sampler instruction read that may stay: no line, and no table or block, with a lost sector (R282). -/
def soundSamp (f : SampFill) (lost : List Nat) : SampFill :=
  let bad := fun line : Nat => lost.any fun k => k / 4 == line
  let hit := fun (ctx slot : Nat) => f.lines.any fun l => l.ctx == ctx && l.slot == some slot && bad l.line
  { f with
    lines := f.lines.filter fun l => !(bad l.line) && !(match l.slot with
      | some k => hit l.ctx k
      | none => false),
    tables := f.tables.filter fun t => !(hit t.ctx t.slot), texels := f.texels.filter fun t => !(hit t.ctx t.slot) }

/-- Where a core counts the drops of a slot of a context. -/
def slotKey (ctx slot : Nat) : Nat := 4096 * ctx + slot

/-- The part of it that no drop since its instruction issued covers (R202). -/
def freshSamp (c : Core) (f : SampFill) : SampFill :=
  let same := fun ctx slot : Nat => tblGetD f.slotDrops (slotKey ctx slot) 0 == tblGetD c.slotDrops (slotKey ctx slot) 0
  if f.drops ≠ c.sampDrops then { f with lines := [], tables := [], texels := [] }
  else { f with
    lines := f.lines.filter fun l => l.slot.all fun k => same l.ctx k
    tables := f.tables.filter fun t => same t.ctx t.slot, texels := f.texels.filter fun t => same t.ctx t.slot }

/-- What a sampler instruction read enters its core's caches, but what has been dropped since it issued (R202, R279). -/
def installSamp (s : State) (d : Fin 2) (c : Fin 24) (f : SampFill) (lost : List Nat) : State :=
  let g := soundSamp (freshSamp (s.coreAt d c) f) lost
  let pins := tablesInUse s d c
  s.onCore d c fun x => g.texels.foldr (fun t x => useTexel x t) (g.tables.foldr (fun t x => placeTable pins x t)
    (g.lines.foldr (fun e x => useLine x e) x))

/-- Copies of an uncorrectable sector's line dropped from a core: it is installed in no cache (R151, R282). -/
def dropBadLine (c : Core) (sec : Nat) : Core :=
  let line := sec / 4
  let hit := fun (ctx slot : Nat) => c.lines.any fun l => l.ctx == ctx && l.slot == some slot && l.line == line
  { c with l1 := c.l1.filter fun e => e.1 / 4 != line, l1Use := c.l1Use.filter (·.1 != line),
           tables := c.tables.filter fun t => !(hit t.ctx t.slot),
           texels := c.texels.filter fun t => !(hit t.ctx t.slot), lines := c.lines.filter fun l => l.line != line }

/-- The line of an uncorrectable sector leaves the caches of a die and of the core that read it. -/
def uncache (d : Fin 2) (c : Fin 24) (s : State) (sec : Nat) : State :=
  unhold d (s.onCore d c fun x => dropBadLine x sec) sec

/-- The sectors a load read that came back uncorrectable: the one named, and those whose storage holds an error (R429). -/
def badSectors (s : State) (p : Pending) (bad : Option Nat) : List Nat :=
  (p.sectors.map (·.1)).eraseDups.filter fun k => bad == some k || s.softErrs.contains (.sector k)

/-- The registers a load owes, in the order of `Pending.sectors`. -/
def owedList (p : Pending) : List RegRef :=
  p.xw.map (fun q => RegRef.x q.1.toNat) ++ p.vw.map (fun q => RegRef.v q.1.toNat) ++ p.mw.map (fun q => RegRef.m q.1.toNat)

/-- The first uncorrectable sector that feeds the register at a place among those owed. -/
def feedsBad (p : Pending) (bads : List Nat) (k : Nat) : Option Nat :=
  (p.sectors.find? fun q => q.2 == k && bads.contains q.1).map (·.1)

/-- The entries of a list whose place holds. -/
def keepAt {α : Type} (l : List α) (base : Nat) (f : Nat → Bool) : List α :=
  (l.zipIdx.filter fun q => f (base + q.2)).map (·.1)

/-- What a load still writes when sectors of it are lost: the registers none of them feeds. -/
def goodPart (p : Pending) (bads : List Nat) : Pending :=
  let ok := fun k => (feedsBad p bads k).isNone
  { p with xw := keepAt p.xw 0 ok, vw := keepAt p.vw p.xw.length ok, mw := keepAt p.mw (p.xw.length + p.vw.length) ok }

/-- The marks a load with lost sectors leaves: each register they feed, with the sector (R151). -/
def badMarks (p : Pending) (bads : List Nat) : List (RegRef × Nat) :=
  (owedList p).zipIdx.filterMap fun q => (feedsBad p bads q.2).map fun sec => (q.1, sec)

/-- A load with lost sectors lands (R151): a replay freezes at the load; else the registers the sectors feed are marked and not
written, and the others are written. -/
def landBad (s : State) (p : Pending) (bads : List Nat) : State :=
  match p.replay, bads with
  | true, sec :: _ =>
    let w := roveLeave (s.die (agentDie s.cur.who)).tc 0 s.cur
    uncorrected { s with cur := { w with pc := p.pc } } 1 (32 * sec) (BitVec.ofNat 64 (32 * sec))
  | _, _ =>
    let w := landRegs s.cur (goodPart p bads)
    let marks := badMarks p bads
    { s with cur := { w with poison := w.poison.filter (fun q => !(marks.any fun k => k.1 == q.1)) ++ marks } }

/-- What a load brought with it reaches the caches: its fills but those of a line with a lost sector, whose copies go. -/
def landFills (s : State) (p : Pending) (bads : List Nat) : State :=
  match s.cur.who with
  | .thread _ _ => s
  | .warp d c _ _ =>
    let s := installFills s d c p.weak (soundFills p.fills bads)
    bads.foldl (uncache d c) (installSamp s d c p.samp bads)

/-- A roving warp whose operands have all arrived starts to restore (R38, R40). -/
def wakeRove (s : State) : State :=
  if roveArrived s.cur then { s with cur := startRestore (s.die (agentDie s.cur.who)).clock s.cur } else s

/-- The `n`-th load the issuing agent is owed returns: its registers are written, or marked where a sector of them is lost. -/
def landLoad (s : State) (n : Nat) (bad : Option Nat) : State :=
  match s.cur.pend[n]? with
  | none => s
  | some p =>
    if bad.any fun b => !((p.sectors.map (·.1)).contains b) then s
    else
      let bads := badSectors s p bad
      let s := landFills { s with cur := { s.cur with pend := s.cur.pend.eraseIdx n } } p bads
      wakeRove (if bads = [] then { s with cur := landRegs s.cur p } else landBad s p bads)

/-- LOAD_DATA_RETURN. -/
def execLoadDataReturn (who : Agent) (n : Nat) (bad : Option Nat) (s : State) : Out :=
  .next (s.withAgent who fun s => landLoad s n bad)

/-- Every load the issuing agent is owed returns. -/
def landAll (s : State) : State := (List.range s.cur.pend.length).foldl (fun s _ => landLoad s 0 none) s

end Sys2Proof.Machine
end

