-- ==== Sys2Proof/Machine/Fence.lean ====
section
/-! DEFINITION. Releases and acquires on logical time (07 R154, R155; 09 R216, R221). Stores are performed at their homes when
they issue, so a release only moves timestamps. -/

namespace Sys2Proof.Machine

/-- A scope at module or wider: codes 4 to 6 and the scope groups (R155, R215). -/
def scopeWide (c : Nat) : Bool := decide (4 ≤ c)

/-- The issuing agent's writes complete at module scope (R221): XTS reaches the timestamps they received, and these reach XTS. -/
def completeWide (s : State) : State :=
  if s.cur.wrote then
    let d := agentDie s.cur.who
    let top := max (s.die d).xts s.cur.smax
    { s.onDie d fun x => { x with xts := top } with cur := { s.cur with smax := top, wrote := false } }
  else s

/-- What a release of a warp orders in a team: its own stores, and those of its team's commands that have signalled, which it may have
waited for (R218). -/
def releasedBy (w : Warp) (t : Team) : LooseBy → Bool
  | .warp i => i == warpId w
  | .cmd id => t.id == w.team && (tblGet t.loose.signalled id).isSome

/-- Stores of the issuing warp to scratchpads are in their banks, for every reader (R155, R227). -/
def settleLoose (s : State) : State :=
  { s with teams := s.teams.map fun t => { t with loose := settle t.loose (releasedBy s.cur t) } }

/-- A release by the issuing agent at a scope (R155, R221): at module scope or wider its writes complete there; its wclk reaches
smax. A fence at scope warp is a boundary in program order alone. -/
def releaseAt (s : State) (scope : Nat) : State :=
  let s := if scopeWide scope then completeWide s else s
  let s := if scope = 0 then s else settleLoose s
  { s with cur := { s.cur with wclk := max s.cur.wclk s.cur.smax } }

/-- Copies of a core's L1 that memory has overtaken are dropped: an acquire at system scope reads through every alias (R209). -/
def dropStale (s : State) : State :=
  match s.cur.who with
  | .thread _ _ => s
  | .warp d c _ _ => s.onCore d c fun x => { x with l1 := x.l1.filter fun e => e.2.data == sectorBits s.mem e.1 }

/-- An acquire fence (R155): wclk reaches the timestamps of the values read. -/
def acquireFence (w : Warp) : Warp := { w with wclk := max w.wclk w.rmax }

/-- FENCE (R154, R155). -/
def fenceOp (f : FmtS) (s : State) (acq rel : Bool) : Out :=
  let s := if rel then releaseAt s f.scope.toNat else s
  let s := if acq ∧ 5 ≤ f.scope.toNat ∧ f.scope.toNat < 7 then dropStale s else s
  answer s (retire (if acq then acquireFence s.cur else s.cur))

def execFenceAcq (f : FmtS) (s : State) : Out := fenceOp f s true false
def execFenceRel (f : FmtS) (s : State) : Out := fenceOp f s false true
def execFenceAcqrel (f : FmtS) (s : State) : Out := fenceOp f s true true

end Sys2Proof.Machine
end

