-- ==== Sys2Proof/Machine/Knots.lean ====
section
/-! DEFINITION. Knots: their updates, the waits they satisfy, and the knot instructions (07 R156 to R164; 09 R221; 17 R435).
DEDUCED, unsafe: how a wait stands at its instruction, log entry 17. -/

namespace Sys2Proof.Machine

/-- The die that homes far knot `k` (R62, R156). -/
def farDie (k : Nat) : Fin 2 := if k < 2048 then 0 else 1

/-- A knot; one not changed since its reset holds the values of R156. -/
def getKnot (s : State) : KnotRef → Knot
  | .team id i => match s.findTeam id with
    | some t => tblGetD t.knots i (Knot.fresh 1)
    | none => Knot.fresh 1
  | .far k => tblGetD (s.die (farDie k)).farKnots k (Knot.fresh 4)

/-- A knot set. -/
def putKnot (s : State) (r : KnotRef) (k : Knot) : State :=
  match r with
  | .team id i => s.onTeam id fun t => { t with knots := tblSet t.knots i k }
  | .far n => s.onDie (farDie n) fun x => { x with farKnots := tblSet x.farKnots n k }

/-- The far knot is allocated to a context by its FKOWN port (R435). -/
def farOwned (s : State) (k ctx : Nat) : Bool :=
  let v := tblGetD (s.die (farDie k)).fkown (k % 2048) 0
  v.getLsbD 15 && (v.extractLsb' 0 13).toNat == ctx

/-- The knot word KRD returns (R156). -/
def knotWord (k : Knot) : Word :=
  BitVec.ofNat 64 ((if k.err then 2 ^ 63 else 0) + (if k.counter then 2 ^ 62 else 0) + k.scope * 2 ^ 56 +
    (if k.phase then 2 ^ 48 else 0) + k.expect * 2 ^ 16 + k.count)

/-- The states a knot passes through in one update, the last its new state (R158, R159, R161). Of many flips the first two
show every phase. -/
def knotStates (k : Knot) : KnotOp → List Knot
  | .config counter scope val phase =>
    [{ k with err := false, counter, scope, phase, expect := if counter then 0 else val, count := if counter then val else 0 }]
  | .arrive n err =>
    let k := { k with err := k.err || err }
    if k.counter then [{ k with count := min (k.count + n) 32767 }]
    else
      let c := k.count + n
      let fl := c / k.expect
      let fin := { k with count := c % k.expect, phase := k.phase != (fl % 2 == 1), flips := k.flips + fl }
      if 2 ≤ fl then [{ k with phase := !k.phase, flips := k.flips + 1 }, { k with flips := k.flips + 2 }, fin] else [fin]

/-- A wait's condition on a state of its knot (R162, R163). -/
def waitHolds (c : WaitCond) (k : Knot) : Bool :=
  match c with
  | .phase p => k.phase == p
  | .threshold t => decide (t ≤ k.count)
  | .flip (some n) => decide (n < k.flips)
  | .flip none => false

/-- KTS of a die (R221). -/
def ktsOf (k : Knot) (d : Fin 2) : Nat := if d = 0 then k.kts0 else k.kts1

/-- The KARRW arrival a warp keeps, after the instruction at its PC completes (R164). -/
def karrwDone (w : Warp) : Option Arrival :=
  w.karrw.filter fun k => k.addr != w.pc

/-- A satisfied wait: the acquire, the status with ERR in bit 1, and the next instruction (R162, R221). -/
def finishWait (w : Warp) (dst : BitVec 6) (k : Knot) : Warp :=
  let w := { w with wclk := max w.wclk (ktsOf k (agentDie w.who)), karrw := karrwDone w }
  retire (writeX w dst (if k.err then 2 else 0))

/-- A waiting warp after a knot passes through states (R159). -/
def wakeWarp (r : KnotRef) (states : List Knot) (w : Warp) : Warp :=
  match w.status with
  | .knotWait kw =>
    if kw.home = r then
      match states.find? (waitHolds kw.cond) with
      | some k => finishWait w kw.dst k
      | none => w
    else w
  | _ => w

/-- Fields of an engine record (R75, R76). -/
def recBits (r : BitVec 512) (hi lo : Nat) : Nat := bits r.toNat hi lo

/-- A knot a record names: space, index bits 9:0 and rank field (R76). -/
def recKnot (s : State) (team space idx rank : Nat) : Option KnotRef :=
  match space with
  | 0 => some (.team team idx)
  | 1 => match s.findTeam team with
    | some t => (s.clusterTeam t.cluster rank).map fun u => .team u.id idx
    | none => none
  | 2 => some (.far (idx + 1024 * (rank % 4)))
  | _ => none

/-- The knot a command waits on, none with WSPACE 3 (R76). -/
def cmdWait (s : State) (c : Cmd) : Option KnotRef :=
  match c.kind with
  | .queue _ _ => none
  | _ => recKnot s c.team (recBits c.record 43 42) (recBits c.record 41 32) (recBits c.record 63 60)

/-- A command's wait condition (R76, R172). -/
def cmdCond (c : Cmd) : WaitCond :=
  if recBits c.record 44 44 = 1 then .threshold (recBits c.record 59 45) else .phase (recBits c.record 45 45 == 1)

/-- The knot a command signals, none with SEN 0 (R76). -/
def cmdSignal (s : State) (c : Cmd) : Option KnotRef :=
  match c.kind with
  | .queue _ _ => none
  | _ => if recBits c.record 76 76 = 1 then
      recKnot s c.team (recBits c.record 75 74) (recBits c.record 73 64) (recBits c.record 95 92)
    else none

/-- A command whose wait a knot's states satisfy is ready, at the knot's time (R172, R221). -/
def wakeCmd (s : State) (r : KnotRef) (states : List Knot) (c : Cmd) : Cmd :=
  if c.st = .waiting ∧ c.ready = false ∧ cmdWait s c = some r then
    match states.find? (waitHolds (cmdCond c)) with
    | some k => { c with ready := true, time := max c.time (ktsOf k c.d), maxTs := max c.maxTs (ktsOf k c.d) }
    | none => c
  else c

/-- The clusters with a warp waiting on a knot count their deadlock clocks anew (R246 condition 2). -/
def resetStalls (s : State) (r : KnotRef) : State :=
  let waiting := s.agents.filterMap fun w => match w.status with
    | .knotWait kw => if kw.home = r then (s.findTeam w.team).map (·.cluster) else none
    | _ => none
  let drop := fun x : Die => { x with stalls := x.stalls.filter fun p => !(waiting.contains p.1) }
  (s.onDie 0 drop).onDie 1 drop

/-- Every waiter on a knot tested against the states it passed through (R159). -/
def testWaiters (s : State) (r : KnotRef) (states : List Knot) : State :=
  let s := resetStalls s r
  let s := s.mapAgents (fun _ => true) (wakeWarp r states)
  { s with cmds := s.cmds.map (wakeCmd s r states) }

/-- KTS of both dies after an arrival (R221): its own die's from the arriving party's clock, the other's from its XTS. -/
def raiseKts (s : State) (u : KnotUpdate) (k : Knot) : Knot :=
  let t := fun d : Fin 2 => if u.d = d ∧ u.recv = none then u.time else (s.die d).xts
  { k with kts0 := max k.kts0 (t 0), kts1 := max k.kts1 (t 1) }

/-- The noted flip count of the KARRW arrival of a token, where the warp still keeps that one (R163). -/
def noteArrival (token flips : Nat) (w : Warp) : Warp :=
  match w.karrw with
  | none => w
  | some k =>
    if k.token ≠ token then w
    else
      let w := { w with karrw := some { k with flips := some flips } }
      match w.status with
      | .knotWait kw => if kw.cond = .flip none then { w with status := .knotWait { kw with cond := .flip (some flips) } } else w
      | _ => w

/-- An advisory RECV record for a receiver's arrival that was discarded (R435). -/
def recvRecord (s : State) (d : Fin 2) (stream ctx : Nat) (va : Word) (reason : Nat) : State :=
  enqueueRec s d { token := 0, master := .none, kind := 3, access := 1, agent := 2, ctx, reason, agentId := BitVec.ofNat 16 d.val,
                   fkind := 0, pc := BitVec.ofNat 64 (stream % 65536), va, lanes := 0, cause := 0, tval := 0 }

/-- One update applied at its knot's home (R158, R159, R161, R435). -/
def applyUpdate (s : State) (u : KnotUpdate) : State :=
  let allowed := match u.home with
    | .team id _ => (s.findTeam id).isSome
    | .far k => farOwned s k u.ctx
  if !allowed then
    match u.recv, u.home with
    | some stream, .far k => recvRecord s (farDie k) stream u.ctx 0 0
    | _, _ => s
  else
    let k := getKnot s u.home
    let k1 := match u.op with
      | .arrive _ _ => raiseKts s u k
      | .config _ _ _ _ => k
    let states := knotStates k1 u.op
    let s := putKnot s u.home (states.getLastD k1)
    let s := match u.note, u.src with
      | some token, some id => s.onWarp id (noteArrival token k.flips)
      | _, _ => s
    testWaiters s u.home states

/-- The `n`-th update on its way may reach its home: no earlier one of the same warp to the same knot is still on its way
(R153, R159). -/
def knotUpdateReady (s : State) (n : Nat) : Option KnotUpdate :=
  match s.knotQ[n]? with
  | some u => if (s.knotQ.take n).any fun o => decide (o.home = u.home) && o.src.isSome && o.src == u.src then none else some u
  | none => none

/-- The `n`-th update on its way reaches its home (R159). -/
def knotUpdateAt (s : State) (n : Nat) : State :=
  match knotUpdateReady s n with
  | some u => applyUpdate { s with knotQ := s.knotQ.eraseIdx n } u
  | none => s

/-- KNOT_UPDATE. -/
def execKnotUpdate (n : Nat) (s : State) : Out := .next (knotUpdateAt s n)

/-- The issuing warp's own updates to a knot reach it before the warp reads it (R153). -/
def drainOwn (s : State) (r : KnotRef) : State :=
  let mine := fun u : KnotUpdate => decide (u.home = r) && u.src == some (warpId s.cur)
  let l := s.knotQ.filter mine
  l.foldl applyUpdate { s with knotQ := s.knotQ.filter fun u => !(mine u) }

/-- How a knot instruction fails its index checks (R62, R157). -/
inductive KnotFail where
  | illegal
  | bounds (idx : Nat)
  deriving DecidableEq, Repr

/-- The knot a format K instruction names (R62, R157). -/
def knotTarget (s : State) (f : FmtK) : Except KnotFail KnotRef :=
  let w := s.cur
  let a := (readX w f.a).toNat
  let idx := f.kidx.toNat + a % 4096
  let inTeam := fun t : Option Team => match t with
    | some t => if idx < t.kernel.knots then .ok (.team t.id idx) else .error (.bounds idx)
    | none => .error (.bounds idx)
  if f.kspace = 2 then
    if 4096 ≤ idx then .error .illegal
    else if farOwned s idx w.ctx then .ok (.far idx) else .error (.bounds idx)
  else if 1024 ≤ idx then .error .illegal
  else if f.kspace = 1 then
    let rank := bits a 19 16
    if w.cw * w.ch ≤ rank then .error .illegal
    else inTeam (match s.curTeam with
      | some t => s.clusterTeam t.cluster rank
      | none => none)
  else inTeam s.curTeam

/-- A knot instruction on the knot it names, or the violation of its index (R62, R157). -/
def onKnot (s : State) (f : FmtK) (i : Instr) (k : KnotRef → Out) : Out :=
  match knotTarget s f with
  | .ok r => k r
  | .error .illegal => illegal s 3 i
  | .error (.bounds idx) => boundsAt s (BitVec.ofNat 64 idx)

/-- A knot read by the issuing warp, which freezes if the knot has a soft error (R429). -/
def readKnot (s : State) (r : KnotRef) (k : State → Knot → Out) : Out :=
  let s := drainOwn s r
  match softHit s [.knot r] with
  | some e => .next (softStop s e)
  | none => k s (getKnot s r)

/-- An update sent to a knot by the issuing warp. -/
def sendUpdate (s : State) (r : KnotRef) (op : KnotOp) (note : Option Nat) : State :=
  { s with knotQ := s.knotQ ++ [{ home := r, op, src := some (warpId s.cur), ctx := s.cur.ctx, d := agentDie s.cur.who,
                                  time := s.cur.wclk, note, cmdTeam := none, recv := none }] }

/-- SCOPE of a knot as the issuing warp's arrival will find it: that of its own latest KCFG on its way there, else the knot's (R153,
R160). -/
def arrivalScope (s : State) (r : KnotRef) : Nat :=
  (s.knotQ.filter fun u => decide (u.home = r) && u.src == some (warpId s.cur)).foldl (fun k u => match u.op with
    | .config _ scope _ _ => scope
    | .arrive _ _ => k) (getKnot s r).scope

/-- A release at the knot's scope, then the arrival (R160). -/
def arriveAt (s : State) (r : KnotRef) (n : Nat) (err : Bool) (note : Option Nat) : State :=
  sendUpdate (releaseAt s (arrivalScope s r)) r (.arrive n err) note

def execKcfg (f : FmtK) (s : State) : Out :=
  onKnot s f (.kcfg f) fun r =>
    let s := sendUpdate s r (.config (f.kmode == 1) f.scope.toNat f.kval.toNat ((readX s.cur f.b).getLsbD 0)) none
    answer s (retire s.cur)
def execKarr (f : FmtK) (s : State) : Out :=
  onKnot s f (.karr f) fun r => let s := arriveAt s r f.kval.toNat false none; answer s (retire s.cur)
def execKsig (f : FmtK) (s : State) : Out :=
  onKnot s f (.ksig f) fun r => let s := arriveAt s r f.kval.toNat (f.kmode == 1) none; answer s (retire s.cur)

/-- The streams on which the warp holds a promise equal to a deadline, lowest first (R164). -/
def promisesAt (w : Warp) (dl : Word) : List Nat :=
  sortBy (fun a b => decide (a ≤ b)) ((w.promises.filter fun p => p.2.1 == dl.toNat && dl != 0).map (·.1))

/-- A deadline reached at the issuing warp's wait: MISSED_PROMISE when it equals a promise the warp holds, otherwise status 1
and no acquire (R164). -/
def expireWait (s : State) (dst : BitVec 6) (dl : Word) : State :=
  match promisesAt s.cur dl with
  | [] => { s with cur := retire (writeX { s.cur with karrw := karrwDone s.cur } dst 1) }
  | p :: _ => raiseTrap { s with cur := { s.cur with status := .running } } cMissed p dl

/-- The wait begins, or ends at once at a deadline already reached (R164). -/
def beginWait (s : State) (f : FmtK) (r : KnotRef) (c : WaitCond) : Out :=
  let dl := readX s.cur f.b
  if deadlineReached s dl then .next (expireWait s f.d dl)
  else answer s { s.cur with
    status := .knotWait ⟨f.d, r, f.kidx.toNat + (readX s.cur f.a).toNat % 4096, f.kspace != 2, c, dl⟩ }

/-- A wait of the issuing warp on a knot (R162 to R164): satisfied at once, whatever its deadline, or begun (DESIGN CHOICE, unsafe: log
entry 57). -/
def waitOn (s : State) (f : FmtK) (r : KnotRef) (c : State → WaitCond) : Out :=
  readKnot s r fun s k =>
    if waitHolds (c s) k then answer s (finishWait s.cur f.d k) else beginWait s f r (c s)

/-- The condition KMODE and KVAL name (R162). -/
def kCond (f : FmtK) : WaitCond := if f.kmode = 1 then .threshold f.kval.toNat else .phase (f.kval.getLsbD 0)

def execKwait (f : FmtK) (s : State) : Out := onKnot s f (.kwait f) fun r => waitOn s f r fun _ => kCond f
/-- KTRY tests once (R162). -/
def execKtry (f : FmtK) (s : State) : Out :=
  onKnot s f (.ktry f) fun r => readKnot s r fun s k =>
    let e : Word := if k.err then 2 else 0
    if waitHolds (kCond f) k then answer s (finishWait s.cur f.d k)
    else answer s (retire (writeX s.cur f.d (e + 1)))
/-- The noted flip count of the arrival the issuing warp keeps (R163). -/
def notedFlip (s : State) : WaitCond :=
  .flip (s.cur.karrw.bind (·.flips))

/-- KARRW arrives once and waits for the first flip after its arrival; run again at its address it keeps the arrival (R163,
R164). -/
def execKarrw (f : FmtK) (s : State) : Out :=
  onKnot s f (.karrw f) fun r =>
    if s.cur.karrw.any fun k => k.addr == s.cur.pc then waitOn s f r notedFlip
    else
      let (token, s) := s.freshId
      let s := arriveAt s r f.kval.toNat false (some token)
      beginWait { s with cur := { s.cur with karrw := some ⟨s.cur.pc, token, none⟩ } } f r (.flip none)
def execKrd (f : FmtK) (s : State) : Out :=
  onKnot s f (.krd f) fun r => readKnot s r fun s k => answer s (retire (writeX s.cur f.d (knotWord k)))

end Sys2Proof.Machine
end

