-- ==== Sys2Proof/Machine/Reads.lean ====
section
/-! DEFINITION. Reads at a translated address, pool or window (09 R230; 19 R376 to R378), multi-byte accesses
through a context's translation, for descriptors, blocks and fence words, and accesses at a physical address made by hardware
(10 R235; 17 R437; 18 R357, R361). -/

namespace Sys2Proof.Machine

/-- A context's root page number and lease as a die has it loaded (R359). -/
def ctxPpn (s : State) (d : Fin 2) (ctx : Nat) : Nat := ((tblGet (s.die d).contexts ctx).map (·.ppn)).getD 0
def ctxLease (s : State) (d : Fin 2) (ctx : Nat) : Nat := ((tblGet (s.die d).contexts ctx).map (·.lease)).getD 16

/-- `n` bytes of a window that lie in one aligned dword, read (R378); a unit outside the module supplies free values (log
entry 11). -/
def outsideBytes (s : State) (pa n : Nat) : State × List Byte :=
  let a := if dwordWindow pa then pa / 8 * 8 else pa
  let (s, v) := windowRead s a
  (s, toBytes (v.toNat >>> (8 * (pa - a))) n)

/-- `n` bytes that lie in one aligned dword read at a physical address (R230, R378). -/
def busRead (s : State) (p : Party) (ph : Phys) (n : Nat) : State × Loaded :=
  if inPool ph.pa then poolRead s p ph.kind ph.pa n
  else
    let (s, bs) := outsideBytes s ph.pa n
    (s, ⟨bs, 0, true, [], false⟩)

/-- A read by a unit whose data it uses at once. Of a core: its fills are sent and installed, but for a line with an uncorrectable
error, and what it hit is used (R151, R228, R262). -/
def settleRead (s : State) (p : Party) (va : Word) (ph : Phys) (l : Loaded) (weak : Bool) : State :=
  match p.core with
  | none => meshFlits s p.d 1
  | some c =>
    let lost := lostSectors s (l.fills.map (·.sec))
    let s := installFills (sendFills s p.d c p.ranges (fun _ => some va) l.fills) p.d c weak (soundFills l.fills lost)
    let s := lost.foldl (unhold p.d) s
    if ph.kind = .pma then l1Read s p.d c [ph.pa / 32] else s

/-- Where a translated read of a context stands: its die, context and root. -/
structure Space where
  d : Fin 2
  ctx : Nat
  ppn : Nat
  deriving DecidableEq, Repr

/-- One dword read through a context by a party; the address of a failing translation with its reason. -/
def readDword (s : State) (sp : Space) (p : Party) (va : Word) : State × Except (Word × Nat) (List Byte × Nat) :=
  match translateOn s sp.d p.core sp.ctx sp.ppn va .read with
  | (s, .error r) => (s, .error (va, r))
  | (s, .ok ph) =>
    let (s, l) := busRead s p ph 8
    (settleRead s p va ph l false, .ok (l.bytes, l.ts))

/-- `n` dwords from `va`, bytes lowest first, with the largest timestamp; the first failure, which is the lowest. -/
def readDwords (s : State) (sp : Space) (p : Party) (va : Word) : Nat → State × Except (Word × Nat) (List Byte × Nat)
  | 0 => (s, .ok ([], 0))
  | n + 1 =>
    match readDword s sp p va with
    | (s, .error e) => (s, .error e)
    | (s, .ok (bs, t)) =>
      match readDwords s sp p (va + 8) n with
      | (s, .error e) => (s, .error e)
      | (s, .ok (rest, t')) => (s, .ok (bs ++ rest, max t t'))

/-- The sectors of the pool that `n` dwords at an address are read from when no live lease covers them (R151, R228). -/
def askedAt (s : State) (sp : Space) (p : Party) (va : Word) (n : Nat) : List Nat :=
  ((List.range n).filterMap fun k => match (translateOn s sp.d p.core sp.ctx sp.ppn (va + BitVec.ofNat 64 (8 * k)) .read).2 with
    | .ok ph => if inPool ph.pa && !(leased s p ph.kind (ph.pa / 32)) then some (ph.pa / 32) else none
    | .error _ => none).eraseDups

/-- Bytes of windows read dword by dword. -/
def windowBytes (s : State) (pa n : Nat) : State × List Byte :=
  let (s, bs) := (List.range (n / 8)).foldl (fun (r : State × List Byte) k =>
    let (s, b) := outsideBytes r.1 (pa + 8 * k) 8
    (s, r.2 ++ b)) (s, [])
  let (s, b) := if n % 8 = 0 then (s, []) else outsideBytes s (pa + n / 8 * 8) (n % 8)
  (s, bs ++ b)

/-- `n` bytes at a physical address read by hardware of die `d`. -/
def physRead (s : State) (d : Fin 2) (pa n : Nat) : State × List Byte :=
  if inPool pa then dieLoad s d none pa n else windowBytes s pa n

/-- Bytes written at a physical address of the pool by hardware of die `d`, at system scope; the timestamp received raises
XTS (R221). A write outside the pool reaches no memory. -/
def physWrite (s : State) (d : Fin 2) (pa : Nat) (bs : List Byte) : State :=
  if inPool pa then
    let (s, ts) := dieStore s d none (s.die d).xts pa bs
    s.onDie d fun x => { x with xts := max x.xts ts }
  else s

/-- A little-endian number of `n` bytes at a physical address. -/
def physNum (s : State) (pa n : Nat) : Nat := s.mem.num pa n

/-- Bits of a byte list read as a little-endian number (R8). -/
def listBits (bs : List Byte) (hi lo : Nat) : Nat := bits (ofBytes bs) hi lo

end Sys2Proof.Machine
end

