-- ==== Sys2Proof/Machine/Signals.lean ====
section
/-! DEFINITION. Fence-word signals (17 R344, R437). -/

namespace Sys2Proof.Machine

/-- The value a signal leaves in a fence word (R344). -/
def fenceMerge (word value : Nat) (aborted : Bool) : Nat :=
  (if word / 2 ^ 63 % 2 = 1 ∨ aborted = true then 2 ^ 63 else 0) + max (word % 2 ^ 63) (value % 2 ^ 63)

/-- The record of an access that a queue's thread makes for a packet (R437). -/
def queueRec (q : QueueRef) (ctx seq access reason : Nat) (va : Word) (token : Nat) (m : Master) : SpoolRec :=
  { token, master := m, kind := 1, access, agent := 4, ctx, reason, agentId := BitVec.ofNat 16 q.d.val, fkind := 0,
    pc := BitVec.ofNat 64 (seq % 2 ^ 32 * 2 ^ 32 + q.q.val), va, lanes := 0, cause := 0, tval := 0 }

/-- A signal made at its word's home, or its fault record posted, the signal kept for the answer (R344, R437). -/
def makeSignal (s : State) (g : Signal) : State :=
  let va := BitVec.ofNat 64 g.addr
  let fail := fun (s : State) (r : Nat) =>
    let (tok, s) := s.freshId
    let s := { s with signals := s.signals ++ [{ g with token := tok }] }
    enqueueRec s g.d (queueRec g.q g.ctx g.seq 1 r va tok (.signal g.id))
  match translate s g.d g.ctx (ctxPpn s g.d g.ctx) va .atomic with
  | (s, .error r) => fail s r
  | (s, .ok ph) =>
    if ph.kind = .io then fail s 3
    else
      let (s, _, ts) := poolAtomic s ⟨g.d, none, none, g.tts, 1, []⟩ ph.kind ph.pa 8 fun w => fenceMerge w g.value g.aborted
      s.onDie g.d fun x => { x with xts := max x.xts (max ts g.tts) }

/-- A signal of value `value` to `addr` in a queue's context; none when the address is 0 (R340). The completion that it reports is a
release at system scope all the same, which XTS carries to what a later packet signals (R342). -/
def signalWord (s : State) (q : QueueRef) (ctx seq addr value : Nat) (aborted task : Bool) (tts : Nat) : State :=
  let s := s.onDie q.d fun x => { x with xts := max x.xts tts }
  if addr = 0 then s
  else
    let (id, s) := s.freshId
    makeSignal s { id, d := q.d, q, ctx, seq, addr, value, aborted, task, token := 0, tts }

end Sys2Proof.Machine
end

