-- ==== Sys2Proof/Machine/Swift.lean ====
section
/-! DEFINITION. Ends of nodes, launches, tasks and queues (10 R236, R237; 17 R342 to R344, R347, R348, R351, R352; 07 R166,
R167), and the killing of teams (17 R352; 18 R366). -/

namespace Sys2Proof.Machine

/-- A node has ended. -/
def nodeEnded (n : Node) : Bool := n.st == .done || n.st == .aborted

/-- A queue at rest: IDLE with nothing open and nothing to read, RUN otherwise (R335). -/
def restState (q : Queue) : Queue :=
  { q with st := if q.st = .idle ∨ q.st = .run ∨ q.st = .blocked then
      (if q.hold.isSome ∨ q.full then .blocked else if q.open_ = [] ∧ q.head = q.pub then .idle else .run) else q.st }

/-- The fences of the RESET_QUEUE packets that named a queue, written at STATE 6 in the order they came (R352). -/
def writeResets (s : State) (l : List ResetFence) : State :=
  l.foldl (fun s r => signalWord s r.q r.ctx r.seq r.addr r.value false false (s.die r.q.d).xts) s

/-- A queue whose started packets have all completed: a teardown reaches STATE 6, a failed read or signal STATE 7 (R352,
R437). -/
def settleQueue (s : State) (q : QueueRef) : State :=
  let x := s.queue q
  if x.open_ = [] ∧ x.hold = none then
    if x.st = .draining ∨ x.st = .aborting then
      writeResets (s.onQueue q fun x => { x with st := .stopped, resets := [] }) x.resets
    else if x.err = 6 ∧ x.st ≠ .malformed then s.onQueue q fun x => { x with st := .malformed }
    else s.onQueue q restState
  else s.onQueue q restState

/-- A started copy or FLIP completes (R342): its fence is signalled and its queue is free of it. -/
def completeLaunch (s : State) (id : Nat) (aborted : Bool) (tts : Nat) : State :=
  match s.launches.find? (·.id == id) with
  | none => s
  | some l =>
    let s := { s with launches := s.launches.filter (·.id != id) }
    let s := signalWord s l.q (s.queue l.q).ctx l.seq.toNat l.fence l.fval (aborted || l.aborted) false tts
    settleQueue (s.onQueue l.q fun q => { q with open_ := q.open_.filter (· != id) }) l.q

/-- A task's waiters woken with its status (R167): an acquire of the task's TTS. -/
def wakeTask (handle : Word) (status tts : Nat) (w : Warp) : Warp :=
  match w.status with
  | .taskWait dst h _ => if h = handle then
      retire (writeX { w with wclk := max w.wclk tts } dst (BitVec.ofNat 64 status)) else w
  | _ => w

/-- The handle of a task (R166). -/
def taskHandle (t : Task) : Word := BitVec.ofNat 64 (t.gen * 65536 + t.slot)

/-- A task ends (R166, R167, R244): its reserve slots and stack regions return, its waiters wake. -/
def endTask (s : State) (d : Fin 2) (slot tts : Nat) (aborted : Bool) : State :=
  match (s.die d).tasks.find? fun t => t.slot == slot && t.outcome == none with
  | none => s
  | some t =>
    let s := s.onDie d fun x => { x with
      tasks := (x.tasks.map fun u => if u.slot == slot && u.outcome == none then { u with outcome := some (!aborted), tts } else u).filter
        fun u => u.outcome == none || s.teams.any fun m => m.id == u.team && m.phase != .ended,
      regions := x.regions.filter fun r => !(t.regions.contains r.2 && r.1 == ((x.findNode t.node).map (·.ctx)).getD 0),
      cores := x.cores.set t.core { x.cores[t.core] with charges := x.cores[t.core].charges.filter (·.1 != t.node) } }
    s.mapAgents (fun w => !(isThread w.who) && w.team == t.team) (wakeTask (taskHandle t) (if aborted then 2 else 0) tts)

/-- A launch all of whose nodes have ended completes (R237, R347): its fence, its queue. -/
def endLaunch (s : State) (id : Nat) : State :=
  match s.launches.find? (·.id == id) with
  | none => s
  | some l =>
    let ns := (s.die l.q.d).nodes.filter fun n => l.nodes.contains n.id
    if l.nodes ≠ [] ∧ ns.all nodeEnded then
      let aborted := l.aborted || ns.any (·.st == .aborted)
      let tts := ns.foldl (fun m n => max m n.tts) 0
      let s := { s with launches := s.launches.filter (·.id != id) }
      let s := s.onDie l.q.d fun x => { x with nodes := x.nodes.filter fun n => !(l.nodes.contains n.id) }
      let s := signalWord s l.q ((ns.head?.map (·.ctx)).getD (s.queue l.q).ctx) l.seq.toNat l.fence l.fval aborted false tts
      let s := s.onQueue l.q fun q => { q with open_ := q.open_.filter (· != id) }
      settleQueue s l.q
    else s

/-- A node admitted to the pool when a slot is free (R348, R351). -/
def admitNode (now : Nat) (x : Die) (id : Nat) : Die :=
  if 0 < poolFree x then
    x.onNode id fun n => if n.st = .pending ∧ n.preds = 0 ∧ n.join = false then { n with st := .ready, readyAt := now } else n
  else x

/-- A queue owns a grid or graph node that waits for a pool slot (R351). -/
def poolWaits (s : State) (q : QueueRef) : Bool :=
  (s.die q.d).nodes.any fun n => n.q == q && n.st == .pending && n.preds == 0 && !n.join && !n.killed && (match n.origin with
    | .launch _ _ => true
    | _ => false)

/-- A queue with such a node is held in STATE 3 until a slot frees (R351). -/
def holdForPool (d : Fin 2) (s : State) (k : Fin 64) : State :=
  let q : QueueRef := ⟨d, k⟩
  if poolWaits s q = (s.queue q).full then s else s.onQueue q fun x => restState { x with full := poolWaits s q }

/-- Pending nodes whose predecessors have all ended enter the pool as slots allow (R348, R351). -/
def admitNodes (s : State) (d : Fin 2) : State :=
  let s := s.onDie d fun x => (x.nodes.map (·.id)).foldl (admitNode (stageNs s)) x
  (List.ofFn fun k : Fin 64 => k).foldl (holdForPool d) s

/-- A fragment warp's node ends (R300, R301): its fragments are complete, and its geometry node owes it no more. -/
def endFragment (s : State) (d : Fin 2) (n : Node) (parent : Nat) (aborted : Bool) : State :=
  s.onDie d fun x =>
    let x := { x with nodes := x.nodes.filter (·.id != n.id),
                      frags := x.frags.map fun f : Fragment => if f.owner == n.id then { f with complete := true } else f }
    x.onNode parent fun g => { g with fragTeams := g.fragTeams.filter (· != n.id), killed := g.killed || aborted,
                                      tts := max g.tts n.tts }

/-- Work of ending nodes: each node with whether it ends ABORTED. Successors count down or abort; a join whose last
predecessor ends is done at once (R348). -/
def endNodes : Nat → Fin 2 → List (Nat × Bool) → State → State
  | 0, _, _, s => s
  | _ + 1, _, [], s => s
  | fuel + 1, d, (id, ab) :: work, s =>
    match (s.die d).findNode id with
    | none => endNodes fuel d work s
    | some n =>
      if nodeEnded n then endNodes fuel d work s
      else
        let s := s.onDie d fun x => x.onNode id fun n => { n with st := if ab then .aborted else .done }
        let task := match n.origin with
          | .task _ => true
          | _ => false
        let s := signalWord s n.q n.ctx n.seq n.fence n.fval ab task n.tts
        let s := match n.origin with
          | .task slot =>
            let s := endTask s d slot n.tts ab
            s.onDie d fun x => { x with nodes := x.nodes.filter (·.id != id) }
          | .fragment p => endFragment s d n p ab
          | .launch _ _ => s
        let s := if ab then s else s.onDie d fun x => n.succ.foldl (fun x m => x.onNode m fun k => { k with preds := k.preds - 1, start := max k.start n.tts }) x
        let more := n.succ.filterMap fun m =>
          if ab then some (m, true)
          else match (s.die d).findNode m with
            | some k => if k.join ∧ k.preds = 0 ∧ k.st = .pending then some (m, false) else none
            | none => none
        endNodes fuel d (more ++ work) s

/-- Nodes ended, their launches completed, and the pool refilled. -/
def finishNodes (s : State) (d : Fin 2) (l : List (Nat × Bool)) : State :=
  let s := endNodes (8 * (s.die d).nodes.length + l.length + 8) d l s
  let s := (s.launches.map (·.id)).foldl endLaunch s
  admitNodes s d

/-! ### Killing -/

/-- A team killed (R352, R366): its warps and commands end, its writes so far remain. -/
def killTeam (s : State) (id : Nat) : State :=
  let ws := s.teamWarps id ++ ((s.findTeam id).map (·.saved)).getD []
  let held := ws.foldl (fun m w => max m (max w.wclk w.smax)) 0
  let cmdTs := (s.cmds.filter (·.team == id)).foldl (fun m c => max m c.maxTs) 0
  let s := s.onTeam id fun t => { t with killed := true, stopped := false, saved := [],
                                         savedXfm := [], startAnswer := none,
                                         phase := if t.phase = .ended then .ended else .running,
                                         tts := max t.tts (max held cmdTs) }
  let s := { s with cmds := s.cmds.filter fun c => !(c.team == id && (match c.kind with
    | .queue _ _ => false
    | _ => true)) }
  s.mapAgents (fun w => !(isThread w.who) && w.team == id) fun w =>
    { w with status := .exited, split := [], mapping := none, pend := [], promises := [], rove := none, batch := none,
             queries := [] }

/-- A team or a node to kill. -/
inductive Victim where
  | team (id : Nat)
  | node (d : Fin 2) (id : Nat)
  deriving DecidableEq, Repr

/-- The teams and nodes that die with those given: a team takes the tasks it launched, a node its teams, and the batches that have caused
no fragment warp yet (R352). What its fragments have had accepted is still applied (R300). Answers the nodes that end ABORTED. -/
def killAll : Nat → List Victim → State → State × List (Fin 2 × Nat)
  | 0, _, s => (s, [])
  | _ + 1, [], s => (s, [])
  | fuel + 1, .team id :: work, s =>
    match s.findTeam id with
    | none => killAll fuel work s
    | some t =>
      if t.killed then killAll fuel work s
      else
        let tasks := bothDies.flatMap fun d =>
          ((s.die d).tasks.filter fun k => k.team == id && k.outcome == none).map fun k => Victim.node d k.node
        let s := killTeam s id
        let tts := ((s.findTeam id).map (·.tts)).getD 0
        let s := s.onDie t.home fun x => x.onNode t.node fun n => { n with killed := true, tts := max n.tts tts }
        killAll fuel (tasks ++ work) s
  | fuel + 1, .node d id :: work, s =>
    match (s.die d).findNode id with
    | none => killAll fuel work s
    | some n =>
      if nodeEnded n then killAll fuel work s
      else
        let teams := (s.teams.filter fun t => t.node == id && t.home == d && !t.killed).map fun t => Victim.team t.id
        let s := s.onDie d fun x => { x.onNode id fun n => { n with killed := true, aborted := true } with
          front := x.front.filter (·.node != id) }
        let (s, l) := killAll fuel (teams ++ n.fragTeams.map (Victim.node d) ++ work) s
        (s, (d, id) :: l)

/-- Of killed nodes of a die those that end at once: a geometry launch with fragments left to apply ends after them (R301). -/
def endsNow (s : State) (d : Fin 2) (l : List (Fin 2 × Nat)) : List (Nat × Bool) :=
  (l.filter fun p => p.1 == d && !((s.die d).frags.any fun f => f.node == p.2)).map fun p => (p.2, true)

/-- Victims killed, their nodes ended ABORTED (R348, R352). -/
def kill (s : State) (l : List Victim) : State :=
  let fuel := l.length + s.teams.length + (s.die 0).nodes.length + (s.die 1).nodes.length + 1
  let (s, nodes) := killAll fuel l s
  let s := finishNodes s 0 (endsNow s 0 nodes)
  finishNodes s 1 (endsNow s 1 nodes)

end Sys2Proof.Machine
end

