-- ==== Sys2Proof/Machine/Cmds.lean ====
section
/-! DEFINITION. Engine commands in common: queues, ends, signals, and the snapshot registers (08 R171 to R173, R183, R185, R186;
18 R367). DEDUCED, unsafe: pushes held, log entry 17; pre-emption and commands, log entry 42. -/

namespace Sys2Proof.Machine

/-- A command is in the copy issue queue of a core. -/
def isCopyOf (d : Fin 2) (c : Fin 24) (x : Cmd) : Bool := x.kind == .copy && x.d == d && x.core == c
/-- A command is in the matrix queue of a ply. -/
def isMatrixOf (d : Fin 2) (c : Fin 24) (p : Nat) (x : Cmd) : Bool := x.kind == .matrix p && x.d == d && x.core == c
/-- A command is resident: its team is not saved. -/
def cmdResident (s : State) (c : Cmd) : Bool :=
  match s.findTeam c.team with
  | some t => t.phase != .saved
  | none => true

/-- A command may run: its team is neither saved nor frozen as a team (R173, R365). -/
def cmdMayRun (s : State) (c : Cmd) : Bool :=
  match s.findTeam c.team with
  | some t => t.phase != .saved && !t.stopped
  | none => true

/-- The commands a queue holds. -/
def queued (s : State) (p : Cmd → Bool) : List Cmd := s.cmds.filter fun c => p c && cmdResident s c
/-- The entries a queue holds. -/
def usedEntries (s : State) (p : Cmd → Bool) : List Nat := (queued s p).map (·.entry)
/-- The lowest free entry of a queue of `n`. -/
def freeEntry (s : State) (p : Cmd → Bool) (n : Nat) : Option Nat :=
  (List.range n).find? fun e => !((usedEntries s p).contains e)

/-- An engine whose release is pending becomes free once its queue has drained (R186). -/
def drainEngines (s : State) (d : Fin 2) (c : Fin 24) : State :=
  let busy := fun p : Nat => !((queued s (isMatrixOf d c p)).isEmpty)
  s.onCore d c fun x => { x with engines := x.engines.filter fun e => !(e.2.2 && !(busy e.1)) }

/-- An error of a copy counted for CPYQ (R185). -/
def countError (s : State) (team err : Nat) : State :=
  s.onTeam team fun t => { t with errCnt := min 255 (t.errCnt + 1), lastErr := err }

/-- A command ends (R172, R183): its entry frees, its promise is no longer outstanding, and with SEN its signal arrives,
carrying its clock, after its writes are complete at the knot's SCOPE; an error sets ERR. -/
def endCmd (s : State) (id err : Nat) : State :=
  match s.findCmd id with
  | none => s
  | some c =>
    let s := s.dropCmd id
    let s := if err ≠ 0 then countError s c.team err else s
    let wide := match cmdSignal s c with
      | some r => scopeWide (getKnot s r).scope
      | none => false
    let s := if wide then s.onDie c.d fun x => { x with xts := max x.xts c.maxTs } else s
    let time := max (max c.maxTs c.time) (if wide then (s.die c.d).xts else 0)
    let s := s.onTeam c.team fun t => { t with
      tts := max t.tts time
      loose := match cmdSignal s c with
        | some r => { t.loose with signalled := tblSet t.loose.signalled c.id r }
        | none => t.loose }
    let s := match c.kind with
      | .stage stream => s.onWarp ⟨c.team, c.widx⟩ fun w =>
          { w with promises := w.promises.filter fun p => !(p.1 == stream && p.2.2 == c.copyNo) }
      | _ => s
    let s := match c.kind with
      | .matrix _ => drainEngines s c.d c.core
      | _ => s
    let s := match c.kind with
      | .queue _ launch => completeLaunch s launch (err != 0) time
      | _ => s
    match cmdSignal s c with
    | none => s
    | some r =>
      { s with knotQ := s.knotQ ++ [{ home := r, op := .arrive (recBits c.record 91 77) (err != 0), src := none, ctx := c.ctx,
                                      d := c.d, time, note := none, cmdTeam := some c.team, recv := none }] }

/-- The position of a linear element or step number in nested loops, innermost first. -/
def loopIndex : List Nat → Nat → List Nat
  | [], _ => []
  | [_], k => [k]
  | n :: t, k => if n = 0 then 0 :: loopIndex t 0 else (k % n) :: loopIndex t (k / n)

/-- Extents of a copy record, i0 first (R175). -/
def copyExtents (r : BitVec 512) : List Nat := [recBits r 271 256, recBits r 287 272, recBits r 303 288, recBits r 319 304]
/-- Trip counts of a matrix record, j0 first (R187). -/
def matrixTrips (r : BitVec 512) : List Nat := [recBits r 155 144, recBits r 167 156, recBits r 179 168, recBits r 191 180]

/-! ### Snapshots (R367) -/

/-- STATE of a command. -/
def cmdStateCode : CmdState → Nat
  | .waiting => 1
  | .running => 2
  | .paused => 3
  | .frozen => 4
  | .signalling => 5

/-- The RID of a posted fault by its token. -/
def ridOf (x : Die) (token : Nat) : Nat := ((x.outst.find? (·.token == token)).map (·.rid)).getD 0

/-- A word of CPYSNAP or MXSNAP. -/
def cmdSnap (s : State) (c : Cmd) (w : Nat) : Nat :=
  if w < 8 then recBits c.record (64 * w + 63) (64 * w)
  else match w with
    | 8 => ((s.findTeam c.team).map (·.tidx)).getD 0 * 2 ^ 32 + c.ctx * 2 ^ 19 + cmdStateCode c.st
    | 9 => match c.kind with
      | .matrix _ => packNat 12 (fun k => (loopIndex (matrixTrips c.record) c.next).getD k 0) 4
      | _ => packNat 16 (fun k => (loopIndex (copyExtents c.record) c.next).getD k 0) 4
    | 10 => if c.kind = .copy ∧ c.st = .paused then ridOf (s.die c.d) c.token else 0
    | _ => 0

/-- A word of XFMSNAP. -/
def xfmSnap (s : State) (e : XfmEntry) (w : Nat) : Nat :=
  match w with
  | 0 => e.word.toNat
  | 1 => ((s.findWarp e.owner).map fun o => (agentIdBits o.who).toNat).getD 0
  | 2 => 1
  | _ => 0

/-- The word of a snapshot register (R114, R367): 0 at or beyond its depth, for a free entry, and for an entry of another
context. A thread has SNAPINFO only (DEDUCED, unsafe: log entry 23). -/
def snapWord (s : State) (w : Warp) (sel idx : Nat) : Nat :=
  match w.who with
  | .thread _ _ => if sel = 0 ∧ idx = 0 then 0x20102001 else 0
  | .warp d c _ _ =>
    let mine := fun x : Cmd => x.ctx == w.ctx
    match sel with
    | 0 => if idx = 0 then 0x20102001 else 0
    | 1 => if 512 ≤ idx then 0
      else match (queued s (isCopyOf d c)).find? fun x => x.entry == idx / 16 with
        | some x => if mine x then cmdSnap s x (idx % 16) else 0
        | none => 0
    | 2 => if 2048 ≤ idx then 0
      else match (queued s (isMatrixOf d c (idx / 256))).find? fun x => x.entry == idx / 16 % 16 with
        | some x => if mine x then cmdSnap s x (idx % 16) else 0
        | none => 0
    | _ => if 256 ≤ idx then 0
      else match (if idx / 128 = 0 then (s.coreAt d c).pipe0 else (s.coreAt d c).pipe1)[idx / 4 % 32]? with
        | some e => if ((s.findTeam e.owner.team).map (·.ctx)) = some w.ctx then xfmSnap s e (idx % 4) else 0
        | none => 0

/-- SNAP (R114). -/
def execSnap (f : FmtS) (s : State) : Out :=
  answer s (retire (writeX s.cur f.d (BitVec.ofNat 64 (snapWord s s.cur f.sel.toNat (readX s.cur f.a).toNat))))

/-- CPYQ's word (R185). -/
def cpyqWord (s : State) (w : Warp) (d : Fin 2) (c : Fin 24) : Nat :=
  let t := s.findTeam w.team
  let all := queued s (isCopyOf d c)
  ((t.map (·.lastErr)).getD 0) * 2 ^ 32 + ((t.map (·.errCnt)).getD 0) * 2 ^ 24 + w.promises.length * 2 ^ 16 +
    (all.filter (·.team == w.team)).length * 2 ^ 8 + (32 - all.length)

/-- CPYQ clears ERRCNT and LASTERR after it reads them (R185). -/
def execCpyq (f : FmtE) (s : State) : Out :=
  let w := s.cur
  match w.who with
  | .thread _ _ => answer s (retire w)
  | .warp d c _ _ =>
    let v := cpyqWord s w d c
    answer (s.onTeam w.team fun t => { t with errCnt := 0, lastErr := 0 }) (retire (writeX w f.d (BitVec.ofNat 64 v)))

end Sys2Proof.Machine
end

