-- ==== Sys2Proof/Machine/Teams.lean ====
section
/-! DEFINITION. Teams: start, retirement, team freezes, suspension and restoration (10 R235, R236, R249 to R251; 18 R365,
R369, R370; 09 R220, R221). Where a team is placed is chosen in Place.lean. DEDUCED, unsafe: log entries 36 and 42. -/

namespace Sys2Proof.Machine

/-- Where a team's translated reads stand (R235). -/
def teamSpace (t : Team) : Space := ⟨t.d, t.ctx, t.ctxRec.ppn⟩

/-- Dword `k` of a byte list. -/
def dwordAt (bs : List Byte) (k : Nat) : Word := BitVec.ofNat 64 (ofBytes ((bs.drop (8 * k)).take 8))

/-- The registers a warp's start loads (R15, R88, R235, R436): x1 to x{NARGS}, and x63 with the end of its region. NARGS above 63
loads x1 to x63 (DESIGN CHOICE, unsafe: log entry 52). -/
def loadArgs (t : Team) (bs : List Byte) (w : Warp) : Warp :=
  let x := Vector.ofFn fun r : Fin 64 =>
    if r.val = 0 then 0 else if r.val ≤ t.kernel.nargs then dwordAt bs (r.val - 1) else w.x[r]
  let w := { w with x }
  match w.region with
  | some r => if t.kernel.stack = 0 then w
    else writeX w 63 (BitVec.ofNat 64 (t.ctxRec.stkBase + t.ctxRec.stkSlot * (r + 1)))
  | none => w

/-- A warp of a team that waits for its start. -/
def waitsStart (id : Nat) (w : Warp) : Bool := !(isThread w.who) && w.team == id && w.status == .startWait

/-- A team's start (R235): the argument block read, an acquire at die scope; a fault posts one record for the team, whose
warps do not issue until it is answered. -/
def startTeam (s : State) (id : Nat) : State :=
  match s.findTeam id with
  | none => s
  | some t =>
    let s := chargeTo s none
    let ws := (s.agents ++ t.saved).filter (waitsStart id)
    let wclk := ws.foldl (fun m w => max m w.wclk) 0
    match readDwords s (teamSpace t) ⟨t.d, some t.core, corePart (s.die t.d) t.d t.core, wclk, t.ctxRec.lease, t.ctxRec.ranges⟩ (BitVec.ofNat 64 t.args) t.kernel.nargs with
    | (s, .ok (bs, ts)) =>
      let s := chargeTo s (corePayer s t.ctx t.d t.core)
      let start := fun w : Warp => { loadArgs t bs w with status := .running, rmax := max w.rmax ts, wclk := max w.wclk ts }
      let s := s.onTeam id fun t => { t with phase := if t.phase = .saved then .saved else .running,
                                             saved := t.saved.map fun w => if waitsStart id w then start w else w }
      s.mapAgents (waitsStart id) start
    | (s, .error (va, r)) =>
      let (tok, s) := s.freshId
      let first := ((ws.find? fun w => w.widx == 0).map (·.who)).getD (.warp t.d t.core 0 0)
      enqueueRec s t.d { token := tok, master := .start id, kind := 1, access := 0, agent := 0, ctx := t.ctx, reason := r,
                         agentId := agentIdBits first, fkind := 0, pc := BitVec.ofNat 64 t.kernel.entry, va, lanes := 0,
                         cause := 0, tval := 0 }

/-- A failed answer on the argument block freezes the team's warps at ENTRY, as it stands (R235, R365; log entry 52). -/
def failStart (s : State) (id : Nat) : State :=
  match s.findTeam id with
  | none => s
  | some t =>
    let fail := fun w : Warp => { w with status := .frozen .startFailed, epc := BitVec.ofNat 64 t.kernel.entry, cause := 0 }
    let s := s.onTeam id fun t => { t with saved := t.saved.map fun w => if waitsStart id w then fail w else w }
    s.mapAgents (waitsStart id) fail

/-- The answer on a team's argument block: one given while it is saved waits for its resumption (R235, R370). -/
def answerStart (s : State) (id : Nat) (failed : Bool) : State :=
  if ((s.findTeam id).map (·.phase)) = some .saved then s.onTeam id fun t => { t with startAnswer := some failed }
  else if failed then failStart s id else startTeam s id

/-! ### Retirement -/

/-- A team may retire (R236): no warp of it is left, none of its commands, and none of their arrivals on its way. -/
def mayRetire (s : State) (t : Team) : Bool :=
  t.phase != .saved && t.phase != .ended && (s.teamWarps t.id).isEmpty && t.saved.isEmpty &&
  !(s.cmds.any fun c => c.team == t.id && (match c.kind with
    | .queue _ _ => false
    | _ => true)) &&
  !(s.knotQ.any fun u => u.cmdTeam == some t.id)

/-- Regions a team's warps took, given back (R436). -/
def freeRegions (x : Die) (ctx : Nat) (l : List Nat) : Die :=
  { x with regions := x.regions.filter fun r => !(r.1 == ctx && l.contains r.2) }

/-- The teams of a cluster leave when every one has retired: their scratchpad, knots and rows free (R236). -/
def dropCluster (s : State) (cluster : Nat) : State :=
  if (s.teams.filter (·.cluster == cluster)).all (·.phase == .ended) then
    { s with teams := s.teams.filter (·.cluster != cluster),
             softErrs := s.softErrs.filter fun e => match e with
               | .tile id _ => !(s.teams.any fun t => t.id == id && t.cluster == cluster)
               | .scratch id _ => !(s.teams.any fun t => t.id == id && t.cluster == cluster)
               | _ => true }
  else s

/-- Nothing of a node is left to do: its teams have ended or it was aborted, every batch is rasterised and every fragment applied
(R301, R348). -/
def nodeOver (x : Die) (n : Node) : Bool :=
  n.st == .running && (n.aborted || decide (nodeTeams n ≤ n.ended)) && n.fragTeams.isEmpty &&
  !(x.front.any fun b => b.node == n.id) && !(x.frags.any fun f => f.node == n.id)

/-- A node of which nothing is left to do will end: an ABORT in the same clock still takes it (R352). -/
def nodeOutcome (s : State) (d : Fin 2) (id : Nat) : State :=
  s.onDie d fun x => x.onNode id fun n => if nodeOver x n && n.doneAt.isNone then { n with doneAt := some x.clock } else n

/-- A node ends: DONE, or ABORTED when a team of it was killed (R348, R366). -/
def endNode (s : State) (d : Fin 2) (n : Node) : State := finishNodes s d [(n.id, n.killed)]

/-- A node whose last clock has passed. -/
def nodeDue (x : Die) (n : Node) : Bool := !(nodeEnded n) && n.doneAt.any fun c => c != x.clock

/-- The geometry node a fragment node serves (R294). -/
def parentNode (n : Node) : Option Nat :=
  match n.origin with
  | .fragment p => some p
  | _ => none

/-- A node's outcome after one of its teams ends, and that of the geometry node it serves (R301). -/
def nodeProgress (s : State) (d : Fin 2) (id : Nat) : State :=
  match ((s.die d).findNode id).bind parentNode with
  | some p => nodeOutcome (nodeOutcome s d id) d p
  | none => nodeOutcome s d id

/-- A team retires (R236, R237). -/
def retireTeam (s : State) (t : Team) : State :=
  let s := s.onCore t.d t.core fun x => { x with engines := x.engines.filter fun e => e.2.1 != t.id }
  let s := s.onDie t.home fun x => freeRegions x t.ctx t.regions
  let s := bothDies.foldl (fun s d => s.onDie d fun x => { x with tasks := x.tasks.filter fun k => !(k.team == t.id && k.outcome.isSome) }) s
  let s := s.onTeam t.id fun t => { t with phase := .ended, regions := [], inReserve := false }
  let s := { s with others := s.others.filter fun w => isThread w.who || w.team != t.id }
  let s := s.onDie t.home fun x => x.onNode t.node fun n => { n with ended := n.ended + 1, tts := max n.tts t.tts }
  dropCluster (nodeProgress s t.home t.node) t.cluster

/-- TEAM_RETIRE. -/
def execTeamRetire (team : Nat) (s : State) : Out :=
  match s.findTeam team with
  | some t => if mayRetire s t then .next (retireTeam s t) else .next s
  | none => .next s

/-! ### Freezing a team -/

/-- Warps of a core have their results in its transform pipes written (R109 step 1, R195, R249). -/
def drainWarps (s : State) (d : Fin 2) (c : Fin 24) (p : WarpId → Bool) : State :=
  let mine := ((s.coreAt d c).pipe0 ++ (s.coreAt d c).pipe1).filter fun e => p e.owner
  let s := s.onCore d c fun x => { x with pipe0 := x.pipe0.filter fun e => !(p e.owner), pipe1 := x.pipe1.filter fun e => !(p e.owner) }
  mine.foldl (fun s e => s.mapAgents (isWarp e.owner) fun w => xfmComplete w e) s

/-- A warp is frozen. -/
def isFrozen (w : Warp) : Bool :=
  match w.status with
  | .frozen _ => true
  | _ => false

/-- A violation that freezes the whole team of the issuing warp at its push (R171, R365): after the drain, its own sr.* are written,
the other warps keep theirs, the team's commands stop. A warp frozen already has had its notice. -/
def freezeTeam (s : State) (code sub : Nat) (tval : Word) : State :=
  let cause := causeWord true code sub
  let id := s.cur.team
  let s := match s.cur.who with
    | .warp d c _ _ => drainWarps s d c fun o => o.team == id
    | .thread _ _ => s
  let s := { s with cur := { s.cur with epc := s.cur.pc, cause, tval } }
  let s := s.onTeam id fun t => { t with stopped := true }
  let ws := (s.teamWarps id).filter fun w => !(isFrozen w)
  let s := s.mapAgents (fun w => !(isThread w.who) && w.team == id && w.status != .exited) fun w =>
    { w with status := match w.status with
        | .frozen k => .frozen k
        | _ => .frozen .violation }
  ws.foldl (fun s w => freezeNotice s w 0 cause tval) s

/-! ### Suspension -/

/-- A warp saved at its boundary (R249, R370): a wait to run again, and the release of R220. -/
def saveWarp (w : Warp) : Warp :=
  { w with wclk := max w.wclk w.smax,
           status := match w.status with
             | .knotWait _ => .running
             | .taskWait _ _ _ => .running
             | .sleepUntil _ _ => .running
             | .held _ => .running
             | st => st }

/-- A warp brought to its boundary (R38, R249): a roving one restores, ending for pre-emption where it roves, and its loads on their
way return. -/
def settleWarp (s : State) (who : Agent) : State :=
  landAllOf (s.onAgent who (roveLeave (s.die (agentDie who)).tc 6)) who
where
  /-- Every load an agent is owed returns. -/
  landAllOf (s : State) (who : Agent) : State := s.withAgent who landAll

/-- The release of a command at its team's suspension (R220). -/
def saveCmd (c : Cmd) : Cmd := { c with time := max c.time c.maxTs }

/-- A core's transform pipes without a team's entries. -/
def takeXfm (id : Nat) (x : Core) : Core :=
  { x with pipe0 := x.pipe0.filter (·.owner.team != id), pipe1 := x.pipe1.filter (·.owner.team != id) }

/-- A team saved (R249): its warps leave their slots, its commands and its entries in the transform pipes stay in its snapshots (R195),
its engines free, and its stores to its scratchpad are released (R220). -/
def saveTeam (s : State) (t : Team) : State :=
  let s := (s.teamWarps t.id).foldl (fun s w => settleWarp s w.who) s
  let x := s.coreAt t.d t.core
  let xfm := (x.pipe0 ++ x.pipe1).filter (·.owner.team == t.id)
  let s := s.onCore t.d t.core (takeXfm t.id)
  let ws := (s.teamWarps t.id).map saveWarp
  let held := ((s.coreAt t.d t.core).engines.find? fun e => e.2.1 == t.id).map (·.2.2)
  let s := s.onCore t.d t.core fun x => { x with engines := x.engines.filter fun e => e.2.1 != t.id }
  let s := { s with cmds := s.cmds.map fun (c : Cmd) => if c.team = t.id then saveCmd c else c }
  let s := s.onTeam t.id fun t => { t with phase := .saved, saved := ws, savedHeld := held, savedXfm := xfm, loose := .empty }
  { s with cur := if !(isThread s.cur.who) && s.cur.team == t.id then { s.cur with status := .exited } else s.cur,
           others := s.others.filter fun w => isThread w.who || w.team != t.id }

/-- The teams of a cluster that may be saved. -/
def clusterOf (s : State) (cluster : Nat) : List Team :=
  s.teams.filter fun t => t.cluster == cluster && (t.phase == .running || t.phase == .starting) && !t.killed

/-- A team's cluster saved (R249). -/
def preempt (s : State) (team : Nat) : State :=
  match s.findTeam team with
  | some t => (clusterOf s t.cluster).foldl saveTeam s
  | none => s

end Sys2Proof.Machine
end

