-- ==== Sys2Proof/Machine/Place.lean ====
section
/-! DEFINITION. The swift: room on a core, preferred cores, placement, pre-emption for class 0 and resumption (10 R233 to R244,
R249 to R251, R436; 17 R349 to R351; 18 R369, R372). DEDUCED, unsafe: log entry 36. -/

namespace Sys2Proof.Machine

/-! ### Room -/

/-- What a team needs of a core: warp slots, scratchpad, knots, rows in each of its plies (R233). -/
structure Need where
  warps : Nat
  scratch : Nat
  knots : Nat
  cells : Nat
  deriving DecidableEq, Repr

/-- The needs of a kernel (R88); a scratchpad allocation is whole KiB (R241). -/
def kernelNeed (k : KDesc) : Need := ⟨k.warps, roundUp k.scratch 1024, k.knots, k.cells⟩

/-- Reserve slots a task team needs (R243). -/
def reserveSlots (k : KDesc) : Nat :=
  max (max (ceilDiv k.warps 4) (ceilDiv k.scratch 262144)) (max (max (ceilDiv k.knots 32) (ceilDiv k.cells 32)) 1)

/-- Plies of a team of `w` warps at base `b`, by WIDX (R241). -/
def teamPlies (b w : Nat) : List Nat := (List.range w).map fun i => (b + i) % 8

/-- A cluster is saved: its teams that retired before hold no room until it returns (R236, R249). -/
def clusterSaved (s : State) (cluster : Nat) : Bool := s.teams.any fun t => t.cluster == cluster && t.phase == .saved

/-- Teams that hold room on a core: those not saved; ended ones hold theirs with their cluster (R236). -/
def coreTeams (s : State) (d : Fin 2) (c : Fin 24) : List Team :=
  s.teams.filter fun t => t.d == d && t.core == c && !(clusterSaved s t.cluster)
/-- The live warps of a core. -/
def coreWarps (s : State) (d : Fin 2) (c : Fin 24) : List Warp :=
  s.agents.filter fun w => w.status != .exited && (match w.who with
    | .warp d' c' _ _ => d' == d && c' == c
    | .thread _ _ => false)

/-- What is taken of a core: the ply of each warp slot in use, scratchpad ranges as first byte and length, knots, tile-store rows as
ply, first row and length, and the ply base last given (R233, R241, R255, R261). -/
structure CoreUse where
  slots : List Nat
  spans : List (Nat × Nat)
  knots : Nat
  rows : List (Nat × Nat × Nat)
  last : Nat
  deriving DecidableEq, Repr

/-- Where a team stands on a core: its ply base, the first byte of its scratchpad range, its first row. -/
structure Seat where
  base : Nat
  sbase : Nat
  row0 : Nat
  deriving DecidableEq, Repr

/-- Ranges that hold nothing of `n` from `a`. -/
def clearOf (l : List (Nat × Nat)) (a n : Nat) : Bool := l.all fun r => decide (a + n ≤ r.1 ∨ r.1 + r.2 ≤ a)
/-- The lowest start of `n` free among `size`, where a range ends or at 0; 0 for nothing. -/
def lowestFree (l : List (Nat × Nat)) (n size : Nat) : Option Nat :=
  if n = 0 then some 0
  else (sortBy (fun a b => decide (a ≤ b)) (0 :: l.map fun r => r.1 + r.2)).find? fun a => decide (a + n ≤ size) && clearOf l a n

/-- The rows taken in any of some plies. -/
def rowsIn (u : CoreUse) (plies : List Nat) : List (Nat × Nat) :=
  (u.rows.filter fun r => plies.contains r.1).map fun r => (r.2.1, r.2.2)

/-- A core's use with one more team. -/
def useWith (u : CoreUse) (n : Need) (x : Seat) : CoreUse :=
  let plies := teamPlies x.base n.warps
  { slots := u.slots ++ plies, spans := if n.scratch = 0 then u.spans else u.spans ++ [(x.sbase, n.scratch)],
    knots := u.knots + n.knots,
    rows := if n.cells = 0 then u.rows else u.rows ++ plies.eraseDups.map fun p => (p, x.row0, n.cells), last := x.base }

/-- Where a team fits on a core (R233, R241, R255, R261): the first ply base of the search whose plies have a free slot for each of its
warps and CELLS free rows that begin at one row, with a scratchpad range, such that `ok` holds of its place. -/
def fitUse (u : CoreUse) (n : Need) (ok : Seat → Bool) : Option Seat :=
  if 1024 < u.knots + n.knots then none
  else (lowestFree u.spans n.scratch 4194304).bind fun sbase =>
    ((List.range 8).map fun i => (u.last + 1 + i) % 8).findSome? fun b =>
      let plies := teamPlies b n.warps
      if plies.all fun p => decide (u.slots.count p + plies.count p ≤ 4) then
        (lowestFree (rowsIn u plies) n.cells 256).bind fun row0 =>
          let x : Seat := ⟨b, sbase, row0⟩
          if ok x then some x else none
      else none

/-- What is taken of a core now, some teams left out of account. -/
def coreUseBut (s : State) (d : Fin 2) (c : Fin 24) (out : List Nat) : CoreUse :=
  let u := ((coreTeams s d c).filter fun t => !(out.contains t.id)).foldl
    (fun u t => useWith u (kernelNeed t.kernel) ⟨t.base, t.sbase, t.row0⟩) ⟨[], [], 0, [], 0⟩
  { u with slots := ((coreWarps s d c).filter fun w => !(out.contains w.team)).map fun w => agentPly w.who, last := (s.coreAt d c).lastBase }
/-- What is taken of a core now. -/
def coreUse (s : State) (d : Fin 2) (c : Fin 24) : CoreUse := coreUseBut s d c []

/-- Task teams of given charges, each filling its charge, find room one after another (R243). -/
def chargesFit (u : CoreUse) : List Nat → Bool
  | [] => true
  | k :: ks =>
    let n : Need := ⟨4 * k, 262144 * k, 32 * k, 32 * k⟩
    match fitUse u n fun _ => true with
    | some x => chargesFit (useWith u n x) ks
    | none => false

/-- The ways in which task teams may share a number of slots, in every order. -/
def chargeLists : Nat → List (List Nat)
  | 0 => [[]]
  | 1 => [[1]]
  | 2 => [[2], [1, 1]]
  | 3 => [[3], [2, 1], [1, 2], [1, 1, 1]]
  | _ => [[4], [3, 1], [1, 3], [2, 2], [2, 1, 1], [1, 2, 1], [1, 1, 2], [1, 1, 1, 1]]

/-- The task teams that stand in a core's reserve, with their charges. -/
def chargedTeams (s : State) (d : Fin 2) (c : Fin 24) : List (Nat × Nat) :=
  ((coreTeams s d c).filter fun t => t.inReserve && t.phase != .ended).map fun t => (t.id, reserveSlots t.kernel)

/-- The parts of a list. -/
def partsOf {α : Type} : List α → List (List α)
  | [] => [[]]
  | a :: l => (partsOf l).map (a :: ·) ++ partsOf l

/-- A core's use leaves room for every set of task teams within `k` slots (R243; log entry 36). -/
def keepsReserve (k : Nat) (u : CoreUse) : Bool := (chargeLists k).all (chargesFit u)

/-- A team at a place of a core leaves the reserve whole, whichever of the task teams there have retired (R243, R244). -/
def leavesReserve (s : State) (d : Fin 2) (c : Fin 24) (resv : Nat) (n : Need) (x : Seat) : Bool :=
  (partsOf (chargedTeams s d c)).all fun gone =>
    let stay := (chargedTeams s d c).filter fun t => !(gone.contains t)
    keepsReserve (resv - (stay.map (·.2)).sum) (useWith (coreUseBut s d c (gone.map (·.1))) n x)

/-- Slots of a ply that hold no live warp, lowest first. -/
def freeSlots (ws : List Warp) (p : Nat) : List (Fin 4) :=
  (List.ofFn fun k : Fin 4 => k).filter fun k => !(ws.any fun w => agentPly w.who == p && agentSlot w.who == k.val)

/-- Where a team of a kernel fits on a core in ordinary room, beside a reserve of RESV `resv` (R240, R243). -/
def fitOrdinary (s : State) (d : Fin 2) (c : Fin 24) (k : KDesc) (resv : Nat) : Option Seat :=
  fitUse (coreUse s d c) (kernelNeed k) (leavesReserve s d c resv (kernelNeed k))
/-- Where one fits in all the room there is. -/
def fitAny (s : State) (d : Fin 2) (c : Fin 24) (k : KDesc) : Option Seat := fitUse (coreUse s d c) (kernelNeed k) fun _ => true

/-- A single team of the kernel can never be placed, its stack apart (R233, R234). -/
def neverFits (k : KDesc) : Bool :=
  k.warps == 0 || decide (32 < k.warps) || decide (4194304 < k.scratch) || decide (1024 < k.knots) || decide (256 < k.cells) ||
  k.cw == 0 || decide (6 < k.cw) || k.ch == 0 || decide (4 < k.ch) || decide (12 < k.cw * k.ch)

/-! ### Stack regions (R436) -/

/-- Regions that serve teams of a die. -/
def halfRegions (r : CtxRec) (d : Fin 2) : List Nat :=
  let h := r.stkCount / 2
  if d = 0 then List.range h else (List.range (r.stkCount - h)).map (· + h)
/-- Free regions of a die's half, lowest first. -/
def regionsFree (x : Die) (d : Fin 2) (ctx : Nat) (r : CtxRec) : List Nat :=
  (halfRegions r d).filter fun k => !(x.regions.contains (ctx, k))
/-- The arena of a context cannot serve the kernel's stack; of its halves, the one of the launching die counts (R436; DESIGN CHOICE,
unsafe: log entry 36). -/
def stackNever (k : KDesc) (r : CtxRec) (d : Fin 2) : Bool :=
  k.stack != 0 && (decide (r.stkSlot < k.stack) || r.stkBase == 0 || decide ((halfRegions r d).length < k.warps))

/-! ### Where a team goes -/

/-- Mesh distance of two cores (R240). -/
def meshDist (a b : Nat) : Nat :=
  let f := fun x y : Nat => (x - y) + (y - x)
  f (a % 6) (b % 6) + f (a / 6) (b / 6)

/-- The cores of a resident partition whose teams may be placed: none while it swaps out (R372, R373). -/
def placeCores (x : Die) (d : Fin 2) (p : Nat) : List (Fin 24) :=
  match tblGet x.parts p with
  | some r =>
    if x.res.getLsbD p ∧ !(match x.partOp with
        | some (.swapout, q) => q.val == p
        | _ => false) then
      (List.ofFn fun c : Fin 24 => c).filter fun c => (r.cores[d]).getLsbD c.val
    else []
  | none => []
/-- RESV of a partition (R371). -/
def partResv (x : Die) (p : Nat) : Nat := ((tblGet x.parts p).map (·.resv)).getD 0

/-- A place for one team: its core, its place there, and whether it stands in a task's charged room (R244). -/
structure Spot where
  core : Fin 24
  seat : Seat
  reserve : Bool
  deriving DecidableEq, Repr

/-- The least of a list by a key, the first of equals. -/
def leastBy {α : Type} (key : α → Nat) : List α → Option α
  | [] => none
  | a :: t => match leastBy key t with
    | none => some a
    | some b => if key b < key a then some b else some a

/-- The place of a team of a 1 x 1 cluster in ordinary room: its preferred core, else the nearest with room, the lower number on
a tie (R240). -/
def pickCore (s : State) (d : Fin 2) (cores : List (Fin 24)) (k : KDesc) (resv pref : Nat) : Option Spot :=
  let fits := cores.filterMap fun c => (fitOrdinary s d c k resv).map fun x => (⟨c, x, false⟩ : Spot)
  leastBy (fun x => 64 * meshDist x.core.val pref + x.core.val) fits

/-- Cores of a rectangle whose top-left core is `c`, by rank; none where it leaves the mesh (R234). -/
def rectCores (k : KDesc) (c : Fin 24) : Option (List (Fin 24)) :=
  if c.val % 6 + k.cw ≤ 6 ∧ c.val / 6 + k.ch ≤ 4 then
    some ((List.range (k.cw * k.ch)).map fun r => Fin.ofNat 24 (c.val + r / k.cw * 6 + r % k.cw))
  else none

/-- The places of a cluster (R240): the position whose nearest core is closest to the preferred core, the lowest top-left core
among those. -/
def pickRect (s : State) (d : Fin 2) (cores : List (Fin 24)) (k : KDesc) (resv pref : Nat) : Option (List Spot) :=
  let spots := (List.ofFn fun c : Fin 24 => c).filterMap fun c =>
    (rectCores k c).bind fun l =>
      if l.all cores.contains then
        (l.mapM fun c => (fitOrdinary s d c k resv).map fun x => (⟨c, x, false⟩ : Spot))
      else none
  leastBy (fun l => l.foldl (fun m x => min m (meshDist x.core.val pref)) 64) spots

/-- Places for a team or cluster in ordinary room. -/
def pickOrdinary (s : State) (d : Fin 2) (part : Nat) (k : KDesc) (pref : Nat) : Option (List Spot) :=
  let x := s.die d
  let cores := placeCores x d part
  if k.cw * k.ch = 1 then (pickCore s d cores k (partResv x part) pref).map fun p => [p]
  else pickRect s d cores k (partResv x part) pref

/-- The preferred core of a node's next team: that of its tile or block, or TIDX mod 24 (R239, R294). -/
def preferred (n : Node) (tidx : Nat) : Nat := n.pref.getD (tidx % 24)

/-- The task a node runs. -/
def nodeTask (x : Die) (n : Node) : Option Task :=
  match n.origin with
  | .task slot => x.tasks.find? fun t => t.slot == slot && t.node == n.id
  | _ => none

/-- A task's charged room on its launching core, when no other team of it occupies it (R244). -/
def pickCharged (s : State) (d : Fin 2) (n : Node) (t : Task) (k : KDesc) : Option (List Spot) :=
  if (placeCores (s.die d) d n.part).contains t.core ∧
      !(s.teams.any fun m => m.node == n.id && m.d == d && m.inReserve && m.phase != .ended && m.phase != .saved) then
    (fitAny s d t.core k).map fun x => [⟨t.core, x, true⟩]
  else none

/-- With NEAR, the first team's ordinary room on the launching core (R244). -/
def pickNear (s : State) (d : Fin 2) (n : Node) (k : KDesc) : Option (List Spot) :=
  match n.near with
  | some c =>
    if n.placed = 0 ∧ (placeCores (s.die d) d n.part).contains c then
      (fitOrdinary s d c k (partResv (s.die d) n.part)).map fun x => [⟨c, x, false⟩]
    else none
  | none => none

/-- Places for a node's next team or cluster (R240, R244); a cluster's preferred core is its first team's (DESIGN CHOICE, unsafe: log
entry 36). -/
def pickSpots (s : State) (d : Fin 2) (n : Node) (k : KDesc) : Option (List Spot) :=
  let ordinary := pickOrdinary s d n.part k (preferred n n.placed)
  match nodeTask (s.die d) n with
  | none => ordinary
  | some t => (pickCharged s d n t k).orElse fun _ => (pickNear s d n k).orElse fun _ => ordinary

/-- Regions of a task that no warp of its teams uses, resident or saved (R436). -/
def taskRegions (s : State) (n : Node) (t : Task) : Option (List Nat) :=
  let used := (s.teams.filter fun m => m.node == n.id).flatMap fun m =>
    ((s.teamWarps m.id) ++ m.saved).filterMap (·.region)
  if t.regions.any used.contains then none else some t.regions

/-- Stack regions for the teams at the places, enough being free; the charged room uses the task's (R436). -/
def regionsFor (s : State) (d : Fin 2) (n : Node) (k : KDesc) (r : CtxRec) (spots : List Spot) : Option (List Nat) :=
  if k.stack = 0 then some []
  else match nodeTask (s.die d) n, spots with
    | some t, [⟨_, _, true⟩] => taskRegions s n t
    | _, _ =>
      let free := regionsFree (s.die d) d n.ctx r
      if k.warps * spots.length ≤ free.length then some (free.take (k.warps * spots.length)) else none

/-! ### Ranking -/

/-- Effective class of a node (R349). -/
def effClass (s : State) (n : Node) : Nat :=
  if n.cls = 0 then 0 else max 1 (n.cls - (stageNs s - n.readyAt) / 1000000)

/-- DEADLINE, 0 counting as later than every deadline. -/
def rankDeadline (n : Node) : Nat := if n.deadline = 0 then 2 ^ 64 else n.deadline

/-- The variant a node's first team would fix (R350): each pair is a variant and its number. -/
def chooseVariant (s : State) (x : Die) (n : Node) : Nat :=
  if n.variants.length ≤ 1 then 0
  else
    let margin := ((tblGet x.parts n.part).map (·.margin)).getD 0
    let p := Fin.ofNat 8 n.part
    let cap := (x.ecfg[p]).toNat / 2 ^ 20
    let ok := fun v : Variant =>
      (n.deadline == 0 || decide ((stageNs s + ceilDiv (v.cyc * 256 * 1000) x.fgrant) % 2 ^ 64 ≤ (n.deadline + 2 ^ 64 - margin) % 2 ^ 64)) &&
      (cap == 0 || decide (v.energy * 1000 ≤ x.rem[p]))
    (n.variants.findIdx? ok).getD (n.variants.length - 1)

/-- What the swift may place: a node's next team or cluster, or a saved cluster. -/
inductive Candidate where
  | fresh (node : Nat)
  | saved (node cluster : Nat)
  deriving DecidableEq, Repr

/-- A candidate with the keys of R349 and its TIDX. -/
structure Ranked where
  cand : Candidate
  q : Fin 64
  cls : Nat
  deadline : Nat
  age : Nat
  node : Nat
  tidx : Nat
  deriving DecidableEq, Repr

/-- Candidates of a die's pool (R349, R369). -/
def candidates (s : State) (d : Fin 2) : List Ranked :=
  (s.die d).nodes.flatMap fun n =>
    let mk := fun (c : Candidate) (t : Nat) => (⟨c, n.q.q, effClass s n, rankDeadline n, n.readyAt, n.id, t⟩ : Ranked)
    let all := s.teams.filter fun t => t.node == n.id && t.home == d && t.phase == .saved && !t.killed
    let saved := all.filter fun t => !t.swapped && !(all.any fun o => o.cluster == t.cluster && decide (o.crank < t.crank))
    saved.map (fun t => mk (.saved n.id t.cluster) t.tidx) ++ (if holdsSlot n then [mk (.fresh n.id) n.placed] else [])

/-- Key 3 of R349: the queue's counter and weight. -/
def queueRank (x : Die) (q : Fin 64) : Int := x.queues[q].credit + x.queues[q].weight.toNat

/-- One candidate ranks before another (R349). -/
def ranksBefore (x : Die) (a b : Ranked) : Bool :=
  if a.cls ≠ b.cls then decide (a.cls < b.cls)
  else if a.deadline ≠ b.deadline then decide (a.deadline < b.deadline)
  else if a.q ≠ b.q then
    (if queueRank x a.q = queueRank x b.q then decide (a.q < b.q) else decide (queueRank x b.q < queueRank x a.q))
  else if a.age ≠ b.age then decide (a.age < b.age)
  else if a.tidx ≠ b.tidx then decide (a.tidx < b.tidx)
  else decide (a.node ≤ b.node)

/-- Insertion into a ranked list. -/
def insertRanked (x : Die) (a : Ranked) : List Ranked → List Ranked
  | [] => [a]
  | b :: t => if ranksBefore x a b then a :: b :: t else b :: insertRanked x a t
/-- Candidates in rank order. -/
def rankAll (x : Die) (l : List Ranked) : List Ranked := l.foldl (fun r a => insertRanked x a r) []

/-- The counters after a placement (R349). -/
def creditQueues (x : Die) (all : List Ranked) (won : Ranked) : Die :=
  let tied := ((all.filter fun a => a.cls == won.cls && a.deadline == won.deadline).map (·.q)).eraseDups
  let sum := tied.foldl (fun n q => n + ((x.queues[q].weight.toNat : Nat) : Int)) 0
  let add := fun (x : Die) (q : Fin 64) (k : Int) =>
    { x with queues := x.queues.set q { x.queues[q] with credit := x.queues[q].credit + k } }
  let x := tied.foldl (fun (x : Die) (q : Fin 64) => add x q ((x.queues[q].weight.toNat : Nat) : Int)) x
  add x won.q (-(sum : Int))

/-! ### Placing -/

/-- The kernel a node's next team runs. -/
def nextKernel (s : State) (d : Fin 2) (n : Node) : Option KDesc :=
  (n.variants[n.chosen.getD (chooseVariant s (s.die d) n)]?).map (·.kernel)

/-- A node whose preferred core is fixed: its first tile's slice, translated in its context (R239). -/
def fixPreferred (s : State) (d : Fin 2) (n : Node) : State × Node :=
  match n.pref, n.tile with
  | none, some va =>
    match translate s d n.ctx (ctxPpn s d n.ctx) (BitVec.ofNat 64 va) .read with
    | (s, .ok ph) => (s, { n with pref := some (sliceOf ph.pa) })
    | (s, .error _) => (s, { n with tile := none })
  | _, _ => (s, n)

/-- A fragment warp's start registers (R295). -/
def applyInit (i : Option FragInit) (w : Warp) : Warp :=
  match i with
  | none => w
  | some i => writeM (i.v.foldl (fun w p => setV w p.1 p.2) { w with vl := i.vl }) 1 i.m1

/-- A warp of a placed team, in the lowest free slot of its ply (R15, R235, R241). Bits 2:0 of ENTRY are dropped (DESIGN CHOICE,
unsafe: log entry 52). -/
def newWarp (s : State) (t : Team) (n : Node) (wclk : Nat) (i : Nat) (region : Option Nat) : Warp :=
  let p := (t.base + i) % 8
  let slot := ((freeSlots (coreWarps s t.d t.core) p).head?).getD 0
  let w := { Warp.blank (.warp t.d t.core (Fin.ofNat 8 p) slot) with
    pc := BitVec.ofNat 64 t.kernel.entry &&& ~~~7#64, roveOff := t.kernel.norove, wclk, team := t.id, widx := i, tidx := t.tidx,
    crank := t.crank, cw := t.kernel.cw, ch := t.kernel.ch, ctx := t.ctx, status := .startWait, region }
  applyInit n.init w

/-- The warps of a placed team made resident. -/
def addWarps (s : State) (t : Team) (n : Node) (wclk : Nat) (regions : List Nat) : State :=
  (List.range t.kernel.warps).foldl (fun s i =>
    { s with others := s.others ++ [newWarp s t n wclk i (regions[i]?)] }) s

/-- One team of a node put at a place; its stack regions are taken unless the task holds them. -/
def putTeam (s : State) (d : Fin 2) (n : Node) (k : KDesc) (r : CtxRec) (cluster tidx rank : Nat) (spot : Spot)
    (regions : List Nat) : State × Nat :=
  let (id, s) := s.freshId
  let t : Team :=
    { id, home := d, d, core := spot.core, base := spot.seat.base, sbase := spot.seat.sbase, row0 := spot.seat.row0,
      node := n.id, tidx, cluster, crank := rank, ctx := n.ctx, ctxRec := r,
      kernel := k, args := n.args, scratch := [], loose := .empty, tiles := [], seed := id, knots := [], phase := .starting, killed := false,
      stopped := false, errCnt := 0, lastErr := 0, inReserve := spot.reserve, saved := [], savedHeld := none, savedXfm := [], startAnswer := none, tts := 0,
      swapped := false, regions := if spot.reserve then [] else regions, fragment := n.init.isSome }
  let s := { s with teams := s.teams ++ [t] }
  let s := s.onCore d spot.core fun x => { x with lastBase := spot.seat.base, lastPart := some n.part }
  let s := if spot.reserve then s
    else s.onDie d fun x => { x with regions := x.regions ++ regions.map fun k => (n.ctx, k) }
  (addWarps s t n (max (s.die d).tc n.start) regions, id)

/-- The teams of a cluster put at their places, by rank. -/
def putTeams (d : Fin 2) (n : Node) (k : KDesc) (r : CtxRec) (cluster : Nat) :
    Nat → List Spot → List Nat → State → State × List Nat
  | _, [], _, s => (s, [])
  | rank, p :: ps, regions, s =>
    let (s, id) := putTeam s d n k r cluster (n.placed + rank) rank p (regions.take (if k.stack = 0 then 0 else k.warps))
    let (s, ids) := putTeams d n k r cluster (rank + 1) ps (regions.drop k.warps) s
    (s, id :: ids)

/-- The node after a placement: its variant fixed, its partition's allowance charged, its count (R348, R350). -/
def placedNode (s : State) (d : Fin 2) (n : Node) (count : Nat) : State :=
  let v := chooseVariant s (s.die d) n
  let s := if n.chosen = none ∧ 1 < n.variants.length then
      s.onDie d fun x =>
        let p := Fin.ofNat 8 n.part
        if (x.ecfg[p]).toNat / 2 ^ 20 = 0 then x
        else { x with rem := x.rem.set p (x.rem[p] - ((n.variants[v]?).map (·.energy)).getD 0 * 1000) }
    else s
  s.onDie d fun x => x.onNode n.id fun m =>
    { m with chosen := some (n.chosen.getD v), placed := m.placed + count, st := .running, passed := none, pref := n.pref, tile := n.tile }

/-- A node's next team or cluster placed, where it has room (R240, R242, R244, R436). -/
def placeNode (s : State) (d : Fin 2) (id : Nat) : Option State :=
  match (s.die d).findNode id with
  | none => none
  | some n0 =>
    let (s, n) := fixPreferred s d n0
    match nextKernel s d n, tblGet (s.die d).contexts n.ctx with
    | some k, some r =>
      (pickSpots s d n k).bind fun spots =>
        (regionsFor s d n k r spots).map fun regions =>
          let (cluster, s) := s.freshId
          let s := placedNode s d n spots.length
          let (s, ids) := putTeams d n k r cluster 0 spots regions s
          admitNodes (ids.foldl startTeam s) d
    | _, _ => none

/-! ### Resuming (R249 to R251) -/

/-- The timestamps that an acquire at module scope on a die brings, for a team that comes from the other (R220, R221). -/
def moveClock (s : State) (d : Fin 2) (far : Bool) : Nat := if far then (s.die d).xts else 0

/-- A warp put back (R220, R241, R250, R251): its new slot; the acquire of its resumption, its clock raised by the team-start row, and
at module scope by XTS of its new die. -/
def resumeWarpAt (s : State) (t : Team) (far : Bool) (w : Warp) : State :=
  let p := (t.base + w.widx) % 8
  let slot := ((freeSlots (coreWarps s t.d t.core) p).head?).getD 0
  { s with others := s.others ++
      [{ w with who := .warp t.d t.core (Fin.ofNat 8 p) slot, wclk := max (max (s.die t.d).tc (moveClock s t.d far)) (max w.wclk w.rmax) }] }

/-- The writes of a team that leaves its die complete at module scope there (R220, R221). -/
def leaveDie (s : State) (t : Team) : State :=
  let top := max (t.saved.foldl (fun m w => max m w.smax) 0) ((s.cmds.filter (·.team == t.id)).foldl (fun m c => max m c.maxTs) 0)
  s.onDie t.d fun x => { x with xts := max x.xts top }

/-- A team's entries put back into the transform pipes of its warps' plies (R195, R249). -/
def putXfm (t : Team) (l : List XfmEntry) (x : Core) : Core :=
  l.foldl (fun x e => let p := (t.base + e.owner.widx) % 8; setPipe x p (pipeOf x p ++ [e])) x

/-- Entries of the new core's queues for a resumed team's commands. -/
def reenterCmds (s : State) (t : Team) : State :=
  { s with cmds := (s.cmds.filter (·.team == t.id)).foldl (fun l c =>
      l.map fun x => if x.id = c.id then
        (let same := fun y : Cmd => y.team != t.id && y.core == t.core && y.d == t.d && cmdResident s y
         let ply := fun p : Nat => (t.base + p) % 8
         match c.kind with
         | .copy =>
           let used := (l.filter fun y => (same y || (y.team == t.id && decide (y.id < c.id))) && y.kind == .copy).map (·.entry)
           { x with core := t.core, d := t.d, entry := ((List.range 64).find? fun e => !(used.contains e)).getD 0 }
         | .matrix p =>
           let q := CmdKind.matrix (ply p)
           let used := (l.filter fun y => (same y && y.kind == q) || (y.team == t.id && decide (y.id < c.id) && y.kind == q)).map (·.entry)
           { x with core := t.core, d := t.d, kind := q, entry := ((List.range 32).find? fun e => !(used.contains e)).getD 0 }
         | _ => { x with core := t.core, d := t.d }) else x) s.cmds }

/-- Engines of the plies of a team, free of other teams (R186, R250). -/
def enginesFree (s : State) (d : Fin 2) (c : Fin 24) (base warps id : Nat) : Bool :=
  (s.coreAt d c).engines.all fun e => e.2.1 == id || !((teamPlies base warps).contains e.1)

/-- Sampler contents a core drops when a team comes from another core, or when another partition ran there (R281, R373). -/
def dropCore (c : Core) : Core := { c with tables := [], texels := [], lines := [], sampDrops := c.sampDrops + 1 }

/-- The sites of the soft errors in a saved team's state (R370). -/
def savedErrors (s : State) (t : Team) : List ErrSite :=
  s.softErrs.filter fun e => match e with
    | .reg w _ => w.team == t.id
    | .tile id _ => id == t.id
    | .scratch id _ => id == t.id
    | .knot (.team id _) => id == t.id
    | _ => false

/-- An uncorrectable error in the saved state: every warp of the team freezes with UNCORRECTED at its sr.epc (R370, R429). -/
def lostState (s : State) (t : Team) : State :=
  match savedErrors s t with
  | [] => s
  | e :: _ =>
    let cause := causeWord true cUncorrected 0
    let ws := (s.teamWarps t.id).filter fun w => !(isFrozen w)
    let s := s.mapAgents (fun w => !(isThread w.who) && w.team == t.id && w.status != .exited && !(isFrozen w)) fun w =>
      { w with epc := w.pc, cause, tval := siteTval e, status := .frozen .violation }
    let s := ws.foldl (fun s w => freezeNotice s { w with epc := w.pc } 0 cause (siteTval e)) s
    logError s t.d { kind := 3, struct := (siteCode e).1, ctx := t.ctx, count := 0,
                     agentId := ((ws.head?).map fun w => agentIdBits w.who).getD 0, addr := (siteCode e).2 }

/-- The answer a paused command was given while its team was saved (R370). -/
def applyAnswer (s : State) (c : Cmd) : State :=
  match c.answered with
  | none => s
  | some failed => if failed then endCmd s c.id c.failErr else s.onCmd c.id fun c => { beginCmd s c with answered := none }

/-- A saved team put back at a place of a die (R249 to R251, R220): its record is the one loaded for its context there (R359), its
engines are those of its new plies (R250), and the answers that it and its commands were given take effect (R370). -/
def restoreTeam (s : State) (t : Team) (d : Fin 2) (spot : Spot) : State :=
  let far := t.d != d
  let moved := far || t.core != spot.core
  let s := if far then leaveDie s t else s
  let old := t.base
  let t := { t with d, core := spot.core, base := spot.seat.base, sbase := spot.seat.sbase, row0 := spot.seat.row0,
                    ctxRec := (tblGet (s.die d).contexts t.ctx).getD t.ctxRec,
                    phase := if t.saved.any (·.status == .startWait) then .starting else .running, swapped := false,
                    inReserve := spot.reserve }
  let s := s.onTeam t.id fun _ => { t with saved := [], savedHeld := none, savedXfm := [], startAnswer := none }
  let s := s.onCore d spot.core fun x =>
    let x := putXfm t t.savedXfm (if moved then dropCore x else x)
    { x with lastBase := spot.seat.base,
             engines := match t.savedHeld with
               | some release => (teamPlies t.base (min 8 t.kernel.warps)).foldl (fun e p => tblSet e p (t.id, release)) x.engines
               | none => x.engines }
  let s := { s with cmds := s.cmds.map fun c => if c.team = t.id then
      { c with
        kind := match c.kind with
          | .matrix p => .matrix ((p + 8 - old % 8) % 8)
          | k => k
        time := max c.time (moveClock s d far) } else c }
  let s := reenterCmds s t
  let s := t.saved.foldl (fun s w => resumeWarpAt s t far w) s
  let s := lostState s t
  let s := match t.startAnswer with
    | some failed => answerStart s t.id failed
    | none => s
  (s.cmds.filter fun c => c.team == t.id && c.answered.isSome).foldl applyAnswer s

/-- The teams of a saved cluster by rank; those that retired before keep their rank's place (R236). -/
def savedCluster (s : State) (cluster : Nat) : List Team :=
  sortBy (fun a b => decide (a.crank ≤ b.crank))
    (s.teams.filter fun t => t.cluster == cluster && (t.phase == .saved || t.phase == .ended) && !t.killed)

/-- The places of a saved cluster on a die, its engines free there. -/
def resumeOn (s : State) (d : Fin 2) (n : Node) (l : List Team) (t : Team) : Option (List (Team × Spot)) :=
  let spots := pickOrdinary s d n.part t.kernel (preferred n t.tidx)
  let charged := match nodeTask (s.die d) n with
    | some k => if (taskRegions s n k).isSome ∨ t.kernel.stack = 0 ∨ t.saved.any (fun w => w.region.any k.regions.contains) then
        pickCharged s d n k t.kernel else none
    | none => none
  (charged.orElse fun _ => spots).bind fun sp =>
    let z := l.filterMap fun t => (sp[t.crank]?).map fun x => (t, x)
    if z.all fun p => p.1.savedHeld.isNone || enginesFree s d p.2.core p.2.seat.base p.1.kernel.warps p.1.id then some z else none

/-- A partition spans both dies, resident on each (R371). -/
def spansBoth (s : State) (p : Nat) : Bool :=
  bothDies.all fun d => !((placeCores (s.die d) d p).isEmpty)

/-- Places for a saved cluster: on the die it left, else on the other where its partition spans both (R249; log entry 36). -/
def resumeSpots (s : State) (n : Node) (cluster : Nat) : Option (Fin 2 × List (Team × Spot)) :=
  let l := savedCluster s cluster
  match l.head? with
  | none => none
  | some t =>
    let on := fun d : Fin 2 => (resumeOn s d n l t).map fun z => (d, z)
    (on t.d).orElse fun _ => if spansBoth s n.part then on (otherDie t.d) else none

/-- A team that retired before its cluster was saved keeps its scratchpad, knots and rows beside it (R236). -/
def moveEnded (s : State) (t : Team) (d : Fin 2) (spot : Spot) : State :=
  s.onTeam t.id fun t => { t with d, core := spot.core, base := spot.seat.base, sbase := spot.seat.sbase, row0 := spot.seat.row0 }

/-- A saved cluster resumed where it has room. -/
def resumeCluster (s : State) (d : Fin 2) (node cluster : Nat) : Option State :=
  match (s.die d).findNode node with
  | none => none
  | some n =>
    (resumeSpots s n cluster).map fun l => l.2.foldl (fun s p =>
      if p.1.phase = .ended then moveEnded s p.1 l.1 p.2 else restoreTeam s p.1 l.1 p.2) s

/-! ### Choosing -/

/-- What placing a candidate gives. -/
def tryPlace (s : State) (d : Fin 2) : Candidate → Option State
  | .fresh n => placeNode s d n
  | .saved n c => resumeCluster s d n c

/-- The first candidate in rank order with room, and the state after it is placed (R349). -/
def swiftNext (s : State) (d : Fin 2) : Option (Candidate × State) :=
  let all := candidates s d
  (rankAll (s.die d) all).findSome? fun r =>
    (tryPlace s d r.cand).map fun t => (r.cand, t.onDie d fun x => creditQueues x all r)

/-- TEAM_PLACE. -/
def execTeamPlace (d : Fin 2) (s : State) : Out :=
  match swiftNext s d with
  | some (.fresh _, t) => .next t
  | _ => .next s

/-- TEAM_RESUME. -/
def execTeamResume (team : Nat) (s : State) : Out :=
  match s.findTeam team with
  | none => .next s
  | some t =>
    match swiftNext s t.home with
    | some (.saved _ c, u) => .next (if c = t.cluster then u else s)
    | _ => .next s

/-! ### Pre-emption for class 0 (R369) -/

/-- A partition is pinned on a die (R372). -/
def isPinned (x : Die) (d : Fin 2) (p : Nat) : Bool := ((tblGet x.parts p).map fun r => r.shways[d] == 0).getD false

/-- Clusters that may be pre-empted for a node of a partition, each with its effective class and the number of its teams: class 3 before 2,
the youngest first. -/
def preemptable (s : State) (d : Fin 2) (part : Nat) : List (Nat × Nat × Nat) :=

  let live := s.teams.filter fun t => t.d == d && (t.phase == .running || t.phase == .starting) && !t.killed
  let first := live.filter fun t => !(live.any fun o => o.cluster == t.cluster && decide (o.crank < t.crank))
  let l := first.filterMap fun t => ((s.die t.home).findNode t.node).bind fun n =>
      if n.part = part ∧ 2 ≤ effClass s n then some (effClass s n, t.cluster) else none
  (sortBy (fun a b => decide (b.1 < a.1) || (decide (a.1 = b.1) && decide (b.2 ≤ a.2))) l).map fun p =>
    (p.2, p.1, (live.filter fun t => t.cluster == p.2).length)

/-- Clusters pre-empted. -/
def preemptClusters (s : State) (l : List Nat) : State := l.foldl (fun s c => (clusterOf s c).foldl saveTeam s) s

/-- The clusters whose pre-emption makes room for a node with the fewest teams; of equals those with the fewest teams of class 2, then
the youngest (R369). -/
def preemptChoice (s : State) (d : Fin 2) (n : Node) : Option (List Nat) :=
  let l := preemptable s d n.part
  let teams := fun v : List (Nat × Nat × Nat) => (v.map (·.2.2)).sum
  let sets := (partsOf l).filter fun v => !(v.isEmpty) && (placeNode (preemptClusters s (v.map (·.1))) d n.id).isSome
  (leastBy (fun v => (teams l + 1) * teams v + teams (v.filter (·.2.1 == 2))) sets).map fun v => v.map (·.1)

/-- A READY class-0 node that finds no room in its partition, which is not pinned (R369, R372). -/
def lacksRoom (s : State) (d : Fin 2) (n : Node) : Bool :=
  n.cls == 0 && n.st == .ready && !(isPinned (s.die d) d n.part) && !((placeCores (s.die d) d n.part).isEmpty) && (placeNode s d n.id).isNone

/-- One that has been passed over for 10 us. -/
def passedOver (s : State) (d : Fin 2) (n : Node) : Bool := n.passed.any (fun t => decide (t + 10000 ≤ stageNs s)) && lacksRoom s d n

/-- The nodes a die's swift passes over for lack of room, noted when it first does. -/
def notePassed (s : State) (d : Fin 2) : Option State :=
  ((s.die d).nodes.find? fun n => n.passed.isNone && lacksRoom s d n).map fun n =>
    s.onDie d fun x => x.onNode n.id fun n => { n with passed := some (stageNs s) }

/-- What pre-emption for class 0 takes on a die now. -/
def class0Victims (s : State) (d : Fin 2) : Option (List Nat) :=
  ((s.die d).nodes.filter (passedOver s d)).findSome? (preemptChoice s d)

/-- PREEMPT_CLASS0. -/
def preemptClass0 (s : State) (d : Fin 2) : Option State := (class0Victims s d).map (preemptClusters s)
def execPreemptClass0 (d : Fin 2) (s : State) : Out := .next ((preemptClass0 s d).getD s)

/-- A team's partition swaps out on its die (R373). -/
def swapsOut (s : State) (t : Team) : Bool :=
  match (s.die t.d).partOp, (s.die t.home).findNode t.node with
  | some (.swapout, p), some n => n.part == p.val && !(isPinned (s.die t.d) t.d n.part)
  | _, _ => false

/-- The swift wants a team saved (R369): its partition swaps out, or it makes room for class 0. A team whose node is aborted is killed
instead. -/
def wantsSaved (s : State) (t : Team) : Bool :=
  swapsOut s t ||
  ((class0Victims s t.d).getD []).contains t.cluster

/-- Teams of a cluster saved while their partition swaps out return with it (R373). -/
def markSwapped (s : State) (t : Team) : State :=
  if swapsOut s t then
    { s with teams := s.teams.map fun u : Team => if u.cluster = t.cluster ∧ u.phase = .saved then { u with swapped := true } else u }
  else s

/-- PREEMPT_REQUEST (R249, R369, R370): where the swift wants the team saved, its cluster is. -/
def execPreemptRequest (team : Nat) (s : State) : Out :=
  match s.findTeam team with
  | some t => .next (if wantsSaved s t then markSwapped (preempt s team) t else s)
  | none => .next s

end Sys2Proof.Machine
end

