-- ==== Sys2Proof/Machine/Display.lean ====
section
/-! DEFINITION. Display heads (20 R410 to R413). DEDUCED, unsafe: log entry 39. -/

namespace Sys2Proof.Machine

/-- A head. -/
def State.head (s : State) (d h : Fin 2) : Head := (s.die d).heads[h]
/-- A head changed. -/
def State.onHead (s : State) (d h : Fin 2) (f : Head → Head) : State :=
  s.onDie d fun x => { x with heads := x.heads.set h (f x.heads[h]) }

/-- Fields of a head's ports (R411). -/
def headNum (h : Head) : Nat := (h.rate.extractLsb' 32 32).toNat
def headDen (h : Head) : Nat := (h.rate.extractLsb' 0 32).toNat
def headFmt (h : Head) : Nat := (h.cfg.extractLsb' 16 8).toNat
def headRate (h : Head) : Nat := (h.cfg.extractLsb' 4 4).toNat
def headHen (h : Head) : Bool := h.cfg.getLsbD 31
def headWidth (h : Head) : Nat := (h.timing.extractLsb' 0 16).toNat
def headHeight (h : Head) : Nat := (h.timing.extractLsb' 16 16).toNat
def headHtotal (h : Head) : Nat := (h.timing.extractLsb' 32 16).toNat
def headVtotal (h : Head) : Nat := (h.timing.extractLsb' 48 16).toNat

def headPitch (h : Head) : Nat := (h.cfg.extractLsb' 32 32).toNat

/-- Start of frame `k` in stage ns (R412). -/
def frameTime (h : Head) (k : Nat) : Nat := h.phase.toNat + k * headDen h * 1000000000 / headNum h
/-- Start of active line `j` of the frame under way: the blanking lines come first (R412). -/
def lineTime (h : Head) (j : Nat) : Nat :=
  let lines := h.frame * headVtotal h + (headVtotal h - headHeight h) + j
  h.phase.toNat + lines * headDen h * 1000000000 / (headNum h * headVtotal h)
/-- The least frame that starts at or after a time. -/
def frameAfter (h : Head) (t : Nat) : Nat :=
  if t ≤ h.phase.toNat then 0 else ceilDiv ((t - h.phase.toNat) * headNum h) (headDen h * 1000000000)

/-- Payload rate of LRATE in bits per second (R411); a code beyond 3 carries nothing. -/
def payloadRate : Nat → Nat
  | 0 => 25920000000
  | 1 => 38790000000
  | 2 => 52360000000
  | 3 => 77570000000
  | _ => 0

/-- Setting HEN is refused (R411). -/
def headRefused (h : Head) : Bool :=
  decide (headHtotal h < headWidth h) || decide (headVtotal h ≤ headHeight h) || headNum h == 0 || headDen h == 0 ||
  decide (payloadRate (headRate h) * headDen h < headHtotal h * headVtotal h * headNum h * (if headFmt h = 8 then 30 else 24))

/-- FLIPs of a head that is off complete at once (R413). -/
def flushFlips (s : State) (d h : Fin 2) : State :=
  let l := (s.head d h).flips
  l.foldl (fun s f => completeLaunch s f.launch false 0) (s.onHead d h fun x => { x with flips := [] })

/-- The fields of +0x00 that are not reserved. -/
def headCfgMask : Word := 0xFFFFFFFF80FF00F0#64

/-- A write of a head's +0x00 (R411): HEN starts, refuses or ends scanning; other fields only while HEN is 0. -/
def headControl (s : State) (d h : Fin 2) (v : Word) : State :=
  let x := s.head d h
  if headHen x then
    if v.getLsbD 31 then s
    else flushFlips (s.onHead d h fun x => { x with cfg := x.cfg &&& ~~~0x80000000#64, st := .off, line := none }) d h
  else
    let y := { x with cfg := v &&& headCfgMask }
    let off := { y with cfg := y.cfg &&& ~~~0x80000000#64 }
    if v.getLsbD 31 then
      (if headRefused y then s.onHead d h fun _ => { off with st := .refused }
       else s.onHead d h fun _ => { y with st := .on, nextFrame := frameAfter y (stageNs s) })
    else s.onHead d h fun _ => { off with st := .off }

/-- HEAD_ENABLE: a write of +0x00. -/
def execHeadEnable (d h : Fin 2) (v : BitVec 64) (s : State) : Out := .next (headControl s d h v)

/-- A write of a dword of a head's ports (R411). -/
def headWrite (s : State) (d h : Fin 2) (off : Nat) (v : Word) : State :=
  let idle := fun f : Head → Head => s.onHead d h fun x => if headHen x then x else f x
  match off with
  | 0x00 => headControl s d h v
  | 0x08 => idle fun x => { x with timing := v }
  | 0x10 => idle fun x => { x with rate := v }
  | 0x18 => idle fun x => { x with phase := v }
  | 0x38 => idle fun x => { x with bg := v.setWidth 30 }
  | _ => s

/-- A FLIP latches at frame `k` (R413). -/
def latchesAt (h : Head) (k : Nat) (f : Flip) : Bool :=
  decide (f.release ≤ frameTime h k) && decide (f.start + 20000 ≤ frameTime h k)
/-- A FLIP that latches at `k` is late: an earlier frame starts at or after RELEASE. -/
def lateAt (h : Head) (k : Nat) (f : Flip) : Bool := decide (frameAfter h f.release < k)

/-- FRAME_START (R412, R413): frame `nextFrame` begins once its time has come; the FLIPs that latch complete, and the one
started last is shown. -/
def frameStart (s : State) (d h : Fin 2) : State :=
  let x := s.head d h
  if x.st = .on ∧ frameTime x x.nextFrame ≤ stageNs s then
    let k := x.nextFrame
    let l := x.flips.filter (latchesAt x k)
    let late := (l.filter (lateAt x k)).length
    let s := s.onHead d h fun x => { x with
      frame := k, nextFrame := k + 1, line := if headHeight x = 0 then none else some 0,
      flipped := x.flipped || !l.isEmpty, flips := x.flips.filter fun f => !(latchesAt x k f),
      late := BitVec.ofNat 16 (min 65535 (x.late.toNat + late)),
      image := match l.getLast? with
        | some f => BitVec.ofNat 64 f.image
        | none => x.image }
    l.foldl (fun s f => completeLaunch s f.launch false (s.die d).xts) s
  else s
def execFrameStart (d h : Fin 2) (s : State) : Out := .next (frameStart s d h)

/-- A head after a step of the clock begins at the least frame at or after the new time (R412). -/
def headAfterStep (t : Nat) (h : Head) : Head := if h.st = .on then { h with nextFrame := frameAfter h t, line := none } else h

/-! ### Scan-out (R411, R412) -/

/-- The lines of memory that a row of the image lies in. -/
def scanLines (h : Head) (j : Nat) : List Nat :=
  let base := h.image.toNat + j * headPitch h
  if headWidth h = 0 then [] else (linesOf base (4 * headWidth h)).filter fun n => inPool (128 * n)
/-- Pixel `i` of row `j`: its dword in the image, or the background before the first FLIP, beyond the pool, or when it was not
fetched in time. -/
def scanPixel (s : State) (h : Head) (j i : Nat) : Option (BitVec 32) :=
  let a := h.image.toNat + j * headPitch h + 4 * i
  if h.flipped ∧ inPool a = true ∧ Config.pixelLate s.freeCtr i = false then some (BitVec.ofNat 32 (s.mem.num a 4)) else none
/-- The next active line read by physical address and sent; the pixels not fetched in time are counted. -/
def scanLine (s : State) (d h : Fin 2) : State :=
  let x := s.head d h
  match x.line with
  | none => s
  | some j =>
    let pixels := (List.range (headWidth x)).map (scanPixel s x j)
    let late := if x.flipped then ((List.range (headWidth x)).filter (Config.pixelLate s.freeCtr)).length else 0
    let s := if x.flipped then chargeScan ((scanLines x j).foldl homeRead (chargeTo s none)) else s
    { s.onHead d h fun x => { x with
        scan := pixels, underrun := BitVec.ofNat 16 (min 65535 (x.underrun.toNat + late)),
        line := if j + 1 < headHeight x then some (j + 1) else none } with freeCtr := s.freeCtr + 1 }
/-- The head's next line has begun. -/
def lineDue (s : State) (d h : Fin 2) : Bool :=
  let x := s.head d h
  x.st == .on && (match x.line with
    | some j => decide (lineTime x j ≤ stageNs s)
    | none => false)

end Sys2Proof.Machine
end

