-- ==== Sys2Proof/Machine/Time.lean ====
section
/-! DEFINITION. The stage clock's ports and the timestamps of the Ethernet ports (20 R395 to R398). -/

namespace Sys2Proof.Machine

/-- Whole multiples of a period that lie before the stage time. -/
def passedBefore (c : StageClock) (period : Nat) : Nat := (c.sec * 1000000000 + c.nsec - (if c.frac = 0 then 1 else 0)) / period

/-- A step of the stage clock (R397, R398, R403, R412): the reel in RUN resynchronises, its next second boundary is that of the new
time, and heads seek their frames. The multiples of a period that the step leaps over do not come; one it lands on does (R350,
R420). -/
def stepClock (s : State) (c : StageClock) : State :=
  let s := { s with stage := c, reel := { s.reel with st := if s.reel.st = .run then .resync else s.reel.st, since := c.sec },
                    arbiter := passedBefore c 10000 }
  let t := stageNs s
  let seek := fun x : Die => { x with
    heads := x.heads.map (headAfterStep t)
    refills := Vector.ofFn fun p : Fin 8 => passedBefore c (1000 * energyPeriod x p) }
  (s.onDie 0 seek).onDie 1 seek

/-- A write of 0x1680 (R397): the whole clock, its high seconds from the last write of SECHI; NSEC of 10^9 or more is ignored. -/
def clockWrite (s : State) (v : Word) : State :=
  let nsec := (v.extractLsb' 0 32).toNat
  if nsec < 1000000000 then
    stepClock s { s.stage with sec := s.stage.hiWrite.toNat * 2 ^ 32 + (v.extractLsb' 32 32).toNat, nsec, frac := 0 }
  else s
/-- A write of STEP (R397). -/
def stepWrite (s : State) (v : Word) : State :=
  stepClock s (setStage s.stage ((s.stage.sec * 1000000000 + s.stage.nsec : Nat) + v.toInt))

def execClockSet (v : BitVec 64) (s : State) : Out := .next (clockWrite s v)
def execStep (v : BitVec 64) (s : State) : Out := .next (stepWrite s v)

/-- SECLO_READ. -/
def execSecloRead (_d : Fin 2) (s : State) : Out := .next (secloRead s).1

/-- TIMESTAMP_QUEUE_READ. -/
def execTimestampQueueRead (e : Fin 2) (s : State) : Out := .next (stampTake s e).1

/-- messageTypes that are timestamped: Sync, Delay_Req, Pdelay_Req, Pdelay_Resp (R396). -/
def isEventMessage (t : BitVec 4) : Bool := decide (t.toNat < 4)

/-- PTP_TIMESTAMP: an event message passes port `e` (R396); a full queue drops its timestamp (R397). -/
def execPtpTimestamp (e : Fin 2) (egress : Bool) (msgType : BitVec 4) (seqId : BitVec 16) (s : State) : Out :=
  if isEventMessage msgType && decide ((s.die e).stamps.length < 64) then
    let w0 := BitVec.ofNat 64 (2 ^ 63 + (if egress then 2 ^ 62 else 0) + msgType.toNat * 2 ^ 48 + seqId.toNat * 2 ^ 32 +
      s.stage.nsec % 2 ^ 32)
    .next (s.onDie e fun x => { x with stamps := x.stamps ++ [(w0, BitVec.ofNat 48 s.stage.sec)] })
  else .next s

/-- A time port written (R397). -/
def timeWrite (s : State) (port : Nat) (v : Word) : State :=
  match port with
  | 0x1680 => clockWrite s v
  | 0x1688 => { s with stage := { s.stage with hiWrite := v.setWidth 16 } }
  | 0x1690 => stepWrite s v
  | 0x1698 => { s with stage := { s.stage with rate := v.setWidth 32 } }
  | _ => s

end Sys2Proof.Machine
end

