-- ==== Sys2Proof/Machine/Energy.lean ====
section
/-! DEFINITION. Energy accounts, the power arbiter, the error log, the patrol scrub and fatal errors (21 R414 to R421, R426 to R431;
17 R350). -/

namespace Sys2Proof.Machine

/-! ### The flush (R416) -/

/-- BAL less `e`, saturating at -2^63. -/
def debit (bal e : Nat) : Int :=
  max (-9223372036854775808) (toSigned 64 bal - e)

/-- The two atomics of one context's flush on its entry of the table (R415, R416). -/
def flushEntry (s : State) (d : Fin 2) (ctx e : Nat) : State × Int :=
  let a := s.etBase.toNat + 16 * ctx
  let bal := debit (s.mem.num (a + 8) 8) e
  let p : Party := ⟨d, none, none, (s.die d).xts, 1, []⟩
  let (s, _, _) := poolAtomic s p .pma a 8 fun w => (w + e) % 2 ^ 64
  let (s, _, _) := poolAtomic s p .pma (a + 8) 8 fun _ => ofSigned 64 bal
  (s, bal)

/-- A context's charge flushed: whole nanojoules, the remainder carried. -/
def flushCtx (d : Fin 2) (s : State) (ctx : Nat) : State :=
  let c := tblGetD (s.die d).energy ctx ⟨0, none⟩
  if s.etBase = 0 ∨ c.charge < 1000 then s
  else
    let (s, bal) := flushEntry s d ctx (c.charge / 1000)
    s.onDie d fun x => { x with energy := tblSet x.energy ctx ⟨c.charge % 1000, some bal⟩ }

/-- A charge of `raw` picojoules scaled by CAL (R414, R418). -/
def scaleCal (x : Die) (raw : Nat) : Nat := raw * x.cal / 65536

/-- A period's charges, scaled, added to a die's accounts (R414, R416). -/
def addCharges (x : Die) : Die :=
  let energy := x.rawCtx.foldl (fun (l : Tbl CtxEnergy) c =>
    let e := tblGetD l c.1 ⟨0, none⟩
    tblSet l c.1 { e with charge := e.charge + scaleCal x c.2 }) x.energy
  { x with energy, pcharge := Vector.ofFn fun p : Fin 8 => x.pcharge[p] + scaleCal x x.rawPart[p],
           sysCharge := x.sysCharge + scaleCal x x.rawSys }

/-- A new period begins with nothing charged. -/
def clearRaw (x : Die) : Die :=
  { x with rawCtx := [], rawPart := Vector.replicate 8 0, rawSys := 0, rawOut := 0, cores := x.cores.map fun c => { c with raw := 0 } }

/-- PUSED and SYSUSED take the whole nanojoules of their charges (R416). -/
def flushDie (x : Die) : Die :=
  { x with
    pused := Vector.ofFn fun p : Fin 8 => (x.pused[p] + x.pcharge[p] / 1000) % 2 ^ 64,
    pcharge := Vector.ofFn fun p : Fin 8 => x.pcharge[p] % 1000,
    sysUsed := (x.sysUsed + x.sysCharge / 1000) % 2 ^ 64, sysCharge := x.sysCharge % 1000 }

/-! ### The arbiter (R420, R421) -/

/-- Picojoules over a period of 10 us as milliwatts. -/
def periodMw (pj : Nat) : Nat := pj / 10000

/-- The charged power of LPDDR-6 and links over the last period, in mW (R420 step 1). -/
def outMw (s : State) : Nat := periodMw (scaleCal (s.die 0) (s.die 0).rawOut) + periodMw (scaleCal (s.die 1) (s.die 1).rawOut)

/-- All a die has charged in the last period, in pJ (R420 step 2). -/
def dieCharge (x : Die) : Nat := scaleCal x (x.rawPart.foldl (· + ·) 0 + x.rawSys)

/-- The budget for the cores in mW (R420 step 1). -/
def coreBudget (s : State) (m : PeriodMeter) : Nat := s.plimit * 1000 - m.jorradMw - outMw s

/-- FGRANT (R420 step 2): the highest step of 25 MHz at which the last period's energy per clock fits half the budget. -/
def grantClock (old chargePj budget : Nat) : Nat :=
  (((List.range 49).map fun k => 2000 - 25 * k).find? fun f => decide (chargePj * f * 2 ≤ budget * 1000 * (old * 10))).getD 800

/-- PSHARE of the resident partition that holds a core (R422): 0 is taken as 1; none where no resident partition does. -/
def coreShare (x : Die) (d : Fin 2) (c : Nat) : Option Nat :=
  (x.parts.find? fun e => decide (e.1 < 8) && x.res.getLsbD e.1 && (e.2.cores[d]).getLsbD c).map fun e =>
    max 1 ((e.2.qos.extractLsb' 24 8).toNat)

/-- The sum of the shares of the cores in resident partitions. -/
def shareSum (s : State) : Nat :=
  let f := fun d : Fin 2 => (List.range 24).foldl (fun n c => n + (coreShare (s.die d) d c).getD 0) 0
  f 0 + f 1

/-- A core's allowance in mW (R420 step 3). -/
def coreAllow (s : State) (m : PeriodMeter) (d : Fin 2) (c : Nat) : Nat :=
  match coreShare (s.die d) d c with
  | some share => coreBudget s m * share / shareSum s
  | none => 2000

/-- D after a period (R421): a period is 10 us, so 1 mW allows 10,000 pJ. -/
def nextDuty (c : Core) (chargePj : Nat) : Nat :=
  if c.allow * 10000 < chargePj then max 2 (c.duty - 2)
  else if chargePj * 10 < c.allow * 10000 * 9 then min 16 (c.duty + 1)
  else c.duty

/-- A core at a period boundary. -/
def arbitrateCore (s : State) (m : PeriodMeter) (d : Fin 2) (c : Fin 24) : Core :=
  let x := s.coreAt d c
  let duty := nextDuty x (scaleCal (s.die d) x.raw)
  { x with duty, throttled := duty != 16, allow := coreAllow s m d c.val }

/-- A die at a period boundary. -/
def arbitrateDie (s : State) (m : PeriodMeter) (d : Fin 2) : Die :=
  let x := s.die d
  { x with fgrant := grantClock x.fgrant (dieCharge x) (coreBudget s m),
           cores := Vector.ofFn fun c : Fin 24 => arbitrateCore s m d c }

/-- A context's account is above the roving floor on a die (R417, R419). -/
def aboveFloor (s : State) (d : Fin 2) (ctx : Nat) : Bool :=
  s.etBase == 0 || (match tblGet (s.die d).energy ctx with
    | some ⟨_, some b⟩ => decide (s.roveFloor.toInt < b)
    | _ => true)

/-- A roving warp whose context's account is not above the floor ends (R37). -/
def roveFloored (s : State) (w : Warp) : Option Warp :=
  match w.rove with
  | some r => if r.phase = .rove ∧ aboveFloor s (agentDie w.who) w.ctx = false then some (endRove w r 5) else none
  | none => none

/-- Every such warp ends as its context's account falls. -/
def endFloored (s : State) : State := s.mapAgents (fun w => (roveFloored s w).isSome) fun w => (roveFloored s w).getD w

/-- The arbiter's boundary, one of those that stage time has passed (R416, R420, R421): accounts flushed, then clocks and allowances
from what the period charged. -/
def arbiterPeriod (s : State) (m : PeriodMeter) : State :=
  let s := chargeTo s none
  let s := (s.onDie 0 addCharges).onDie 1 addCharges
  let s := ((s.die 0).energy.map (·.1)).foldl (flushCtx 0) s
  let s := ((s.die 1).energy.map (·.1)).foldl (flushCtx 1) s
  let s := (s.onDie 0 flushDie).onDie 1 flushDie
  let d0 := arbitrateDie s m 0
  let d1 := arbitrateDie s m 1
  endFloored { s with dies := #v[clearRaw d0, clearRaw d1], arbiter := s.arbiter + 1 }

/-- Stage time has reached a boundary (R420). -/
def arbiterDue (s : State) : Bool := decide (s.arbiter < stageNs s / 10000)

/-- ARBITER_PERIOD at a boundary. -/
def execArbiterPeriod (m : PeriodMeter) (s : State) : Out := .next (if arbiterDue s then arbiterPeriod s m else s)

/-- Stage time has reached a whole multiple of PERIOD (R350). -/
def energyDue (s : State) (d : Fin 2) (p : Fin 8) : Bool :=
  let x := s.die d
  energyPeriod x p != 0 && decide (x.refills[p] < stageNs s / (1000 * energyPeriod x p))

/-- REM is set to CAP (R350). -/
def refillRem (s : State) (d : Fin 2) (p : Fin 8) : State :=
  s.onDie d fun x => { x with rem := x.rem.set p (x.ecfg[p].toNat / 2 ^ 20),
                              refills := x.refills.set p (stageNs s / (1000 * energyPeriod x p)) }

/-- ENERGY_PERIOD at a whole multiple of PERIOD (R350). -/
def execEnergyPeriod (d : Fin 2) (p : Fin 8) (s : State) : Out := .next (if energyDue s d p then refillRem s d p else s)

/-- CAL_FIT (R418). -/
def execCalFit (d : Fin 2) (fit : Nat) (s : State) : Out :=
  .next (s.onDie d fun x => if 0xC000 ≤ fit ∧ fit ≤ 0x14000 then { x with cal := fit } else countUp x 11 1)

/-! ### The error log (R430) -/

/-- The 32 bytes of a record. -/
def elogBytes (r : ElogRec) (time : Nat) : List Byte :=
  toBytes (r.count * 2 ^ 32 + r.ctx * 2 ^ 16 + r.struct * 2 ^ 12 + r.kind) 8 ++ toBytes r.agentId.toNat 8 ++ toBytes r.addr 8 ++
    toBytes time 8

/-- ERROR_LOG_POST: the oldest record is posted where there is room (R430). -/
def errorLogPost (s : State) (d : Fin 2) : State :=
  let x := s.die d
  match x.elogQ with
  | [] => s
  | r :: rest =>
    if elogRoom x then
      let s := physWrite s d (x.elBase.toNat + 32 * (x.elHead.toNat % 2 ^ x.elLog2n)) (elogBytes r (stageNs s))
      let s := s.onDie d fun x => dropMended { x with elogQ := rest, elHead := x.elHead + 1 }
      if r.kind = 1 then s else { s with host := { s.host with aplic3 := true } }
    else s
def execErrorLogPost (d : Fin 2) (s : State) : Out := .next (errorLogPost s d)

/-- PATROL_SCRUB of a sector of the die's own LPDDR-6 (R266, R427 to R429): a corrected error is counted and logged with KIND 1, an
uncorrectable one with KIND 2, and nothing freezes. -/
def execPatrolScrub (d : Fin 2) (sector : Nat) (corrected : Bool) (s : State) : Out :=
  .next (if lineInPool (sector / 4) && lineHome (sector / 4) == d then
    (if corrected then logMended s d 0 sector
      else logError s d { kind := 2, struct := 0, ctx := 0, count := 0, agentId := 0, addr := 32 * sector })
    else s)

/-- A demand read of LPDDR-6 for a context met an error that the code corrected, at the sector's home (R428). -/
def mendedRead (s : State) (sector ctx : Nat) : State :=
  if lineInPool (sector / 4) then logMended s (lineHome (sector / 4)) ctx sector else s

/-- FATAL_ERROR (R431): FATAL is set on both dies, whose masters stop, and APLIC source 4 is asserted while the Jorrad link
works. -/
def execFatalError (jorradLink : Bool) (s : State) : Out :=
  let s := (s.onDie 0 fun x => { x with fatal := true }).onDie 1 fun x => { x with fatal := true }
  .next { s with host := { s.host with aplic4 := s.host.aplic4 || jorradLink } }

end Sys2Proof.Machine
end

