-- ==== Sys2Proof/Machine/Spool.lean ====
section
/-! DEFINITION. The fault spool and its answers, freezes ended by the distaff, and shootdowns (18 R360 to R366, R368). -/

namespace Sys2Proof.Machine

/-- Advisory kinds (R364): ROVE_HINT and RECV. -/
def isAdvisory (r : SpoolRec) : Bool := r.kind == 2 || r.kind == 3
/-- FREEZE and HALT notices (R364). -/
def isNotice (r : SpoolRec) : Bool := r.kind == 0x10 || r.kind == 0x11

/-- Room in the ring (R361). -/
def spoolRoom (x : Die) : Bool := decide ((x.spHead - x.spTail).toNat < 2 ^ x.spLog2n)
/-- A RID is free: at most 4,096 are outstanding (R362). -/
def ridFree (x : Die) : Bool := decide (x.outst.length < 4096)
/-- The next RID at or after `r`, 1 to 65,535, that is not outstanding. -/
def pickRid (x : Die) : Nat → Nat → Nat
  | 0, r => r
  | fuel + 1, r =>
    let r := if r = 0 ∨ 65535 < r then 1 else r
    if x.outst.any (·.rid == r) then pickRid x fuel (r + 1) else r

/-- The 64 bytes of a record (R364). -/
def recordBytes (r : SpoolRec) (rid time : Nat) : List Byte :=
  let w0 := r.fkind * 2 ^ 61 + r.agentId.toNat % 2 ^ 11 * 2 ^ 48 + rid * 2 ^ 32 + r.reason * 2 ^ 29 + r.ctx * 2 ^ 16 +
    r.agent * 2 ^ 12 + r.access * 2 ^ 8 + r.kind
  toBytes w0 8 ++ toBytes r.pc.toNat 8 ++ toBytes r.va.toNat 8 ++ toBytes r.lanes.toNat 16 ++ toBytes time 8 ++
    toBytes r.cause.toNat 8 ++ toBytes r.tval.toNat 8

/-- A record may be posted now, or, if advisory, is dropped now (R361, R362). -/
def postable (x : Die) (r : SpoolRec) : Bool :=
  isAdvisory r || (x.spEn && spoolRoom x && (isNotice r || ridFree x))

/-- Event bits a posted record raises (R361). -/
def postEvents (r : SpoolRec) : BitVec 4 := if isNotice r then 6 else 2

/-- One record posted (R361, R362), or an advisory one dropped and counted. -/
def postRecord (s : State) (d : Fin 2) (r : SpoolRec) : State :=
  let x := s.die d
  if isAdvisory r && !(x.spEn && spoolRoom x) then s.onDie d fun x => { x with drops := min 65535 (x.drops + 1) }
  else
    let fault := !(isAdvisory r) && !(isNotice r)
    let rid := if fault then pickRid x 65536 x.nextRid else 0
    let s := if fault then s.onDie d fun x => { x with nextRid := rid + 1, outst := x.outst ++ [⟨rid, r.token, r.master⟩] } else s
    let s := physWrite s d (x.spBase.toNat + 64 * (x.spHead.toNat % 2 ^ x.spLog2n)) (recordBytes r rid (stageNs s))
    let s := s.onDie d fun x => { x with spHead := x.spHead + 1 }
    raiseEvents s d (·.spool) (postEvents r)

/-- SPOOL_POST: the first record of a die that may be posted (R361). -/
def spoolPost (s : State) (d : Fin 2) : State :=
  let x := s.die d
  match x.spoolQ.findIdx? (postable x) with
  | some k => match x.spoolQ[k]? with
    | some r => postRecord (s.onDie d fun x => { x with spoolQ := x.spoolQ.eraseIdx k }) d r
    | none => s
  | none => s
def execSpoolPost (d : Fin 2) (s : State) : Out := .next (spoolPost s d)

/-! ### Answers (R363) -/

/-- A warp's fault resolved: it replays when every record of its instruction is answered. -/
def warpResolved (tok : Nat) (w : Warp) : Warp :=
  match w.status with
  | .spool toks =>
    let rest := toks.filter (· != tok)
    { w with status := if rest = [] then .running else .spool rest }
  | _ => w

/-- A warp's fault failed: it freezes at once with sr.cause unchanged. -/
def warpFailed (tok : Nat) (w : Warp) : Warp :=
  match w.status with
  | .spool toks => if toks.contains tok then { w with status := .frozen .failedAnswer } else w
  | _ => w

/-- Tokens a warp waits on. -/
def warpTokens (s : State) (id : WarpId) : List Nat :=
  let ws := s.agents.filter (isWarp id) ++ s.teams.flatMap fun t => t.saved.filter (isWarp id)
  ws.flatMap fun w => match w.status with
    | .spool toks => toks
    | _ => []

/-- A queue stopped by a failed answer: STATE 7 with ERR 6 once every packet already started has run on, one that it holds among them
(R343, R437). -/
def failQueue (s : State) (q : QueueRef) : State := settleQueue (s.onQueue q fun x => { x with err := 6 }) q

/-- The effect of an answer on a fault's master (R363, R235, R437). -/
def answerMaster (s : State) (d : Fin 2) (o : Outstanding) (failed : Bool) : State :=
  match o.master with
  | .warp id =>
    if failed then
      let toks := warpTokens s id
      let s := s.onWarp id (warpFailed o.token)
      s.onDie d fun x => { x with outst := x.outst.filter fun p => !(toks.contains p.token),
                                  spoolQ := x.spoolQ.filter fun r => !(r.kind == 1 && toks.contains r.token) }
    else s.onWarp id (warpResolved o.token)
  | .cmd id =>
    match s.findCmd id with
    | some c => if c.st = .paused ∧ c.token = o.token then
        (if cmdResident s c = false then s.onCmd id fun c => { c with answered := some failed }
         else if failed then endCmd s id c.failErr else s.onCmd id (beginCmd s)) else s
    | none => s
  | .start t => answerStart s t failed
  | .queue q => if failed then failQueue (s.onQueue q fun x => { x with head := x.head - 1, hold := none }) q else s
  | .signal id =>
    match s.signals.find? (·.id == id) with
    | none => s
    | some g =>
      let s := { s with signals := s.signals.filter (·.id != id) }
      if failed then (if g.task then s else failQueue s g.q) else makeSignal s g
  | .none => s

/-- The fault of an RID answered, and the RID freed (R363). -/
def answerRid (s : State) (d : Fin 2) (rid : Nat) (failed : Bool) : State :=
  match (s.die d).outst.find? (·.rid == rid) with
  | some o =>
    if rid = 0 then s
    else answerMaster (s.onDie d fun x => { x with outst := x.outst.filter (·.rid != rid) }) d o failed
  | none => s

/-- FANSW (R354, R363): a release at system scope toward the master; the record at physical x[A], whose RID is bits 47:32 of its first dword; x[B] 0 resolved, 1 failed,
any other value answers nothing (R9 reads it as no defined answer; log entry 16). -/
def execFansw (f : FmtS) (s : State) : Out :=
  match s.cur.who with
  | .warp _ _ _ _ => illegal s 6 (.fansw f)
  | .thread d _ =>
    let b := (readX s.cur f.b).toNat
    let (s, bs) := physRead s d (readX s.cur f.a).toNat 8
    let s := releaseAt s 5
    let s := if b < 2 then answerRid s d (listBits bs 47 32) (b == 1) else s
    answer s (retire (acquireFence s.cur))

/-! ### MCTL (R366) -/

/-- A resumed halted warp, or one frozen by a trap with TVEC 0 or a failed answer (R366); any other stays as it is. After a failed answer
it keeps its KARRW arrival (DESIGN CHOICE, unsafe: log entry 57). -/
def resumeWarp (w : Warp) : Warp :=
  match w.status with
  | .halted => { w with pc := w.epc, status := .running, yielded := false, karrw := w.karrw.filter fun k => k.addr == w.epc }
  | .frozen .failedAnswer => { w with status := .running }
  | .frozen .trapNoVector =>
    let code := (w.cause.extractLsb' 0 8).toNat
    if code = 1 ∨ code = 2 then { w with cause := 0, pc := w.epc + 8, status := .running, replayNext := false, karrw := none }
    else if code = 3 ∨ code = 4 then trapReturn w
    else w
  | _ => w

/-- The warp an AGENTID names. -/
def warpAt (s : State) (id : BitVec 16) : Option Warp :=
  s.agents.find? fun w => !(isThread w.who) && w.status != .exited && agentIdBits w.who == id

/-- The team that owns a command by its pushing core and queue entry (R366). -/
def entryOwner (s : State) (agent : Nat) (id : BitVec 16) (entry : Nat) : Option Nat :=
  let d := dieOf (id.toNat % 2)
  let c := id.toNat / 2 % 32
  (s.cmds.find? fun x => cmdResident s x && x.d == d && x.core.val == c && (match x.kind with
    | .copy => agent == 1 && x.entry == entry
    | .matrix p => agent == 3 && 16 * p + x.entry == entry
    | _ => false)).map (·.team)

/-- The fields of a write to MCTL (R368): of AGENTID the die, core, ply and slot, as record bits 63:48 hold an FKIND beside them
(R364). -/
def mctlAgentId (v : Word) : BitVec 16 := (v.extractLsb' 48 11).setWidth 16
def mctlAgent (v : Word) : Nat := (v.extractLsb' 44 4).toNat
def mctlEntry (v : Word) : Nat := (v.extractLsb' 32 7).toNat
def mctlAction (v : Word) : Nat := (v.extractLsb' 0 2).toNat

/-- RESUME (R366). A team frozen at its start reads its argument block again. -/
def mctlResume (s : State) (d : Fin 2) (v : Word) : State :=
  if mctlAgent v = 0 then
    match warpAt s (mctlAgentId v) with
    | none => s
    | some w =>
      if agentDie w.who ≠ d then s
      else if w.status = .frozen .startFailed then
        startTeam (s.mapAgents (fun o => !(isThread o.who) && o.team == w.team && o.status == .frozen .startFailed) fun o =>
          { o with status := .startWait }) w.team
      else s.mapAgents (fun o => o.who == w.who && o.status != .exited) resumeWarp
  else s

/-- KILL (R366): the agent's team, or the team that owns the entry. -/
def mctlKill (s : State) (d : Fin 2) (v : Word) : State :=
  let team := if mctlAgent v = 0 then (warpAt s (mctlAgentId v)).map (·.team)
    else if mctlAgent v = 1 ∨ mctlAgent v = 3 then entryOwner s (mctlAgent v) (mctlAgentId v) (mctlEntry v)
    else none
  match team with
  | some t => match s.findTeam t with
    | some x => if x.d = d then kill s [.team t] else s
    | none => s
  | none => s

/-- A write of MCTL (R368). -/
def mctlWrite (s : State) (d : Fin 2) (v : Word) : State :=
  match mctlAction v with
  | 0 => mctlResume s d v
  | 1 => mctlKill s d v
  | _ => s

/-- RESUME and KILL: the MCTL write with that ACTION. -/
def execResume (d : Fin 2) (v : BitVec 64) (s : State) : Out := .next (if mctlAction v = 0 then mctlResume s d v else s)
def execKill (d : Fin 2) (v : BitVec 64) (s : State) : Out := .next (if mctlAction v = 1 then mctlKill s d v else s)

/-! ### Shootdown (R360) -/

/-- A TLB entry matches a shootdown. -/
def sdMatches (x : Shootdown) (e : TlbEntry) : Bool :=
  match x.mode with
  | 0 => e.ctx == x.ctx && e.page == x.page / 2 ^ (9 * e.level)
  | 1 => e.ctx == x.ctx
  | _ => true

/-- A shootdown started, or, while one runs, waiting (R368). SDMODE 3 is ignored. -/
def sdStart (s : State) (d : Fin 2) (mode ctx : Nat) : State :=
  if 3 ≤ mode then s
  else
    let x : Shootdown := ⟨mode, ctx, (s.die d).sdva.toNat / 4096⟩
    s.onDie d fun y => match y.shootdown with
      | none => { y with shootdown := some x }
      | some _ => { y with sdWaiting := y.sdWaiting ++ [x] }

def execShootdownPage (d : Fin 2) (cid : Nat) (s : State) : Out := .next (sdStart s d 0 cid)
def execShootdownContext (d : Fin 2) (cid : Nat) (s : State) : Out := .next (sdStart s d 1 cid)
def execShootdownAll (d : Fin 2) (s : State) : Out := .next (sdStart s d 2 0)

/-- A line of a die written back and kept clean (R360 step 3). -/
def cleanLine (a : Fin 3) (l : DirLine) : DirLine :=
  match heldBy l a with
  | some .m => { l with held := setHeld l.held a .e, stale := none }
  | some .o => { l with st := .s, owner := none, held := setHeld l.held a .s, stale := none }
  | _ => l

/-- Every dirty line of a die's L2 written back, those under dropped translations among them (R226, R360 step 3). -/
def cleanDie (s : State) (a : Fin 3) : State :=
  let lines := (s.dir.map (·.1)).filter (ownsDirty s a)
  lines.foldl (fun s line =>
    let s := match tblGet s.dir line with
      | some l => sendHome (noteLost s a line l) a none line
      | none => s
    (sysAccess { s with dir := s.dir.map fun p : Nat × DirLine =>
      if p.1 == line then (p.1, cleanLine a p.2) else p } a none line true).1) s

/-- Sampler contents of contexts dropped (R281, R360 step 4). -/
def dropSampler (p : Nat → Bool) (c : Core) : Core :=
  { c with tables := c.tables.filter fun t => !(p t.ctx), texels := c.texels.filter fun t => !(p t.ctx),
           lines := c.lines.filter fun t => !(p t.ctx), sampDrops := c.sampDrops + 1 }

/-- TLB entries a shootdown matches dropped from a core (R358, R360 step 1). -/
def dropTlb (x : Shootdown) (c : Core) : Core := { c with tlb := c.tlb.filter fun e => !(sdMatches x e) }

/-- SHOOTDOWN_COMPLETE: the steps of R360, then the next that waits. -/
def sdComplete (s : State) (d : Fin 2) : State :=
  match (s.die d).shootdown with
  | none => s
  | some x =>
    (cleanDie s (dieAgent d)).onDie d fun y => { y with
      tlb := y.tlb.filter fun e => !(sdMatches x e),
      cores := y.cores.map fun c =>
        let c := dropTlb x c
        if x.mode = 0 then c else dropSampler (fun k => x.mode == 2 || k == x.ctx) c,
      shootdown := y.sdWaiting.head?, sdWaiting := y.sdWaiting.tail }
def execShootdownComplete (d : Fin 2) (s : State) : Out := .next (sdComplete s d)

/-- A write of SPTAIL or ELTAIL moves the tail up to the head and no further (R368, R430). -/
def tailWrite (tail head v : BitVec 32) : BitVec 32 := if (head - tail).toNat < (v - tail).toNat then tail else v
def execSptailWrite (d : Fin 2) (v : BitVec 64) (s : State) : Out :=
  .next (s.onDie d fun x => { x with spTail := tailWrite x.spTail x.spHead (v.setWidth 32) })
def execEltailWrite (d : Fin 2) (v : BitVec 64) (s : State) : Out :=
  .next (s.onDie d fun x => { x with elTail := tailWrite x.elTail x.elHead (v.setWidth 32) })

end Sys2Proof.Machine
end

