-- ==== Sys2Proof/Machine/QRegs.lean ====
section
/-! DEFINITION. Queue registers, distaff thread control, host interrupts and far-knot ownership (17 R335, R337, R353 to R355,
R435; 19 R379). -/

namespace Sys2Proof.Machine

/-- Threads bound to a queue (R355). -/
def boundTo (q : Fin 64) (t : Tctl) : Bool := t.bound && t.queue == q

/-- A NOTIFY write (R337): PUB may advance, and the bound thread wakes. -/
def notifyQueue (s : State) (q : QueueRef) (v : Word) : State :=
  let v := v.setWidth 32
  let s := s.onQueue q fun x =>
    restState { x with pub := if ahead32 v x.pub then v else x.pub, unwritten := false }
  raiseEvents s q.d (boundTo q.q) 1

/-- LOG2N as a write stores it (R335, R368, R430): `lo` to 16, any other value `lo`. -/
def storeLog2 (lo v : Nat) : Nat := if lo ≤ v ∧ v ≤ 16 then v else lo

/-- A write that sets EN (R335). -/
def enableQueue (x : Queue) : Queue :=
  { x with en := true, head := x.pub, err := 0, st := .idle, ctxSet := false, hold := none, unwritten := false }

/-- A write of EN 0, which takes effect only in STATE 6 or 7 (R335). -/
def disableQueue (x : Queue) : Queue :=
  if x.st = .stopped ∨ x.st = .malformed then { x with en := false, st := .disabled, hold := none } else x

/-- A write of the dword at 0x08 (R335): WEIGHT always, PART and LOG2N while EN is 0, then EN. -/
def queueControl (x : Queue) (v : Word) : Queue :=
  let weight : BitVec 8 := v.extractLsb' 16 8
  let x := { x with weight := if weight = 0 then 1 else weight }
  let x := if x.en then x else
    { x with part := v.extractLsb' 8 3, log2n := BitVec.ofNat 5 (storeLog2 4 (v.extractLsb' 0 5).toNat) }
  if v.getLsbD 24 then (if x.en then x else enableQueue x) else (if x.en then disableQueue x else x)

/-- A write of a dword of a queue's register block (R335). Bits 11:0 written to RBASE are dropped (DESIGN CHOICE, unsafe: log entry
53). -/
def queueWrite (s : State) (q : QueueRef) (off : Nat) (v : Word) : State :=
  match off with
  | 0x00 => s.onQueue q fun x => if x.en then x else { x with rbase := v &&& ~~~0xFFF#64 }
  | 0x08 => s.onQueue q fun x => queueControl x v
  | 0x10 => notifyQueue s q v
  | _ => s

/-- QUEUE_NOTIFY. -/
def execQueueNotify (q : QueueRef) (v : BitVec 64) (s : State) : Out := .next (notifyQueue s q v)
/-- QUEUE_ENABLE: a write of 0x08 that sets EN from 0 to 1. -/
def execQueueEnable (q : QueueRef) (v : BitVec 64) (s : State) : Out :=
  .next (if v.getLsbD 24 ∧ (s.queue q).en = false then queueWrite s q 0x08 v else s)
/-- QUEUE_DISABLE: a write of 0x08 with EN 0. -/
def execQueueDisable (q : QueueRef) (v : BitVec 64) (s : State) : Out :=
  .next (if v.getLsbD 24 = false then queueWrite s q 0x08 v else s)

/-! ### Distaff threads -/

/-- RESUME of a frozen or halted thread, which restarts at its PC (R355). -/
def threadResume (s : State) (d : Fin 2) (t : Fin 64) : State :=
  let c := (s.die d).tctl[t]
  if c.frozen || c.halted then
    let s := s.onDie d fun x => { x with tctl := x.tctl.set t { x.tctl[t] with frozen := false, halted := false } }
    s.onThread d t fun w => { w with status := .running }
  else s
def execThreadResume (d : Fin 2) (t : Fin 64) (s : State) : Out := .next (threadResume s d t)

/-- A write of TCTL (R355). -/
def tctlWrite (s : State) (d : Fin 2) (t : Fin 64) (v : Word) : State :=
  let s := s.onDie d fun x =>
    let c : Tctl := { x.tctl[t] with spool := v.getLsbD 7, bound := v.getLsbD 6, queue := (v.extractLsb' 0 6).toFin }
    { x with tctl := x.tctl.set t c }
  if v.getLsbD 8 then threadResume s d t else s

/-- A warp's use of an instruction of the distaff is ILLEGAL with sub-cause 6 (R354). -/
def onThreadOnly (s : State) (i : Instr) (k : Fin 2 → Fin 64 → Out) : Out :=
  match s.cur.who with
  | .thread d t => k d t
  | .warp _ _ _ _ => illegal s 6 i

/-- The pending events written and cleared (R354). -/
def takeEvents (w : Warp) (dst : BitVec 6) : Warp :=
  retire (writeX { w with events := 0 } dst (w.events.setWidth 64))

/-- QWAIT sleeps until an event is pending (R354); the thread stays at it and takes the events when it issues again. -/
def execQwait (f : FmtS) (s : State) : Out :=
  onThreadOnly s (.qwait f) fun _ _ =>
    if s.cur.events = 0 then answer s { s.cur with status := .qwait f.d }
    else answer s (takeEvents s.cur f.d)

/-- QTAIL reads PUB of the bound queue as an acquire (R354, R338). -/
def execQtail (f : FmtS) (s : State) : Out :=
  onThreadOnly s (.qtail f) fun d t =>
    let q := (s.die d).tctl[t].queue
    answer s (retire (writeX (acquireFence s.cur) f.d ((s.queue ⟨d, q⟩).pub.setWidth 64)))

/-! ### Host interrupts (R379) -/

/-- A HOSTIRQ write pushes bits 31:0; one beyond 64 entries waits behind them. -/
def hostirqPush (s : State) (d : Fin 2) (v : Word) : State := setHirq s d (hirqOf s d ++ [v.setWidth 32])
def execHostirq (d : Fin 2) (v : BitVec 64) (s : State) : Out := .next (hostirqPush s d v)

def execHirqRead (d : Fin 2) (s : State) : Out := .next (hirqTake s d).1

/-! ### Far-knot ownership (R435) -/

/-- A write of FKOWN, one update of the knot: its reset values, its flip count kept, its waiters tested. -/
def fkownWrite (s : State) (d : Fin 2) (k : Nat) (v : Word) : State :=
  let r := KnotRef.far (2048 * d.val + k % 2048)
  let s := s.onDie d fun x =>
    { x with fkown := tblSet x.fkown (k % 2048) (BitVec.ofNat 16 ((v.toNat % 2 ^ 13) + (if v.getLsbD 15 then 2 ^ 15 else 0))) }
  let old := getKnot s r
  let new := { Knot.fresh 4 with flips := old.flips, kts0 := old.kts0, kts1 := old.kts1 }
  testWaiters { putKnot s r new with softErrs := (putKnot s r new).softErrs.filter (· != .knot r) } r [new]
def execFkown (d : Fin 2) (k : Fin 2048) (v : BitVec 64) (s : State) : Out := .next (fkownWrite s d k.val v)

end Sys2Proof.Machine
end

