-- ==== Sys2Proof/Machine/Host.lean ====
section
/-! DEFINITION. The host interface block, measurements and reports, the boot sequence and the IMSIC files (19 R378, R385 to
R394). -/

namespace Sys2Proof.Machine

/-! ### Measurements and reports -/

/-- A measurement register extended (R391). -/
def extendMr (h : HostBlock) (i : Fin 8) (e : List Byte) : HostBlock := { h with mr := h.mr.set i (sha3 (h.mr[i] ++ e)) }

/-- Software, or the boot ROM while ROMMODE is 1, may extend a register (R391). -/
def mayExtend (h : HostBlock) (i : Fin 8) : Bool :=
  if i.val = 0 then h.romMode else if i.val ≤ 3 then false else if i.val = 4 then !h.lock4 else true

/-- The 768-byte body of a report (R393). -/
def reportBody (h : HostBlock) (nonce : List Byte) (mrs : List (List Byte)) (time : Nat) : List Byte :=
  toBytes 0x54415A44 4 ++ toBytes 1 2 ++ toBytes (Config.lifecycle.val + (if Config.debugFuse then 4 else 0)) 2 ++ toBytes time 8 ++
  fitBytes 64 nonce ++ fitBytes 64 deviceId ++ fitBytes 512 mrs.flatten ++ h.svns.toList.flatMap (toBytes · 4) ++
  List.replicate 96 0

/-- The message FIPS 204 signs for a context string "DZV2-ATTEST". -/
def attestMessage (body : List Byte) : List Byte :=
  [0, 11, 0x44, 0x5A, 0x56, 0x32, 0x2D, 0x41, 0x54, 0x54, 0x45, 0x53, 0x54] ++ body

/-- An operation of the engine performed (R391, R393, R394). -/
def attestDo (h : HostBlock) : AttestOp → HostBlock
  | .extend i e => extendMr h i e
  | .report nonce mrs time =>
    let body := reportBody h nonce mrs time
    { h with report := body ++ fitBytes 4627 (MlDsa.sign identitySeed (attestMessage body) (toBytes (Config.entropy h.entropyCtr).toNat 32)),
             entropyCtr := h.entropyCtr + 1 }

/-- A write of 0x0100 taken by the engine while it is free (R391, R392, R394). A write with EXTEND and REPORT makes the report
after the extend. -/
def engineTake (h : HostBlock) (time : Nat) (v : BitVec 64) : HostBlock :=
  let h := { h with err := false, lock4 := h.lock4 || v.getLsbD 24, romMode := h.romMode && !(v.getLsbD 25) }
  let h := if v.getLsbD 8 || v.getLsbD 9 then { h with mrIdx := (v.extractLsb' 0 3).toFin } else h
  let report := fun h : HostBlock => { h with busy := some (.report h.nonce h.mr.toList time) }
  if v.getLsbD 8 then
    if mayExtend h h.mrIdx then
      { h with busy := some (.extend h.mrIdx h.extBuf), waiting := if v.getLsbD 9 then 0x200 :: h.waiting else h.waiting }
    else if v.getLsbD 9 then { report h with err := true } else { h with err := true }
  else if v.getLsbD 9 then report h
  else h

/-- A write of 0x0100: it waits while BUSY is 1 (R394). -/
def engineWrite (h : HostBlock) (time : Nat) (v : BitVec 64) : HostBlock :=
  match h.busy with
  | some _ => { h with waiting := h.waiting ++ [v] }
  | none => engineTake h time v

/-- Writes that waited, taken in order until one starts an operation. -/
def engineDrain : Nat → HostBlock → Nat → HostBlock
  | 0, h, _ => h
  | n + 1, h, time =>
    match h.busy, h.waiting with
    | none, v :: rest => engineDrain n (engineTake { h with waiting := rest } time v) time
    | _, _ => h

/-- The operation in force ends (R394). -/
def engineComplete (h : HostBlock) (time : Nat) : HostBlock :=
  match h.busy with
  | none => h
  | some op =>
    let h := { attestDo h op with busy := none }
    engineDrain (h.waiting.length + 1) h time

/-- Every operation and write that came before is done (R394). -/
def engineFlush (h : HostBlock) (time : Nat) : HostBlock :=
  (List.range (2 * h.waiting.length + 2)).foldl (fun h _ => engineComplete h time) h

/-- An extend by software, or by the boot ROM, made once the engine is free: one that R391 forbids sets ERR and changes no register. -/
def softExtend (h : HostBlock) (i : Fin 8) (e : List Byte) : HostBlock :=
  if mayExtend h i then { extendMr h i e with err := false } else { h with err := true }

/-- ATTEST_OP_COMPLETE. -/
def execAttestOpComplete (s : State) : Out := .next { s with host := engineComplete s.host (stageNs s) }

/-- A write of 0x0100 by the harts. -/
def controlWrite (s : State) (v : BitVec 64) : State := { s with host := engineWrite s.host (stageNs s) v }
/-- A hart runs: hart 0 until a failure stops it, the others once they are released (R389, R390). -/
def hartRuns (h : HostBlock) : Bool := h.hart0 || h.harts
/-- What a hart does, where one runs. -/
def byHart (s : State) (f : State → State) : State := if hartRuns s.host then f s else s
def execRomend (s : State) : Out := .next (byHart s fun s => controlWrite s 0x2000000)
def execLock4 (s : State) : Out := .next (byHart s fun s => controlWrite s 0x1000000)
def execExtend (idx : Fin 8) (s : State) : Out := .next (byHart s fun s => controlWrite s (BitVec.ofNat 64 (0x100 + idx.val)))
def execReport (s : State) : Out := .next (byHart s fun s => controlWrite s 0x200)

/-- A write of 0x0020 (R392): the SVNMIN of a kind rises; ignored while LOCK4 is 1, and for a value at or below the current
one. -/
def svnminWrite (s : State) (v : Word) : State :=
  let kind := (v.extractLsb' 8 2).toFin
  let m := (v.extractLsb' 0 8).toNat
  if s.host.lock4 || kind == 0 || decide (64 < m) || decide (m ≤ s.host.svnMin[kind]) then s
  else { s with host := { s.host with svnMin := s.host.svnMin.set kind m } }
def execSvnminRaise (v : BitVec 64) (s : State) : Out := .next (byHart s fun s => svnminWrite s v)

/-! ### The block (R392) -/

/-- A byte field with a dword written. -/
def putField (l : List Byte) (off : Nat) (v : Word) : List Byte := l.take off ++ toBytes v.toNat 8 ++ l.drop (off + 8)

/-- A store of a dword of the block. -/
def hostWrite (s : State) (off : Nat) (v : Word) : State :=
  if off = 0x0020 then svnminWrite s v
  else if off = 0x0100 then controlWrite s v
  else if 0x1000 ≤ off ∧ off < 0x1040 then { s with host := { s.host with nonce := putField s.host.nonce (off - 0x1000) v } }
  else if 0x1100 ≤ off ∧ off < 0x1140 then { s with host := { s.host with extBuf := putField s.host.extBuf (off - 0x1100) v } }
  else s

/-! ### Interrupts (R378, R379) -/

/-- APLIC sources: 1 + d while the HIRQ queue of die d is not empty (R379), 3 and 4 as the displays and the fleet raise them. -/
def aplicSource (s : State) (n : Nat) : Bool :=
  match n with
  | 1 => !(hirqOf s 0).isEmpty
  | 2 => !(hirqOf s 1).isEmpty
  | 3 => s.host.aplic3
  | 4 => s.host.aplic4
  | _ => false

/-- A write of a file's seteipnum_le, offset 0 of its page, raises the identity in bits 31:0. -/
def imsicDeliver (s : State) (addr : Nat) (v : Word) : State :=
  if addr % 4096 = 0 then
    let e := (addr, v.setWidth 32)
    if s.host.imsic.contains e then s else { s with host := { s.host with imsic := s.host.imsic ++ [e] } }
  else s
/-- IMSIC_WRITE. -/
def execImsicWrite (addr : Nat) (v : BitVec 64) (s : State) : Out :=
  match regionOf addr with
  | .imsic _ => .next (imsicDeliver s addr v)
  | .imsicM _ => .next (imsicDeliver s addr v)
  | _ => .next s

/-! ### Verification (R387, R388) -/

/-- Fields of a manifest. -/
def mfield32 (m : List Byte) (off : Nat) : Nat := ofBytes ((m.drop off).take 4)
def mfield64 (m : List Byte) (off : Nat) : Nat := ofBytes ((m.drop off).take 8)
/-- A range of bytes is zero. -/
def zeroBytes (m : List Byte) (a b : Nat) : Bool := ((m.drop a).take (b + 1 - a)).all (· == 0)

/-- Check 1 of R388. -/
def manifestShape (kind : Nat) (m : List Byte) : Bool :=
  m.length == 7680 && mfield32 m 0 == 0x31565A44 && mfield32 m 4 == kind && decide (mfield32 m 12 ≤ 3) &&
  mfield64 m 16 % 8 == 0 && mfield64 m 24 % 8 == 0 && decide (8 ≤ mfield64 m 32) && decide (mfield64 m 32 ≤ 67108864) &&
  mfield64 m 32 % 8 == 0 && zeroBytes m 40 63 && zeroBytes m 128 255 && zeroBytes m 7475 7679

/-- The checks of R388 in order: 0, or the code of the first that fails. The image is what lies in its destination. -/
def verifyImage (h : HostBlock) (kind : Fin 4) (m image : List Byte) : Nat :=
  let pk := (m.drop 256).take 2592
  let key := Fin.ofNat 4 (mfield32 m 12)
  if !(manifestShape kind.val m) then 0x81
  else if sha3 pk != toBytes (Config.keyDigest key).toNat 64 || Config.keyRevoked key then 0x82
  else if !(MlDsa.verify pk (m.take 256) ((m.drop 2848).take 4627)) then 0x83
  else if mfield32 m 8 < h.svnMin[kind] then 0x85
  else if image.length != mfield64 m 32 || sha3 image != (m.drop 64).take 64 then 0x84
  else 0

/-- An image copied to its load address in a memory, and what then lies there (R388). -/
def copyImage (mem : Memory) (m image : List Byte) : Memory := mem.write (mfield64 m 16) image
def landedImage (mem : Memory) (m image : List Byte) : List Byte := mem.read (mfield64 m 16) image.length

/-! ### Boot (R389 to R391) -/

/-- A failure: its code stays, and hart 0 stops (R390). -/
def bootFail (h : HostBlock) (code : Nat) : HostBlock := { h with bootStat := BitVec.ofNat 8 code, hart0 := false, harts := false }

/-- The boot has failed. -/
def bootFailed (h : HostBlock) : Bool := decide (0x80 ≤ h.bootStat.toNat)

/-- The boot-state value (R391). -/
def bootStateValue : List Byte :=
  [BitVec.ofNat 8 Config.lifecycle.val, if Config.debugFuse then 1 else 0] ++ toBytes Config.romRevision.toNat 4 ++ List.replicate 58 0

/-- Step 1: MR3 extended and ROMMODE set. -/
def bootEngine (h : HostBlock) : HostBlock := { extendMr h 3 bootStateValue with romMode := true }

/-- Bytes 0 to 255 of a manifest, extended 64 at a time, then the image's digest (step 2). -/
def extendManifest (h : HostBlock) (i : Fin 8) (m image : List Byte) : HostBlock :=
  let h := (List.range 4).foldl (fun h k => softExtend h i ((m.drop (64 * k)).take 64)) h
  softExtend h i (sha3 image)

/-- BOOT_ROM_LOAD, step 2, after step 1 where the engine has not made it yet. The image goes to the L3 used as memory. Its writes of
0x0100 follow those the engine has not taken yet (R394). -/
def bootRomLoad (h : HostBlock) (time : Nat) (linksTrain : Bool) (m image : List Byte) : HostBlock :=
  let h := if h.mr[(3 : Fin 8)] = List.replicate 64 0 then bootEngine h else h
  if bootFailed h || h.bootStat != 0 || !h.romMode || !h.hart0 then h
  else if !linksTrain then bootFail h 0x86
  else
    let h := { engineFlush h time with l3 := copyImage h.l3 m image }
    let image := landedImage h.l3 m image
    match verifyImage h 1 m image with
    | 0 => { extendManifest h 0 m image with romMode := false, bootStat := 1, svns := h.svns.set 0 (mfield32 m 8) }
    | e => bootFail h e
def execBootRomLoad (linksTrain : Bool) (manifest image : List (BitVec 8)) (s : State) : Out :=
  .next { s with host := bootRomLoad s.host (stageNs s) linksTrain manifest image }

/-- The threads of a die start at ENTRY (step 3; log entry 6). -/
def startThreads (s : State) (d : Fin 2) (entry : Nat) : State :=
  s.mapAgents (fun w => match w.who with
    | .thread d' _ => d' == d
    | _ => false) fun w => { w with pc := BitVec.ofNat 64 entry, status := .running }

/-- DISTAFF_IMAGE_START, step 3: the die verifies its image, whose digest extends MR1 or MR2, and starts it. -/
def distaffStart (s : State) (d : Fin 2) (m image : List Byte) : State :=
  if bootFailed s.host || s.host.bootStat != 1 || (s.die d).image.isSome then s
  else
    let s := s.onDie d fun x => { x with dmem := copyImage x.dmem m image }
    let image := landedImage (s.die d).dmem m image
    if verifyImage s.host 2 m image ≠ 0 then { s with host := bootFail s.host (0x88 + d.val) } else
    let h := extendMr s.host (if d = 0 then 1 else 2) (sha3 image)
    let h := { h with svns := if d = 0 then h.svns.set 1 (mfield32 m 8) else h.svns.set 2 (mfield32 m 8) }
    let s := { s with host := h }
    let s := s.onDie d fun x => { x with image := some { digest := sha3 image, svn := mfield32 m 8, entry := mfield64 m 24 } }
    let s := startThreads s d (mfield64 m 24)
    if (s.die 0).image.isSome && (s.die 1).image.isSome then { s with host := { s.host with bootStat := 2 } } else s
def execDistaffImageStart (d : Fin 2) (manifest image : List (BitVec 8)) (s : State) : Out :=
  .next (distaffStart s d manifest image)

/-- MEMORY_TRAINING, step 4. -/
def memoryTraining (s : State) (d : Fin 2) (ok : Bool) : State :=
  if bootFailed s.host || s.host.bootStat != 2 then s
  else if !ok then { s with host := bootFail s.host 0x87 }
  else
    let s := s.onDie d fun x => { x with trained := true }
    if (s.die 0).trained && (s.die 1).trained then { s with host := { s.host with poolRdy := true, bootStat := 3 } } else s
def execMemoryTraining (d : Fin 2) (ok : Bool) (s : State) : Out := .next (memoryTraining s d ok)

/-- Free bytes for a value the spec does not give. -/
def freeBytes (s : State) (n : Nat) : State × List Byte :=
  ({ s with freeCtr := s.freeCtr + 1 }, (List.range n).map fun k => Config.padByte s.freeCtr k)

/-- The part of an image that its destination has in the pool (R376). -/
def poolPart (m image : List Byte) : List Byte := image.take (2 ^ 40 - mfield64 m 16)

/-- LOADER_START, step 5: the image lies in the pool, MR4 is extended (with a value the spec does not give, log entry 20), LOCK4
is set, both after the writes of 0x0100 the engine has not taken yet (R394), and the other harts are released. What lies beyond the pool's end is stored nowhere, so the hash fails. -/
def loaderStart (s : State) (m image : List Byte) : State :=
  if bootFailed s.host || s.host.bootStat != 3 then s
  else
    let s := hartPut s (mfield64 m 16) (poolPart m image)
    match verifyImage s.host 3 m (landedImage s.mem m (poolPart m image)) with
    | 0 =>
      let (s, e) := freeBytes s 64
      let h := softExtend (engineFlush s.host (stageNs s)) 4 e
      { s with host := { h with lock4 := true, harts := true, bootStat := 4, svns := h.svns.set 3 (mfield32 m 8) } }
    | e => { s with host := bootFail s.host e }
def execLoaderStart (manifest image : List (BitVec 8)) (s : State) : Out := .next (loaderStart s manifest image)

/-- RESET (R389): every state at its reset value but the fuses of R385, the pool (log entry 19) and the model's own counters;
then step 1 of the boot sequence. -/
def moduleReset (s : State) : State :=
  { State.reset with
    mem := s.mem, agenda := s.agenda, freeCtr := s.freeCtr, nextId := s.nextId,
    host := bootEngine { HostBlock.reset with svnMin := s.host.svnMin, entropyCtr := s.host.entropyCtr } }
def execReset (s : State) : Out := .next (moduleReset s)

end Sys2Proof.Machine
end

