-- ==== Sys2Proof/Machine/Partition.lean ====
section
/-! DEFINITION. Partitions: LOAD, SWAPOUT and SWAPIN (18 R371 to R373). -/

namespace Sys2Proof.Machine

/-- A partition record (R371) from its 64 bytes, with whether its reserved bits are clear. -/
def parsePart (r : Nat) : PartRec × Bool :=
  ({ cores := #v[BitVec.ofNat 24 (bits r 23 0), BitVec.ofNat 24 (bits r 47 24)],
     shways := #v[bits r 52 48, bits r 60 56], resv := bits r 66 64, margin := bits r 127 96,
     scways := #v[BitVec.ofNat 24 (bits r 151 128), BitVec.ofNat 24 (bits r 175 152)],
     qos := BitVec.ofNat 64 (bits r 255 192) },
   bits r 511 256 == 0 && bits r 191 176 == 0 && bits r 95 67 == 0 && bits r 63 61 == 0 && bits r 55 53 == 0 &&
     bits r 213 192 == 0)

/-- The number of cores in a mask. -/
def maskCount (m : BitVec 24) : Nat := popOf 24 m.toNat

/-- A resident partition other than `but` holds one of the cores. -/
def coresHeld (x : Die) (d : Fin 2) (cores : BitVec 24) (but : Option Nat) : Bool :=
  x.parts.any fun e => decide (e.1 < 8) && x.res.getLsbD e.1 && some e.1 != but && (e.2.cores[d] &&& cores) != 0

/-- Teams of a partition on a die. -/
def partTeams (s : State) (d : Fin 2) (p : Nat) : List Team :=
  s.teams.filter fun t => t.d == d && (((s.die t.home).findNode t.node).map (·.part)) == some p

/-- Result of LOAD (R372): PERR, in the order of its checks. -/
def loadCheck (s : State) (d : Fin 2) (p : Nat) (r : PartRec) (clear : Bool) : Nat :=
  let ways := ((s.die d).parts.filter (·.1 != p)).foldl (fun n e => n + e.2.shways[d]) 0
  if !clear || decide (4 < r.resv) then 1
  else if (partTeams s d p).any (·.phase != .ended) then 3
  else if r.shways[d] = 0 then 0
  else if r.shways[d] * 8192 < maskCount r.cores[d] * 6208 ∨ 16 < ways + r.shways[d] then 4
  else 0

/-- RES with a bit set or cleared. -/
def setRes (x : Die) (p : Nat) (b : Bool) : Die :=
  { x with res := BitVec.ofNat 8 (packNat 1 (fun i => if (if i = p then b else x.res.getLsbD i) then 1 else 0) 8) }

/-- Lines leave the ways of a system cache that have become shadow storage, dirty ones for LPDDR-6 (R265). -/
def takeShadow (x : Die) (d : Fin 2) : Die :=
  let out := x.sys.filter fun e => decide (24 - shadowWays x d ≤ e.way)
  dramUp { x with sys := x.sys.filter fun e => decide (e.way < 24 - shadowWays x d) } 6 (128 * (out.filter (·.dirty)).length)

/-- LOAD (R372): the record is loaded, resident when no resident partition holds any of its cores. -/
def partLoad (s : State) (d : Fin 2) (p : Nat) : State :=
  let (s, bs) := physRead s d ((s.die d).ptBase.toNat + 64 * p) 64
  let (r, clear) := parsePart (ofBytes bs)
  let e := loadCheck s d p r clear
  if e ≠ 0 then s.onDie d fun x => { x with perr := BitVec.ofNat 4 e }
  else s.onDie d fun x =>
    let burst := if bits r.qos.toNat 47 32 = 0 then 64 else bits r.qos.toNat 47 32
    let x := takeShadow { x with parts := tblSet x.parts p r, perr := 0,
                                 buckets := x.buckets.set (Fin.ofNat 8 p) ((burst * 1024 : Nat), stageNs s) } d
    setRes x p (!(coresHeld x d r.cores[d] (some p)))

/-- SWAPOUT (R373): the partition's teams are saved, and RES clears; a pinned partition fails with PERR 5 (R372). -/
def partSwapout (s : State) (d : Fin 2) (p : Nat) : State :=
  let x := s.die d
  if isPinned x d p then s.onDie d fun x => { x with perr := 5 }
  else if x.res.getLsbD p then
    let ids := ((partTeams s d p).filter fun t => (t.phase == .running || t.phase == .starting) && !t.killed).map (·.id)
    let s := (s.teams.filter fun t : Team => ids.contains t.id).foldl saveTeam s
    let s := { s with teams := s.teams.map fun t : Team => if ids.contains t.id then { t with swapped := true } else t }
    s.onDie d fun x => { setRes x p false with perr := 0 }
  else s.onDie d fun x => { x with perr := 0 }

/-- Cores whose last partition differs drop their sampler contents before the teams return (R281, R373). -/
def enterCore (p : Nat) (x : Core) : Core := { (if x.lastPart = some p then x else dropCore x) with lastPart := some p }

/-- SWAPIN (R373): fails with PERR 2 while a resident partition holds any of its cores; otherwise every team it saved returns
to the core it left. -/
def partSwapin (s : State) (d : Fin 2) (p : Nat) : State :=
  match tblGet (s.die d).parts p with
  | none => s.onDie d fun x => { x with perr := 0 }
  | some r =>
    if coresHeld (s.die d) d r.cores[d] none then s.onDie d fun x => { x with perr := 2 }
    else
      let s := s.onDie d fun x => { setRes x p true with perr := 0 }
      let back := (partTeams s d p).filter fun t => t.swapped && t.phase == .saved
      let s := back.foldl (fun s t => s.onCore d t.core (enterCore p)) s
      back.foldl (fun s t => restoreTeam s t d ⟨t.core, ⟨t.base, t.sbase, t.row0⟩, t.inReserve⟩) s

/-- The operation a die runs completes (R373). -/
def partComplete (s : State) (d : Fin 2) : State :=
  match (s.die d).partOp with
  | none => s
  | some (op, p) =>
    let s := match op with
      | .load => partLoad s d p.val
      | .swapout => partSwapout s d p.val
      | .swapin => partSwapin s d p.val
    s.onDie d fun x => { x with partOp := none }

/-- An operation starts; one that runs is completed first, as if the write had waited (log entry 18). -/
def partStart (s : State) (d : Fin 2) (op : PartOp) (p : Fin 8) : State :=
  (partComplete s d).onDie d fun x => { x with partOp := some (op, p) }

def execLoad (d : Fin 2) (p : Fin 8) (s : State) : Out := .next (partStart s d .load p)
def execSwapout (d : Fin 2) (p : Fin 8) (s : State) : Out := .next (partStart s d .swapout p)
def execSwapin (d : Fin 2) (p : Fin 8) (s : State) : Out := .next (partStart s d .swapin p)
/-- SWAP_COMPLETE. -/
def execSwapComplete (d : Fin 2) (s : State) : Out := .next (partComplete s d)

end Sys2Proof.Machine
end

