-- ==== Sys2Proof/Machine/Reel.lean ====
section
/-! DEFINITION. The reel: its state, tables, links, slots and promises (20 R399 to R407). -/

namespace Sys2Proof.Machine

/-! ### CRC of flits (R402) -/

/-- One byte taken into a CRC-64, reflected. -/
def crcByte (c : Nat) (b : Nat) : Nat :=
  (List.range 8).foldl (fun c _ => if c % 2 = 1 then (c / 2) ^^^ 0xC96C5795D7870F42 else c / 2) (c ^^^ b)
/-- CRC-64 of bytes: polynomial 0x42F0E1EBA9EA3693 reflected, initial value and final XOR all ones. -/
def crc64 (bs : List Byte) : Nat := (bs.foldl (fun c b => crcByte c b.toNat) (2 ^ 64 - 1)) ^^^ (2 ^ 64 - 1)

/-! ### Slots in time (R401); times are in units of 10 ps -/

/-- 250 ms of the oscillator, in units of 2^-40 ns (R400). -/
def trainLimit : Nat := 250000000 * 1099511627776
/-- Slots of a stage second. -/
def slotsPerSecond : Nat := 95367 * 4096
/-- The stage time. -/
def stageTicks (s : State) : Nat := (s.stage.sec * 1000000000 + s.stage.nsec) * 100 + s.stage.frac * 100 / 1208925819614629174706176
/-- Start of a slot counted over all cycles from stage second 0. -/
def slotStart (n : Nat) : Nat :=
  n / slotsPerSecond * 100000000000 + n % slotsPerSecond / 4096 * 1048576 + n % 4096 * 256
/-- The first slot that starts at or after a time. -/
def slotAfter (t : Nat) : Nat :=
  let sec := t / 100000000000
  let r := t % 100000000000
  let c := r / 1048576
  if 95367 ≤ c then (sec + 1) * slotsPerSecond else sec * slotsPerSecond + c * 4096 + ceilDiv (r % 1048576) 256
/-- The first slot 0 of a cycle that starts at or after a time. -/
def cycleAfter (t : Nat) : Nat := roundUp (slotAfter t) 4096

/-! ### Tables (R405, R406) -/

/-- The 81,920 bytes at a base, as a table image. -/
def imageAt (m : Memory) (base : Nat) : Memory :=
  (m.filter fun c => decide (base ≤ c.1) && decide (c.1 < base + 81920)).map fun c => (c.1 - base, c.2)

/-- The entry of a stream, and of a slot of a link. -/
def streamEntry (t : Memory) (n : Nat) : Nat := t.num (64 + 8 * n) 8
def slotEntry (t : Memory) (k l : Nat) : Nat := t.num (0x4000 + 16 * k + 2 * l) 2
/-- Fields of a stream's entry. -/
def txCtx (e : Nat) : Nat := bits e 12 0
def txEn (e : Nat) : Bool := bitAt e 13
def txLinks (e : Nat) : Nat := bits e 21 14
def rxCtx (e : Nat) : Nat := bits e 44 32
def rxEn (e : Nat) : Bool := bitAt e 45
/-- A slot's stream, when it is enabled. -/
def slotStream (t : Memory) (k l : Nat) : Option Nat :=
  let e := slotEntry t k l
  if bitAt e 15 then some (bits e 9 0) else none
/-- The slots of a cycle granted to a stream on a link, in order. -/
def grantedSlots (t : Memory) (l stream : Nat) : List Nat := (List.range 4096).filter fun k => slotStream t k l == some stream
/-- The links a stream uses. -/
def streamLinks (t : Memory) (stream : Nat) : List (Fin 8) :=
  (List.ofFn fun l : Fin 8 => l).filter fun l => bitAt (txLinks (streamEntry t stream)) l.val

/-- The first failing check of a switch (R406), 0 for none. -/
def tableError (t : Memory) : Nat :=
  let streams := List.range 1024
  let slots := (List.range 4096).flatMap fun k => (List.range 8).map fun l => (k, l)
  if t.num 0 4 != 0x52545A44 || t.num 4 2 != 1 || !((t.read 7 57).all (· == 0)) ||
      !(streams.all fun n => let e := streamEntry t n; bits e 31 22 == 0 && bits e 63 46 == 0) ||
      !(slots.all fun p => bits (slotEntry t p.1 p.2) 14 10 == 0) then 1
  else if slots.any fun p => match slotStream t p.1 p.2 with
      | some n => !(txEn (streamEntry t n))
      | none => false then 2
  else if streams.any fun n => (streamLinks t n).any fun l => (grantedSlots t l.val n).isEmpty then 3
  else 0

/-- The table grants a stream to a context (R405). -/
def streamGranted (s : State) (stream ctx : Nat) : Bool :=
  match s.reel.table with
  | some t => decide (stream < 1024) && txEn (streamEntry t stream) && txCtx (streamEntry t stream) == ctx &&
      txLinks (streamEntry t stream) != 0
  | none => false

/-! ### Promises (R407) -/

/-- End of the `n`-th slot granted on a link that starts at or after `t0`: `g` lists the granted slots of a cycle. -/
def nthSlotEnd (g : List Nat) (t0 n : Nat) : Nat :=
  let per := 95367 * g.length
  let sec := t0 / 100000000000
  let r := t0 % 100000000000
  let before := if 95367 ≤ r / 1048576 then per
    else r / 1048576 * g.length + (g.filter fun k => decide (256 * k < r % 1048576)).length
  let i := sec * per + before + n - 1
  slotStart (i / per * slotsPerSecond + i % per / g.length * 4096 + g.getD (i % g.length) 0) + 256

/-- A promise in stage ns for a copy of `nflits` flits pushed now, with `queued` flits of the stream before it on each link. -/
def promiseFor (s : State) (t : Memory) (stream nflits : Nat) (queued : Nat → Nat) : Nat :=
  let t0 := (stageNs s + 2000) * 100
  (streamLinks t stream).foldl (fun p l =>
    max p (ceilDiv (nthSlotEnd (grantedSlots t l.val stream) t0 (queued l.val + nflits)) 100)) 0

/-! ### The reel's state (R403) -/

/-- Every link is UP or failed its first attempt, and a table is in force: TRAIN ends. -/
def trainCheck (r : Reel) (sec : Nat) : Reel :=
  if r.st = .train ∧ r.table.isSome ∧ r.links.toList.all fun l => l.up || l.failedFirst then { r with st := .wait, since := sec }
  else r

/-- RUN written 1 (R403). -/
def reelOn (s : State) : State :=
  if s.reel.st = .off then
    { s with reel := { s.reel with run := true, st := .train, trainAt := s.stage.osc,
                                   links := s.reel.links.map fun l => { l with training := true, up := false, failedFirst := false } } }
  else { s with reel := { s.reel with run := true } }
/-- RUN written 0 (R403). -/
def reelOff (s : State) : State :=
  { s with reel := { s.reel with run := false, st := .off,
                                 links := s.reel.links.map fun l => { l with training := false, up := false, failedFirst := false } } }
/-- LOCK written (R403). -/
def reelLock (s : State) (b : Bool) : State :=
  { s with reel := { s.reel with lock := b, st := if !b ∧ s.reel.st = .run then .resync else s.reel.st,
                                 since := if !b ∧ s.reel.st = .run then s.stage.sec else s.reel.since } }
def execReelRun (s : State) : Out := .next (reelOn s)
def execReelStop (s : State) : Out := .next (reelOff s)
def execReelLockWrite (lock : Bool) (s : State) : Out := .next (reelLock s lock)

/-- REEL_SECOND_BOUNDARY: with LOCK 1, WAIT and RESYNC become RUN at a new stage second (R403). -/
def secondBoundary (s : State) : State :=
  let r := s.reel
  if (r.st = .wait ∨ r.st = .resync) ∧ s.stage.sec ≠ r.since then
    let first := s.stage.sec * slotsPerSecond
    { s with reel := { r with since := s.stage.sec, st := if r.lock then .run else r.st,
                              links := if r.lock then r.links.map fun l => { l with nextSlot := first } else r.links } }
  else s
def execReelSecondBoundary (s : State) : Out := .next (secondBoundary s)

/-- A write of 0x1618 (R404, R406): the image is read and takes force at the first second at or after EPOCH that begins at
least 1 ms from now. It replaces a switch in preparation (log entry 21). -/
def tableSwitch (s : State) (v : Word) : State :=
  let sel := v.getLsbD 63
  let base := (if sel then s.reel.rtbase1 else s.reel.rtbase0).toNat
  let soonest := ceilDiv (s.stage.sec * 1000000000 + s.stage.nsec + 1000000) 1000000000
  { s with reel := { s.reel with switch := some (sel, max (v.toNat % 2 ^ 48) soonest, imageAt s.mem base) } }
def execTableSwitch (v : BitVec 64) (s : State) : Out := .next (tableSwitch s v)

/-- TABLE_TAKES_FORCE: at the chosen second the image takes force, or is refused with TERR (R406). -/
def tableForce (s : State) : State :=
  match s.reel.switch with
  | some (sel, sec, t) =>
    if sec ≤ s.stage.sec then
      let e := tableError t
      let r := { s.reel with switch := none, terr := BitVec.ofNat 8 e }
      { s with reel := trainCheck (if e = 0 then { r with table := some t, inForce := sel } else r) s.stage.sec }
    else s
  | none => s
def execTableTakesForce (s : State) : Out := .next (tableForce s)

/-- Time is about to pass in RUN: a slot that has ended carries nothing more (R405). -/
def reelPass (s : State) : State :=
  if s.reel.st = .run then
    { s with reel := { s.reel with links := s.reel.links.map fun x => { x with nextSlot := max x.nextSlot (slotAfter (stageTicks s - 255)) } } }
  else s

/-- A link changed. -/
def State.onLink (s : State) (l : Fin 8) (f : Link → Link) : State :=
  { s with reel := { s.reel with links := s.reel.links.set l (f s.reel.links[l]) } }
/-- TRAIN re-examined. -/
def checkTrain (s : State) : State := { s with reel := trainCheck s.reel s.stage.sec }

/-- LINK_TRAIN (R400). -/
def execLinkTrain (l : Fin 8) (s : State) : Out :=
  .next (if s.reel.st = .off then s else s.onLink l fun x => if x.up then x else { x with training := true })
/-- LAT of training: the least ceil((round trip - turnaround) / 2) over the exchanges of time flits, in ns (R400). -/
def linkLat (rounds : List (Nat × Nat)) : Nat :=
  match rounds.map fun p => ceilDiv (p.1 - p.2) 2 with
  | [] => 0
  | a :: l => l.foldl min a
/-- CYC of a slot counted over all cycles (R402). -/
def cycOf (n : Nat) : Nat := n / slotsPerSecond % 2 ^ 47 * 2 ^ 17 + n % slotsPerSecond / 4096
/-- The slot that has ended last at a stage time, counted over all cycles (R401). -/
def slotEnded (t : Nat) : Nat := slotAfter (t - 255) - 1

/-- MODID of the table in force (R405), a free value from `seed` where none is. -/
def ownModid (s : State) (seed : Nat) : Byte :=
  match s.reel.table with
  | some t => BitVec.ofNat 8 (t.num 6 1)
  | none => Config.padByte seed 0

/-- A time flit that leaves in a slot: TYPE 2, SLOT and CYC, reserved bits zero; the stage time and MODID in the first bytes of its
payload, which is where the model puts them; free values from `seed` elsewhere (R400, R402; log entry 43). -/
def timeFlit (s : State) (seed slot : Nat) : BitVec 2048 :=
  let any := fun k n => ofBytes ((List.range n).map fun i => Config.padByte seed (k + i))
  let h0 := 2 + slot % 4096 * 16 + any 300 6 % 2 ^ 47 * 2 ^ 16
  let head := toBytes h0 8 ++ toBytes (any 308 8) 8 ++ toBytes (any 316 7 % 2 ^ 50) 8 ++ toBytes (cycOf slot) 8
  let body := head ++ (toBytes (stageNs s) 8 ++ [ownModid s seed] ++ (List.range 199).map fun k => Config.padByte seed (k + 1)) ++ toBytes 0 8
  BitVec.ofNat 2048 (ofBytes (body ++ toBytes (crc64 body) 8))
/-- LINK_UP (R400): 64 exchanges of time flits have ended, each with its round trip and the far end's turnaround; a link whose LAT is
within 4,000 ns is UP, and joins RUN at the next cycle boundary; any other retrains. -/
def execLinkUp (l : Fin 8) (rounds : List (Nat × Nat)) (peer : BitVec 8) (s : State) : Out :=
  if s.reel.links[l].training ∧ rounds.length = 64 then
    let n := slotEnded (stageTicks s)
    let s := { s.onLink l fun x => { x with lastFlit := timeFlit s s.freeCtr n, lastSlot := some n } with freeCtr := s.freeCtr + 1 }
    .next (if linkLat rounds ≤ 4000 then
      checkTrain (s.onLink l fun x =>
        { x with training := false, up := true, lat := linkLat rounds, peer, nextSlot := cycleAfter (stageTicks s) })
      else s)
  else .next s
/-- LINK_TRAIN_TIMEOUT (R400): not UP within 250 ms of TRAIN, a link has failed its first attempt and keeps retraining. -/
def linkTimeout (s : State) (l : Fin 8) : State :=
  if s.reel.st = .train ∧ s.reel.links[l].up = false ∧ s.reel.trainAt + trainLimit ≤ s.stage.osc then
    checkTrain (s.onLink l fun x => { x with failedFirst := true })
  else s
def execLinkTrainTimeout (l : Fin 8) (s : State) : Out := .next (linkTimeout s l)
/-- LINK_LOSS (R400): the link retrains. -/
def execLinkLoss (l : Fin 8) (s : State) : Out :=
  .next (s.onLink l fun x => { x with up := false, training := s.reel.st != .off })

/-! ### Ports (R404) -/

/-- A reel port written. Bits 11:0 written to RTBASE0 and RTBASE1 are dropped (DESIGN CHOICE, unsafe: log entry 53). -/
def reelWrite (s : State) (port : Nat) (v : Word) : State :=
  match port with
  | 0x1600 => { s with reel := { s.reel with rtbase0 := v &&& ~~~0xFFF#64 } }
  | 0x1608 => { s with reel := { s.reel with rtbase1 := v &&& ~~~0xFFF#64 } }
  | 0x1610 =>
    let s := reelLock s (v.getLsbD 1)
    if v.getLsbD 0 then reelOn s else reelOff s
  | 0x1618 => tableSwitch s v
  | _ => s

end Sys2Proof.Machine
end

