-- ==== Sys2Proof/Machine/Ports.lean ====
section
/-! DEFINITION. The distaff port map and the windows that reach it (17 R354, R355; 18 R368; 19 R376 to R378; 20 R397, R404, R411;
21 R419, R426, R430, R433). -/

namespace Sys2Proof.Machine

/-- A spool, shootdown or partition port written (R368). Bits 11:0 written to SPBASE are dropped (DESIGN CHOICE, unsafe: log entry
53). -/
def spoolWrite (s : State) (d : Fin 2) (p : Nat) (v : Word) : State :=
  match p with
  | 0x1400 => s.onDie d fun x => if x.spEn then x else { x with spBase := v &&& ~~~0xFFF#64 }
  | 0x1408 => s.onDie d fun x =>
      { x with spLog2n := if x.spEn then x.spLog2n else storeLog2 6 (v.toNat % 32), spEn := v.getLsbD 8 }
  | 0x1418 => s.onDie d fun x => { x with spTail := tailWrite x.spTail x.spHead (v.setWidth 32) }
  | 0x1428 => mctlWrite s d v
  | 0x1430 => s.onDie d fun x => { x with sdva := v &&& 0x01FFFFFFFFFFF000#64 }
  | 0x1438 => sdStart s d (v.extractLsb' 16 2).toNat (v.toNat % 8192)
  | 0x1448 => s.onDie d fun x => { x with ptBase := v &&& ~~~0x1FF#64 }
  | 0x1450 =>
    let q : Fin 8 := (v.extractLsb' 0 3).toFin
    match (v.extractLsb' 4 2).toNat with
    | 0 => partStart s d .load q
    | 1 => partStart s d .swapout q
    | 2 => partStart s d .swapin q
    | _ => s
  | _ => s

/-- An energy or error-log port written (R355, R419, R430). -/
def meterWrite (s : State) (d : Fin 2) (p : Nat) (v : Word) : State :=
  if 0x1840 ≤ p ∧ p < 0x1880 then s.onDie d (setEnergy (stageNs s) (Fin.ofNat 8 ((p - 0x1840) / 8)) v)
  else match p with
    | 0x18C0 => { s with etBase := v &&& ~~~0xFFF#64 }
    | 0x18C8 => { s with roveFloor := v }
    | 0x18E0 => { s with plimit := min 1200 (max 300 (v.toNat % 2048)) }
    | 0x1B00 => s.onDie d fun x => if x.elEn then x else { x with elBase := v &&& ~~~0xFFF#64 }
    | 0x1B08 => s.onDie d fun x =>
        dropMended { x with elLog2n := if x.elEn then x.elLog2n else storeLog2 6 (v.toNat % 32), elEn := v.getLsbD 8 }
    | 0x1B18 => s.onDie d fun x => { x with elTail := tailWrite x.elTail x.elHead (v.setWidth 32) }
    | _ => s

/-- A port written. -/
def portWrite (s : State) (d : Fin 2) (p : Nat) (v : Word) : State :=
  if p < 0x1000 then queueWrite s ⟨d, Fin.ofNat 64 (p / 64)⟩ (p % 64) v
  else if p < 0x1200 then tctlWrite s d (Fin.ofNat 64 ((p - 0x1000) / 8)) v
  else if p = 0x1208 then hostirqPush s d v
  else if 0x1400 ≤ p ∧ p < 0x1500 then spoolWrite s d p v
  else if 0x1600 ≤ p ∧ p < 0x1620 then reelWrite s p v
  else if 0x1680 ≤ p ∧ p < 0x16A0 then timeWrite s p v
  else if 0x1700 ≤ p ∧ p < 0x1780 then headWrite s d (Fin.ofNat 2 ((p - 0x1700) / 64)) ((p - 0x1700) % 64) v
  else if 0x1800 ≤ p ∧ p < 0x1C00 then meterWrite s d p v
  else if 0x2000 ≤ p ∧ p < 0x6000 then fkownWrite s d ((p - 0x2000) / 8) v
  else s

/-! ### Windows (R376 to R378) -/

/-- The aligned dword at an address outside the pool written. What a unit outside the module does with it is no state of the
module. -/
def windowWrite (s : State) (pa : Nat) (v : Word) : State :=
  match regionOf pa with
  | .control d off => if portAssigned off then portWrite s d off v else s
  | .queues d off => match queuePage off with
    | some (q, o) => queueWrite s ⟨d, q⟩ o v
    | none => s
  | .hostBlock off => hostWrite s off v
  | .imsic _ => imsicDeliver s pa v
  | .imsicM _ => imsicDeliver s pa v
  | _ => s

/-- REG_WRITE: a 64-bit store of the harts to a register (R9, R378). -/
def execRegWrite (addr : Nat) (v : BitVec 64) (s : State) : Out :=
  .next (byHart s fun s => if addr % 8 = 0 then windowWrite s addr v else s)

/-! ### PRD and PWR (R354) -/

def execPrd (f : FmtS) (s : State) : Out :=
  onThreadOnly s (.prd f) fun d _ =>
    let p := (readX s.cur f.a).toNat
    if portAssigned p then
      let (t, v) := portRead s d p
      answer t (retire (writeX (acquireFence t.cur) f.d v))
    else illegal s 3 (.prd f)

/-- PWR; a write of HOSTIRQ waits at the instruction while the HIRQ queue is full (R379). -/
def execPwr (f : FmtS) (s : State) : Out :=
  onThreadOnly s (.pwr f) fun d _ =>
    let p := (readX s.cur f.a).toNat
    if portAssigned p then
      if p = 0x1208 ∧ 64 ≤ (hirqOf s d).length then answer s { s.cur with status := .held .port }
      else
        let t := portWrite { s with cur := retire s.cur } d p (readX s.cur f.b)
        .next t
    else illegal s 3 (.pwr f)

/-! ### The management interface (R433) -/

/-- A readable dword range of the host block, and of a die's ports. -/
def mgmtHost (off : Nat) : Bool :=
  (decide (0x10 ≤ off) && decide (off < 0x30)) || (decide (0x2000 ≤ off) && decide (off < 0x2A20)) ||
  (decide (0x3000 ≤ off) && decide (off < 0x3200)) || (decide (0x4000 ≤ off) && decide (off < 0x5518))
def mgmtPort (p : Nat) : Bool :=
  (decide (0x1A00 ≤ p) && decide (p < 0x1A80)) || (decide (0x1B10 ≤ p) && decide (p < 0x1B28)) || p == 0x1620 ||
  (decide (0x1630 ≤ p) && decide (p < 0x1670))

/-- The reply to a management frame's payload; a payload that is no read request gets none. -/
def mgmtReply (s : State) (f : List Byte) : List Byte :=
  let n := (f.getD 3 0).toNat
  let o := ofBytes ((f.drop 4).take 8)
  if f.length < 12 ∨ ofBytes (f.take 2) ≠ 0x4D47 ∨ f.getD 2 0 ≠ 1 ∨ n = 0 ∨ 8 < n then []
  else
    let head := fun op : Byte => f.take 2 ++ [op] ++ (f.drop 3).take 9
    let offs := (List.range n).map fun k => o % 65536 + 8 * k
    let d := dieOf (bits o 62 62)
    if o % 8 = 0 ∧ bits o 61 16 = 0 ∧ (if o < 2 ^ 63 then bits o 62 62 = 0 ∧ offs.all mgmtHost else offs.all mgmtPort) then
      head 2 ++ offs.flatMap fun a => toBytes (if o < 2 ^ 63 then hostPeek s.host a else portPeek s d a).toNat 8
    else head 3

/-- MGMT_READ at the port of die `d`. -/
def execMgmtRead (d : Fin 2) (frame : List (BitVec 8)) (s : State) : Out :=
  .next (s.onDie d fun x => { x with mgmtReply := mgmtReply s frame })

end Sys2Proof.Machine
end

