-- ==== Sys2Proof/Machine/Bus.lean ====
section
/-! DEFINITION. Accesses at a translated physical address, pool or window (09 R230; 19 R376 to R378). -/

namespace Sys2Proof.Machine

/-- Bytes outside the pool written: a dword window takes the whole dword with the bytes not supplied zero; an IMSIC file takes
writes of at least 32 bits (R378). -/
def busStoreWindow (s : State) (pa : Nat) (bs : List Byte) : State :=
  if dwordWindow pa then windowWrite s (pa / 8 * 8) (BitVec.ofNat 64 (ofBytes bs * 2 ^ (8 * (pa % 8))))
  else if 4 ≤ bs.length then windowWrite s pa (BitVec.ofNat 64 (ofBytes bs))
  else s

/-- Bytes that lie in one aligned dword written at a physical address; the timestamp received, 0 outside the die's coherent
memory. -/
def busWrite (s : State) (p : Party) (ph : Phys) (bs : List Byte) : State × Nat :=
  if inPool ph.pa then poolWrite s p ph.kind ph.pa bs else (busStoreWindow s ph.pa bs, 0)

/-- An atomic's read, new value and write at a physical address (R144): the old value, its timestamp and the one received. An
AtomicOp sent to a window answers a free value and changes no state the spec gives (log entry 11). -/
def busAtomic (s : State) (p : Party) (ph : Phys) (n : Nat) (f : Nat → Nat) : State × Nat × Nat × Nat :=
  if inPool ph.pa then
    let wts := (l2Get (s.die p.d) (ph.pa / 32)).1
    let (s, old, ts) := poolAtomic s p ph.kind ph.pa n f
    (s, old, wts, ts)
  else
    let (s, bs) := ({ s with freeCtr := s.freeCtr + 1 }, toBytes (Config.deviceRead s.freeCtr ph.pa).toNat n)
    (s, ofBytes bs, 0, 0)

end Sys2Proof.Machine
end

