-- ==== Sys2Proof/Machine/Coherence.lean ====
section
/-! DEFINITION. Requests at the homes (19 R381 to R383): the agents' transactions, write-backs and evictions, and the
accesses of PCIe and of a Jorrad hart. DEDUCED, unsafe: the record of a lost sector of the host, log entry 41. -/

namespace Sys2Proof.Machine

/-- An agent may ask for a line: one of the pool, and the L3, which asks for its harts' accesses, once POOLRDY is 1 (R389). -/
def mayAsk (s : State) (a : Fin 3) (line : Nat) : Bool := lineInPool line && (a != 2 || s.host.poolRdy)

/-- READ_SHARED (R382). -/
def readSharedBy (s : State) (a : Fin 3) (line : Nat) : State := if mayAsk s a line then agentRead s a none line else s
def execReadShared (a : Fin 3) (line : Nat) (s : State) : Out := .next (readSharedBy s a line)

/-- READ_UNIQUE, and an UPGRADE, which is one whether or not its requester still holds its copy (R382). -/
def readUniqueBy (s : State) (a : Fin 3) (line : Nat) : State := if mayAsk s a line then agentUnique s a line else s
def execReadUnique (a : Fin 3) (line : Nat) (s : State) : Out := .next (readUniqueBy s a line)
def execUpgrade (a : Fin 3) (line : Nat) (s : State) : Out := .next (readUniqueBy s a line)

/-- The discarded write-back of a sector logged, by the die whose L2 held it or by the home: KIND 4 (R429). The error is gone with the
data. -/
def logDiscard (s : State) (a : Fin 3) (line k : Nat) : State :=
  let d : Fin 2 := if a = 0 then 0 else if a = 1 then 1 else lineHome line
  logError { s with softErrs := s.softErrs.filter (· != .sector (4 * line + k)) } d
    { kind := 4, struct := if a = 2 then 1 else 2, ctx := 0, count := 0, agentId := 0, addr := 128 * line + 32 * k }

/-- The 32 bytes of a sector of a line. -/
def sectorOf (line : BitVec 1024) (k : Nat) : List Byte := toBytes (line.toNat / 2 ^ (256 * (k % 4))) 32

/-- A sector whose write-back is discarded: its memory keeps its earlier contents (R429). -/
def loseSector (s : State) (a : Fin 3) (line k : Nat) (stale : BitVec 1024) : State :=
  logDiscard { s with mem := s.mem.write (128 * line + 32 * (k % 4)) (sectorOf stale (k % 4)) } a line (k % 4)

/-- Bytes that are as a discarded write-back sent them go back to what the home held; later stores stay (log entry 41). -/
def revert (now sent held : List Byte) : List Byte := (now.zip (sent.zip held)).map fun p => if p.1 = p.2.1 then p.2.2 else p.1

/-- A sector of a discarded write-back: what memory, and a line made dirty again meanwhile, hold for it (R429). -/
def discardSector (s : State) (b : LostBack) (k : Nat) : State :=
  let pa := 128 * b.line + 32 * k
  let s := { s with mem := s.mem.write pa (revert (s.mem.read pa 32) (sectorOf b.sent k) (sectorOf b.held k)) }
  let patch := fun old : BitVec 1024 =>
    BitVec.ofNat 1024 (ofBytes ((List.range 4).flatMap fun j =>
      if j = k then revert (sectorOf old j) (sectorOf b.sent j) (sectorOf b.held j) else sectorOf old j))
  logDiscard { s with dir := s.dir.map fun p : Nat × DirLine =>
    if p.1 == b.line then (p.1, { p.2 with stale := p.2.stale.map patch }) else p } b.agent b.line k

/-- Write-backs of lines with an uncorrectable error are discarded where they are bad (R429). -/
def discardBack (s : State) (b : LostBack) : State :=
  (List.range 4).foldl (fun s k => if s.softErrs.contains (.sector (4 * b.line + k)) then discardSector s b k else s) s
def discardLost (s : State) : State :=
  match (s.die 0).lostBacks ++ (s.die 1).lostBacks with
  | [] => s
  | b :: bs =>
    (b :: bs).foldl discardBack ((s.onDie 0 fun x => { x with lostBacks := [] }).onDie 1 fun x => { x with lostBacks := [] })

/-- WRITE_BACK by the owner of a dirty line (R382); `lost` is a sector found uncorrectable (R429). -/
def writeBackBy (s : State) (a : Fin 3) (line : Nat) (lost : Option Nat) : State :=
  match tblGet s.dir line with
  | none => s
  | some l =>
    if l.owner = some a ∧ ownerDirty l then
      let t := letGo s a none line
      match lost, l.stale with
      | some k, some old => loseSector t a line k old
      | _, _ => t
    else s
def execWriteBack (a : Fin 3) (line : Nat) (lost : Option Nat) (s : State) : Out := .next (writeBackBy s a line lost)

/-- EVICTION_NOTICE: a holder in S or E lets its copy go (R381). -/
def noticeBy (s : State) (a : Fin 3) (line : Nat) : State :=
  match tblGet s.dir line with
  | none => s
  | some l =>
    match heldBy l a with
    | some .e => letGo s a none line
    | some .s => letGo s a none line
    | _ => s
def execEvictionNotice (a : Fin 3) (line : Nat) (s : State) : Out := .next (noticeBy s a line)

/-- DIRECTORY_EVICT: every holder gone, a dirty one written back (R383). -/
def execDirectoryEvict (line : Nat) (s : State) : Out := .next (homeDrop s line)

/-- The aligned dwords an access of `n` bytes touches. -/
def dwordAddrs (pa n : Nat) : List Nat := if n = 0 then [] else (dwordsOf pa n).map (8 * ·)

/-- An address in a root port's own windows: a request of a function there is peer-to-peer, an Unsupported Request (R384). -/
def peerAddr (addr : Nat) : Bool :=
  match regionOf addr with
  | .ecam _ => true
  | .pcie _ => true
  | _ => false

/-- The address the IOMMU gives an access of a function, by Sv57 from the root its device context names; none where it faults, which is
no effect on the machine. Without a root it passes addresses through (R384; log entry 49). -/
def iommu (s : State) (acc : Access) (a : Nat) : Option Nat :=
  match s.host.ioRoot with
  | none => some a
  | some ppn =>
    let va := a % 2 ^ 57
    if a / 2 ^ 56 ≠ 0 ∧ a / 2 ^ 56 ≠ 255 then none
    else match walkFrom s.mem va 4 (ppn * 4096) with
      | .error _ => none
      | .ok (level, pte) => match leafReason level pte va acc with
        | some _ => none
        | none => some (leafPa level pte va)

/-- The parts of a request that lie in distinct pages: offset, address and length of each. -/
def pageParts (addr n : Nat) : List (Nat × Nat × Nat) :=
  ((List.range (n / 4096 + 2)).map fun k =>
    let lo := max addr (addr / 4096 * 4096 + 4096 * k)
    (lo - addr, lo, min (addr + n) (addr / 4096 * 4096 + 4096 * (k + 1)) - lo)).filter fun p => p.2.2 != 0

/-- An I/O read at a home, or of a window (R378, R382). -/
def ioReadAt (s : State) (addr n : Nat) : State :=
  if inPool addr then (if n = 0 then [] else linesOf addr n).foldl homeRead s
  else if peerAddr addr then s else (dwordAddrs addr n).foldl (fun s a => (windowRead s a).1) s

/-- IO_READ: no holder changes state; a read of a window has the window's own effect (R378, R382, R384). -/
def execIoRead (addr n : Nat) (s : State) : Out :=
  .next (if s.host.ioRoot = none then ioReadAt s addr n
    else (pageParts addr n).foldl (fun s p => match iommu s .read p.2.1 with
      | some pa => ioReadAt s pa p.2.2
      | none => s) s)

/-- IO_WRITE at a home, or at a window dword by dword (R378, R382). -/
def ioWriteAt (s : State) (addr : Nat) (bs : List Byte) : State :=
  if inPool addr then ioStore s addr bs
  else if peerAddr addr then s
  else (dwordAddrs addr bs.length).foldl (fun s a =>
    busStoreWindow s (max a addr) ((bs.take (a + 8 - addr)).drop (a - addr))) s
def execIoWrite (addr : Nat) (bs : List (BitVec 8)) (s : State) : Out :=
  .next (if s.host.ioRoot = none then ioWriteAt s addr bs
    else (pageParts addr bs.length).foldl (fun s p => match iommu s .write p.2.1 with
      | some pa => ioWriteAt s pa ((bs.drop p.1).take p.2.2)
      | none => s) s)

/-- The new value of a PCIe AtomicOp on `w` bits (R144). -/
def ioAtomicNew (op : IoAtomicOp) (w old a b : Nat) : Nat :=
  match op with
  | .fetchAdd => (old + a) % 2 ^ w
  | .swap => a % 2 ^ w
  | .cas => if old = a % 2 ^ w then b % 2 ^ w else old

/-- IO_ATOMIC, performed at the home of a naturally aligned word (R144, R382). -/
def ioAtomicAt (s : State) (addr : Nat) (op : IoAtomicOp) (wide : Bool) (a b : Word) : State :=
  let n := if wide then 8 else 4
  let pa := addr / n * n
  if inPool pa then ioStore s pa (toBytes (ioAtomicNew op (8 * n) (s.mem.num pa n) a.toNat b.toNat) n) else s
def execIoAtomic (addr : Nat) (op : IoAtomicOp) (wide : Bool) (a b : BitVec 64) (s : State) : Out :=
  .next (match iommu s .atomic addr with
    | some pa => ioAtomicAt s pa op wide a b
    | none => s)

/-- A Jorrad hart stores to a line, which its L3 takes unique (R381, R382). Before POOLRDY is 1 it is an access fault (R389). -/
def hartStore (s : State) (addr : Nat) (bs : List Byte) : State :=
  if bs = [] ∨ !(inPool addr) ∨ !(s.host.poolRdy) ∨ !(hartRuns s.host) then s
  else hartPut s addr bs

end Sys2Proof.Machine
end

