-- ==== Sys2Proof/Machine/Memory.lean ====
section
/-! DEFINITION. Loads, stores, gathers, scatters, atomics and prefetch of warps and distaff threads (07 R139 to R153; 03 R60,
R69). DESIGN CHOICE: a load takes its bytes at issue (log entry 26, unsafe), accesses are done in one order (log entry 44, unsafe). -/

namespace Sys2Proof.Machine

/-! ### Active units -/

/-- One access of an instruction: its physical lane, its element, its address and its bytes (R145, R146). -/
structure MemUnit where
  lane : Nat
  elem : Nat
  va : Word
  n : Nat
  deriving DecidableEq, Repr

/-- How an instruction's units lie in its registers: bytes of memory of one, elements, register bits of one, extended by
sign. -/
structure MemShape where
  n : Nat
  cnt : Nat
  wd : Nat
  sgn : Bool
  deriving DecidableEq, Repr

/-- Bytes of an element; a 4-bit element moves with its byte (R139). -/
def elemBytes (t : BitVec 4) : Nat := max 1 (tyWidth t / 8)

/-- The address bits below an element's size are ignored (R139). -/
def alignDown (a : Word) (n : Nat) : Word := BitVec.ofNat 64 (a.toNat / n * n)

/-- The active units of a vector form, in increasing physical lane order (R145). -/
def vectorUnits (sh : MemShape) (align : Nat) (act : Mask) (addr : Nat → Word) : List MemUnit :=
  (List.range sh.cnt).filterMap fun e =>
    if act.getLsbD (laneOfElem sh.cnt e) then some ⟨laneOfElem sh.cnt e, e, alignDown (addr e) align, sh.n⟩ else none

/-- The base of a scalar or vector access: x[A] and the 24-bit offset (R60, R139). -/
def memBase (w : Warp) (f : FmtM) : Word := readX w f.a + memOffset f
/-- The base of an atomic, whose offset is OFFLO alone (R60, R143). -/
def atomBase (w : Warp) (f : FmtM) : Word := readX w f.a + atomOffset f

/-- The unit of a scalar form (R142). -/
def scalarUnit (f : FmtM) (base : Word) : List MemUnit :=
  [⟨0, 0, alignDown base (elemBytes f.ty), elemBytes f.ty⟩]

/-- VLD and VST (R145): a lane moves 4 bytes, or 8 for a 64-bit type. -/
def contiguousShape (f : FmtM) : MemShape :=
  if tyWidth f.ty = 64 then ⟨8, 128, 64, false⟩ else ⟨4, 128, 32, false⟩
def contiguousUnits (w : Warp) (f : FmtM) : List MemUnit :=
  let sh := contiguousShape f
  vectorUnits sh (elemBytes f.ty) (activeMask w f.pm f.pi) fun e =>
    memBase w f + BitVec.ofNat 64 (sh.n * armElem w sh.cnt e)

/-- VLDS and VSTS (R145): element e at base + e x stride. -/
def stridedShape (f : FmtM) : MemShape := ⟨elemBytes f.ty, elemCount f.ty, tyWidth f.ty, false⟩
def stridedUnits (w : Warp) (f : FmtM) : List MemUnit :=
  let sh := stridedShape f
  vectorUnits sh sh.n (activeMask w f.pm f.pi) fun e =>
    memBase w f + BitVec.ofNat 64 (armElem w sh.cnt e) * readX w f.b

/-- VGATH and VSCAT (R146): one element per lane, narrow types in a 32-bit lane. -/
def indexedShape (f : FmtM) : MemShape :=
  ⟨elemBytes f.ty, 128, if tyWidth f.ty = 64 then 64 else 32, tySigned f.ty.toNat⟩
/-- The address of lane `e` of a gather, a scatter or a VATOM with its offset (R146). -/
def indexedAddr (w : Warp) (f : FmtM) (off : Word) (e : Nat) : Word :=
  let ix := srcElem w f.b 128 32 e
  if f.space ≠ 0 then readX w f.a + off + BitVec.ofNat 64 ix
  else if f.a = 0 then BitVec.ofNat 64 (srcElem w f.b 128 64 e) + off
  else readX w f.a + off + extendTo64 32 true ix
def indexedUnits (w : Warp) (f : FmtM) (off : Word) : List MemUnit :=
  let sh := indexedShape f
  vectorUnits sh sh.n (activeMask w f.pm f.pi) (indexedAddr w f off)

/-! ### Scratchpad (R139, R140) -/

/-- The first unit whose address does not hold (R140). Its address, which sr.tval takes, has the low bits that R139 ignores cleared
(DESIGN CHOICE, unsafe: log entry 56). -/
def scratchBad (s : State) (sp : Nat) (us : List MemUnit) : Option MemUnit :=
  us.find? fun u => (spdTarget s s.cur sp u.va.toNat u.n).isNone

/-- Team and offset of a unit whose address holds. -/
def scratchPlace (s : State) (sp : Nat) (u : MemUnit) : Nat × Nat := (spdTarget s s.cur sp u.va.toNat u.n).getD (0, 0)

/-- The dwords of the scratchpad a unit lies in. -/
def scratchSites (s : State) (sp : Nat) (us : List MemUnit) : List ErrSite :=
  us.flatMap fun u => let (t, off) := scratchPlace s sp u; (dwordsOf off u.n).map (ErrSite.scratch t)

/-- The bytes a unit reads. -/
def scratchGet (s : State) (sp : Nat) (u : MemUnit) : Nat :=
  let (id, off) := scratchPlace s sp u
  match s.findTeam id with
  | some t => ofBytes (spdRead t off u.n)
  | none => 0

/-- The bytes a unit writes, what they held kept until their store is released (R173, R227); an error in a dword it writes is gone. -/
def scratchPut (s : State) (sp : Nat) (u : MemUnit) (v : Nat) : State :=
  let (id, off) := scratchPlace s sp u
  let s := s.onTeam id fun t => spdWrite (markLoose t (.warp (warpId s.cur)) off u.n) off (toBytes v u.n)
  { s with softErrs := s.softErrs.filter fun e => !(((dwordsOf off u.n).map (ErrSite.scratch id)).contains e) }

/-! ### Translation of the units of a .glb access (R141, R149, R150) -/

/-- The parts of a unit in distinct aligned dwords. A naturally aligned unit is one part. -/
def segments (va : Word) (n : Nat) : List (Word × Nat) :=
  let room := 8 - va.toNat % 8
  if n ≤ room then [(va, n)] else [(va, room), (va + BitVec.ofNat 64 room, n - room)]

/-- A unit translated: its parts with their places, and the faults of its parts. -/
structure Reached where
  u : MemUnit
  parts : List (Phys × Nat)
  deriving DecidableEq, Repr

/-- A distaff thread's write of an unassigned port of a control window (R378). -/
def strayWrite (w : Warp) (ph : Phys) (acc : Access) : Bool :=
  isThread w.who && acc == .write && (match regionOf ph.pa with
    | .control _ off => !(portAssigned (off / 8 * 8))
    | _ => false)

/-- A unit translated: its parts' places, or its lane's faults (R141, R144). `ioOk` says that the access may be made on an IO
page. -/
def reachUnit (s : State) (acc : Access) (ioOk : Bool) (u : MemUnit) : State × List (Phys × Nat) × List (Nat × Word × Nat) :=
  (segments u.va u.n).foldl (fun (r : State × List (Phys × Nat) × List (Nat × Word × Nat)) seg =>
    match translateFor r.1 r.1.cur seg.1 acc with
    | (s, .error k) => (s, r.2.1, r.2.2 ++ [(u.lane, seg.1, k)])
    | (s, .ok ph) =>
      if ph.kind = .io ∧ ioOk = false ∨ strayWrite r.1.cur ph acc = true then (s, r.2.1, r.2.2 ++ [(u.lane, seg.1, 3)])
      else (s, r.2.1 ++ [(ph, seg.2)], r.2.2)) (s, [], [])

/-- Every unit translated. -/
def reachAll (s : State) (acc : Access) (ioOk : Bool) : List MemUnit → State × List Reached × List (Nat × Word × Nat)
  | [] => (s, [], [])
  | u :: us =>
    let (s, parts, f) := reachUnit s acc ioOk u
    let (s, rest, fs) := reachAll s acc ioOk us
    (s, ⟨u, parts⟩ :: rest, f ++ fs)

/-- The units whose lanes have no fault (R150 step 1). -/
def unfaulted (l : List Reached) (faults : List (Nat × Word × Nat)) : List Reached :=
  l.filter fun r => !(faults.any fun f => f.1 == r.u.lane)

/-- The issuing agent as a party to memory (R222): its lease is the context's, or 1 under NT. -/
def curParty (s : State) (nt : Bool) : Party :=
  { d := agentDie s.cur.who, core := agentCore s.cur.who, part := agentPart s s.cur.who, wclk := s.cur.wclk,
    lease := if nt then 1 else ((warpCtx s s.cur).map (·.lease)).getD 16, ranges := ((warpCtx s s.cur).map (·.ranges)).getD [] }

/-- The end of a .glb access (R150): the next instruction, or the faults of its lanes. A distaff thread has no page to fault
on: it stops (R353, R354). -/
def endAccess (s : State) (acc : Access) (faults : List (Nat × Word × Nat)) (vector : Bool) : Out :=
  if faults = [] then answer s (retire s.cur)
  else if isThread s.cur.who then .next (stopThread s false cIllegal)
  else .next (memFault s (accessCode acc) faults vector)

/-! ### Loads -/

/-- A read of an instruction that has asked for sectors already: it takes one of them from the fill on its way, since one request serves
a line (R262). -/
def busReadOnce (s : State) (p : Party) (asked : List Fill) (ph : Phys) (n : Nat) : State × Loaded :=
  match asked.find? fun f => ph.kind == .pma && f.sec == ph.pa / 32 with
  | some f => (s, ⟨toBytes (f.copy.data.toNat >>> (8 * (ph.pa % 32))) n, f.copy.wts, false, [], false⟩)
  | none => busRead s p ph n

/-- A unit read. -/
def readUnit (s : State) (p : Party) (asked : List Fill) (r : Reached) : State × Loaded :=
  r.parts.foldl (fun (acc : State × Loaded) part =>
    let (s, l) := busReadOnce acc.1 p (asked ++ acc.2.fills) part.1 part.2
    (s, acc.2.join l)) (s, .empty)

/-- Units read in order: element values, and what the reads came to. -/
def readUnits (s : State) (p : Party) (asked : List Fill) : List Reached → State × Tbl Nat × Loaded
  | [] => (s, [], .empty)
  | r :: rs =>
    let (s, l) := readUnit s p asked r
    let (s, vs, ls) := readUnits s p (asked ++ l.fills) rs
    (s, (r.u.elem, ofBytes l.bytes) :: vs, l.join ls)

/-- Sectors of the pool that units read, each with the place among `f` registers of one it feeds (R17, R151). -/
def unitSectors (f : Nat) (l : List Reached) : List (Nat × Nat) :=
  (l.flatMap fun r => r.parts.filterMap fun p => if inPool p.1.pa then some (p.1.pa / 32, r.u.elem % f) else none).eraseDups

/-- Those of them that no live lease of the party's covers. -/
def askedSectors (s : State) (p : Party) (f : Nat) (l : List Reached) : List (Nat × Nat) :=
  unitSectors f (l.map fun r => { r with parts := r.parts.filter fun q => !(leased s p q.1.kind (q.1.pa / 32)) })

/-- The virtual address under which units reach a sector's line. -/
def unitPlace (l : List Reached) (sec : Nat) : Option Word :=
  (l.flatMap fun r => (segments r.u.va r.u.n).zip r.parts).findSome? fun q => if q.2.1.pa / 128 = sec / 4 then some q.1.1 else none

/-- What a load sends over the mesh, and the L1 lines it hit used (R262, R269). -/
def loadTraffic (s : State) (p : Party) (ok : List Reached) (l : Loaded) : State :=
  match p.core with
  | none => s
  | some c => l1Read (sendFills s p.d c p.ranges (unitPlace ok) l.fills) p.d c ((unitSectors 1 ok).map (·.1))

/-- The registers a vector load writes, with the bits it writes (R145, R146). -/
def loadTriples (d : BitVec 6) (sh : MemShape) (vals : Tbl Nat) : List (BitVec 6 × VReg × VReg) :=
  let f := groupSize sh.cnt sh.wd
  let act := fun e => (tblGet vals e).isSome
  (List.range f).map fun k =>
    (d + BitVec.ofNat 6 k, groupReg 0 f k sh.wd act fun _ => 2 ^ sh.wd - 1,
     groupReg 0 f k sh.wd act fun e => tblGetD vals e 0)

/-- What a load owes its registers: a scalar's value, or a vector's elements (R142, R145). -/
def loadOwed (f : FmtM) (vector : Bool) (sh : MemShape) (vals : Tbl Nat) (sectors : List (Nat × Nat)) (w : Warp) : Pending :=
  let wdm := 8 * sh.n
  { xw := if vector then [] else vals.map fun q => (f.d, extendTo64 wdm (tySigned f.ty.toNat) q.2),
    vw := if vector then loadTriples f.d sh (if wdm < sh.wd then
        vals.map fun q => (q.1, (extendTo64 wdm sh.sgn q.2).toNat) else vals) else [],
    mw := [], sectors, replay := w.replayNext, pc := w.pc, fills := [], weak := f.nt == 1, samp := .empty, missed := false }

/-- What a load owes is written at once, or when its data returns (R28). -/
def settleLoad (s : State) (p : Pending) (now : Bool) (ts : Nat) : State :=
  let w := { s.cur with rmax := max s.cur.rmax ts }
  { s with cur := if now || isThread w.who then applyPending w p else { w with pend := w.pend ++ [p] } }

/-- A load of the units given (R142, R145, R146, R149). -/
def loadUnits (f : FmtM) (vector : Bool) (sh : MemShape) (us : List MemUnit) (s : State) : Out :=
  if f.space ≠ 0 then
    match scratchBad s f.space.toNat us with
    | some u => boundsAt s u.va
    | none =>
      match softHit s (scratchSites s f.space.toNat us) with
      | some e => .next (softStop s e)
      | none =>
        let vals := us.map fun u => (u.elem, scratchGet s f.space.toNat u)
        let s := settleLoad s (loadOwed f vector sh vals [] s.cur) true 0
        answer s (retire s.cur)
  else
    let (s, all, faults) := reachAll s .read true us
    let ok := unfaulted all faults
    let p := curParty s (f.nt == 1)
    let asked := askedSectors s p (if vector then groupSize sh.cnt sh.wd else 1) ok
    let (s, vals, l) := readUnits s p [] ok
    let s := loadTraffic s p ok l
    let owed := { loadOwed f vector sh vals asked s.cur with
      fills := l.fills, missed := l.missed }
    let s := if ok = [] then s else settleLoad s owed l.now l.ts
    endAccess s .read faults vector

/-! ### Stores -/

/-- A list in an order left open (R147; log entry 10). -/
def shuffled {α : Type} : State → List α → State × List α
  | s, [] => (s, [])
  | s, a :: l =>
    let (s, m) := shuffled s l
    let (k, s) := s.choose (m.length + 1)
    (s, m.take k ++ a :: m.drop k)

/-- Units of which two name one address. -/
def collides (l : List Nat) : Bool := decide (l.length ≠ (distinct l).length)

/-- The writes of units, part by part. -/
def unitWrites (l : List Reached) (val : Nat → Nat) : List (Phys × List Byte) :=
  l.flatMap fun r =>
    let bs := toBytes (val r.u.elem) r.u.n
    (r.parts.foldl (fun (acc : List (Phys × List Byte) × Nat) p =>
      (acc.1 ++ [(p.1, (bs.drop acc.2).take p.2)], acc.2 + p.2)) ([], 0)).1

/-- Writes on PMA pages of the pool, made together at the homes (R263); the others one by one in order (R230). Answers the
largest timestamp. -/
def writeOut (s : State) (p : Party) (ws : List (Phys × List Byte)) : State × Nat :=
  let pma := ws.filter fun w => w.1.kind == .pma
  let s := match p.core with
    | some c => pma.foldl (fun s w => dropOwnSectors s p.d c w.1.pa w.2.length) s
    | none => s
  let (s, ts) := dieStores s p.d p.part p.wclk (pma.map fun w => (w.1.pa, w.2))
  (ws.filter fun w => w.1.kind != .pma).foldl (fun (r : State × Nat) w =>
    let (s, t) := busWrite r.1 p w.1 w.2
    (s, max r.2 t)) (s, ts)

/-- Timestamps of the issuing agent's stores kept for its releases (R155, R221). -/
def noteStores (s : State) (ts : Nat) : State :=
  { s with cur := { s.cur with smax := max s.cur.smax ts, wrote := s.cur.wrote || decide (ts ≠ 0) } }

/-- A store of the units given (R142, R145 to R147, R149). -/
def storeUnits (f : FmtM) (vector : Bool) (us : List MemUnit) (val : Nat → Nat) (s : State) : Out :=
  if f.space ≠ 0 then
    match scratchBad s f.space.toNat us with
    | some u => boundsAt s u.va
    | none =>
      let (s, us) := if collides (us.map fun u => u.va.toNat) then shuffled s us else (s, us)
      let s := us.foldl (fun s u => scratchPut s f.space.toNat u (val u.elem)) s
      answer s (retire s.cur)
  else
    let (s, all, faults) := reachAll s .write true us
    let ok := unfaulted all faults
    let pas := ok.flatMap fun r => (r.parts.filter fun p => p.1.kind != .io).map fun p => p.1.pa
    let (s, ordered) := if collides pas then
        let io := fun r : Reached => r.parts.any fun p => p.1.kind == .io
        let (s, l) := shuffled s (ok.filter fun r => !io r)
        (s, l ++ ok.filter io)
      else (s, ok)
    let (s, ts) := writeOut s (curParty s (f.nt == 1)) (unitWrites ordered val)
    endAccess (noteStores s ts) .write faults vector

def execLd (f : FmtM) (s : State) : Out :=
  loadUnits f false ⟨elemBytes f.ty, 1, 64, false⟩ (scalarUnit f (memBase s.cur f)) s
def execSt (f : FmtM) (s : State) : Out :=
  storeUnits f false (scalarUnit f (memBase s.cur f)) (fun _ => (readX s.cur f.d).toNat) s
def execVld (f : FmtM) (s : State) : Out := loadUnits f true (contiguousShape f) (contiguousUnits s.cur f) s
def execVlds (f : FmtM) (s : State) : Out := loadUnits f true (stridedShape f) (stridedUnits s.cur f) s
def execVgath (f : FmtM) (s : State) : Out :=
  loadUnits f true (indexedShape f) (indexedUnits s.cur f (memOffset f)) s

/-- The bits of v[D] a vector store takes. -/
def storeElem (w : Warp) (f : FmtM) (sh : MemShape) (e : Nat) : Nat := srcElem w f.d sh.cnt sh.wd e

def execVst (f : FmtM) (s : State) : Out :=
  storeUnits f true (contiguousUnits s.cur f) (storeElem s.cur f (contiguousShape f)) s
def execVsts (f : FmtM) (s : State) : Out :=
  storeUnits f true (stridedUnits s.cur f) (storeElem s.cur f (stridedShape f)) s
def execVscat (f : FmtM) (s : State) : Out :=
  storeUnits f true (indexedUnits s.cur f (memOffset f)) (storeElem s.cur f (indexedShape f)) s

/-! ### Atomics (R143, R144, R148) -/

/-- An AtomicOp exists for the operation on an IO page (R144). -/
def ioAtomicOk (op : AtomOp) : Bool :=
  match op with
  | .add => true
  | .xchg => true
  | .cas => true
  | _ => false

/-- Atomics of scratchpad units one by one; old values by element. -/
def scratchAtomics (s : State) (sp : Nat) (f : Nat → Nat → Nat) : List MemUnit → State × Tbl Nat
  | [] => (s, [])
  | u :: us =>
    let old := scratchGet s sp u
    let (s, r) := scratchAtomics (scratchPut s sp u (f u.elem old)) sp f us
    (s, (u.elem, old) :: r)

/-- Atomics of .glb units one by one: old values by element, the largest timestamp of those, the largest received. -/
def glbAtomics (s : State) (p : Party) (f : Nat → Nat → Nat) : List Reached → State × Tbl Nat × Nat × Nat
  | [] => (s, [], 0, 0)
  | r :: rs =>
    match r.parts with
    | [] => glbAtomics s p f rs
    | (ph, n) :: _ =>
      let (s, old, wts, ts) := busAtomic s p ph n (f r.u.elem)
      let (s, t, wts', ts') := glbAtomics s p f rs
      (s, (r.u.elem, old) :: t, max wts wts', max ts ts')

/-- Old values written to the destination. -/
def atomicResult (f : FmtM) (vector : Bool) (sh : MemShape) (vals : Tbl Nat) (w : Warp) : Warp :=
  applyPending w (loadOwed f vector sh vals [] w)

/-- Timestamps of the issuing agent's atomics kept; at module scope or wider they complete there (R143, R221). -/
def noteAtomics (s : State) (wide : Bool) (ts : Nat) : State :=
  if wide ∧ ts ≠ 0 then
    let d := agentDie s.cur.who
    let top := max (s.die d).xts ts
    { s.onDie d fun x => { x with xts := top } with cur := { s.cur with smax := max s.cur.smax top } }
  else noteStores s ts

/-- An atomic of the units given: `f e old` is the new value of element `e` (R143, R148). The warp freezes at one that finds an
uncorrectable sector (R429; log entry 50). -/
def atomicUnits (op : AtomOp) (f : FmtM) (vector : Bool) (sh : MemShape) (us : List MemUnit) (g : Nat → Nat → Nat)
    (s : State) : Out :=
  if f.space ≠ 0 then
    match scratchBad s f.space.toNat us with
    | some u => boundsAt s u.va
    | none =>
      match softHit s (scratchSites s f.space.toNat us) with
      | some e => .next (softStop s e)
      | none =>
        let (s, us) := if collides (us.map fun u => u.va.toNat) then shuffled s us else (s, us)
        let (s, vals) := scratchAtomics s f.space.toNat g us
        answer s (retire (atomicResult f vector sh vals s.cur))
  else
    let (s, all, faults) := reachAll s .atomic (ioAtomicOk op) us
    let ok := unfaulted all faults
    match lostSectors s ((unitSectors 1 ok).map (·.1)) with
    | sec :: _ => .next (uncorrected s 1 (32 * sec) (BitVec.ofNat 64 (32 * sec)))
    | [] =>
      let io := fun r : Reached => r.parts.any fun p => p.1.kind == .io
      let (s, ordered) := if collides ((ok.filter fun r => !io r).flatMap fun r => r.parts.map fun p => p.1.pa) then
          let (s, l) := shuffled s (ok.filter fun r => !io r)
          (s, l ++ ok.filter io)
        else (s, ok)
      let (s, vals, wts, ts) := glbAtomics s (curParty s (f.nt == 1)) g ordered
      let s := noteAtomics s (scopeWide f.hi.toNat) ts
      endAccess { s with cur := atomicResult f vector sh vals { s.cur with rmax := max s.cur.rmax wts } } .atomic faults vector

/-- ATOM (R143). -/
def atomScalar (op : AtomOp) (f : FmtM) (s : State) : Out :=
  let w := s.cur
  let lo := fun r : BitVec 6 => (readX w r).toNat % 2 ^ tyWidth f.ty
  atomicUnits op f false ⟨elemBytes f.ty, 1, 64, false⟩ (scalarUnit f (atomBase w f))
    (fun _ old => atomNew op f.ty.toNat old (lo f.d) (lo f.b)) s

/-- VATOM (R148): in .cas the expected values are v[D], the new values v[D+1]. -/
def atomVector (op : AtomOp) (f : FmtM) (s : State) : Out :=
  let w := s.cur
  atomicUnits op f true ⟨4, 128, 32, false⟩ (indexedUnits w f (atomOffset f))
    (fun e old => atomNew op f.ty.toNat old (srcElem w f.d 128 32 e) (srcElem w (f.d + 1) 128 32 e)) s

def execAtomAdd (f : FmtM) (s : State) : Out := atomScalar .add f s
def execAtomAnd (f : FmtM) (s : State) : Out := atomScalar .and f s
def execAtomOr (f : FmtM) (s : State) : Out := atomScalar .or f s
def execAtomXor (f : FmtM) (s : State) : Out := atomScalar .xor f s
def execAtomMin (f : FmtM) (s : State) : Out := atomScalar .min f s
def execAtomMax (f : FmtM) (s : State) : Out := atomScalar .max f s
def execAtomXchg (f : FmtM) (s : State) : Out := atomScalar .xchg f s
def execAtomCas (f : FmtM) (s : State) : Out := atomScalar .cas f s
def execAtomFadd (f : FmtM) (s : State) : Out := atomScalar .fadd f s
def execAtomFmin (f : FmtM) (s : State) : Out := atomScalar .fmin f s
def execAtomFmax (f : FmtM) (s : State) : Out := atomScalar .fmax f s
def execVatomAdd (f : FmtM) (s : State) : Out := atomVector .add f s
def execVatomAnd (f : FmtM) (s : State) : Out := atomVector .and f s
def execVatomOr (f : FmtM) (s : State) : Out := atomVector .or f s
def execVatomXor (f : FmtM) (s : State) : Out := atomVector .xor f s
def execVatomMin (f : FmtM) (s : State) : Out := atomVector .min f s
def execVatomMax (f : FmtM) (s : State) : Out := atomVector .max f s
def execVatomXchg (f : FmtM) (s : State) : Out := atomVector .xchg f s
def execVatomCas (f : FmtM) (s : State) : Out := atomVector .cas f s
def execVatomFadd (f : FmtM) (s : State) : Out := atomVector .fadd f s
def execVatomFmin (f : FmtM) (s : State) : Out := atomVector .fmin f s
def execVatomFmax (f : FmtM) (s : State) : Out := atomVector .fmax f s

/-! ### Prefetch (R152) and NOTIFY (R169) -/

/-- The line of a PMA page placed in the core's L1 with a lease; nothing for any other place. Answers whether anything was asked
for. -/
def prefetchAsk (s : State) (va : Word) (nt weak : Bool) : State × Bool :=
  match translateFor s s.cur va .read with
  | (_, .error _) => (s, false)
  | (s', .ok ph) =>
    if ph.kind = .pma then
      match (curParty s nt).core with
      | some c => fetchLine s' (curParty s nt) c s.cur.ctx va (ph.pa / 128) weak
      | none => (s, false)
    else (s, false)
/-- PREF's. -/
def prefetchLine (s : State) (va : Word) (nt : Bool) : State := (prefetchAsk s va nt nt).1

def execPref (f : FmtM) (s : State) : Out :=
  let s := prefetchLine s (memBase s.cur f) (f.nt == 1)
  answer s (retire s.cur)

/-- NOTIFY (R169): a release at system scope, then one 64-bit store. -/
def execNotify (f : FmtS) (s : State) : Out :=
  let s := releaseAt s 5
  let va := alignDown (readX s.cur f.a) 8
  let (s, all, faults) := reachAll s .write true [⟨0, 0, va, 8⟩]
  let (s, ts) := writeOut s (curParty s false) (unitWrites (unfaulted all faults) fun _ => (readX s.cur f.b).toNat)
  endAccess (noteStores s ts) .write faults false

end Sys2Proof.Machine
end

