-- ==== Sys2Proof/Machine/Records.lean ====
section
/-! DEFINITION. Engine records: the header and its checks (03 R75 to R77), the checks of a copy's body and bounds (08 R175 to
R179), the waited and signalled knots, and acceptance (08 R171, R172). -/

namespace Sys2Proof.Machine

/-- The record in a slot of v[A], by physical byte (R171). -/
def slotRecord (w : Warp) (f : FmtE) : BitVec 512 := (readV w f.a).extractLsb' (512 * f.slot.toNat) 512

/-- A signed field of a record. -/
def recInt (r : BitVec 512) (hi lo : Nat) : Int := toSigned (hi + 1 - lo) (recBits r hi lo)

/-- Defined FLAGS bits of a kind (R176, R182, R187). -/
def flagMask (kind : Nat) : Nat :=
  match kind with
  | 1 => 0x7F
  | 2 => 0x01
  | _ => 0x03

/-- The header breaks a rule of sub-cause 2 (R75 to R77): reserved bits and codes, and fields that must be zero. FLAGS are
judged by the record's own KIND; KIND 0x00 is a reserved code of R75 and counts here (log entry 46). -/
def headerReserved (r : BitVec 512) : Bool :=
  let kind := recBits r 7 0
  let flags := recBits r 15 8
  let wrank := recBits r 63 60
  let wval := recBits r 59 45
  let wspace := recBits r 43 42
  let srank := recBits r 95 92
  let sspace := recBits r 75 74
  recBits r 127 96 != 0 || kind == 0 || decide (3 < kind) || flags - flags % (flagMask kind + 1) != 0 ||
  (kind == 1 && (recBits r 12 11 == 3 || recBits r 10 9 == 3)) ||
  (if wspace = 3 then wrank != 0 || wval != 0 || recBits r 44 44 != 0 || recBits r 41 32 != 0
   else (wspace == 0 && wrank != 0) || (wspace == 2 && decide (4 ≤ wrank)) ||
     (recBits r 44 44 == 0 && decide (2 ≤ wval))) ||
  (if recBits r 76 76 = 0 then srank != 0 || recBits r 91 77 != 0 || sspace != 0 || recBits r 73 64 != 0
   else ((sspace == 0 || sspace == 3) && srank != 0) || (sspace == 2 && decide (4 ≤ srank)))

/-- The header breaks a rule of sub-cause 3 (R77): KIND, cluster ranks, SEN with SSPACE 3. -/
def headerOperand (kind ranks : Nat) (r : BitVec 512) : Bool :=
  recBits r 7 0 != kind || (recBits r 43 42 == 1 && decide (ranks ≤ recBits r 63 60)) ||
  (recBits r 76 76 == 1 && ((recBits r 75 74 == 1 && decide (ranks ≤ recBits r 95 92)) || recBits r 75 74 == 3))

/-- The sub-cause with which a header fails (R77). -/
def headerSub (kind ranks : Nat) (r : BitVec 512) : Option Nat :=
  if headerReserved r then some 2 else if headerOperand kind ranks r then some 3 else none

/-! ### The copy body (R175 to R179) -/

/-- Fields of a copy record. -/
def copySrc (r : BitVec 512) : Nat := recBits r 191 128
def copyDst (r : BitVec 512) : Nat := recBits r 255 192
def copyStype (r : BitVec 512) : Nat := recBits r 483 480
def copyDtype (r : BitVec 512) : Nat := recBits r 487 484
def copyDir (r : BitVec 512) : Bool := recBits r 8 8 == 1
def copyTrans (r : BitVec 512) : Nat := recBits r 10 9
def copyRed (r : BitVec 512) : Nat := recBits r 12 11
def copyQos (r : BitVec 512) : Nat := recBits r 14 13
/-- Strides of the source and the destination, dimension 0 first. -/
def copySstr (r : BitVec 512) : List Int := (List.range 4).map fun i => recInt r (339 + 40 * i) (320 + 40 * i)
def copyDstr (r : BitVec 512) : List Int := (List.range 4).map fun i => recInt r (359 + 40 * i) (340 + 40 * i)
/-- Bytes of an element type. -/
def typeBytes (t : Nat) : Nat := max 1 (widthOf t / 8)

/-- A pair of types VCVT accepts (R127). -/
def cvtPairOk (t u : Nat) : Bool :=
  let wide := fun x : Nat => x == 6 || x == 7
  let peer := fun x : Nat => x == 4 || x == 5 || x == 6 || x == 7 || x == 10
  t != 11 && u != 11 && decide (widthOf t ≤ 4 * widthOf u) && decide (widthOf u ≤ 4 * widthOf t) &&
  (!(wide t) || peer u) && (!(wide u) || peer t)

/-- The sub-cause with which a copy's body fails (R171, R178). -/
def copyBodySub (r : BitVec 512) : Option Nat :=
  let st := copyStype r
  let dt := copyDtype r
  let side := if copyDir r then copySrc r else copyDst r
  if recBits r 511 499 ≠ 0 then some 2
  else if 14 ≤ st ∨ 14 ≤ dt ∨ 4 ≤ recBits r 498 496 ∨ (st ≠ dt ∧ cvtPairOk dt st = false) ∨
      (copyTrans r ≠ 0 ∧ (copyDir r = true ∨ st ≠ dt ∨ widthOf st ≠ 8 * copyTrans r)) ∨
      (copyRed r ≠ 0 ∧ copyDir r = false) ∨ (copyRed r = 1 ∧ dt ≠ 10) ∨ (copyRed r = 2 ∧ dt ≠ 9) ∨ side / 2 ^ 22 ≠ 0 then some 3
  else none

/-- Elements of a copy (R177). -/
def copyTotal (r : BitVec 512) : Nat := (copyExtents r).foldl (· * ·) 1

/-- Least and greatest displacement of nested loops of counts and strides, every count above 0. -/
def spanLo (l : List (Nat × Int)) : Int := l.foldl (fun n p => n + min 0 (((p.1 : Nat) - 1 : Int) * p.2)) 0
def spanHi (l : List (Nat × Int)) : Int := l.foldl (fun n p => n + max 0 (((p.1 : Nat) - 1 : Int) * p.2)) 0

/-- Where the first piece of `size` bytes that leaves 0 to `lim` - 1 begins: `l` holds the loops, outermost first. -/
def firstOutside (size lim : Nat) : List (Nat × Int) → Int → Option Int
  | [], base => if 0 ≤ base ∧ base + size ≤ lim then none else some base
  | (n, k) :: t, base =>
    if 0 ≤ base + spanLo ((n, k) :: t) ∧ base + spanHi ((n, k) :: t) + size ≤ lim then none
    else (List.range n).findSome? fun i => firstOutside size lim t (base + (i : Int) * k)

/-- The lowest byte out of range of a piece that begins at `base` and leaves 0 to `lim` - 1. -/
def outByte (lim : Nat) (base : Int) : Word := BitVec.ofInt 64 (if base < 0 then base else max base lim)

/-- Loops of a copy's scratchpad side, outermost first, strides in bytes (R177). -/
def copyLoops (r : BitVec 512) : List (Nat × Int) :=
  let b : Int := typeBytes (if copyDir r then copyStype r else copyDtype r)
  let str := if copyDir r then copySstr r
    else if copyTrans r = 0 then copyDstr r
    else match copyDstr r with
      | d0 :: d1 :: t => d1 :: d0 :: t
      | l => l
  ((copyExtents r).zip (str.map (b * ·))).reverse

/-- The lowest out-of-range byte of the first element that has one (R179). -/
def copyOutside (r : BitVec 512) (scratch : Nat) : Option Word :=
  if copyTotal r = 0 then none
  else
    let b := typeBytes (if copyDir r then copyStype r else copyDtype r)
    let base : Int := if copyDir r then copySrc r else copyDst r
    (firstOutside b scratch (copyLoops r) base).map (outByte scratch)

/-! ### Acceptance (R171, R172) -/

/-- The index of a record's knot that R157 refuses: beyond its team's KNOTS, or a far knot not allocated to the context. -/
def knotRefused (s : State) (team ctx space idx rank : Nat) : Option Nat :=
  let inTeam := fun t : Option Team => match t with
    | some t => if idx < t.kernel.knots then none else some idx
    | none => some idx
  match space with
  | 0 => inTeam (s.findTeam team)
  | 1 => inTeam ((s.findTeam team).bind fun t => s.clusterTeam t.cluster rank)
  | 2 => let k := idx + 1024 * (rank % 4)
    if farOwned s k ctx then none else some k
  | _ => none

/-- The knot of a record that acceptance refuses: the waited one, then the signalled one. -/
def recordKnotBad (s : State) (team ctx : Nat) (r : BitVec 512) : Option Nat :=
  match knotRefused s team ctx (recBits r 43 42) (recBits r 41 32) (recBits r 63 60) with
  | some k => some k
  | none => if recBits r 76 76 = 1 then knotRefused s team ctx (recBits r 75 74) (recBits r 73 64) (recBits r 95 92) else none

/-- A command of the issuing warp's record (R221 push). -/
def newCmd (s : State) (d : Fin 2) (core : Fin 24) (kind : CmdKind) (entry : Nat) (r : BitVec 512) : State × Cmd :=
  let w := s.cur
  let (id, s) := s.freshId
  (s, { id, kind, d, core, entry, team := w.team, widx := w.widx, ctx := w.ctx, record := r, st := .waiting, next := 0,
        token := 0, err := 0, time := w.wclk, maxTs := w.wclk, promise := 0, copyNo := 0, sent := [], since := 0,
        ready := false, failErr := 0, answered := none, lastSector := none })

/-- A command enters its queue, its wait tested (R172). -/
def enterCmd (s : State) (c : Cmd) : State :=
  let c := match cmdWait s c with
    | none => { c with ready := true }
    | some r => wakeCmd s r [getKnot s r] c
  { s with cmds := s.cmds ++ [c] }

/-- The acceptance checks after the body's own (R171 step 4): the knots, whose violation takes SUB 0xFF as R157 gives it for
every knot, then the command enters. -/
def acceptRecord (s : State) (d : Fin 2) (core : Fin 24) (kind : CmdKind) (entry : Nat) (r : BitVec 512)
    (k : State → Cmd → Out) : Out :=
  match recordKnotBad s s.cur.team s.cur.ctx r with
  | some idx => .next (freezeTeam s cBounds 0xFF (BitVec.ofNat 64 idx))
  | none =>
    let (s, c) := newCmd s d core kind entry r
    k s c

/-- SCRATCH of the issuing warp's team. -/
def curScratch (s : State) : Nat := ((s.curTeam).map (·.kernel.scratch)).getD 0

/-- CPY (R171, R174). A push does not issue while the queue is full. -/
def execCpy (f : FmtE) (s : State) : Out :=
  match s.cur.who with
  | .thread _ _ => illegal s 6 (.cpy f)
  | .warp d c _ _ =>
    match freeEntry s (isCopyOf d c) 32 with
    | none => answer s { s.cur with status := .held .copies }
    | some e =>
      let r := slotRecord s.cur f
      match headerSub 1 (s.cur.cw * s.cur.ch) r, copyBodySub r with
      | some k, _ => illegal s k (.cpy f)
      | none, some k => illegal s k (.cpy f)
      | none, none =>
        match copyOutside r (curScratch s) with
        | some a => .next (freezeTeam s cBounds e a)
        | none => acceptRecord s d c .copy e r fun s c =>
            let s := enterCmd s c
            answer s (retire s.cur)

end Sys2Proof.Machine
end

