-- ==== Sys2Proof/Machine/CopyEngine.lean ====
section
/-! DEFINITION. Copy engines: the elements of a copy, COPY packets' byte streams, faults and ends (08 R172 to R181; 17 R342;
18 R363, R365; 21 R429). DESIGN CHOICE, unsafe: the order in which copies start, log entry 31. -/

namespace Sys2Proof.Machine

/-! ### A command's accesses -/

/-- A command's address space: its team's record, or its queue's context (R359, R437). -/
def cmdSpace (s : State) (c : Cmd) : Space :=
  ⟨c.d, c.ctx, match s.findTeam c.team with
    | some t => t.ctxRec.ppn
    | none => ctxPpn s c.d c.ctx⟩

/-- The partition a command's requests are made for: that of its core or of its queue (R423, R425). -/
def cmdPart (s : State) (c : Cmd) : Option (Fin 8) :=
  match c.kind with
  | .queue q _ => some (s.queue q).part.toFin
  | _ => corePart (s.die c.d) c.d c.core

/-- The compression ranges of a command's context (R268). -/
def cmdRanges (s : State) (c : Cmd) : List (BitVec 128) :=
  match s.findTeam c.team with
  | some t => t.ctxRec.ranges
  | none => ((tblGet (s.die c.d).contexts c.ctx).map (·.ranges)).getD []

/-- A command as a party to memory: its accesses are made at the L2 home (R221). -/
def cmdParty (s : State) (c : Cmd) : Party := ⟨c.d, none, cmdPart s c, c.time, 1, cmdRanges s c⟩

/-- Who pays for a command's work: its pushing team; nobody for a COPY packet's (R414). -/
def cmdPayer (s : State) (c : Cmd) : Option Payer :=
  match c.kind with
  | .queue _ _ => none
  | _ => corePayer s c.ctx c.d c.core

/-- The parts of bytes `va` to `va + n - 1` in distinct aligned dwords. -/
def dwordParts : Nat → Nat → Nat → List (Nat × Nat)
  | 0, _, _ => []
  | fuel + 1, va, n =>
    if n = 0 then [] else
    let k := min n (8 - va % 8)
    (va, k) :: dwordParts fuel (va + k) (n - k)

/-- Translation of each part for a request of a partition; the first that fails. -/
def reachParts (part : Option (Fin 8)) (s : State) (sp : Space) (acc : Access) (ioOk : Bool) :
    List (Nat × Nat) → State × Except (Word × Nat) (List (Phys × Nat))
  | [] => (s, .ok [])
  | (va, n) :: t =>
    let a := BitVec.ofNat 64 va
    match translateFrom part s sp.d sp.ctx sp.ppn a acc with
    | (s, .error r) => (s, .error (a, r))
    | (s, .ok ph) =>
      if ph.kind = .io ∧ ioOk = false then (s, .error (a, 3))
      else match reachParts part s sp acc ioOk t with
        | (s, .ok l) => (s, .ok ((ph, n) :: l))
        | (s, .error e) => (s, .error e)

/-- Translation of `n` bytes at a command's address, wrapping at 2^64. -/
def cmdReach (s : State) (c : Cmd) (acc : Access) (ioOk : Bool) (va n : Nat) : State × Except (Word × Nat) (List (Phys × Nat)) :=
  reachParts (cmdPart s c) s (cmdSpace s c) acc ioOk (dwordParts (n + 1) (va % 2 ^ 64) n)

/-- The first sector of the pool among translated places that holds an uncorrectable error (R180). -/
def lostPart (s : State) (l : List (Phys × Nat)) : Option ErrSite :=
  softHit s ((l.filter fun q => inPool q.1.pa).map fun q => .sector (q.1.pa / 32))

/-- The bytes at translated places. -/
def readParts (s : State) (p : Party) : List (Phys × Nat) → State × List Byte
  | [] => (s, [])
  | (ph, n) :: t =>
    let (s, l) := busRead s p ph n
    let (s, rest) := readParts s p t
    (s, l.bytes ++ rest)

/-- Bytes written at translated places; the largest timestamp received. -/
def writeParts (s : State) (p : Party) : List (Phys × Nat) → List Byte → State × Nat
  | [], _ => (s, 0)
  | (ph, n) :: t, bs =>
    let (s, ts) := busWrite s p ph (bs.take n)
    let (s, ts') := writeParts s p t (bs.drop n)
    (s, max ts ts')

/-- What a command's read of `n` bytes sends over the mesh: each sector of a PMA page but the one it has at hand, in the form that its
context's ranges give it (R269). -/
def cmdMesh (s : State) (c : Cmd) (va n : Nat) : State × Cmd :=
  match cmdReach s c .read true va n with
  | (s, .error _) => (s, c)
  | (s, .ok parts) =>
    parts.foldl (fun (r : State × Cmd) q =>
      let sec := q.1.pa / 32
      if q.1.kind ≠ .pma then (meshFlits r.1 c.d 1, r.2)
      else if r.2.lastSector = some sec then r
      else (meshSend r.1 c.d (cmdRanges s c) (BitVec.ofNat 64 va) (sectorBits r.1.mem sec), { r.2 with lastSector := some sec })) (s, c)

/-! ### One element -/

/-- Why a command's moves stop: a fault with its access, address and REASON, or data with an uncorrectable error. -/
inductive CmdStop where
  | fault (acc : Access) (va : Word) (reason : Nat)
  | bad (site : ErrSite)
  deriving DecidableEq, Repr

/-- Source and destination of element `k` (R177). -/
def copyAddr (r : BitVec 512) (k : Nat) : Int × Int :=
  let ix := loopIndex (copyExtents r) k
  let dot := fun (ix : List Nat) (str : List Int) => ((ix.zip str).map fun p => (p.1 : Int) * p.2).foldl (· + ·) 0
  let dx := if copyTrans r = 0 then ix
    else match ix with
      | i0 :: i1 :: t => i1 :: i0 :: t
      | l => l
  ((copySrc r : Int) + typeBytes (copyStype r) * dot ix (copySstr r),
   (copyDst r : Int) + typeBytes (copyDtype r) * dot dx (copyDstr r))

/-- `n` bytes of a command's global side read (R180), or why the command stops. -/
def cmdRead (s : State) (c : Cmd) (va n : Nat) : State × Except CmdStop (List Byte) :=
  match cmdReach s c .read true va n with
  | (s, .error (va, r)) => (s, .error (.fault .read va r))
  | (s, .ok parts) =>
    match lostPart s parts with
    | some e => (s, .error (.bad e))
    | none => let (s, bs) := readParts s (cmdParty s c) parts; (s, .ok bs)

/-- The element's source bits (R177, R180), or why the command stops. -/
def copyFetch (s : State) (c : Cmd) (src : Int) (n : Nat) : State × Except CmdStop Nat :=
  if copyDir c.record then
    match s.findTeam c.team with
    | none => (s, .ok 0)
    | some t =>
      match softHit s ((dwordsOf src.toNat n).map (ErrSite.scratch t.id)) with
      | some e => (s, .error (.bad e))
      | none => let (s, bs) := spdFetch s t (cmdWait s c) src.toNat n; (s, .ok (ofBytes bs))
  else
    match cmdRead s c (src % 2 ^ 64).toNat n with
    | (s, .error e) => (s, .error e)
    | (s, .ok bs) => (s, .ok (ofBytes bs))

/-- Scratchpad bytes written by a command, what they held kept until something orders them (R227); an error in a dword it writes is
gone. -/
def teamStore (s : State) (team cmd off : Nat) (bs : List Byte) : State :=
  let s := s.onTeam team fun t => spdWrite (markLoose t (.cmd cmd) off bs.length) off bs
  { s with softErrs := s.softErrs.filter fun e => !(((dwordsOf off bs.length).map (ErrSite.scratch team)).contains e) }

/-- Reduce-on-store at the element's home: one indivisible add (R180). -/
def copyReduce (s : State) (c : Cmd) (dst n x : Nat) : State × Except CmdStop Nat :=
  match cmdReach s c .atomic false dst n with
  | (s, .error (va, r)) => (s, .error (.fault .atomic va r))
  | (s, .ok parts) =>
    match lostPart s parts with
    | some e => (s, .error (.bad e))
    | none =>
      let (s, old) := readParts s (cmdParty s c) parts
      let f := if copyRed c.record = 1 then fmtF32 else fmtBf16
      let (s, ts) := writeParts s (cmdParty s c) parts (toBytes (fpAdd f .rne (ofBytes old) x) n)
      (s, .ok ts)

/-- The element written to its place; the timestamp received. -/
def copyStore (s : State) (c : Cmd) (dst : Int) (n x : Nat) : State × Except CmdStop Nat :=
  if copyDir c.record = false then (teamStore s c.team c.id dst.toNat (toBytes x n), .ok 0)
  else if copyRed c.record ≠ 0 then copyReduce s c (dst % 2 ^ 64).toNat n x
  else
    match cmdReach s c .write true (dst % 2 ^ 64).toNat n with
    | (s, .error (va, r)) => (s, .error (.fault .write va r))
    | (s, .ok parts) => let (s, ts) := writeParts s (cmdParty s c) parts (toBytes x n); (s, .ok ts)

/-- The converted element, none where its case selects fault (R51, R177, R180). -/
def copyConvert (r : BitVec 512) (x : Nat) : Option Nat :=
  if copyStype r = copyDtype r then some x
  else match convertElem (copyDtype r) (copyStype r) (rndOf (BitVec.ofNat 3 (recBits r 498 496))) (policyOf (recBits r 495 488)) x with
    | .ok b => some b
    | .fault _ => none

/-- Element `k` of a record moved: the command with its error and timestamps. -/
def copyElem (s : State) (c : Cmd) (k : Nat) : State × Except CmdStop Cmd :=
  let (src, dst) := copyAddr c.record k
  match copyFetch s c src (typeBytes (copyStype c.record)) with
  | (s, .error e) => (s, .error e)
  | (s, .ok x) =>
    match copyConvert c.record x with
    | none => (s, .ok { c with next := k + 1, err := 2 })
    | some y =>
      match copyStore s c dst (typeBytes (copyDtype c.record)) y with
      | (s, .error e) => (s, .error e)
      | (s, .ok ts) => (s, .ok { c with next := k + 1, maxTs := max c.maxTs ts })

/-- Bytes of a COPY packet, its body kept as the record (R341). -/
def packetBytes (r : BitVec 512) : Nat := recBits r 231 192
/-- Its source address. -/
def packetSrc (r : BitVec 512) : Nat := recBits r 127 64

/-- Byte `k` of a COPY packet's stream moved (R342). -/
def streamByte (s : State) (c : Cmd) (k : Nat) : State × Except CmdStop Cmd :=
  match cmdRead s c (packetSrc c.record + k) 1 with
  | (s, .error e) => (s, .error e)
  | (s, .ok bs) =>
    match cmdReach s c .write true (recBits c.record 191 128 + k) 1 with
    | (s, .error (va, r)) => (s, .error (.fault .write va r))
    | (s, .ok parts) =>
      let (s, ts) := writeParts s (cmdParty s c) parts bs
      (s, .ok { c with next := k + 1, maxTs := max c.maxTs ts })

/-- Elements of a command. -/
def cmdTotal (c : Cmd) : Nat :=
  match c.kind with
  | .queue _ _ => packetBytes c.record
  | _ => copyTotal c.record

/-- What the read of an element sends over the mesh. -/
def elemMesh (s : State) (c : Cmd) (k : Nat) : State × Cmd :=
  match c.kind with
  | .queue _ _ => cmdMesh s c (packetSrc c.record + k) 1
  | _ => if copyDir c.record then (s, c) else cmdMesh s c ((copyAddr c.record k).1 % 2 ^ 64).toNat (typeBytes (copyStype c.record))

/-- One element of a command moved. -/
def moveElem (s : State) (c : Cmd) (k : Nat) : State × Except CmdStop Cmd :=
  let (s, c) := elemMesh s c k
  match c.kind with
  | .queue _ _ => streamByte s c k
  | _ => copyElem s c k

/-- A command's next `n` elements moved in order, up to the first that stops it. -/
def moveElems : Nat → State → Cmd → State × Cmd × Option CmdStop
  | 0, s, c => (s, c, none)
  | n + 1, s, c =>
    match moveElem s c c.next with
    | (s, .ok c) => moveElems n s c
    | (s, .error e) => (s, c, some e)

/-- Every remaining element of a command. -/
def moveAll (s : State) (c : Cmd) : State × Cmd × Option CmdStop :=
  let (s, c', e) := moveElems (cmdTotal c - c.next) (chargeTo s none) c
  (chargeTo s (cmdPayer s c), c', e)

/-! ### Pauses, freezes and ends -/

/-- The PC word of a command's record (R364). -/
def cmdPc (c : Cmd) : Word :=
  let e := match c.kind with
    | .matrix p => 16 * p + c.entry
    | _ => c.entry
  BitVec.ofNat 64 (recBits c.record 31 16 + 65536 * e)

/-- AGENT of a command (R364). -/
def cmdAgent (c : Cmd) : Nat :=
  match c.kind with
  | .matrix _ => 3
  | .queue _ _ => 4
  | _ => 1

/-- A command's record, before it is filled in: a queue's copy is named as its queue's packet (R364, R437). -/
def cmdRec (c : Cmd) (kind : Nat) : SpoolRec :=
  match c.kind with
  | .queue q _ => { queueRec q c.ctx c.entry 0 0 0 0 (.cmd c.id) with kind }
  | _ => { token := 0, master := .cmd c.id, kind, access := 0, agent := cmdAgent c, ctx := c.ctx, reason := 0,
           agentId := coreIdBits c.d c.core, fkind := 0, pc := cmdPc c, va := 0, lanes := 0, cause := 0, tval := 0 }

/-- The error a failed answer ends a command with (R185): 3 for a reduce on an IO page. -/
def stopErr (acc : Access) (reason : Nat) : Nat := if acc = .atomic ∧ reason = 3 then 3 else 1

/-- A command stopped at an element (R180, R429): paused on its record, or frozen with UNCORRECTED. -/
def stopCmd (s : State) (c : Cmd) (e : CmdStop) : State :=
  match e with
  | .fault acc va reason =>
    let (tok, s) := s.freshId
    let s := s.onCmd c.id fun _ => { c with st := .paused, token := tok, failErr := stopErr acc reason }
    enqueueRec s c.d { cmdRec c 1 with token := tok, access := accessCode acc, reason, va }
  | .bad site =>
    let s := logError s c.d { kind := 3, struct := (siteCode site).1, ctx := c.ctx, count := 0,
                              agentId := coreIdBits c.d c.core, addr := (siteCode site).2 }
    let s := s.onCmd c.id fun _ => { c with st := .frozen }
    enqueueRec s c.d { cmdRec c 0x10 with cause := causeWord true cUncorrected 0, tval := siteTval site, master := .none }

/-- A command of a copy engine. -/
def isCopyKind (c : Cmd) : Bool :=
  match c.kind with
  | .copy => true
  | .queue _ _ => true
  | _ => false

/-- A copy that runs and may. -/
def copyRuns (s : State) (c : Cmd) : Bool := isCopyKind c && c.st == .running && cmdMayRun s c

/-- COPY_COMPLETE (R177, R180): a copy whose remaining elements all move ends with its error, if it has one. -/
def execCopyComplete (cmd : Nat) (s : State) : Out :=
  match s.findCmd cmd with
  | none => .next s
  | some c =>
    if copyRuns s c then
      match moveAll s c with
      | (s', c', none) => .next (endCmd (s'.onCmd cmd fun _ => c') cmd c'.err)
      | (_, _, some _) => .next s
    else .next s

/-- COPY_ELEMENT_FAULT (R180): the elements before the one that stops are final. -/
def execCopyElementFault (cmd : Nat) (s : State) : Out :=
  match s.findCmd cmd with
  | none => .next s
  | some c =>
    if copyRuns s c then
      match moveAll s c with
      | (s', c', some e) => .next (stopCmd s' c' e)
      | (_, _, none) => .next s
    else .next s

/-! ### Starting (R172 to R174) -/

/-- QOS class of a copy (R176, R341). -/
def cmdQos (c : Cmd) : Nat :=
  match c.kind with
  | .queue _ _ => recBits c.record 233 232
  | _ => copyQos c.record

/-- Two copies stand in one queue: the copy issue queue of a core, or one hardware queue. -/
def sameQueue (a b : Cmd) : Bool :=
  match a.kind, b.kind with
  | .copy, .copy => a.d == b.d && a.core == b.core
  | .queue p _, .queue q _ => p == q
  | _, _ => false

/-- A copy of a die that is ready and has no ready copy before it in its queue (R173). -/
def copyReady (s : State) (d : Fin 2) (c : Cmd) : Bool :=
  isCopyKind c && c.d == d && c.st == .waiting && c.ready && cmdMayRun s c &&
  !(s.cmds.any fun o => sameQueue o c && decide (o.id < c.id) && o.st == .waiting && o.ready && cmdMayRun s o)

/-- One copy is taken before another: the lower QOS class, then the older (R174). -/
def copyBefore (a b : Cmd) : Bool := decide (cmdQos a < cmdQos b) || (cmdQos a == cmdQos b && decide (a.id < b.id))

/-- The copy the die's 16 engines take next; one with an extent of 0 needs no engine (R174, R177). -/
def nextCopy (s : State) (d : Fin 2) : Option Cmd :=
  let l := s.cmds.filter (copyReady s d)
  match l.find? fun c => cmdTotal c == 0 with
  | some c => some c
  | none =>
    if (s.cmds.filter fun c => isCopyKind c && c.d == d && c.st == .running).length < 16 then
      l.find? fun c => l.all fun o => o.id == c.id || copyBefore c o
    else none

/-- A copy starts: with an extent of 0 it ends at once (R172, R177). -/
def startCopy (s : State) (c : Cmd) : State :=
  if (nextCopy s c.d).map (·.id) = some c.id then
    (if cmdTotal c = 0 then endCmd s c.id 0 else s.onCmd c.id fun c => { c with st := .running })
  else s

end Sys2Proof.Machine
end

