-- ==== Sys2Proof/Machine/Matrix.lean ====
section
/-! DEFINITION. Matrix engines and the tile store (08 R186 to R194; 02 R48, R53, R54; 11 R261).
DEDUCED, unsafe: sets of BSHARED commands, log entry 32. -/

namespace Sys2Proof.Machine

/-! ### The record (R187, R188) -/

def mxOp (r : BitVec 512) : Nat := recBits r 131 128
def mxAtype (r : BitVec 512) : Nat := recBits r 135 132
def mxBtype (r : BitVec 512) : Nat := recBits r 139 136
def mxKdim (r : BitVec 512) : Nat := recBits r 141 140
def mxShared (r : BitVec 512) : Bool := recBits r 8 8 == 1
def mxScaled (r : BitVec 512) : Bool := recBits r 9 9 == 1
def mxTag (r : BitVec 512) : Nat := recBits r 31 16
def mxAmask (r : BitVec 512) : Nat := recBits r 285 278
def mxBmask (r : BitVec 512) : Nat := recBits r 379 372
/-- Strides of loops 0 to 3. -/
def mxAs (r : BitVec 512) : List Int := (List.range 4).map fun i => recInt r (229 + 16 * i) (214 + 16 * i)
def mxBs (r : BitVec 512) : List Int := (List.range 4).map fun i => recInt r (323 + 16 * i) (308 + 16 * i)
def mxDs (r : BitVec 512) : List Int := (List.range 4).map fun i => recInt r (410 + 16 * i) (395 + 16 * i)

/-- Class of a format code (R188): 0 FP8, 1 FP6, 2 FP4, 3 16-bit, 4 INT8. -/
def mxClass (t : Nat) : Nat :=
  match t with
  | 0 => 0
  | 1 => 0
  | 2 => 1
  | 3 => 1
  | 4 => 2
  | 5 => 3
  | 6 => 3
  | _ => 4
/-- Bits of an element. -/
def mxBits (t : Nat) : Nat :=
  match mxClass t with
  | 1 => 6
  | 2 => 4
  | 3 => 16
  | _ => 8
/-- K elements of a step. -/
def mxK (t : Nat) (scaled : Bool) : Nat :=
  match mxClass t with
  | 2 => 32
  | 3 => 8
  | _ => if scaled then 32 else 16
/-- Products of a group (R53). -/
def mxGroup (t : Nat) : Nat :=
  match mxClass t with
  | 2 => 32
  | 3 => 8
  | _ => 16
/-- Bytes of a tile of `n` rows or columns, padded to 32 (R188). -/
def mxTileBytes (t : Nat) (scaled : Bool) (n : Nat) : Nat :=
  roundUp (n * mxK t scaled * mxBits t / 8 + (if scaled then n else 0)) 32

/-- The exact value of an element of a floating-point format (R46). -/
def mxValue (t x : Nat) : Fv :=
  match t with
  | 0 => decodeFp fmtE4m3 x
  | 1 => decodeFp fmtE5m2 x
  | 2 => decodeFp fmtE3m2 x
  | 3 => decodeFp fmtE2m3 x
  | 4 => decodeFp fmtE2m1 x
  | 5 => decodeFp fmtBf16 x
  | _ => decodeFp fmtF16 x
/-- The value of a UE8M0 scale (R48). -/
def mxScale (e : Nat) : Fv := if e = 255 then .nan else .fin false 1 ((e : Int) - 127)

/-- The sub-cause with which a matrix body fails (R171, R190). -/
def mxBodySub (r : BitVec 512) : Option Nat :=
  if recBits r 511 474 ≠ 0 ∨ recBits r 143 142 ≠ 0 ∨ 2 ≤ mxOp r ∨ 9 ≤ mxAtype r ∨ 9 ≤ mxBtype r then some 2
  else if mxClass (mxAtype r) ≠ mxClass (mxBtype r) ∨ (mxScaled r = true ∧ 3 ≤ mxClass (mxAtype r)) ∨
      recBits r 213 192 % 32 ≠ 0 ∨ recBits r 307 286 % 32 ≠ 0 ∨ (mxDs r).getD (mxKdim r) 0 ≠ 0 ∨ mxAmask r = 0 ∨
      mxBmask r = 0 then some 3
  else none

/-! ### Bounds (R190) -/

/-- Where a step's tiles lie: offsets of A and B, the cell of C when it is read, the cell of D. -/
structure MxPlace where
  a : Int
  b : Int
  c : Option Int
  d : Int
  deriving DecidableEq, Repr

/-- A loop: its count, its strides in bytes and cells, whether it runs along K. -/
structure MxLoop where
  n : Nat
  da : Int
  db : Int
  dd : Int
  isK : Bool
  deriving DecidableEq, Repr

/-- Limits of a record's tiles. -/
structure MxLimit where
  aBytes : Nat
  bBytes : Nat
  scratch : Nat
  cells : Nat
  deriving DecidableEq, Repr

/-- The first cell of a tile that leaves 0 to `lim` - 1. -/
def tileOut (lim : Nat) (c : Int) : Option Int :=
  if 0 ≤ c ∧ c + 1943 < lim then none
  else if c < 0 then some c
  else (List.range 16).findSome? fun m =>
    let r := c + 128 * (m : Int)
    if (lim : Int) ≤ r + 23 then some (max r lim) else none

/-- sr.tval of a tile-store breach (R190). -/
def cellTval (c : Int) : Word := BitVec.ofInt 64 c ||| 0x8000000000000000#64

/-- The first breach of one step, in the order A, B, C, D. -/
def stepOut (g : MxLimit) (p : MxPlace) : Option Word :=
  if p.a < 0 ∨ (g.scratch : Int) < p.a + g.aBytes then some (outByte g.scratch p.a)
  else if p.b < 0 ∨ (g.scratch : Int) < p.b + g.bBytes then some (outByte g.scratch p.b)
  else match p.c.bind (tileOut g.cells) with
    | some c => some (cellTval c)
    | none => (tileOut g.cells p.d).map cellTval

/-- Every tile of the loops holds. -/
def loopsFit (g : MxLimit) (l : List MxLoop) (p : MxPlace) : Bool :=
  let fits := fun (base : Int) (str : MxLoop → Int) (size lim : Nat) =>
    let s := l.map fun x : MxLoop => (x.n, str x)
    decide (0 ≤ base + spanLo s) && decide (base + spanHi s + size ≤ lim)
  fits p.a (·.da) g.aBytes g.scratch && fits p.b (·.db) g.bBytes g.scratch && fits p.d (·.dd) 1944 g.cells &&
  (match p.c with
   | some c => fits c (·.dd) 1944 g.cells
   | none => true)

/-- The first breach of the steps of nested loops, outermost first. C is read only at index 0 of the loop along K. -/
def loopsOut (g : MxLimit) : List MxLoop → MxPlace → Option Word
  | [], p => stepOut g p
  | x :: t, p =>
    if loopsFit g (x :: t) p then none
    else (List.range x.n).findSome? fun i =>
      let k : Int := i
      loopsOut g t ⟨p.a + k * x.da, p.b + k * x.db, if x.isK && i != 0 then none else p.c.map (· + k * x.dd), p.d + k * x.dd⟩

/-- Loops of a record, outermost first. -/
def mxLoops (r : BitVec 512) : List MxLoop :=
  ((List.range 4).map fun i =>
    { n := (matrixTrips r).getD i 0, da := 32 * (mxAs r).getD i 0, db := 32 * (mxBs r).getD i 0, dd := (mxDs r).getD i 0,
      isK := mxKdim r == i }).reverse

/-- The tiles of the first step. -/
def mxStart (r : BitVec 512) : MxPlace :=
  ⟨recBits r 213 192, recBits r 307 286, if mxOp r = 0 then some (recBits r 473 459) else none, recBits r 394 380⟩

/-- The first breach of a record's bounds (R190); a record with a trip count of 0 has no step. -/
def mxOutside (r : BitVec 512) (scratch cells : Nat) : Option Word :=
  if (matrixTrips r).contains 0 then none
  else loopsOut ⟨mxTileBytes (mxAtype r) (mxScaled r) 16, mxTileBytes (mxBtype r) (mxScaled r) 24, scratch, cells⟩
    (mxLoops r) (mxStart r)

/-! ### Steps (R189, R192) -/

/-- Cell `c` of a ply's tile store; no cell of the team reads as a free value. -/
def cellGet (t : Team) (ply : Nat) (c : Int) : Nat := (laneOf (tileRow t ply (c.toNat / 128)) (c.toNat % 128)).toNat
/-- Cell `c` written; a cell beyond the team's rows is none of it. -/
def cellSet (t : Team) (ply : Nat) (c : Int) (v : Nat) : Team :=
  let row := c.toNat / 128
  if 0 ≤ c ∧ row < t.kernel.cells then
    tileSet t ply row (buildReg 32 fun p => if p = c.toNat % 128 then v else (laneOf (tileRow t ply row) p).toNat)
  else t

/-- Displacement of a step. -/
def mxDot (j : List Nat) (str : List Int) : Int := ((j.zip str).map fun p => (p.1 : Int) * p.2).foldl (· + ·) 0

/-- The accumulator tile's first cell at a step, none where it starts from zero (R189). -/
def mxAcc (r : BitVec 512) (j : List Nat) : Option Int :=
  let d : Int := recBits r 394 380 + mxDot j (mxDs r)
  if j.getD (mxKdim r) 0 ≠ 0 then some d
  else if mxOp r = 0 then some (recBits r 473 459 + mxDot j (mxDs r))
  else none

/-- One product of row `m` and column `n` at K index `k`, scales included (R48, R53): `ta` and `tb` are the tiles' bits. -/
def mxProduct (at_ bt : Nat) (scaled : Bool) (ta tb m n k : Nat) : Fv :=
  let kk := mxK at_ scaled
  let ea := (ta >>> ((m * kk + k) * mxBits at_)) % 2 ^ mxBits at_
  let eb := (tb >>> ((n * kk + k) * mxBits bt)) % 2 ^ mxBits bt
  let p := Fv.mul (mxValue at_ ea) (mxValue bt eb)
  if scaled then
    let sa := (ta >>> (16 * kk * mxBits at_ + 8 * m)) % 256
    let sb := (tb >>> (24 * kk * mxBits bt + 8 * n)) % 256
    Fv.mul p (Fv.mul (mxScale sa) (mxScale sb))
  else p

/-- The exact integer sum of a cell (R54). -/
def mxInt (at_ bt acc ta tb m n : Nat) : Nat :=
  let kk := mxK at_ false
  let el := fun (t x : Nat) => if t = 7 then toSigned 8 x else ((x % 256 : Nat) : Int)
  let sum : Int := (List.range kk).foldl (fun s k =>
    s + el at_ ((ta >>> ((m * kk + k) * 8)) % 256) * el bt ((tb >>> ((n * kk + k) * 8)) % 256)) 0
  ofSigned 32 (toSigned 32 acc + sum)

/-- A D cell from its accumulator: groups in increasing K (R53), or the integer sum. -/
def mxCell (at_ bt : Nat) (scaled : Bool) (acc ta tb m n : Nat) : Nat :=
  if mxClass at_ = 4 then mxInt at_ bt acc ta tb m n
  else
    let g := mxGroup at_
    (List.range (mxK at_ scaled / g)).foldl (fun c i =>
      groupSum c ((List.range g).map fun k => mxProduct at_ bt scaled ta tb m n (i * g + k))) acc

/-- Offset of the A tile of a step; of the B tile, from the record of the set's leader (R189, R192). A member's A tile at an offset below
0, which its own acceptance did not check for the leader's trip counts, is read from offset 0 (DESIGN CHOICE, unsafe: log entry 32). -/
def mxOffsetA (r : BitVec 512) (j : List Nat) : Int := (recBits r 213 192 : Int) + 32 * mxDot j (mxAs r)
def mxOffsetB (lead : BitVec 512) (j : List Nat) : Int := (recBits lead 307 286 : Int) + 32 * mxDot j (mxBs lead)
/-- Bytes of the A tile of a record, and of the B tile of a leader's. -/
def mxBytesA (r : BitVec 512) : Nat := mxTileBytes (mxAtype r) (mxScaled r) 16
def mxBytesB (lead : BitVec 512) : Nat := mxTileBytes (mxBtype lead) (mxScaled lead) 24

/-- A tile of `n` bytes at a multiple of 32 read by an engine, each element of format `t` whole (R181, R188, R227). -/
def mxTile (s : State) (t : Team) (wait : Option KnotRef) (off n fmt : Nat) : State × Nat :=
  let g := max 1 (mxBits fmt / 8)
  let (s, bs) := (List.range ((n + g - 1) / g)).foldl (fun (r : State × List Byte) k =>
    let (s, bs) := spdFetch r.1 t wait (off + g * k) (min g (n - g * k))
    (s, r.2 ++ bs)) (s, [])
  (s, ofBytes bs)

/-- A tile an engine needs at an address: the one it holds from the step before where the address is the same, else read (R191). -/
def mxFetch (s : State) (t : Team) (wait : Option KnotRef) (held : Option (Int × Nat)) (off : Int) (n fmt : Nat) : State × Nat :=
  match held with
  | some (a, bits) => if a = off then (s, bits) else mxTile s t wait off.toNat n fmt
  | none => mxTile s t wait off.toNat n fmt

/-- A step's D tile computed from its A and B tiles and written. In a set whose records disagree on SCALED or on the class of their
types, each goes by its own, and a B tile that lacks scales has zeros for them (DESIGN CHOICE, unsafe: log entry 32). -/
def mxStep (t : Team) (ply : Nat) (r lead : BitVec 512) (j : List Nat) (ta tb : Nat) : Team :=
  let at_ := mxAtype r
  let bt := mxBtype lead
  let d : Int := recBits r 394 380 + mxDot j (mxDs r)
  let cells := (List.range 384).map fun i =>
    let off : Int := 128 * (i / 24 : Nat) + (i % 24 : Nat)
    let acc := match mxAcc r j with
      | some c => cellGet t ply (c + off)
      | none => 0
    (d + off, mxCell at_ bt (mxScaled r) acc ta tb (i / 24) (i % 24))
  cells.foldl (fun t p => cellSet t ply p.1 p.2) t

/-- Storage a member's step reads: scratchpad dwords of its A tile, rows of its accumulator; and the set's, of its B tile. -/
def mxSites (t : Team) (r : BitVec 512) (j : List Nat) (rowBase : Nat) : List ErrSite :=
  (dwordsOf (mxOffsetA r j).toNat (mxBytesA r)).map (ErrSite.scratch t.id) ++
  (match mxAcc r j with
   | some c => (List.range 17).map fun k => ErrSite.tile t.id (rowBase + c.toNat / 128 + k)
   | none => [])
def mxSitesB (t : Team) (lead : BitVec 512) (j : List Nat) : List ErrSite :=
  (dwordsOf (mxOffsetB lead j).toNat (mxBytesB lead)).map (ErrSite.scratch t.id)

/-- A ply's number counted from its team's base. -/
def relPly (t : Team) (ply : Nat) : Nat := (ply + 8 - t.base % 8) % 8

/-- The ply of a matrix command. -/
def cmdPly (c : Cmd) : Option Nat :=
  match c.kind with
  | .matrix p => some p
  | _ => none

/-- A member of a set that runs, with the A tile its engine holds. -/
structure MxLane where
  cmd : Cmd
  held : Option (Int × Nat)
  deriving DecidableEq, Repr

/-- The member whose read meets an uncorrectable error at a step: the leader for the B tile (R192, R429). -/
def mxHit (s : State) (t : Team) (lead : Cmd) (j : List Nat) (l : List MxLane) : Option (Nat × ErrSite) :=
  match softHit s (mxSitesB t lead.record j) with
  | some e => some (lead.id, e)
  | none => l.findSome? fun m =>
    (softHit s (mxSites t m.cmd.record j (256 * relPly t ((cmdPly m.cmd).getD 0)))).map fun e => (m.cmd.id, e)

/-- One step of one member: its A tile, and its D tile from the set's B tile. -/
def mxMember (t : Team) (lead : BitVec 512) (j : List Nat) (tb : Nat) (s : State) (m : MxLane) : State × MxLane :=
  let r := m.cmd.record
  let off := mxOffsetA r j
  let (s, ta) := mxFetch s t (cmdWait s m.cmd) m.held off (mxBytesA r) (mxAtype r)
  (s.onTeam m.cmd.team fun t => mxStep t (relPly t ((cmdPly m.cmd).getD 0)) r lead j ta tb,
   ⟨{ m.cmd with next := m.cmd.next + 1 }, some (off, ta)⟩)

/-- One step of every member. -/
def mxMembers (t : Team) (lead : BitVec 512) (j : List Nat) (tb : Nat) : State → List MxLane → State × List MxLane
  | s, [] => (s, [])
  | s, m :: l =>
    let (s, m) := mxMember t lead j tb s m
    let (s, l) := mxMembers t lead j tb s l
    (s, m :: l)

/-- The next `n` steps of a set, in lockstep: each step's B tile is read once for every member (R192). The set stops before a step that
meets an uncorrectable error: the member that meets it stalls the others. -/
def mxSteps (lead : Cmd) : Nat → Nat → State → Option (Int × Nat) → List MxLane → State × List MxLane × Option (Nat × ErrSite)
  | 0, _, s, _, l => (s, l, none)
  | n + 1, k, s, b, l =>
    let j := loopIndex (matrixTrips lead.record) k
    match s.findTeam lead.team with
    | none => (s, l, none)
    | some t =>
      match mxHit s t lead j l with
      | some e => (s, l, some e)
      | none =>
        let off := mxOffsetB lead.record j
        let (s, tb) := mxFetch s t (cmdWait s lead) b off (mxBytesB lead.record) (mxBtype lead.record)
        let (s, l) := mxMembers t lead.record j tb s l
        mxSteps lead n (k + 1) s (some (off, tb)) l

/-! ### Queues and starting (R173, R186, R192) -/

/-- A queue's commands in push order. -/
def mxQueue (s : State) (d : Fin 2) (core : Fin 24) (p : Nat) : List Cmd := queued s (isMatrixOf d core p)
/-- A command of the queue has its engine: it runs, or has frozen in it. -/
def mxBusy (q : List Cmd) : Bool := q.any fun c => c.st == .running || c.st == .frozen
/-- A command may start as far as its wait and its team go. -/
def mxWaited (s : State) (c : Cmd) : Bool := c.st == .waiting && c.ready && cmdMayRun s c
/-- The first command of a queue that has not started: its head. -/
def mxHead (q : List Cmd) : Option Cmd := q.find? fun c => c.st == .waiting
/-- The plies whose engines a team holds, a release pending or not (R186). -/
def heldPlies (s : State) (d : Fin 2) (core : Fin 24) (team : Nat) : List Nat :=
  ((s.coreAt d core).engines.filter fun e => e.2.1 == team).map (·.1)

/-- The set of a BSHARED record: the heads of its team's engines, when every one is BSHARED with its TAG, its wait satisfied
and its engine idle (R192). -/
def sharedSet (s : State) (c : Cmd) : Option (List Cmd) :=
  (heldPlies s c.d c.core c.team).mapM fun p =>
    let q := mxQueue s c.d c.core p
    match mxHead q with
    | some h => if mxShared h.record ∧ mxTag h.record = mxTag c.record ∧ h.team = c.team ∧ mxWaited s h = true ∧
        mxBusy q = false then some h else none
    | none => none

/-- The commands that start with `c`, when it may start: alone, or with its set. -/
def mxStarts (s : State) (c : Cmd) : Option (List Cmd) :=
  match cmdPly c with
  | none => none
  | some p =>
    let q := mxQueue s c.d c.core p
    if mxBusy q ∨ mxWaited s c = false ∨ (q.find? (mxWaited s)).map (·.id) ≠ some c.id then none
    else if mxShared c.record then (if (mxHead q).map (·.id) = some c.id then sharedSet s c else none)
    else match mxHead q with
      | some h => if mxShared h.record then none else some [c]
      | none => none

/-- A command without a step signals as soon as its wait is satisfied: it needs no engine (R189). A BSHARED record at the head of its
queue holds it (R192). -/
def mxEmpty (s : State) (c : Cmd) : Bool :=
  match cmdPly c with
  | none => false
  | some p =>
    mxWaited s c && (matrixTrips c.record).contains 0 && !(mxShared c.record) &&
    !((mxHead (mxQueue s c.d c.core p)).any fun h => mxShared h.record)

/-- A matrix command starts. -/
def startMatrix (s : State) (c : Cmd) : State :=
  if mxEmpty s c then endCmd s c.id 0
  else match mxStarts s c with
    | some l => l.foldl (fun s x => s.onCmd x.id fun c => { c with st := .running }) s
    | none => s

/-- COMMAND_START (R172). -/
def execCommandStart (cmd : Nat) (s : State) : Out :=
  match s.findCmd cmd with
  | none => .next s
  | some c =>
    match c.kind with
    | .copy => .next (startCopy s c)
    | .queue _ _ => .next (startCopy s c)
    | .matrix _ => .next (startMatrix s c)
    | .stage _ =>
      .next (if c.st = .waiting ∧ c.ready = true ∧ cmdMayRun s c = true then s.onCmd cmd (beginCmd s) else s)

/-- The commands in lockstep with `c`: itself, or the members of its set, one that has frozen among them. -/
def runningSet (s : State) (c : Cmd) : List Cmd :=
  if mxShared c.record then
    s.cmds.filter fun o => (o.st == .running || o.st == .frozen) && (cmdPly o).isSome && o.team == c.team && mxShared o.record &&
      mxTag o.record == mxTag c.record
  else [c]

/-- The set's leader: the record of its lowest-numbered engine (R192). -/
def leader (l : List Cmd) (c : Cmd) : Cmd :=
  l.foldl (fun b x => if (cmdPly x).getD 8 < (cmdPly b).getD 8 then x else b) c

/-- Steps that members made counted by their die and charged (R414, R426). -/
def countSteps (from_ : Nat) (s : State) (m : MxLane) : State :=
  let n := m.cmd.next - from_
  chargeTo (s.onDie m.cmd.d fun x =>
    workUp (countUp x 4 n) (Fin.ofNat 15 (min (mxClass (mxAtype m.cmd.record)) 4)) n) (cmdPayer s m.cmd)

/-- A set that runs completes its steps, or the member that meets an error freezes and stalls the others. -/
def completeSet (s : State) (l : List Cmd) (lead : Cmd) : State :=
  let total := (matrixTrips lead.record).foldl (· * ·) 1
  let (s, ms, e) := mxSteps lead (total - lead.next) lead.next (chargeTo s none) none (l.map fun c => ⟨c, none⟩)
  let s := ms.foldl (countSteps lead.next) s
  let s := ms.foldl (fun s m => s.onCmd m.cmd.id fun _ => m.cmd) s
  match e with
  | none => ms.foldl (fun s m => endCmd s m.cmd.id 0) s
  | some (id, site) => match s.findCmd id with
    | some c => stopCmd s c (.bad site)
    | none => s

/-- A command runs and no member of its set stalls it. -/
def mxRuns (s : State) (c : Cmd) : Bool :=
  c.st == .running && (cmdPly c).isSome && cmdMayRun s c && (runningSet s c).all (·.st == .running)

/-- MATRIX_COMPLETE (R189). -/
def execMatrixComplete (cmd : Nat) (s : State) : Out :=
  match s.findCmd cmd with
  | none => .next s
  | some c => .next (if mxRuns s c then completeSet s (runningSet s c) (leader (runningSet s c) c) else s)

/-! ### Instructions -/

/-- The issuing warp's core. -/
def curCore (s : State) : Fin 2 × Fin 24 := (agentDie s.cur.who, (agentCore s.cur.who).getD 0)

/-- MXACQ (R186). -/
def execMxacq (f : FmtE) (s : State) : Out :=
  let (d, c) := curCore s
  match s.curTeam with
  | none => answer s (retire (writeM s.cur (mfield f.d) 0))
  | some t =>
    let plies := distinct (teamPlies t.base t.kernel.warps)
    let mine := fun p : Nat => match tblGet (s.coreAt d c).engines p with
      | some e => e.1 == t.id
      | none => true
    if plies.all mine then
      let s := s.onCore d c fun x => { x with engines := plies.foldl (fun e p => tblSet e p (t.id, false)) x.engines }
      answer s (retire (writeM s.cur (mfield f.d) (BitVec.allOnes 128)))
    else answer s (retire (writeM s.cur (mfield f.d) 0))

/-- MXREL (R186). -/
def execMxrel (_f : FmtE) (s : State) : Out :=
  let (d, c) := curCore s
  let s := s.onCore d c fun x => { x with engines := x.engines.map fun e => if e.2.1 = s.cur.team then (e.1, e.2.1, true) else e }
  let s := drainEngines s d c
  answer s (retire s.cur)

/-- MXPUSH (R171, R187, R190). -/
def execMxpush (f : FmtE) (s : State) : Out :=
  let (d, c) := curCore s
  let p := f.eng.toNat
  let held := tblGet (s.coreAt d c).engines p == some (s.cur.team, false)
  match freeEntry s (isMatrixOf d c p) 16, held with
  | none, true => answer s { s.cur with status := .held (.matrix p) }
  | e, held =>
    let r := slotRecord s.cur f
    match headerSub 3 (s.cur.cw * s.cur.ch) r, mxBodySub r with
    | some k, _ => illegal s k (.mxpush f)
    | none, some k => illegal s k (.mxpush f)
    | none, none =>
      if held = false then illegal s 3 (.mxpush f)
      else
        let e := e.getD 0
        let cells := ((s.curTeam).map (·.kernel.cells)).getD 0
        match mxOutside r (curScratch s) (128 * cells) with
        | some a => .next (freezeTeam s cBounds (16 * p + e) a)
        | none =>
          if mxAmask r &&& mxBmask r ≠ 0 then .next (freezeTeam s cMxbank p (BitVec.ofNat 64 (mxAmask r &&& mxBmask r)))
          else acceptRecord s d c (.matrix p) e r fun s c =>
            let s := enterCmd s c
            answer s (retire s.cur)

/-- MXQS (R193). -/
def execMxqs (f : FmtE) (s : State) : Out :=
  let (d, c) := curCore s
  let p := f.eng.toNat
  let q := mxQueue s d c p
  let owner := (tblGet (s.coreAt d c).engines p).map (·.1)
  let lock := match mxHead q with
    | some h => !(mxBusy q) && mxShared h.record && mxWaited s h && (sharedSet s h).isNone
    | none => false
  let v := (if owner = some s.cur.team then 2048 else 0) + (if owner.isSome ∧ owner ≠ some s.cur.team then 1024 else 0) +
    (if mxBusy q then 512 else 0) + (if lock then 256 else 0) + (16 - q.length)
  answer s (retire (writeX s.cur f.d (BitVec.ofNat 64 v)))

/-! ### The tile store (R194) -/

/-- The issuing warp's ply counted from its team's base. -/
def curPly (s : State) : Nat :=
  match s.curTeam with
  | some t => relPly t (agentPly s.cur.who)
  | none => 0

/-- A row at or beyond CELLS (R194). -/
def rowBounds (s : State) (row : Word) : Out := boundsAt s (BitVec.ofNat 64 (row.toNat * 128) ||| 0x8000000000000000#64)

/-- CELLS of the issuing warp's team. -/
def curCells (s : State) : Nat := ((s.curTeam).map (·.kernel.cells)).getD 0

/-- The row a TSLD or TSST names. -/
def tileRowOf (s : State) (f : FmtA) : Word := readX s.cur f.a + (f.mod.setWidth 8).setWidth 64

/-- TSLD (R194). -/
def execTsld (f : FmtA) (s : State) : Out :=
  let row := tileRowOf s f
  match s.curTeam with
  | none => rowBounds s row
  | some t =>
    if t.kernel.cells ≤ row.toNat then rowBounds s row
    else match softHit s [.tile t.id (tileKey (curPly s) row.toNat)] with
      | some e => .next (softStop s e)
      | none =>
        let w := s.cur
        let r := tileRow t (curPly s) row.toNat
        answer s (retire (writeElems w f.d 128 32 (activeMask w f.pm f.pi) fun p => (laneOf r p).toNat))

/-- A row written where `act` selects; an error in a row wholly written is gone. -/
def tileStore (s : State) (team ply row : Nat) (act : Mask) (v : VReg) : State :=
  let s := s.onTeam team fun t => tileSet t ply row (groupReg (tileRow t ply row) 1 0 32 (fun p => act.getLsbD p) fun p => (laneOf v p).toNat)
  if act = BitVec.allOnes 128 then { s with softErrs := s.softErrs.filter (· != .tile team (tileKey ply row)) } else s

/-- TSST (R194). -/
def execTsst (f : FmtA) (s : State) : Out :=
  let row := tileRowOf s f
  if curCells s ≤ row.toNat then rowBounds s row
  else
    let w := s.cur
    let s := tileStore s w.team (curPly s) row.toNat (activeMask w f.pm f.pi) (readV w f.b)
    answer s (retire s.cur)

/-- TSZERO (R194). -/
def execTszero (f : FmtA) (s : State) : Out :=
  let rows := (List.range ((f.mod.setWidth 8 : BitVec 8).toNat + 1)).map fun k => readX s.cur f.a + BitVec.ofNat 64 k
  match rows.find? fun r => decide (curCells s ≤ r.toNat) with
  | some r => rowBounds s r
  | none =>
    let s := rows.foldl (fun s r => tileStore s s.cur.team (curPly s) r.toNat (BitVec.allOnes 128) 0) s
    answer s (retire s.cur)

end Sys2Proof.Machine
end

