-- ==== Sys2Proof/Machine/Deadlock.lean ====
section
/-! DEFINITION. The deadlock detector (10 R246, R247). -/

namespace Sys2Proof.Machine

/-- The live warps of a cluster's teams. -/
def clusterWarps (s : State) (cluster : Nat) : List Warp :=
  s.agents.filter fun w => !(isThread w.who) && w.status != .exited && ((s.findTeam w.team).map (·.cluster)) == some cluster

/-- The knots that warps of a cluster wait on so that condition 1 holds: KSPACE 0 or 1, no deadline, not roving. -/
def stillKnots (l : List Warp) : List KnotRef :=
  l.filterMap fun w => match w.status with
    | .knotWait k => if k.near ∧ k.deadline = 0 ∧ w.rove.isNone then some k.home else none
    | _ => none

/-- A command's wait is unsatisfied on a knot held still (R246 condition 3). -/
def waitStuck (s : State) (knots : List KnotRef) (c : Cmd) : Bool :=
  c.st == .waiting && !c.ready && (match cmdWait s c with
    | some r => knots.contains r
    | none => false)

/-- A record may stand at a head beside `c` in one BSHARED set (R192). -/
def sharesSet (c h : Cmd) : Bool := mxShared h.record && mxTag h.record == mxTag c.record && h.team == c.team

/-- A command is unable to start: its wait is unsatisfied on a knot held still, or its BSHARED set cannot start (R192, R246 condition
3): some engine its team holds has no record of the set to come, or stands at one that is itself unable to start. A chain of such
records longer than the commands there are closes on itself. -/
def stuckFor (s : State) (knots : List KnotRef) : Nat → Cmd → Bool
  | 0, _ => true
  | n + 1, c =>
    waitStuck s knots c ||
    (c.st == .waiting && (cmdPly c).isSome && mxShared c.record && (heldPlies s c.d c.core c.team).any fun p =>
      let q := (mxQueue s c.d c.core p).filter fun x => x.st == .waiting
      match q.head? with
      | none => true
      | some h => !(q.any (sharesSet c)) || (if sharesSet c h then waitStuck s knots h else stuckFor s knots n h))

/-- The same, for any number of commands. -/
def cmdStuck (s : State) (knots : List KnotRef) (c : Cmd) : Bool := stuckFor s knots (s.cmds.length + 1) c

/-- Condition 1 for a warp: it waits without a deadline on a knot of a team, or is held at a full queue no entry of which can
start. -/
def warpStuck (s : State) (knots : List KnotRef) (w : Warp) : Bool :=
  let full := fun p : Cmd → Bool => (queued s p).all (cmdStuck s knots)
  w.rove.isNone && (match w.status, w.who with
  | .knotWait k, _ => k.near && k.deadline == 0
  | .held .copies, .warp d c _ _ => full (isCopyOf d c)
  | .held (.matrix p), .warp d c _ _ => full (isMatrixOf d c p)
  | _, _ => false)

/-- Conditions 1 and 3 of R246 hold of a cluster now; condition 2 clears its count when an update is applied. -/
def clusterStuck (s : State) (cluster : Nat) : Bool :=
  let ws := clusterWarps s cluster
  let knots := stillKnots ws
  let teams := s.teams.filter (·.cluster == cluster)
  let live := teams.filter fun t => !t.killed && t.phase != .ended
  !ws.isEmpty && ws.all (warpStuck s knots) && live.all (fun t => !t.stopped && t.phase != .saved) &&
  s.cmds.all fun c => !(teams.any (·.id == c.team)) ||
    (match cmdSignal s c with
     | some r => !(knots.contains r) || cmdStuck s knots c
     | none => true)

/-- The clusters resident on a die. -/
def dieClusters (s : State) (d : Fin 2) : List Nat := distinct ((s.teams.filter (·.d == d)).map (·.cluster))

/-- `n` more clocks counted for the clusters that are stuck, and none for the others (R246). -/
def countStalls (s : State) (d : Fin 2) (n : Nat) : State :=
  let stuck := (dieClusters s d).filter (clusterStuck s)
  s.onDie d fun x => { x with stalls := stuck.foldl (fun t c => tblSet t c (tblGetD x.stalls c 0 + n)) [] }

/-- A warp frozen with DEADLOCK: the wait instruction and its knot's index (R247). A warp held at a queue freezes with its
sr.* as they stand. -/
def deadlockWarp (w : Warp) : Warp :=
  match w.status with
  | .knotWait k => { w with status := .frozen .violation, epc := w.pc, cause := causeWord true cDeadlock 0,
                            tval := BitVec.ofNat 64 k.idx }
  | _ => { w with status := .frozen .violation }

/-- The whole cluster frozen and the distaff told (R247, R365). -/
def freezeCluster (s : State) (cluster : Nat) : State :=
  let s := (s.teams.filter (·.cluster == cluster)).foldl (fun s t => drainWarps s t.d t.core fun o => o.team == t.id) s
  let mine := fun w : Warp => !(isThread w.who) && w.status != .exited && ((s.findTeam w.team).map (·.cluster)) == some cluster
  let s1 := s.mapAgents mine deadlockWarp
  let s1 := { s1 with teams := s1.teams.map fun t => if t.cluster == cluster then { t with stopped := true } else t }
  (clusterWarps s1 cluster).foldl (fun s w => freezeNotice s w 0 (causeWord true cDeadlock 0) w.tval) s1

/-- DEADLOCK_DETECT: the count has reached 65,536 clocks (R247). -/
def execDeadlockDetect (d : Fin 2) (cluster : Nat) (s : State) : Out :=
  .next (if 65536 ≤ tblGetD (s.die d).stalls cluster 0 ∧ clusterStuck s cluster = true then
      (freezeCluster s cluster).onDie d fun x => countUp { x with stalls := tblErase x.stalls cluster } 15 1
    else s)

end Sys2Proof.Machine
end

