-- ==== Sys2Proof/Machine/Tasks.lean ====
section
/-! DEFINITION. Kernel descriptors as memory holds them (04 R88), tasks (07 R165 to R167; 10 R243, R244, R436), SLEEPUNTIL
(07 R170), deadlines (07 R164) and the logical tick (09 R221). -/

namespace Sys2Proof.Machine

/-- A kernel descriptor from its 64 bytes (R88). -/
def parseKDesc (bs : List Byte) : KDesc :=
  let n := ofBytes bs
  { entry := bits n 63 0, scratch := bits n 159 128, stack := bits n 191 160, knots := bits n 207 192,
    cells := bits n 223 208, regs := bits n 231 224, warps := bits n 237 232, cw := bits n 242 240, ch := bits n 245 243,
    nargs := bits n 255 248, version := bits n 263 256, norove := bitAt n 264,
    reservedClear := bits n 239 238 == 0 && bits n 247 246 == 0 && bits n 511 265 == 0 }

/-- The issuing warp's address space and party for descriptor reads (R228). -/
def warpSpace (s : State) (w : Warp) : Space := ⟨agentDie w.who, w.ctx, ((warpCtx s w).map (·.ppn)).getD 0⟩

/-- A task descriptor's fields that R165 and R166 check. -/
def taskDescBad (n : Nat) : Bool :=
  bits n 511 384 != 0 || bits n 191 129 != 0 || bits n 127 96 != 0 || bitAt n 383 || bits n 319 256 % 8 != 0 ||
  bits n 63 0 % 64 != 0 || bits n 95 64 == 0 || decide (4096 < bits n 95 64)

/-- A kernel TLAUNCH refuses with reason 3 (R166, R436). -/
def taskKernelBad (k : KDesc) (r : CtxRec) (d : Fin 2) : Bool := k.version != 1 || !k.reservedClear || k.entry % 8 != 0 || stackNever k r d

/-- Slots charged to a core's reserve (R244). -/
def chargedSlots (c : Core) : Nat := c.charges.foldl (fun n p => n + p.2) 0

/-- Why a task of an acceptable descriptor is refused, tested in the order 1, 2, 4 (R166; log entry 22). -/
def taskRefusal (s : State) (d : Fin 2) (c : Fin 24) (part ctx : Nat) (k : KDesc) (r : CtxRec) : Option Nat :=
  let x := s.die d
  if partResv x part < chargedSlots (s.coreAt d c) + reserveSlots k ∨ k.cw * k.ch ≠ 1 ∨
      (k.stack ≠ 0 ∧ (regionsFree x d ctx r).length < k.warps) then some 1
  else if 1024 ≤ (x.tasks.filter fun t => t.outcome == none).length then some 2
  else if poolFree x = 0 then some 4
  else none

/-- The lowest free task slot. -/
def taskSlot (x : Die) : Nat :=
  ((List.range 1024).find? fun k => !(x.tasks.any fun t => t.slot == k && t.outcome == none)).getD 0

/-- A task entered in its launching node's class and context (R166, R244, R436): its node, its charge, its regions; the handle. -/
def enterTask (s : State) (d : Fin 2) (c : Fin 24) (team : Nat) (ln : Node) (k : KDesc) (r : CtxRec) (n args wclk : Nat) :
    State × Word :=
  let (id, s) := s.freshId
  let x := s.die d
  let slot := taskSlot x
  let regions := if k.stack = 0 then [] else (regionsFree x d ln.ctx r).take k.warps
  let node : Node :=
    { id, q := ln.q, origin := .task slot, join := false, cls := ln.cls,
      deadline := if bits n 255 192 = 0 then ln.deadline else bits n 255 192, args, fence := bits n 319 256,
      fval := bits n 383 320, ctx := ln.ctx, part := ln.part, preds := 0, succ := [],
      variants := [⟨k, bits n 95 64, 0, 0⟩], chosen := none, tile := none, pref := none, start := wclk, st := .ready,
      readyAt := stageNs s, passed := none, seq := ln.seq, placed := 0, ended := 0, killed := false, aborted := false, doneAt := none, near := if bitAt n 128 then some c else none,
      rsb := none, tts := 0, fragTeams := [], init := none }
  let t : Task := { slot, gen := x.taskGen, team, node := id, core := c, slots := reserveSlots k, regions, outcome := none, tts := 0 }
  let s := s.onDie d fun x => { x with
    nodes := x.nodes ++ [node], tasks := x.tasks ++ [t], taskGen := x.taskGen + 1,
    regions := x.regions ++ regions.map fun g => (ln.ctx, g),
    cores := x.cores.set c { x.cores[c] with charges := x.cores[c].charges ++ [(id, reserveSlots k)] } }
  (s, taskHandle t)

/-- TLAUNCH's answer: a refusal's reason or a handle. -/
def launchAnswer (s : State) (f : FmtS) (v : Word) : Out := answer s (retire (writeX s.cur f.d v))

/-- A descriptor read by the issuing warp through its L1, or its fault as a scalar load's (R150, R166); the warp freezes where a
sector of it is uncorrectable (R429; log entry 50). -/
def readDesc (s : State) (va : Word) (n : Nat) (k : State → List Byte → Out) : Out :=
  let lost := lostSectors s (askedAt s (warpSpace s s.cur) (curParty s false) va n)
  let (s, r) := readDwords s (warpSpace s s.cur) (curParty s false) va n
  match r, lost with
  | .error (a, reason), _ => .next (memFault s 0 [(0, a, reason)] false)
  | .ok _, sec :: _ => .next (uncorrected s 1 (32 * sec) (BitVec.ofNat 64 (32 * sec)))
  | .ok (bs, ts), [] => k { s with cur := { s.cur with rmax := max s.cur.rmax ts } } bs

/-- TLAUNCH after both descriptors are read: a release at die scope where the task is entered; a refusal is none (R166, R216). -/
def launchTask (f : FmtS) (n : Nat) (k : KDesc) (s : State) : Out :=
  let w := s.cur
  match w.who, s.findTeam w.team with
  | .warp d c _ _, some t =>
    match (s.die t.home).findNode t.node with
    | none => launchAnswer s f 1
    | some ln =>
      if taskKernelBad k t.ctxRec d then launchAnswer s f 3
      else match taskRefusal s d c ln.part ln.ctx k t.ctxRec with
        | some reason => launchAnswer s f (BitVec.ofNat 64 reason)
        | none =>
          let s := releaseAt s 3
          let (s, h) := enterTask s d c t.id ln k t.ctxRec n (readX w f.b).toNat s.cur.wclk
          launchAnswer s f h
  | _, _ => launchAnswer s f 1

/-- TLAUNCH (R165, R166). -/
def execTlaunch (f : FmtS) (s : State) : Out :=
  let a := readX s.cur f.a
  if a.toNat % 64 ≠ 0 then launchAnswer s f 3
  else readDesc s a 8 fun s bs =>
    let n := ofBytes bs
    if taskDescBad n then launchAnswer s f 3
    else readDesc s (BitVec.ofNat 64 (bits n 63 0)) 8 fun s kb => launchTask f n (parseKDesc kb) s

/-- The task of a handle, when the issuing warp's team launched it (R167). -/
def taskOf (s : State) (h : Word) : Option Task :=
  let mine := fun d : Fin 2 => (s.die d).tasks.find? fun t => t.team == s.cur.team && taskHandle t == h
  (mine (agentDie s.cur.who)).orElse fun _ => mine (otherDie (agentDie s.cur.who))

/-- TFENCE (R167). -/
def execTfence (f : FmtS) (s : State) : Out :=
  let w := s.cur
  let h := readX w f.a
  let dl := readX w f.b
  match taskOf s h with
  | none => answer s (retire (writeX w f.d 3))
  | some t =>
    match t.outcome with
    | some ok => answer s (retire (writeX { w with wclk := max w.wclk t.tts } f.d (if ok then 0 else 2)))
    | none =>
      if deadlineReached s dl then .next (expireWait s f.d dl)
      else answer s { w with status := .taskWait f.d h dl }

/-- The end of a sleep (R170). -/
def endSleep (s : State) (dst : BitVec 6) (dl : Word) : State :=
  match promisesAt s.cur dl with
  | [] => { s with cur := retire (writeX s.cur dst (BitVec.ofNat 64 (stageNs s - dl.toNat))) }
  | p :: _ => raiseTrap { s with cur := { s.cur with status := .running } } cMissed p dl

/-- SLEEPUNTIL (R170). -/
def execSleepuntil (f : FmtS) (s : State) : Out :=
  let dl := readX s.cur f.a
  if dl.toNat ≤ stageNs s then .next (endSleep s f.d dl)
  else answer s { s.cur with status := .sleepUntil f.d dl }

/-- The issuing agent's wait or sleep has reached its deadline. -/
def waitDue (s : State) (w : Warp) : Bool :=
  match w.status with
  | .knotWait k => deadlineReached s k.deadline
  | .taskWait _ _ dl => deadlineReached s dl
  | .sleepUntil _ dl => decide (dl.toNat ≤ stageNs s)
  | _ => false

/-- Its end (R164, R167, R170). -/
def expireCur (s : State) : State :=
  match s.cur.status with
  | .knotWait k => expireWait s k.dst k.deadline
  | .taskWait dst _ dl => expireWait s dst dl
  | .sleepUntil dst dl => endSleep s dst dl
  | _ => s

/-- DEADLINE_REACHED. -/
def execDeadlineReached (who : Agent) (s : State) : Out :=
  .next (s.withAgent who fun s => if waitDue s s.cur then expireCur s else s)

/-- The next tick of a die is due: one for every 1,024 clocks (R221). -/
def tickDue (x : Die) : Bool := decide (x.tc < x.clock / 1024)

/-- `n` ticks, one after another (R221); a roving warp's wclk does not change (R224). -/
def tickTimes (n : Nat) (s : State) (d : Fin 2) : State :=
  let s := s.onDie d fun x => { x with tc := x.tc + n }
  s.mapAgents (fun w => !(isThread w.who) && agentDie w.who == d && w.status != .exited && w.rove.isNone) fun w =>
    { w with wclk := max (w.wclk + n) (s.die d).tc }

/-- A tick (R221). -/
def tickDie (s : State) (d : Fin 2) : State := tickTimes 1 s d

/-- The ticks that a die's clock has reached (R221). -/
def tickUp (s : State) (d : Fin 2) : State :=
  if tickDue (s.die d) then tickTimes ((s.die d).clock / 1024 - (s.die d).tc) s d else s

/-- LOGICAL_TICK. -/
def execLogicalTick (d : Fin 2) (s : State) : Out := .next (if tickDue (s.die d) then tickDie s d else s)

end Sys2Proof.Machine
end

