-- ==== Sys2Proof/Machine/Sfu.lean ====
section
/-! DEFINITION. Special functions (02 R55, R56). VFDIV and VSQRT are correctly rounded. Each other function returns one of
the results within its bound, picked by the opaque `Config.sfuPick`. A reciprocal and a value a number can hold are judged exactly; a transcendental
value is bracketed by fixed-point arithmetic of 512 fraction bits, which lies closer to it than any number of a format
lies to the end of the bound (log entry 9). -/

namespace Sys2Proof.Machine

/-- Fraction bits of the fixed-point arithmetic. -/
def fxBits : Nat := 512
/-- pi and the natural logarithm of 2, times 2^512. -/
def fxPi : Nat :=
  0x3243F6A8885A308D313198A2E03707344A4093822299F31D0082EFA98EC4E6C89452821E638D01377BE5466CF34E90C6CC0AC29B7C97C50DD3F84D5B5B5470917
def fxLn2 : Nat :=
  0xB17217F7D1CF79ABC9E3B39803F2F6AF40F343267298B62D8A0D175B8BAAFA2BE7B876206DEBAC98559552FB4AFA1B10ED2EAE35C138214427573B291169B825
/-- Product of two fixed-point numbers. -/
def fxMul (a b : Nat) : Nat := (a * b) >>> fxBits
/-- A non-negative dyadic as fixed point. -/
def fxOf (m : Nat) (e : Int) : Nat :=
  let s := e + fxBits
  if 0 ≤ s then m <<< s.toNat else m >>> (-s).toNat

/-- Taylor sum of exp: term `t` is x^k / k!. -/
def fxExpLoop (x : Nat) : Nat → Nat → Nat → Nat → Nat
  | 0, _, _, acc => acc
  | n + 1, k, t, acc => fxExpLoop x n (k + 1) (fxMul t x / k) (acc + t)
/-- exp of a fixed-point number in [0, 1]. -/
def fxExp (x : Nat) : Nat := fxExpLoop x 120 1 (1 <<< fxBits) 0

/-- Alternating Taylor sum whose terms advance by x^2 / (k (k+1)): sine from k = 2, cosine from k = 1. -/
def fxAltLoop (x2 : Nat) : Nat → Nat → Nat → Int → Int → Int
  | 0, _, _, _, acc => acc
  | n + 1, k, t, sg, acc => fxAltLoop x2 n (k + 2) (fxMul t x2 / (k * (k + 1))) (-sg) (acc + sg * t)
/-- sin and cos of a fixed-point number in [0, 2]. -/
def fxSin (x : Nat) : Nat := (fxAltLoop (fxMul x x) 64 2 x 1 0).toNat
def fxCos (x : Nat) : Nat := (fxAltLoop (fxMul x x) 64 1 (1 <<< fxBits) 1 0).toNat

/-- Sum of z^(2k+1) / (2k+1). -/
def fxArtanhLoop (z2 : Nat) : Nat → Nat → Nat → Nat → Nat
  | 0, _, _, acc => acc
  | n + 1, k, t, acc => fxArtanhLoop z2 n (k + 2) (fxMul t z2) (acc + t / k)
/-- Natural logarithm of a fixed-point number in [1, 2). -/
def fxLn (x : Nat) : Nat :=
  let one := 1 <<< fxBits
  let z := ((x - one) <<< fxBits) / (x + one)
  2 * fxArtanhLoop (fxMul z z) 180 1 z 0

/-- 2^f for a fixed-point f in [0, 1). -/
def fxExp2 (f : Nat) : Nat := fxExp (fxMul f fxLn2)

/-- Magnitudes that `near` accepts among those next to `m * 2^e`, as bit patterns below infinity (R55). -/
def sfuNear (f : FpFmt) (m : Nat) (e : Int) (near : Nat → Int → Bool) : List Nat :=
  let q := placeOf f m e
  let base := magBits f (roundTo .rtz false m e q) q
  ((List.range 9).map (fun i => base + i - 4)).eraseDups.filter fun p =>
    decide (p ≤ f.maxBits) && (match decodeFp f p with | .fin _ mp ep => near mp ep | _ => false)

/-- Within `b` ulp of a value that `m * 2^e` gives to `err` of its last places (R55). -/
def sfuWithin (f : FpFmt) (b m : Nat) (e : Int) (err mp : Nat) (ep : Int) : Bool :=
  let q := placeOf f m e
  let k := min (min e q) f.qmin
  let d := atScale false mp ep k - atScale false m e k
  let tol := atScale false b q k - atScale false err e k
  decide (d ≤ tol) && decide (-tol ≤ d)

/-- `n * 2^t` against 1: not above it, not below it. -/
def atMostOne (n : Nat) (t : Int) : Bool := decide (atScale false n t (min t 0) ≤ atScale false 1 0 (min t 0))
def atLeastOne (n : Nat) (t : Int) : Bool := decide (atScale false 1 0 (min t 0) ≤ atScale false n t (min t 0))

/-- Within 1 ulp of `1 / (m * 2^e)`, the ulp `2^q`: the quotient is multiplied out, so nothing is rounded. -/
def rcpWithin (m : Nat) (e q : Int) (mp : Nat) (ep : Int) : Bool :=
  let k := min ep q
  let c := (atScale false mp ep k).toNat
  let u := (atScale false 1 q k).toNat
  atMostOne ((c - u) * m) (k + e) && atLeastOne ((c + u) * m) (k + e)

/-- Within 1 ulp of `1 / sqrt (m * 2^e)`, the ulp `2^q`, both sides squared. -/
def rsqWithin (m : Nat) (e q : Int) (mp : Nat) (ep : Int) : Bool :=
  let k := min ep q
  let c := (atScale false mp ep k).toNat
  let u := (atScale false 1 q k).toNat
  atMostOne ((c - u) * (c - u) * m) (2 * k + e) && atLeastOne ((c + u) * (c + u) * m) (2 * k + e)

/-- The device's choice among the candidate magnitudes. -/
def sfuChoose (f : FpFmt) (fn x : Nat) (neg : Bool) (cs : List Nat) (limit : Nat) : Nat :=
  let cs := cs.filter (· ≤ limit)
  let i := Config.sfuPick (fn + (if f.eb = 5 then 16 else 0)) (BitVec.ofNat 32 x) % cs.length
  f.signed neg (cs.getD i (if limit < f.infBits then limit else f.infBits))

/-- Error of the fixed-point arithmetic, in its last places. -/
def fxErr : Nat := 2 ^ 22

/-- The device's result for a magnitude within `b` ulp. -/
def sfuResult (f : FpFmt) (fn b x : Nat) (neg : Bool) (m : Nat) (e : Int) (err limit : Nat) : Nat :=
  sfuChoose f fn x neg (sfuNear f m e (sfuWithin f b m e err)) limit

/-- VRCP (R56): a magnitude of 2^(bias + 1) or more is beyond range. -/
def sfuRcp (f : FpFmt) (x : Nat) : Nat :=
  match Fv.div (.fin false 1 0) (decodeFp f x), decodeFp f x with
  | .fin neg m e, .fin _ mx ex =>
    if m = 0 then f.signed neg 0
    else if (f.bias : Int) < Nat.log2 m + e then f.signed neg f.infBits
    else sfuChoose f 0 x neg (sfuNear f m e (rcpWithin mx ex (placeOf f m e))) f.infBits
  | v, _ => encodeFp f .rne v

/-- VRSQ (R56): +0 gives +inf, -0 gives -inf. -/
def sfuRsq (f : FpFmt) (x : Nat) : Nat :=
  match Fv.div (.fin false 1 0) (decodeFp f x).sqrt, decodeFp f x with
  | .fin neg m e, .fin _ mx ex =>
    if m = 0 then f.signed neg 0
    else sfuChoose f 1 x neg (sfuNear f m e (rsqWithin mx ex (placeOf f m e))) f.infBits
  | v, _ => encodeFp f .rne v

/-- VEXP2 (R56): an integer whose power of two a number holds is in range, any other is chosen within the bound (log entry 9). -/
def sfuExp2 (f : FpFmt) (x : Nat) : Nat :=
  match decodeFp f x with
  | .nan => f.nanBits
  | .inf neg => if neg then 0 else f.infBits
  | .fin neg m e =>
    let v := atScale neg m e (min e 0)
    let d : Int := (2 ^ (-(min e 0)).toNat : Nat)
    let n := Int.fdiv v d
    let r := (v - n * d).toNat
    if (f.bias + 1 : Int) ≤ n then f.infBits
    else if n < f.qmin - 4 then sfuResult f 4 2 x false 1 (f.qmin - 4) 0 f.infBits
    else if r = 0 then
      if n < f.qmin then sfuResult f 4 2 x false 1 n 0 f.infBits else encodeFp f .rne (.fin false 1 n)
    else sfuResult f 4 2 x false (fxExp2 (fxOf r (min e 0))) (n - fxBits) fxErr f.infBits

/-- VLOG2 (R56): an exact power of two gives its exponent exactly. -/
def sfuLog2 (f : FpFmt) (x : Nat) : Nat :=
  match decodeFp f x with
  | .nan => f.nanBits
  | .inf neg => if neg then f.nanBits else f.infBits
  | .fin neg m e =>
    if m = 0 then f.signed true f.infBits
    else if neg then f.nanBits
    else
      let k := Nat.log2 m
      let n : Int := k + e
      if m = 2 ^ k then encodeFp f .rne (.fin (decide (n < 0)) n.natAbs 0)
      else
        let ln := fxLn (m <<< (fxBits - k))
        let frac := (ln <<< fxBits) / fxLn2
        let t : Int := n * (2 ^ fxBits : Nat) + frac
        sfuResult f 5 2 x (decide (t < 0)) t.natAbs (-(fxBits : Int)) fxErr f.infBits

/-- `|x|` modulo 2 as fixed point, for a dyadic. -/
def fxMod2 (m : Nat) (e : Int) : Nat :=
  if 1 ≤ e then 0 else fxOf (m % 2 ^ (1 - e).toNat) e

/-- VSINPI (R56): an integer gives zero with its sign. -/
def sfuSinPi (f : FpFmt) (x : Nat) : Nat :=
  match decodeFp f x with
  | .fin neg m e =>
    let r := fxMod2 m e
    let one := 1 <<< fxBits
    if r % one = 0 then f.signed neg 0
    else
      let s := r % one
      let s := if s ≤ one / 2 then s else one - s
      if s = one / 2 then sfuResult f 6 2 x (neg != decide (one < r)) 1 0 0 f.infBits
      else sfuResult f 6 2 x (neg != decide (one < r)) (fxSin (fxMul s fxPi)) (-(fxBits : Int)) fxErr f.infBits
  | _ => f.nanBits

/-- VCOSPI (R56): an integer gives 1 or -1, an odd multiple of one half gives +0. -/
def sfuCosPi (f : FpFmt) (x : Nat) : Nat :=
  match decodeFp f x with
  | .fin _ m e =>
    let r := fxMod2 m e
    let one := 1 <<< fxBits
    if r = 0 then f.bias <<< f.mb
    else if r = one then f.signed true (f.bias <<< f.mb)
    else if r % one = one / 2 then 0
    else
      let s := if r ≤ one then r else 2 * one - r
      let neg := decide (one / 2 < s)
      let h := if neg then s - one / 2 else one / 2 - s
      sfuResult f 7 2 x neg (fxSin (fxMul h fxPi)) (-(fxBits : Int)) fxErr f.infBits
  | _ => f.nanBits

/-- VTANH (R56): the magnitude never exceeds 1. -/
def sfuTanh (f : FpFmt) (x : Nat) : Nat :=
  let one := 1 <<< fxBits
  match decodeFp f x with
  | .nan => f.nanBits
  | .inf neg => f.signed neg (f.bias <<< f.mb)
  | .fin neg m e =>
    if m = 0 then f.signed neg 0
    else
      let a := fxOf m e
      let t :=
        if 64 * one ≤ a then one - (one >>> 90)
        else
          let y := (2 * a <<< fxBits) / fxLn2
          let g := fxExp2 (y % one)
          let n := y / one
          let ex := g <<< n
          ((ex - one) <<< fxBits) / (ex + one)
      sfuResult f 8 2 x neg t (-(fxBits : Int)) fxErr (f.bias <<< f.mb)

end Sys2Proof.Machine
end

