-- ==== Sys2Proof/Machine/F32.lean ====
section
/-! DEFINITION. f32 operations with RNE as the texture, ray and raster rules write them (02 R45; 08 R199; 13 R285 to R307). -/

namespace Sys2Proof.Machine

/-- f32 operations on bit patterns, RNE (R45). -/
def f32add (a b : Nat) : Nat := fpAdd fmtF32 .rne a b
def f32sub (a b : Nat) : Nat := fpSub fmtF32 .rne a b
def f32mul (a b : Nat) : Nat := fpMul fmtF32 .rne a b
def f32div (a b : Nat) : Nat := fpDiv fmtF32 .rne a b
def f32sqrt (a : Nat) : Nat := fpSqrt fmtF32 .rne a
def f32min (a b : Nat) : Nat := fpMin fmtF32 a b
def f32max (a b : Nat) : Nat := fpMax fmtF32 a b
/-- The f32 nearest `m x 2^e`. -/
def f32lit (m : Nat) (e : Int) : Nat := encodeFp fmtF32 .rne (.fin false m e)
/-- The value of an f32. -/
def f32val (a : Nat) : Fv := decodeFp fmtF32 a
/-- f32 constants. -/
def f32one : Nat := 0x3F800000
def f32half : Nat := 0x3F000000
/-- Ordered comparisons: false when an operand is NaN. -/
def f32lt (a b : Nat) : Bool :=
  !(f32val a).isNan && !(f32val b).isNan && decide (Fv.cmp (f32val a) (f32val b) < 0)
def f32le (a b : Nat) : Bool :=
  !(f32val a).isNan && !(f32val b).isNan && decide (Fv.cmp (f32val a) (f32val b) ≤ 0)
/-- The operand is NaN. -/
def f32nan (a : Nat) : Bool := (f32val a).isNan
/-- Sign bit flipped. -/
def f32neg (a : Nat) : Nat := a ^^^ 0x80000000
/-- An f16 widened exactly. -/
def f16wide (a : Nat) : Nat := encodeFp fmtF32 .rne (decodeFp fmtF16 a)
/-- An f32 rounded to f16 with RNE (R199). -/
def f32half16 (a : Nat) : Nat := encodeFp fmtF16 .rne (f32val a)
/-- floor of a finite value as an integer and its fraction in 1/256, truncated; 0 and 0 for NaN or infinity (R199). -/
def floorFrac8 (v : Fv) : Int × Nat :=
  match v with
  | .fin neg m e =>
    let k := min e (-8)
    let x := atScale neg m e k
    let one : Int := ((2 ^ (-k).toNat : Nat) : Int)
    (x / one, ((x % one) * 256 / one).toNat)
  | _ => (0, 0)

end Sys2Proof.Machine
end

