-- ==== Sys2Proof/Machine/Texture.lean ====
section
/-! DEFINITION. Texture and sampler descriptors, texel formats (08 R196, R197), and the carder (12 R271 to R278). -/

namespace Sys2Proof.Machine

/-! ### Descriptors -/

/-- Texel bytes of a format: 0 for TABAUX, none where the code is reserved (R196). -/
def texelBytes (fmt : Nat) : Option Nat :=
  match fmt with
  | 0 => some 1
  | 1 => some 2
  | 2 => some 4
  | 3 => some 4
  | 4 => some 2
  | 5 => some 4
  | 6 => some 8
  | 7 => some 4
  | 8 => some 4
  | 0x10 => some 0
  | _ => none

/-- The fields of a texture descriptor, its 256 bits as a number (R196). -/
def parseTex (n : Nat) : TexDesc :=
  { base := bits n 63 0, width := bits n 79 64, height := bits n 95 80, fmt := bits n 103 96, levels := bits n 107 104,
    pitch := bits n 159 128, slot := bits n 171 160 }

/-- A bad texture descriptor (R200). -/
def texBad (n : Nat) : Bool :=
  let t := parseTex n
  bits n 255 172 != 0 || bits n 127 108 != 0 ||
  !(decide (1 ≤ t.width) && decide (t.width ≤ 16384)) || !(decide (1 ≤ t.height) && decide (t.height ≤ 16384)) ||
  t.levels == 0 || t.base % 4096 != 0 ||
  (match texelBytes t.fmt with
   | none => true
   | some b => if t.fmt = 0x10 then t.pitch != 0
               else t.slot != 0 || t.pitch % 64 != 0 || decide (t.pitch < t.width * b))

/-- A sampler descriptor (R197). -/
structure SampDesc where
  filter : Nat
  aniso : Nat
  wrapX : Nat
  wrapY : Nat
  bias : Nat
  border : List Nat
  deriving DecidableEq, Repr

/-- The fields of a sampler descriptor (R197). -/
def parseSamp (n : Nat) : SampDesc :=
  { filter := bits n 1 0, aniso := bits n 7 4, wrapX := bits n 9 8, wrapY := bits n 11 10, bias := bits n 47 32,
    border := [bits n 79 64, bits n 95 80, bits n 111 96, bits n 127 112] }

/-- A reserved bit of a sampler descriptor is set (DEDUCED, log entry 24). -/
def sampBad (n : Nat) : Bool := bits n 63 48 != 0 || bits n 31 12 != 0 || bits n 3 2 != 0

/-- Width and height of a level (R196). -/
def levelW (t : TexDesc) (l : Nat) : Nat := max 1 (t.width >>> l)
def levelH (t : TexDesc) (l : Nat) : Nat := max 1 (t.height >>> l)
/-- Row pitch of a level (R196). -/
def levelPitch (t : TexDesc) (l : Nat) : Nat :=
  if l = 0 then t.pitch else roundUp (levelW t l * (texelBytes t.fmt).getD 0) 64
/-- Latent blocks in a row and a column of a level (R273). -/
def blocksX (t : TexDesc) (l : Nat) : Nat := (levelW t l + 63) / 64
def blocksY (t : TexDesc) (l : Nat) : Nat := (levelH t l + 63) / 64
/-- Bytes of a level (R196, R273). -/
def levelSize (t : TexDesc) (l : Nat) : Nat :=
  if t.fmt = 0x10 then 1408 * blocksX t l * blocksY t l else levelPitch t l * levelH t l
/-- Address of a level (R196, R273). -/
def levelBase (t : TexDesc) : Nat → Nat
  | 0 => t.base
  | l + 1 => roundUp (levelBase t l + levelSize t l) 4096

/-! ### Texel formats (R196) -/

/-- `n/d` rounded to f16. -/
def unorm16 (n d : Nat) : Nat := encodeFp fmtF16 .rne (Fv.div (.fin false n 0) (.fin false d 0))

/-- The linear value of an sRGB code above the toe is `b^2.4` with `b = (1000 n + 14025) / 269025` (IEC 61966-2-1): `m x 2^e`
does not exceed it, told by fifth and twelfth powers. -/
def srgbAtLeast (n m : Nat) (e : Int) : Bool :=
  let num := (1000 * n + 14025) ^ 12
  let den := 269025 ^ 12
  if 0 ≤ e then decide (m ^ 5 * 2 ^ (5 * e.toNat) * den ≤ num) else decide (m ^ 5 * den ≤ num * 2 ^ (5 * (-e).toNat))

/-- Magnitude and exponent of a positive finite number. -/
def finParts (f : FpFmt) (h : Nat) : Nat × Int :=
  match decodeFp f h with
  | .fin _ m e => (m, e)
  | _ => (0, 0)

/-- The largest number of a format, built from bit `k - 1` down, that does not exceed the value; 1.0 bounds it. -/
def srgbFloor (f : FpFmt) (n : Nat) : Nat → Nat → Nat
  | 0, h => h
  | k + 1, h =>
    let c := h + 2 ^ k
    let (m, e) := finParts f c
    srgbFloor f n k (if c ≤ encodeFp f .rne (.fin false 1 0) && srgbAtLeast n m e then c else h)

/-- An sRGB code decoded and rounded to a format (R196, R298): no code lies half way between two of its values. -/
def srgbDecode (f : FpFmt) (n : Nat) : Nat :=
  if n ≤ 10 then encodeFp f .rne (Fv.div (.fin false (25 * n) 0) (.fin false (255 * 323) 0))
  else
    let h := srgbFloor f n (f.width - 2) 0
    let (m, e) := finParts f h
    if srgbAtLeast n (2 * m + 1) (e - 1) then h + 1 else h
def srgb16 (n : Nat) : Nat := srgbDecode fmtF16 n

/-- Channels c0 to c3 of a texel's bytes as f16 (R196). -/
def texelChannels (fmt v : Nat) : List Nat :=
  let byte := fun k => bits v (8 * k + 7) (8 * k)
  let half := fun k => bits v (16 * k + 15) (16 * k)
  let one := 0x3C00
  match fmt with
  | 0 => [unorm16 (byte 0) 255, 0, 0, one]
  | 1 => [unorm16 (byte 0) 255, unorm16 (byte 1) 255, 0, one]
  | 2 => [unorm16 (byte 0) 255, unorm16 (byte 1) 255, unorm16 (byte 2) 255, unorm16 (byte 3) 255]
  | 3 => [srgb16 (byte 0), srgb16 (byte 1), srgb16 (byte 2), unorm16 (byte 3) 255]
  | 4 => [half 0, 0, 0, one]
  | 5 => [half 0, half 1, 0, one]
  | 6 => [half 0, half 1, half 2, half 3]
  | 7 =>
    let c := match toFp fmtF16 .rne (policyOf 0) (f32val (v % 2 ^ 32)) with
      | .ok b => b
      | .fault _ => 0
    [c, 0, 0, one]
  | _ => [unorm16 (bits v 9 0) 1023, unorm16 (bits v 19 10) 1023, unorm16 (bits v 29 20) 1023, unorm16 (bits v 31 30) 3]

/-! ### The carder (R271 to R278) -/

/-- A little-endian half word of a table or block held as a number. -/
def half16 (n at_ : Nat) : Nat := bits n (8 * at_ + 15) (8 * at_)

/-- CB[c][code] of latent channel `c` at vertex `(a, b)`, widened (R271, R274, R275). -/
def latentAt (tab blk c a b : Nat) : Nat :=
  let at_ := if c < 8 then 64 + 4 * (17 * b + a) else 1220 + 4 * (5 * b + a)
  let code := bits blk (8 * at_ + 4 * (c % 8) + 3) (8 * at_ + 4 * (c % 8))
  half16 tab (64 + 32 * c + 2 * code) * 65536

/-- Latent feature `c` of a texel (R274). -/
def latentFeature (tab blk c lx ly : Nat) : Nat :=
  let fine := c < 8
  let i := if fine then lx / 4 else lx / 16
  let j := if fine then ly / 4 else ly / 16
  let den := if fine then 8 else 32
  let lg : Int := if fine then -3 else -5
  let px := if fine then 2 * (lx % 4) + 1 else 2 * (lx % 16) + 1
  let py := if fine then 2 * (ly % 4) + 1 else 2 * (ly % 16) + 1
  let wx := f32lit px lg
  let ox := f32lit (den - px) lg
  let wy := f32lit py lg
  let oy := f32lit (den - py) lg
  let q := latentAt tab blk c
  let top := f32add (f32mul (q i j) ox) (f32mul (q (i + 1) j) wx)
  let bot := f32add (f32mul (q i (j + 1)) ox) (f32mul (q (i + 1) (j + 1)) wx)
  f32add (f32mul top oy) (f32mul bot wy)

/-- Position elements of a coordinate (R277). -/
def positionElems (l : Nat) : List Nat := (List.range 4).map fun k => f32lit ((2 * l + 1) * 2 ^ k % 128) (-7)

/-- One level of the pairwise tree (R278): sums rounded once, an odd last node carried up. -/
def treeLevel : List Fv → List Fv
  | a :: b :: rest => f32val (encodeFp fmtF32 .rne (Fv.add .rne a b)) :: treeLevel rest
  | l => l

/-- The pairwise tree; 5 levels reduce up to 32 leaves (R278). -/
def treeSum : Nat → List Fv → Fv
  | 0, l => l.headD (.fin false 0 0)
  | n + 1, l => treeSum n (treeLevel l)

/-- The activation of R278 and its f16 under policy 0x41. -/
def activate (hidden : Bool) (y : Nat) : Nat :=
  let y := if f32lt 0 y then (if hidden then y else f32min y f32one) else 0
  match toFp fmtF16 .rne (policyOf 0x41) (f32val y) with
  | .ok b => b
  | .fault _ => 0

/-- A layer (R278): weights at `wo` with rows of `stride` bytes, biases at `bo`, scale at `so`. -/
def carderLayer (tab : Nat) (inp : List Fv) (outs wo stride bo so : Nat) (hidden : Bool) : List Nat :=
  (List.range outs).map fun o =>
    let p := (inp.zipIdx).map fun x => Fv.mul (decodeFp fmtE4m3 (bits tab (8 * (wo + stride * o + x.2) + 7) (8 * (wo + stride * o + x.2)))) x.1
    let sum := encodeFp fmtF32 .rne (treeSum 5 p)
    activate hidden (f32add (f32mul sum (f16wide (half16 tab so))) (f16wide (half16 tab (bo + 2 * o))))

/-- A texel decoded: channels c0 to c3 (R277, R278). Table and block are little-endian numbers. -/
def carder (tab blk lx ly : Nat) : List Nat :=
  let inp := ((List.range 16).map fun c => latentFeature tab blk c lx ly) ++ positionElems lx ++ positionElems ly
  let h1 := carderLayer tab (inp.map f32val) 32 576 24 2496 2632 true
  let h2 := carderLayer tab (h1.map fun h => decodeFp fmtF16 h) 32 1344 32 2560 2634 true
  carderLayer tab (h2.map fun h => decodeFp fmtF16 h) 4 2368 32 2624 2636 false

end Sys2Proof.Machine
end

