-- ==== Sys2Proof/Machine/Sampler.lean ====
section
/-! DEFINITION. SAMPLE, SGATH, TLD, TQRY, WTINV and WTPF, and the sampler's caches (08 R198 to R202; 09 R228; 12 R276, R279 to
R283). -/

namespace Sys2Proof.Machine

/-! ### Fetches -/

/-- What a sampler instruction fetches for: its agent's party, space and decoder table; `quiet` for WTPF and roving, which use
PMA pages only and raise nothing (R36, R202); `weak` for roving, whose lines leave an L1 first (R262). -/
structure Fetch where
  sp : Space
  core : Fin 24
  party : Party
  decTab : Nat
  quiet : Bool
  weak : Bool
  deriving DecidableEq, Repr

/-- What an instruction's reads have come to: whether every line was there at once, the sectors read, the fills they make, whether
one missed the system cache, the largest wts of what they returned (R221), what they will leave in the sampler's caches, the tables
and texels they made of lines that no cache keeps, with the number of those lines (R377), and the lines asked for. -/
structure SampGot where
  now : Bool
  sectors : List Nat
  fills : List Fill
  missed : Bool
  ts : Nat
  fresh : SampFill
  once : SampFill
  uncached : Nat
  asked : Nat
  deriving DecidableEq, Repr

/-- What the lane at work has met: the state, faults by address with their reasons, the first failing header as SUB and address,
whether a quiet fetch gave up, and what its instruction has read. -/
structure LaneWork where
  s : State
  faults : List (Word × Nat)
  bad : Option (Nat × Word)
  gaveUp : Bool
  got : SampGot

/-- The work goes on: nothing has stopped the lane's decode. -/
def LaneWork.live (a : LaneWork) : Bool := a.bad.isNone && !a.gaveUp

/-- Values read with a timestamp (R221). -/
def LaneWork.saw (a : LaneWork) (ts : Nat) : LaneWork := { a with got := { a.got with ts := max a.got.ts ts } }

/-- A sector of a line as an L1 answers it: what it asked for, else the copy it holds. -/
def sectorCopy (s : State) (d : Fin 2) (c : Fin 24) (fills : List Fill) (sec : Nat) : L1Sector :=
  match fills.find? fun f => f.sec == sec with
  | some f => f.copy
  | none => (tblGet (s.coreAt d c).l1 sec).getD ⟨0, 0, 0⟩

/-- A line of a PMA page read for the sampler through L1 (R202), to stay in the sampler's line cache. -/
def sampLease (f : Fetch) (slot : Option Nat) (a : LaneWork) (va : Word) (ph : Phys) : LaneWork × BitVec 1024 :=
  let line := ph.pa / 128
  let r := askLine a.s f.party f.core line
  let copy := fun k : Nat => sectorCopy r.s f.sp.d f.core r.fills (4 * line + k)
  let data := (List.range 4).foldl (fun (b : BitVec 1024) k => b ||| ((copy k).data.setWidth 1024 <<< (256 * k))) 0
  let ts := (List.range 4).foldl (fun m k => max m (copy k).wts) 0
  let s := l1Read (sendFills r.s f.sp.d f.core f.party.ranges (fun _ => some va) r.fills) f.sp.d f.core (lineSectors line)
  let e : CachedLine := { ctx := f.sp.ctx, slot, line, data, ts }
  let g := (a.saw ts).got
  ({ a with s, got := { g with now := g.now && r.fills.isEmpty, sectors := g.sectors ++ r.fills.map (·.sec), fills := g.fills ++ r.fills,
                               missed := g.missed || r.missed, fresh := { g.fresh with lines := e :: g.fresh.lines },
                               asked := g.asked + (if r.fills.isEmpty then 0 else 1) } }, data)

/-- A line read for the sampler: through L1 on a PMA page, at its memory controller on another, which no cache keeps (R230, R377),
free values outside the pool (R202; log entry 11). -/
def sampFetch (f : Fetch) (slot : Option Nat) (a : LaneWork) (va : Word) (ph : Phys) : LaneWork × BitVec 1024 :=
  if !(inPool ph.pa) then
    let (s, bs) := windowBytes a.s ph.pa 128
    ({ a with s, got := { a.got with now := false, uncached := a.got.uncached + 1 } }, BitVec.ofNat 1024 (ofBytes bs))
  else if ph.kind = .pma then sampLease f slot a va ph
  else
    let s := a.s.onDie (lineHome (ph.pa / 128)) fun x => dramUp x 5 128
    let a := a.saw (wtsAt s f.sp.d ph.pa 128)
    ({ a with s, got := { a.got with now := false, sectors := a.got.sectors ++ lineSectors (ph.pa / 128),
                                     uncached := a.got.uncached + 1 } }, lineBytes s.mem (ph.pa / 128))

/-- A line the sampler holds for a slot, or has read for this instruction; whether the cache has evicted it since is open (R228; log
entry 12). -/
def heldLine (f : Fetch) (a : LaneWork) (slot : Option Nat) (line : Nat) : State × Option CachedLine :=
  match ((a.s.coreAt f.sp.d f.core).lines ++ a.got.fresh.lines).find? fun l => l.ctx == f.sp.ctx && l.slot == slot && l.line == line with
  | none => (a.s, none)
  | some l => let (k, s) := a.s.choose 2; (s, if k = 0 then some l else none)

/-- The 128 bytes of the line at an address that is a multiple of 128, for a slot or for an ordinary texture (R200, R280). -/
def sampLine (f : Fetch) (slot : Option Nat) (a : LaneWork) (va : Nat) : LaneWork × BitVec 1024 :=
  let v := BitVec.ofNat 64 va
  match translateOn a.s f.sp.d f.core f.sp.ctx f.sp.ppn v .read with
  | (s, .error r) => ({ a with s, faults := a.faults ++ [(v, r)] }, 0)
  | (s, .ok ph) =>
    if ph.kind = .pma then
      match heldLine f { a with s } slot (ph.pa / 128) with
      | (s, some l) => ({ a with s }.saw l.ts, l.data)
      | (s, none) => sampFetch f slot { a with s } v ph
    else if f.quiet then ({ a with s, gaveUp := true }, 0)
    else sampFetch f slot { a with s } v ph

/-- `n` whole lines from an address, as a little-endian number; every line is translated. -/
def sampLines (f : Fetch) (slot : Option Nat) (a : LaneWork) (va : Nat) : Nat → LaneWork × Nat
  | 0 => (a, 0)
  | n + 1 =>
    let (a, d) := sampLine f slot a va
    let (a, rest) := sampLines f slot a (va + 128) n
    (a, d.toNat + rest * 2 ^ 1024)

/-! ### Weight tables and texels (R276, R279, R280, R282) -/

/-- A sector asked for by a die misses the system cache's tag check (R32). -/
def wouldMiss (s : State) (d : Fin 2) (sec : Nat) : Bool :=
  let line := sec / 4
  let elsewhere : Bool := match tblGet s.dir line with
    | some l => (heldBy l (dieAgent d)).isSome || ownerDirty l
    | none => false
  !elsewhere && !((s.die (lineHome line)).sys.any (·.line == line))

/-- What an instruction has read, with more sectors that its result waits for. -/
def gotAlso (s : State) (d : Fin 2) (g : SampGot) (secs : List Nat) : SampGot :=
  { g with now := g.now && secs.isEmpty, sectors := g.sectors ++ secs, missed := g.missed || secs.any (wouldMiss s d) }

/-- The entry of a decoder slot, read through L1 (R276): none where it translates to nothing. -/
def decoderEntry (f : Fetch) (a : LaneWork) (slot : Nat) : LaneWork × Option Nat :=
  let va := BitVec.ofNat 64 (f.decTab + 16 * slot)
  let kindOk := match translateOn a.s f.sp.d f.core f.sp.ctx f.sp.ppn va .read with
    | (_, .ok ph) => ph.kind == .pma
    | _ => true
  let secs := askedAt a.s f.sp f.party va 2
  if f.quiet && !kindOk then ({ a with gaveUp := true }, none)
  else
    let a := { a with got := gotAlso a.s f.sp.d a.got secs }
    match readDwords a.s f.sp f.party va 2 with
    | (s, .error e) => ({ a with s, faults := a.faults ++ [e] }, none)
    | (s, .ok (bs, ts)) =>
      if f.quiet ∧ lostSectors a.s secs ≠ [] then ({ a with s, gaveUp := true }, none)
      else ({ a with s }.saw ts, some (ofBytes bs))

/-- What a failing header leaves of a lane's work: nothing it has read since `before` stays (R282). -/
def badHeader (before a : LaneWork) (sub va : Nat) : LaneWork :=
  { a with bad := some (sub, BitVec.ofNat 64 va), got := { a.got with fresh := before.got.fresh } }

/-- The timestamps of what a part of a lane's work reads, apart from those before it. -/
def LaneWork.apart (a : LaneWork) : LaneWork := { a with got := { a.got with ts := 0 } }

/-- A table made of the lines read: the sampler's cache will keep it where every line may be kept (R279, R377). -/
def keepTable (before a : LaneWork) (t : CachedTable) : LaneWork :=
  let g := a.got
  if g.uncached = before.got.uncached then { a with got := { g with fresh := { g.fresh with tables := t :: g.fresh.tables } } }
  else { a with got := { g with once := { g.once with tables := t :: g.once.tables } } }

/-- The same of a decoded texel (R280). -/
def keepTexel (before a : LaneWork) (t : CachedTexel) : LaneWork :=
  let g := a.got
  if g.uncached = before.got.uncached then { a with got := { g with fresh := { g.fresh with texels := t :: g.fresh.texels } } }
  else { a with got := { g with once := { g.once with texels := t :: g.once.texels } } }

/-- The table of a slot filled (R279, R282): none where the slot gives no table or its fill stops. -/
def fillTable (f : Fetch) (a : LaneWork) (slot : Nat) : LaneWork × Option Nat :=
  match decoderEntry f a.apart slot with
  | (a0, none) => (a0.saw a.got.ts, none)
  | (a0, some e) =>
    if !(bitAt e 64) || bits e 127 65 != 0 || bits e 6 0 != 0 then (a0.saw a.got.ts, none)
    else
      let (b, n) := sampLines f (some slot) a0 (bits e 63 0) 21
      if b.faults.length ≠ a0.faults.length ∨ b.gaveUp then (b.saw a.got.ts, none)
      else if n % 256 ≠ 1 then (badHeader a0 (b.saw a.got.ts) 1 (bits e 63 0), none)
      else
        let t : CachedTable := { ctx := f.sp.ctx, slot, data := BitVec.ofNat 21504 n, ts := b.got.ts }
        (keepTable a (b.saw a.got.ts) t, some t.data.toNat)

/-- The table of a slot that its core holds (R279). -/
def heldTable (f : Fetch) (s : State) (slot : Nat) : Option CachedTable :=
  (s.coreAt f.sp.d f.core).tables.find? fun t => t.ctx == f.sp.ctx && t.slot == slot

/-- The table of a slot in use (R279): the one held, the one this instruction has filled, else one it fills. -/
def tableOf (f : Fetch) (a : LaneWork) (slot : Nat) : LaneWork × Option Nat :=
  match heldTable f a.s slot with
  | some t => ({ a with s := a.s.onCore f.sp.d f.core fun c => useTable c t }.saw t.ts, some t.data.toNat)
  | none =>
    match (a.got.fresh.tables ++ a.got.once.tables).find? fun t => t.ctx == f.sp.ctx && t.slot == slot with
    | some t => (a.saw t.ts, some t.data.toNat)
    | none => fillTable f a slot

/-- Four channels as a number, and back. -/
def packChannels (l : List Nat) : BitVec 64 := BitVec.ofNat 64 (packNat 16 (fun k => l.getD k 0) 4)
def unpackChannels (b : BitVec 64) : List Nat := (List.range 4).map fun k => bits b.toNat (16 * k + 15) (16 * k)

/-- A texel decoded with a table of timestamp `tts` from its block (R273, R280, R282); its die counts it (R426). A quiet fetch decodes
nothing. `keep` says that its table may be kept. -/
def decodeTexel (f : Fetch) (slot : Nat) (w : LaneWork) (tab tts : Nat) (keep : Bool) (bva pa lx ly : Nat) : LaneWork × List Nat :=
  let zero := [0, 0, 0, 0]
  let a0 := w.apart
  let (b, blk) := sampLines f (some slot) a0 bva 11
  let a := b.saw w.got.ts
  if a.faults.length ≠ a0.faults.length ∨ a.gaveUp then (a, zero)
  else if blk % 256 ≠ 1 then (badHeader a0 a 0 bva, zero)
  else if f.quiet then (a, zero)
  else
    let e : CachedTexel :=
      { ctx := f.sp.ctx, slot, block := pa, lx, ly, rgba := packChannels (carder tab blk lx ly), ts := max tts b.got.ts }
    let before := if keep then a0 else { a0 with got := { a0.got with uncached := a.got.uncached + 1 } }
    (keepTexel before { a with s := a.s.onDie f.sp.d fun x => workUp (countUp x 7 1) 13 1 } e, unpackChannels e.rgba)

/-- A texel of a TABAUX texture (R273, R280, R282): the one held, the one this instruction has decoded, else one it decodes. -/
def latentTexel (f : Fetch) (t : TexDesc) (a : LaneWork) (l x y : Nat) : LaneWork × List Nat :=
  let zero := [0, 0, 0, 0]
  match tableOf f a t.slot with
  | (a, none) => (a, zero)
  | (a, some tab) =>
    let bva := levelBase t l + 1408 * (y / 64 * blocksX t l + x / 64)
    match translateOn a.s f.sp.d f.core f.sp.ctx f.sp.ppn (BitVec.ofNat 64 bva) .read with
    | (s, .error r) => ({ a with s, faults := a.faults ++ [(BitVec.ofNat 64 bva, r)] }, zero)
    | (s, .ok ph) =>
      let a := { a with s }
      let same := fun e : CachedTexel =>
        e.ctx == f.sp.ctx && e.slot == t.slot && e.block == ph.pa && e.lx == x % 64 && e.ly == y % 64
      match (s.coreAt f.sp.d f.core).texels.find? same, (a.got.fresh.texels ++ a.got.once.texels).find? same with
      | some e, _ => ({ a with s := s.onCore f.sp.d f.core fun c => useTexel c e }.saw e.ts, unpackChannels e.rgba)
      | none, some e => (a.saw e.ts, unpackChannels e.rgba)
      | none, none =>
        let once := a.got.once.tables.find? fun o => o.ctx == f.sp.ctx && o.slot == t.slot
        let held := (heldTable f s t.slot).orElse fun _ => a.got.fresh.tables.find? fun o => o.ctx == f.sp.ctx && o.slot == t.slot
        decodeTexel f t.slot a tab (((held.orElse fun _ => once).map (·.ts)).getD 0) held.isSome bva ph.pa (x % 64) (y % 64)

/-- A texel inside a level (R196, R283). -/
def texelAt (f : Fetch) (t : TexDesc) (a : LaneWork) (l x y : Nat) : LaneWork × List Nat :=
  if !a.live then (a, [0, 0, 0, 0])
  else if t.fmt = 0x10 then latentTexel f t a l x y
  else
    let n := (texelBytes t.fmt).getD 1
    let va := levelBase t l + y * levelPitch t l + x * n
    let (a, d) := sampLine f none a (va / 128 * 128)
    (a, texelChannels t.fmt (bits d.toNat (8 * (va % 128) + 8 * n - 1) (8 * (va % 128))))

/-! ### Filtering (R199, R283) -/

/-- A wrapped coordinate, none for the border (R197). -/
def wrapCoord (mode : Nat) (i : Int) (n : Nat) : Option Nat :=
  match mode with
  | 0 => some (i % n).toNat
  | 1 => some (min (max i 0) ((n : Int) - 1)).toNat
  | 2 => let k := (i % (2 * n : Nat)).toNat; some (if k < n then k else 2 * n - 1 - k)
  | _ => if 0 ≤ i ∧ i < n then some i.toNat else none

/-- The texel at an integer position after wrapping (R199, R283). -/
def wrappedTexel (f : Fetch) (t : TexDesc) (sd : SampDesc) (a : LaneWork) (l : Nat) (i j : Int) : LaneWork × List Nat :=
  match wrapCoord sd.wrapX i (levelW t l), wrapCoord sd.wrapY j (levelH t l) with
  | some x, some y => texelAt f t a l x y
  | _, _ => (a, sd.border)

/-- u x W_l - 0.5 (R199). -/
def texelPos (u n : Nat) : Nat := f32sub (f32mul u (f32lit n 0)) f32half

/-- The four texels of a bilinear footprint in the order t00, t10, t01, t11. -/
def footprint (f : Fetch) (t : TexDesc) (sd : SampDesc) (a : LaneWork) (l : Nat) (i j : Int) : LaneWork × List (List Nat) :=
  let (a, t00) := wrappedTexel f t sd a l i j
  let (a, t10) := wrappedTexel f t sd a l (i + 1) j
  let (a, t01) := wrappedTexel f t sd a l i (j + 1)
  let (a, t11) := wrappedTexel f t sd a l (i + 1) (j + 1)
  (a, [t00, t10, t01, t11])

/-- a(1 - w) + b w. -/
def f32lerp (a b w : Nat) : Nat := f32add (f32mul a (f32sub f32one w)) (f32mul b w)

/-- The bilinear result at a level, four f32 channels. -/
def bilinear (f : Fetch) (t : TexDesc) (sd : SampDesc) (a : LaneWork) (l u v : Nat) : LaneWork × List Nat :=
  let (i, fx) := floorFrac8 (f32val (texelPos u (levelW t l)))
  let (j, fy) := floorFrac8 (f32val (texelPos v (levelH t l)))
  let (a, ts) := footprint f t sd a l i j
  let wx := f32lit fx (-8)
  let wy := f32lit fy (-8)
  let ch := fun k c => f16wide ((ts.getD k []).getD c 0)
  (a, (List.range 4).map fun c => f32lerp (f32lerp (ch 0 c) (ch 1 c) wx) (f32lerp (ch 2 c) (ch 3 c) wx) wy)

/-- A level of detail held to 0 to LEVELS - 1: its floor, its fraction in 1/256, and its nearest integer, ties to even; a NaN
is 0 (R199). -/
def clampLod (levels lam : Nat) : Nat × Nat × Nat :=
  match f32val lam with
  | .nan => (0, 0, 0)
  | .inf neg => if neg then (0, 0, 0) else (levels - 1, 0, levels - 1)
  | .fin neg m e =>
    if neg then (0, 0, 0)
    else
      let (i, fr) := floorFrac8 (.fin false m e)
      if (levels : Int) - 1 ≤ i then (levels - 1, 0, levels - 1) else (i.toNat, fr, roundTo .rne false m e 0)

/-- The trilinear result at a level of detail; the last level is blended with itself (DESIGN CHOICE, unsafe: log entry 35). -/
def trilinear (f : Fetch) (t : TexDesc) (sd : SampDesc) (a : LaneWork) (lam u v : Nat) : LaneWork × List Nat :=
  let (l, fr, _) := clampLod t.levels lam
  let (a, b0) := bilinear f t sd a l u v
  let (a, b1) := bilinear f t sd a (min (l + 1) (t.levels - 1)) u v
  (a, (List.range 4).map fun c => f32lerp (b0.getD c 0) (b1.getD c 0) (f32lit fr (-8)))

/-- Derivatives of a quad (R199): du/dx, dv/dx, du/dy, dv/dy; lane `q` of the registers is given. -/
def quadDerivs (u v : Nat → Nat) (q : Nat) : Nat × Nat × Nat × Nat :=
  let b := q / 4 * 4
  (f32sub (u (b + 1)) (u b), f32sub (v (b + 1)) (v b), f32sub (u (b + 2)) (u b), f32sub (v (b + 2)) (v b))

/-- rho of a derivative (R199). -/
def rhoOf (t : TexDesc) (du dv : Nat) : Nat :=
  let x := f32mul du (f32lit t.width 0)
  let y := f32mul dv (f32lit t.height 0)
  f32sqrt (f32add (f32mul x x) (f32mul y y))

/-- The probes of an anisotropic sample (R199): their number N, from the quotient of the larger rho by the smaller; MAXANISO + 1
where that is no number (DESIGN CHOICE, unsafe: log entry 35). -/
def anisoCount (sd : SampDesc) (rmax rmin : Nat) : Nat :=
  let cap := sd.aniso + 1
  match f32val (f32div rmax rmin) with
  | .fin neg m e => if neg then 1 else max 1 (min cap (roundTo .rup false m e 0))
  | _ => cap

/-- The coordinate of probe `k` of `n` along a derivative (R199). -/
def probeAt (c der k n : Nat) : Nat :=
  f32add c (f32mul (f32sub (f32div (f32add (f32lit k 0) f32half) (f32lit n 0)) f32half) der)

/-- Probes `k` to `k + left - 1`, summed in increasing order. -/
def probeSum (f : Fetch) (t : TexDesc) (sd : SampDesc) (lam u v du dv n : Nat) :
    Nat → LaneWork → Nat → List Nat → LaneWork × List Nat
  | 0, a, _, acc => (a, acc)
  | left + 1, a, k, acc =>
    let (a, c) := trilinear f t sd a lam (probeAt u du k n) (probeAt v dv k n)
    let acc := if k = 0 then c else (List.range 4).map fun i => f32add (acc.getD i 0) (c.getD i 0)
    probeSum f t sd lam u v du dv n left a (k + 1) acc

/-- An anisotropic sample (R199); of equal axes x is the major one. DEDUCED, unsafe: log entry 35. -/
def anisotropic (f : Fetch) (t : TexDesc) (sd : SampDesc) (a : LaneWork) (u v : Nat) (der : Nat × Nat × Nat × Nat) :
    LaneWork × List Nat :=
  let (dux, dvx, duy, dvy) := der
  let rx := rhoOf t dux dvx
  let ry := rhoOf t duy dvy
  let n := anisoCount sd (f32max rx ry) (f32min rx ry)
  let lam := sfuLog2 fmtF32 (f32div (f32max rx ry) (f32lit n 0))
  let (du, dv) := if f32lt rx ry then (duy, dvy) else (dux, dvx)
  let (a, sum) := probeSum f t sd lam u v du dv n n a 0 []
  (a, sum.map fun c => f32div c (f32lit n 0))

/-- lambda of a lane (R199). -/
def lodOf (t : TexDesc) (sd : SampDesc) (mode lodArg : Nat) (der : Nat × Nat × Nat × Nat) : Nat :=
  if mode = 1 then lodArg
  else
    let (dux, dvx, duy, dvy) := der
    let lam := f32add (sfuLog2 fmtF32 (f32max (rhoOf t dux dvx) (rhoOf t duy dvy))) (f16wide sd.bias)
    if mode = 2 then f32add lam lodArg else lam

/-- A lane's SAMPLE: four f16 channels (R199). -/
def sampleLane (f : Fetch) (t : TexDesc) (sd : SampDesc) (mode : Nat) (u v l : Nat → Nat) (a : LaneWork) (q : Nat) :
    LaneWork × List Nat :=
  let der := quadDerivs u v q
  let lam := lodOf t sd mode (l q) der
  match sd.filter with
  | 0 =>
    let (_, _, lev) := clampLod t.levels lam
    let i := (floorFrac8 (f32val (f32add (texelPos (u q) (levelW t lev)) f32half))).1
    let j := (floorFrac8 (f32val (f32add (texelPos (v q) (levelH t lev)) f32half))).1
    wrappedTexel f t sd a lev i j
  | 1 =>
    let (a, c) := bilinear f t sd a (clampLod t.levels lam).1 (u q) (v q)
    (a, c.map f32half16)
  | 2 =>
    let (a, c) := trilinear f t sd a lam (u q) (v q)
    (a, c.map f32half16)
  | _ =>
    let (a, c) := anisotropic f t sd a (u q) (v q) der
    (a, c.map f32half16)

/-- A lane's SGATH: channel `ch` of the bilinear footprint (R198). -/
def gatherLane (f : Fetch) (t : TexDesc) (sd : SampDesc) (lvl ch : Nat) (u v : Nat → Nat) (a : LaneWork) (q : Nat) :
    LaneWork × List Nat :=
  let l := min lvl (t.levels - 1)
  let i := (floorFrac8 (f32val (texelPos (u q) (levelW t l)))).1
  let j := (floorFrac8 (f32val (texelPos (v q) (levelH t l)))).1
  let (a, ts) := footprint f t sd a l i j
  (a, ts.map fun c => c.getD ch 0)

/-- A lane's TLD (R198). -/
def loadLane (f : Fetch) (t : TexDesc) (lvl : Nat) (x y : Nat → Nat) (a : LaneWork) (q : Nat) : LaneWork × List Nat :=
  if t.levels ≤ lvl ∨ levelW t lvl ≤ x q ∨ levelH t lvl ≤ y q then (a, [0, 0, 0, 0]) else texelAt f t a lvl (x q) (y q)

/-! ### Instructions -/

/-- The issuing warp's fetches. -/
def fetchOf (s : State) (quiet weak : Bool) : Fetch :=
  { sp := warpSpace s s.cur, core := (agentCore s.cur.who).getD 0, party := curParty s false,
    decTab := ((warpCtx s s.cur).map (·.decTab)).getD 0, quiet, weak }

/-- An instruction that has read nothing yet. -/
def gotNone (s : State) : SampGot :=
  let c := s.coreAt (agentDie s.cur.who) ((agentCore s.cur.who).getD 0)
  ⟨true, [], [], false, 0, ⟨c.sampDrops, c.slotDrops, none, [], [], []⟩, .empty, 0, 0⟩

/-- What the active lanes of a texture instruction came to: channels by lane, faults, the failing header of the lowest lane. -/
structure LanesDone where
  s : State
  out : List (Nat × List Nat)
  faults : List (Nat × Word × Nat)
  bad : Option (Nat × Word)
  gaveUp : Bool
  got : SampGot

/-- The active lanes' work in increasing physical lane order (R282). -/
def runLanes (g : LaneWork → Nat → LaneWork × List Nat) (act : Mask) : List Nat → LanesDone → LanesDone
  | [], r => r
  | q :: qs, r =>
    if !(act.getLsbD q) then runLanes g act qs r
    else
      let (a, c) := g ⟨r.s, [], none, false, r.got⟩ q
      runLanes g act qs
        { s := a.s, got := a.got, gaveUp := r.gaveUp || a.gaveUp, out := if a.faults = [] ∧ a.bad = none then r.out ++ [(q, c)] else r.out,
          faults := r.faults ++ a.faults.map fun e => (q, e.1, e.2),
          bad := match r.bad with
            | some b => some b
            | none => a.bad }

/-- `n` bytes of a descriptor at any address, read through L1 (R228), or the first failing address. -/
def readDescriptor (s : State) (va : Word) (n : Nat) : State × Except (Word × Nat) (Nat × Nat) :=
  let o := va.toNat % 8
  match readDwords s (warpSpace s s.cur) (curParty s false) (alignDown va 8) ((o + n + 7) / 8) with
  | (s, .error e) => (s, .error e)
  | (s, .ok (bs, ts)) => (s, .ok (ofBytes ((bs.drop o).take n), ts))

/-- The sectors a descriptor's dwords are asked for from memory (R200, R228). -/
def descAsked (s : State) (va : Word) (n : Nat) : List Nat :=
  askedAt s (warpSpace s s.cur) (curParty s false) (alignDown va 8) ((va.toNat % 8 + n + 7) / 8)

/-- The registers a texture instruction writes: c0 and c1 in v[D], c2 and c3 in v[D+1] (R198). Every sector it reads feeds both. -/
def texOwed (d : BitVec 6) (out : List (Nat × List Nat)) (g : SampGot) (w : Warp) : Pending :=
  let pair := fun k : Nat => out.map fun o => (o.1, (o.2.getD k 0) % 65536 + (o.2.getD (k + 1) 0) % 65536 * 65536)
  let sh : MemShape := ⟨4, 128, 32, false⟩
  { xw := [], vw := loadTriples d sh (pair 0) ++ loadTriples (d + 1) sh (pair 2), mw := [],
    sectors := (distinct g.sectors).flatMap fun k => [(k, 0), (k, 1)],
    replay := w.replayNext, pc := w.pc, fills := g.fills, weak := false, samp := g.fresh, missed := g.missed }

/-- What reads that write no register leave in the caches at once, but for lines, tables and blocks with a lost sector (R151,
R282). Answers the lost sectors. -/
def landGot (s : State) (f : Fetch) (g : SampGot) : State × List Nat :=
  let lost := lostSectors s (distinct g.sectors)
  let s := installFills s f.sp.d f.core f.weak (soundFills g.fills lost)
  (lost.foldl (unhold f.sp.d) (installSamp s f.sp.d f.core g.fresh lost), lost)

/-- The end of a texture instruction (R198, R200, R282). -/
def endTexture (d : BitVec 6) (f : Fetch) (r : LanesDone) : Out :=
  match r.bad with
  | some (sub, va) =>
    let s := (landGot r.s f r.got).1
    let s := if r.faults = [] then s else memFault s 0 r.faults true
    .next (violate s cTablever sub va)
  | none =>
    let s := if r.out = [] ∨ r.got.now then (landGot r.s f r.got).1 else r.s
    let s := if r.out = [] then s else settleLoad s (texOwed d r.out r.got s.cur) r.got.now r.got.ts
    endAccess s .read r.faults true

/-- Every active lane faults on a descriptor (R200). -/
def descriptorFault (s : State) (act : Mask) (e : Word × Nat) : Out :=
  endAccess s .read (((List.range 128).filter fun q => act.getLsbD q).map fun q => (q, e.1, e.2)) true

/-- A texture instruction after its texture descriptor. -/
def withTexture (i : Instr) (s : State) (va : Word) (act : Mask) (k : State → SampGot → TexDesc → Out) : Out :=
  let g := gotAlso s (agentDie s.cur.who) (gotNone s) (descAsked s va 32)
  match readDescriptor s va 32 with
  | (s, .error e) => descriptorFault s act e
  | (s, .ok (n, ts)) =>
    let s := { s with cur := { s.cur with rmax := max s.cur.rmax ts } }
    let t := parseTex n
    let g := if t.fmt = 0x10 then { g with fresh := { g.fresh with uses := some (s.cur.ctx, t.slot) } } else g
    if texBad n then illegal s 3 i else k s g t

/-- A texture instruction after its sampler descriptor. -/
def withSampler (i : Instr) (s : State) (g : SampGot) (va : Word) (act : Mask) (k : State → SampGot → SampDesc → Out) : Out :=
  let g := gotAlso s (agentDie s.cur.who) g (descAsked s va 16)
  match readDescriptor s va 16 with
  | (s, .error e) => descriptorFault s act e
  | (s, .ok (n, ts)) =>
    let s := { s with cur := { s.cur with rmax := max s.cur.rmax ts } }
    if sampBad n then illegal s 3 i else k s g (parseSamp n)

/-- The decoder slot whose table a sampler instruction would decode with or load (R200, R202). -/
def slotNamed (s : State) : Instr → Option Nat
  | .sample f | .sgath f | .tld f => match (readDescriptor s (readX s.cur f.b) 32).2 with
    | .ok (n, _) => if texBad n || (parseTex n).fmt != 0x10 then none else some (parseTex n).slot
    | .error _ => none
  | .wtpf f => some (bits (readX s.cur f.a).toNat 11 0)
  | _ => none

/-- A fill waits while decodes in flight use all 16 tables of its core (R279). -/
def tableStall (s : State) (i : Instr) : Bool :=
  let (d, c) := (agentDie s.cur.who, (agentCore s.cur.who).getD 0)
  let held := (s.coreAt d c).tables
  decide (16 ≤ held.length) && held.all (fun t => (tablesInUse s d c).contains (t.ctx, t.slot)) &&
    (slotNamed s i).any fun k => !(held.any fun t => t.ctx == s.cur.ctx && t.slot == k)

/-- The active lanes, lowest first. -/
def activeLanes (w : Warp) (f : FmtA) : List Nat := (List.range 128).filter fun l => (activeMask w f.pm f.pi).getLsbD l

/-- Lane `q` of v[r + k] of the issuing warp. -/
def laneArg (w : Warp) (r : BitVec 6) (k q : Nat) : Nat := (laneOf (vAt w (r.toNat + k)) q).toNat

/-- The lanes of a texture instruction, with nothing done yet. -/
def lanesOf (s : State) (got : SampGot) (g : LaneWork → Nat → LaneWork × List Nat) (act : Mask) : LanesDone :=
  runLanes g act (List.range 128) ⟨s, [], [], none, false, got⟩

/-- SAMPLE (R199). -/
def execSample (f : FmtA) (s : State) : Out :=
  let w := s.cur
  let act := activeMask w f.pm f.pi
  withTexture (.sample f) s (readX w f.b) act fun s g t => withSampler (.sample f) s g (readX w f.c) act fun s g sd =>
    let k := fetchOf s false false
    endTexture f.d k (lanesOf s g (sampleLane k t sd f.mod.toNat (laneArg w f.a 0) (laneArg w f.a 1) (laneArg w f.a 2)) act)

/-- SGATH (R198). -/
def execSgath (f : FmtA) (s : State) : Out :=
  let w := s.cur
  let act := activeMask w f.pm f.pi
  withTexture (.sgath f) s (readX w f.b) act fun s g t => withSampler (.sgath f) s g (readX w f.c) act fun s g sd =>
    let k := fetchOf s false false
    endTexture f.d k (lanesOf s g (gatherLane k t sd (bits f.mod.toNat 5 2) (bits f.mod.toNat 1 0)
      (laneArg w f.a 0) (laneArg w f.a 1)) act)

/-- TLD (R198). -/
def execTld (f : FmtA) (s : State) : Out :=
  let w := s.cur
  let act := activeMask w f.pm f.pi
  withTexture (.tld f) s (readX w f.b) act fun s g t =>
    let k := fetchOf s false false
    endTexture f.d k (lanesOf s g (loadLane k t (bits f.mod.toNat 3 0) (laneArg w f.a 0) (laneArg w f.a 1)) act)

/-- x[D] of TQRY for a good descriptor (R201). -/
def tqryWord (t : TexDesc) (l : Nat) : Word :=
  if t.levels ≤ l then 0
  else BitVec.ofNat 64 (levelW t l + levelH t l * 65536 + t.levels * 2 ^ 32 + t.fmt * 2 ^ 36)

/-- What TQRY owes x[D], read from a descriptor with lost sectors (R151, R201). -/
def tqryOwed (d : BitVec 6) (v : Word) (lost : List Nat) (w : Warp) : Pending :=
  { xw := [(d, v)], vw := [], mw := [], sectors := lost.map fun k => (k, 0), replay := w.replayNext, pc := w.pc, fills := [],
    weak := false, samp := .empty, missed := false }

/-- TQRY (R201). -/
def execTqry (f : FmtA) (s : State) : Out :=
  let lost := lostSectors s (descAsked s (readX s.cur f.b) 32)
  match readDescriptor s (readX s.cur f.b) 32 with
  | (s, .error e) => endAccess s .read [(0, e.1, e.2)] false
  | (s, .ok (n, ts)) =>
    let s := { s with cur := { s.cur with rmax := max s.cur.rmax ts } }
    if texBad n then illegal s 3 (.tqry f)
    else
      let v := tqryWord (parseTex n) (bits f.mod.toNat 3 0)
      if lost = [] then answer s (retire (writeX s.cur f.d v))
      else
        let s := settleLoad s (tqryOwed f.d v lost s.cur) false 0
        answer s (retire s.cur)

/-- What WTINV drops (R202). -/
def dropSlot (c : Core) (ctx slot : Nat) : Core :=
  { c with tables := c.tables.filter fun t => !(t.ctx == ctx && t.slot == slot),
           texels := c.texels.filter fun t => !(t.ctx == ctx && t.slot == slot),
           lines := c.lines.filter fun t => !(t.ctx == ctx && t.slot == some slot),
           slotDrops := tblSet c.slotDrops (slotKey ctx slot) (tblGetD c.slotDrops (slotKey ctx slot) 0 + 1) }

/-- WTINV (R202). -/
def execWtinv (f : FmtA) (s : State) : Out :=
  let slot := bits (readX s.cur f.a).toNat 11 0
  let (d, c) := (agentDie s.cur.who, (agentCore s.cur.who).getD 0)
  let s := s.onCore d c fun x => dropSlot x s.cur.ctx slot
  answer s (retire s.cur)

/-- WTINV.all (R202). -/
def execWtinvAll (_ : FmtA) (s : State) : Out :=
  let (d, c) := (agentDie s.cur.who, (agentCore s.cur.who).getD 0)
  let s := s.onCore d c dropCore
  answer s (retire s.cur)

/-- What a quiet fetch leaves in the caches; uncorrectable errors it met are logged (R36, R282, R429). -/
def landQuiet (s : State) (f : Fetch) (g : SampGot) : State :=
  let (s, lost) := landGot s f g
  logLost s f.sp.d f.sp.ctx lost

/-- The table of a slot loaded where nothing stands against it (R202, R279), and the lines asked for. A slot whose table the core
holds asks for nothing. -/
def prefetchTable (s : State) (slot : Nat) (weak : Bool) : State × Nat :=
  let f := fetchOf s true weak
  if (heldTable f s slot).isSome then (s, 0)
  else
    let a := (fillTable f ⟨s, [], none, false, gotNone s⟩ slot).1
    if a.faults ≠ [] ∨ a.gaveUp then (s, 0) else (landQuiet a.s f a.got, a.got.asked)

/-- WTPF (R202). -/
def execWtpf (f : FmtA) (s : State) : Out :=
  let s := (prefetchTable s (bits (readX s.cur f.a).toNat 11 0) false).1
  answer s (retire s.cur)

end Sys2Proof.Machine
end

