-- ==== Sys2Proof/Machine/System.lean ====
section
/-! DEFINITION. Ending a warp, traps, special registers, ROVE and HALT (05 R106, R109 to R116; 01 R19 to R22). -/

namespace Sys2Proof.Machine

/-- The issuing warp's open batch closes and reaches the raster front end (R206, R288). -/
def closeBatch (s : State) : State :=
  match s.cur.batch, s.curTeam with
  | some b, some t =>
    { s.onDie t.home fun x => { x with front := x.front ++ [⟨t.node, b⟩] } with cur := { s.cur with batch := none } }
  | _, _ => s

/-- EXIT ends the warp (R106): its split stack and pending loads are discarded and an open batch closes (R206); its team keeps
the largest timestamp it held (R221 TTS). A distaff thread ends for good (DEDUCED, unsafe: log entry 23). -/
def execExit (s : State) : Out :=
  let w := s.cur
  let s := s.onTeam w.team fun t => { t with tts := max t.tts (max w.wclk w.smax) }
  let s := closeBatch (drainXfm s)
  answer s { s.cur with split := [], mapping := none, pend := [], poison := [], promises := [], batch := none, queries := [],
                        rove := none, status := .exited }

/-- TRAP and SVC raise their traps at themselves with IMM20 (R112). -/
def execTrap (f : FmtS) (s : State) : Out := .next (raiseTrap s cTrapi 0 (f.imm.setWidth 64))
def execSvc (f : FmtS) (s : State) : Out := .next (raiseTrap s cSvcall 0 (f.imm.setWidth 64))
/-- TRET returns from a trap (R111). -/
def execTret (s : State) : Out := answer s (trapReturn s.cur)

/-- sr.rove (R20). -/
def srRove (w : Warp) : Word :=
  BitVec.ofNat 64 ((if w.roveOff then 2 ^ 63 else 0) + w.lastEnd.toNat * 2 ^ 60 + w.lastLen.toNat * 2 ^ 48 +
    w.prefs.toNat * 2 ^ 24 + w.episodes.toNat)
/-- sr.split (R20). -/
def srSplit (w : Warp) : Word :=
  match w.split with
  | [] => 0x70
  | top :: _ => BitVec.ofNat 64 (top.arms.length * 256 + (top.active.getD 7) * 16 + w.split.length)
/-- sr.core (R11, R20). -/
def srCore (a : Agent) : Word :=
  match agentCore a with
  | some c => BitVec.ofNat 64 (c.val / 6 * 4096 + c.val % 6 * 256 + c.val)
  | none => 0
/-- sr.stimelo (R20): seconds bits 31:0 and nanoseconds. -/
def srStimelo (s : State) : Word := BitVec.ofNat 64 (s.stage.sec % 2 ^ 32 * 2 ^ 32 + s.stage.nsec % 2 ^ 32)
/-- Stage seconds bits 47:32. -/
def secHi (s : State) : BitVec 16 := BitVec.ofNat 16 (s.stage.sec / 2 ^ 32)

/-- A special register as its field map gives it (R20). A distaff thread has them all, sr.core being 0 (DEDUCED, unsafe: log entry
23). -/
def srRead (s : State) (sel : Nat) : Word :=
  let w := s.cur
  match sel with
  | 0 => BitVec.ofNat 64 w.vl
  | 1 => w.replay.setWidth 64
  | 2 => w.replay.extractLsb' 64 64
  | 3 => BitVec.ofNat 64 (s.die (agentDie w.who)).clock
  | 4 => srStimelo s
  | 5 => w.stimeLatch.setWidth 64
  | 6 => BitVec.ofNat 64 w.wclk
  | 7 => w.seed.setWidth 64
  | 8 => srRove w
  | 9 => BitVec.ofNat 64 (agentPly w.who * 4096 + agentSlot w.who * 256 + w.widx)
  | 10 => BitVec.ofNat 64 (w.ch * 2 ^ 39 + w.cw * 2 ^ 36 + w.crank * 2 ^ 32 + w.tidx)
  | 11 => srCore w.who
  | 12 => BitVec.ofNat 64 (agentDie w.who).val
  | 13 => BitVec.ofNat 64 w.ctx
  | 14 => srSplit w
  | 15 => w.cause
  | 16 => w.epc
  | 17 => w.tval
  | _ => 0

/-- A special register's RW fields written (R20, R22, R50, R113). Between a nested SPLIT and its first ARM sr.vl is held to the outer
arm's lanes (DESIGN CHOICE, unsafe: log entry 51). -/
def srWrite (w : Warp) (sel : Nat) (x : Word) : Warp :=
  match sel with
  | 0 => { w with vl := min (x.toNat % 256) (match w.mapping with
      | none => 128
      | some l => l.length) }
  | 1 => { w with replay := w.replay.extractLsb' 64 64 ++ x }
  | 2 => { w with replay := x ++ w.replay.setWidth 64 }
  | 7 => { w with seed := x.setWidth 32, gens := seedGens (x.setWidth 32) }
  | 15 => { w with cause := x &&& 0x800000000000FFFF#64 }
  | 16 => { w with epc := x &&& ~~~7#64 }
  | 17 => { w with tval := x }
  | _ => w

/-- SRRD; a read of sr.stimelo latches the matching SECHI (R21, R113). -/
def execSrrd (f : FmtS) (s : State) : Out :=
  let w := s.cur
  let w1 := if f.sel = 4 then { w with stimeLatch := secHi s } else w
  answer s (retire (writeX w1 f.d (srRead s f.sel.toNat)))

/-- The end of an SRWR: a replay in force ends (R111), and a write of sr.replay stands. -/
def execSrwr (f : FmtS) (s : State) : Out :=
  answer s (srWrite (retire s.cur) f.sel.toNat (readX s.cur f.a))

/-- ROVE off and on set and clear ROVEOFF (R115). -/
def execRoveOff (s : State) : Out := answer s { retire s.cur with roveOff := true }
def execRoveOn (s : State) : Out := answer s { retire s.cur with roveOff := false }

/-- HALT (R116): the drain, sr.epc past it, the stop and the halt notice, and the end of any replay (R111); a distaff thread stops with HALTED and HOSTIRQ
(R354). -/
def execHalt (s : State) : Out :=
  if isThread s.cur.who then .next (stopThread s true 0)
  else
    let s := drainXfm s
    let w := { retire s.cur with pc := s.cur.pc, epc := s.cur.pc + 8, status := .halted }
    .next (enqueueRec { s with cur := w } (agentDie w.who) { warpRec w 0x11 with pc := w.pc })

end Sys2Proof.Machine
end

