-- ==== Sys2Proof/Machine/Raster.lean ====
section
/-! DEFINITION. The raster pipeline: raster state blocks, GEMIT and FEMIT, clipping, coverage, fragment warps, and the depth and
blend unit (08 R206, R207; 13 R285 to R301). DEDUCED and DESIGN CHOICE, unsafe: log entry 34. -/

namespace Sys2Proof.Machine

/-! ### The raster state block (R285 to R287) -/

/-- Bits of a raster state block. -/
def rsBits (r : RasterState) (hi lo : Nat) : Nat := bits r.raw.toNat hi lo
def rsVX (r : RasterState) : Nat := rsBits r 287 256
def rsVY (r : RasterState) : Nat := rsBits r 319 288
def rsVW (r : RasterState) : Nat := rsBits r 351 320
def rsVH (r : RasterState) : Nat := rsBits r 383 352
def rsConst (r : RasterState) (k : Nat) : Nat := f16wide (rsBits r (384 + 16 * k + 15) (384 + 16 * k))
def rsZfunc (r : RasterState) : Nat := rsBits r 458 456
def rsZwrite (r : RasterState) : Bool := bitAt r.raw.toNat 459
def rsDclamp (r : RasterState) : Bool := bitAt r.raw.toNat 460
def rsCull (r : RasterState) : Nat := rsBits r 462 461
def rsFrontCcw (r : RasterState) : Bool := bitAt r.raw.toNat 463
def rsFlat (r : RasterState) (k : Nat) : Bool := bitAt r.raw.toNat (464 + k)
def rsNattr (r : RasterState) : Nat := rsBits r 484 480
def rsSfr (r : RasterState) : Nat := rsBits r 486 485
def rsFargs (r : RasterState) : Nat := rsBits r 127 64
/-- The blend word of a target (R286). -/
def rsBlend (r : RasterState) (t : Nat) : Nat := rsBits r (512 + 32 * t + 31) (512 + 32 * t)

/-- A blend word with a reserved bit or code (R286). -/
def blendBad (b : Nat) : Bool :=
  bits b 31 28 != 0 || bitAt b 23 || decide (12 ≤ bits b 3 0) || decide (12 ≤ bits b 7 4) || decide (12 ≤ bits b 15 12) ||
  decide (12 ≤ bits b 19 16) || decide (5 ≤ bits b 10 8) || decide (5 ≤ bits b 22 20)

/-- A target descriptor that R287 refuses. -/
def targetBad (depth : Bool) (n : Nat) : Bool :=
  let t := parseTex n
  bits n 255 172 != 0 || bits n 127 108 != 0 || t.slot != 0 || t.levels != 1 ||
  !(decide (1 ≤ t.width) && decide (t.width ≤ 16384)) || !(decide (1 ≤ t.height) && decide (t.height ≤ 16384)) ||
  (if depth then t.fmt != 0x20 && t.fmt != 0x21 else decide (8 < t.fmt))

/-- An f32 that is finite and positive. -/
def finitePos (x : Nat) : Bool :=
  match f32val x with
  | .fin neg m _ => !neg && m != 0
  | _ => false

/-- The RSB alone is refused (R285, R287). -/
def rsbBad (n : Nat) : Bool :=
  bits n 1023 768 != 0 || bits n 511 487 != 0 || decide (1 < bits n 486 485) || bits n 462 461 == 3 || decide (16 < bits n 484 480) ||
  !(finitePos (bits n 351 320)) || !(finitePos (bits n 383 352)) || (bits n 455 448 != 0 && bits n 191 128 % 32 != 0) ||
  (List.range 8).any fun t => bitAt n (448 + t) && blendBad (bits n (512 + 32 * t + 31) (512 + 32 * t))

/-- The fragment kernel is refused (R287). -/
def fragKernelBad (k : KDesc) (nattr : Nat) : Bool :=
  !k.reservedClear || k.version != 1 || k.warps != 1 || k.cw != 1 || k.ch != 1 || decide (k.regs < 8 + nattr)

/-! ### GEMIT (R206, R288) -/

/-- The raster state of the issuing warp's launch, when GEMIT is legal in it. -/
def geometryState (s : State) : Option RasterState :=
  match s.curTeam with
  | some t => if t.fragment then none else ((s.die t.home).findNode t.node).bind (·.rsb)
  | none => none

/-- The active lanes in increasing position. -/
def lanesByPosition (w : Warp) (act : Mask) : List Nat :=
  (List.range 128).filterMap fun p => match physOf w p with
    | some l => if act.getLsbD l then some l else none
    | none => none

/-- The open batch, or an empty one. -/
def openBatch (w : Warp) : Batch := w.batch.getD { verts := [], prims := [] }

/-- The vertex a lane emits. -/
def vertexOf (w : Warp) (f : FmtA) (n l : Nat) : Vertex :=
  let v := fun r k : Nat => BitVec.ofNat 32 (laneArg w (BitVec.ofNat 6 r) k l)
  { x := v f.a.toNat 0, y := v f.a.toNat 1, z := v f.a.toNat 2, w := v f.a.toNat 3,
    attrs := (List.range n).map fun k => v f.b.toNat k }

/-- GEMIT.vtx. -/
def execGemitVtx (f : FmtA) (s : State) : Out :=
  let w := s.cur
  let lanes := lanesByPosition w (activeMask w f.pm f.pi)
  let b := openBatch w
  if (geometryState s).isNone ∨ 256 < b.verts.length + lanes.length then illegal s 3 (.gemitVtx f)
  else
    let b := { b with verts := b.verts ++ lanes.map fun l => vertexOf w f (bits f.mod.toNat 6 2) l }
    answer s (retire { w with batch := some b })

/-- GEMIT.prim. -/
def execGemitPrim (f : FmtA) (s : State) : Out :=
  let w := s.cur
  let words := (lanesByPosition w (activeMask w f.pm f.pi)).map fun l => laneArg w f.a 0 l
  let b := openBatch w
  if (geometryState s).isNone ∨ 512 < b.prims.length + words.length ∨ words.any (fun x => bits x 31 30 != 0) then
    illegal s 3 (.gemitPrim f)
  else
    let b := { b with prims := b.prims ++ words.map fun x => (bits x 9 0, bits x 19 10, bits x 29 20) }
    answer s (retire { w with batch := some b })

/-- GEMIT.end. -/
def execGemitEnd (f : FmtA) (s : State) : Out :=
  if (geometryState s).isNone then illegal s 3 (.gemitEnd f)
  else
    let s := closeBatch s
    answer s (retire s.cur)

/-! ### From vertices to screen (R289 to R291) -/

/-- A clip-space vertex: x, y, z, w and its attributes. -/
structure ClipVert where
  p : List Nat
  deriving DecidableEq, Repr

/-- Component `k`: 0 to 3 the position, then attributes; missing attributes are +0 (R288). -/
def clipAt (v : ClipVert) (k : Nat) : Nat := v.p.getD k 0

/-- A vertex with the launch's attributes. -/
def clipVert (r : RasterState) (v : Vertex) : ClipVert :=
  ⟨[v.x.toNat, v.y.toNat, v.z.toNat, v.w.toNat] ++ (List.range (rsNattr r)).map fun k => (v.attrs.getD k 0).toNat⟩

/-- The distance of a point from plane `i` (R290). -/
def planeDist (r : RasterState) (i : Nat) (v : ClipVert) : Nat :=
  let hx := f32mul (rsVW r) f32half
  let hy := f32mul (rsVH r) f32half
  let lo := f32lit 32768 0
  let hi := f32lit 32767 0
  let mix := fun a h k => f32add (f32mul a h) (f32mul (clipAt v 3) k)
  match i with
  | 0 => f32sub (clipAt v 3) (f32lit 1 (-24))
  | 1 => clipAt v 2
  | 2 => mix (clipAt v 0) hx (f32add (f32add (rsVX r) hx) lo)
  | 3 => mix (f32neg (clipAt v 0)) hx (f32sub (f32sub hi (rsVX r)) hx)
  | 4 => mix (f32neg (clipAt v 1)) hy (f32add (f32add (rsVY r) hy) lo)
  | _ => mix (clipAt v 1) hy (f32sub (f32sub hi (rsVY r)) hy)

/-- The vertex where an edge crosses a plane (R290). -/
def cutEdge (a b : ClipVert) (d0 d1 : Nat) : ClipVert :=
  let t := f32div d0 (f32sub d0 d1)
  ⟨(List.range a.p.length).map fun k => f32add (clipAt a k) (f32mul t (f32sub (clipAt b k) (clipAt a k)))⟩

/-- A polygon cut by a plane, its edges in order; `first` closes it. -/
def cutPlane (r : RasterState) (i : Nat) (first : ClipVert) : List ClipVert → List ClipVert
  | [] => []
  | a :: rest =>
    let b := rest.headD first
    let d0 := planeDist r i a
    let d1 := planeDist r i b
    (if f32le 0 d0 then [a] else []) ++ (if f32le 0 d0 != f32le 0 d1 then [cutEdge a b d0 d1] else []) ++ cutPlane r i first rest

/-- A polygon clipped by the six planes (R290); fewer than three vertices leave nothing. -/
def clipPoly (r : RasterState) (l : List ClipVert) : List ClipVert :=
  (List.range 6).foldl (fun l i => match l with
    | [] => []
    | a :: rest =>
      let c := cutPlane r i a (a :: rest)
      if c.length < 3 then [] else c) l

/-- A vertex on the screen (R289): X and Y in 16.8, z, 1/w and the attributes. -/
structure ScreenVert where
  x : Int
  y : Int
  z : Nat
  rw : Nat
  attrs : List Nat
  deriving DecidableEq, Repr

/-- A finite f32 rounded to the nearest integer, ties to even; 0 for any other. -/
def f32round (x : Nat) : Int :=
  match f32val x with
  | .fin neg m e => roundInt .rne neg m e
  | _ => 0

/-- A clipped vertex taken to the screen (R289). -/
def screenVert (r : RasterState) (v : ClipVert) : ScreenVert :=
  let x := clipAt v 0
  let y := clipAt v 1
  let w := clipAt v 3
  let xs := f32add (rsVX r) (f32mul (f32add (f32div x w) f32one) (f32mul (rsVW r) f32half))
  let ys := f32add (rsVY r) (f32mul (f32sub f32one (f32div y w)) (f32mul (rsVH r) f32half))
  { x := f32round (f32mul xs (f32lit 256 0)), y := f32round (f32mul ys (f32lit 256 0)), z := f32div (clipAt v 2) w,
    rw := f32div f32one w, attrs := v.p.drop 4 }

/-- The edge function of R291. -/
def edgeFn (ax ay bx by_ px py : Int) : Int := (bx - ax) * (py - ay) - (by_ - ay) * (px - ax)
def edgeAt (a b : ScreenVert) (px py : Int) : Int := edgeFn a.x a.y b.x b.y px py

/-- A triangle ready for coverage: its vertices, area, facing, provoking attributes and primitive index. -/
structure Tri where
  v0 : ScreenVert
  v1 : ScreenVert
  v2 : ScreenVert
  area : Int
  front : Bool
  prov : List Nat
  prim : Nat
  deriving DecidableEq, Repr

/-- The sample of a pixel in 16.8. -/
def sampleOf (p : Nat) : Int := 256 * (p : Int) + 128

/-- A triangle that survives its area and culling (R291). -/
def setupTri (r : RasterState) (prov : List Nat) (prim : Nat) (v0 v1 v2 : ScreenVert) : List Tri :=
  let area := edgeAt v0 v1 v2.x v2.y
  let front := decide (0 < area) != rsFrontCcw r
  if area = 0 ∨ (rsCull r = 1 ∧ front = false) ∨ (rsCull r = 2 ∧ front = true) then []
  else [⟨v0, v1, v2, area, front, prov, prim⟩]

/-- The fan triangles of a polygon (R290). -/
def fanTris (r : RasterState) (prov : List Nat) (prim : Nat) (v0 : ScreenVert) : List ScreenVert → List Tri
  | a :: b :: rest => setupTri r prov prim v0 a b ++ fanTris r prov prim v0 (b :: rest)
  | _ => []

/-- The triangles a primitive of a batch becomes (R206, R290, R291). -/
def primTris (r : RasterState) (b : Batch) (prim : Nat) (ix : Nat × Nat × Nat) : List Tri :=
  match b.verts[ix.1]?, b.verts[ix.2.1]?, b.verts[ix.2.2]? with
  | some p, some q, some t =>
    let l := [clipVert r p, clipVert r q, clipVert r t]
    let finite := l.all fun v => (List.range 4).all fun k => match f32val (clipAt v k) with
      | .fin _ _ _ => true
      | _ => false
    if !finite then []
    else match (clipPoly r l).map (screenVert r) with
      | [] => []
      | v0 :: rest => fanTris r ((clipVert r p).p.drop 4) prim v0 rest
  | _, _, _ => []

/-! ### Coverage (R292, R293) -/

/-- An edge of a triangle holds a sample (R292): inside, or on a top or left edge. -/
def edgeHolds (a b : ScreenVert) (px py : Int) : Bool :=
  let e := edgeAt a b px py
  decide (0 < e) || (e == 0 && ((a.y == b.y && decide (a.x < b.x)) || decide (b.y < a.y)))

/-- A triangle covers a sample (R292). -/
def triCovers (t : Tri) (px py : Int) : Bool :=
  if 0 < t.area then edgeHolds t.v0 t.v1 px py && edgeHolds t.v1 t.v2 px py && edgeHolds t.v2 t.v0 px py
  else edgeHolds t.v1 t.v0 px py && edgeHolds t.v2 t.v1 px py && edgeHolds t.v0 t.v2 px py

/-- The targets of a raster state. -/
def allTargets (r : RasterState) : List TexDesc := r.targets.filterMap id ++ r.depth.toList
/-- The limits of coverage (R292). -/
def coverW (r : RasterState) : Nat := (allTargets r).foldl (fun m t => min m t.width) 32768
def coverH (r : RasterState) : Nat := (allTargets r).foldl (fun m t => min m t.height) 32768

/-- The pixel numbers whose samples lie between two 16.8 bounds, below `lim`: first and one past the last. -/
def pixelSpan (lo hi : Int) (lim : Nat) : Nat × Nat :=
  let first := ((lo - 128 + 255) / 256).toNat
  let last := (hi - 128) / 256
  (first, min lim (last + 1).toNat)

/-- A quad of a primitive (R294): its triangle, which is the first of the fan that covers a pixel of it; its place; its covered
pixels; and the triangle that covers each where it is another of the fan. -/
structure Quad where
  tri : Tri
  qx : Nat
  qy : Nat
  cover : Nat
  others : List (Nat × Tri)
  deriving DecidableEq, Repr

/-- The triangle of a quad's lane; a helper lane has the quad's (R296). -/
def quadTri (q : Quad) (j : Nat) : Tri := ((q.others.find? (·.1 == j)).map (·.2)).getD q.tri

/-- The pixel of lane `j` of a quad: top-left, top-right, bottom-left, bottom-right (R199, R294). -/
def quadPx (q : Quad) (j : Nat) : Nat := 2 * q.qx + j % 2
def quadPy (q : Quad) (j : Nat) : Nat := 2 * q.qy + j / 2

/-- A die takes a pixel (R293). -/
def dieTakes (r : RasterState) (d : Fin 2) (px py : Nat) : Bool := rsSfr r != 1 || (px / 128 + py / 128) % 2 == d.val

/-- The quads of a triangle by row, then column (R294). -/
def triQuads (r : RasterState) (d : Fin 2) (t : Tri) : List Quad :=
  let (x0, x1) := pixelSpan (min t.v0.x (min t.v1.x t.v2.x)) (max t.v0.x (max t.v1.x t.v2.x)) (coverW r)
  let (y0, y1) := pixelSpan (min t.v0.y (min t.v1.y t.v2.y)) (max t.v0.y (max t.v1.y t.v2.y)) (coverH r)
  (List.range ((y1 + 1) / 2 - y0 / 2)).flatMap fun dy =>
    (List.range ((x1 + 1) / 2 - x0 / 2)).filterMap fun dx =>
      let q : Quad := ⟨t, x0 / 2 + dx, y0 / 2 + dy, 0, []⟩
      let cover := packNat 1 (fun j =>
        let px := quadPx q j
        let py := quadPy q j
        if px < coverW r ∧ py < coverH r ∧ dieTakes r d px py = true ∧ triCovers t (sampleOf px) (sampleOf py) = true then 1 else 0) 4
      if cover = 0 then none else some { q with cover }

/-- Two quads of one place, the earlier triangle's first: a pixel both cover is the earlier's. -/
def joinQuads (p q : Quad) : Quad :=
  let new := (List.range 4).filter fun j => q.cover.testBit j && !(p.cover.testBit j)
  { p with cover := p.cover ||| q.cover, others := p.others ++ new.map fun j => (j, q.tri) }

/-- A quad put among those of its primitive, which stand by row, then column (R294). -/
def insertQuad (q : Quad) : List Quad → List Quad
  | [] => [q]
  | p :: ps =>
    if q.qx = p.qx ∧ q.qy = p.qy then joinQuads p q :: ps
    else if q.qy < p.qy ∨ (q.qy = p.qy ∧ q.qx < p.qx) then q :: p :: ps
    else p :: insertQuad q ps

/-- The quads of a primitive's fan (R294): one for each 2 x 2 block it covers a pixel of. DEDUCED, unsafe: log entry 34. -/
def primQuads (r : RasterState) (d : Fin 2) : List Tri → List Quad
  | [] => []
  | [t] => triQuads r d t
  | ts => (ts.flatMap (triQuads r d)).foldl (fun l q => insertQuad q l) []

/-! ### Fragment warps (R294 to R296) -/

/-- An integer as the nearest f32. -/
def f32ofInt (x : Int) : Nat := encodeFp fmtF32 .rne (.fin (decide (x < 0)) x.natAbs 0)

/-- Interpolation at a pixel (R296): zf, W and attributes. -/
def interpolate (r : RasterState) (t : Tri) (px py : Nat) : Nat × Nat × List Nat :=
  let x := sampleOf px
  let y := sampleOf py
  let a := f32ofInt t.area
  let l1 := f32div (f32ofInt (edgeAt t.v2 t.v0 x y)) a
  let l2 := f32div (f32ofInt (edgeAt t.v0 t.v1 x y)) a
  let l0 := f32sub (f32sub f32one l1) l2
  let zf := f32add (f32add (f32mul l0 t.v0.z) (f32mul l1 t.v1.z)) (f32mul l2 t.v2.z)
  let q0 := f32mul l0 t.v0.rw
  let q1 := f32mul l1 t.v1.rw
  let q2 := f32mul l2 t.v2.rw
  let w := f32add (f32add q0 q1) q2
  (zf, w, (List.range (rsNattr r)).map fun k =>
    if rsFlat r k then t.prov.getD k 0
    else f32div (f32add (f32add (f32mul q0 (t.v0.attrs.getD k 0)) (f32mul q1 (t.v1.attrs.getD k 0)))
      (f32mul q2 (t.v2.attrs.getD k 0))) w)

/-- What lane `l` of a warp of quads holds: its quad and interpolated values. -/
def laneOfQuads (r : RasterState) (qs : List Quad) (l : Nat) : Option (Quad × Nat × Nat × List Nat) :=
  (qs[l / 4]?).map fun q => (q, interpolate r (quadTri q (l % 4)) (quadPx q (l % 4)) (quadPy q (l % 4)))

/-- A register whose lane `l` below `4 n` holds `f l`, +0 elsewhere. -/
def laneReg (n : Nat) (vals : List Nat) : VReg := buildReg 32 fun l => if l < 4 * n then vals.getD l 0 else 0

/-- The registers a fragment warp starts with (R295). -/
def fragInit (r : RasterState) (qs : List Quad) : FragInit :=
  let lanes := (List.range (4 * qs.length)).filterMap (laneOfQuads r qs)
  let reg := fun f : Quad × Nat × Nat × List Nat → Nat → Nat => laneReg qs.length (lanes.zipIdx.map fun p => f p.1 p.2)
  { vl := 4 * qs.length, m1 := buildMask fun l => match qs[l / 4]? with
      | some q => q.cover.testBit (l % 4)
      | none => false,
    v := [(0, reg fun q l => quadPx q.1 (l % 4)), (1, reg fun q l => quadPy q.1 (l % 4)), (2, reg fun q _ => q.2.1),
          (3, reg fun q _ => q.2.2.1), (4, reg fun q l => let t := quadTri q.1 (l % 4); t.prim + (if t.front then 2 ^ 31 else 0))] ++
         (List.range (rsNattr r)).map fun k => (8 + k, reg fun q _ => q.2.2.2.getD k 0) }

/-- The fragments of a warp: its covered lanes (R294, R297). -/
def warpFragments (r : RasterState) (node owner : Nat) (qs : List Quad) : List Fragment :=
  (List.range (4 * qs.length)).filterMap fun l => match laneOfQuads r qs l with
    | some (q, zf, _, _) =>
      if q.cover.testBit (l % 4) then
        some { node, rs := r, owner, lane := l, px := quadPx q (l % 4), py := quadPy q (l % 4), zf := BitVec.ofNat 32 zf, depth := none,
               ops := [], test := .untested, complete := false }
      else none
    | none => none

/-- A list cut into runs of at most `n`. -/
def chunks {α : Type} (n : Nat) : Nat → List α → List (List α)
  | 0, _ => []
  | fuel + 1, l => if l.isEmpty then [] else l.take n :: chunks n fuel (l.drop n)

/-- The 32 x 32 block of a quad. -/
def quadBlock (q : Quad) : Nat × Nat := (q.qx / 16, q.qy / 16)

/-- The quads of a batch packed into warps (R294). -/
def packQuads (qs : List Quad) : List (List Quad) :=
  ((qs.map quadBlock).eraseDups).flatMap fun b =>
    let l := qs.filter fun q => quadBlock q == b
    chunks 32 (l.length + 1) l

/-- The node of a fragment warp (R294, R295): a team of the fragment kernel in the geometry launch's context and class. -/
def fragmentNode (g : Node) (r : RasterState) (id now : Nat) (qs : List Quad) : Node :=
  let b := match qs with
    | q :: _ => quadBlock q
    | [] => (0, 0)
  { id, q := g.q, origin := .fragment g.id, join := false, cls := g.cls, deadline := g.deadline, args := rsFargs r, fence := 0,
    fval := 0, ctx := g.ctx, part := g.part, preds := 0, succ := [], variants := [⟨r.kernel, 1, 0, 0⟩], chosen := none, tile := none,
    pref := some ((b.1 + 7 * b.2) % 24), start := g.start, st := .pending, readyAt := now, passed := none, seq := g.seq, placed := 0, ended := 0, killed := false, aborted := false, doneAt := none,
    near := none, rsb := none, tts := 0, fragTeams := [], init := some (fragInit r qs) }

/-- A fragment warp made: its node, its fragments, and its geometry node's note of it. -/
def spawnFragment (d : Fin 2) (g : Node) (r : RasterState) (s : State) (qs : List Quad) : State :=
  let (id, s) := s.freshId
  let n := fragmentNode g r id (stageNs s) qs
  s.onDie d fun x => { x with
    nodes := x.nodes.map (fun m : Node => if m.id == g.id then { m with fragTeams := m.fragTeams ++ [id] } else m) ++ [n],
    frags := x.frags ++ warpFragments r g.id id qs }

/-- A batch rasterised (R289 to R296). -/
def rasterise (d : Fin 2) (g : Node) (r : RasterState) (b : Batch) (s : State) : State :=
  let quads := (b.prims.zipIdx).flatMap fun p => primQuads r d (primTris r b p.2 p.1)
  (packQuads quads).foldl (spawnFragment d g r) s

/-- RASTER_BATCH: the oldest batch of a die's front end is rasterised; its launch may thereby be done (R301). -/
def execRasterBatch (d : Fin 2) (s : State) : Out :=
  match (s.die d).front with
  | [] => .next s
  | b :: rest =>
    let s := s.onDie d fun x => { x with front := rest }
    match (s.die d).findNode b.node with
    | none => .next s
    | some g =>
      let s := match g.rsb with
        | some r => rasterise d g r b.batch s
        | none => s
      .next (nodeOutcome (admitNodes s d) d b.node)

/-! ### FEMIT (R207, R297) -/

/-- The raster state of the issuing fragment warp: its geometry launch's. -/
def fragmentState (s : State) : Option (Team × RasterState) :=
  match s.curTeam with
  | some t =>
    if t.fragment then
      ((((s.die t.home).findNode t.node).bind parentNode).bind fun p => ((s.die t.home).findNode p).bind (·.rsb)).map fun r => (t, r)
    else none
  | none => none

/-- Bytes of a pixel of a target (R196, R285). -/
def pixelBytes (t : TexDesc) : Nat := if t.fmt = 0x20 then 4 else if t.fmt = 0x21 then 2 else (texelBytes t.fmt).getD 4
/-- The address of a target's pixel (R285). -/
def pixelVa (t : TexDesc) (px py : Nat) : Word := BitVec.ofNat 64 (t.base + py * t.pitch + px * pixelBytes t)

/-- A target's pixel translated for the issuing warp: its place, or the address and reason of the fault (R297). -/
def pixelPlace (s : State) (t : TexDesc) (acc : Access) (px py : Nat) : State × Except (Word × Nat) Nat :=
  let va := pixelVa t px py
  match translateFor s s.cur va acc with
  | (s, .error r) => (s, .error (va, r))
  | (s, .ok ph) => if ph.kind = .pma ∧ inPool ph.pa = true then (s, .ok ph.pa) else (s, .error (va, 3))

/-- The colour a lane sends (R207): four f32 channels. -/
def femitColour (w : Warp) (f : FmtA) (l : Nat) : Vector (BitVec 32) 4 :=
  let half := fun k : Nat => BitVec.ofNat 32 (f16wide (laneArg w f.a (k / 2) l / 65536 ^ (k % 2) % 65536))
  let full := fun k : Nat => BitVec.ofNat 32 (laneArg w f.a k l)
  if f.ty = 8 then #v[half 0, half 1, half 2, half 3] else #v[full 0, full 1, full 2, full 3]

/-- Faults of a FEMIT's lanes: of pixels it writes, and of depth pixels it only reads (R150, R297). -/
structure FemitFaults where
  write : List (Nat × Word × Nat)
  read : List (Nat × Word × Nat)
  deriving DecidableEq, Repr

/-- How the depth pixel is used: written under ZWRITE, else read (R297). -/
def depthAccess (r : RasterState) : Access := if rsZwrite r then .write else .read

/-- A lane's FEMIT on its fragment (R297): accepted, or its faults. -/
def femitLane (f : FmtA) (t : Team) (r : RasterState) (s : State) (fr : Fragment) : State × FemitFaults :=
  match (r.targets.getD (bits f.mod.toNat 2 0) none) with
  | none => (s, ⟨[], []⟩)
  | some tgt =>
    let (s, c) := pixelPlace s tgt .write fr.px fr.py
    let (s, z) : State × Except (Word × Nat) (Option Nat) := match r.depth, fr.depth with
      | some dt, none => match pixelPlace s dt (depthAccess r) fr.px fr.py with
        | (s, .ok a) => (s, .ok (some a))
        | (s, .error e) => (s, .error e)
      | _, _ => (s, .ok none)
    match c, z with
    | .ok ca, .ok za =>
      let depth := if bitAt f.mod.toNat 3 then BitVec.ofNat 32 (laneArg s.cur f.b 0 fr.lane) else fr.zf
      let upd := fun g : Fragment =>
        if g.owner == fr.owner && g.lane == fr.lane then
          { g with depth := if g.depth.isNone then some (depth, za) else g.depth,
                   ops := g.ops ++ [(bits f.mod.toNat 2 0, ca, femitColour s.cur f fr.lane)] }
        else g
      (s.onDie t.home fun x => { x with frags := x.frags.map upd }, ⟨[], []⟩)
    | _, _ =>
      let of := fun (b : Bool) (e : Word × Nat) => if b then [(fr.lane, e.1, e.2)] else []
      let cf := match c with
        | .error e => of true e
        | .ok _ => []
      let zf := fun b => match z with
        | .error e => of b e
        | .ok _ => []
      (s, ⟨cf ++ zf (rsZwrite r), zf (!(rsZwrite r))⟩)

/-- The lanes of a FEMIT in order. -/
def femitLanes (f : FmtA) (t : Team) (r : RasterState) : List Nat → State → FemitFaults → State × FemitFaults
  | [], s, faults => (s, faults)
  | l :: ls, s, faults =>
    match (s.die t.home).frags.find? fun g => g.owner == t.node && g.lane == l && !g.complete with
    | none => femitLanes f t r ls s faults
    | some fr =>
      let (s, e) := femitLane f t r s fr
      femitLanes f t r ls s ⟨faults.write ++ e.write, faults.read ++ e.read⟩

/-- The tokens of the records a warp waits on. -/
def spoolTokens (w : Warp) : List Nat :=
  match w.status with
  | .spool l => l
  | _ => []

/-- A FEMIT whose lanes fault (R150): a record for each page and access kind. -/
def femitFault (s : State) (e : FemitFaults) : State :=
  if e.read = [] then memFault s (accessCode .write) e.write true
  else if e.write = [] then memFault s (accessCode .read) e.read true
  else
    let s1 := memFault s (accessCode .write) e.write true
    let s2 := memFault s1 (accessCode .read) e.read true
    { s2 with cur := { s2.cur with status := .spool (spoolTokens s1.cur ++ spoolTokens s2.cur), replay := s1.cur.replay ||| s2.cur.replay } }

/-- FEMIT (R207, R288, R297). -/
def execFemit (f : FmtA) (s : State) : Out :=
  match fragmentState s with
  | none => illegal s 3 (.femit f)
  | some (t, r) =>
    if !(bitAt r.raw.toNat (448 + bits f.mod.toNat 2 0)) then illegal s 3 (.femit f)
    else
      let (s, e) := femitLanes f t r (activeLanes s.cur f) s ⟨[], []⟩
      if e.write = [] ∧ e.read = [] then answer s (retire s.cur) else .next (femitFault s e)

/-! ### The depth and blend unit (R297 to R300) -/

/-- Clamped to [0, 1], NaN to 0. -/
def clamp01 (x : Nat) : Nat := f32min (f32max x 0) f32one

/-- "fragment ZFUNC stored" holds (R285, R297), from the order of the two; a NaN is in no order. -/
def zPasses (fn : Nat) (lt eq : Bool) (ordered : Bool) : Bool :=
  match fn with
  | 0 => false
  | 1 => lt
  | 2 => eq
  | 3 => lt || eq
  | 4 => ordered && !lt && !eq
  | 5 => !eq
  | 6 => ordered && !lt
  | _ => true

/-- The partition of the launch a fragment belongs to. -/
def fragPart (s : State) (d : Fin 2) (f : Fragment) : Option (Fin 8) := ((s.die d).findNode f.node).map fun n => Fin.ofNat 8 n.part

/-- The pool sectors of a pixel that hold an uncorrectable error. -/
def pixelLost (s : State) (pa n : Nat) : Option Nat := (sectorsOf pa n).find? fun k => s.softErrs.contains (.sector k)

/-- The unit finds a lost sector at a pixel: KIND 3 for the node's context, and the fragment stops there (R429; log entry 41). -/
def pixelError (s : State) (d : Fin 2) (f : Fragment) (k : Nat) : State :=
  logError s d { kind := 3, struct := 0, ctx := (((s.die d).findNode f.node).map (·.ctx)).getD 0, count := 0, agentId := 0, addr := 32 * k }

/-- Who pays for what the unit does: the context and partition of the fragment's launch (R414). -/
def fragPayer (s : State) (d : Fin 2) (f : Fragment) : Option Payer :=
  ((s.die d).findNode f.node).map fun n => ⟨n.ctx, Fin.ofNat 8 n.part, none⟩

/-- The depth test of a fragment (R297): the state with the depth written, and whether it passes. -/
def depthTest (s : State) (d : Fin 2) (f : Fragment) : State × Bool :=
  match f.rs.depth, f.depth with
  | some dt, some (z, some pa) =>
    let z := z.toNat
    let z' := if rsDclamp f.rs then clamp01 z else z
    if rsDclamp f.rs = false ∧ !(f32le 0 z && f32le z f32one) then (s, false)
    else
      let n := pixelBytes dt
      match pixelLost s pa n with
      | some k => (pixelError s d f k, false)
      | none =>
      let stored := s.mem.num pa n
      let d16 := n = 2
      let code := if d16 then (f32round (f32mul z' (f32lit 65535 0))).toNat else z'
      let pass := if d16 then zPasses (rsZfunc f.rs) (decide (code < stored)) (code == stored) true
        else zPasses (rsZfunc f.rs) (f32lt code stored) (f32le code stored && f32le stored code) (!(f32nan code) && !(f32nan stored))
      if pass ∧ rsZwrite f.rs then
        let (s, ts) := dieStore s d (fragPart s d f) (s.die d).xts pa (toBytes code n)
        (s.onDie d fun x => x.onNode f.node fun g => { g with tts := max g.tts ts }, true)
      else (s, pass)
  | _, _ => (s, true)

/-- Channel fields of a colour format: low bit and width of each channel held (R196). -/
def channelFields (fmt : Nat) : List (Nat × Nat) :=
  match fmt with
  | 0 => [(0, 8)]
  | 1 => [(0, 8), (8, 8)]
  | 4 => [(0, 16)]
  | 5 => [(0, 16), (16, 16)]
  | 6 => [(0, 16), (16, 16), (32, 16), (48, 16)]
  | 7 => [(0, 32)]
  | 8 => [(0, 10), (10, 10), (20, 10), (30, 2)]
  | _ => [(0, 8), (8, 8), (16, 8), (24, 8)]

/-- A format's channels are normalised (R298). -/
def normalised (fmt : Nat) : Bool := decide (fmt ≤ 3) || fmt == 8

/-- A stored channel as f32 (R298). -/
def decodeChannel (fmt k wd code : Nat) : Nat :=
  if fmt = 3 ∧ k < 3 then srgbDecode fmtF32 code
  else if normalised fmt then encodeFp fmtF32 .rne (Fv.div (.fin false code 0) (.fin false (2 ^ wd - 1) 0))
  else if fmt = 7 then code
  else f16wide code

/-- The destination's channel `k` (R298). -/
def destChannel (fmt raw k : Nat) : Nat :=
  match (channelFields fmt)[k]? with
  | some (lo, wd) => decodeChannel fmt k wd (bits raw (lo + wd - 1) lo)
  | none => if k = 3 then f32one else 0

/-- 255 x the IEC 61966-2-1 encoding of `m x 2^e` lies above `k + 1/2`, or on it with `k` odd: so a tie goes to the even code. -/
def srgbAbove (m : Nat) (e : Int) (k : Nat) : Bool :=
  let up := 2 ^ e.toNat
  let dn := 2 ^ (-e).toNat
  let (a, b) :=
    if m * up * 10000000 ≤ 31308 * dn then (m * up * 1292 * 510, 100 * (2 * k + 1) * dn)
    else (m ^ 5 * up ^ 5 * 538050 ^ 12, (1000 * (2 * k + 1) + 28050) ^ 12 * dn ^ 5)
  decide (b < a) || (a == b && k % 2 == 1)

/-- The 8-bit sRGB code of a clamped colour (R298). -/
def srgbEncode (c : Nat) : Nat :=
  let (m, e) := finParts fmtF32 c
  ((List.range 255).filter (srgbAbove m e)).length

/-- A channel encoded (R298). -/
def encodeChannel (fmt k wd r : Nat) : Nat :=
  if fmt = 3 ∧ k < 3 then srgbEncode (clamp01 r)
  else if normalised fmt then (f32round (f32mul (clamp01 r) (f32lit (2 ^ wd - 1) 0))).toNat
  else if fmt = 7 then r
  else match toFp fmtF16 .rne (policyOf 0) (f32val r) with
    | .ok b => b
    | .fault _ => 0

/-- A blend factor (R286). -/
def blendFactor (r : RasterState) (code k : Nat) (src dst : Nat → Nat) : Nat :=
  let one := fun x => f32sub f32one x
  match code with
  | 0 => 0
  | 1 => f32one
  | 2 => src k
  | 3 => one (src k)
  | 4 => dst k
  | 5 => one (dst k)
  | 6 => src 3
  | 7 => one (src 3)
  | 8 => dst 3
  | 9 => one (dst 3)
  | 10 => rsConst r k
  | _ => one (rsConst r k)

/-- Blending of a channel (R299). -/
def blendChannel (r : RasterState) (word k : Nat) (src dst : Nat → Nat) : Nat :=
  if !(bitAt word 11) then src k
  else
    let sf := if k = 3 then bits word 15 12 else bits word 3 0
    let df := if k = 3 then bits word 19 16 else bits word 7 4
    let op := if k = 3 then bits word 22 20 else bits word 10 8
    let a := f32mul (src k) (blendFactor r sf k src dst)
    let b := f32mul (dst k) (blendFactor r df k src dst)
    match op with
    | 0 => f32add a b
    | 1 => f32sub a b
    | 2 => f32sub b a
    | 3 => f32min (src k) (dst k)
    | _ => f32max (src k) (dst k)

/-- A pixel after a colour is applied (R298, R299). -/
def blendPixel (r : RasterState) (t : Nat) (fmt raw : Nat) (colour : Vector (BitVec 32) 4) : Nat :=
  let word := rsBlend r t
  let src := fun k : Nat => let c := (colour.toArray.getD k 0).toNat; if normalised fmt then clamp01 c else c
  ((channelFields fmt).zipIdx).foldl (fun acc p =>
    let (lo, wd) := p.1
    if bitAt word (24 + p.2) then
      acc - bits acc (lo + wd - 1) lo * 2 ^ lo + encodeChannel fmt p.2 wd (blendChannel r word p.2 src (destChannel fmt raw)) % 2 ^ wd * 2 ^ lo
    else acc) raw

/-- One colour of a fragment applied at its pixel's home (R299). -/
def applyColour (s : State) (d : Fin 2) (f : Fragment) (op : Nat × Nat × Vector (BitVec 32) 4) : State :=
  match f.rs.targets.getD op.1 none with
  | none => s
  | some t => match pixelLost s op.2.1 (pixelBytes t) with
  | some k => pixelError s d f k
  | none =>
    let (s, _, ts) := poolAtomic s ⟨d, none, fragPart s d f, (s.die d).xts, 1, []⟩ .pma op.2.1 (pixelBytes t) fun raw => blendPixel f.rs op.1 t.fmt raw op.2.2
    s.onDie d fun x => x.onNode f.node fun g => { g with tts := max g.tts ts }

/-- Two raster states write a target in common. -/
def shareTarget (a b : RasterState) : Bool := (allTargets a).any fun t => (allTargets b).any fun u => t.base == u.base

/-- A fragment has work the unit may do (R297, R299). -/
def fragmentReady (f : Fragment) : Bool := f.depth.isSome && (f.test == .untested || !f.ops.isEmpty)

/-- The first fragment with work and no earlier fragment left at its pixel (R300). -/
def nextFragment : List Fragment → List Fragment → Option Fragment
  | _, [] => none
  | before, f :: rest =>
    if fragmentReady f && !(before.any fun g => g.px == f.px && g.py == f.py && shareTarget g.rs f.rs) then some f
    else nextFragment (before ++ [f]) rest

/-- A fragment the unit is done with. -/
def fragmentSpent (f : Fragment) : Bool := f.complete && !(fragmentReady f)

/-- A fragment's next work done: its depth test, else its oldest colour. -/
def advanceFragment (s : State) (d : Fin 2) (f : Fragment) : State × Fragment :=
  if f.test = .untested then
    let (s, pass) := depthTest s d f
    (s, { f with test := if pass then .passed else .failed, ops := if pass then f.ops else [] })
  else match f.ops with
    | [] => (s, f)
    | op :: rest => (if f.test = .passed then applyColour s d f op else s, { f with ops := rest })

/-- FRAGMENT_APPLY (R299, R300): work done on one fragment, spent ones gone, and their launches' completion (R301). -/
def execFragmentApply (d : Fin 2) (s : State) : Out :=
  let s := match nextFragment [] (s.die d).frags with
    | none => s
    | some f =>
      let (s, g) : State × Fragment := advanceFragment (chargeTo s none) d f
      (chargeTo s (fragPayer s d f)).onDie d fun x => { x with frags := x.frags.map fun h : Fragment => if h.owner == f.owner && h.lane == f.lane then g else h }
  let spent := ((s.die d).frags.filter fragmentSpent).map fun f : Fragment => f.node
  let s := s.onDie d fun x => { x with frags := x.frags.filter fun f => !(fragmentSpent f) }
  .next ((distinct spent).foldl (fun s n => nodeOutcome s d n) s)

/-- The depth and blend unit of a die has something to do. -/
def blendPending (x : Die) : Bool := (nextFragment [] x.frags).isSome || x.frags.any fragmentSpent

end Sys2Proof.Machine
end

