-- ==== Sys2Proof/Machine/Packets.lean ====
section
/-! DEFINITION. Reading a queue's ring and starting its packets (17 R338 to R344, R351, R352, R437; 18 R359; 09 R214; 11 R268), and
QHAND (17 R354). Graph packets stand in Graphs.lean. DEDUCED, unsafe: log entry 38. -/

namespace Sys2Proof.Machine

/-! ### Packet words (R340, R341) -/

/-- Fields of a packet's body, high and low bits, by TYPE. -/
def bodyFields (type : Nat) : Option (List (Nat × Nat)) :=
  match type with
  | 1 => some [(127, 64), (191, 128), (215, 192), (217, 216), (287, 224), (351, 288), (415, 352), (479, 416)]
  | 2 => some [(127, 64), (139, 128), (287, 224), (351, 288), (415, 352), (479, 416)]
  | 3 => some [(127, 64), (191, 128), (231, 192), (233, 232), (351, 288), (415, 352)]
  | 4 => some [(127, 64), (191, 128), (192, 192)]
  | 5 => some [(127, 64), (191, 128)]
  | 6 => some [(127, 64), (191, 128), (192, 192), (319, 256), (383, 320)]
  | 7 => some [(127, 64)]
  | 8 => some []
  | 9 => some [(127, 64), (140, 128)]
  | 10 => some [(127, 64), (147, 128)]
  | 11 => some [(69, 64), (70, 70), (191, 128), (255, 192)]
  | 12 => some []
  | _ => none

/-- A number with a field's bits zero. -/
def clearField (n : Nat) (f : Nat × Nat) : Nat := n - bits n f.1 f.2 <<< f.2

/-- No reserved bit of a packet is set (R340). -/
def packetClear (n : Nat) (l : List (Nat × Nat)) : Bool := bits n 31 8 == 0 && bits (l.foldl clearField n) 479 64 == 0

/-- Bits of a packet's FENCE field, which ERR 7 looks at (R343). -/
def packetFence (n : Nat) : Nat :=
  match n % 256 with
  | 1 | 2 | 3 => bits n 351 288
  | 4 | 5 => bits n 127 64
  | 6 => bits n 319 256
  | 11 => bits n 191 128
  | _ => 0

/-- A packet of a type that needs a context (R343 ERR 7). -/
def packetNeedsCtx (n : Nat) : Bool := (bits n 7 0 != 0 && decide (bits n 7 0 ≤ 5)) || bits n 7 0 == 7 || packetFence n != 0

/-- A packet's own fields in their ranges (R340, R341), or nothing (R343 ERR 2). -/
def parseBody (n : Nat) : Option Packet :=
  let fence := packetFence n
  let fOk := fun v : Nat => fence % 8 == 0 && !(bitAt v 63)
  match n % 256 with
  | 1 =>
    let p : GridPacket := { kdesc := bits n 127 64, args := bits n 191 128, teams := bits n 215 192, cls := bits n 217 216,
                            deadline := bits n 287 224, fence, fval := bits n 415 352, rsb := bits n 479 416 }
    if fOk p.fval && p.kdesc % 64 == 0 && p.teams != 0 && p.rsb % 64 == 0 then some (.grid p) else none
  | 2 =>
    let p : GraphPacket := { nodes := bits n 127 64, ncnt := bits n 139 128, tensors := bits n 287 224, fence, fval := bits n 415 352,
                             rsb := bits n 479 416 }
    if fOk p.fval && p.nodes % 128 == 0 && p.tensors % 32 == 0 && p.rsb % 64 == 0 then some (.graph p) else none
  | 3 =>
    let p : CopyPacket := { src := bits n 127 64, dst := bits n 191 128, bytes := bits n 231 192, qos := bits n 233 232, fence,
                            fval := bits n 415 352 }
    if fOk p.fval && p.bytes != 0 then some (.copy p) else none
  | 4 => if fOk (bits n 191 128) && fence != 0 then some (.waitFence fence (bits n 191 128) (bitAt n 192)) else none
  | 5 => if fOk (bits n 191 128) && fence != 0 then some (.signalFence fence (bits n 191 128)) else none
  | 6 =>
    let p : FlipPacket := { image := bits n 127 64, release := bits n 191 128, dhead := dieOf (bits n 192 192), fence,
                            fval := bits n 383 320 }
    if fOk p.fval && p.image % 4096 == 0 then some (.flip p) else none
  | 7 => if bits n 127 64 % 16 = 0 then some (.timestamp (bits n 127 64)) else none
  | 8 => some .barrier
  | 9 => some (.setContext (bits n 127 64) (bits n 140 128))
  | 10 =>
    let cap := bits n 127 64
    let per := bits n 147 128
    if cap < 2 ^ 44 ∧ 100 ≤ per ∧ per ≤ 1000000 then some (.setEnergy cap per) else none
  | 11 => if fOk (bits n 255 192) then some (.reset (Fin.ofNat 64 (bits n 69 64)) (bitAt n 70) fence (bits n 255 192)) else none
  | 12 => some .nop
  | _ => none

/-- A packet's words: none under ERR 2 (R340, R343). -/
def parsePacket (n : Nat) : Option Packet :=
  match bodyFields (n % 256) with
  | none => none
  | some l => if packetClear n l then parseBody n else none

/-! ### Stops, holds and launches -/

/-- A queue found MALFORMED at the packet it has just read, which stays unread (R343). -/
def refusePacket (s : State) (q : QueueRef) (err : Nat) : State :=
  s.onQueue q fun x => { x with st := .malformed, err := BitVec.ofNat 8 err, hold := none, head := x.head - 1 }

/-- A queue held by a packet or a wait in STATE 3 (R342). -/
def holdQueue (s : State) (q : QueueRef) (h : QueueHold) : State := s.onQueue q fun x => restState { x with hold := some h }

/-- A queue's hold ends. -/
def freeQueue (s : State) (q : QueueRef) : State := settleQueue (s.onQueue q fun x => { x with hold := none }) q

/-- Sequence of the packet a queue read last. -/
def packetSeq (s : State) (q : QueueRef) : Nat := ((s.queue q).head - 1).toNat

/-- Where a queue's accesses for its packets stand (R437). -/
def queueSpace (s : State) (q : QueueRef) : Space := ⟨q.d, (s.queue q).ctx, ctxPpn s q.d (s.queue q).ctx⟩
def queueParty (s : State) (q : QueueRef) : Party := ⟨q.d, none, none, (s.die q.d).xts, ctxLease s q.d (s.queue q).ctx, []⟩

/-- An access made for a packet failed: a record is posted and the packet holds its queue until the answer (R437). -/
def packetFault (s : State) (q : QueueRef) (h : QueueHold) (access : Nat) (va : Word) (reason : Nat) : State :=
  let (tok, s) := s.freshId
  let s := enqueueRec s q.d (queueRec q (s.queue q).ctx (packetSeq s q) access reason va tok (.queue q))
  holdQueue s q h

/-- A queue waits for the answer to a record of its own. -/
def awaitsAnswer (s : State) (q : QueueRef) : Bool :=
  (s.die q.d).spoolQ.any (fun r => r.master == .queue q) || (s.die q.d).outst.any fun o => o.master == .queue q

/-- A packet that completes later is open (R342): its fence and its sequence. -/
def openLaunch (s : State) (q : QueueRef) (graph : Bool) (fence fval : Nat) (nodes : List Nat) : State × Nat :=
  let (id, s) := s.freshId
  let l : Launch := { id, q, seq := BitVec.ofNat 32 (packetSeq s q), graph, fence, fval, nodes, aborted := false }
  let s := { s with launches := s.launches ++ [l] }
  (s.onQueue q fun x => restState { x with open_ := x.open_ ++ [id], hold := none }, id)

/-- `n` dwords of the queue's context, or the packet held on the fault. -/
def readFor (s : State) (q : QueueRef) (p : Packet) (va n : Nat) (k : State → Nat → State) : State :=
  match readDwords s (queueSpace s q) (queueParty s q) (BitVec.ofNat 64 va) n with
  | (s, .error (a, r)) => packetFault s q (.packet p) 0 a r
  | (s, .ok (bs, _)) => k s (ofBytes bs)

/-- Kernel descriptors at the addresses given, in order. -/
def readKernels (q : QueueRef) (p : Packet) : List Nat → State → List KDesc → (State → List KDesc → State) → State
  | [], s, acc, k => k s acc
  | a :: as, s, acc, k => readFor s q p a 8 fun s n => readKernels q p as s (acc ++ [parseKDesc (toBytes n 64)]) k

/-- Target descriptors of the enabled targets, in order: those not enabled are none. -/
def readTargets (q : QueueRef) (p : Packet) (rsb : Nat) : Nat → State → List (Option Nat) → (State → List (Option Nat) → State) → State
  | 0, s, acc, k => k s acc
  | n + 1, s, acc, k =>
    let t := 7 - n
    if bitAt rsb (448 + t) then
      readFor s q p (bits rsb 191 128 + 32 * t) 4 fun s d => readTargets q p rsb n s (acc ++ [some d]) k
    else readTargets q p rsb n s (acc ++ [none]) k

/-- A raster state made of what was read, or nothing where R287 refuses it. -/
def judgeRsb (n : Nat) (tgts : List (Option Nat)) (depth : Option Nat) (k : KDesc) : Option RasterState :=
  if rsbBad n || (tgts.filterMap id).any (targetBad false) || depth.toList.any (targetBad true) || fragKernelBad k (bits n 484 480) then none
  else some { raw := BitVec.ofNat 1024 n, targets := tgts.map fun t => t.map parseTex, depth := depth.map parseTex, kernel := k }

/-- The raster state block of a launch read once (R287): `none` for no RSB, `some none` for a refused one. -/
def readRsb (s : State) (q : QueueRef) (p : Packet) (addr : Nat) (k : State → Option (Option RasterState) → State) : State :=
  if addr = 0 then k s none
  else readFor s q p addr 16 fun s n =>
    readTargets q p n 8 s [] fun s tgts =>
      let rest := fun (s : State) (depth : Option Nat) =>
        readFor s q p (bits n 63 0) 8 fun s kd => k s (some (judgeRsb n tgts depth (parseKDesc (toBytes kd 64))))
      if bits n 255 192 = 0 then rest s none else readFor s q p (bits n 255 192) 4 fun s d => rest s (some d)

/-- A kernel descriptor with VERSION other than 1, a reserved bit set, or a misaligned ENTRY (R343, R347). -/
def kernelMalformed (k : KDesc) : Bool := k.version != 1 || !k.reservedClear || k.entry % 8 != 0

/-- The context record a queue's launches use. -/
def queueCtx (s : State) (q : QueueRef) : Option CtxRec := tblGet (s.die q.d).contexts (s.queue q).ctx

/-- A single team of the kernel can never be placed, its stack included (R233, R436). -/
def kernelNever (s : State) (q : QueueRef) (k : KDesc) : Bool :=
  neverFits k || (match queueCtx s q with
    | some r => stackNever k r q.d
    | none => k.stack != 0)

/-! ### LAUNCH_GRID -/

/-- The node of a grid (R348). -/
def gridNode (s : State) (q : QueueRef) (p : GridPacket) (id launch : Nat) (k : KDesc) (rsb : Option RasterState) : Node :=
  { id, q, origin := .launch launch 0, join := false, cls := p.cls, deadline := p.deadline, args := p.args, fence := 0, fval := 0,
    ctx := (s.queue q).ctx, part := (s.queue q).part.toNat, preds := 0, succ := [], variants := [⟨k, p.teams, 0, 0⟩], chosen := none,
    tile := none, pref := none, start := (s.die q.d).xts, st := .pending, readyAt := stageNs s, passed := none, seq := packetSeq s q, placed := 0, ended := 0, killed := false, aborted := false, doneAt := none,
    near := none, rsb, tts := 0, fragTeams := [], init := none }

/-- A judged grid enters the pool, or waits for a slot (R342, R348, R351). -/
def enterGrid (s : State) (q : QueueRef) (p : GridPacket) (k : KDesc) (rsb : Option RasterState) : State :=
  let (id, s) := s.freshId
  let (s, l) := openLaunch s q false p.fence p.fval [id]
  let s := s.onDie q.d fun x => { x with nodes := x.nodes ++ [gridNode s q p id l k rsb] }
  admitNodes s q.d

/-- A grid judged in the order of R343. -/
def judgeGrid (s : State) (q : QueueRef) (p : GridPacket) (k : KDesc) (rsb : Option (Option RasterState)) : State :=
  if kernelMalformed k then refusePacket s q 2
  else if p.teams % (k.cw * k.ch) ≠ 0 then refusePacket s q 2
  else if kernelNever s q k then refusePacket s q 4
  else match rsb with
    | some none => refusePacket s q 4
    | some (some r) => enterGrid s q p k (some r)
    | none => enterGrid s q p k none

/-- LAUNCH_GRID starts (R342, R343). -/
def startGrid (s : State) (q : QueueRef) (p : GridPacket) : State :=
  readFor s q (.grid p) p.kdesc 8 fun s n =>
    readRsb s q (.grid p) p.rsb fun s rsb => judgeGrid s q p (parseKDesc (toBytes n 64)) rsb

/-! ### COPY, fences, FLIP, TIMESTAMP -/

/-- The record bits of a COPY packet. -/
def copyRecord (p : CopyPacket) : BitVec 512 :=
  BitVec.ofNat 512 (p.src <<< 64 + p.dst <<< 128 + p.bytes <<< 192 + p.qos <<< 232)

/-- COPY starts (R342): a command of the die's copy engines. -/
def startCopyPacket (s : State) (q : QueueRef) (p : CopyPacket) : State :=
  let seq := packetSeq s q
  let (s, l) := openLaunch s q false p.fence p.fval []
  let (id, s) := s.freshId
  let now := (s.die q.d).xts
  let c : Cmd := { id, kind := .queue q l, d := q.d, core := 0, entry := seq, team := 0, widx := 0, ctx := (s.queue q).ctx,
                   record := copyRecord p, st := .waiting, next := 0, token := 0, err := 0, time := now, maxTs := now, promise := 0,
                   copyNo := 0, sent := [], since := 0, ready := true, failErr := 0, answered := none, lastSector := none }
  { s with cmds := s.cmds ++ [c] }

/-- A fence word satisfies a threshold (R344). -/
def fenceMet (word value : Nat) : Bool := bitAt word 63 || decide (value ≤ word % 2 ^ 63)

/-- Every earlier packet of a queue has completed (R342). -/
def allDone (s : State) (q : QueueRef) : Bool := (s.queue q).open_.isEmpty

/-- SIGNAL_FENCE once it may start (R342, R344). -/
def startSignal (s : State) (q : QueueRef) (addr value : Nat) : State :=
  if allDone s q then
    freeQueue (signalWord s q (s.queue q).ctx (packetSeq s q) addr value false false (s.die q.d).xts) q
  else holdQueue s q (.packet (.signalFence addr value))

/-- The 16 bytes of a TIMESTAMP (R342). -/
def stampBytes (s : State) (q : QueueRef) : List Byte := toBytes (stageNs s) 8 ++ toBytes (s.die q.d).clock 8

/-- TIMESTAMP once it may start (R342, R437). -/
def startStamp (s : State) (q : QueueRef) (addr : Nat) : State :=
  let p := Packet.timestamp addr
  if !(allDone s q) then holdQueue s q (.packet p)
  else
    let sp := queueSpace s q
    match translate s sp.d sp.ctx sp.ppn (BitVec.ofNat 64 addr) .write with
    | (s, .error r) => packetFault s q (.packet p) 1 (BitVec.ofNat 64 addr) r
    | (s, .ok ph) =>
      let bs := stampBytes s q
      let (s, t) := busWrite s (queueParty s q) ph (bs.take 8)
      let (s, t') := busWrite s (queueParty s q) { ph with pa := ph.pa + 8 } (bs.drop 8)
      freeQueue (s.onDie q.d fun x => { x with xts := max x.xts (max t t') }) q

/-- FLIP once it may start (R342, R413): a head with 4 FLIPs waiting holds the queue; one that is off completes it at once. -/
def startFlip (s : State) (q : QueueRef) (p : FlipPacket) : State :=
  let h := s.head q.d p.dhead
  if !(allDone s q) ∨ (headHen h ∧ 4 ≤ h.flips.length) then holdQueue s q (.packet (.flip p))
  else
    let (s, l) := openLaunch s q false p.fence p.fval []
    if headHen h then
      s.onHead q.d p.dhead fun h => { h with flips := h.flips ++ [{ launch := l, image := p.image, release := p.release, start := stageNs s }] }
    else completeLaunch s l false (s.die q.d).xts

/-! ### SET_CONTEXT (R359, R214, R268) and SET_ENERGY -/

/-- A compression range with a reserved bit set (R268). -/
def rangeBad (e : Nat) : Bool := bits e 127 100 != 0 || bits e 63 57 != 0 || bits e 11 3 != 0

/-- A context record refused for its own fields (R359). -/
def ctxRecordBad (addr n : Nat) : Bool :=
  addr % 256 != 0 || bits n 59 44 != 0 || bits n 127 74 != 0 || bits n 1023 432 != 0 || bits n 63 60 != 10 || bits n 71 64 == 0 ||
  bits n 191 128 % 8 != 0 || bits n 255 192 % 256 != 0 || bits n 319 256 % 4096 != 0 || bits n 383 320 % 4096 != 0 ||
  bits n 415 384 % 4096 != 0 || (List.range 8).any fun i => rangeBad (bits n (1024 + 128 * i + 127) (1024 + 128 * i))

/-- The context record of its 256 bytes and its scope-group table. -/
def parseCtx (n : Nat) (groups : List (BitVec 48)) : CtxRec :=
  { ppn := bits n 43 0, lease := bits n 71 64, roveEn := bitAt n 72, hintEn := bitAt n 73, tvec := BitVec.ofNat 64 (bits n 191 128),
    groups, decTab := bits n 319 256, stkBase := bits n 383 320, stkSlot := bits n 415 384, stkCount := bits n 431 416,
    ranges := (List.range 8).map fun i => BitVec.ofNat 128 (bits n (1024 + 128 * i + 127) (1024 + 128 * i)) }

/-- The scope-group table at a physical address (R214): nothing where a reserved bit is set; 0 leaves every entry 0. -/
def readGroups (s : State) (d : Fin 2) (addr : Nat) : State × Option (List (BitVec 48)) :=
  if addr = 0 then (s, some (List.replicate 32 0))
  else
    let (s, bs) := physRead s d addr 256
    let l := (List.range 32).map fun i => ofBytes ((bs.drop (8 * i)).take 8)
    (s, if l.any (fun e => bits e 63 48 != 0) then none else some (l.map (BitVec.ofNat 48)))

/-- SET_CONTEXT once it may start (R342, R359). -/
def startContext (s : State) (q : QueueRef) (addr cid : Nat) : State :=
  if !(allDone s q) then holdQueue s q (.packet (.setContext addr cid))
  else
    let (s, bs) := physRead s q.d addr 256
    let n := ofBytes bs
    if ctxRecordBad addr n then refusePacket s q 5
    else match readGroups s q.d (bits n 255 192) with
      | (s, none) => refusePacket s q 5
      | (s, some g) =>
        let s := s.onDie q.d fun x => { x with contexts := tblSet x.contexts cid (parseCtx n g) }
        freeQueue (s.onQueue q fun x => { x with ctx := cid, ctxSet := true }) q

/-- SET_ENERGY (R342, R350). -/
def startEnergy (s : State) (q : QueueRef) (cap period : Nat) : State :=
  let p := (s.queue q).part.toFin
  let s := s.onDie q.d fun x => { setEnergy (stageNs s) p (BitVec.ofNat 64 (cap * 2 ^ 20 + period)) x with rem := x.rem.set p cap }
  freeQueue s q

/-! ### RESET_QUEUE (R352) -/

/-- The fence of a packet that holds its queue and would be discarded with it: a launch not yet judged, or a FLIP not started. -/
def heldFence (h : Option QueueHold) : Nat × Nat :=
  match h with
  | some (.packet (.grid p)) => (p.fence, p.fval)
  | some (.packet (.graph p)) => (p.fence, p.fval)
  | some (.packet (.flip p)) => (p.fence, p.fval)
  | _ => (0, 0)

/-- The FLIPs of a queue's launches discarded (R352). -/
def dropFlips (s : State) (ids : List Nat) : State :=
  let drop := fun h : Head => { h with flips := h.flips.filter fun f => !(ids.contains f.launch) }
  { s with dies := s.dies.map fun x : Die => { x with heads := x.heads.map drop } }

/-- ABORT of a queue (R352). -/
def abortQueue (s : State) (q : QueueRef) : State :=
  let x := s.queue q
  let (fence, fval) := heldFence x.hold
  let s := if awaitsAnswer s q then s.onDie q.d fun y => { y with
      spoolQ := y.spoolQ.filter fun r => !(r.master == .queue q), outst := y.outst.filter fun o => !(o.master == .queue q) } else s
  let s := s.onQueue q fun x => { x with st := .aborting, hold := none }
  let s := signalWord s q x.ctx (packetSeq s q) fence fval true false (s.die q.d).xts
  let mine := s.launches.filter (·.q == q)
  let flips := mine.filter fun l => l.nodes.isEmpty && !(s.cmds.any fun c => c.kind == .queue q l.id)
  let s := { s with launches := s.launches.map fun l => if l.q = q then { l with aborted := true } else l }
  let nodes := ((s.die q.d).nodes.filter fun n => n.q == q && !(nodeEnded n)).map fun n : Node => Victim.node q.d n.id
  let s := kill s nodes
  let cmds := (s.cmds.filter fun c => match c.kind with
    | .queue p _ => p == q
    | _ => false).map fun c : Cmd => c.id
  let s := cmds.foldl (fun s id => endCmd s id 1) s
  let s := dropFlips s (flips.map fun l : Launch => l.id)
  let s := flips.foldl (fun s l => completeLaunch s l.id true (s.die q.d).xts) s
  settleQueue s q

/-- RESET_QUEUE starts the teardown of its target (R352); its bound threads are told (R354). -/
def startReset (s : State) (q : QueueRef) (target : Fin 64) (abort : Bool) (addr value : Nat) : State :=
  let t : QueueRef := ⟨q.d, target⟩
  let s := raiseEvents s q.d (boundTo target) 8
  let s := freeQueue s q
  let x := s.queue t
  if x.st = .disabled ∨ x.st = .stopped ∨ x.st = .malformed then
    signalWord s q (s.queue q).ctx (packetSeq s q) addr value false false (s.die q.d).xts
  else
    let s := s.onQueue t fun x => { x with resets := x.resets ++ [⟨q, (s.queue q).ctx, packetSeq s q, addr, value⟩] }
    if abort then (if x.st = .aborting then s else abortQueue s t)
    else settleQueue (s.onQueue t fun x => { x with st := if x.st = .aborting then .aborting else .draining }) t

/-! ### WAIT_FENCE -/

/-- A WAIT_FENCE's word tested (R342, R344, R352): its queue goes on when it is satisfied; an aborted word aborts the queue under
ABORTDEP. -/
def testFence (s : State) (q : QueueRef) (addr value : Nat) (abortDep : Bool) : State :=
  let h := QueueHold.fence addr value abortDep
  match readDwords s (queueSpace s q) (queueParty s q) (BitVec.ofNat 64 addr) 1 with
  | (s, .error (a, r)) => packetFault s q h 0 a r
  | (s, .ok (bs, _)) =>
    let word := ofBytes bs
    if fenceMet word value then (if abortDep ∧ bitAt word 63 = true then abortQueue (freeQueue s q) q else freeQueue s q)
    else holdQueue s q h

/-! ### Names of the table's packet rows -/

def execLaunchGrid (q : QueueRef) (p : GridPacket) (s : State) : Out := .next (startGrid s q p)
def execCopy (q : QueueRef) (p : CopyPacket) (s : State) : Out := .next (startCopyPacket s q p)
def execWaitFence (q : QueueRef) (addr value : Nat) (abortDep : Bool) (s : State) : Out := .next (testFence s q addr value abortDep)
/-- WAIT_FENCE_SATISFIED: the word of the WAIT_FENCE that holds a queue is tested again. -/
def execWaitFenceSatisfied (q : QueueRef) (s : State) : Out :=
  match (s.queue q).hold with
  | some (.fence a v dep) => if awaitsAnswer s q then .next s else .next (testFence s q a v dep)
  | _ => .next s
def execSignalFence (q : QueueRef) (addr value : Nat) (s : State) : Out := .next (startSignal s q addr value)
def execFlip (q : QueueRef) (p : FlipPacket) (s : State) : Out := .next (startFlip s q p)
def execTimestamp (q : QueueRef) (addr : Nat) (s : State) : Out := .next (startStamp s q addr)
/-- QUEUE_BARRIER (R342). -/
def execQueueBarrier (q : QueueRef) (s : State) : Out :=
  .next (if allDone s q then freeQueue s q else holdQueue s q (.packet .barrier))
def execSetContext (q : QueueRef) (recAddr cid : Nat) (s : State) : Out := .next (startContext s q recAddr cid)
def execSetEnergy (q : QueueRef) (cap period : Nat) (s : State) : Out := .next (startEnergy s q cap period)
def execResetQueueDrain (q : QueueRef) (target : Fin 64) (addr value : Nat) (s : State) : Out :=
  .next (startReset s q target false addr value)
def execResetQueueAbort (q : QueueRef) (target : Fin 64) (addr value : Nat) (s : State) : Out :=
  .next (startReset s q target true addr value)
/-- NOP completes at once (R342). -/
def execNopPacket (q : QueueRef) (s : State) : Out := .next (freeQueue s q)

end Sys2Proof.Machine
end

