-- ==== Sys2Proof/Machine/Graphs.lean ====
section
/-! DEFINITION. LAUNCH_GRAPH: node tables, tensor tables and their refusal (17 R345 to R347), reading a queue's next packet (R338,
R339), and QHAND (R354). -/

namespace Sys2Proof.Machine

/-! ### Node entries (R345, R346) -/

/-- Fields of a node table entry. -/
def ntKind (e : Nat) : Nat := bits e 7 0
def ntNvar (e : Nat) : Nat := bits e 11 10
def ntNtile (e : Nat) : Nat := bits e 15 12
def ntNsucc (e : Nat) : Nat := bits e 23 16
def ntNpred (e : Nat) : Nat := bits e 31 24
def ntSucc (e : Nat) : List Nat := (List.range (ntNsucc e)).map fun k => bits e (640 + 12 * k + 11) (640 + 12 * k)
/-- Variant `v`: its 128 bits. -/
def ntVar (e v : Nat) : Nat := bits e (256 + 128 * v + 127) (256 + 128 * v)
def varKdesc (v : Nat) : Nat := bits v 57 0 * 64
def varTeams (v : Nat) : Nat := bits v 81 58
/-- Tile operand `k`: its 64 bits. -/
def ntTile (e k : Nat) : Nat := bits e (712 + 64 * k + 63) (712 + 64 * k)

/-- A node entry with a reserved bit or code, or a field out of its range (log entry 27). -/
def entryBad (e : Nat) : Bool :=
  let grid := ntKind e == 1
  bits e 1023 968 != 0 || bits e 63 32 != 0 || !(grid || ntKind e == 2) || decide (6 < ntNsucc e) || decide (4 < ntNtile e) ||
  bits e 191 128 % 8 != 0 ||
  (grid && (ntNvar e == 0 || (List.range 3).any fun v =>
    if v < ntNvar e then varTeams (ntVar e v) == 0 else ntVar e v != 0)) ||
  ((List.range 6).any fun k => decide (ntNsucc e ≤ k) && bits e (640 + 12 * k + 11) (640 + 12 * k) != 0) ||
  (List.range 4).any fun k => if k < ntNtile e then bits (ntTile e k) 63 60 != 0 else ntTile e k != 0

/-- The variants' kernel descriptor addresses of a node; a join has none. -/
def entryKernels (e : Nat) : List Nat := if ntKind e = 1 then (List.range (ntNvar e)).map fun v => varKdesc (ntVar e v) else []

/-- In-edges of each node, counted from the SUCC lists (R347). -/
def inEdges (es : List Nat) (n : Nat) : Nat := (es.flatMap ntSucc).count n

/-- Nodes left after those with no in-edge among the rest are taken away, again and again: none when the edges form no cycle. -/
def peel (es : List Nat) : Nat → List Nat → List Nat
  | 0, left => left
  | fuel + 1, left =>
    peel es fuel (left.filter fun n => left.any fun m => (ntSucc (es.getD m 0)).contains n)

/-- A node table refused before its kernels are judged (R347). -/
def tableBad (es : List Nat) (tensors : Nat) : Bool :=
  let n := es.length
  es.any entryBad || (es.zipIdx).any (fun e => inEdges es e.2 != ntNpred e.1) || (es.flatMap ntSucc).any (fun k => decide (n ≤ k)) ||
  !(peel es n (List.range n)).isEmpty || (tensors == 0 && es.any fun e => ntNtile e != 0)

/-- First byte of a tile operand, from its tensor's entry (R346). -/
def tileAddr (tensor tile : Nat) : Nat :=
  bits tensor 63 0 + bits tile 35 12 * bits tensor 143 128 * bits tensor 111 64 + bits tile 59 36 * (bits tensor 159 144 <<< bits tensor 163 160)

/-! ### Starting a graph -/

/-- The node table read, entry by entry. -/
def readEntries (q : QueueRef) (p : Packet) (base : Nat) : Nat → State → List Nat → (State → List Nat → State) → State
  | 0, s, acc, k => k s acc
  | n + 1, s, acc, k => readFor s q p (base + 128 * acc.length) 16 fun s e => readEntries q p base n s (acc ++ [e]) k

/-- The tensor of each node's first tile, 0 for a node with none or a graph with no tensor table. -/
def readTensors (q : QueueRef) (p : Packet) (tensors : Nat) : List Nat → State → List Nat → (State → List Nat → State) → State
  | [], s, acc, k => k s acc
  | e :: es, s, acc, k =>
    if tensors = 0 ∨ ntNtile e = 0 ∨ 4 < ntNtile e then readTensors q p tensors es s (acc ++ [0]) k
    else readFor s q p (tensors + 32 * bits (ntTile e 0) 11 0) 4 fun s t => readTensors q p tensors es s (acc ++ [t]) k

/-- A kernel that refuses a graph (R347): with the TEAMS of its variant. -/
def variantBad (s : State) (q : QueueRef) (teams : Nat) (k : KDesc) : Bool :=
  kernelMalformed k || teams % (k.cw * k.ch) != 0 || kernelNever s q k

/-- Kernels dealt out to the entries in order. -/
def dealKernels : List Nat → List KDesc → List (Nat × List KDesc)
  | [], _ => []
  | e :: es, ks =>
    let n := (entryKernels e).length
    (e, ks.take n) :: dealKernels es (ks.drop n)

/-- The variants of a node. -/
def entryVariants (e : Nat) (ks : List KDesc) : List Variant :=
  (ks.zipIdx).map fun k =>
    let v := ntVar e k.2
    { kernel := k.1, teams := varTeams v, cyc := bits v 105 82, energy := bits v 127 106 }

/-- Node `i` of a graph whose nodes' identities begin at `base` (R345, R348). -/
def graphNode (s : State) (q : QueueRef) (base launch : Nat) (rsb : Option RasterState) (i : Nat) (e : Nat) (ks : List KDesc)
    (tensor : Nat) : Node :=
  { id := base + i, q, origin := .launch launch i, join := ntKind e == 2, cls := bits e 9 8, deadline := bits e 127 64,
    args := bits e 255 192, fence := bits e 191 128, fval := 1, ctx := (s.queue q).ctx, part := (s.queue q).part.toNat,
    preds := ntNpred e, succ := (ntSucc e).map (base + ·), variants := entryVariants e ks, chosen := none,
    tile := if ntNtile e = 0 then none else some (tileAddr tensor (ntTile e 0)), pref := none, start := (s.die q.d).xts, st := .pending,
    readyAt := stageNs s, passed := none, seq := packetSeq s q, placed := 0, ended := 0, killed := false, aborted := false, doneAt := none, near := none, rsb, tts := 0, fragTeams := [], init := none }

/-- A judged graph enters the swift (R342, R348): joins with no predecessor are done at once. -/
def enterGraph (s : State) (q : QueueRef) (p : GraphPacket) (l : List (Nat × List KDesc)) (tensors : List Nat) (rsb : Option RasterState) :
    State :=
  let base := s.nextId
  let n := l.length
  let s := { s with nextId := base + n }
  let (s, launch) := openLaunch s q true p.fence p.fval ((List.range n).map (base + ·))
  let nodes := (l.zipIdx).map fun e => graphNode s q base launch rsb e.2 e.1.1 e.1.2 (tensors.getD e.2 0)
  let s := s.onDie q.d fun x => { x with nodes := x.nodes ++ nodes }
  finishNodes s q.d ((nodes.filter fun m : Node => m.join && m.preds == 0).map fun m : Node => (m.id, false))

/-- A graph judged in the order of R343. -/
def judgeGraph (s : State) (q : QueueRef) (p : GraphPacket) (es : List Nat) (tensors : List Nat) (ks : List KDesc)
    (rsb : Option (Option RasterState)) : State :=
  let l := dealKernels es ks
  let bad := tableBad es p.tensors || l.any fun e => (entryVariants e.1 e.2).any fun v => variantBad s q v.teams v.kernel
  match rsb with
  | some none => refusePacket s q 4
  | some (some r) => if bad then refusePacket s q 3 else enterGraph s q p l tensors (some r)
  | none => if bad then refusePacket s q 3 else enterGraph s q p l tensors none

/-- LAUNCH_GRAPH starts (R342, R347). -/
def startGraph (s : State) (q : QueueRef) (p : GraphPacket) : State :=
  readEntries q (.graph p) p.nodes (p.ncnt + 1) s [] fun s es =>
    readTensors q (.graph p) p.tensors es s [] fun s tensors =>
      readKernels q (.graph p) (es.flatMap entryKernels) s [] fun s ks =>
        readRsb s q (.graph p) p.rsb fun s rsb => judgeGraph s q p es tensors ks rsb
def execLaunchGraph (q : QueueRef) (p : GraphPacket) (s : State) : Out := .next (startGraph s q p)

/-! ### Reading a queue -/

/-- A packet starts (R342). -/
def startPacket (s : State) (q : QueueRef) (p : Packet) : State :=
  match p with
  | .grid p => startGrid s q p
  | .graph p => startGraph s q p
  | .copy p => startCopyPacket s q p
  | .waitFence a v dep => testFence s q a v dep
  | .signalFence a v => startSignal s q a v
  | .flip p => startFlip s q p
  | .timestamp a => startStamp s q a
  | .barrier => if allDone s q then freeQueue s q else holdQueue s q (.packet .barrier)
  | .setContext a c => startContext s q a c
  | .setEnergy c p => startEnergy s q c p
  | .reset t ab a v => startReset s q t ab a v
  | .nop => freeQueue s q

/-- A queue may read its next packet (R338, R342). -/
def queueReads (x : Queue) : Bool := x.en && (x.st == .idle || x.st == .run) && x.err == 0 && x.hold.isNone && !x.full && !x.unwritten && x.head != x.pub

/-- What a slot holds for sequence `s` (R338). -/
inductive SlotKind where
  | unwritten
  | taken
  | malformed
  deriving DecidableEq, Repr

/-- A slot judged by its first and last dwords (R338). -/
def judgeSlot (seq : BitVec 32) (n : Nat) : SlotKind :=
  let a := BitVec.ofNat 32 (bits n 63 32)
  if n % 256 = 0 ∨ ahead32 seq a = true then .unwritten
  else if a = seq ∧ BitVec.ofNat 32 (bits n 511 480) = seq then .taken
  else .malformed

/-- A taken packet judged by its own fields and started (R342, R343). -/
def takePacket (s : State) (q : QueueRef) (n : Nat) : State :=
  let s := s.onQueue q fun x => restState { x with head := x.head + 1 }
  if (s.queue q).ctxSet = false ∧ packetNeedsCtx n = true then refusePacket s q 7
  else match parsePacket n with
    | none => refusePacket s q 2
    | some p => startPacket s q p

/-- A slot's 64 bytes acted on (R338): an unwritten one is read again after the next NOTIFY write. -/
def actOnSlot (s : State) (q : QueueRef) (n : Nat) : State :=
  match judgeSlot (s.queue q).head n with
  | .unwritten => s.onQueue q fun x => { x with unwritten := true }
  | .malformed => s.onQueue q fun x => { x with st := .malformed, err := 1, hold := none }
  | .taken => takePacket s q n

/-- The address of a queue's next slot (R336). -/
def slotAddr (x : Queue) : Nat := x.rbase.toNat + 64 * (x.head.toNat % 2 ^ x.log2n.toNat)

/-- The bound thread's service of a queue: the packet at HEAD read (R338). -/
def serveQueue (s : State) (q : QueueRef) : State :=
  if queueReads (s.queue q) then
    let (s, bs) := physRead s q.d (slotAddr (s.queue q)) 64
    actOnSlot s q (ofBytes bs)
  else s

/-- A held queue's hold may end: its word may satisfy, its packet may start (R342, R437). -/
def holdOver (s : State) (q : QueueRef) : Bool :=
  if awaitsAnswer s q then false
  else match (s.queue q).hold with
    | none => false
    | some (.fence a v _) =>
      match (readDwords s (queueSpace s q) (queueParty s q) (BitVec.ofNat 64 a) 1).2 with
      | .error _ => true
      | .ok (bs, _) => fenceMet (ofBytes bs) v
    | some (.packet p) =>
      match p with
      | .flip f => allDone s q && !(headHen (s.head q.d f.dhead) && decide (4 ≤ (s.head q.d f.dhead).flips.length))
      | .barrier | .signalFence _ _ | .timestamp _ | .setContext _ _ => allDone s q
      | _ => true

/-- A queue's hold tried again. -/
def retryHold (s : State) (q : QueueRef) : State :=
  match (s.queue q).hold with
  | some (.packet p) => startPacket s q p
  | some (.fence a v dep) => testFence s q a v dep
  | none => s

/-! ### QHAND (R354) -/

/-- What QHAND writes after a packet was handed over: 0 accepted, 1 pool full, 2 with the ERR code. -/
def handAnswer (s : State) (q : QueueRef) : Word :=
  let x := s.queue q
  if x.st = .malformed then BitVec.ofNat 64 (2 + x.err.toNat * 256) else if x.full then 1 else 0

/-- QHAND with SEL 0: the packet in the slot at physical x[A] is handed over for the bound queue; where that queue reads no packet,
or the slot is not written, the spec states no answer and x[D] takes a free value (log entry 28). -/
def execQhandPacket (f : FmtS) (s : State) : Out :=
  onThreadOnly s (.qhandPacket f) fun d t =>
    let q : QueueRef := ⟨d, (s.die d).tctl[t].queue⟩
    let free := fun s : State =>
      let v := Config.deviceRead s.freeCtr 0
      let s := { s with freeCtr := s.freeCtr + 1 }
      answer s (retire (writeX s.cur f.d v))
    if queueReads (s.queue q) then
      let (s, bs) := physRead s d (readX s.cur f.a).toNat 64
      if judgeSlot (s.queue q).head (ofBytes bs) = .unwritten then free (actOnSlot s q (ofBytes bs))
      else
        let s := actOnSlot s q (ofBytes bs)
        answer s (retire (writeX (acquireFence s.cur) f.d (handAnswer s q)))
    else free s

/-- The graph launch a packet in a slot made: the bound queue's launch of its sequence. -/
def graphLaunch (s : State) (q : QueueRef) (n : Nat) : Option Launch :=
  s.launches.find? fun l => l.q == q && l.graph && l.seq == BitVec.ofNat 32 (bits n 63 32)

/-- QHAND with SEL 1 hands over node x[B] of the graph whose packet is at x[A]: a node with no unended predecessor enters the pool where
a slot is free. Where no such node waits, the spec states no answer and x[D] takes a free value (log entry 28). -/
def execQhandNode (f : FmtS) (s : State) : Out :=
  onThreadOnly s (.qhandNode f) fun d t =>
    let q : QueueRef := ⟨d, (s.die d).tctl[t].queue⟩
    let (s, bs) := physRead s d (readX s.cur f.a).toNat 64
    let k := bits (readX s.cur f.b).toNat 11 0
    match (graphLaunch s q (ofBytes bs)).bind fun l => l.nodes[k]? with
    | some id =>
      let s := s.onDie d fun x => admitNode (stageNs s) x id
      let full : Bool := match (s.die d).findNode id with
        | some n => n.st == .pending && n.preds == 0 && !n.join && poolFree (s.die d) == 0
        | none => false
      answer s (retire (writeX (acquireFence s.cur) f.d (if full then 1 else 0)))
    | none =>
      let v := Config.deviceRead s.freeCtr 0
      let s := { s with freeCtr := s.freeCtr + 1 }
      answer s (retire (writeX s.cur f.d v))

end Sys2Proof.Machine
end

