-- ==== Sys2Proof/Machine/ReelFlits.lean ====
section
/-! DEFINITION. Stage copies: CPYT, the flits that leave and arrive, and their ends (08 R182 to R184; 20 R402, R405, R407 to
R409). DEDUCED, unsafe: the receiver, log entry 33; times in units of 10 ps, log entry 43. -/

namespace Sys2Proof.Machine

/-! ### CPYT (R182, R183) -/

def stageBytes (r : BitVec 512) : Nat := recBits r 287 256
def stageSrc (r : BitVec 512) : Nat := recBits r 191 128
def stageDst (r : BitVec 512) : Nat := recBits r 255 192
def stageInSpd (r : BitVec 512) : Bool := recBits r 8 8 == 1
/-- NFLITS of a copy (R402). -/
def stageFlits (r : BitVec 512) : Nat := ceilDiv (stageBytes r) 208

/-- The sub-cause with which a stage body fails (R171, R182). -/
def stageBodySub (r : BitVec 512) : Option Nat :=
  let n := stageBytes r
  if recBits r 511 336 ≠ 0 ∨ recBits r 307 288 ≠ 0 then some 2
  else if n < 16 ∨ 16777216 < n ∨ n % 16 ≠ 0 ∨ stageSrc r % 16 ≠ 0 ∨ stageDst r % 16 ≠ 0 ∨
      (recBits r 335 335 = 0 ∧ recBits r 334 308 ≠ 0) then some 3
  else none

/-- The lowest byte of an .spd source beyond SCRATCH (R182). -/
def stageOutside (r : BitVec 512) (scratch : Nat) : Option Word :=
  if stageInSpd r ∧ scratch < stageSrc r + stageBytes r then some (BitVec.ofNat 64 (max (stageSrc r) scratch)) else none

/-- The stream of a stage copy. -/
def cmdStream (c : Cmd) : Option Nat :=
  match c.kind with
  | .stage n => some n
  | _ => none

/-- Flits a copy has sent on a link. -/
def sentOn (c : Cmd) (l : Nat) : Nat := tblGetD c.sent l 0
/-- The table in force lets a stream use a link (R405, R406). -/
def usesLink (s : State) (stream l : Nat) : Bool :=
  match s.reel.table with
  | some t => bitAt (txLinks (streamEntry t stream)) l
  | none => false
/-- Flits of a stream queued for a link: Q_l of R407. -/
def queuedFlits (s : State) (stream l : Nat) : Nat :=
  if usesLink s stream l then
    (s.cmds.filter fun c => cmdStream c == some stream).foldl (fun n c => n + (stageFlits c.record - sentOn c l)) 0
  else 0

/-- A stage copy joins its stream; the warp holds its promise (R182, R183). -/
def enterStage (s : State) (c : Cmd) (t : Memory) (stream : Nat) : State × Word :=
  let promise := promiseFor s t stream (stageFlits c.record) (queuedFlits s stream)
  let n := tblGetD s.reel.copyNos stream 0
  let c := { c with promise, copyNo := n, since := stageNs s + 2000, sent := (streamLinks t stream).map fun l => (l.val, 0) }
  let s := { s with reel := { s.reel with copyNos := tblSet s.reel.copyNos stream ((n + 1) % 4096) } }
  let s := enterCmd s c
  ({ s with cur := { s.cur with promises := s.cur.promises ++ [(stream, promise, n)] } }, BitVec.ofNat 64 promise)

/-- CPYT (R171, R182). A ninth promise waits. -/
def execCpyt (f : FmtE) (s : State) : Out :=
  let (d, c) := (agentDie s.cur.who, (agentCore s.cur.who).getD 0)
  let r := slotRecord s.cur f
  let stream := f.stream.toNat
  match headerSub 2 (s.cur.cw * s.cur.ch) r, stageBodySub r with
  | some k, _ => illegal s k (.cpyt f)
  | none, some k => illegal s k (.cpyt f)
  | none, none =>
    match s.reel.table with
    | none => answer s (retire (writeX s.cur f.d 0))
    | some t =>
      if s.reel.st ≠ .run ∨ streamGranted s stream s.cur.ctx = false then answer s (retire (writeX s.cur f.d 0))
      else if 8 ≤ s.cur.promises.length then answer s { s.cur with status := .held .promises }
      else match stageOutside r (curScratch s) with
        | some a => .next (freezeTeam s cBounds 0xFF a)
        | none => acceptRecord s d c (.stage stream) 0 r fun s c =>
            let (s, p) := enterStage s c t stream
            answer s (retire (writeX s.cur f.d p))

/-! ### Flits (R402) -/

/-- An idle flit of a slot: TYPE 0, and bytes 8 to 247 zero. Its bytes 0 to 7 hold SLOT alone (log entry 43). -/
def idleFlit (slot : Nat) : BitVec 2048 :=
  let body := toBytes (slot % 4096 * 16) 8 ++ toBytes 0 240
  BitVec.ofNat 2048 (ofBytes (body ++ toBytes (crc64 body) 8))

/-- A data flit: header dwords, CYC, payload bytes, CRC. Bytes of the payload that are not valid are free values from `seed`
(log entry 10). -/
def buildFlit (seed slot stream copy fidx nflits dst rec3 cyc : Nat) (last : Bool) (payload : List Byte) : BitVec 2048 :=
  let units := payload.length / 16
  let h0 := 1 + (slot % 4096) * 16 + stream % 65536 * 2 ^ 16 + copy * 2 ^ 32 + fidx * 2 ^ 44 +
    (if last then 2 ^ 62 else 0)
  let h2 := rec3 + nflits * 2 ^ 28 + units * 2 ^ 46
  let head := toBytes h0 8 ++ toBytes dst 8 ++ toBytes h2 8 ++ toBytes cyc 8
  let body := head ++ (payload ++ (List.range (208 - payload.length)).map (Config.padByte seed)) ++ toBytes 0 8
  BitVec.ofNat 2048 (ofBytes (body ++ toBytes (crc64 body) 8))

/-! ### Transmission (R405) -/

/-- The copy of a stream whose flit leaves next on a link: the first in CPYT order with flits unsent there, when it runs. -/
def nextOnLink (s : State) (stream l : Nat) : Option Cmd :=
  match s.cmds.find? fun c => cmdStream c == some stream && usesLink s stream l && decide (sentOn c l < stageFlits c.record) with
  | some c => if c.st = .running ∧ cmdMayRun s c = true ∧ streamGranted s stream c.ctx = true then some c else none
  | none => none

/-- The next slot a link carries a flit in, with its copy: the earliest over the streams queued (R405). -/
def nextFlit (s : State) (l : Fin 8) : Option (Nat × Cmd) :=
  match s.reel.table with
  | none => none
  | some t =>
    let streams := distinct (s.cmds.filterMap cmdStream)
    let all := streams.filterMap fun n =>
      match nextOnLink s n l.val with
      | none => none
      | some c =>
        let g := grantedSlots t l.val n
        if g = [] then none
        else
          let from_ := max (slotStart (s.reel.links[l]).nextSlot) (c.since * 100)
          some (slotAfter (nthSlotEnd g from_ 1 - 256), c)
    all.foldl (fun b x => match b with
      | none => some x
      | some y => if x.1 < y.1 then some x else some y) none

/-- A link carries data (R400, R403). -/
def linkRuns (s : State) (l : Fin 8) : Bool := s.reel.st == .run && (s.reel.links[l]).up

/-- The flits' times that have ended in the gap after a second's last slot, none outside the gap (R401). -/
def gapEnded (t : Nat) : Option Nat :=
  let r := (t - 256) % 100000000000
  if 256 ≤ t ∧ 95367 * 1048576 ≤ r then some ((r - 95367 * 1048576) / 256) else none

/-- The flit that a link carried in the latest slot that has ended: its time flit while it trains, its data flit while it runs, where
that left in this slot; an idle one else, and in the gap at the end of a second (R400 to R403, R405). -/
def flitOn (s : State) (l : Fin 8) : BitVec 2048 :=
  let x := s.reel.links[l]
  let ended := slotEnded (stageTicks s)
  match gapEnded (stageTicks s) with
  | some k => idleFlit k
  | none =>
    let shows := x.lastSlot == some ended && (if x.training then x.lastFlit.toNat % 16 == 2 else linkRuns s l && x.lastFlit.toNat % 16 == 1)
    if shows then x.lastFlit else idleFlit ended

/-- A flit is due on a link: its slot has passed. -/
def slotDue (s : State) (l : Fin 8) : Option (Nat × Cmd) :=
  if linkRuns s l then
    match nextFlit s l with
    | some (n, c) => if slotStart n + 256 ≤ stageTicks s then some (n, c) else none
    | none => none
  else none

/-- Bytes of a stage copy's source (R182). -/
def stageRead (s : State) (c : Cmd) (off n : Nat) : State × Except CmdStop (List Byte) :=
  if stageInSpd c.record then
    match s.findTeam c.team with
    | none => (s, .ok [])
    | some t =>
      match softHit s ((dwordsOf (stageSrc c.record + off) n).map (ErrSite.scratch t.id)) with
      | some e => (s, .error (.bad e))
      | none => let (s, bs) := spdFetch s t (cmdWait s c) (stageSrc c.record + off) n; (s, .ok bs)
  else cmdRead s c (stageSrc c.record + off) n

/-- A slot's flit leaves; a source fault pauses the copy and the slot stays idle (R183). -/
def transmit (s : State) (l : Fin 8) (n : Nat) (c : Cmd) : State :=
  let i := sentOn c l.val
  let len := min 208 (stageBytes c.record - 208 * i)
  let s := (chargeTo s none).onLink l fun x => { x with nextSlot := n + 1 }
  let s := if stageInSpd c.record then s else (cmdMesh s c (stageSrc c.record + 208 * i) len).1
  match stageRead s c (208 * i) len with
  | (s, .error e) => stopCmd (chargeTo s (cmdPayer s c)) c e
  | (s, .ok bs) =>
    let s := chargeTo (s.onDie c.d fun x => workUp x 12 1) (cmdPayer s c)
    let nf := stageFlits c.record
    let flit := buildFlit s.freeCtr (n % 4096) ((cmdStream c).getD 0) c.copyNo i nf ((stageDst c.record + 208 * i) % 2 ^ 64)
      (recBits c.record 335 308) (cycOf n) (i + 1 == nf) bs
    let s := { s.onLink l fun x => { x with lastFlit := flit, lastSlot := some n } with freeCtr := s.freeCtr + 1 }
    s.onCmd c.id fun c => { c with sent := tblSet c.sent l.val (i + 1) }

/-- SLOT_TRANSMIT (R405). -/
def execSlotTransmit (l : Fin 8) (s : State) : Out :=
  .next (match slotDue s l with
    | some (n, c) => transmit s l n c
    | none => s)

/-- The links a stage copy is sent on: its stream's in the table in force where that grants the stream, else those it has used
(R406). -/
def cmdLinks (s : State) (c : Cmd) : List Nat :=
  let n := (cmdStream c).getD 0
  if streamGranted s n c.ctx then (List.range 8).filter (usesLink s n) else c.sent.map (·.1)
/-- Every flit of a stage copy has left on every link (R183). -/
def stageSent (s : State) (c : Cmd) : Bool := (cmdLinks s c).all fun l => decide (stageFlits c.record ≤ sentOn c l)

/-- STAGE_COPY_COMPLETE (R183). -/
def execStageCopyComplete (cmd : Nat) (s : State) : Out :=
  .next (match s.findCmd cmd with
    | some c => if (cmdStream c).isSome ∧ c.st = .running ∧ stageSent s c then endCmd s cmd 0 else s
    | none => s)

/-! ### Reception (R184, R408, R409) -/

/-- A field of a flit. -/
def flitBits (f : BitVec 2048) (hi lo : Nat) : Nat := bits f.toNat hi lo

/-- The slot a flit names, counted over all cycles. -/
def flitSlot (s : State) (f : BitVec 2048) : Nat :=
  (s.stage.sec / 2 ^ 47 * 2 ^ 47 + flitBits f 255 209) * slotsPerSecond + flitBits f 208 192 * 4096 + flitBits f 15 4

/-- A flit is handled (R408). -/
def flitGood (s : State) (l : Fin 8) (f : BitVec 2048) : Bool :=
  let n := flitSlot s f
  let at_ := slotStart n + (s.reel.links[l]).lat * 100
  let now := stageTicks s
  decide (crc64 (toBytes f.toNat 248) = flitBits f 2047 1984) && flitBits f 3 0 == 1 &&
  flitBits f 1983 1920 == 0 && flitBits f 191 178 == 0 && flitBits f 63 63 == 0 && decide (flitBits f 208 192 < 95367) &&
  decide (at_ ≤ now + 2000) && decide (now ≤ at_ + 2000) &&
  decide (flitBits f 31 16 < 1024) &&
  (match s.reel.table with
   | some t => rxEn (streamEntry t (flitBits f 31 16))
   | none => false)

/-- The arrival at a copy's end (R184, R409). -/
def closeRx (s : State) (stream : Nat) : State :=
  match tblGet s.reel.rx stream with
  | none => s
  | some x =>
    let s := { s with reel := { s.reel with rx := tblErase s.reel.rx stream } }
    if x.ren then
      let ctx := match s.reel.table with
        | some t => rxCtx (streamEntry t stream)
        | none => 0
      { s with knotQ := s.knotQ ++ [{ home := .far x.rknot, op := .arrive x.rinc (x.lost || decide (x.handled < x.nflits)),
                                      src := none, ctx, d := 0, time := 0, note := none, cmdTeam := none, recv := some stream }] }
    else s

/-- The die through which a link's receiver translates: the one it attaches to, when it has the context loaded (R399). -/
def rxDie (s : State) (l : Fin 8) (ctx : Nat) : Fin 2 :=
  let d := dieOf (l.val / 4)
  if (tblGet (s.die d).contexts ctx).isSome then d else if (tblGet (s.die (otherDie d)).contexts ctx).isSome then otherDie d else d

/-- Bytes of a flit written by its receiver at their homes (R382 I/O write). -/
def rxStore (s : State) : List (Phys × Nat) → List Byte → State
  | [], _ => s
  | (ph, n) :: t, bs =>
    let s := if inPool ph.pa then ioStore s ph.pa (bs.take n) else busStoreWindow s ph.pa (bs.take n)
    rxStore s t (bs.drop n)

/-- A handled flit's bytes written, or its advisory record posted (R184): whether it was written. -/
def rxWrite (s : State) (l : Fin 8) (f : BitVec 2048) : State × Bool :=
  let stream := flitBits f 31 16
  let ctx := match s.reel.table with
    | some t => rxCtx (streamEntry t stream)
    | none => 0
  let d := rxDie s l ctx
  let n := min 208 (16 * flitBits f 177 174)
  match reachParts none s ⟨d, ctx, ctxPpn s d ctx⟩ .write true (dwordParts (n + 1) (flitBits f 127 64) n) with
  | (s, .error (va, r)) => (recvRecord s d stream ctx va r, false)
  | (s, .ok parts) => (rxStore s parts (toBytes (flitBits f 1919 256) n), true)

/-- A copy number comes later than another, by half of the numbers' range (R402, R409; log entry 33). -/
def laterCopy (a b : Nat) : Bool := decide ((a + 4096 - b) % 4096 < 2048)

/-- The open copy of the stream a flit belongs to: a later one closes an older, and a flit of an earlier copy than the open one belongs
to none (R409). -/
def rxOpen (s : State) (f : BitVec 2048) : State × Option RxCopy :=
  let stream := flitBits f 31 16
  let fresh : RxCopy := { copy := flitBits f 43 32, handled := 0, nflits := flitBits f 173 156, lost := false,
                          ren := flitBits f 155 155 == 1, rinc := flitBits f 154 140, rknot := flitBits f 139 128, lastAt := 0 }
  match tblGet s.reel.rx stream with
  | some x => if x.copy = fresh.copy then (s, some x) else if laterCopy fresh.copy x.copy then (closeRx s stream, some fresh) else (s, none)
  | none => (s, some fresh)

/-- A handled flit (R408, R409). -/
def rxHandle (s : State) (l : Fin 8) (f : BitVec 2048) : State :=
  let stream := flitBits f 31 16
  let (s, x) := rxOpen s f
  let (s, ok) := rxWrite s l f
  match x with
  | none => s
  | some x =>
    let x := { x with handled := x.handled + 1, lost := x.lost || !ok, lastAt := stageTicks s }
    let s := { s with reel := { s.reel with rx := tblSet s.reel.rx stream x } }
    if flitBits f 62 62 = 1 then closeRx s stream else s

/-- FLIT_RECEIVE: a flit that is not handled is counted in RXBAD (R408). -/
def execFlitReceive (l : Fin 8) (flit : BitVec 2048) (s : State) : Out :=
  .next (if flitGood s l flit then rxHandle s l flit
    else s.onLink l fun x => { x with rxBad := min (2 ^ 32 - 1) (x.rxBad + 1) })

/-- Two whole cycles have passed since a stream's last handled flit (R409). -/
def rxStale (s : State) (x : RxCopy) : Bool :=
  decide (slotStart (cycleAfter (x.lastAt + 1) + 8191) + 256 ≤ stageTicks s)

/-- RECEIVER_TIMEOUT (R409). -/
def execReceiverTimeout (stream : Nat) (s : State) : Out :=
  .next (match tblGet s.reel.rx stream with
    | some x => if rxStale s x then closeRx s stream else s
    | none => s)

end Sys2Proof.Machine
end

