-- ==== Sys2Proof/Machine/Fetch.lean ====
section
/-! DEFINITION. Fetching and decoding the next instruction of the issuing agent (05 R100; 03 R57, R72 to R74; 17 R353; 19
R389). -/

namespace Sys2Proof.Machine

/-- What a fetch came to: an instruction, a word that is no instruction with its sub-cause, a failed translation, or a sector with an
uncorrectable error. -/
inductive Fetched where
  | instr (i : Instr)
  | bad (sub : Nat) (w : Word)
  | fault (reason : Nat)
  | lost (sector : Nat)
  deriving DecidableEq, Repr

/-- The word at the issuing agent's PC (R100): a warp's through its tables, a thread's from its die's distaff memory. A fetch
from a window answers a free value (log entry 11). -/
def fetchWord (s : State) : State × Except Nat Word :=
  match s.cur.who with
  | .thread d _ => (s, .ok (BitVec.ofNat 64 ((s.die d).dmem.num s.cur.pc.toNat 8)))
  | .warp d _ _ _ =>
    match translateFor s s.cur s.cur.pc .fetch with
    | (s, .error r) => (s, .error r)
    | (s, .ok ph) =>
      if !(inPool ph.pa) then
        let (s, bs) := outsideBytes s ph.pa 8
        (s, .ok (BitVec.ofNat 64 (ofBytes bs)))
      else if ph.kind = .pma then
        let (s, bs) := dieLoad (meshFlits s d 1) d (agentPart s s.cur.who) ph.pa 8
        (s, .ok (BitVec.ofNat 64 (ofBytes bs)))
      else (s, .ok (BitVec.ofNat 64 (s.mem.num ph.pa 8)))

/-- The sector a warp's fetch finds uncorrectable (R429). -/
def fetchLost (s : State) : Option Nat :=
  if s.softErrs = [] ∨ isThread s.cur.who then none
  else match (translateFor s s.cur s.cur.pc .fetch).2 with
    | .error _ => none
    | .ok ph => if inPool ph.pa && s.softErrs.contains (.sector (ph.pa / 32)) then some (ph.pa / 32) else none

/-- The next instruction of the issuing agent (R57, R71, R73). -/
def fetchInstr (s : State) : State × Fetched :=
  match fetchLost s, fetchWord s with
  | some sec, (s, _) => (unhold (agentDie s.cur.who) s sec, .lost sec)
  | none, (s, .error r) => (s, .fault r)
  | none, (s, .ok w) =>
    match decodeFor (isThread s.cur.who) w with
    | .error c => (s, .bad c w)
    | .ok i => (s, .instr i)

/-- A failed fetch: a recoverable fault of access kind fetch (R100). -/
def fetchFault (s : State) (reason : Nat) : State := memFault s (accessCode .fetch) [(0, s.cur.pc, reason)] false

end Sys2Proof.Machine
end

