-- ==== Sys2Proof/Machine/Hazards.lean ====
section
/-! DEFINITION. The registers each instruction reads and writes, as its entry gives its operands (chapters 05 to 08), and
what R28, R151 and R429 make of them at issue. -/

namespace Sys2Proof.Machine

/-- The registers an instruction reads and writes. -/
structure Uses where
  reads : List RegRef
  writes : List RegRef
  deriving DecidableEq, Repr

/-- Registers of a vector operand of a type: a pair for 64 bits (R117). -/
def typeGroup (t : BitVec 4) : Nat := if tyWidth t = 64 then 2 else 1
/-- Source B of a vector form: x[B] when broadcast (R117). -/
def bOf (f : FmtA) (g : Nat) : List RegRef := if f.bx = 1 then xOf f.b else vOf f.b g
/-- The codebook, where an operand is cb4 (R46). -/
def cbOf (f : FmtA) : List RegRef := if f.ty = 14 ∨ f.ty2 = 14 then [.cb] else []
/-- Groups of a conversion's destination and source (R127). -/
def cvtGroups (f : FmtA) : Nat × Nat :=
  let wd := tyWidth f.ty
  let ws := tyWidth f.ty2
  if ws < wd then (wd / ws, 1) else if wd < ws then (1, ws / wd) else (typeGroup f.ty, typeGroup f.ty)

/-- Shapes of operands that several instructions share: scalar A and B into D; A alone; vector A and B, or A alone, into D. -/
def usesAB (f : FmtA) : Uses := ⟨xOf f.a ++ xOf f.b, xOf f.d⟩
def usesA (f : FmtA) : Uses := ⟨xOf f.a, xOf f.d⟩
def usesI (f : FmtI) : Uses := ⟨xOf f.a, xOf f.d⟩
def usesVAB (f : FmtA) : Uses :=
  let g := typeGroup f.ty
  ⟨vOf f.a g ++ bOf f g ++ predOf f.pm, vOf f.d g⟩
def usesVA (f : FmtA) : Uses := ⟨vOf f.a (typeGroup f.ty) ++ predOf f.pm, vOf f.d (typeGroup f.ty)⟩
def usesVABC (f : FmtA) : Uses := ⟨vOf f.a 1 ++ bOf f 1 ++ vOf f.c 1 ++ predOf f.pm, vOf f.d 1⟩
def usesCmp (f : FmtA) : Uses := ⟨vOf f.a (typeGroup f.ty) ++ bOf f (typeGroup f.ty) ++ predOf f.pm, mOf f.d⟩
def usesMask (f : FmtA) : Uses := ⟨mOf f.a ++ mOf f.b ++ predOf f.pm, mOf f.d⟩
def usesIndex (f : FmtM) : List RegRef := vOf f.b (if f.space = 0 ∧ f.a = 0 then 2 else 1)
def usesAtom (f : FmtM) : Uses := ⟨xOf f.d ++ xOf f.a ++ xOf f.b, xOf f.d⟩
def usesVatom (f : FmtM) : Uses := ⟨vOf f.d 1 ++ xOf f.a ++ usesIndex f ++ predOf f.pm, vOf f.d 1⟩
def usesS (f : FmtS) : Uses := ⟨xOf f.a ++ xOf f.b, xOf f.d⟩
def usesK (f : FmtK) : Uses := ⟨xOf f.a ++ xOf f.b, xOf f.d⟩

/-- What an instruction reads and writes. Events use no register. -/
def uses : Instr → Uses
  | .add f | .sub f | .mul f | .mulh f | .div f | .rem f | .and f | .or f | .xor f | .andn f | .shl f | .shr f
  | .sar f | .rol f | .ror f | .min f | .max f | .bfx f | .addsh f | .cmp f | .fadd f | .fsub f | .fmul f | .fdiv f
  | .fmin f | .fmax f | .fcmp f => usesAB f
  | .clz f | .ctz f | .popc f | .brev f | .mov f | .fcvt f => usesA f
  | .addImm f | .mulImm f | .andImm f | .orImm f | .xorImm f | .shlImm f | .shrImm f | .sarImm f | .rolImm f
  | .rorImm f | .minImm f | .maxImm f | .cmpImm f => usesI f
  | .movi f => ⟨[], xOf f.d⟩
  | .movhi f => ⟨xOf f.d, xOf f.d⟩
  | .bfi f => ⟨xOf f.d ++ xOf f.a ++ xOf f.b, xOf f.d⟩
  | .sel f | .fma f => ⟨xOf f.a ++ xOf f.b ++ xOf f.c, xOf f.d⟩
  | .bra _ => ⟨[], []⟩
  | .join => ⟨[], allMasks⟩
  | .braIndirect f | .ret f => ⟨xOf f.a, []⟩
  | .bcc f => ⟨xOf f.a ++ xOf f.b, []⟩
  | .bmk f => ⟨mOf f.a, []⟩
  | .call _ => ⟨[], [.x 62]⟩
  | .callIndirect f => ⟨xOf f.a, [.x 62]⟩
  | .loop f => ⟨xOf f.a, xOf f.a⟩
  | .split f => ⟨vOf f.a 1 ++ predOf f.pm, vOf f.d 1 ++ xOf f.b⟩
  | .srrd f => ⟨[], xOf f.d⟩
  | .srwr f => ⟨xOf f.a, []⟩
  | .snap f => ⟨xOf f.a, xOf f.d⟩
  | .vadd f | .vsub f | .vadds f | .vsubs f | .vmul f | .vmulh f | .vdiv f | .vmin f | .vmax f | .vand f | .vor f
  | .vxor f | .vandn f | .vshl f | .vshr f | .vsar f | .vfadd f | .vfsub f | .vfmul f | .vfmin f | .vfmax f
  | .vscale f | .vfdiv f | .vperm f => usesVAB f
  | .vabs f | .vneg f | .vnot f | .vclz f | .vpopc f | .vbfx f | .vmov f | .vfclass f | .vround f | .vfrac f | .vrcp f
  | .vrsq f | .vsqrt f | .vexp2 f | .vlog2 f | .vsinpi f | .vcospi f | .vtanh f | .vred f | .vscan f | .vcomp f
  | .vexpd f => usesVA f
  | .vmad f | .vfma f | .vdot2 f | .vdot4 f | .vpermx f => usesVABC f
  | .vcmp f | .vfcmp f => usesCmp f
  | .vsel f =>
      let g := typeGroup f.ty
      ⟨vOf f.a g ++ bOf f g ++ mOf f.c ++ predOf f.pm, vOf f.d g⟩
  | .vbcast f | .viota f => ⟨xOf f.b ++ predOf f.pm, vOf f.d (typeGroup f.ty)⟩
  | .vextr f => ⟨vOf f.a (typeGroup f.ty) ++ xOf f.b, xOf f.d⟩
  | .vins f => ⟨vOf f.d (typeGroup f.ty) ++ xOf f.a ++ xOf f.b, vOf f.d (typeGroup f.ty)⟩
  | .vcvt f | .xfmCvt f | .xfmQuant f =>
      ⟨vOf f.a (cvtGroups f).2 ++ predOf f.pm ++ cbOf f, vOf f.d (cvtGroups f).1⟩
  | .vrot f | .vshufx f => ⟨vOf f.a 1 ++ xOf f.b ++ predOf f.pm, vOf f.d 1⟩
  | .vtrn f => ⟨vOf f.a 1 ++ vOf f.b 1 ++ predOf f.pm, vOf f.d 1⟩
  | .vvote f => ⟨vOf f.a 1 ++ predOf f.pm, mOf f.d⟩
  | .mand f | .mor f | .mxor f | .mandn f | .mnot f | .mmov f => usesMask f
  | .mset f => ⟨predOf f.pm, mOf f.d⟩
  | .mpopc f | .mffs f | .mtox f => ⟨mOf f.a, xOf f.d⟩
  | .xtom f => ⟨xOf f.a ++ mOf f.d ++ predOf f.pm, mOf f.d⟩
  | .cbld f => ⟨vOf f.a 1, [.cb]⟩
  | .cbst f => ⟨[.cb] ++ vOf f.d 1, vOf f.d 1⟩
  | .ld f => ⟨xOf f.a, xOf f.d⟩
  | .st f => ⟨xOf f.a ++ xOf f.d, []⟩
  | .vld f => ⟨xOf f.a ++ predOf f.pm, vOf f.d (typeGroup f.ty)⟩
  | .vst f => ⟨xOf f.a ++ vOf f.d (typeGroup f.ty) ++ predOf f.pm, []⟩
  | .vlds f => ⟨xOf f.a ++ xOf f.b ++ predOf f.pm, vOf f.d (typeGroup f.ty)⟩
  | .vsts f => ⟨xOf f.a ++ xOf f.b ++ vOf f.d (typeGroup f.ty) ++ predOf f.pm, []⟩
  | .vgath f => ⟨xOf f.a ++ usesIndex f ++ predOf f.pm, vOf f.d (typeGroup f.ty)⟩
  | .vscat f => ⟨xOf f.a ++ usesIndex f ++ vOf f.d (typeGroup f.ty) ++ predOf f.pm, []⟩
  | .pref f => ⟨xOf f.a, []⟩
  | .atomAdd f | .atomAnd f | .atomOr f | .atomXor f | .atomMin f | .atomMax f | .atomXchg f | .atomCas f | .atomFadd f
  | .atomFmin f | .atomFmax f => usesAtom f
  | .vatomAdd f | .vatomAnd f | .vatomOr f | .vatomXor f | .vatomMin f | .vatomMax f | .vatomXchg f | .vatomFadd f
  | .vatomFmin f | .vatomFmax f => usesVatom f
  | .vatomCas f => ⟨(usesVatom f).reads ++ vOf (f.d + 1) 1, vOf f.d 1⟩
  | .kcfg f | .karr f | .ksig f => ⟨(usesK f).reads, []⟩
  | .kwait f | .ktry f | .karrw f | .krd f => usesK f
  | .tlaunch f | .tfence f | .sleepuntil f => usesS f
  | .notify f => ⟨xOf f.a ++ xOf f.b, []⟩
  | .cpy f | .mxpush f => ⟨vOf f.a 1, []⟩
  | .cpyt f => ⟨vOf f.a 1, xOf f.d⟩
  | .cpyq f | .mxqs f => ⟨[], xOf f.d⟩
  | .mxacq f => ⟨[], mOf f.d⟩
  | .tsld f => ⟨xOf f.a ++ predOf f.pm, vOf f.d 1⟩
  | .tsst f => ⟨xOf f.a ++ vOf f.b 1 ++ predOf f.pm, []⟩
  | .tszero f => ⟨xOf f.a, []⟩
  | .xfmTr8 f | .xfmTr16 f => ⟨vOf f.a 1, vOf f.d 1⟩
  | .xfmTr32 f => ⟨vOf f.a 2, vOf f.d 2⟩
  | .xfmPack f => ⟨vOf f.a (32 / tyWidth f.ty), vOf f.d 1⟩
  | .xfmUnpack f => ⟨vOf f.a 1, vOf f.d (32 / tyWidth f.ty)⟩
  | .sample f => ⟨vOf f.a (if f.mod = 0 then 2 else 4) ++ xOf f.b ++ xOf f.c ++ predOf f.pm, vOf f.d 2⟩
  | .sgath f => ⟨vOf f.a 2 ++ xOf f.b ++ xOf f.c ++ predOf f.pm, vOf f.d 2⟩
  | .tld f => ⟨vOf f.a 2 ++ xOf f.b ++ predOf f.pm, vOf f.d 2⟩
  | .tqry f => ⟨xOf f.b, xOf f.d⟩
  | .wtinv f | .wtpf f => ⟨xOf f.a, []⟩
  | .trace f => ⟨vOf f.a 8 ++ xOf f.b ++ predOf f.pm, vOf f.d 4 ++ mOf f.c⟩
  | .rqnext f | .rqterm f => ⟨predOf f.pm, vOf f.d 4 ++ mOf f.c⟩
  | .rqcommit f => ⟨predOf f.pm, []⟩
  | .gemitVtx f => ⟨vOf f.a 4 ++ vOf f.b (f.mod.extractLsb' 2 5).toNat ++ predOf f.pm, []⟩
  | .gemitPrim f => ⟨vOf f.a 1 ++ predOf f.pm, []⟩
  | .femit f => ⟨vOf f.a (if f.ty = 10 then 4 else 2) ++ (if f.mod.getLsbD 3 then vOf f.b 1 else []) ++ predOf f.pm, []⟩
  | .qwait f | .qtail f => ⟨[], xOf f.d⟩
  | .qhandPacket f | .qhandNode f => usesS f
  | .prd f => ⟨xOf f.a, xOf f.d⟩
  | .pwr f | .fansw f => ⟨xOf f.a ++ xOf f.b, []⟩
  | _ => ⟨[], []⟩

/-- Clocks on the V port of an instruction whose largest register group is of `g` registers, at a VL (R27). -/
def groupClocks (vl g : Nat) : Nat := max 1 ((vl * 32 * g + 2047) / 2048)

/-- Clocks an instruction holds the V port for, at a VL (R25, R27); none for an instruction of the S port, and for an event, which
issues on neither. -/
def vClocks (vl : Nat) : Instr → Option Nat
  | .vrcp _ | .vrsq _ | .vsqrt _ | .vfdiv _ | .vexp2 _ | .vlog2 _ | .vsinpi _ | .vcospi _ | .vtanh _ => some (max 1 ((vl + 31) / 32))
  | .xfmCvt _ | .xfmQuant _ | .xfmTr8 _ | .xfmTr16 _ | .xfmTr32 _ | .xfmPack _ | .xfmUnpack _ | .cpy _ | .cpyt _ | .mxpush _ => some 1
  | .vadd f | .vsub f | .vadds f | .vsubs f | .vmul f | .vmulh f | .vdiv f | .vmin f | .vmax f | .vabs f | .vneg f | .vand f | .vor f
  | .vxor f | .vandn f | .vnot f | .vshl f | .vshr f | .vsar f | .vclz f | .vpopc f | .vbfx f | .vcmp f | .vsel f | .vmov f
  | .vbcast f | .viota f | .vextr f | .vins f | .vfadd f | .vfsub f | .vfmul f | .vfmin f | .vfmax f | .vfcmp f | .vfclass f
  | .vround f | .vfrac f | .vscale f | .vperm f | .vred f | .vscan f | .vcomp f | .vexpd f => some (groupClocks vl (typeGroup f.ty))
  | .vcvt f => some (groupClocks vl (max (cvtGroups f).1 (cvtGroups f).2))
  | .vmad _ | .vfma _ | .vdot2 _ | .vdot4 _ | .vpermx _ | .vrot _ | .vshufx _ | .vtrn _ | .vvote _ | .mand _ | .mor _ | .mxor _
  | .mandn _ | .mnot _ | .mmov _ | .mset _ | .mpopc _ | .mffs _ | .mtox _ | .xtom _ | .cbld _ | .cbst _ | .tsld _ | .tsst _
  | .tszero _ | .gemitPrim _ | .gemitEnd _ => some (groupClocks vl 1)
  | .gemitVtx _ => some (groupClocks vl 4)
  | .femit f => some (groupClocks vl (if f.ty = 10 then 4 else 2))
  | _ => none

/-- The accesses of a memory instruction to .rsp, which cross the mesh: one for each active lane (R260; log entry 13). -/
def rspAccesses (w : Warp) : Instr → Nat
  | .ld f | .st f | .atomAdd f | .atomAnd f | .atomOr f | .atomXor f | .atomMin f | .atomMax f | .atomXchg f | .atomCas f
  | .atomFadd f | .atomFmin f | .atomFmax f => if f.space = 2 then 1 else 0
  | .vld f | .vst f | .vlds f | .vsts f | .vgath f | .vscat f | .vatomAdd f | .vatomAnd f | .vatomOr f | .vatomXor f | .vatomMin f
  | .vatomMax f | .vatomXchg f | .vatomCas f | .vatomFadd f | .vatomFmin f | .vatomFmax f =>
    if f.space = 2 then ((List.finRange 128).filter fun k => (activeMask w f.pm f.pi).getLsbD k.val).length else 0
  | _ => 0

/-- The issue of an instruction counted: the clocks it holds the V port for, or one clock of the S port, and what it sends over the mesh
(R414). -/
def countIssue (i : Instr) (s : State) : State :=
  s.onDie (agentDie s.cur.who) fun x =>
    let x := workUp x 11 (rspAccesses s.cur i)
    match vClocks s.cur.vl i with
    | some n => workUp x 5 n
    | none => workUp x 6 1

/-- The registers that wait for the transform pipe (R195). -/
def pipeRegs (s : State) (w : Warp) : List RegRef :=
  match w.who with
  | .thread _ _ => []
  | .warp d c p _ =>
    ((pipeOf (s.coreAt d c) p.val).filter fun e => e.owner == warpId w).flatMap fun e => e.writes.map fun q => .v q.1.toNat

/-- The registers an instruction reads: its operands, and for SPLIT the masks it saves (R24). -/
def readsOf (i : Instr) : List RegRef :=
  match i with
  | .split f => (uses (.split f)).reads ++ allMasks
  | _ => (uses i).reads

/-- The registers an instruction reads or writes. -/
def touched (i : Instr) : List RegRef := readsOf i ++ (uses i).writes

/-- The instruction waits for load data (R28). -/
def owedStall (w : Warp) (i : Instr) : Bool := meets (touched i) (owedRegs w)

/-- The instruction waits for the transform pipe: for a register, or, an XFM, for one of its 32 entries (R28, R195). -/
def pipeStall (s : State) (w : Warp) (i : Instr) : Bool :=
  meets (touched i) (pipeRegs s w) ||
  (match i, w.who with
   | .xfmCvt _, .warp d c p _ | .xfmQuant _, .warp d c p _ | .xfmTr8 _, .warp d c p _ | .xfmTr16 _, .warp d c p _
   | .xfmTr32 _, .warp d c p _ | .xfmPack _, .warp d c p _ | .xfmUnpack _, .warp d c p _ =>
     decide (32 ≤ (pipeOf (s.coreAt d c) p.val).length)
   | _, _ => false)

/-- A replayed load's data is on its way: an error in it freezes the warp at the load, so nothing issues before it (R151). -/
def replayStall (w : Warp) : Bool := w.pend.any (·.replay)

/-- The first register an instruction reads whose data was uncorrectable, with its sector (R151). -/
def poisonRead (w : Warp) (i : Instr) : Option Nat :=
  (w.poison.find? fun p => (readsOf i).contains p.1).map (·.2)

/-- A soft error in a register the instruction reads (R429). -/
def softRead (s : State) (i : Instr) : Option ErrSite :=
  softHit s ((readsOf i).map (ErrSite.reg (warpId s.cur)))

/-- A vector or mask destination is written in part: under a predicate, below VL, in an arm, or in a replay (R35). -/
def partialLanes (w : Warp) (pm : BitVec 4) (pi : BitVec 1) : Bool := activeMask w pm pi != BitVec.allOnes 128

/-- The instruction may leave bits of its destinations as they were. -/
def writesPart (w : Warp) (i : Instr) : Bool :=
  match i with
  | .vld f | .vlds f | .vgath f => partialLanes w f.pm f.pi
  | .vextr _ | .vins _ | .mpopc _ | .mffs _ | .mtox _ | .cbst _ | .cbld _ | .split _ | .xfmTr8 _ | .xfmTr16 _ | .xfmTr32 _
  | .xfmPack _ | .xfmUnpack _ => false
  | .vadd f | .vsub f | .vadds f | .vsubs f | .vmul f | .vmulh f | .vdiv f | .vmin f | .vmax f | .vand f | .vor f
  | .vxor f | .vandn f | .vshl f | .vshr f | .vsar f | .vfadd f | .vfsub f | .vfmul f | .vfmin f | .vfmax f
  | .vscale f | .vfdiv f | .vperm f | .vabs f | .vneg f | .vnot f | .vclz f | .vpopc f | .vbfx f | .vmov f | .vfclass f
  | .vround f | .vfrac f | .vrcp f | .vrsq f | .vsqrt f | .vexp2 f | .vlog2 f | .vsinpi f | .vcospi f | .vtanh f
  | .vred f | .vscan f | .vcomp f | .vexpd f | .vmad f | .vfma f | .vdot2 f | .vdot4 f | .vpermx f | .vcmp f | .vfcmp f
  | .vsel f | .vbcast f | .viota f | .vcvt f | .xfmCvt f | .xfmQuant f | .vrot f | .vshufx f | .vtrn f | .vvote f | .mand f
  | .mor f | .mxor f | .mandn f | .mnot f | .mmov f | .mset f | .xtom f | .tsld f | .sample f | .sgath f | .tld f | .trace f
  | .rqnext f | .rqterm f => partialLanes w f.pm f.pi
  | .vatomAdd f | .vatomAnd f | .vatomOr f | .vatomXor f | .vatomMin f | .vatomMax f | .vatomXchg f | .vatomCas f
  | .vatomFadd f | .vatomFmin f | .vatomFmax f => partialLanes w f.pm f.pi
  | _ => false

/-- An instruction of a warp was issued and raised nothing. -/
def tookIssue (before after : Warp) : Bool :=
  before.cause == after.cause && (match after.status with
    | .frozen _ => false
    | _ => true)

/-- Marks of lost data and soft errors gone from the registers an issued instruction writes whole (R151, R429). -/
def clearMarks (i : Instr) (before : Warp) (s : State) : State :=
  if (before.poison = [] ∧ s.softErrs = []) ∨ writesPart before i ∨ !(tookIssue before s.cur) then s
  else
    let ws := (uses i).writes
    { s with cur := { s.cur with poison := s.cur.poison.filter fun p => !(ws.contains p.1) },
             softErrs := s.softErrs.filter fun e => match e with
               | .reg id r => !(id == warpId before && ws.contains r)
               | _ => true }

end Sys2Proof.Machine
end

