-- ==== Sys2Proof/Machine/Rove.lean ====
section
/-! DEFINITION. Roving (01 R32 to R40; 05 R101, R105; 06 R119; 10 R248). The registers of a roving warp's `x`, `m`, `cb`, VL,
split stack and PC are its run-ahead values, its checkpoint is in `rove`; its `v` are the real vector registers, the shadow
registers stand in `rove`. DEDUCED readings, unsafe: log entry 15. -/

namespace Sys2Proof.Machine

/-! ### Entering, ending, restoring -/

/-- Checkpoint slots of a warp's ply in use; a ply has two (R32). -/
def slotsTaken (s : State) (w : Warp) : Nat :=
  match w.who with
  | .thread _ _ => 2
  | .warp d c p _ => (s.agents.filter fun o => match o.who with
      | .warp d' c' p' _ => d' == d && c' == c && p' == p && o.status != .exited && o.rove.isSome
      | _ => false).length

/-- An instruction is stalled on the destination of a load whose request has missed the system cache's tag check (R32). When the
miss is known is timing. -/
def missStall (w : Warp) (i : Instr) : Bool := w.pend.any fun p => p.missed && meets (owedBy p) (touched i)

/-- The conditions of R32 for the issuing warp stalled at instruction `i`. -/
def mayRove (s : State) (i : Instr) : Bool :=
  let w := s.cur
  !(isThread w.who) && w.status == .running && w.rove.isNone && missStall w i && !w.roveOff &&
    ((warpCtx s w).map (·.roveEn)).getD false && aboveFloor s (agentDie w.who) w.ctx && decide (slotsTaken s w < 2)

/-- One added to a counter that saturates. -/
def satInc {n : Nat} (c : BitVec n) : BitVec n := if c = BitVec.allOnes n then c else c + 1

/-- A warp begins roving at instruction `i`: the checkpoint of R33, and INV for every register with a pending load (R35). -/
def enterRove (w : Warp) (i : Instr) (clock : Nat) : Warp :=
  { w with episodes := satInc w.episodes,
           rove := some { phase := .rove, needs := touched i, minv := [], entered := clock, x := w.x, m := w.m, cb := w.cb, vl := w.vl, split := w.split,
                          mapping := w.mapping, pc := w.pc, inv := owedRegs w, clean := [], shadow := [], stores := [],
                          overflow := false, count := 0 } }

/-- The issuing warp enters where R32 lets it; the die counts the episode (R426). -/
def roveEnter (s : State) : State :=
  match (fetchInstr s).2 with
  | .instr i =>
    if mayRove s i then
      let d := agentDie s.cur.who
      let s := s.onDie d fun x => countUp x 2 1
      { s with cur := enterRove s.cur i (s.die d).clock }
    else s
  | _ => s

/-- The instruction limit of R37 is reached. -/
def roveLimit (w : Warp) : Warp :=
  match w.rove with
  | some r => if r.phase = .rove ∧ 1024 ≤ r.count then endRove w r 1 else w
  | none => w

/-- ROVE_ENTER. -/
def execRoveEnter (who : Agent) (s : State) : Out := .next (s.withAgent who roveEnter)
/-- ROVE_INSTRUCTION_LIMIT. -/
def execRoveInstructionLimit (who : Agent) (s : State) : Out := .next (s.onAgent who roveLimit)
/-- ROVE_RESTORE_DONE: the warp stands at the stalled instruction and its slot is free. -/
def execRoveRestoreDone (who : Agent) (s : State) : Out :=
  .next (s.onAgent who fun w => if restoreDue s w then roveRestore (s.die (agentDie who)).tc w else w)

/-! ### INV, shadows and the store buffer (R34 to R36) -/

/-- Registers made INV, and valid. -/
def invAdd (l rs : List RegRef) : List RegRef := l ++ rs.filter fun r => !(l.contains r)
def invDrop (l rs : List RegRef) : List RegRef := l.filter fun r => !(rs.contains r)

/-- The vector registers among registers. -/
def vNums (rs : List RegRef) : List Nat := rs.filterMap fun r => match r with
  | .v n => some n
  | _ => none

/-- The warp as a roving instruction sees it: shadows over the vector registers. Only the stalled instruction can be a
replay. -/
def roveView (w : Warp) (r : Roving) : Warp :=
  { w with v := r.shadow.foldl (fun v e => setReg v e.1 e.2) w.v, rove := none, replayNext := w.replayNext && r.count == 0 }

/-- There are shadow registers for what an instruction writes (R34). -/
def shadowRoom (r : Roving) (writes : List RegRef) : Bool :=
  decide (r.shadow.length + ((vNums writes).filter fun n => (tblGet r.shadow n).isNone).length ≤ 24)

/-- Shadows of the registers written take their values in `w`. -/
def shadowSet (r : Roving) (writes : List RegRef) (w : Warp) : Roving :=
  { r with shadow := (vNums writes).foldl (fun l n => tblSet l n (vAt w n)) r.shadow }

/-- The INV marks a roving instruction leaves: its destinations', and those of the masks that SPLIT saves and JOIN gives back with
their values (R35, R102, R104). A SPLIT made before roving saved masks that were all there. -/
def roveMarks (r : Roving) (i : Instr) (inv : Bool) : Roving :=
  let ws := (uses i).writes
  match i with
  | .join => { r with inv := invAdd (invDrop r.inv ws) (r.minv.headD []), minv := r.minv.tail }
  | .split _ =>
    { r with inv := if inv then invAdd r.inv ws else invDrop r.inv ws, minv := (r.inv.filter fun q => allMasks.contains q) :: r.minv }
  | _ => { r with inv := if inv then invAdd r.inv ws else invDrop r.inv ws }

/-- A roving instruction executed: its registers from `t`, its destinations INV or valid. -/
def roveDone (w : Warp) (r : Roving) (i : Instr) (t : Warp) (inv : Bool) : Warp :=
  let ws := (uses i).writes
  let r := roveMarks (shadowSet r ws t) i inv
  let r := if writesPart w i then r else { r with clean := invAdd r.clean ws }
  { w with x := t.x, m := t.m, cb := t.cb, vl := t.vl, split := t.split, mapping := t.mapping, pc := t.pc,
           rove := some { r with count := r.count + 1 } }

/-- A suppressed or dropped instruction: its destinations are INV (R36). -/
def roveSkip (w : Warp) (r : Roving) (ws : List RegRef) : Warp :=
  { w with pc := w.pc + 8, rove := some { r with count := r.count + 1, inv := invAdd r.inv ws } }

/-- A byte of the store buffer: none where it holds none, some none where the byte is INV. `tag` 0 is global space, 1 + team a
scratchpad. -/
def roveByte (r : Roving) (tag a : Nat) : Option (Option Byte) :=
  match r.stores.find? fun e => e.1 == tag && e.2.1 == a / 32 with
  | some e => tblGet e.2.2 (a % 32)
  | none => none

/-- A byte into the store buffer of 32 sectors; once it is full the buffer has overflowed (R36). -/
def rovePut (r : Roving) (tag a : Nat) (b : Option Byte) : Roving :=
  if r.stores.any fun e => e.1 == tag && e.2.1 == a / 32 then
    { r with stores := r.stores.map fun e =>
        if e.1 == tag && e.2.1 == a / 32 then (e.1, e.2.1, tblSet e.2.2 (a % 32) b) else e }
  else if r.stores.length < 32 then { r with stores := r.stores ++ [(tag, a / 32, [(a % 32, b)])] }
  else { r with overflow := true }

/-- Tag and address under which the buffer holds a unit; none for a scratchpad address that does not hold. -/
def rovePlace (s : State) (w : Warp) (sp : Nat) (u : MemUnit) : Option (Nat × Nat) :=
  if sp = 0 then some (0, u.va.toNat) else (spdTarget s w sp u.va.toNat u.n).map fun p => (p.1 + 1, p.2)

/-! ### Loads and stores (R36) -/

/-- What roving loads have come to: state, values by element, whether every one was valid, failed translations by lane, prefetches
issued. -/
structure RoveLoads where
  s : State
  vals : Tbl Nat
  ok : Bool
  faults : List (Nat × Word × Nat)
  prefs : Nat

/-- The bytes of a part from the issuing warp's L1 under live leases (R36). -/
def roveHit (s : State) (p : Party) (pa n : Nat) : Option (List Byte) :=
  match p.core with
  | none => none
  | some c => (l1Look s p.d c p.wclk (pa / 32)).map fun l => toBytes (l.data.toNat >>> (8 * (pa % 32))) n

/-- The line of a place prefetched for a roving load (R36). -/
def roveFetch (p : Party) (va : Word) (a : RoveLoads) (pa : Nat) : RoveLoads :=
  match p.core with
  | none => a
  | some c =>
    let (s, asked) := fetchLine a.s p c a.s.cur.ctx va (pa / 128) true
    { a with s, prefs := a.prefs + (if asked then 1 else 0) }

/-- What a roving load makes of a unit whose memory bytes are at hand: the store buffer's bytes over them, none where one is INV or
the buffer has overflowed (R36). -/
def roveMerge (r : Roving) (a : RoveLoads) (u : MemUnit) (held : List (Option (Option Byte))) (bs : List Byte) : RoveLoads :=
  if r.overflow ∨ held.any (· == some none) then { a with ok := false }
  else
    let merged := (List.range u.n).map fun k => match held.getD k none with
      | some (some b) => b
      | _ => bs.getD k 0
    { a with vals := tblSet a.vals u.elem (ofBytes merged) }

/-- A unit of a roving load of global space: dropped where its pages are not PMA or do not translate; else from the store buffer where
that holds every byte and has not overflowed, then from L1 (R36). -/
def roveGlobal (p : Party) (r : Roving) (a : RoveLoads) (u : MemUnit) (held : List (Option (Option Byte))) : RoveLoads :=
  let (s, parts, faults) := reachUnit a.s .read true u
  let a := { a with s, faults := a.faults ++ faults.filter fun (f : Nat × Word × Nat) => f.2.2 != 1 }
  if faults ≠ [] ∨ parts.any (fun (q : Phys × Nat) => q.1.kind != .pma) then { a with ok := false }
  else if held.all (·.isSome) ∧ r.overflow = false then roveMerge r a u held []
  else
    let got := parts.map fun q => (q.1.pa, roveHit s p q.1.pa q.2)
    match (got.filter (·.2.isNone)).map (·.1) with
    | [] =>
      let s := match p.core with
        | some c => l1Read s p.d c (got.map fun q => q.1 / 32)
        | none => s
      roveMerge r { a with s } u held (got.filterMap (·.2)).flatten
    | miss => { miss.foldl (roveFetch p u.va) a with ok := false }

/-- A unit of a roving load from a scratchpad; an uncorrectable dword is reported and freezes nothing (R36, R429). -/
def roveScratch (r : Roving) (sp : Nat) (a : RoveLoads) (u : MemUnit) (held : List (Option (Option Byte))) : RoveLoads :=
  match softHit a.s (scratchSites a.s sp [u]) with
  | some e =>
    let w := a.s.cur
    let rec1 : ElogRec := { kind := 2, struct := (siteCode e).1, ctx := w.ctx, count := 0, agentId := 0, addr := (siteCode e).2 }
    { a with ok := false, s := logError a.s (agentDie w.who) rec1 }
  | none => roveMerge r a u held (toBytes (scratchGet a.s sp u) u.n)

/-- A unit of a roving load (R36). -/
def roveUnit (p : Party) (r : Roving) (sp : Nat) (a : RoveLoads) (u : MemUnit) : RoveLoads :=
  match rovePlace a.s a.s.cur sp u with
  | none => { a with ok := false }
  | some (tag, off) =>
    let held := (List.range u.n).map fun k => roveByte r tag (off + k)
    if sp = 0 then roveGlobal p r a u held
    else if held.all (·.isSome) ∧ r.overflow = false then roveMerge r a u held []
    else roveScratch r sp a u held

/-- ROVE_HINT records of failed translations (R36, R364). -/
def roveHints (s : State) (faults : List (Nat × Word × Nat)) (vector : Bool) : State :=
  if ((warpCtx s s.cur).map (·.hintEn)).getD false then
    (groupPages faults).foldl (fun s g => enqueueRec s (agentDie s.cur.who)
      { warpRec s.cur 2 with reason := g.2.2.1, va := g.2.1, lanes := if vector then g.2.2.2 else 0 }) s
  else s

/-- Prefetches counted in sr.rove and by the die (R20, R426). -/
def countPrefs (s : State) (n : Nat) : State :=
  let s := s.onDie (agentDie s.cur.who) fun x => countUp x 3 n
  { s with cur := { s.cur with prefs := BitVec.ofNat 24 (min (s.cur.prefs.toNat + n) (2 ^ 24 - 1)) } }

/-- A roving load. `w` is the view of the issuing warp. -/
def roveLoad (s : State) (r : Roving) (i : Instr) (w : Warp) (f : FmtM) (vector : Bool) (sh : MemShape) (us : List MemUnit) :
    State :=
  let ws := (uses i).writes
  if meets (uses i).reads r.inv then { s with cur := roveSkip s.cur (shadowSet r ws w) ws }
  else
    let p := curParty s (f.nt == 1)
    let a := us.foldl (roveUnit p r f.space.toNat) ⟨{ s with cur := { w with rove := none } }, [], true, [], 0⟩
    let s := { a.s with cur := s.cur }
    let s := countPrefs (roveHints s a.faults vector) a.prefs
    if a.ok then
      let t := applyPending w (loadOwed f vector sh a.vals [] w)
      { s with cur := roveDone s.cur r i { t with pc := w.pc + 8 } (writesPart w i && meets ws r.inv) }
    else { s with cur := roveSkip s.cur (shadowSet r ws w) ws }

/-- The registers that make a store's addresses and predicate; where one is INV the store is dropped, which R36 says of the
address (DEDUCED, unsafe: log entry 15). -/
def storeAddrRegs (i : Instr) : List RegRef :=
  match i with
  | .st f => xOf f.a
  | .vst f => xOf f.a ++ predOf f.pm
  | .vsts f => xOf f.a ++ xOf f.b ++ predOf f.pm
  | .vscat f => xOf f.a ++ usesIndex f ++ predOf f.pm
  | _ => []

/-- A roving store (R36). -/
def roveStore (s : State) (r : Roving) (i : Instr) (w : Warp) (f : FmtM) (data : List RegRef) (us : List MemUnit)
    (val : Nat → Nat) : State :=
  if meets (storeAddrRegs i) r.inv then { s with cur := roveSkip s.cur r [] }
  else
    let inv := meets data r.inv
    let r := us.foldl (fun r u => match rovePlace s w f.space.toNat u with
      | none => r
      | some (tag, off) => ((toBytes (val u.elem) u.n).zipIdx).foldl (fun r b =>
          rovePut r tag (off + b.2) (if inv then none else some b.1)) r) r
    { s with cur := roveSkip s.cur r [] }

/-! ### Texture fetches and prefetches (R36) -/

/-- A descriptor read while roving: from PMA pages only, raising nothing. -/
def roveDescriptor (s : State) (va : Word) (n : Nat) : State × Option Nat :=
  let pma := fun a : Word => match translateFor s s.cur a .read with
    | (_, .ok ph) => ph.kind == .pma
    | _ => false
  if pma va && pma (va + BitVec.ofNat 64 (n - 1)) then
    let lost := lostSectors s (descAsked s va n)
    match readDescriptor s va n with
    | (s, .ok (d, _)) => (logLost s (agentDie s.cur.who) s.cur.ctx lost, if lost = [] then some d else none)
    | (s, .error _) => (s, none)
  else (s, none)

/-- A texture instruction's lanes fetched for (R36): what they leave in the caches, and the lines asked for. -/
def roveLanes (s : State) (f : FmtA) (g : Fetch → LaneWork → Nat → LaneWork × List Nat) : State × Nat :=
  let k := fetchOf s true true
  let r := lanesOf s (gotNone s) (g k) (activeMask s.cur f.pm f.pi)
  (landQuiet r.s k r.got, r.got.asked)

/-- What follows a good texture descriptor read while roving, and a good sampler descriptor. -/
def roveTex (s : State) (f : FmtA) (k : State → TexDesc → State × Nat) : State × Nat :=
  match roveDescriptor s (readX s.cur f.b) 32 with
  | (s, some n) => if texBad n then (s, 0) else k s (parseTex n)
  | (s, none) => (s, 0)
def roveSamp (s : State) (f : FmtA) (k : State → SampDesc → State × Nat) : State × Nat :=
  match roveDescriptor s (readX s.cur f.c) 16 with
  | (s, some n) => if sampBad n then (s, 0) else k s (parseSamp n)
  | (s, none) => (s, 0)

/-- The lines, blocks and tables a texture instruction needs are fetched (R36); answers the lines asked for. -/
def roveTexture (s : State) (i : Instr) : State × Nat :=
  let w := s.cur
  match i with
  | .sample f => roveTex s f fun s t => roveSamp s f fun s sd => roveLanes s f fun k =>
      sampleLane k t sd f.mod.toNat (laneArg w f.a 0) (laneArg w f.a 1) (laneArg w f.a 2)
  | .sgath f => roveTex s f fun s t => roveSamp s f fun s sd => roveLanes s f fun k =>
      gatherLane k t sd (bits f.mod.toNat 5 2) (bits f.mod.toNat 1 0) (laneArg w f.a 0) (laneArg w f.a 1)
  | .tld f => roveTex s f fun s t => roveLanes s f fun k =>
      loadLane k t (bits f.mod.toNat 3 0) (laneArg w f.a 0) (laneArg w f.a 1)
  | _ => (s, 0)

/-- A texture instruction or a prefetch while roving; `f` answers how many prefetches it issues. -/
def rovePrefetch (s : State) (r : Roving) (i : Instr) (w : Warp) (f : State → State × Nat) : State :=
  let ws := (uses i).writes
  let r' := shadowSet r ws w
  if meets (uses i).reads r.inv then { s with cur := roveSkip s.cur r' ws }
  else
    let (t, n) := f { s with cur := w }
    countPrefs { t with cur := roveSkip s.cur r' ws } n

/-! ### One roving instruction -/

/-- Classes of R36. -/
inductive RoveClass where
  | run
  | convert
  | cond
  | indirect
  | divide
  | load
  | store
  | fetch
  | ends
  | suppressed
  deriving DecidableEq, Repr

/-- The class of an instruction (R36, R101, R105, R119). -/
def roveClass : Instr → RoveClass
  | .fcvt _ | .vcvt _ => .convert
  | .bcc _ | .bmk _ | .loop _ => .cond
  | .braIndirect _ | .callIndirect _ | .ret _ => .indirect
  | .split _ | .arm _ | .join => .divide
  | .ld _ | .vld _ | .vlds _ | .vgath _ => .load
  | .st _ | .vst _ | .vsts _ | .vscat _ => .store
  | .pref _ | .wtpf _ | .sample _ | .sgath _ | .tld _ => .fetch
  | .exit | .halt | .trap _ | .tret | .svc _ => .ends
  | .atomAdd _ | .atomAnd _ | .atomOr _ | .atomXor _ | .atomMin _ | .atomMax _ | .atomXchg _ | .atomCas _ | .atomFadd _
  | .atomFmin _ | .atomFmax _ | .vatomAdd _ | .vatomAnd _ | .vatomOr _ | .vatomXor _ | .vatomMin _ | .vatomMax _
  | .vatomXchg _ | .vatomCas _ | .vatomFadd _ | .vatomFmin _ | .vatomFmax _ | .fenceAcq _ | .fenceRel _ | .fenceAcqrel _
  | .kcfg _ | .karr _ | .ksig _ | .kwait _ | .ktry _ | .karrw _ | .krd _ | .cpy _ | .cpyt _ | .cpyq _ | .mxacq _ | .mxrel _
  | .mxpush _ | .mxqs _ | .xfmCvt _ | .xfmQuant _ | .xfmTr8 _ | .xfmTr16 _ | .xfmTr32 _ | .xfmPack _ | .xfmUnpack _
  | .tsld _ | .tsst _ | .tszero _ | .tlaunch _ | .tfence _ | .notify _ | .sleepuntil _ | .yield | .srrd _ | .srwr _
  | .snap _ | .roveOff | .roveOn | .wtinv _ | .wtinvAll _ | .tqry _ | .trace _ | .rqnext _ | .rqcommit _ | .rqterm _
  | .gemitVtx _ | .gemitPrim _ | .gemitEnd _ | .femit _ => .suppressed
  | _ => .run

/-- A conversion rounds stochastically (R49). -/
def isStochastic : Instr → Bool
  | .fcvt f => f.rnd == 4
  | .vcvt f => f.rnd == 4
  | _ => false

/-- An instruction that executes under R35 by its own meaning, which only its registers keep. -/
def roveRun (ex : Instr → State → Out) (s : State) (r : Roving) (i : Instr) : State :=
  let w := roveView s.cur r
  let ws := (uses i).writes
  let rd := (uses i).reads ++ (if writesPart w i then ws else [])
  let inv := meets rd r.inv
  if isStochastic i then { s with cur := roveSkip s.cur (shadowSet r ws w) ws }
  else match ex i { s with cur := w } with
    | .next t =>
      if tookIssue w t.cur then { s with cur := roveDone s.cur r i t.cur inv }
      else if roveClass i = .convert then { s with cur := roveSkip s.cur (shadowSet r ws w) ws }
      else { s with cur := endRove s.cur r 4 }
    | _ => { s with cur := endRove s.cur r 4 }

/-- A memory instruction while roving. -/
def roveMemory (s : State) (r : Roving) (i : Instr) : State :=
  let w := roveView s.cur r
  match i with
  | .ld f => roveLoad s r i w f false ⟨elemBytes f.ty, 1, 64, false⟩ (scalarUnit f (memBase w f))
  | .vld f => roveLoad s r i w f true (contiguousShape f) (contiguousUnits w f)
  | .vlds f => roveLoad s r i w f true (stridedShape f) (stridedUnits w f)
  | .vgath f => roveLoad s r i w f true (indexedShape f) (indexedUnits w f (memOffset f))
  | .st f => roveStore s r i w f (xOf f.d) (scalarUnit f (memBase w f)) fun _ => (readX w f.d).toNat
  | .vst f => roveStore s r i w f (vOf f.d (typeGroup f.ty)) (contiguousUnits w f) (storeElem w f (contiguousShape f))
  | .vsts f => roveStore s r i w f (vOf f.d (typeGroup f.ty)) (stridedUnits w f) (storeElem w f (stridedShape f))
  | .vscat f =>
    roveStore s r i w f (vOf f.d (typeGroup f.ty)) (indexedUnits w f (memOffset f)) (storeElem w f (indexedShape f))
  | .pref f => rovePrefetch s r i w fun s =>
      let (s, asked) := prefetchAsk s (memBase w f) (f.nt == 1) true
      (s, if asked then 1 else 0)
  | .wtpf f => rovePrefetch s r i w fun s => prefetchTable s (bits (readX w f.a).toNat 11 0) true
  | _ => rovePrefetch s r i w fun s => roveTexture s i

/-- Registers an instruction reads while roving whose storage holds an uncorrectable error: each is reported, KIND 2, freezes nothing and
is INV from then on (R36, R429). -/
def roveSoft (s : State) (r : Roving) (i : Instr) : State × Roving :=
  let hits := ((uses i).reads.eraseDups).filter fun q =>
    s.softErrs.contains (.reg (warpId s.cur) q) && !(r.clean.contains q) && !(r.inv.contains q)
  let log := fun (s : State) (q : RegRef) =>
    let e := siteCode (.reg (warpId s.cur) q)
    logError s (agentDie s.cur.who) { kind := 2, struct := e.1, ctx := s.cur.ctx, count := 0, agentId := 0, addr := e.2 }
  let s := hits.foldl log s
  (s, { r with inv := invAdd r.inv hits })

/-- One instruction of the issuing warp, which roves (R34 to R37). `ex` is the meaning of instructions. Of a SPLIT with an INV source
that would also need a 25th shadow register, the reason is the source; every register an instruction names as destination counts,
whether or not a lane of it is written (DEDUCED, unsafe: log entry 15). -/
def roveInstr (ex : Instr → State → Out) (s : State) (r : Roving) (i : Instr) : State :=
  let ws := (uses i).writes
  let inv := meets (uses i).reads r.inv
  match roveClass i with
  | .ends => { s with cur := endRove s.cur r 4 }
  | .suppressed => { s with cur := roveSkip s.cur r ws }
  | .cond => if inv then { s with cur := roveSkip s.cur r ws } else roveRun ex s r i
  | .indirect => if inv then { s with cur := endRove s.cur r 3 } else roveRun ex s r i
  | .divide =>
    if inv then { s with cur := endRove s.cur r 3 }
    else if !(shadowRoom r ws) then { s with cur := endRove s.cur r 2 }
    else roveRun ex s r i
  | c =>
    if !(shadowRoom r ws) then { s with cur := endRove s.cur r 2 }
    else match c with
      | .load => roveMemory s r i
      | .store => roveMemory s r i
      | .fetch => roveMemory s r i
      | _ => roveRun ex s r i

/-- One clock of a roving warp (R36, R37, R100). -/
def roveStep (ex : Instr → State → Out) (s : State) : State :=
  match s.cur.rove with
  | none => s
  | some r =>
    if roveArrived s.cur then wakeRove s
    else if r.phase ≠ .rove then s
    else if 1024 ≤ r.count then { s with cur := endRove s.cur r 1 }
    else if !(aboveFloor s (agentDie s.cur.who) s.cur.ctx) then { s with cur := endRove s.cur r 5 }
    else match fetchInstr s with
      | (s, .instr i) =>
        if pipeStall s s.cur i || tableStall s i then s
        else match roveClass i with
          | .ends => roveInstr ex s r i
          | .suppressed => roveInstr ex (countIssue i s) r i
          | _ => let (s, r) := roveSoft (countIssue i s) r i; roveInstr ex s r i
      | (s, _) => { s with cur := endRove s.cur r 4 }

end Sys2Proof.Machine
end

