-- ==== Sys2Proof/Machine/VecInt.lean ====
section
/-! DEFINITION. Vector integer instructions, moves and placements (06 R117, R118, R120 to R123). Elements are taken by
physical lane: an element of an arm's position is the element of that position's physical lane in every register. -/

namespace Sys2Proof.Machine

/-- A vector result: the active elements of v[D], a group of `n` elements of `wd` bits, take `val` (R18, R117). -/
def vecWrite (s : State) (f : FmtA) (n wd : Nat) (val : Nat → Nat) : Out :=
  answer s (retire (writeElems s.cur f.d n wd (activeMask s.cur f.pm f.pi) val))

/-- One result per active element from a and b (R120). -/
def vecBin (s : State) (f : FmtA) (op : Nat → Bool → Nat → Nat → Nat) : Out :=
  let n := elemCount f.ty
  let wd := tyWidth f.ty
  vecWrite s f n wd fun e => op wd (tySigned f.ty.toNat) (srcElem s.cur f.a n wd e) (srcB s.cur f n wd e)

/-- One result per active element from a alone (R120). -/
def vecUn (s : State) (f : FmtA) (op : Nat → Nat → Nat) : Out :=
  let n := elemCount f.ty
  let wd := tyWidth f.ty
  vecWrite s f n wd fun e => op wd (srcElem s.cur f.a n wd e)

/-- An integer clamped to MIN..MAX of the type, as bits (R41, R120). -/
def clampBits (w : Nat) (sg : Bool) (v : Int) : Nat :=
  let lo : Int := if sg then -(2 ^ (w - 1) : Nat) else 0
  let hi : Int := if sg then (2 ^ (w - 1) : Nat) - 1 else (2 ^ w : Nat) - 1
  ofSigned w (max lo (min hi v))

/-- The value of an element by its type's signedness. -/
def elemInt (w : Nat) (sg : Bool) (x : Nat) : Int := if sg then toSigned w x else (x : Int)

/-- NEGP and NEGC of format F: MOD bits 10 and 9 (R58). -/
def negP (f : FmtA) : Bool := f.mod.getLsbD 10
def negC (f : FmtA) : Bool := f.mod.getLsbD 9

/-- `(-1)^NEGP a b + (-1)^NEGC c` modulo `2^w` (R120 VMAD). -/
def madBits (w : Nat) (np nc : Bool) (a b c : Nat) : Nat :=
  let p : Int := if np then -((a * b : Nat) : Int) else (a * b : Nat)
  let q : Int := if nc then -(c : Int) else c
  ofSigned w (p + q)

def execVadd (f : FmtA) (s : State) : Out := vecBin s f fun _ _ a b => a + b
def execVsub (f : FmtA) (s : State) : Out := vecBin s f fun w _ a b => a + (2 ^ w - b)
def execVadds (f : FmtA) (s : State) : Out := vecBin s f fun w sg a b => clampBits w sg (elemInt w sg a + elemInt w sg b)
def execVsubs (f : FmtA) (s : State) : Out := vecBin s f fun w sg a b => clampBits w sg (elemInt w sg a - elemInt w sg b)
def execVmul (f : FmtA) (s : State) : Out := vecBin s f fun _ _ a b => a * b
def execVmulh (f : FmtA) (s : State) : Out := vecBin s f aluMulh
def execVmad (f : FmtA) (s : State) : Out :=
  let n := elemCount f.ty
  let wd := tyWidth f.ty
  vecWrite s f n wd fun e =>
    madBits wd (negP f) (negC f) (srcElem s.cur f.a n wd e) (srcB s.cur f n wd e) (srcElem s.cur f.c n wd e)
def execVdiv (f : FmtA) (s : State) : Out := vecBin s f aluDiv
def execVmin (f : FmtA) (s : State) : Out := vecBin s f aluMin
def execVmax (f : FmtA) (s : State) : Out := vecBin s f aluMax
def execVabs (f : FmtA) (s : State) : Out := vecUn s f fun w a => (toSigned w a).natAbs
def execVneg (f : FmtA) (s : State) : Out := vecUn s f fun w a => 2 ^ w - a
def execVand (f : FmtA) (s : State) : Out := vecBin s f fun _ _ a b => a &&& b
def execVor (f : FmtA) (s : State) : Out := vecBin s f fun _ _ a b => a ||| b
def execVxor (f : FmtA) (s : State) : Out := vecBin s f fun _ _ a b => a ^^^ b
def execVandn (f : FmtA) (s : State) : Out := vecBin s f fun w _ a b => a &&& (2 ^ w - 1 - b)
def execVnot (f : FmtA) (s : State) : Out := vecUn s f fun w a => 2 ^ w - 1 - a
def execVshl (f : FmtA) (s : State) : Out := vecBin s f fun w _ a b => aluShl w a b
def execVshr (f : FmtA) (s : State) : Out := vecBin s f fun w _ a b => aluShr w a b
def execVsar (f : FmtA) (s : State) : Out := vecBin s f fun w _ a b => aluSar w a b
def execVclz (f : FmtA) (s : State) : Out := vecUn s f clzOf
def execVpopc (f : FmtA) (s : State) : Out := vecUn s f popOf

/-- VBFX takes position and length from MOD (R121). -/
def execVbfx (f : FmtA) (s : State) : Out :=
  let pos := (f.mod.extractLsb' 0 5).toNat
  let len := (f.mod.extractLsb' 5 6).toNat
  vecUn s f fun _ a => if len = 0 then 0 else (extendTo64 len (tySigned f.ty.toNat) (a >>> pos)).toNat

/-- A compare's mask: bit `pl` of m[D] for each active physical lane, from the lane's element ELEM (R122). -/
def maskCompare (s : State) (f : FmtA) (test : Nat → Nat → Bool) : Out :=
  let w := s.cur
  let n := elemCount f.ty
  let wd := tyWidth f.ty
  let el := (f.mod.extractLsb' 4 2).toNat
  let act := activeMask w f.pm f.pi
  let d := mfield f.d
  let old := readM w d
  let new := buildMask fun pl =>
    if act.getLsbD pl then
      let e := pl * (n / 128) + el
      test (srcElem w f.a n wd e) (srcB w f n wd e)
    else old.getLsbD pl
  answer s (retire (writeM w d new))

def execVcmp (f : FmtA) (s : State) : Out :=
  maskCompare s f (intCond (f.mod.toNat % 16) (tyWidth f.ty) (tySigned f.ty.toNat))

/-- VSEL chooses by the bit of m[C] at the element's position (R123). -/
def execVsel (f : FmtA) (s : State) : Out :=
  let n := elemCount f.ty
  let wd := tyWidth f.ty
  let m := readM s.cur (mfield f.c)
  vecWrite s f n wd fun e =>
    if m.getLsbD (laneOfElem n e) then srcElem s.cur f.a n wd e else srcB s.cur f n wd e
def execVmov (f : FmtA) (s : State) : Out := vecUn s f fun _ a => a
/-- VBCAST always reads x[B] (R123). -/
def execVbcast (f : FmtA) (s : State) : Out :=
  vecWrite s f (elemCount f.ty) (tyWidth f.ty) fun _ => (readX s.cur f.b).toNat
/-- VIOTA counts elements in arm numbering (R123). -/
def execViota (f : FmtA) (s : State) : Out :=
  let n := elemCount f.ty
  vecWrite s f n (tyWidth f.ty) fun e => (readX s.cur f.b).toNat + armElem s.cur n e
/-- VEXTR reads element x[B] mod N in arm numbering, 0 when its position is at or beyond VL (R123); it runs whole after TRET
with sr.replay not 0 (log entry 51). -/
def execVextr (f : FmtA) (s : State) : Out :=
  let w := s.cur
  let n := elemCount f.ty
  let wd := tyWidth f.ty
  let j := (readX w f.b).toNat % n
  answer s (retire (writeX w f.d (extendTo64 wd (tySigned f.ty.toNat) (crossElem w f.a n wd j))))
/-- VINS writes element x[B] mod N in arm numbering when its position is below VL (R123); it runs whole after TRET with sr.replay not 0,
having no predicate (DESIGN CHOICE, unsafe: log entry 51). -/
def execVins (f : FmtA) (s : State) : Out :=
  let w := s.cur
  let n := elemCount f.ty
  let wd := tyWidth f.ty
  let j := (readX w f.b).toNat % n
  let w' := if j / (n / 128) < w.vl then
      match physElem w n j with
      | some e => { w with v := writeGroup w.v f.d.toNat n wd (fun k => k == e) fun _ => (readX w f.a).toNat }
      | none => w
    else w
  answer s (retire w')

end Sys2Proof.Machine
end

