-- ==== Sys2Proof/Machine/VecFp.lean ====
section
/-! DEFINITION. Vector floating-point arithmetic, dot products, conversion and special functions (06 R124 to R129). -/

namespace Sys2Proof.Machine

/-- The format of a vector floating-point TYPE (R124); codes it does not take do not reach here. -/
def vFmt (t : BitVec 4) : FpFmt := (fmtOf t.toNat).getD fmtF32

/-- One floating-point result per active element from a and b (R124). -/
def vfpBin (s : State) (f : FmtA) (op : FpFmt → Rnd → Nat → Nat → Nat) : Out :=
  let n := elemCount f.ty
  let wd := tyWidth f.ty
  vecWrite s f n wd fun e => op (vFmt f.ty) (rndOf f.rnd) (srcElem s.cur f.a n wd e) (srcB s.cur f n wd e)

/-- One floating-point result per active element from a (R124, R129). -/
def vfpUn (s : State) (f : FmtA) (op : FpFmt → Rnd → Nat → Nat) : Out :=
  let n := elemCount f.ty
  let wd := tyWidth f.ty
  vecWrite s f n wd fun e => op (vFmt f.ty) (rndOf f.rnd) (srcElem s.cur f.a n wd e)

def execVfadd (f : FmtA) (s : State) : Out := vfpBin s f fpAdd
def execVfsub (f : FmtA) (s : State) : Out := vfpBin s f fpSub
def execVfmul (f : FmtA) (s : State) : Out := vfpBin s f fpMul
/-- VFMA: one rounding, NEGP and NEGC (R124). -/
def execVfma (f : FmtA) (s : State) : Out :=
  let n := elemCount f.ty
  let wd := tyWidth f.ty
  vecWrite s f n wd fun e => fpFma (vFmt f.ty) (rndOf f.rnd) (negP f) (negC f) (srcElem s.cur f.a n wd e)
    (srcB s.cur f n wd e) (srcElem s.cur f.c n wd e)
def execVfmin (f : FmtA) (s : State) : Out := vfpBin s f fun fm _ a b => fpMin fm a b
def execVfmax (f : FmtA) (s : State) : Out := vfpBin s f fun fm _ a b => fpMax fm a b
def execVfcmp (f : FmtA) (s : State) : Out :=
  maskCompare s f fun a b => fpCond (f.mod.toNat % 16) (decodeFp (vFmt f.ty) a) (decodeFp (vFmt f.ty) b)
def execVfclass (f : FmtA) (s : State) : Out := vfpUn s f fun fm _ a => fpClass fm a
def execVround (f : FmtA) (s : State) : Out := vfpUn s f fpRound
def execVfrac (f : FmtA) (s : State) : Out := vfpUn s f fpFrac
/-- VSCALE reads b as a signed integer of the element width (R124). -/
def execVscale (f : FmtA) (s : State) : Out :=
  vfpBin s f fun fm md a b => fpScale fm md a (toSigned (tyWidth f.ty) b)

/-- Bit 31 of an f32 flipped when `n`. -/
def negF32 (n : Bool) (x : Nat) : Nat := if n then x ^^^ 0x80000000 else x

/-- The products of a lane of a dot product over elements of type `t2` (R126). -/
def dotProducts (w : Warp) (f : FmtA) (per pl : Nat) : List Fv :=
  let t := f.ty2.toNat
  let wd := tyWidth f.ty2
  (List.range per).map fun j =>
    let a := elemOf (readV w f.a) wd (pl * per + j)
    let b := if f.bx = 1 then ((readX w f.b).toNat >>> (wd * j)) % 2 ^ wd else elemOf (readV w f.b) wd (pl * per + j)
    let p := Fv.mul (valueOf t a) (valueOf t b)
    if negP f then p.neg else p

/-- The exact integer sum of the s8 or z8 form (R126, R54). -/
def dotInt (w : Warp) (f : FmtA) (pl : Nat) : Nat :=
  let sg := tySigned f.ty2.toNat
  let c : Int := (laneOf (readV w f.c) pl).toNat
  let sum : Int := (List.range 4).foldl (fun acc j =>
    let a := elemOf (readV w f.a) 8 (pl * 4 + j)
    let b := if f.bx = 1 then ((readX w f.b).toNat >>> (8 * j)) % 256 else elemOf (readV w f.b) 8 (pl * 4 + j)
    acc + elemInt 8 sg a * elemInt 8 sg b) 0
  ofSigned 32 ((if negP f then -sum else sum) + (if negC f then -c else c))

def execVdot2 (f : FmtA) (s : State) : Out :=
  let w := s.cur
  vecWrite s f 128 32 fun pl => groupSum (negF32 (negC f) (laneOf (readV w f.c) pl).toNat) (dotProducts w f 2 pl)
def execVdot4 (f : FmtA) (s : State) : Out :=
  let w := s.cur
  vecWrite s f 128 32 fun pl =>
    if f.ty = 4 then dotInt w f pl
    else groupSum (negF32 (negC f) (laneOf (readV w f.c) pl).toNat) (dotProducts w f 4 pl)

/-- VCVT or XFM.cvt completed at once: the lanes in no fault case written; with a faulting lane sr.replay holds those lanes
and a CONVERT trap is taken with the word as sr.tval (R52, R128). -/
def convertNow (s : State) (f : FmtA) (i : Instr) : Out :=
  let w := s.cur
  let act := activeMask w f.pm f.pi
  let bad := cvtFaults w f act
  let w1 := cvtWrite w f act
  if bad = 0 then answer s (retire w1)
  else .next (raiseTrap { s with cur := { w1 with replay := bad } } cConvert (cvtLowest w f act) ((encode i).getD 0))

def execVcvt (f : FmtA) (s : State) : Out := convertNow s f (.vcvt f)

def execVrcp (f : FmtA) (s : State) : Out := vfpUn s f fun fm _ a => sfuRcp fm a
def execVrsq (f : FmtA) (s : State) : Out := vfpUn s f fun fm _ a => sfuRsq fm a
def execVsqrt (f : FmtA) (s : State) : Out := vfpUn s f fpSqrt
def execVfdiv (f : FmtA) (s : State) : Out := vfpBin s f fpDiv
def execVexp2 (f : FmtA) (s : State) : Out := vfpUn s f fun fm _ a => sfuExp2 fm a
def execVlog2 (f : FmtA) (s : State) : Out := vfpUn s f fun fm _ a => sfuLog2 fm a
def execVsinpi (f : FmtA) (s : State) : Out := vfpUn s f fun fm _ a => sfuSinPi fm a
def execVcospi (f : FmtA) (s : State) : Out := vfpUn s f fun fm _ a => sfuCosPi fm a
def execVtanh (f : FmtA) (s : State) : Out := vfpUn s f fun fm _ a => sfuTanh fm a

end Sys2Proof.Machine
end

