-- ==== Sys2Proof/Machine/Xfm.lean ====
section
/-! DEFINITION. XFM and the reply of its pipe (08 R195). DESIGN CHOICE, safe: when its result is formed, log entry 30. -/

namespace Sys2Proof.Machine

/-- An XFM enters its pipe; its generators are used at issue (R50, R195). -/
def xfmIssue (s : State) (i : Instr) (act : Mask) (gens : Vector (BitVec 32) 128) : Out :=
  let w := s.cur
  match w.who with
  | .thread _ _ => answer s (retire w)
  | .warp d c p _ =>
    let e : XfmEntry := { word := (encode i).getD 0, owner := warpId w, active := act, writes := xfmOwed w i act }
    let s := s.onCore d c fun x => setPipe x p.val (pipeOf x p.val ++ [e])
    answer s (retire { w with gens })

/-- XFM.cvt and .quant: under a policy that can fault the conversion completes, or traps, before the next instruction issues
(R29). -/
def xfmConvert (s : State) (f : FmtA) (i : Instr) : Out :=
  if hasFaultPolicy f then convertNow s f i
  else xfmIssue s i (activeMask s.cur f.pm f.pi) (cvtWrite s.cur f (activeMask s.cur f.pm f.pi)).gens

def execXfmCvt (f : FmtA) (s : State) : Out := xfmConvert s f (.xfmCvt f)
def execXfmQuant (f : FmtA) (s : State) : Out := xfmConvert s f (.xfmQuant f)
def execXfmTr8 (f : FmtA) (s : State) : Out := xfmIssue s (.xfmTr8 f) (BitVec.allOnes 128) s.cur.gens
def execXfmTr16 (f : FmtA) (s : State) : Out := xfmIssue s (.xfmTr16 f) (BitVec.allOnes 128) s.cur.gens
def execXfmTr32 (f : FmtA) (s : State) : Out := xfmIssue s (.xfmTr32 f) (BitVec.allOnes 128) s.cur.gens
def execXfmPack (f : FmtA) (s : State) : Out := xfmIssue s (.xfmPack f) (BitVec.allOnes 128) s.cur.gens
def execXfmUnpack (f : FmtA) (s : State) : Out := xfmIssue s (.xfmUnpack f) (BitVec.allOnes 128) s.cur.gens

/-- XFM_REPLY: the oldest entry of a core's pipe writes its destination. -/
def execXfmReply (d : Fin 2) (core : Fin 24) (pipe : Fin 2) (s : State) : Out :=
  let ply := 4 * pipe.val
  match pipeOf (s.coreAt d core) ply with
  | [] => .next s
  | e :: rest =>
    let s := s.onCore d core fun x => setPipe x ply rest
    .next (s.mapAgents (isWarp e.owner) fun w => xfmComplete w e)

end Sys2Proof.Machine
end

