-- ==== Sys2Proof/Machine/Internal.lean ====
section
/-! DEFINITION. What the hardware does of itself, and in what order the model lets it when the agenda is empty (log entry 2):
each function answers the state after one such thing, when there is one to do. -/

namespace Sys2Proof.Machine

/-- The state an outcome answers; an event always answers one. -/
def stateOf (s : State) : Out → State
  | .next t => t
  | _ => s

/-- The first update on its way to a knot that may reach it (R159). -/
def dueKnot (s : State) : Option State :=
  ((List.range s.knotQ.length).find? fun n => (knotUpdateReady s n).isSome).map fun n => knotUpdateAt s n

/-- A logical tick (R221). -/
def dueTick (s : State) : Option State := (bothDies.find? fun d => tickDue (s.die d)).map fun d => tickDie s d

/-- A wait whose deadline is reached (R164). -/
def dueDeadline (s : State) : Option State :=
  (s.agents.find? (waitDue s)).map fun w => s.withAgent w.who fun s => if waitDue s s.cur then expireCur s else s

/-- What an agent is held at has room again (R171, R183, R187, R379). -/
def heldOver (s : State) (w : Warp) : Bool :=
  match w.status, w.who with
  | .held .copies, .warp d c _ _ => (freeEntry s (isCopyOf d c) 32).isSome
  | .held (.matrix p), .warp d c _ _ => (freeEntry s (isMatrixOf d c p) 16).isSome
  | .held .promises, _ => decide (w.promises.length < 8)
  | .held .port, who => decide ((hirqOf s (agentDie who)).length < 64)
  | _, _ => false

/-- A held agent issues again, and a thread in QWAIT takes its events (R354). -/
def dueHeld (s : State) : Option State :=
  match s.agents.find? (heldOver s) with
  | some w => some (s.onAgent w.who fun w => { w with status := .running })
  | none =>
    (s.agents.find? fun w => match w.status with
      | .qwait _ => w.events != 0
      | _ => false).map fun w => s.onAgent w.who fun w => match w.status with
        | .qwait dst => takeEvents w dst
        | _ => w

/-- A transform pipe replies (R195). -/
def dueXfm (s : State) : Option State :=
  bothDies.findSome? fun d => (List.finRange 24).findSome? fun c =>
    if (s.coreAt d c).pipe0 ≠ [] then some (stateOf s (execXfmReply d c 0 s))
    else if (s.coreAt d c).pipe1 ≠ [] then some (stateOf s (execXfmReply d c 1 s))
    else none

/-- Load data returns, oldest first (R28). -/
def dueLoad (s : State) : Option State :=
  (s.agents.find? fun w => w.status != .exited && !w.pend.isEmpty).map fun w => s.withAgent w.who fun s => landLoad s 0 none

/-- A roving warp's limit, arrival or end of restore (R37, R38). -/
def dueRove (s : State) : Option State :=
  (s.agents.filter fun w => w.status != .exited && w.rove.isSome).findSome? fun w =>
    match w.rove with
    | none => none
    | some r =>
      if restoreDue s w then some (s.onAgent w.who (roveRestore (s.die (agentDie w.who)).tc))
      else if roveArrived w then some (s.withAgent w.who wakeRove)
      else if r.phase = .rove ∧ 1024 ≤ r.count then some (s.onAgent w.who roveLimit)
      else (roveFloored s w).map fun t => s.onAgent w.who fun _ => t

/-- A command starts, ends, or stops at an element (R172, R177, R180, R183, R189). -/
def cmdDue (s : State) (c : Cmd) : Option State :=
  if c.st = .running then
    (match c.kind with
     | .matrix _ => if mxRuns s c then some (stateOf s (execMatrixComplete c.id s)) else none
     | .stage _ => if stageSent s c then some (endCmd s c.id 0) else none
     | _ =>
       if copyRuns s c then
         match moveAll s c with
         | (s', c', none) => some (endCmd (s'.onCmd c.id fun _ => c') c.id c'.err)
         | (s', c', some e) => some (stopCmd s' c' e)
       else none)
  else if c.st = .waiting then
    (match c.kind with
     | .matrix _ => if mxEmpty s c ∨ (mxStarts s c).isSome then some (startMatrix s c) else none
     | .stage _ => if c.ready ∧ cmdMayRun s c then some (s.onCmd c.id (beginCmd s)) else none
     | _ => if (nextCopy s c.d).map (·.id) = some c.id then some (startCopy s c) else none)
  else none

/-- The first command that has something to do. -/
def dueCmd (s : State) : Option State := s.cmds.findSome? (cmdDue s)

/-- A record is posted to a fault spool or an error log (R361, R430). -/
def duePost (s : State) : Option State :=
  bothDies.findSome? fun d =>
    let x := s.die d
    if x.spoolQ.any (postable x) then some (spoolPost s d)
    else if !x.elogQ.isEmpty && elogRoom x then some (errorLogPost s d)
    else none

/-- A team retires (R236). -/
def dueRetire (s : State) : Option State := (s.teams.find? (mayRetire s)).map fun t => retireTeam s t

/-- A node ends whose last clock has passed (R348, R352). -/
def dueNode (s : State) : Option State :=
  bothDies.findSome? fun d => ((s.die d).nodes.find? (nodeDue (s.die d))).map fun n => endNode s d n

/-- The swift places or resumes a team, or pre-empts for class 0 (R349, R350, R249). -/
def duePlace (s : State) : Option State :=
  match bothDies.findSome? fun d => (swiftNext s d).map (·.2) with
  | some t => some t
  | none => match bothDies.findSome? (notePassed s) with
    | some t => some t
    | none => bothDies.findSome? (preemptClass0 s)

/-- A held queue's hold is over (R342, R437). -/
def dueQueue (s : State) : Option State :=
  bothDies.findSome? fun d => ((List.finRange 64).find? fun q => holdOver s ⟨d, q⟩).map fun q => retryHold s ⟨d, q⟩

/-- The raster front end takes a batch, or the depth and blend unit works (R290, R299). -/
def dueRaster (s : State) : Option State :=
  bothDies.findSome? fun d =>
    if !(s.die d).front.isEmpty then some (stateOf s (execRasterBatch d s))
    else if blendPending (s.die d) then some (stateOf s (execFragmentApply d s))
    else none

/-- The reel's running: a second begins, a link's first attempt fails, a slot sends, a receiver gives up (R400, R403, R405,
R409). -/
def dueLinks (s : State) : Option State :=
  let r := s.reel
  if (r.st = .wait ∨ r.st = .resync) ∧ s.stage.sec ≠ r.since then some (secondBoundary s)
  else match (List.finRange 8).find? fun l => r.st == .train && !r.links[l].up && !r.links[l].failedFirst &&
      decide (r.trainAt + trainLimit ≤ s.stage.osc) with
    | some l => some (linkTimeout s l)
    | none =>
      match (List.finRange 8).findSome? fun l => (slotDue s l).map fun p => transmit s l p.1 p.2 with
      | some t => some t
      | none => (r.rx.find? fun x => rxStale s x.2).map fun x => closeRx s x.1

/-- The reel: a table takes force (R406), or its running. -/
def dueReel (s : State) : Option State :=
  match s.reel.switch with
  | some (_, sec, _) => if sec ≤ s.stage.sec then some (tableForce s) else dueLinks s
  | none => dueLinks s

/-- A head scans a line (R412). -/
def dueScan (s : State) : Option State :=
  bothDies.findSome? fun d => (bothDies.find? (lineDue s d)).map (scanLine s d)

/-- A head's frame begins (R412). -/
def dueFrame (s : State) : Option State :=
  bothDies.findSome? fun d => (bothDies.find? fun h => (s.head d h).st == .on &&
    decide (frameTime (s.head d h) (s.head d h).nextFrame ≤ stageNs s)).map fun h => frameStart s d h

/-- A shootdown, a partition operation or the attestation engine ends (R360, R373, R394). -/
def dueOps (s : State) : Option State :=
  match bothDies.findSome? fun d =>
      if (s.die d).shootdown.isSome then some (sdComplete s d)
      else if (s.die d).partOp.isSome then some (partComplete s d)
      else none with
  | some t => some t
  | none => if s.host.busy.isSome then some { s with host := engineComplete s.host (stageNs s) } else none

/-- The power arbiter's boundary, or a partition's energy period (R350, R420). The Jorrad chiplet's reading is a free value. -/
def dueEnergy (s : State) : Option State :=
  if arbiterDue s then some (arbiterPeriod s ⟨Config.jorradPower (stageNs s / 10000)⟩)
  else bothDies.findSome? fun d => ((List.finRange 8).find? (energyDue s d)).map (refillRem s d)

/-- The deadlock detector has counted a cluster out (R247). -/
def dueDeadlock (s : State) : Option State :=
  bothDies.findSome? fun d => ((s.die d).stalls.find? fun p => decide (65536 ≤ p.2) && clusterStuck s p.1).map fun p =>
    stateOf s (execDeadlockDetect d p.1 s)

/-- Everything the hardware does of itself, in the model's order (log entry 2). -/
def internals : List (State → Option State) :=
  [dueNode, dueKnot, dueTick, dueEnergy, dueHeld, dueXfm, dueLoad, dueRove, dueCmd, dueOps, duePost, dueRaster, dueRetire, dueDeadline, dueQueue,
   duePlace, dueReel, dueScan, dueFrame, dueDeadlock]

/-- What comes due with time, and is done before more of it passes: the arbiter's boundaries, the refills of allowances, and the slots of
the reel (R350, R405, R420). -/
def nextTimed (s : State) : Option State := [dueEnergy, dueReel].findSome? fun f => f s

/-- The next thing the hardware does of itself, if there is one. -/
def nextInternal (s : State) : Option State := internals.findSome? fun f => f s

end Sys2Proof.Machine
end

