-- ==== Sys2Proof/Machine/Issue.lean ====
section
/-! DEFINITION. Issue of an instruction (01 R25 to R29; 05 R100; 07 R151), the passing of time, and the moves of the agenda
(log entries 2, 3, 29 and 45: DESIGN CHOICE, unsafe). -/

namespace Sys2Proof.Machine

/-! ### Time (log entry 3) -/

/-- `n` core clocks of a die; clocks with a throttled core are counted (R20, R426). -/
def dieClocks (n : Nat) (x : Die) : Die :=
  let x := { x with clock := x.clock + n }
  if x.cores.any (·.throttled) then countUp x 1 n else x

/-- The warps that the resident teams of each context have on a core. -/
def coreCtxs (s : State) (d : Fin 2) (c : Fin 24) : List (Nat × Nat) :=
  (s.teams.filter fun t => t.d == d && t.core == c && (t.phase == .starting || t.phase == .running)).map fun t => (t.ctx, t.kernel.warps)

/-- A core's static energy for `n` clocks (R414): its partition's, and its resident contexts' in proportion to their warps; the
die's own where no resident partition holds it. -/
def chargeStatic (d : Fin 2) (n : Nat) (s : State) (c : Fin 24) : State :=
  let e := n * Config.staticPj
  match coreSeat (s.die d) d c with
  | none => s.onDie d fun x => { x with rawSys := x.rawSys + e }
  | some (p, _) =>
    let l := coreCtxs s d c
    let all := l.foldl (fun n q => n + q.2) 0
    let s := s.onCore d c fun x => { x with raw := x.raw + e }
    s.onDie d fun x => { x with
      rawPart := x.rawPart.set p (x.rawPart[p] + e),
      rawCtx := l.foldl (fun t q => tblSet t q.1 (tblGetD t q.1 0 + e * q.2 / all)) x.rawCtx }

/-- Core clocks of each die and stage time pass, in units of 2^-40 ns, with the logical ticks they reach (R221). -/
def passTime (s : State) (n0 n1 t : Nat) : State :=
  let s := (s.onDie 0 (dieClocks n0)).onDie 1 (dieClocks n1)
  let s := (List.finRange 24).foldl (chargeStatic 1 n1) ((List.finRange 24).foldl (chargeStatic 0 n0) s)
  let s := { reelPass s with stage := advanceStage s.stage t }
  tickUp (tickUp (countStalls (countStalls s 0 n0) 1 n1) 0) 1

/-- One core clock at 2 GHz on both dies. -/
def tick (s : State) : State := passTime s 1 1 549755813888

/-! ### Issue -/

/-- An agent issues: it runs, and if it roves it has neither ended nor is being restored (R26, R40). -/
def canIssue (w : Warp) : Bool :=
  w.status == .running && (match w.rove with
    | some r => r.phase == .rove
    | none => true)

/-- What a fetched instruction comes to at issue. -/
inductive Ready where
  | go
  | stall
  | poisoned (sector : Nat)
  | soft (e : ErrSite)
  deriving DecidableEq, Repr

/-- A release waits until every earlier load of its warp has returned (R155, R216). -/
def releaseStall (w : Warp) : Instr → Bool
  | .fenceRel _ | .fenceAcqrel _ | .karr _ | .karrw _ | .ksig _ | .notify _ | .tlaunch _ => !w.pend.isEmpty
  | _ => false

/-- A batch does not reach a front end without room for it (R288). An empty front end has room. DESIGN CHOICE: log entry 34. -/
def frontFull (x : Die) : Bool := !(x.front.isEmpty) && decide (Config.frontRoom ≤ x.front.length)

/-- GEMIT.end does not issue while the front end has no room (R288). -/
def emitStall (s : State) : Instr → Bool
  | .gemitEnd _ => s.cur.batch.isSome && (s.curTeam.map fun t => frontFull (s.die t.home)).getD false
  | _ => false

/-- An instruction waits for the registers it names (R28), for what its release waits on, or for room, or its reading of a register
finds lost data (R151) or an uncorrectable error (R429), or it issues. -/
def readyTo (s : State) (i : Instr) : Ready :=
  if owedStall s.cur i || pipeStall s s.cur i || replayStall s.cur || releaseStall s.cur i || emitStall s i || tableStall s i then .stall
  else match poisonRead s.cur i with
    | some sec => .poisoned sec
    | none => match softRead s i with
      | some e => .soft e
      | none => .go

/-- An outcome's next state changed. -/
def onNext (f : State → State) : Out → Out
  | .next s => .next (f s)
  | .fault e => .fault e
  | .refused r => .refused r

/-- Who pays for an agent's work: a warp's context, and the core it runs on with its partition; the dies pay for a thread's (R414). -/
def agentPayer (s : State) (w : Warp) : Option Payer :=
  match w.who with
  | .warp d c _ _ => corePayer s w.ctx d c
  | .thread _ _ => none

/-- The thread that issues is the one the barrel has come to (R353). -/
def turnBarrel (s : State) : State :=
  match s.cur.who with
  | .thread d t => s.onDie d fun x => { x with lastThread := t }
  | .warp _ _ _ _ => s

/-- The issuing agent's clock: its next instruction has its meaning `ex`, or it stalls, faults at its fetch, or is stopped. -/
def issueNow (ex : Instr → State → Out) (s : State) : Out :=
  if s.cur.rove.isSome then .next (roveStep ex s)
  else match fetchInstr s with
    | (s, .fault r) => .next (fetchFault s r)
    | (s, .lost sec) => .next (uncorrected s 1 (32 * sec) (BitVec.ofNat 64 (32 * sec)))
    | (s, .bad sub w) => .next (violate s cIllegal sub w)
    | (s, .instr i) =>
      match readyTo s i with
      | .go => onNext (clearMarks i s.cur) (ex i (countIssue i s))
      | .stall => .next (roveEnter s)
      | .poisoned sec => .next (uncorrected s 1 (32 * sec) (BitVec.ofNat 64 (32 * sec)))
      | .soft e => .next (softStop s e)

/-- The same, with the energy of what it does charged to its context (R414). -/
def issue (ex : Instr → State → Out) (s : State) : Out :=
  let s := turnBarrel (chargeTo s none)
  onNext (fun t => chargeTo t (agentPayer s s.cur)) (issueNow ex s)

/-- Another agent becomes the issuing one. -/
def switchTo (s : State) (who : Agent) : State :=
  if s.cur.who = who ∧ s.cur.status ≠ .exited then s
  else match s.others.find? fun w => w.who == who && w.status != .exited with
    | none => s
    | some w => { s with cur := w, others := s.others.filter (fun o => !(o.who == who && o.status != .exited)) ++ [s.cur] }

/-- The thread of a die that the barrel comes to next among those able to issue (R353). -/
def barrelNext (s : State) (d : Fin 2) (l : List Warp) : Option Agent :=
  let last := (s.die d).lastThread.val
  ((List.range 64).map fun k => Agent.thread d (Fin.ofNat 64 (last + 1 + k))).find? fun a => l.any fun w => w.who == a

/-- The agent that issues when the issuing one does not: one that has not yielded before one that has, one that does not rove
before one that does, and of those the one that has waited longest (R26, R107); threads of a die in barrel order (R353). -/
def nextAgent (s : State) : Option Agent :=
  let l : List Warp := (s.others ++ [s.cur]).filter canIssue
  let pick := match l.find? (fun w : Warp => !w.yielded && w.rove.isNone) with
    | some w => some w.who
    | none => match l.find? (fun w : Warp => w.rove.isNone) with
      | some w => some w.who
      | none => l.head?.map fun w : Warp => w.who
  match pick with
  | some (.thread d _) => barrelNext s d l
  | a => a

/-- The issuing agent keeps issuing: a thread gives way after each instruction (R353; log entry 2). -/
def keepsIssuing (w : Warp) : Bool := canIssue w && !w.yielded && w.rove.isNone && !(isThread w.who)

/-- A warp that may stand stalled on a request that missed (R32). -/
def maybeRoves (w : Warp) : Bool := w.status == .running && w.rove.isNone && w.pend.any (·.missed)

/-- Every stalled warp that finds the conditions of R32 begins roving in this clock. -/
def roveAll (s : State) : State := (s.agents.filter maybeRoves).foldl (fun s w => s.withAgent w.who roveEnter) s

/-- A clock with nothing else to do: the issuing agent's instruction, or another's, or none. -/
def clockStep (ex : Instr → State → Out) (s : State) : Out :=
  let s := roveAll (tick s)
  if keepsIssuing s.cur then issue ex s
  else match nextAgent s with
    | some who => issue ex (switchTo s who)
    | none => .next s

/-! ### Moves -/

/-- An uncorrectable error in a copy that another place still holds drops it, to be fetched again, and counts as corrected; where there is
no clean copy there is no error of this kind (R428; log entry 41). -/
def dropClean (s : State) : CleanCopy → State
  | .l1 d c line =>
    if (s.coreAt d c).l1Use.any (·.1 == line) then
      (s.onCore d c fun x => { x with l1 := x.l1.filter fun e => e.1 / 4 != line, l1Use := x.l1Use.filter (·.1 != line) }).onDie d
        fun x => countUp x 9 1
    else s
  | .l2 d line =>
    if ((tblGet s.dir line).bind fun l => heldBy l (dieAgent d)).isSome && !(ownsDirty s (dieAgent d) line) then
      (letGo s (dieAgent d) none line).onDie d fun x => countUp x 9 1
    else s
  | .sys line => s.onDie (lineHome line) fun x =>
    if x.sys.any fun e => e.line == line && !e.dirty then countUp { x with sys := x.sys.filter fun e => e.line != line } 9 1 else x
  | .coreTlb d c n =>
    if n < (s.coreAt d c).tlb.length then
      (s.onCore d c fun x => { x with tlb := x.tlb.eraseIdx n }).onDie d fun x => countUp x 9 1
    else s
  | .dieTlb d n => s.onDie d fun x => if n < x.tlb.length then countUp { x with tlb := x.tlb.eraseIdx n } 9 1 else x

/-- A hardware prefetcher of a core's L1, or of its die's L2 or its sampler, asks for an address of a resident team's context (R358): it
fills TLBs and brings the line where the address lies on a PMA page that may be read, and does nothing elsewhere. -/
def prefetchMove (s : State) (d : Fin 2) (c : Fin 24) (team : Nat) (va : Word) (l1 : Bool) : State :=
  match s.findTeam team with
  | none => s
  | some t =>
    if t.phase = .running ∧ t.d = d ∧ t.core = c then
      match translateOn s d (some c) t.ctx t.ctxRec.ppn va .read with
      | (_, .error _) => s
      | (u, .ok ph) =>
        if ph.kind ≠ .pma then s
        else if l1 then
          (fetchLine u { d, core := some c, part := corePart (s.die d) d c, wclk := (s.die d).tc, lease := t.ctxRec.lease,
                         ranges := t.ctxRec.ranges } c t.ctx va (ph.pa / 128) true).1
        else agentRead u (dieAgent d) (corePart (s.die d) d c) (ph.pa / 128)
    else s

/-- A fatal error has stopped the module (R431). -/
def stopped (s : State) : Bool := (s.die 0).fatal || (s.die 1).fatal

/-- What the masters of the dies do: the cores, engines, the distaff and the swift, and the L2s as agents of the homes. Every other event
is of the outside, or of a port the outside writes. -/
def ofMaster : Instr → Bool
  | .loadDataReturn .. | .roveEnter _ | .roveInstructionLimit _ | .roveRestoreDone _ | .logicalTick _ | .knotUpdate _
  | .deadlineReached _ | .deadlockDetect .. | .commandStart _ | .copyComplete _ | .matrixComplete _ | .stageCopyComplete _
  | .copyElementFault _ | .xfmReply .. | .spoolPost _ | .errorLogPost _ | .teamPlace _ | .teamRetire _ | .preemptRequest _
  | .preemptClass0 _ | .teamResume _ | .launchGrid .. | .launchGraph .. | .copy .. | .waitFence .. | .waitFenceSatisfied _
  | .signalFence .. | .flip .. | .timestamp .. | .queueBarrier _ | .setContext .. | .setEnergy .. | .resetQueueDrain ..
  | .resetQueueAbort .. | .nopPacket _ | .threadResume .. | .hostirq .. | .shootdownComplete _ | .swapComplete _ | .rasterBatch _
  | .fragmentApply _ | .directoryEvict _ | .slotTransmit _ | .receiverTimeout _ | .frameStart .. | .patrolScrub .. | .energyPeriod ..
  | .arbiterPeriod _ | .distaffImageStart .. | .memoryTraining .. => true
  | .readShared a _ | .readUnique a _ | .upgrade a _ | .writeBack a _ _ | .evictionNotice a _ => a != 2
  | _ => false

/-- A move of the agenda. An instruction is no event: only an agent issues it. -/
def doMove (ex : Instr → State → Out) (s : State) : Move → Out
  | .event i => if (encode i).isSome then .next s else ex i s
  | .run who =>
    let s := switchTo (roveAll (tick s)) who
    if s.cur.who = who ∧ canIssue s.cur = true then issue ex s else .next s
  | .queue q => .next (serveQueue s q)
  | .elapse n0 n1 ns => .next (roveAll (passTime s n0 n1 (ns * 1099511627776)))
  | .hartStore addr bs => .next (hartStore s addr bs)
  | .corrected d => .next (s.onDie d fun x => countUp x 9 1)
  | .mended sector ctx => .next (mendedRead s sector ctx)
  | .dropCopy c => .next (dropClean s c)
  | .prefetch d c team va l1 => .next (prefetchMove s d c team va l1)
  | .ioRoot ppn => .next { s with host := { s.host with ioRoot := ppn } }
  | .strike site => .next { s with softErrs := if s.softErrs.contains site then s.softErrs else s.softErrs ++ [site] }

/-- A move passes time. -/
def passesTime : Move → Bool
  | .run _ => true
  | .elapse _ _ _ => true
  | _ => false

/-- The agenda's next move; before one that passes time, what has come due with the time before it. -/
def nextMove (ex : Instr → State → Out) (s : State) (m : Move) (rest : List Move) : Out :=
  match if passesTime m then nextTimed s else none with
  | some t => .next t
  | none => doMove ex { s with agenda := rest } m

/-- A step after a fatal error: no master of either die acts, time passes, and the outside does what it does (R431). -/
def stoppedStep (ex : Instr → State → Out) (s : State) : Out :=
  match s.agenda with
  | [] => .next (tick s)
  | m :: rest =>
    let s := { s with agenda := rest }
    match m with
    | .event i => if (encode i).isSome || ofMaster i then .next s else ex i s
    | .elapse n0 n1 ns => .next (passTime s n0 n1 (ns * 1099511627776))
    | .ioRoot ppn => .next { s with host := { s.host with ioRoot := ppn } }
    | _ => .next s

/-- A step of a machine that runs: the agenda's next move, else what the hardware does of itself, else a clock. -/
def runningStep (ex : Instr → State → Out) (s : State) : Out :=
  match s.agenda with
  | m :: rest => nextMove ex s m rest
  | [] => match nextInternal s with
    | some t => .next t
    | none => clockStep ex s

/-- One step (log entry 2); a write-back it made of a line with an uncorrectable error is discarded where it is bad (R429). -/
def stepWith (ex : Instr → State → Out) (s : State) : Out :=
  onNext discardLost (if stopped s then stoppedStep ex s else runningStep ex s)

end Sys2Proof.Machine
end

