-- ==== Sys2Proof/Machine/Bench.lean ====
section
/-! DEFINITION. An instruction's word put where the next step fetches it (log entry 1): the model's only way of placing a
program, which stands for a driver's load. -/

namespace Sys2Proof.Machine

/-- The context of the placed warp: its root table is the page at 0x1000. -/
def benchCtx : CtxRec :=
  { ppn := 1, lease := 16, roveEn := false, hintEn := false, tvec := 0, groups := [], decTab := 0, stkBase := 0, stkSlot := 0,
    stkCount := 0, ranges := [] }

/-- A kernel of one warp, with 1 KiB of scratchpad, 8 knots and 256 tile rows. -/
def benchKernel : KDesc :=
  { entry := 0x10000, scratch := 1024, stack := 0, knots := 8, cells := 256, regs := 64, warps := 1, cw := 1, ch := 1,
    nargs := 0, version := 1, norove := false, reservedClear := true }

/-- The team of the placed warp. -/
def benchTeam (id : Nat) : Team :=
  { id, home := 0, d := 0, core := 0, base := 0, sbase := 0, row0 := 0, node := 0, tidx := 0, cluster := id, crank := 0, ctx := 0, ctxRec := benchCtx,
    kernel := benchKernel, args := 0, scratch := [], loose := .empty, tiles := [], seed := id, knots := [], phase := .running, killed := false,
    stopped := false, errCnt := 0, lastErr := 0, inReserve := false, saved := [], savedHeld := none, savedXfm := [], startAnswer := none, tts := 0,
    swapped := false, regions := [], fragment := false }

/-- Slot 0 of ply 0 of core 0 of CD0. -/
def benchAgent : Agent := .warp 0 0 0 0

/-- A root table whose first entry maps the low 256 TiB to themselves with every permission (R356), and the word at 0x10000. -/
def benchMem (m : Memory) (w : Word) : Memory := (m.write 0x1000 (toBytes 0xDF 8)).write 0x10000 (toBytes w.toNat 8)

/-- An agent put in the issuing place; whoever stood in its slot is gone, the agent that issued waits its turn. -/
def seat (s : State) (w : Warp) : State :=
  { s with cur := w, others := (s.cur :: s.others).filter fun o => o.who != w.who, agenda := [.run w.who] }

/-- The word of a warp's instruction placed, with all its fetch takes: a warp at its start values (R15) in a team and a context
of its own. -/
def placeWarpWord (s : State) (w : Word) : State :=
  let id := s.nextId
  let s := { s with mem := benchMem s.mem w, nextId := id + 1, teams := s.teams ++ [benchTeam id] }
  let s := s.onDie 0 fun x => { x with tlb := x.tlb.filter fun e => e.ctx != 0 }
  let s := s.onCore 0 0 fun x => { x with tlb := x.tlb.filter fun e => e.ctx != 0 }
  seat s { Warp.blank benchAgent with pc := 0x10000, team := id }

/-- The word of a distaff instruction placed: thread 0 of CD0 at address 0 of its distaff memory. -/
def placeThreadWord (s : State) (w : Word) : State :=
  let s := s.onDie 0 fun x => { x with dmem := x.dmem.write 0 (toBytes w.toNat 8) }
  seat s (Warp.blank (.thread 0 0))

/-- The word placed for the agent that executes its major. -/
def placeWord (s : State) (w : Word) : State := if majorOf w = 0x3D then placeThreadWord s w else placeWarpWord s w

end Sys2Proof.Machine
end

