-- ==== Sys2Proof/Machine/Branch.lean ====
section
/-! DEFINITION. Branches and LOOP (05 R99), and divergence: SPLIT, ARM and JOIN (05 R102 to R105; 01 R24). -/

namespace Sys2Proof.Machine

/-- A direct target: the branch's own address plus 8 x OFFSET (R61, R99). -/
def directTarget (w : Warp) (f : FmtB) : Word := w.pc + branchOffset f
/-- An indirect target, with bits 2:0 discarded (R61, R99). -/
def indirectTarget (w : Warp) (f : FmtB) : Word := (readX w f.a + branchOffset f) &&& ~~~7#64

/-- A branch taken when `c` (R99). -/
def branchIf (s : State) (f : FmtB) (c : Bool) : Out :=
  answer s (if c then jump s.cur (directTarget s.cur f) else retire s.cur)

def execBra (f : FmtB) (s : State) : Out := answer s (jump s.cur (directTarget s.cur f))
def execBraIndirect (f : FmtB) (s : State) : Out := answer s (jump s.cur (indirectTarget s.cur f))
def execBcc (f : FmtB) (s : State) : Out :=
  branchIf s f (intCond f.cond.toNat 64 (f.uns == 0) (readX s.cur f.a).toNat (readX s.cur f.b).toNat)
/-- BMK reads the lanes below VL; under an arm those of the arm (R68, R99). -/
def execBmk (f : FmtB) (s : State) : Out :=
  branchIf s f (maskCond f.cond.toNat (readM s.cur (mfield f.a)) (vlMask s.cur))
/-- CALL writes x62 after its target is formed (R99). -/
def execCall (f : FmtB) (s : State) : Out :=
  let w := s.cur
  answer s (jump (writeX w 62 (w.pc + 8)) (directTarget w f))
def execCallIndirect (f : FmtB) (s : State) : Out :=
  let w := s.cur
  answer s (jump (writeX w 62 (w.pc + 8)) (indirectTarget w f))
def execRet (f : FmtB) (s : State) : Out := answer s (jump s.cur (readX s.cur f.a &&& ~~~7#64))
def execLoop (f : FmtB) (s : State) : Out :=
  let w := s.cur
  let n := readX w f.a - 1
  let w1 := writeX w f.a n
  answer s (if n ≠ 0 then jump w1 (directTarget w f) else retire w1)

/-- The physical lanes with outcome `k` among the selected lanes below VL, in increasing position (R102); as a replay, those of
sr.replay only (R111; DESIGN CHOICE, unsafe: log entry 51). -/
def splitList (w : Warp) (f : FmtA) (k : Nat) : List Nat :=
  let act := activeMask w f.pm f.pi
  (List.range w.vl).filterMap fun p => match physOf w p with
    | some pl => if act.getLsbD pl && (laneOf (readV w f.a) pl).toNat == k then some pl else none
    | none => none

/-- SPLIT (R102): the entry pushed, the concatenated lists in v[D], the counts in x[B]; ILLEGAL sub-cause 4 at depth 8. -/
def execSplit (f : FmtA) (s : State) : Out :=
  let w := s.cur
  if 8 ≤ w.split.length then illegal s 4 (.split f)
  else
    let n := f.mod.toNat % 4 + 2
    let lists := (List.range n).map (splitList w f)
    let cat := lists.flatten.toArray
    let list := buildReg 8 fun k => if k < 128 then cat.getD k 255 else 0
    let counts := packNat 8 (fun k => (lists.toArray.getD k []).length) 4
    let entry : SplitEntry := { vl := w.vl, masks := w.m, arms := lists, active := none }
    let w1 := setV { w with split := entry :: w.split } f.d.toNat list
    answer s (retire (writeX w1 f.b (BitVec.ofNat 64 counts)))

/-- ARM (R103): VL and the mapping become the arm's; ILLEGAL sub-cause 5 where there is no such arm. -/
def execArm (f : FmtS) (s : State) : Out :=
  let w := s.cur
  match w.split with
  | [] => illegal s 5 (.arm f)
  | top :: rest =>
    match top.arms[f.sel.toNat]? with
    | none => illegal s 5 (.arm f)
    | some l =>
      answer s (retire { w with split := { top with active := some f.sel.toNat } :: rest, vl := l.length, mapping := some l })

/-- The mapping a split stack gives: the active arm's list of its top, or identity (R104). -/
def stackMapping (l : List SplitEntry) : Option (List Nat) :=
  match l with
  | [] => none
  | top :: _ => match top.active with
    | some k => top.arms[k]?
    | none => none

/-- JOIN (R104): VL and m1 to m15 as saved, the entry popped; ILLEGAL sub-cause 5 on an empty stack. -/
def execJoin (s : State) : Out :=
  let w := s.cur
  match w.split with
  | [] => illegal s 5 .join
  | top :: rest =>
    answer s (retire { w with vl := top.vl, m := top.masks, split := rest, mapping := stackMapping rest })

/-- YIELD has no architectural effect (R107). -/
def execYield (s : State) : Out := answer s { retire s.cur with yielded := true }
/-- NOP has no effect (R108). -/
def execNop (s : State) : Out := answer s (retire s.cur)

end Sys2Proof.Machine
end

