-- ==== Sys2Proof/Machine/Cross.lean ====
section
/-! DEFINITION. Cross-lane instructions (06 R130 to R136). Positions are arm positions; `posOf` and `physElem` map them. -/

namespace Sys2Proof.Machine

/-- 32-bit element at a position of v[r], 0 at or beyond VL (R130). -/
def lanePos (w : Warp) (r : BitVec 6) (j : Nat) : Nat := crossElem w r 128 32 j

/-- A permute of 32-bit elements: each active position receives `src` of its position and physical lane (R131). -/
def permute (s : State) (f : FmtA) (src : Nat → Nat → Nat) : Out :=
  vecWrite s f 128 32 fun pl => src (armElem s.cur 128 pl) pl

def execVperm (f : FmtA) (s : State) : Out :=
  permute s f fun _ pl => lanePos s.cur f.a (srcB s.cur f 128 32 pl % 128)
def execVpermx (f : FmtA) (s : State) : Out :=
  permute s f fun _ pl =>
    let j := srcElem s.cur f.c 128 32 pl % 256
    if j < 128 then lanePos s.cur f.a j else lanePos s.cur f.b (j - 128)
def execVrot (f : FmtA) (s : State) : Out :=
  let vl := s.cur.vl
  permute s f fun i _ => lanePos s.cur f.a ((i + (readX s.cur f.b).toNat % vl) % vl)
/-- The source position of VSHUFX (R131). -/
def shufSource (mode i m : Nat) : Int :=
  match mode with
  | 0 => ((i ^^^ m : Nat) : Int)
  | 1 => (i : Int) - (m : Int)
  | _ => ((i + m : Nat) : Int)

/-- VSHUFX: a source outside 0 to VL - 1 keeps the position's own value (R131). -/
def execVshufx (f : FmtA) (s : State) : Out :=
  permute s f fun i pl =>
    let j := shufSource (f.mod.toNat % 4) i ((readX s.cur f.b).toNat % 128)
    if 0 ≤ j ∧ j < (s.cur.vl : Int) then lanePos s.cur f.a j.toNat else srcElem s.cur f.a 128 32 pl

/-- VTRN interleaves blocks of `2^s` elements of two registers (R131). -/
def execVtrn (f : FmtA) (s : State) : Out :=
  let n := elemCount f.ty
  let wd := tyWidth f.ty
  let h := 2 ^ (f.mod.extractLsb' 1 4).toNat
  vecWrite s f n wd fun e =>
    let j := armElem s.cur n e
    let upper := (j / h) % 2 = 1
    if f.mod.getLsbD 0 then
      if upper then crossElem s.cur f.b n wd j else crossElem s.cur f.a n wd (j + h)
    else if upper then crossElem s.cur f.b n wd (j - h) else crossElem s.cur f.a n wd j

/-- The selected positions below VL, rising, for VCOMP and VEXPD (R132). -/
def selectedPositions (w : Warp) (pm : BitVec 4) (pi : BitVec 1) : List Nat :=
  let act := activeMask w pm pi
  (List.range w.vl).filter fun p => maskBitAt w act p

/-- VCOMP packs the selected lanes into the low positions, whatever the predicate there (R132). -/
def execVcomp (f : FmtA) (s : State) : Out :=
  let w := s.cur
  let sel := selectedPositions w f.pm f.pi
  let act := fun pl => match posOf w pl with
    | some q => decide (q < sel.length)
    | none => false
  let v := writeGroup w.v f.d.toNat 128 32 act fun pl => lanePos w f.a (sel.toArray.getD ((posOf w pl).getD 0) 0)
  answer s (retire { w with v })

/-- VEXPD spreads the low positions of a over the selected positions (R132). -/
def execVexpd (f : FmtA) (s : State) : Out :=
  let w := s.cur
  let sel := selectedPositions w f.pm f.pi
  permute s f fun i _ => lanePos w f.a ((sel.idxOf? i).getD 0)

/-- Identity of a reduction (R134). -/
def redIdent (op ty : Nat) : Nat :=
  match op with
  | 0 => if ty = 10 then 0x80000000 else 0
  | 1 => if ty = 10 then 0x7F800000 else if ty = 4 then 0x7FFFFFFF else 0xFFFFFFFF
  | 2 => if ty = 10 then 0xFF800000 else if ty = 4 then 0x80000000 else 0
  | 3 => 0xFFFFFFFF
  | _ => 0

/-- Operation of a reduction on two 32-bit values (R134). -/
def redOp (op ty a b : Nat) : Nat :=
  match op with
  | 0 => if ty = 10 then fpAdd fmtF32 .rne a b else (a + b) % 2 ^ 32
  | 1 => if ty = 10 then fpMin fmtF32 a b else aluMin 32 (tySigned ty) a b
  | 2 => if ty = 10 then fpMax fmtF32 a b else aluMax 32 (tySigned ty) a b
  | 3 => a &&& b
  | 4 => a ||| b
  | _ => a ^^^ b

/-- One level of the tree of R134: neighbours combined. -/
def pairUp (op : Nat → Nat → Nat) : List Nat → List Nat
  | a :: b :: t => op a b :: pairUp op t
  | l => l

/-- The tree of R134 over 128 values: t[0] after steps 1 to 64. -/
def redTree (op : Nat → Nat → Nat) (l : List Nat) : Nat :=
  (pairUp op (pairUp op (pairUp op (pairUp op (pairUp op (pairUp op (pairUp op l))))))).headD 0

/-- The value a position contributes: its own for a member below VL, the identity otherwise (R133). -/
def redInputs (w : Warp) (f : FmtA) (ident : Nat) : List Nat :=
  let mem := activeMask w f.pm f.pi
  (List.range 128).map fun p => if p < w.vl && maskBitAt w mem p then lanePos w f.a p else ident

def execVred (f : FmtA) (s : State) : Out :=
  let op := f.mod.toNat % 8
  let r := redTree (redOp op f.ty.toNat) (redInputs s.cur f (redIdent op f.ty.toNat))
  vecWrite s f 128 32 fun _ => r

/-- The values of a scan at positions 0 to 127 (R135). -/
def scanValues (op : Nat → Nat → Nat) (excl : Bool) : Nat → List Nat → List Nat
  | _, [] => []
  | acc, x :: t => (if excl then acc else op acc x) :: scanValues op excl (op acc x) t

def execVscan (f : FmtA) (s : State) : Out :=
  let op := f.mod.toNat % 8
  let id := redIdent op f.ty.toNat
  let vals := (scanValues (redOp op f.ty.toNat) (f.mod.getLsbD 3) id (redInputs s.cur f id)).toArray
  permute s f fun i _ => vals.getD i 0

/-- VVOTE over the member values below VL (R136). -/
def execVvote (f : FmtA) (s : State) : Out :=
  let w := s.cur
  let mem := activeMask w f.pm f.pi
  let vals := (selectedPositions w f.pm f.pi).map (lanePos w f.a)
  let bit := fun pl => match f.mod.toNat % 4 with
    | 0 => vals.any (· != 0)
    | 1 => vals.all (· != 0)
    | 2 => srcElem w f.a 128 32 pl != 0
    | _ => vals.all (· == vals.headD 0)
  let d := mfield f.d
  let old := readM w d
  answer s (retire (writeM w d (buildMask fun pl => if mem.getLsbD pl then bit pl else old.getLsbD pl)))

end Sys2Proof.Machine
end

