-- ==== Sys2Proof/Machine/MaskOps.lean ====
section
/-! DEFINITION. Mask instructions and the codebook (06 R137, R138). -/

namespace Sys2Proof.Machine

/-- A writer: the bits of m[D] at active positions take those of `val`, held by physical lane (R137). -/
def maskWrite (s : State) (f : FmtA) (val : Mask) : Out :=
  let w := s.cur
  let act := activeMask w f.pm f.pi
  let d := mfield f.d
  answer s (retire (writeM w d ((val &&& act) ||| (readM w d &&& ~~~act))))

def execMand (f : FmtA) (s : State) : Out := maskWrite s f (readM s.cur (mfield f.a) &&& readM s.cur (mfield f.b))
def execMor (f : FmtA) (s : State) : Out := maskWrite s f (readM s.cur (mfield f.a) ||| readM s.cur (mfield f.b))
def execMxor (f : FmtA) (s : State) : Out := maskWrite s f (readM s.cur (mfield f.a) ^^^ readM s.cur (mfield f.b))
def execMandn (f : FmtA) (s : State) : Out := maskWrite s f (readM s.cur (mfield f.a) &&& ~~~(readM s.cur (mfield f.b)))
def execMnot (f : FmtA) (s : State) : Out := maskWrite s f (~~~(readM s.cur (mfield f.a)))
def execMmov (f : FmtA) (s : State) : Out := maskWrite s f (readM s.cur (mfield f.a))
def execMset (f : FmtA) (s : State) : Out := maskWrite s f (if f.mod.getLsbD 0 then BitVec.allOnes 128 else 0)
/-- XTOM: bit 64h + q of m[D] takes bit q of x[A] (R137). -/
def execXtom (f : FmtA) (s : State) : Out :=
  let w := s.cur
  let h := if f.mod.getLsbD 0 then 64 else 0
  let old := readM w (mfield f.d)
  maskWrite s f (buildMask fun pl => match posOf w pl with
    | some p => if h ≤ p && p < h + 64 then (readX w f.a).getLsbD (p - h) else old.getLsbD pl
    | none => old.getLsbD pl)

/-- Positions below VL whose bit of m[A] is set, rising (R137). -/
def setPositions (w : Warp) (m : BitVec 4) : List Nat :=
  (List.range w.vl).filter fun p => maskBitAt w (readM w m) p

def execMpopc (f : FmtA) (s : State) : Out :=
  let w := s.cur
  answer s (retire (writeX w f.d (BitVec.ofNat 64 (setPositions w (mfield f.a)).length)))
def execMffs (f : FmtA) (s : State) : Out :=
  let w := s.cur
  answer s (retire (writeX w f.d (match setPositions w (mfield f.a) with
    | [] => BitVec.allOnes 64
    | p :: _ => BitVec.ofNat 64 p)))
def execMtox (f : FmtA) (s : State) : Out :=
  let w := s.cur
  let h := if f.mod.getLsbD 0 then 64 else 0
  let m := readM w (mfield f.a)
  answer s (retire (writeX w f.d (BitVec.ofNat 64 (packNat 1 (fun q =>
    if h + q < w.vl && maskBitAt w m (h + q) then 1 else 0) 64))))

/-- CBLD loads cb from bytes 32g to 32g + 31 of v[A] (R138). -/
def execCbld (f : FmtA) (s : State) : Out :=
  let w := s.cur
  let g := f.mod.toNat % 16
  let r := readV w f.a
  answer s (retire { w with cb := Vector.ofFn fun j : Fin 16 => r.extractLsb' (256 * g + 16 * j.val) 16 })
/-- CBST stores cb to bytes 32g to 32g + 31 of v[D] (R138). -/
def execCbst (f : FmtA) (s : State) : Out :=
  let w := s.cur
  let g := f.mod.toNat % 16
  let r := readV w f.d
  answer s (retire (setV w f.d.toNat (buildReg 16 fun e =>
    if e / 16 = g then (w.cb.toArray.getD (e % 16) 0).toNat else elemOf r 16 e)))

end Sys2Proof.Machine
end

