-- ==== Sys2Proof/Machine/Rays.lean ====
section
/-! DEFINITION. TRACE, RQNEXT, RQCOMMIT and RQTERM, and the walk of a ray query (08 R203 to R205; 13 R302 to R309). -/

namespace Sys2Proof.Machine

/-- A three-vector of f32 bits. -/
abbrev V3 := Nat × Nat × Nat

/-- Componentwise difference, cross and dot in the order of R308. -/
def v3sub (a b : V3) : V3 := (f32sub a.1 b.1, f32sub a.2.1 b.2.1, f32sub a.2.2 b.2.2)
def v3cross (a b : V3) : V3 :=
  (f32sub (f32mul a.2.1 b.2.2) (f32mul a.2.2 b.2.1), f32sub (f32mul a.2.2 b.1) (f32mul a.1 b.2.2),
   f32sub (f32mul a.1 b.2.1) (f32mul a.2.1 b.1))
def v3dot (a b : V3) : Nat := f32add (f32add (f32mul a.1 b.1) (f32mul a.2.1 b.2.1)) (f32mul a.2.2 b.2.2)

/-- -infinity and +infinity. -/
def f32ninf : Nat := 0xFF800000
def f32pinf : Nat := 0x7F800000

/-- Three words of a query as a vector. -/
def v3of (v : Vector (BitVec 32) 3) : V3 := (v[0].toNat, v[1].toNat, v[2].toNat)

/-- A row of an instance's transform applied: with the last column for the origin, without it for the direction (R306). -/
def xfRow (xf : List (BitVec 32)) (r : Nat) (p : V3) (point : Bool) : Nat :=
  let t := fun c => (xf.getD (4 * r + c) 0).toNat
  let sum := f32add (f32add (f32mul (t 0) p.1) (f32mul (t 1) p.2.1)) (f32mul (t 2) p.2.2)
  if point then f32add sum (t 3) else sum

/-- The ray of a query in the space of an entry (R306). -/
def rayIn (q : RayQuery) (inst : Option RayInstance) : V3 × V3 :=
  match inst with
  | none => (v3of q.o, v3of q.dir)
  | some i =>
    let f := fun (p : V3) (point : Bool) => (xfRow i.xf 0 p point, xfRow i.xf 1 p point, xfRow i.xf 2 p point)
    (f (v3of q.o) true, f (v3of q.dir) false)

/-- A bound of a child on an axis (R303): an exact product and one rounding of the sum. -/
def boxBound (md : Rnd) (o code ex : Nat) : Nat :=
  encodeFp fmtF32 md (Fv.add md (f32val o) (.fin false code ((ex : Int) - 127)))

/-- One axis of R307 on tn and tf; none is a miss. -/
def boxAxis (lo hi o d : Nat) (t : Nat × Nat) : Option (Nat × Nat) :=
  if (f32val d).isZero then if f32lt o lo || f32lt hi o then none else some t
  else
    let t1 := f32div (f32sub lo o) d
    let t2 := f32div (f32sub hi o) d
    some (f32max t.1 (f32min t1 t2), f32min t.2 (f32max t1 t2))

/-- The widened far bound (R307). -/
def widenFar (tf : Nat) : Nat :=
  let v := f32val tf
  let mag : Fv := match v with
    | .fin _ m e => .fin false m (e - 21)
    | .inf _ => .inf false
    | .nan => .nan
  encodeFp fmtF32 .rup (Fv.add .rup v mag)

/-- A node's child: its bytes and metadata at their places in the node (R302, R303). -/
def childByte (n k i : Nat) : Nat := bits n (128 + 48 * k + 8 * i + 7) (128 + 48 * k + 8 * i)
def childMeta (n k : Nat) : Nat := bits n (512 + 64 * k + 63) (512 + 64 * k)

/-- The test of child `k` of a node (R303, R307): tn of a hit. -/
def childHit (n k : Nat) (ray : V3 × V3) (tmin tcur : Nat) : Option Nat :=
  let ax := fun i : Nat => (bits n (32 * i + 31) (32 * i), bits n (96 + 8 * i + 7) (96 + 8 * i), childByte n k i, childByte n k (3 + i))
  if (List.range 3).any fun i => (ax i).2.1 == 255 || decide ((ax i).2.2.2 < (ax i).2.2.1) then none
  else
    let axis := fun (i o d : Nat) (t : Nat × Nat) =>
      boxAxis (boxBound .rdn (ax i).1 (ax i).2.2.1 (ax i).2.1) (boxBound .rup (ax i).1 (ax i).2.2.2 (ax i).2.1) o d t
    match axis 0 ray.1.1 ray.2.1 (f32ninf, f32pinf) with
    | none => none
    | some t =>
      match axis 1 ray.1.2.1 ray.2.2.1 t with
      | none => none
      | some t =>
        match axis 2 ray.1.2.2 ray.2.2.2 t with
        | none => none
        | some (tn, tf) =>
          let tf := widenFar tf
          if f32le tn tf && f32le tmin tf && f32le tn tcur then some tn else none

/-- A work item inserted by rising tn, an equal one after those already there (R309). -/
def insertByTn (e : RayEntry) : List RayEntry → List RayEntry
  | [] => [e]
  | x :: xs => if f32lt e.tn.toNat x.tn.toNat then e :: x :: xs else x :: insertByTn e xs

/-- The hit children of a node by rising tn, ties to the lower index (R303, R309). -/
def hitChildren (n : Nat) (q : RayQuery) (e : RayEntry) : List RayEntry :=
  (List.range 8).foldl (fun acc k =>
    let m := childMeta n k
    let ty := bits m 1 0
    if ty = 0 ∨ (ty = 3 ∧ e.inst.isSome) then acc
    else match childHit n k (rayIn q e.inst) q.tmin.toNat q.tcur.toNat with
      | none => acc
      | some tn => insertByTn
          { tn := BitVec.ofNat 32 tn, kind := BitVec.ofNat 2 ty, addr := if ty = 1 then bits m 63 7 * 128 else bits m 63 6 * 64,
            nleaf := if ty = 2 then bits m 5 2 else 0, inst := e.inst } acc) []

/-- The entry of largest tn gone, the oldest among equals; the newest entry stands first (R309). -/
def dropFarthest (l : List RayEntry) : List RayEntry :=
  (l.reverse.eraseP fun e => !(l.any fun y => f32lt e.tn.toNat y.tn.toNat)).reverse

/-- A push on a stack of 128 entries (R309). -/
def pushEntry (st : List RayEntry) (e : RayEntry) : List RayEntry :=
  if 128 ≤ st.length then dropFarthest (e :: st) else e :: st

/-- A triangle leaf's test (R308): the candidate's t, u and v. -/
def triangleHit (leaf : Nat) (q : RayQuery) (inst : Option RayInstance) : Option (Nat × Nat × Nat) :=
  let (o, d) := rayIn q inst
  let vert := fun k : Nat => (bits leaf (96 * k + 31) (96 * k), bits leaf (96 * k + 63) (96 * k + 32), bits leaf (96 * k + 95) (96 * k + 64))
  let flip := match inst with
    | some i => i.flip
    | none => false
  let nocull := match inst with
    | some i => i.nocull
    | none => false
  let e1 := v3sub (vert 1) (vert 0)
  let e2 := v3sub (vert 2) (vert 0)
  let p := v3cross d e2
  let det := v3dot e1 p
  if (f32val det).isZero then none
  else if q.cull && !nocull && !(f32lt 0 det != flip) then none
  else
    let w := v3sub o (vert 0)
    let u := f32div (v3dot w p) det
    let r := v3cross w e1
    let v := f32div (v3dot d r) det
    let t := f32div (v3dot e2 r) det
    let near := if q.hit.isSome then f32lt t q.tcur.toNat else f32le t q.tcur.toNat
    if f32le 0 u && f32le 0 v && f32le (f32add u v) f32one && f32le q.tmin.toNat t && near then some (t, u, v) else none

/-- What ends a lane's walk. -/
inductive WalkEnd where
  | finished
  | pending
  | fault (va : Word) (reason : Nat)
  | bound
  deriving DecidableEq, Repr

/-- A hit leaf taken in (R309): committed at once where it is opaque, else pending. `rest` is the work after it. -/
def takeCandidate (q : RayQuery) (leaf : Nat) (inst : Option RayInstance) (rest : List RayEntry) (c : Nat × Nat × Nat) : RayQuery :=
  let h : RayHit :=
    { t := BitVec.ofNat 32 c.1, inst := match inst with
        | some i => i.index
        | none => 0xFFFFFFFE#32,
      prim := BitVec.ofNat 32 (bits leaf 319 288), u := BitVec.ofNat 32 c.2.1, v := BitVec.ofNat 32 c.2.2 }
  let opq := bitAt leaf 320 || q.opq || (match inst with
    | some i => i.opq
    | none => false)
  if opq then { q with hit := some h, tcur := h.t, stack := rest, done := q.first }
  else { q with cand := some h, stack := rest }

/-- An instance record (R305). -/
def parseInstance (n : Nat) : RayInstance :=
  { index := BitVec.ofNat 32 (bits n 479 448), flip := bitAt n 490, nocull := bitAt n 489, opq := bitAt n 488,
    xf := (List.range 12).map fun k => BitVec.ofNat 32 (bits n (32 * k + 31) (32 * k)) }

/-- One entry visited with its bytes at hand (R309). -/
def visitEntry (q : RayQuery) (e : RayEntry) (rest : List RayEntry) (n : Nat) : RayQuery :=
  if e.kind = 1 then
    match hitChildren n q e with
    | [] => { q with stack := rest }
    | c :: cs => { q with stack := c :: (cs.reverse.foldl pushEntry rest) }
  else if e.kind = 2 then
    let after := if e.nleaf = 0 then rest
      else { e with tn := BitVec.ofNat 32 f32ninf, addr := e.addr + 64, nleaf := e.nleaf - 1 } :: rest
    match triangleHit n q e.inst with
    | some c => takeCandidate q n e.inst after c
    | none => { q with stack := after }
  else if bits n 487 480 &&& q.imask.toNat = 0 then { q with stack := rest }
  else
    let root : RayEntry := { tn := BitVec.ofNat 32 f32ninf, kind := 1, addr := bits n 447 384 / 128 * 128, nleaf := 0,
                             inst := some (parseInstance n) }
    { q with stack := root :: rest }

/-- What the reads of a walk have come to: the state, the largest timestamp, and the sectors read that hold an uncorrectable
error. -/
structure WalkRead where
  s : State
  ts : Nat
  lost : List Nat

/-- A node read (R228, R309). -/
def readNode (sp : Space) (p : Party) (a : WalkRead) (e : RayEntry) : WalkRead × Except (Word × Nat) Nat :=
  let n := if e.kind = 1 then 16 else 8
  let lost := lostSectors a.s (askedAt a.s sp p (BitVec.ofNat 64 e.addr) n)
  match readDwords a.s sp p (BitVec.ofNat 64 e.addr) n with
  | (s, .error f) => ({ a with s }, .error f)
  | (s, .ok (bs, t)) => (⟨s, max a.ts t, a.lost ++ lost⟩, .ok (ofBytes bs))

/-- The walk of a query (R309): the first entry of its list is visited next. -/
def walkRay (sp : Space) (p : Party) : Nat → WalkRead → RayQuery → WalkRead × RayQuery × WalkEnd
  | 0, a, q => (a, q, .bound)
  | fuel + 1, a, q =>
    if q.done then (a, q, .finished)
    else if q.cand.isSome then (a, q, .pending)
    else match q.stack with
      | [] => (a, { q with done := true }, .finished)
      | e :: rest =>
        if f32lt q.tcur.toNat e.tn.toNat then walkRay sp p fuel a { q with stack := rest }
        else match readNode sp p a e with
          | (a, .error (va, r)) => (a, q, .fault va r)
          | (a, .ok n) => walkRay sp p fuel a (visitEntry q e rest n)

/-- The entries a walk may visit before the model calls it endless (log entry 25). -/
def walkFuel : Nat := 2 ^ 64

/-- A lane's new query (R203, R306). -/
def startQuery (w : Warp) (f : FmtA) (q : Nat) : RayQuery :=
  let arg := fun k => BitVec.ofNat 32 (laneArg w f.a k q)
  let bad := ((List.range 8).any fun k => f32nan (arg k).toNat) || f32lt (arg 7).toNat (arg 6).toNat
  let root := (readX w f.b).toNat / 128 * 128
  { o := #v[arg 0, arg 1, arg 2], dir := #v[arg 3, arg 4, arg 5], tmin := arg 6, tcur := arg 7, root,
    imask := BitVec.ofNat 8 (bits f.mod.toNat 10 3), opq := bitAt f.mod.toNat 0, first := bitAt f.mod.toNat 1,
    cull := bitAt f.mod.toNat 2,
    stack := [{ tn := BitVec.ofNat 32 f32ninf, kind := 1, addr := root, nleaf := 0, inst := none }],
    hit := none, cand := none, done := bad }

/-- RQNEXT on a query (R204, R309). -/
def resumeQuery (q : RayQuery) : RayQuery :=
  if q.done then q else { q with cand := none, done := q.first && q.hit.isSome }

/-- A coordinate reported as f16 (R308). -/
def reportUv (x : BitVec 32) : Nat :=
  match toFp fmtF16 .rne (policyOf 0) (f32val x.toNat) with
  | .ok b => b
  | .fault _ => 0

/-- What a lane is given: v[D] to v[D+3] (R203). -/
def hitWords (h : Option RayHit) : List Nat :=
  match h with
  | some h => [h.t.toNat, h.inst.toNat, h.prim.toNat, reportUv h.u + 65536 * reportUv h.v]
  | none => [f32pinf, 0xFFFFFFFF, 0xFFFFFFFF, 0]

/-- The words and the pending bit of a query. -/
def queryWords (q : Option RayQuery) : List Nat × Bool :=
  match q with
  | none => (hitWords none, false)
  | some q => match q.cand with
    | some c => (hitWords (some c), true)
    | none => (hitWords q.hit, false)

/-- Work done over the active lanes of a ray instruction. -/
structure RaysDone where
  s : State
  out : List (Nat × List Nat × Bool)
  faults : List (Nat × Word × Nat)
  ts : Nat
  lost : List Nat
  endless : Bool

/-- Every active lane's query made by `g` and walked (R205, R309). -/
def walkLanes (sp : Space) (p : Party) (g : Nat → Option RayQuery) : List Nat → RaysDone → RaysDone
  | [], r => r
  | l :: ls, r =>
    match g l with
    | none => walkLanes sp p g ls { r with out := r.out ++ [(l, hitWords none, false)] }
    | some q =>
      let (a, q, e) := walkRay sp p walkFuel ⟨r.s, r.ts, r.lost⟩ q
      let r := { r with s := { a.s with cur := { a.s.cur with queries := tblSet a.s.cur.queries l q } }, ts := a.ts, lost := a.lost }
      let (words, pending) := queryWords (some q)
      match e with
      | .fault va k => walkLanes sp p g ls { r with faults := r.faults ++ [(l, va, k)] }
      | .bound => { r with endless := true }
      | _ => walkLanes sp p g ls { r with out := r.out ++ [(l, words, pending)] }

/-- What the lanes owe v[D] to v[D+3] (R203). -/
def queryOwed (d : BitVec 6) (out : List (Nat × List Nat × Bool)) : List (BitVec 6 × VReg × VReg) :=
  (List.range 4).flatMap fun k =>
    loadTriples (d + BitVec.ofNat 6 k) ⟨4, 128, 32, false⟩ (out.map fun o => (o.1, o.2.1.getD k 0))

/-- The lanes a ray instruction answers, and those left with a candidate. -/
def queryLanes (out : List (Nat × List Nat × Bool)) : Mask × Mask :=
  (buildMask fun l => out.any fun o => o.1 == l, buildMask fun l => out.any fun o => o.1 == l && o.2.2)

/-- The lanes' words and mask bits written (R203). -/
def writeQueries (w : Warp) (d : BitVec 6) (m : BitVec 4) (out : List (Nat × List Nat × Bool)) : Warp :=
  let w := landV w (queryOwed d out)
  let (lanes, on) := queryLanes out
  writeM w m ((readM w m &&& ~~~lanes) ||| on)

/-- The same as data owed that depends on sectors with uncorrectable errors (R151). -/
def owedQueries (w : Warp) (d : BitVec 6) (m : BitVec 4) (out : List (Nat × List Nat × Bool)) (lost : List Nat) : Pending :=
  let vw := queryOwed d out
  let (lanes, on) := queryLanes out
  { xw := [], vw, mw := [(m, lanes, on)], sectors := (distinct lost).flatMap fun k => (List.range (vw.length + 1)).map fun n => (k, n),
    replay := w.replayNext, pc := w.pc, fills := [], weak := false, samp := .empty, missed := false }

/-- The end of a walk over the active lanes (R203, R205). -/
def endRays (f : FmtA) (r : RaysDone) : Out :=
  if r.endless then .fault .rayWalkBound
  else
    let w := { r.s.cur with rmax := max r.s.cur.rmax r.ts }
    let w := if r.lost = [] then writeQueries w f.d (mfield f.c) r.out
      else { w with pend := w.pend ++ [owedQueries w f.d (mfield f.c) r.out r.lost] }
    endAccess { r.s with cur := w } .read r.faults true

/-- TRACE (R203). -/
def execTrace (f : FmtA) (s : State) : Out :=
  let w := s.cur
  endRays f (walkLanes (warpSpace s w) (curParty s false) (fun l => some (startQuery w f l)) (activeLanes w f)
    ⟨s, [], [], 0, [], false⟩)

/-- RQNEXT (R204). -/
def execRqnext (f : FmtA) (s : State) : Out :=
  let w := s.cur
  endRays f (walkLanes (warpSpace s w) (curParty s false) (fun l => (tblGet w.queries l).map resumeQuery) (activeLanes w f)
    ⟨s, [], [], 0, [], false⟩)

/-- The pending candidate committed (R204, R309). -/
def commitQuery (q : RayQuery) : RayQuery :=
  match q.cand with
  | some c => { q with hit := some c, tcur := c.t, cand := none }
  | none => q

/-- RQCOMMIT (R204). -/
def execRqcommit (f : FmtA) (s : State) : Out :=
  let w := s.cur
  answer s (retire { w with queries := w.queries.map fun e =>
    if (activeMask w f.pm f.pi).getLsbD e.1 then (e.1, commitQuery e.2) else e })

/-- RQTERM (R204). -/
def execRqterm (f : FmtA) (s : State) : Out :=
  let w := s.cur
  let lanes := activeLanes w f
  let out := lanes.map fun l => (l, hitWords ((tblGet w.queries l).bind (·.hit)), false)
  let w := { w with queries := w.queries.map fun e =>
    if lanes.contains e.1 then (e.1, { e.2 with cand := none, done := true, stack := [] }) else e }
  answer s (retire (writeQueries w f.d (mfield f.c) out))

end Sys2Proof.Machine
end

