-- ==== Sys2Proof/Machine/Scalar.lean ====
section
/-! DEFINITION. Scalar integer instructions (05 R94 to R96). -/

namespace Sys2Proof.Machine

/-- A scalar integer instruction of format A (R94): both operands at the type's width, the result extended by its
signedness, the next PC. -/
def intA (s : State) (f : FmtA) (op : Nat → Bool → Nat → Nat → Nat) : Out :=
  let w := s.cur
  let wd := tyWidth f.ty
  let sg := tySigned f.ty.toNat
  let a := (readX w f.a).toNat % 2 ^ wd
  let b := (readX w f.b).toNat % 2 ^ wd
  answer s (retire (writeX w f.d (extendTo64 wd sg (op wd sg a b))))

/-- A scalar integer instruction of format I (R94): the second operand is the immediate. -/
def intI (s : State) (f : FmtI) (op : Nat → Bool → Nat → Nat → Nat) : Out :=
  let w := s.cur
  let wd := tyWidth f.ty
  let sg := tySigned f.ty.toNat
  let a := (readX w f.a).toNat % 2 ^ wd
  let b := (immX f).toNat % 2 ^ wd
  answer s (retire (writeX w f.d (extendTo64 wd sg (op wd sg a b))))

def execAdd (f : FmtA) (s : State) : Out := intA s f fun _ _ a b => a + b
def execAddImm (f : FmtI) (s : State) : Out := intI s f fun _ _ a b => a + b
def execSub (f : FmtA) (s : State) : Out := intA s f fun w _ a b => a + (2 ^ w - b)
def execMul (f : FmtA) (s : State) : Out := intA s f fun _ _ a b => a * b
def execMulImm (f : FmtI) (s : State) : Out := intI s f fun _ _ a b => a * b
def execMulh (f : FmtA) (s : State) : Out := intA s f aluMulh
def execDiv (f : FmtA) (s : State) : Out := intA s f aluDiv
def execRem (f : FmtA) (s : State) : Out := intA s f aluRem
def execAnd (f : FmtA) (s : State) : Out := intA s f fun _ _ a b => a &&& b
def execAndImm (f : FmtI) (s : State) : Out := intI s f fun _ _ a b => a &&& b
def execOr (f : FmtA) (s : State) : Out := intA s f fun _ _ a b => a ||| b
def execOrImm (f : FmtI) (s : State) : Out := intI s f fun _ _ a b => a ||| b
def execXor (f : FmtA) (s : State) : Out := intA s f fun _ _ a b => a ^^^ b
def execXorImm (f : FmtI) (s : State) : Out := intI s f fun _ _ a b => a ^^^ b
def execAndn (f : FmtA) (s : State) : Out := intA s f fun w _ a b => a &&& (2 ^ w - 1 - b)
def execShl (f : FmtA) (s : State) : Out := intA s f fun w _ a b => aluShl w a b
def execShlImm (f : FmtI) (s : State) : Out := intI s f fun w _ a b => aluShl w a b
def execShr (f : FmtA) (s : State) : Out := intA s f fun w _ a b => aluShr w a b
def execShrImm (f : FmtI) (s : State) : Out := intI s f fun w _ a b => aluShr w a b
def execSar (f : FmtA) (s : State) : Out := intA s f fun w _ a b => aluSar w a b
def execSarImm (f : FmtI) (s : State) : Out := intI s f fun w _ a b => aluSar w a b
def execRol (f : FmtA) (s : State) : Out := intA s f fun w _ a b => aluRol w a b
def execRolImm (f : FmtI) (s : State) : Out := intI s f fun w _ a b => aluRol w a b
def execRor (f : FmtA) (s : State) : Out := intA s f fun w _ a b => aluRor w a b
def execRorImm (f : FmtI) (s : State) : Out := intI s f fun w _ a b => aluRor w a b
def execMin (f : FmtA) (s : State) : Out := intA s f aluMin
def execMinImm (f : FmtI) (s : State) : Out := intI s f aluMin
def execMax (f : FmtA) (s : State) : Out := intA s f aluMax
def execMaxImm (f : FmtI) (s : State) : Out := intI s f aluMax
def execClz (f : FmtA) (s : State) : Out := intA s f fun w _ a _ => clzOf w a
def execCtz (f : FmtA) (s : State) : Out := intA s f fun w _ a _ => ctzOf w a
def execPopc (f : FmtA) (s : State) : Out := intA s f fun w _ a _ => popOf w a
def execBrev (f : FmtA) (s : State) : Out := intA s f fun w _ a _ => brevOf w a
def execMov (f : FmtA) (s : State) : Out := intA s f fun _ _ a _ => a
/-- SEL tests all 64 bits of x[C] (R95). -/
def execSel (f : FmtA) (s : State) : Out := intA s f fun _ _ a b => if readX s.cur f.c ≠ 0 then a else b
/-- ADDSH shifts b by MOD bits 2:0 (R95). -/
def execAddsh (f : FmtA) (s : State) : Out := intA s f fun _ _ a b => a + b <<< (f.mod.toNat % 8)
/-- CMP writes 1 or 0 by COND in MOD (R95, R68). -/
def execCmp (f : FmtA) (s : State) : Out :=
  intA s f fun w sg a b => if intCond (f.mod.toNat % 16) w sg a b then 1 else 0
def execCmpImm (f : FmtI) (s : State) : Out :=
  intI s f fun w sg a b => if intCond f.mod.toNat w sg a b then 1 else 0
/-- BFX and BFI take position and length from x[B] (R96). -/
def execBfx (f : FmtA) (s : State) : Out :=
  let w := s.cur
  answer s (retire (writeX w f.d (aluBfx (tySigned f.ty.toNat) (readX w f.a).toNat (readX w f.b).toNat)))
def execBfi (f : FmtA) (s : State) : Out :=
  let w := s.cur
  answer s (retire (writeX w f.d (aluBfi (readX w f.d).toNat (readX w f.a).toNat (readX w f.b).toNat)))
/-- MOVI sign-extends IMM32 (R95). -/
def execMovi (f : FmtI) (s : State) : Out := answer s (retire (writeX s.cur f.d (immX f)))
/-- MOVHI keeps bits 31:0 of x[D] (R95). -/
def execMovhi (f : FmtI) (s : State) : Out :=
  answer s (retire (writeX s.cur f.d (f.imm ++ (readX s.cur f.d).setWidth 32)))

end Sys2Proof.Machine
end

