-- ==== Sys2Proof/Machine/ScalarFp.lean ====
section
/-! DEFINITION. Scalar floating-point instructions (05 R97, R98). -/

namespace Sys2Proof.Machine

/-- The format of a scalar floating-point TYPE: f64 for code 11, f32 otherwise (R97). -/
def sFmt (t : BitVec 4) : FpFmt := if t = 11 then fmtF64 else fmtF32

/-- The low bits of x[r] in a format (R97). -/
def fpX (w : Warp) (r : BitVec 6) (f : FpFmt) : Nat := (readX w r).toNat % 2 ^ f.width

/-- A scalar floating-point result: low bits, the rest zero (R97). -/
def fpA (s : State) (f : FmtA) (op : FpFmt → Rnd → Nat → Nat → Nat) : Out :=
  let w := s.cur
  let fm := sFmt f.ty
  answer s (retire (writeX w f.d (BitVec.ofNat 64 (op fm (rndOf f.rnd) (fpX w f.a fm) (fpX w f.b fm)))))

def execFadd (f : FmtA) (s : State) : Out := fpA s f fpAdd
def execFsub (f : FmtA) (s : State) : Out := fpA s f fpSub
def execFmul (f : FmtA) (s : State) : Out := fpA s f fpMul
/-- FMA: format F, NEGP and NEGC in MOD (R97). -/
def execFma (f : FmtA) (s : State) : Out :=
  fpA s f fun fm md a b => fpFma fm md (f.mod.getLsbD 10) (f.mod.getLsbD 9) a b (fpX s.cur f.c fm)
def execFdiv (f : FmtA) (s : State) : Out := fpA s f fpDiv
def execFmin (f : FmtA) (s : State) : Out := fpA s f fun fm _ a b => fpMin fm a b
def execFmax (f : FmtA) (s : State) : Out := fpA s f fun fm _ a b => fpMax fm a b
def execFcmp (f : FmtA) (s : State) : Out :=
  fpA s f fun fm _ a b => if fpCond (f.mod.toNat % 16) (decodeFp fm a) (decodeFp fm b) then 1 else 0

/-- The bits FCVT writes: an integer result extended by its signedness, a floating-point one with zeros above (R98). -/
def fcvtWord (t : BitVec 4) (b : Nat) : Word :=
  if t.toNat < 8 then extendTo64 (tyWidth t) (tySigned t.toNat) b else BitVec.ofNat 64 b

/-- FCVT: one use of lane 0's generator under SR; a fault case writes nothing and traps with the word (R52, R98). -/
def execFcvt (f : FmtA) (s : State) : Out :=
  let w := s.cur
  let g := xorshift w.gens[0]
  let w1 := if f.rnd = 4 then { w with gens := w.gens.set 0 g } else w
  match convertElem f.ty.toNat f.ty2.toNat (rndWith f.rnd g) (policyOf (f.mod.toNat % 256))
      ((readX w f.a).toNat % 2 ^ tyWidth f.ty2) with
  | .ok b => answer s (retire (writeX w1 f.d (fcvtWord f.ty b)))
  | .fault c => .next (raiseTrap { s with cur := w1 } cConvert c ((encode (.fcvt f)).getD 0))

end Sys2Proof.Machine
end

