-- ==== Sys2Proof/Machine/Dispatch.lean ====
section
/-! DEFINITION. The meaning of every instruction and event: one arm for each constructor of `Instr`. -/

namespace Sys2Proof.Machine

def exec (i : Instr) (s : State) : Host.Outcome State Fault Refusal :=
  match i with
  | .add f => Sys2Proof.Machine.execAdd f s
  | .addImm f => Sys2Proof.Machine.execAddImm f s
  | .sub f => Sys2Proof.Machine.execSub f s
  | .mul f => Sys2Proof.Machine.execMul f s
  | .mulImm f => Sys2Proof.Machine.execMulImm f s
  | .mulh f => Sys2Proof.Machine.execMulh f s
  | .div f => Sys2Proof.Machine.execDiv f s
  | .rem f => Sys2Proof.Machine.execRem f s
  | .and f => Sys2Proof.Machine.execAnd f s
  | .andImm f => Sys2Proof.Machine.execAndImm f s
  | .or f => Sys2Proof.Machine.execOr f s
  | .orImm f => Sys2Proof.Machine.execOrImm f s
  | .xor f => Sys2Proof.Machine.execXor f s
  | .xorImm f => Sys2Proof.Machine.execXorImm f s
  | .andn f => Sys2Proof.Machine.execAndn f s
  | .shl f => Sys2Proof.Machine.execShl f s
  | .shlImm f => Sys2Proof.Machine.execShlImm f s
  | .shr f => Sys2Proof.Machine.execShr f s
  | .shrImm f => Sys2Proof.Machine.execShrImm f s
  | .sar f => Sys2Proof.Machine.execSar f s
  | .sarImm f => Sys2Proof.Machine.execSarImm f s
  | .rol f => Sys2Proof.Machine.execRol f s
  | .rolImm f => Sys2Proof.Machine.execRolImm f s
  | .ror f => Sys2Proof.Machine.execRor f s
  | .rorImm f => Sys2Proof.Machine.execRorImm f s
  | .min f => Sys2Proof.Machine.execMin f s
  | .minImm f => Sys2Proof.Machine.execMinImm f s
  | .max f => Sys2Proof.Machine.execMax f s
  | .maxImm f => Sys2Proof.Machine.execMaxImm f s
  | .clz f => Sys2Proof.Machine.execClz f s
  | .ctz f => Sys2Proof.Machine.execCtz f s
  | .popc f => Sys2Proof.Machine.execPopc f s
  | .brev f => Sys2Proof.Machine.execBrev f s
  | .bfx f => Sys2Proof.Machine.execBfx f s
  | .bfi f => Sys2Proof.Machine.execBfi f s
  | .sel f => Sys2Proof.Machine.execSel f s
  | .mov f => Sys2Proof.Machine.execMov f s
  | .addsh f => Sys2Proof.Machine.execAddsh f s
  | .cmp f => Sys2Proof.Machine.execCmp f s
  | .cmpImm f => Sys2Proof.Machine.execCmpImm f s
  | .movi f => Sys2Proof.Machine.execMovi f s
  | .movhi f => Sys2Proof.Machine.execMovhi f s
  | .fadd f => Sys2Proof.Machine.execFadd f s
  | .fsub f => Sys2Proof.Machine.execFsub f s
  | .fmul f => Sys2Proof.Machine.execFmul f s
  | .fma f => Sys2Proof.Machine.execFma f s
  | .fdiv f => Sys2Proof.Machine.execFdiv f s
  | .fmin f => Sys2Proof.Machine.execFmin f s
  | .fmax f => Sys2Proof.Machine.execFmax f s
  | .fcmp f => Sys2Proof.Machine.execFcmp f s
  | .fcvt f => Sys2Proof.Machine.execFcvt f s
  | .bra f => Sys2Proof.Machine.execBra f s
  | .braIndirect f => Sys2Proof.Machine.execBraIndirect f s
  | .bcc f => Sys2Proof.Machine.execBcc f s
  | .bmk f => Sys2Proof.Machine.execBmk f s
  | .call f => Sys2Proof.Machine.execCall f s
  | .callIndirect f => Sys2Proof.Machine.execCallIndirect f s
  | .ret f => Sys2Proof.Machine.execRet f s
  | .loop f => Sys2Proof.Machine.execLoop f s
  | .split f => Sys2Proof.Machine.execSplit f s
  | .arm f => Sys2Proof.Machine.execArm f s
  | .join => Sys2Proof.Machine.execJoin s
  | .exit => Sys2Proof.Machine.execExit s
  | .yield => Sys2Proof.Machine.execYield s
  | .nop => Sys2Proof.Machine.execNop s
  | .trap f => Sys2Proof.Machine.execTrap f s
  | .svc f => Sys2Proof.Machine.execSvc f s
  | .tret => Sys2Proof.Machine.execTret s
  | .srrd f => Sys2Proof.Machine.execSrrd f s
  | .srwr f => Sys2Proof.Machine.execSrwr f s
  | .snap f => Sys2Proof.Machine.execSnap f s
  | .roveOff => Sys2Proof.Machine.execRoveOff s
  | .roveOn => Sys2Proof.Machine.execRoveOn s
  | .halt => Sys2Proof.Machine.execHalt s
  | .vadd f => Sys2Proof.Machine.execVadd f s
  | .vsub f => Sys2Proof.Machine.execVsub f s
  | .vadds f => Sys2Proof.Machine.execVadds f s
  | .vsubs f => Sys2Proof.Machine.execVsubs f s
  | .vmul f => Sys2Proof.Machine.execVmul f s
  | .vmulh f => Sys2Proof.Machine.execVmulh f s
  | .vmad f => Sys2Proof.Machine.execVmad f s
  | .vdiv f => Sys2Proof.Machine.execVdiv f s
  | .vmin f => Sys2Proof.Machine.execVmin f s
  | .vmax f => Sys2Proof.Machine.execVmax f s
  | .vabs f => Sys2Proof.Machine.execVabs f s
  | .vneg f => Sys2Proof.Machine.execVneg f s
  | .vand f => Sys2Proof.Machine.execVand f s
  | .vor f => Sys2Proof.Machine.execVor f s
  | .vxor f => Sys2Proof.Machine.execVxor f s
  | .vandn f => Sys2Proof.Machine.execVandn f s
  | .vnot f => Sys2Proof.Machine.execVnot f s
  | .vshl f => Sys2Proof.Machine.execVshl f s
  | .vshr f => Sys2Proof.Machine.execVshr f s
  | .vsar f => Sys2Proof.Machine.execVsar f s
  | .vclz f => Sys2Proof.Machine.execVclz f s
  | .vpopc f => Sys2Proof.Machine.execVpopc f s
  | .vbfx f => Sys2Proof.Machine.execVbfx f s
  | .vcmp f => Sys2Proof.Machine.execVcmp f s
  | .vsel f => Sys2Proof.Machine.execVsel f s
  | .vmov f => Sys2Proof.Machine.execVmov f s
  | .vbcast f => Sys2Proof.Machine.execVbcast f s
  | .viota f => Sys2Proof.Machine.execViota f s
  | .vextr f => Sys2Proof.Machine.execVextr f s
  | .vins f => Sys2Proof.Machine.execVins f s
  | .vfadd f => Sys2Proof.Machine.execVfadd f s
  | .vfsub f => Sys2Proof.Machine.execVfsub f s
  | .vfmul f => Sys2Proof.Machine.execVfmul f s
  | .vfma f => Sys2Proof.Machine.execVfma f s
  | .vfmin f => Sys2Proof.Machine.execVfmin f s
  | .vfmax f => Sys2Proof.Machine.execVfmax f s
  | .vfcmp f => Sys2Proof.Machine.execVfcmp f s
  | .vfclass f => Sys2Proof.Machine.execVfclass f s
  | .vround f => Sys2Proof.Machine.execVround f s
  | .vfrac f => Sys2Proof.Machine.execVfrac f s
  | .vscale f => Sys2Proof.Machine.execVscale f s
  | .vdot2 f => Sys2Proof.Machine.execVdot2 f s
  | .vdot4 f => Sys2Proof.Machine.execVdot4 f s
  | .vcvt f => Sys2Proof.Machine.execVcvt f s
  | .vrcp f => Sys2Proof.Machine.execVrcp f s
  | .vrsq f => Sys2Proof.Machine.execVrsq f s
  | .vsqrt f => Sys2Proof.Machine.execVsqrt f s
  | .vfdiv f => Sys2Proof.Machine.execVfdiv f s
  | .vexp2 f => Sys2Proof.Machine.execVexp2 f s
  | .vlog2 f => Sys2Proof.Machine.execVlog2 f s
  | .vsinpi f => Sys2Proof.Machine.execVsinpi f s
  | .vcospi f => Sys2Proof.Machine.execVcospi f s
  | .vtanh f => Sys2Proof.Machine.execVtanh f s
  | .vperm f => Sys2Proof.Machine.execVperm f s
  | .vpermx f => Sys2Proof.Machine.execVpermx f s
  | .vrot f => Sys2Proof.Machine.execVrot f s
  | .vshufx f => Sys2Proof.Machine.execVshufx f s
  | .vtrn f => Sys2Proof.Machine.execVtrn f s
  | .vred f => Sys2Proof.Machine.execVred f s
  | .vscan f => Sys2Proof.Machine.execVscan f s
  | .vvote f => Sys2Proof.Machine.execVvote f s
  | .vcomp f => Sys2Proof.Machine.execVcomp f s
  | .vexpd f => Sys2Proof.Machine.execVexpd f s
  | .mand f => Sys2Proof.Machine.execMand f s
  | .mor f => Sys2Proof.Machine.execMor f s
  | .mxor f => Sys2Proof.Machine.execMxor f s
  | .mandn f => Sys2Proof.Machine.execMandn f s
  | .mnot f => Sys2Proof.Machine.execMnot f s
  | .mmov f => Sys2Proof.Machine.execMmov f s
  | .mset f => Sys2Proof.Machine.execMset f s
  | .mpopc f => Sys2Proof.Machine.execMpopc f s
  | .mffs f => Sys2Proof.Machine.execMffs f s
  | .mtox f => Sys2Proof.Machine.execMtox f s
  | .xtom f => Sys2Proof.Machine.execXtom f s
  | .cbld f => Sys2Proof.Machine.execCbld f s
  | .cbst f => Sys2Proof.Machine.execCbst f s
  | .ld f => Sys2Proof.Machine.execLd f s
  | .st f => Sys2Proof.Machine.execSt f s
  | .vld f => Sys2Proof.Machine.execVld f s
  | .vst f => Sys2Proof.Machine.execVst f s
  | .vlds f => Sys2Proof.Machine.execVlds f s
  | .vsts f => Sys2Proof.Machine.execVsts f s
  | .vgath f => Sys2Proof.Machine.execVgath f s
  | .vscat f => Sys2Proof.Machine.execVscat f s
  | .pref f => Sys2Proof.Machine.execPref f s
  | .atomAdd f => Sys2Proof.Machine.execAtomAdd f s
  | .atomAnd f => Sys2Proof.Machine.execAtomAnd f s
  | .atomOr f => Sys2Proof.Machine.execAtomOr f s
  | .atomXor f => Sys2Proof.Machine.execAtomXor f s
  | .atomMin f => Sys2Proof.Machine.execAtomMin f s
  | .atomMax f => Sys2Proof.Machine.execAtomMax f s
  | .atomXchg f => Sys2Proof.Machine.execAtomXchg f s
  | .atomCas f => Sys2Proof.Machine.execAtomCas f s
  | .atomFadd f => Sys2Proof.Machine.execAtomFadd f s
  | .atomFmin f => Sys2Proof.Machine.execAtomFmin f s
  | .atomFmax f => Sys2Proof.Machine.execAtomFmax f s
  | .vatomAdd f => Sys2Proof.Machine.execVatomAdd f s
  | .vatomAnd f => Sys2Proof.Machine.execVatomAnd f s
  | .vatomOr f => Sys2Proof.Machine.execVatomOr f s
  | .vatomXor f => Sys2Proof.Machine.execVatomXor f s
  | .vatomMin f => Sys2Proof.Machine.execVatomMin f s
  | .vatomMax f => Sys2Proof.Machine.execVatomMax f s
  | .vatomXchg f => Sys2Proof.Machine.execVatomXchg f s
  | .vatomCas f => Sys2Proof.Machine.execVatomCas f s
  | .vatomFadd f => Sys2Proof.Machine.execVatomFadd f s
  | .vatomFmin f => Sys2Proof.Machine.execVatomFmin f s
  | .vatomFmax f => Sys2Proof.Machine.execVatomFmax f s
  | .fenceAcq f => Sys2Proof.Machine.execFenceAcq f s
  | .fenceRel f => Sys2Proof.Machine.execFenceRel f s
  | .fenceAcqrel f => Sys2Proof.Machine.execFenceAcqrel f s
  | .kcfg f => Sys2Proof.Machine.execKcfg f s
  | .karr f => Sys2Proof.Machine.execKarr f s
  | .ksig f => Sys2Proof.Machine.execKsig f s
  | .kwait f => Sys2Proof.Machine.execKwait f s
  | .ktry f => Sys2Proof.Machine.execKtry f s
  | .karrw f => Sys2Proof.Machine.execKarrw f s
  | .krd f => Sys2Proof.Machine.execKrd f s
  | .tlaunch f => Sys2Proof.Machine.execTlaunch f s
  | .tfence f => Sys2Proof.Machine.execTfence f s
  | .notify f => Sys2Proof.Machine.execNotify f s
  | .sleepuntil f => Sys2Proof.Machine.execSleepuntil f s
  | .cpy f => Sys2Proof.Machine.execCpy f s
  | .cpyt f => Sys2Proof.Machine.execCpyt f s
  | .cpyq f => Sys2Proof.Machine.execCpyq f s
  | .mxacq f => Sys2Proof.Machine.execMxacq f s
  | .mxrel f => Sys2Proof.Machine.execMxrel f s
  | .mxpush f => Sys2Proof.Machine.execMxpush f s
  | .mxqs f => Sys2Proof.Machine.execMxqs f s
  | .tsld f => Sys2Proof.Machine.execTsld f s
  | .tsst f => Sys2Proof.Machine.execTsst f s
  | .tszero f => Sys2Proof.Machine.execTszero f s
  | .xfmCvt f => Sys2Proof.Machine.execXfmCvt f s
  | .xfmQuant f => Sys2Proof.Machine.execXfmQuant f s
  | .xfmTr8 f => Sys2Proof.Machine.execXfmTr8 f s
  | .xfmTr16 f => Sys2Proof.Machine.execXfmTr16 f s
  | .xfmTr32 f => Sys2Proof.Machine.execXfmTr32 f s
  | .xfmPack f => Sys2Proof.Machine.execXfmPack f s
  | .xfmUnpack f => Sys2Proof.Machine.execXfmUnpack f s
  | .xfmReply d core pipe => Sys2Proof.Machine.execXfmReply d core pipe s
  | .sample f => Sys2Proof.Machine.execSample f s
  | .sgath f => Sys2Proof.Machine.execSgath f s
  | .tld f => Sys2Proof.Machine.execTld f s
  | .tqry f => Sys2Proof.Machine.execTqry f s
  | .wtinv f => Sys2Proof.Machine.execWtinv f s
  | .wtinvAll f => Sys2Proof.Machine.execWtinvAll f s
  | .wtpf f => Sys2Proof.Machine.execWtpf f s
  | .trace f => Sys2Proof.Machine.execTrace f s
  | .rqnext f => Sys2Proof.Machine.execRqnext f s
  | .rqcommit f => Sys2Proof.Machine.execRqcommit f s
  | .rqterm f => Sys2Proof.Machine.execRqterm f s
  | .gemitVtx f => Sys2Proof.Machine.execGemitVtx f s
  | .gemitPrim f => Sys2Proof.Machine.execGemitPrim f s
  | .gemitEnd f => Sys2Proof.Machine.execGemitEnd f s
  | .femit f => Sys2Proof.Machine.execFemit f s
  | .qwait f => Sys2Proof.Machine.execQwait f s
  | .qtail f => Sys2Proof.Machine.execQtail f s
  | .qhandPacket f => Sys2Proof.Machine.execQhandPacket f s
  | .qhandNode f => Sys2Proof.Machine.execQhandNode f s
  | .prd f => Sys2Proof.Machine.execPrd f s
  | .pwr f => Sys2Proof.Machine.execPwr f s
  | .fansw f => Sys2Proof.Machine.execFansw f s
  | .loadDataReturn who n bad => Sys2Proof.Machine.execLoadDataReturn who n bad s
  | .roveEnter who => Sys2Proof.Machine.execRoveEnter who s
  | .roveInstructionLimit who => Sys2Proof.Machine.execRoveInstructionLimit who s
  | .roveRestoreDone who => Sys2Proof.Machine.execRoveRestoreDone who s
  | .logicalTick d => Sys2Proof.Machine.execLogicalTick d s
  | .knotUpdate n => Sys2Proof.Machine.execKnotUpdate n s
  | .deadlineReached who => Sys2Proof.Machine.execDeadlineReached who s
  | .deadlockDetect d cluster => Sys2Proof.Machine.execDeadlockDetect d cluster s
  | .commandStart cmd => Sys2Proof.Machine.execCommandStart cmd s
  | .copyComplete cmd => Sys2Proof.Machine.execCopyComplete cmd s
  | .matrixComplete cmd => Sys2Proof.Machine.execMatrixComplete cmd s
  | .stageCopyComplete cmd => Sys2Proof.Machine.execStageCopyComplete cmd s
  | .spoolPost d => Sys2Proof.Machine.execSpoolPost d s
  | .errorLogPost d => Sys2Proof.Machine.execErrorLogPost d s
  | .teamPlace d => Sys2Proof.Machine.execTeamPlace d s
  | .teamRetire team => Sys2Proof.Machine.execTeamRetire team s
  | .preemptRequest team => Sys2Proof.Machine.execPreemptRequest team s
  | .preemptClass0 d => Sys2Proof.Machine.execPreemptClass0 d s
  | .teamResume team => Sys2Proof.Machine.execTeamResume team s
  | .launchGrid q p => Sys2Proof.Machine.execLaunchGrid q p s
  | .launchGraph q p => Sys2Proof.Machine.execLaunchGraph q p s
  | .copy q p => Sys2Proof.Machine.execCopy q p s
  | .waitFence q addr value abortDep => Sys2Proof.Machine.execWaitFence q addr value abortDep s
  | .waitFenceSatisfied q => Sys2Proof.Machine.execWaitFenceSatisfied q s
  | .signalFence q addr value => Sys2Proof.Machine.execSignalFence q addr value s
  | .flip q p => Sys2Proof.Machine.execFlip q p s
  | .timestamp q addr => Sys2Proof.Machine.execTimestamp q addr s
  | .queueBarrier q => Sys2Proof.Machine.execQueueBarrier q s
  | .setContext q recAddr cid => Sys2Proof.Machine.execSetContext q recAddr cid s
  | .setEnergy q cap period => Sys2Proof.Machine.execSetEnergy q cap period s
  | .resetQueueDrain q target addr value => Sys2Proof.Machine.execResetQueueDrain q target addr value s
  | .resetQueueAbort q target addr value => Sys2Proof.Machine.execResetQueueAbort q target addr value s
  | .nopPacket q => Sys2Proof.Machine.execNopPacket q s
  | .queueNotify q v => Sys2Proof.Machine.execQueueNotify q v s
  | .queueEnable q v => Sys2Proof.Machine.execQueueEnable q v s
  | .queueDisable q v => Sys2Proof.Machine.execQueueDisable q v s
  | .threadResume d t => Sys2Proof.Machine.execThreadResume d t s
  | .hostirq d v => Sys2Proof.Machine.execHostirq d v s
  | .hirqRead d => Sys2Proof.Machine.execHirqRead d s
  | .fkown d k v => Sys2Proof.Machine.execFkown d k v s
  | .resume d v => Sys2Proof.Machine.execResume d v s
  | .kill d v => Sys2Proof.Machine.execKill d v s
  | .shootdownPage d cid => Sys2Proof.Machine.execShootdownPage d cid s
  | .shootdownContext d cid => Sys2Proof.Machine.execShootdownContext d cid s
  | .shootdownAll d => Sys2Proof.Machine.execShootdownAll d s
  | .shootdownComplete d => Sys2Proof.Machine.execShootdownComplete d s
  | .sptailWrite d v => Sys2Proof.Machine.execSptailWrite d v s
  | .eltailWrite d v => Sys2Proof.Machine.execEltailWrite d v s
  | .load d p => Sys2Proof.Machine.execLoad d p s
  | .swapout d p => Sys2Proof.Machine.execSwapout d p s
  | .swapin d p => Sys2Proof.Machine.execSwapin d p s
  | .swapComplete d => Sys2Proof.Machine.execSwapComplete d s
  | .svnminRaise v => Sys2Proof.Machine.execSvnminRaise v s
  | .romend => Sys2Proof.Machine.execRomend s
  | .lock4 => Sys2Proof.Machine.execLock4 s
  | .extend idx => Sys2Proof.Machine.execExtend idx s
  | .report => Sys2Proof.Machine.execReport s
  | .attestOpComplete => Sys2Proof.Machine.execAttestOpComplete s
  | .clockSet v => Sys2Proof.Machine.execClockSet v s
  | .step v => Sys2Proof.Machine.execStep v s
  | .secloRead d => Sys2Proof.Machine.execSecloRead d s
  | .timestampQueueRead e => Sys2Proof.Machine.execTimestampQueueRead e s
  | .ptpTimestamp e egress msgType seqId => Sys2Proof.Machine.execPtpTimestamp e egress msgType seqId s
  | .reelRun => Sys2Proof.Machine.execReelRun s
  | .reelStop => Sys2Proof.Machine.execReelStop s
  | .reelLockWrite lock => Sys2Proof.Machine.execReelLockWrite lock s
  | .reelSecondBoundary => Sys2Proof.Machine.execReelSecondBoundary s
  | .tableSwitch v => Sys2Proof.Machine.execTableSwitch v s
  | .tableTakesForce => Sys2Proof.Machine.execTableTakesForce s
  | .linkTrain l => Sys2Proof.Machine.execLinkTrain l s
  | .linkUp l rounds peer => Sys2Proof.Machine.execLinkUp l rounds peer s
  | .linkTrainTimeout l => Sys2Proof.Machine.execLinkTrainTimeout l s
  | .linkLoss l => Sys2Proof.Machine.execLinkLoss l s
  | .slotTransmit l => Sys2Proof.Machine.execSlotTransmit l s
  | .flitReceive l flit => Sys2Proof.Machine.execFlitReceive l flit s
  | .receiverTimeout stream => Sys2Proof.Machine.execReceiverTimeout stream s
  | .headEnable d h v => Sys2Proof.Machine.execHeadEnable d h v s
  | .frameStart d h => Sys2Proof.Machine.execFrameStart d h s
  | .rasterBatch d => Sys2Proof.Machine.execRasterBatch d s
  | .fragmentApply d => Sys2Proof.Machine.execFragmentApply d s
  | .readShared agent line => Sys2Proof.Machine.execReadShared agent line s
  | .readUnique agent line => Sys2Proof.Machine.execReadUnique agent line s
  | .upgrade agent line => Sys2Proof.Machine.execUpgrade agent line s
  | .writeBack agent line lost => Sys2Proof.Machine.execWriteBack agent line lost s
  | .evictionNotice agent line => Sys2Proof.Machine.execEvictionNotice agent line s
  | .ioRead addr size => Sys2Proof.Machine.execIoRead addr size s
  | .ioWrite addr data => Sys2Proof.Machine.execIoWrite addr data s
  | .ioAtomic addr op wide a b => Sys2Proof.Machine.execIoAtomic addr op wide a b s
  | .directoryEvict line => Sys2Proof.Machine.execDirectoryEvict line s
  | .imsicWrite addr v => Sys2Proof.Machine.execImsicWrite addr v s
  | .mgmtRead d frame => Sys2Proof.Machine.execMgmtRead d frame s
  | .arbiterPeriod m => Sys2Proof.Machine.execArbiterPeriod m s
  | .energyPeriod d p => Sys2Proof.Machine.execEnergyPeriod d p s
  | .calFit d fit => Sys2Proof.Machine.execCalFit d fit s
  | .patrolScrub d sector corrected => Sys2Proof.Machine.execPatrolScrub d sector corrected s
  | .fatalError jorradLink => Sys2Proof.Machine.execFatalError jorradLink s
  | .reset => Sys2Proof.Machine.execReset s
  | .bootRomLoad linksTrain manifest image => Sys2Proof.Machine.execBootRomLoad linksTrain manifest image s
  | .distaffImageStart d manifest image => Sys2Proof.Machine.execDistaffImageStart d manifest image s
  | .memoryTraining d ok => Sys2Proof.Machine.execMemoryTraining d ok s
  | .loaderStart manifest image => Sys2Proof.Machine.execLoaderStart manifest image s
  | .regWrite addr v => Sys2Proof.Machine.execRegWrite addr v s
  | .copyElementFault cmd => Sys2Proof.Machine.execCopyElementFault cmd s

end Sys2Proof.Machine
end

