-- ==== Sys2Proof/Safety.lean ====
section
/-! DEFINITION. What counts as a safe run: one whose steps all answer a next state. -/

namespace Sys2Proof.Machine

/-- A run of `n` steps. -/
def runSteps : Nat → State → Host.Outcome State Fault Refusal
  | 0, s => .next s
  | n + 1, s => match step s with
    | .next t => runSteps n t
    | .fault e => .fault e
    | .refused r => .refused r

/-- `n` steps from a state all answer a next state. -/
def SafeFor (n : Nat) (s : State) : Prop := ∃ t, runSteps n s = .next t

/-- A property that holds of a state's successor whenever it holds of the state. -/
def KeptByStep (p : State → Prop) : Prop := ∀ s t, p s → step s = .next t → p t

end Sys2Proof.Machine
end

