-- ==== Sys2Proof/Claims.lean ====
section
/-! DEFINITION. The vocabulary of the statements: what the spec's operations give, said over bit vectors and integers and not
through the model's own arithmetic, and the forms a next state takes. -/

namespace Sys2Proof.Claims

open Sys2Proof Sys2Proof.Machine

/-! ### Forms of a next state -/

/-- `i` answers a next state of which `p` holds. -/
def Completes (i : Instr) (s : State) (p : State → Prop) : Prop := ∃ t, exec i s = .next t ∧ p t

/-- The issuing agent alone changes: it becomes `w`. -/
def becomes (s : State) (w : Warp) : Out := .next { s with cur := w }

/-- The issuing agent alone changes: x[d] takes `v` and it goes on to the next instruction. -/
def scalarResult (s : State) (d : BitVec 6) (v : Word) : Out := becomes s (retire (writeX s.cur d v))

/-! ### Integer types and operations (R41, R42, R66, R68, R94) -/

/-- The types a scalar integer instruction takes: s32, u32, s64 and u64 (R94). -/
def ScalarIntType (t : BitVec 4) : Prop := t = 4 ∨ t = 5 ∨ t = 6 ∨ t = 7

/-- An integer type is signed: even codes (R66). -/
def signedType (t : BitVec 4) : Bool := t.toNat % 2 == 0

/-- The low `n` bits of x[r]. -/
def lowX (s : State) (r : BitVec 6) (n : Nat) : BitVec n := (readX s.cur r).setWidth n

/-- The low `n` bits of the sign-extended immediate (R59). -/
def lowImm (f : FmtI) (n : Nat) : BitVec n := (f.imm.signExtend 64).setWidth n

/-- A result extended to 64 bits by the signedness of its type (R94). -/
def extended (t : BitVec 4) {n : Nat} (r : BitVec n) : Word := if signedType t then r.signExtend 64 else r.setWidth 64

/-- High bits of the exact product. -/
def highProduct {n : Nat} (sg : Bool) (a b : BitVec n) : BitVec n :=
  if sg then BitVec.ofInt n (a.toInt * b.toInt / 2 ^ n) else BitVec.ofNat n (a.toNat * b.toNat / 2 ^ n)

/-- Quotient and remainder of R42. -/
def quotient {n : Nat} (sg : Bool) (a b : BitVec n) : BitVec n :=
  if b = 0 then BitVec.allOnes n else if sg then a.sdiv b else a / b
def remainder {n : Nat} (sg : Bool) (a b : BitVec n) : BitVec n :=
  if b = 0 then a else if sg then a.srem b else a % b

/-- The order of a type (R68), the smaller and the larger. -/
def less {n : Nat} (sg : Bool) (a b : BitVec n) : Bool := if sg then a.slt b else a.ult b
def smaller {n : Nat} (sg : Bool) (a b : BitVec n) : BitVec n := if less sg b a then b else a
def larger {n : Nat} (sg : Bool) (a b : BitVec n) : BitVec n := if less sg a b then b else a

/-- The integer conditions EQ, NE, LT, LE, GT and GE (R68). -/
def compares {n : Nat} (c : Nat) (sg : Bool) (a b : BitVec n) : Bool :=
  match c with
  | 0 => a == b
  | 1 => a != b
  | 2 => less sg a b
  | 3 => !(less sg b a)
  | 4 => less sg b a
  | _ => !(less sg a b)

/-- A sum or a difference held to the range of the type (R120). -/
def saturated {n : Nat} (sg : Bool) (v : Int) : BitVec n :=
  let lo : Int := if sg then -(2 ^ (n - 1) : Int) else 0
  let hi : Int := if sg then 2 ^ (n - 1) - 1 else 2 ^ n - 1
  BitVec.ofInt n (if v < lo then lo else if hi < v then hi else v)

/-- The integer an element stands for. -/
def asInt {n : Nat} (sg : Bool) (a : BitVec n) : Int := if sg then a.toInt else a.toNat

/-- `b` negated when `neg`. -/
def negIf {n : Nat} (neg : Bool) (b : BitVec n) : BitVec n := if neg then -b else b

/-! ### Vectors (R16 to R18, R117) -/

/-- Element `e` of the group of registers of type `t` at field `r`. -/
def elt (w : Warp) (r : BitVec 6) (t : BitVec 4) (e : Nat) : BitVec (tyWidth t) :=
  BitVec.ofNat _ (srcElem w r (elemCount t) (tyWidth t) e)

/-- Element `e` of source B: the register's, or under BX the low bits of x[B] (R117). -/
def eltB (w : Warp) (f : FmtA) (e : Nat) : BitVec (tyWidth f.ty) :=
  if f.bx = 1 then (readX w f.b).setWidth _ else elt w f.b f.ty e

/-- Element `e` is active: its physical lane is (R18). -/
def activeElt (w : Warp) (f : FmtA) (n e : Nat) : Bool := (activeMask w f.pm f.pi).getLsbD (e * 128 / n)

/-- From `w` to `w'`, of the group of registers at field `d`, `n` elements of `wd` bits, the active ones hold `val` and the
others what they held; every other vector register is as it was. -/
abbrev GroupWrite (w w' : Warp) (d : BitVec 6) (n wd : Nat) (act : Nat → Bool) (val : Nat → BitVec wd) : Prop :=
  (∀ e < n, BitVec.ofNat wd (srcElem w' d n wd e) = if act e then val e else BitVec.ofNat wd (srcElem w d n wd e)) ∧
  ∀ k < 64, k < d.toNat ∨ d.toNat + groupSize n wd ≤ k → vAt w' k = vAt w k

/-- From `s` to `t` the issuing agent has gone on, and nothing else changed but its vector registers: the active elements of the
group at field `d` hold `val`. -/
def VectorWrite (s t : State) (d : BitVec 6) (n wd : Nat) (act : Nat → Bool) (val : Nat → BitVec wd) : Prop :=
  t = { s with cur := { retire s.cur with v := t.cur.v } } ∧ GroupWrite s.cur t.cur d n wd act val

/-- The same for an instruction of one TYPE and its predicate (R18, R117). -/
def Elementwise (s t : State) (f : FmtA) (val : Nat → BitVec (tyWidth f.ty)) : Prop :=
  VectorWrite s t f.d (elemCount f.ty) (tyWidth f.ty) (activeElt s.cur f (elemCount f.ty)) val

/-! ### Floating point (R43 to R45, R68, R97) -/

/-- The format of a scalar floating-point type (R97). -/
def scalarFormat (t : BitVec 4) : FpFmt := if t = 11 then fmtF64 else fmtF32

/-- The value the low bits of x[r] stand for in a format (R43, R97). -/
def floatX (s : State) (r : BitVec 6) (f : FpFmt) : Fv := decodeFp f ((readX s.cur r).toNat % 2 ^ f.width)

/-- The value negated when `neg`. -/
def negFv (neg : Bool) (v : Fv) : Fv := if neg then v.neg else v

/-- The number a finite value is. -/
def numberOf : Fv → Rat
  | .fin neg m e => (if neg then -1 else 1) * m * 2 ^ e
  | _ => 0

/-- The order of two values, false on NaN: -inf below every finite value, +inf above. -/
def fvBelow : Fv → Fv → Bool
  | .nan, _ => false
  | _, .nan => false
  | .inf a, .inf b => a && !b
  | .inf a, .fin _ _ _ => a
  | .fin _ _ _, .inf b => !b
  | .fin sa ma ea, .fin sb mb eb => decide (numberOf (.fin sa ma ea) < numberOf (.fin sb mb eb))

/-- Bits `r` of a format hold a finite number within `n` ulp of `y`, an ulp being that of `y` in the format (R55). -/
def WithinUlps (f : FpFmt) (n : Nat) (y : ℝ) (r : Nat) : Prop :=
  ∃ neg m e, decodeFp f r = .fin neg m e ∧ |(numberOf (.fin neg m e) : ℝ) - y| ≤ n * 2 ^ max (Int.log 2 |y| - f.mb) f.qmin

/-- Two values, neither NaN nor zero, that are equal. -/
def EqualValues (a b : Fv) : Prop :=
  a.isNan = false ∧ b.isNan = false ∧ a.isZero = false ∧ fvBelow a b = false ∧ fvBelow b a = false

/-- The conditions on floating-point values: all but NE and UNO are false when an operand is NaN (R68). -/
def floatCompares (c : Nat) (a b : Fv) : Bool :=
  let ordered := !a.isNan && !b.isNan
  match c with
  | 0 => ordered && !(fvBelow a b) && !(fvBelow b a)
  | 1 => !ordered || fvBelow a b || fvBelow b a
  | 2 => fvBelow a b
  | 3 => ordered && !(fvBelow b a)
  | 4 => fvBelow b a
  | 5 => ordered && !(fvBelow a b)
  | 6 => ordered
  | _ => !ordered

/-! ### Control (R61, R99, R102) -/

/-- `8 x OFFSET` of a branch (R61). -/
def branchDisplacement (f : FmtB) : Word := 8 * f.off.signExtend 64

/-- The issuing agent goes on at `target` and nothing else changes but what ends with an instruction. -/
def goesTo (s : State) (w : Warp) (target : Word) : Out := becomes s { retire w with pc := target }

/-- A physical lane's position lies below VL (R14, R24). -/
def belowVl (w : Warp) (pl : Nat) : Bool := ((posOf w pl).map fun p => decide (p < w.vl)).getD false

/-- The lanes of outcome `k` a SPLIT sorts: in increasing position, the selected ones whose element of v[A] is `k` (R102). -/
def outcomeLanes (w : Warp) (f : FmtA) (k : Nat) : List Nat :=
  ((List.range w.vl).filterMap (physOf w)).filter fun pl =>
    (activeMask w f.pm f.pi).getLsbD pl && laneOf (readV w f.a) pl == BitVec.ofNat 32 k

/-- A violation freezes the issuing warp at its instruction: its transform-pipe results land first, then sr.epc is the pc, sr.cause the
cause with VIOL and the sub-cause, sr.tval the value, and a freeze notice goes to the distaff; its other registers, memory and the
teams are as they were (R23, R109, R365). -/
def FreezesWith (s t : State) (code sub : Nat) (tval : Word) : Prop :=
  let cause : Word := 0x8000000000000000 + BitVec.ofNat 64 (sub * 256 + code)
  t.cur = { (drainXfm s).cur with epc := s.cur.pc, cause, tval, status := .frozen .violation } ∧ t.others = s.others ∧ t.mem = s.mem ∧
  t.teams = s.teams ∧ ∃ r : SpoolRec, r.kind = 0x10 ∧ r.fkind = 0 ∧ r.agentId = agentIdBits s.cur.who ∧ r.pc = s.cur.pc ∧
    r.cause = cause ∧ r.tval = tval ∧
    (t.die (agentDie s.cur.who)).spoolQ = (s.die (agentDie s.cur.who)).spoolQ ++ [r]

/-- A violation at a push stops the issuing warp's whole team (R171, R365): the issuing warp's sr.epc, sr.cause and sr.tval name it
and its pc stays; every warp of the team is frozen, with a freeze notice of the issuing one among those its die will post, and
the team's commands stop; the commands, the knots, memory and the other teams are as they were. -/
def TeamFreezes (s t : State) (code sub : Nat) (tval : Word) : Prop :=
  let cause : Word := 0x8000000000000000 + BitVec.ofNat 64 (sub * 256 + code)
  t.cur.pc = s.cur.pc ∧ t.cur.epc = s.cur.pc ∧ t.cur.cause = cause ∧ t.cur.tval = tval ∧ t.cur.x = s.cur.x ∧ t.cur.m = s.cur.m ∧
  (∀ o ∈ t.agents, isThread o.who = false → o.team = s.cur.team → o.status ≠ .exited → ∃ k, o.status = .frozen k) ∧
  t.teams = (s.teams.map fun m => if m.id = s.cur.team then { m with stopped := true } else m) ∧
  t.cmds = s.cmds ∧ t.knotQ = s.knotQ ∧ t.mem = s.mem ∧
  (s.cur.status = .running → ∃ r ∈ (t.die (agentDie s.cur.who)).spoolQ, r.kind = 0x10 ∧ r.fkind = 0 ∧
    r.agentId = agentIdBits s.cur.who ∧ r.pc = s.cur.pc ∧ r.cause = cause ∧ r.tval = tval)

/-- The trap vector of the issuing warp's context record in force (R109, R359). -/
def vectorOf (s : State) : Word := ((s.teams.find? fun t => t.id == s.cur.team).map fun t => t.ctxRec.tvec).getD 0

/-- A warp's trap is taken (R109): the three saved registers and the pc change, and what follows with an instruction. -/
def trapped (w : Warp) (cause tval vector : Word) : Warp :=
  { w with epc := w.pc, cause, tval, pc := vector, status := .running, replayNext := false, yielded := false }

/-- The last record the die of the issuing warp will post is a freeze notice with FKIND, cause and value (R364). -/
def LastNotice (t : State) (fkind : Nat) (cause tval : Word) : Prop :=
  ∃ r, (t.die (agentDie t.cur.who)).spoolQ.getLast? = some r ∧ r.kind = 0x10 ∧ r.fkind = fkind ∧ r.cause = cause ∧
    r.tval = tval ∧ r.agentId = agentIdBits t.cur.who ∧ r.pc = t.cur.pc

/-! ### Snapshots (R367) -/

/-- Word `k` of the snapshot of a command: words 0 to 7 its record, then its team, context and state, its next element or step, and the
fault a copy is paused on (R177, R189, R367). -/
def entryWord (s : State) (x : Cmd) (k : Nat) : Word :=
  let state := match x.st with
    | .waiting => 1
    | .running => 2
    | .paused => 3
    | .frozen => 4
    | .signalling => 5
  let places := fun (n : Nat) (l : List Nat) =>
    BitVec.ofNat 64 (l.getD 0 0 % 2 ^ n + l.getD 1 0 % 2 ^ n * 2 ^ n + l.getD 2 0 % 2 ^ n * 2 ^ (2 * n) + l.getD 3 0 % 2 ^ n * 2 ^ (3 * n))
  if k < 8 then x.record.extractLsb' (64 * k) 64
  else if k = 8 then BitVec.ofNat 64 (((s.findTeam x.team).map fun t => t.tidx).getD 0 * 2 ^ 32 + x.ctx * 2 ^ 19 + state)
  else if k = 9 then (match x.kind with
    | .matrix _ => places 12 (loopIndex (matrixTrips x.record) x.next)
    | _ => places 16 (loopIndex (copyExtents x.record) x.next))
  else if k = 10 ∧ x.kind = .copy ∧ x.st = .paused then
    BitVec.ofNat 64 (((((s.die x.d).outst.find? fun o => o.token == x.token).map fun o => o.rid)).getD 0)
  else 0

/-- Word `k` of the snapshot of an entry of a transform pipe: its instruction, its owner, in flight (R367). -/
def pipeWord (s : State) (e : XfmEntry) (k : Nat) : Word :=
  if k = 0 then e.word
  else if k = 1 then (((s.findWarp e.owner).map fun o => agentIdBits o.who).getD 0).setWidth 64
  else if k = 2 then 1
  else 0

/-! ### Positions (R24, R118, R130) -/

/-- The physical element numbered `j` of `n` in the numbering the instruction sees; none at a position at or beyond VL. -/
def numbered (w : Warp) (n j : Nat) : Option Nat :=
  if j / (n / 128) < w.vl then (physOf w (j / (n / 128))).map fun pl => pl * (n / 128) + j % (n / 128) else none

/-- The number the instruction sees for physical element `e` of `n`. -/
def numberOfElt (w : Warp) (n e : Nat) : Nat := (posOf w (e / (n / 128))).getD 0 * (n / 128) + e % (n / 128)

/-- Element `j` of `n` in that numbering, zero at or beyond VL (R130). -/
def posElem (w : Warp) (r : BitVec 6) (n wd j : Nat) : BitVec wd :=
  match numbered w n j with
  | some e => BitVec.ofNat wd (srcElem w r n wd e)
  | none => 0

/-- The 32-bit element at a position, and that of a physical lane. -/
def lane32 (w : Warp) (r : BitVec 6) (j : Nat) : BitVec 32 := posElem w r 128 32 j
def own32 (w : Warp) (r : BitVec 6) (pl : Nat) : BitVec 32 := BitVec.ofNat 32 (srcElem w r 128 32 pl)

/-- A position lies below VL and is selected by the predicate (R18, R132, R133). -/
def selectedAt (w : Warp) (f : FmtA) (p : Nat) : Bool :=
  decide (p < w.vl) && ((physOf w p).map fun pl => (activeMask w f.pm f.pi).getLsbD pl).getD false

/-- The selected positions, rising. -/
def selectedList (w : Warp) (f : FmtA) : List Nat := (List.range w.vl).filter (selectedAt w f)

/-! ### Reductions (R134, R135) -/

/-- The integer and the f32 operations of a reduction. -/
def reduceInt (op : Nat) (sg : Bool) (a b : BitVec 32) : BitVec 32 :=
  match op with
  | 0 => a + b
  | 1 => smaller sg a b
  | 2 => larger sg a b
  | 3 => a &&& b
  | 4 => a ||| b
  | _ => a ^^^ b
def reduceFloat (op : Nat) (a b : BitVec 32) : BitVec 32 :=
  BitVec.ofNat 32 (match op with
    | 0 => fpAdd fmtF32 .rne a.toNat b.toNat
    | 1 => fpMin fmtF32 a.toNat b.toNat
    | _ => fpMax fmtF32 a.toNat b.toNat)

/-- The operation of a reduction and its identity. -/
def reduceOp (op : Nat) (t : BitVec 4) (a b : BitVec 32) : BitVec 32 :=
  if t = 10 then reduceFloat op a b else reduceInt op (signedType t) a b
def reduceIdentity (op : Nat) (t : BitVec 4) : BitVec 32 :=
  if t = 10 then (if op = 0 then 0x80000000 else if op = 1 then 0x7F800000 else 0xFF800000)
  else if op = 1 then (if signedType t then 0x7FFFFFFF else 0xFFFFFFFF)
  else if op = 2 then (if signedType t then 0x80000000 else 0)
  else if op = 3 then 0xFFFFFFFF
  else 0

/-- What position `p` brings to a reduction. -/
def reduceInput (w : Warp) (f : FmtA) (op p : Nat) : BitVec 32 :=
  if selectedAt w f p then lane32 w f.a p else reduceIdentity op f.ty

/-- The fixed tree over the `2^k` positions from `base`. -/
def balanced (op : BitVec 32 → BitVec 32 → BitVec 32) (g : Nat → BitVec 32) : Nat → Nat → BitVec 32
  | 0, base => g base
  | k + 1, base => op (balanced op g k base) (balanced op g k (base + 2 ^ k))

/-- From `s` to `t` the issuing agent has gone on, and nothing else changed but mask m[d] of those of its masks that are not m0:
the bits of the lanes where `act` holds are those of `val`, the others what they were; a write to m0 is dropped (R14, R18). -/
def MaskWrite (s t : State) (d : BitVec 6) (act val : Nat → Bool) : Prop :=
  ∃ m : Mask, t = { s with cur := { retire s.cur with m := if d = 0 then s.cur.m else s.cur.m.setIfInBounds d.toNat m } } ∧
    ∀ pl < 128, m.getLsbD pl = if act pl then val pl else (readM s.cur (mfield d)).getLsbD pl

/-! ### Memory (R60, R139 to R146) -/

/-- The bytes of the scratchpad a .spd (space 1) or .rsp (space 2) address names, as a number; 0 where it names none. -/
def localValue (s : State) (space : Nat) (a : Word) (n : Nat) : BitVec (8 * n) :=
  match spdTarget s s.cur space a.toNat n with
  | some (id, off) => match s.findTeam id with
    | some t => BitVec.ofNat _ (ofBytes (spdRead t off n))
    | none => 0
  | none => 0

/-- The address lies in the scratchpad it names (R139). -/
def LocalInside (s : State) (space : Nat) (a : Word) (n : Nat) : Prop := (spdTarget s s.cur space a.toNat n).isSome = true

/-- A byte of the scratchpad of a team. -/
def scratchAt (s : State) (id off : Nat) : Byte := ((s.findTeam id).map fun t => spdByte t off).getD 0

/-- A unit of `n` bytes at address `a` covers byte `off` of the scratchpad of team `id`, as its `k`-th. -/
def LocalCovers (s : State) (space : Nat) (a : Word) (n id off k : Nat) : Prop :=
  k < n ∧ ∃ o, spdTarget s s.cur space a.toNat n = some (id, o) ∧ o + k = off

/-- From `s` to `t` the bytes of the scratchpads the active units cover hold one of the values stored there, every other byte is as
it was, and nothing else changes but that the agent goes on, soft errors stored over are gone, and the stores are noted as not yet
released (R140, R147, R173, R429). -/
def LocalStores (s t : State) (space n cnt : Nat) (act : Nat → Bool) (addr : Nat → Word) (val : Nat → BitVec (8 * n)) : Prop :=
  (∃ teams softErrs freeCtr, t = { s with
    cur := retire s.cur
    teams := teams
    softErrs := softErrs
    freeCtr := freeCtr } ∧ (∀ x ∈ softErrs, x ∈ s.softErrs)) ∧
  (t.teams.map fun x => { x with
    scratch := []
    loose := .empty }) = (s.teams.map fun x => { x with
    scratch := []
    loose := .empty }) ∧
  ∀ id off,
    ((∀ e < cnt, act e = true → ∀ k, ¬ LocalCovers s space (addr e) n id off k) → scratchAt t id off = scratchAt s id off) ∧
    ((∃ e < cnt, act e = true ∧ ∃ k, LocalCovers s space (addr e) n id off k) →
      ∃ e < cnt, act e = true ∧ ∃ k, LocalCovers s space (addr e) n id off k ∧
        scratchAt t id off = (val e).extractLsb' (8 * k) 8)

/-- Where an active unit lies outside its scratchpad, a warp's access freezes it with BOUNDS at the lowest of them (R140). -/
def LeavesBounds (i : Instr) (s : State) (space n cnt : Nat) (act : Nat → Bool) (addr : Nat → Word) : Prop :=
  isThread s.cur.who = false → ∀ e < cnt, act e = true → ¬ LocalInside s space (addr e) n →
    (∀ k < e, act k = true → LocalInside s space (addr k) n) → Completes i s fun t => FreezesWith s t 0x11 0xFF (addr e)

/-- The address of a format-M access: x[A] and the 24-bit offset, that of an atomic x[A] and OFFLO (R60). -/
def addressOf (w : Warp) (f : FmtM) : Word := readX w f.a + (f.hi ++ f.lo : BitVec 24).signExtend 64
def atomicAddressOf (w : Warp) (f : FmtM) : Word := readX w f.a + f.lo.signExtend 64

/-- Address of element `e` of a contiguous, a strided and an indexed form, the bits below the alignment cleared (R145, R146). -/
def contiguousAddr (w : Warp) (f : FmtM) (e : Nat) : Word :=
  alignDown (addressOf w f + BitVec.ofNat 64 ((if tyWidth f.ty = 64 then 8 else 4) * numberOfElt w 128 e)) (elemBytes f.ty)
def stridedAddr (w : Warp) (f : FmtM) (e : Nat) : Word :=
  alignDown (addressOf w f + BitVec.ofNat 64 (numberOfElt w (elemCount f.ty) e) * readX w f.b) (elemBytes f.ty)
def indexAddr (w : Warp) (f : FmtM) (off : Word) (e : Nat) : Word :=
  alignDown (if f.space ≠ 0 then readX w f.a + off + (own32 w f.b e).setWidth 64
    else if f.a = 0 then BitVec.ofNat 64 (srcElem w f.b 128 64 e) + off
    else readX w f.a + off + (own32 w f.b e).signExtend 64) (elemBytes f.ty)

/-- The bytes of a sector a core sees under `wclk`: those of a copy under a live lease in its L1, or those of memory (R221). -/
def seenSector (s : State) (d : Fin 2) (c : Fin 24) (wclk sec : Nat) : BitVec 256 :=
  match tblGet (s.coreAt d c).l1 sec with
  | some l => if wclk ≤ l.rts then l.data else sectorBits s.mem sec
  | none => sectorBits s.mem sec

/-- The bytes of the pool the issuing agent sees at a translated address (R221, R222, R230). -/
def seenBytes (s : State) (ph : Phys) (n : Nat) : List Byte :=
  match ph.kind, agentCore s.cur.who with
  | .pma, some c => toBytes ((seenSector s (agentDie s.cur.who) c s.cur.wclk (ph.pa / 32)).toNat >>> (8 * (ph.pa % 32))) n
  | _, _ => s.mem.read ph.pa n

/-- A load's data is in its registers at once, or owed to them until it returns (R28). -/
def loadedOrOwed (w : Warp) (p : Pending) (now : Bool) : Warp :=
  if now then applyPending w p else { w with pend := w.pend ++ [p] }

/-- What a load owes lands as `v` in x[d]. -/
def LandsScalar (p : Pending) (d : BitVec 6) (v : Word) : Prop := ∀ w, applyPending w p = writeX w d v

/-- What a load owes lands as the active elements of the group of vector registers at `d`, and nowhere else. -/
def LandsVector (p : Pending) (d : BitVec 6) (n wd : Nat) (act : Nat → Bool) (val : Nat → BitVec wd) : Prop :=
  ∀ w, ∃ v, applyPending w p = { w with v := v } ∧ GroupWrite w { w with v := v } d n wd act val

/-- A number of `m` bits in `n`, by sign or by zeros. -/
def widened {m : Nat} (n : Nat) (sg : Bool) (x : BitVec m) : BitVec n := if sg then x.signExtend n else x.setWidth n

/-- The bytes that writes give place `a`. -/
def bytesAt (ws : List (Phys × List Byte)) (a : Nat) : List Byte :=
  ws.filterMap fun w => if a < w.1.pa then none else w.2[a - w.1.pa]?

/-- A value becomes one of those written over it, and with none written stays what it was (R147). -/
def TakesOne {α : Type} (before after : α) (written : List α) : Prop := if written = [] then after = before else after ∈ written

/-- Lane `l` has a fault. -/
def laneFaults (faults : List (Nat × Word × Nat)) (l : Nat) : Bool := faults.any fun x => x.1 == l

/-- The issuing warp sleeps on its faults (R150): one record for each faulting page joins those its die will post, with the lanes
that fault there (none of a scalar access); the pc stays; sr.replay becomes the faulting lanes, for a scalar access it stays. -/
def SleepsOn (s t : State) (access : Nat) (faults : List (Nat × Word × Nat)) (vector : Bool) : Prop :=
  ∃ before recs, recs ≠ [] ∧ (t.die (agentDie s.cur.who)).spoolQ = before ++ recs ∧
    t.cur.status = .spool (recs.map SpoolRec.token) ∧ t.cur.pc = s.cur.pc ∧ t.cur.who = s.cur.who ∧
    (vector = true → ∀ l < 128, t.cur.replay.getLsbD l = laneFaults faults l) ∧
    (vector = false → t.cur.replay = s.cur.replay) ∧
    (recs.map fun r => r.va.toNat / 4096).Nodup ∧
    (∀ x ∈ faults, ∃ r ∈ recs, r.va.toNat / 4096 = x.2.1.toNat / 4096) ∧
    ∀ r ∈ recs, r.kind = 1 ∧ r.access = access ∧ r.ctx = s.cur.ctx ∧ r.pc = s.cur.pc ∧ r.agentId = agentIdBits s.cur.who ∧
      ∀ l < 128, r.lanes.getLsbD l = (vector && faults.any fun x => x.1 == l && x.2.1.toNat / 4096 == r.va.toNat / 4096)

/-! ### Atomics (R143, R147, R148) -/

/-- The scalar and the vector atomics with their operations. -/
def scalarAtomics : List (AtomOp × (FmtM → Instr)) :=
  [(.add, .atomAdd), (.and, .atomAnd), (.or, .atomOr), (.xor, .atomXor), (.min, .atomMin), (.max, .atomMax),
   (.xchg, .atomXchg), (.cas, .atomCas), (.fadd, .atomFadd), (.fmin, .atomFmin), (.fmax, .atomFmax)]
def vectorAtomics : List (AtomOp × (FmtM → Instr)) :=
  [(.add, .vatomAdd), (.and, .vatomAnd), (.or, .vatomOr), (.xor, .vatomXor), (.min, .vatomMin), (.max, .vatomMax),
   (.xchg, .vatomXchg), (.cas, .vatomCas), (.fadd, .vatomFadd), (.fmin, .vatomFmin), (.fmax, .vatomFmax)]

/-- The types an atomic takes: 32 and 64 bits, a floating-point operation f32 and f64 (R143). -/
def AtomicType (op : AtomOp) (t : BitVec 4) : Prop :=
  t = 10 ∨ t = 11 ∨ (ScalarIntType t ∧ op ≠ .fadd ∧ op ≠ .fmin ∧ op ≠ .fmax)

/-- The new value of an atomic: `x` is x[D] or the lane of v[D], `b` the new value of a compare and swap (R143). -/
def atomicValue {k : Nat} (op : AtomOp) (t : BitVec 4) (old x b : BitVec k) : BitVec k :=
  let f := scalarFormat t
  match op with
  | .add => old + x
  | .and => old &&& x
  | .or => old ||| x
  | .xor => old ^^^ x
  | .min => smaller (decide (t.toNat < 8) && signedType t) old x
  | .max => larger (decide (t.toNat < 8) && signedType t) old x
  | .xchg => x
  | .cas => if old = x then b else old
  | .fadd => BitVec.ofNat k (fpAdd f .rne old.toNat x.toNat)
  | .fmin => BitVec.ofNat k (fpMin f old.toNat x.toNat)
  | .fmax => BitVec.ofNat k (fpMax f old.toNat x.toNat)

/-- Atomics of 4-byte elements at places of memory made one by one: the memory they leave and the old value each receives. -/
def oneByOne (g : Nat → BitVec 32 → BitVec 32) : List (Nat × Nat) → Memory → Memory × Tbl (BitVec 32)
  | [], m => (m, [])
  | (e, pa) :: l, m =>
    let old : BitVec 32 := BitVec.ofNat 32 (m.num pa 4)
    let r := oneByOne g l (m.write pa (toBytes (g e old).toNat 4))
    (r.1, (e, old) :: r.2)

/-- The same for elements in scratchpads. -/
def localOneByOne (sp : Nat) (g : Nat → BitVec 32 → BitVec 32) : List MemUnit → State → State × Tbl (BitVec 32)
  | [], s => (s, [])
  | u :: l, s =>
    let old : BitVec (8 * 4) := localValue s sp u.va 4
    let r := localOneByOne sp g l (scratchPut s sp u (g u.elem old).toNat)
    (r.1, (u.elem, old) :: r.2)

/-! ### Knots (R62, R156 to R164) -/

/-- The deadline has been reached: it is not 0 and stage time, in nanoseconds, is not below it (R164, R168). -/
def deadlinePassed (s : State) (dl : Word) : Prop := dl ≠ 0 ∧ dl.toNat ≤ (s.stage.sec * 1000000000 + s.stage.nsec) % 2 ^ 64

/-- Whose stores to a team's scratchpad a release of a warp orders (R155, R218): its own, and those of its team's commands that have
signalled. -/
def orders (w : Warp) (t : Team) (b : LooseByte) : Bool :=
  match b.by_ with
  | .warp i => i == warpId w
  | .cmd id => t.id == w.team && t.loose.signalled.any (·.1 == id)

/-- The older bytes of a team's scratchpad after a release of a warp: of each byte, newest store first, those not behind an ordered one. -/
def stillLoose (w : Warp) (t : Team) : Team := { t with loose := { t.loose with
  bytes := (t.loose.bytes.map fun e => (e.1, e.2.takeWhile fun b => !(orders w t b))).filter fun e => !(e.2.isEmpty) } }

/-- A release by the issuing agent at a scope (R155, R221): at module scope or wider the stores it has made and not yet completed
there do so, its die's XTS and its own smax reaching each other; past scope warp its stores to scratchpads are in their banks; its
clock reaches smax. -/
def releasedAt (s : State) (scope : Nat) : State :=
  let d := agentDie s.cur.who
  let top := max (s.die d).xts s.cur.smax
  let s := if 4 ≤ scope ∧ s.cur.wrote = true then { s.onDie d (fun x => { x with xts := top }) with cur := { s.cur with
      smax := top
      wrote := false } } else s
  { s with
    teams := if scope = 0 then s.teams else s.teams.map (stillLoose s.cur)
    cur := { s.cur with wclk := max s.cur.wclk s.cur.smax } }

/-- An acquire at system scope: the copies of the issuing core's L1 that memory has overtaken are gone (R155, R209). -/
def overtakenGone (s : State) : State :=
  match s.cur.who with
  | .thread _ _ => s
  | .warp d c _ _ => s.onCore d c fun x => { x with l1 := x.l1.filter fun e => e.2.data == sectorBits s.mem e.1 }

/-- An update the issuing warp sends to a knot, with its clock then. -/
def knotUpdate (s : State) (r : KnotRef) (op : KnotOp) (note : Option Nat) : KnotUpdate :=
  { home := r
    op := op
    src := some (warpId s.cur)
    ctx := s.cur.ctx
    d := agentDie s.cur.who
    time := s.cur.wclk
    note := note
    cmdTeam := none
    recv := none }

/-- The issuing warp with a wait satisfied by the knot: an acquire, and the status with ERR in bit 1 (R162, R221). -/
def waitDone (s : State) (d : BitVec 6) (k : Knot) : Warp :=
  retire (writeX { s.cur with
    wclk := max s.cur.wclk (if agentDie s.cur.who = 0 then k.kts0 else k.kts1)
    karrw := karrwDone s.cur } d (if k.err then 2 else 0))

/-! ### The tile store (R194) -/

/-- A cell of a row of a ply of a team's tile store. -/
def tileCell (s : State) (id ply row pl : Nat) : BitVec 32 := ((s.findTeam id).map fun t => laneOf (tileRow t ply row) pl).getD 0

/-- From `s` to `t` the agent has gone on; of the tile stores the cells of its ply's rows where `val` says so changed, and nothing
else but that soft errors in rows written over are gone. -/
def TileWrite (s t : State) (val : Nat → Nat → Option (BitVec 32)) : Prop :=
  (∃ teams softErrs, t = { s with
    cur := retire s.cur
    teams := teams
    softErrs := softErrs } ∧ (∀ x ∈ softErrs, x ∈ s.softErrs)) ∧
  (t.teams.map fun x => { x with tiles := [] }) = (s.teams.map fun x => { x with tiles := [] }) ∧
  ∀ id ply row, ply < 8 → row < 256 → ∀ pl < 128,
    tileCell t id ply row pl = (if id = s.cur.team ∧ ply = curPly s then val row pl else none).getD (tileCell s id ply row pl)

/-! ### The transform pipe (R195) -/

/-- Element `e` of width `wd` of the registers from field `r` on, taken one register after another. -/
def seqCell (w : Warp) (r : BitVec 6) (wd e : Nat) : BitVec wd :=
  (vAt w (r.toNat + e / (4096 / wd))).extractLsb' (wd * (e % (4096 / wd))) wd

/-- Of the vector registers the `cnt` from field `d` on hold `val`, element after element; the others are as they were. -/
def WritesInTurn (w w' : Warp) (d : BitVec 6) (cnt wd : Nat) (val : Nat → BitVec wd) : Prop :=
  (∀ e < cnt * (4096 / wd), seqCell w' d wd e = val e) ∧ ∀ k < 64, k < d.toNat ∨ d.toNat + cnt ≤ k → vAt w' k = vAt w k

/-- The issuing warp, with `gens` in its generators, goes on; an entry of its own joins the end of its transform pipe, whose reply
leaves a warp with vector registers of which `P` holds and changes nothing else of it. -/
def EntersPipe (i : Instr) (s : State) (d : Fin 2) (c : Fin 24) (p : Fin 8) (gens : Vector (BitVec 32) 128) (P : Warp → Warp → Prop) :
    Prop :=
  ∃ e, exec i s = .next { s.onCore d c (fun x => setPipe x p.val (pipeOf x p.val ++ [e])) with cur := retire { s.cur with gens := gens } } ∧
    e.owner = warpId s.cur ∧ some e.word = encode i ∧ ∀ w, ∃ v, xfmComplete w e = { w with v := v } ∧ P w { w with v := v }

/-! ### Samplers and rays (R198 to R205) -/

/-- From `s` to `t` nothing changed but what the dies hold beside memory, the directory, the count of free values, and what a read of
a window takes: a value of a HIRQ queue, a latch of the stage clock's seconds (R392, R397). -/
def CachesOnly (s t : State) : Prop := ∃ dies dir freeCtr host latch, t = { s with
  dies := dies
  dir := dir
  freeCtr := freeCtr
  host := host
  stage := { s.stage with hiLatch := latch } }

/-- Bits `hi` to `lo` of a number. -/
def field (n hi lo : Nat) : Nat := n / 2 ^ lo % 2 ^ (hi + 1 - lo)

/-- The texels a sampler finds: while `P` holds of the state and of what an instruction has read, a texel of the texture fetched at level
`l`, column `x` and row `y` has the four f16 channels `T l x y`, and `P` goes on holding. -/
def Fetches (P : State → SampGot → Prop) (k : Fetch) (t : TexDesc) (T : Nat → Nat → Nat → List Nat) : Prop :=
  ∀ a l x y, l < t.levels → x < max 1 (t.width / 2 ^ l) → y < max 1 (t.height / 2 ^ l) → a.live = true → P a.s a.got →
    let r := texelAt k t a l x y
    r.1.live = true ∧ P r.1.s r.1.got ∧ r.2 = T l x y

/-- A coordinate wrapped by a mode (R197), none outside the texture under BORDER. -/
def wrapped (mode : Nat) (i : Int) (n : Nat) : Option Nat :=
  let m := (i % (2 * n : Nat)).toNat
  if mode = 0 then some (i % n).toNat
  else if mode = 1 then some (if i < 0 then 0 else if (n : Int) ≤ i then n - 1 else i.toNat)
  else if mode = 2 then some (if m < n then m else 2 * n - 1 - m)
  else if 0 ≤ i ∧ i < n then some i.toNat else none

/-- The floor of an f32 and its fraction in 256ths, cut; 0 and 0 of a NaN or an infinity (R199). -/
def floorOf (x : Nat) : Int × Nat :=
  let v := decodeFp fmtF32 x
  if v.isNan || v.isInf then (0, 0) else (⌊numberOf v⌋, ⌊(numberOf v - ⌊numberOf v⌋) * 256⌋.toNat)

/-- The nearest integer, a tie to even. -/
def nearestEven (r : Rat) : Int :=
  let n := ⌊r⌋
  if r - n < 1 / 2 then n else if 1 / 2 < r - n then n + 1 else if n % 2 = 0 then n else n + 1

/-- R199's arithmetic over the texels `T` of a texture, f32 with RNE in the order written. -/
structure Sampling where
  T : Nat → Nat → Nat → List Nat
  t : TexDesc
  sd : SampDesc

/-- Width and height of a level (R196). -/
def Sampling.size (s : Sampling) (l : Nat) : Nat × Nat := (max 1 (s.t.width / 2 ^ l), max 1 (s.t.height / 2 ^ l))

/-- The texel at integer coordinates after wrapping. -/
def Sampling.texel (s : Sampling) (l : Nat) (i j : Int) : List Nat :=
  match wrapped s.sd.wrapX i (s.size l).1, wrapped s.sd.wrapY j (s.size l).2 with
  | some x, some y => s.T l x y
  | _, _ => s.sd.border

/-- u x W - 0.5. -/
def texelAxis (u n : Nat) : Nat := f32sub (f32mul u (encodeFp fmtF32 .rne (.fin false n 0))) 0x3F000000

/-- a(1 - w) + b w for w in 256ths. -/
def blended (a b w : Nat) : Nat :=
  let w := encodeFp fmtF32 .rne (.fin false w (-8))
  f32add (f32mul a (f32sub 0x3F800000 w)) (f32mul b w)

/-- Channel `c` of the bilinear result at a level. -/
def Sampling.bilinear (s : Sampling) (l u v c : Nat) : Nat :=
  let x := floorOf (texelAxis u (s.size l).1)
  let y := floorOf (texelAxis v (s.size l).2)
  let ch := fun i j => encodeFp fmtF32 .rne (decodeFp fmtF16 ((s.texel l i j).getD c 0))
  blended (blended (ch x.1 y.1) (ch (x.1 + 1) y.1) x.2) (blended (ch x.1 (y.1 + 1)) (ch (x.1 + 1) (y.1 + 1)) x.2) y.2

/-- A level of detail held to 0 to LEVELS - 1, a NaN as 0. -/
def Sampling.level (s : Sampling) (lam : Nat) : Rat :=
  match decodeFp fmtF32 lam with
  | .nan => 0
  | .inf neg => if neg then 0 else (s.t.levels - 1 : Nat)
  | v => max 0 (min (numberOf v) (s.t.levels - 1 : Nat))

/-- Channel `c` of the trilinear result; the level after the last is the last itself (log entry 35). -/
def Sampling.trilinear (s : Sampling) (lam u v c : Nat) : Nat :=
  let r := s.level lam
  let l := ⌊r⌋.toNat
  blended (s.bilinear l u v c) (s.bilinear (min (l + 1) (s.t.levels - 1)) u v c) ⌊(r - ⌊r⌋) * 256⌋.toNat

/-- rho of a derivative: the root of (du W)^2 + (dv H)^2. -/
def Sampling.rho (s : Sampling) (du dv : Nat) : Nat :=
  let x := f32mul du (encodeFp fmtF32 .rne (.fin false s.t.width 0))
  let y := f32mul dv (encodeFp fmtF32 .rne (.fin false s.t.height 0))
  f32sqrt (f32add (f32mul x x) (f32mul y y))

/-- Probes of an anisotropic sample; MAXANISO + 1 where the quotient is no number (log entry 35). -/
def Sampling.probes (s : Sampling) (rmax rmin : Nat) : Nat :=
  match decodeFp fmtF32 (f32div rmax rmin) with
  | .fin neg m e => max 1 (min (s.sd.aniso + 1) ⌈numberOf (.fin neg m e)⌉.toNat)
  | _ => s.sd.aniso + 1

/-- SAMPLE's four f16 channels at lane `q`: `u`, `v` and `x` are the three operands lane by lane, `mode` is LODMODE (R199). -/
def Sampling.result (s : Sampling) (mode : Nat) (u v x : Nat → Nat) (q : Nat) : List Nat :=
  let corner := q / 4 * 4
  let dx := (f32sub (u (corner + 1)) (u corner), f32sub (v (corner + 1)) (v corner))
  let dy := (f32sub (u (corner + 2)) (u corner), f32sub (v (corner + 2)) (v corner))
  let rx := s.rho dx.1 dx.2
  let ry := s.rho dy.1 dy.2
  let implicit := f32add (sfuLog2 fmtF32 (f32max rx ry)) (encodeFp fmtF32 .rne (decodeFp fmtF16 s.sd.bias))
  let lam := if mode = 1 then x q else if mode = 2 then f32add implicit (x q) else implicit
  let rounded := fun c : Nat => encodeFp fmtF16 .rne (decodeFp fmtF32 c)
  if s.sd.filter = 0 then
    let l := (nearestEven (s.level lam)).toNat
    s.texel l (floorOf (f32add (texelAxis (u q) (s.size l).1) 0x3F000000)).1 (floorOf (f32add (texelAxis (v q) (s.size l).2) 0x3F000000)).1
  else (List.range 4).map fun c =>
    if s.sd.filter = 1 then rounded (s.bilinear ⌊s.level lam⌋.toNat (u q) (v q) c)
    else if s.sd.filter = 2 then rounded (s.trilinear lam (u q) (v q) c)
    else
      let count := s.probes (f32max rx ry) (f32min rx ry)
      let n := encodeFp fmtF32 .rne (.fin false count 0)
      let major := if f32lt rx ry then dy else dx
      let at_ := fun (centre d k : Nat) => f32add centre (f32mul (f32sub (f32div (f32add (encodeFp fmtF32 .rne (.fin false k 0)) 0x3F000000) n) 0x3F000000) d)
      let probe := fun k => s.trilinear (sfuLog2 fmtF32 (f32div (f32max rx ry) n)) (at_ (u q) major.1 k) (at_ (v q) major.2 k) c
      rounded (f32div ((List.range (count - 1)).foldl (fun sum k => f32add sum (probe (k + 1))) (probe 0)) n)

/-- SGATH's four texels of channel `ch` at a level held to LEVELS - 1 (R198). -/
def Sampling.gathered (s : Sampling) (lvl ch u v : Nat) : List Nat :=
  let l := min lvl (s.t.levels - 1)
  let i := (floorOf (texelAxis u (s.size l).1)).1
  let j := (floorOf (texelAxis v (s.size l).2)).1
  [s.texel l i j, s.texel l (i + 1) j, s.texel l i (j + 1), s.texel l (i + 1) (j + 1)].map fun c => c.getD ch 0

/-! ### Rays (R302 to R309) -/

/-- Three f32 numbers; differences, cross and dot products in the order of R308. -/
abbrev Vec3 := Fin 3 → Nat
def diff3 (a b : Vec3) : Vec3 := fun i => f32sub (a i) (b i)
def cross3 (a b : Vec3) : Vec3 := ![f32sub (f32mul (a 1) (b 2)) (f32mul (a 2) (b 1)), f32sub (f32mul (a 2) (b 0)) (f32mul (a 0) (b 2)),
  f32sub (f32mul (a 0) (b 1)) (f32mul (a 1) (b 0))]
def dot3 (a b : Vec3) : Nat := f32add (f32add (f32mul (a 0) (b 0)) (f32mul (a 1) (b 1))) (f32mul (a 2) (b 2))
def words3 (n lo : Nat) : Vec3 := fun i => field n (lo + 32 * i.val + 31) (lo + 32 * i.val)

/-- Origin and direction of a query's ray in the space of an instance (R306). -/
def raySpace (q : RayQuery) (inst : Option RayInstance) : Vec3 × Vec3 :=
  let o : Vec3 := fun i => q.o[i].toNat
  let d : Vec3 := fun i => q.dir[i].toNat
  match inst with
  | none => (o, d)
  | some m =>
    let row := fun (p : Vec3) (r : Fin 3) => dot3 (fun c => (m.xf.getD (4 * r.val + c.val) 0).toNat) p
    (fun r => f32add (row o r) (m.xf.getD (4 * r.val + 3) 0).toNat, row d)

/-- One axis of the box test: what tn and tf become, none for a miss (R307). -/
def slab (lo hi o d : Nat) (t : Nat × Nat) : Option (Nat × Nat) :=
  if (decodeFp fmtF32 d).isZero then
    if fvBelow (decodeFp fmtF32 o) (decodeFp fmtF32 lo) || fvBelow (decodeFp fmtF32 hi) (decodeFp fmtF32 o) then none else some t
  else
    let t1 := f32div (f32sub lo o) d
    let t2 := f32div (f32sub hi o) d
    some (f32max t.1 (f32min t1 t2), f32min t.2 (f32max t1 t2))

/-- "a <= b" of f32 numbers (R68). -/
def atMost (a b : Nat) : Bool := floatCompares 3 (decodeFp fmtF32 a) (decodeFp fmtF32 b)

/-- tn of child `k` of a node that the ray hits (R302, R303, R307). -/
def childTn (n k : Nat) (q : RayQuery) (inst : Option RayInstance) : Option Nat :=
  let ray := raySpace q inst
  let ex := fun a => field n (103 + 8 * a) (96 + 8 * a)
  let code := fun b => field n (128 + 48 * k + 8 * b + 7) (128 + 48 * k + 8 * b)
  let bound := fun md a b => encodeFp fmtF32 md (Fv.add md (decodeFp fmtF32 (field n (32 * a + 31) (32 * a))) (.fin false (code b) ((ex a : Int) - 127)))
  if ∃ a < 3, ex a = 255 ∨ code (3 + a) < code a then none
  else
    ((List.finRange 3).foldlM (fun t (a : Fin 3) => slab (bound .rdn a.val a.val) (bound .rup a.val (3 + a.val)) (ray.1 a) (ray.2 a) t) (0xFF800000, 0x7F800000)).bind fun t =>
      let tf := decodeFp fmtF32 t.2
      let part : Fv := match tf with
        | .fin _ m e => .fin false m (e - 21)
        | .inf _ => .inf false
        | .nan => .nan
      let far := encodeFp fmtF32 .rup (Fv.add .rup tf part)
      if atMost t.1 far && atMost q.tmin.toNat far && atMost t.1 q.tcur.toNat then some t.1 else none

/-- The work that child `k` of a node makes: TYPE 0 none, and none of an instance inside an instance (R303). -/
def childWork (n k : Nat) (q : RayQuery) (e : RayEntry) : Option RayEntry :=
  let m := field n (512 + 64 * k + 63) (512 + 64 * k)
  let ty := m % 4
  if ty = 0 ∨ (ty = 3 ∧ e.inst.isSome = true) then none
  else (childTn n k q e.inst).map fun tn =>
    { tn := BitVec.ofNat 32 tn
      kind := BitVec.ofNat 2 ty
      addr := if ty = 1 then m / 128 * 128 else m / 64 * 64
      nleaf := if ty = 2 then m / 4 % 16 else 0
      inst := e.inst }

/-- Entry `a` comes nearer than `b`. -/
def nearer (a b : RayEntry) : Prop := fvBelow (decodeFp fmtF32 a.tn.toNat) (decodeFp fmtF32 b.tn.toNat) = true

/-- A push on a stack of 128 entries, whose newest stands first: beyond them the entry of largest tn goes, the oldest among equals
(R309). -/
def Pushed (e : RayEntry) (st st' : List RayEntry) : Prop :=
  (st.length < 128 → st' = e :: st) ∧
  (128 ≤ st.length → ∃ newer x older, e :: st = newer ++ x :: older ∧ st' = newer ++ older ∧ (∀ y ∈ e :: st, ¬ nearer x y) ∧
    ∀ y ∈ older, ∃ z ∈ e :: st, nearer y z)

/-- Entries pushed one after another. -/
inductive PushedAll : List RayEntry → List RayEntry → List RayEntry → Prop
  | none (st) : PushedAll [] st st
  | more (e l st st1 st2) : Pushed e st st1 → PushedAll l st1 st2 → PushedAll (e :: l) st st2

/-- The test of a triangle leaf (R304, R308, R309): t, u and v of an acceptable hit. -/
def leafHit (leaf : Nat) (q : RayQuery) (inst : Option RayInstance) : Option (Nat × Nat × Nat) :=
  let ray := raySpace q inst
  let v0 := words3 leaf 0
  let e1 := diff3 (words3 leaf 96) v0
  let e2 := diff3 (words3 leaf 192) v0
  let p := cross3 ray.2 e2
  let det := dot3 e1 p
  let front := fvBelow (decodeFp fmtF32 0) (decodeFp fmtF32 det) != (inst.map fun i => i.flip).getD false
  let s := diff3 ray.1 v0
  let u := f32div (dot3 s p) det
  let r := cross3 s e1
  let v := f32div (dot3 ray.2 r) det
  let t := f32div (dot3 e2 r) det
  let near := if q.hit.isSome then fvBelow (decodeFp fmtF32 t) (decodeFp fmtF32 q.tcur.toNat) else atMost t q.tcur.toNat
  if (decodeFp fmtF32 det).isZero || (q.cull && !((inst.map fun i => i.nocull).getD false) && !front) then none
  else if atMost 0 u && atMost 0 v && atMost (f32add u v) 0x3F800000 && atMost q.tmin.toNat t && near then some (t, u, v) else none

/-- A query that has taken in a hit of a leaf: committed at once when it is opaque, else its candidate (R304, R305, R309). -/
def withCandidate (q : RayQuery) (leaf : Nat) (inst : Option RayInstance) (c : Nat × Nat × Nat) : RayQuery :=
  let h : RayHit :=
    { t := BitVec.ofNat 32 c.1
      inst := (inst.map fun i => i.index).getD 0xFFFFFFFE
      prim := BitVec.ofNat 32 (field leaf 319 288)
      u := BitVec.ofNat 32 c.2.1
      v := BitVec.ofNat 32 c.2.2 }
  if leaf.testBit 320 || q.opq || (inst.map fun i => i.opq).getD false then { q with
    hit := some h
    tcur := h.t
    done := q.first } else { q with cand := some h }

/-- One entry `e` visited, whose bytes are `n`; `rest` is the other work (R303 to R305, R309). A node's hit children are visited by
rising tn, of equal ones the lower child first, the others pushed so that they pop in that order. A leaf range goes on at the next
leaf. An instance is entered at its root when its mask meets the query's. -/
def Visits (q : RayQuery) (e : RayEntry) (rest : List RayEntry) (n : Nat) (q' : RayQuery) : Prop :=
  (e.kind = 1 →
    ∃ hits : List (Nat × RayEntry), (∀ k c, (k, c) ∈ hits ↔ k < 8 ∧ childWork n k q e = some c) ∧ (hits.map Prod.fst).Nodup ∧
      hits.Pairwise (fun a b => nearer a.2 b.2 ∨ (¬ nearer b.2 a.2 ∧ a.1 < b.1)) ∧
      (hits = [] → q' = { q with stack := rest }) ∧
      ∀ c cs, hits.map Prod.snd = c :: cs → ∃ st, PushedAll cs.reverse rest st ∧ q' = { q with stack := c :: st }) ∧
  (e.kind = 2 →
    let next := if e.nleaf = 0 then rest else { e with
      tn := 0xFF800000
      addr := e.addr + 64
      nleaf := e.nleaf - 1 } :: rest
    (leafHit n q e.inst = none → q' = { q with stack := next }) ∧
    ∀ c, leafHit n q e.inst = some c → q' = withCandidate { q with stack := next } n e.inst c) ∧
  (e.kind ≠ 1 → e.kind ≠ 2 →
    (field n 487 480 &&& q.imask.toNat = 0 → q' = { q with stack := rest }) ∧
    (field n 487 480 &&& q.imask.toNat ≠ 0 → q' = { q with stack :=
      { tn := 0xFF800000
        kind := 1
        addr := field n 447 384 / 128 * 128
        nleaf := 0
        inst := some { index := BitVec.ofNat 32 (field n 479 448), flip := n.testBit 490, nocull := n.testBit 489, opq := n.testBit 488,
                       xf := (List.range 12).map fun k => BitVec.ofNat 32 (field n (32 * k + 31) (32 * k)) } } :: rest }))

/-- The walk of a query (R309), `Holds e n` saying that the node of entry `e` has the bytes `n`: an entry whose tn exceeds tcur is
skipped, any other visited; with no work left the query is over; it stops at a candidate. -/
inductive WalksTo (Holds : RayEntry → Nat → Prop) : RayQuery → RayQuery → Prop
  | stop (q) : q.done = true ∨ q.cand.isSome = true → WalksTo Holds q q
  | over (q) : q.done = false → q.cand = none → q.stack = [] → WalksTo Holds q { q with done := true }
  | skip (q q' e rest) : q.done = false → q.cand = none → q.stack = e :: rest →
      fvBelow (decodeFp fmtF32 q.tcur.toNat) (decodeFp fmtF32 e.tn.toNat) = true → WalksTo Holds { q with stack := rest } q' → WalksTo Holds q q'
  | visit (q q1 q' e rest n) : q.done = false → q.cand = none → q.stack = e :: rest →
      fvBelow (decodeFp fmtF32 q.tcur.toNat) (decodeFp fmtF32 e.tn.toNat) = false → Holds e n → Visits q e rest n q1 → WalksTo Holds q1 q' →
      WalksTo Holds q q'

/-- The issuing warp reads the bytes `n` for the node of an entry: 128 of a node, 64 of a leaf or an instance (R205, R302 to R305). -/
def ReadsNode (s : State) (e : RayEntry) (n : Nat) : Prop :=
  ∃ u v bs ts, CachesOnly s { u with cur := s.cur } ∧
    readDwords u (warpSpace s s.cur) (curParty s false) (BitVec.ofNat 64 e.addr) (if e.kind = 1 then 16 else 8) = (v, .ok (bs, ts)) ∧ n = ofBytes bs

/-- A texture instruction completes: each lane of `out` receives its channels c0 and c1 in v[D], c2 and c3 in v[D+1], at once or
when its data returns; nothing else changes but caches and the timestamp of what it read (R198). -/
def Samples (i : Instr) (s : State) (f : FmtA) (out : List (Nat × List Nat)) : Prop :=
  ∃ u rmax p now, CachesOnly s u ∧
    exec i s = .next { u with cur := retire (if out = [] then { s.cur with rmax := rmax } else loadedOrOwed { s.cur with rmax := rmax } p now) } ∧
    let has := fun e => out.any fun o => o.1 == e
    let pair := fun k e => BitVec.ofNat 32 (((tblGet out e).map fun c => c.getD k 0 % 65536 + c.getD (k + 1) 0 % 65536 * 65536).getD 0)
    ∀ w, ∃ v v', applyPending w p = { w with v := v' } ∧ GroupWrite w { w with v := v } f.d 128 32 has (pair 0) ∧
      GroupWrite { w with v := v } { w with v := v' } (f.d + 1) 128 32 has (pair 2)

/-- From `w` to `w'`, the lanes of `out` received their words in v[d] to v[d+3] and their bits in m[m]; its other lanes, masks and
registers are as they were (R203). -/
def QueryWrite (w w' : Warp) (d : BitVec 6) (m : BitVec 4) (has : Nat → Bool) (word : Nat → Nat → BitVec 32) (on : Nat → Bool) : Prop :=
  (∃ v mk, w' = { w with
    v := v
    m := if m = 0 then w.m else w.m.setIfInBounds m.toNat mk } ∧
    ∀ l < 128, mk.getLsbD l = if has l then on l else (readM w m).getLsbD l) ∧
  (∀ k < 4, ∀ l < 128, own32 w' (d + BitVec.ofNat 6 k) l = if has l then word k l else own32 w (d + BitVec.ofNat 6 k) l) ∧
  ∀ k < 64, k < d.toNat ∨ d.toNat + 4 ≤ k → vAt w' k = vAt w k

/-- The words of a hit, and those of none: t, the instance, the primitive, the coordinates as f16 (R203, R308). -/
def hitWord (h : Option RayHit) (k : Nat) : BitVec 32 :=
  match h with
  | some h => if k = 0 then h.t else if k = 1 then h.inst else if k = 2 then h.prim else
      BitVec.ofNat 32 (reportUv h.u + 65536 * reportUv h.v)
  | none => if k = 0 then 0x7F800000 else if k = 1 ∨ k = 2 then 0xFFFFFFFF else 0

/-- What a query reports: its candidate where one is pending, else its hit. -/
def reported (q : Option RayQuery) : Option RayHit := q.bind fun q => q.cand.orElse fun _ => q.hit

/-- A walk `r` of the active lanes from the queries `start` completes: each lane's query goes the way of R306 to R309 over the nodes it
reads, afterwards is over or has a candidate, is saved and reported; a query that is over is left as it is; a lane with none reports none; nothing else changes but caches and the
timestamp of what was read (R203, R309). -/
def Walks (i : Instr) (s : State) (f : FmtA) (act : Mask) (start : Nat → Option RayQuery) (r : RaysDone) : Prop :=
  ∃ w', exec i s = .next { r.s with cur := retire w' } ∧ CachesOnly s { r.s with cur := s.cur } ∧
    (∀ l, act.getLsbD l = false ∨ 128 ≤ l → tblGet r.s.cur.queries l = tblGet s.cur.queries l) ∧
    (∀ l < 128, act.getLsbD l = true → match start l with
      | none => tblGet r.s.cur.queries l = tblGet s.cur.queries l
      | some q => ∃ q', tblGet r.s.cur.queries l = some q' ∧ WalksTo (ReadsNode s) q q' ∧ (q.done = true → q' = q) ∧ (q'.done = true ∨ q'.cand.isSome = true) ∧
        (q' = { q with
          stack := q'.stack
          tcur := q'.tcur
          hit := q'.hit
          cand := q'.cand
          done := q'.done }) ∧
        ((q'.hit = q.hit ∧ q'.tcur = q.tcur) ∨ ∃ h, q'.hit = some h ∧ q'.tcur = h.t)) ∧
    let now := fun l => (start l).bind fun _ => tblGet r.s.cur.queries l
    QueryWrite { s.cur with rmax := max s.cur.rmax r.ts, queries := r.s.cur.queries } w' f.d (mfield f.c) (fun l => act.getLsbD l)
      (fun k l => hitWord (reported (now l)) k) (fun l => ((now l).bind fun q => q.cand).isSome)

/-! ### Events of the machine -/

/-- An event done at another agent, the first of the others, is what it would be were that agent the issuing one. -/
def AtAnother (ev : Agent → Instr) (s : State) : Prop :=
  ∀ w rest t c rest', s.others = w :: rest → s.cur.who ≠ w.who → w.status ≠ .exited → (∀ o ∈ rest, o.who = w.who → o.status = .exited) →
    exec (ev w.who) { s with cur := w, others := s.cur :: rest } = .next t → t.others = c :: rest' →
    exec (ev w.who) s = .next { t with cur := c, others := t.cur :: rest' }

/-- The knot after an arrival of `n` by the party of an update (R158, R159, R161, R221). -/
def arrived (s : State) (u : KnotUpdate) (n : Nat) (err : Bool) (k : Knot) : Knot :=
  let time := fun d : Fin 2 => if u.d = d ∧ u.recv = none then u.time else (s.die d).xts
  let k := { k with
    kts0 := max k.kts0 (time 0)
    kts1 := max k.kts1 (time 1)
    err := k.err || err }
  if k.counter then { k with count := min (k.count + n) 32767 }
  else { k with
    count := (k.count + n) % k.expect
    phase := k.phase != ((k.count + n) / k.expect % 2 == 1)
    flips := k.flips + (k.count + n) / k.expect }

/-- The knot after a configuration (R161). -/
def configured (counter : Bool) (scope val : Nat) (phase : Bool) (k : Knot) : Knot :=
  { k with
    err := false
    counter := counter
    scope := scope
    phase := phase
    expect := if counter then 0 else val
    count := if counter then val else 0 }

/-- The knot a command's record signals when it ends: with SEN, one of its own team, of the team of its cluster with the rank named, or a
far knot (R76, R172). -/
def signalledKnot (s : State) (c : Cmd) : Option KnotRef :=
  let idx := field c.record.toNat 73 64
  let rank := field c.record.toNat 95 92
  if field c.record.toNat 76 76 = 0 then none
  else match field c.record.toNat 75 74 with
    | 0 => some (.team c.team idx)
    | 1 => (s.findTeam c.team).bind fun m => (s.clusterTeam m.cluster rank).map fun u => .team u.id idx
    | 2 => some (.far (idx + 1024 * (rank % 4)))
    | _ => none

/-- A copy command ends (R172, R181, R185, R221): it is gone, memory is as it was, its team counts an error and takes its time, and its
arrival is on its way to the knot it signals, which its stores to the scratchpad follow; at a knot of module scope or wider the
die's time and the arrival's reach each other first. -/
def Ended (s t : State) (c : Cmd) (err : Nat) : Prop :=
  let knot := signalledKnot s c
  let wide := knot.any fun r => decide (4 ≤ (getKnot s r).scope)
  let xts := max (s.die c.d).xts c.maxTs
  let time := max (max c.maxTs c.time) (if wide then xts else 0)
  t.cmds = s.cmds.filter (fun x => x.id != c.id) ∧ t.mem = s.mem ∧ t.cur = s.cur ∧ t.others = s.others ∧
  (∀ e, t.die e = if wide = true ∧ e = c.d then { s.die e with xts := xts } else s.die e) ∧
  (t.teams = s.teams.map fun m => if m.id = c.team then { m with
    errCnt := if err = 0 then m.errCnt else min 255 (m.errCnt + 1)
    lastErr := if err = 0 then m.lastErr else err
    tts := max m.tts time
    loose := (knot.map fun r => { m.loose with signalled := tblSet m.loose.signalled c.id r }).getD m.loose } else m) ∧
  t.knotQ = s.knotQ ++ (knot.map fun r =>
    { home := r
      op := .arrive (field c.record.toNat 91 77) (err != 0)
      src := none
      ctx := c.ctx
      d := c.d
      time := time
      note := none
      cmdTeam := some c.team
      recv := none : KnotUpdate }).toList

/-! ### Queues and packets (R335, R342) -/

/-- A queue that reads packets: IDLE, RUN or held, with no failed answer. -/
def Reading (x : Queue) : Prop := (x.st = .idle ∨ x.st = .run ∨ x.st = .blocked) ∧ x.err ≠ 6

/-- A queue reads on after a packet: IDLE with nothing open and nothing to read, else RUN; or it waits for a pool slot (R351). -/
def readsOn (s : State) (q : QueueRef) : State :=
  s.onQueue q fun x => { x with
    hold := none
    st := if x.full = true then .blocked else if x.open_ = [] ∧ x.head = x.pub then .idle else .run }

/-- A queue waits in STATE 3. -/
def waitsOn (s : State) (q : QueueRef) (h : QueueHold) : State := s.onQueue q fun x => { x with
  hold := some h
  st := .blocked }

/-- A queue stops as MALFORMED at the packet it read last. -/
def Stops (s : State) (q : QueueRef) (err : BitVec 8) (t : State) : Prop := t = s.onQueue q fun x => { x with
  st := .malformed
  err := err
  hold := none
  head := x.head - 1 }

/-- From `s` to `t` memory became `mem`, and nothing else changed but the dies and the directory. -/
def Rewrites (s t : State) (mem : Memory) : Prop := ∃ dies dir, t = { s with
  dies := dies
  dir := dir
  mem := mem }

/-- A fence word after a signal: the larger value, with the aborted bit once set (R344). -/
def signalled (word value : Nat) (aborted : Bool) : Nat :=
  max (word % 2 ^ 63) (value % 2 ^ 63) + (if 2 ^ 63 ≤ word % 2 ^ 64 ∨ aborted = true then 2 ^ 63 else 0)

/-- Dwords read for a packet of queue `q` in its context, `n` at each address in turn: the numbers they hold, or the failure (R437). -/
def packetReads (q : QueueRef) (n : Nat) : List Nat → State → State × Except (Word × Nat) (List Nat)
  | [], s => (s, .ok [])
  | a :: l, s =>
    match readDwords s ⟨q.d, (s.queue q).ctx, ctxPpn s q.d (s.queue q).ctx⟩
        ⟨q.d, none, none, (s.die q.d).xts, ctxLease s q.d (s.queue q).ctx, []⟩ (BitVec.ofNat 64 a) n with
    | (s, .error e) => (s, .error e)
    | (s, .ok (bs, _)) =>
      match packetReads q n l s with
      | (s, .error e) => (s, .error e)
      | (s, .ok rest) => (s, .ok (ofBytes bs :: rest))

/-- Kernel descriptors of the numbers read. -/
def kernelsOf (l : List Nat) : List KDesc := l.map fun n => parseKDesc (toBytes n 64)

/-- What a launch reads of a raster state block: the block, the descriptors of its eight targets, none of one not enabled, and of its
depth target, and its fragment kernel (R285). -/
structure RasterBlock where
  block : Nat
  targets : List (Option Nat)
  depth : Option Nat
  kernel : KDesc
  deriving DecidableEq, Repr

/-- The raster state block at `addr` read for a packet of queue `q`, then the descriptors of its enabled targets in turn, of its depth
target and of its fragment kernel; or the first failure (R287). -/
def rasterReads (q : QueueRef) (addr : Nat) (s : State) : State × Except (Word × Nat) RasterBlock :=
  match packetReads q 16 [addr] s with
  | (s, .error e) => (s, .error e)
  | (s, .ok l) =>
    let n := l.headD 0
    let enabled := (List.range 8).filter fun t => field n (448 + t) (448 + t) = 1
    let dtgt := field n 255 192
    match packetReads q 4 (enabled.map fun t => field n 191 128 + 32 * t) s with
    | (s, .error e) => (s, .error e)
    | (s, .ok ts) =>
      match packetReads q 4 (if dtgt = 0 then [] else [dtgt]) s with
      | (s, .error e) => (s, .error e)
      | (s, .ok z) =>
        match packetReads q 8 [field n 63 0] s with
        | (s, .error e) => (s, .error e)
        | (s, .ok ks) => (s, .ok ⟨n, (List.range 8).map fun t => if t ∈ enabled then ts[enabled.idxOf t]? else none, z.head?,
            parseKDesc (toBytes (ks.headD 0) 64)⟩)

/-- A blend word with a reserved bit or code (R286). -/
def RefusedBlend (b : Nat) : Prop :=
  field b 31 28 ≠ 0 ∨ field b 23 23 ≠ 0 ∨ 12 ≤ field b 3 0 ∨ 12 ≤ field b 7 4 ∨ 12 ≤ field b 15 12 ∨ 12 ≤ field b 19 16 ∨ 5 ≤ field b 10 8 ∨
  5 ≤ field b 22 20

/-- A target descriptor with a reserved bit, a size out of range or more than one level (R196, R287). -/
def RefusedTarget (n : Nat) : Prop :=
  field n 255 172 ≠ 0 ∨ field n 127 108 ≠ 0 ∨ field n 171 160 ≠ 0 ∨ field n 107 104 ≠ 1 ∨ field n 79 64 = 0 ∨ 16384 < field n 79 64 ∨
  field n 95 80 = 0 ∨ 16384 < field n 95 80

/-- An f32 that is finite and positive. -/
def FinitePositive (x : Nat) : Prop := ∃ m e, decodeFp fmtF32 x = .fin false m e ∧ m ≠ 0

/-- A raster state block that its launch is refused for (R287). -/
def RefusedRaster (b : RasterBlock) : Prop :=
  let n := b.block
  field n 1023 768 ≠ 0 ∨ field n 511 487 ≠ 0 ∨ 2 ≤ field n 486 485 ∨ field n 462 461 = 3 ∨ 16 < field n 484 480 ∨
  ¬ FinitePositive (field n 351 320) ∨ ¬ FinitePositive (field n 383 352) ∨ (field n 455 448 ≠ 0 ∧ field n 191 128 % 32 ≠ 0) ∨
  (∃ t < 8, field n (448 + t) (448 + t) = 1 ∧ RefusedBlend (field n (512 + 32 * t + 31) (512 + 32 * t))) ∨
  (∃ d, some d ∈ b.targets ∧ (RefusedTarget d ∨ 8 < field d 103 96)) ∨
  (∃ d, b.depth = some d ∧ (RefusedTarget d ∨ (field d 103 96 ≠ 0x20 ∧ field d 103 96 ≠ 0x21))) ∨
  b.kernel.reservedClear = false ∨ b.kernel.version ≠ 1 ∨ b.kernel.warps ≠ 1 ∨ b.kernel.cw ≠ 1 ∨ b.kernel.ch ≠ 1 ∨
  b.kernel.regs < 8 + field n 484 480

/-- The raster state a launch keeps of its block (R287). -/
def rasterOf (b : RasterBlock) : RasterState :=
  { raw := BitVec.ofNat 1024 b.block
    targets := b.targets.map fun t => t.map parseTex
    depth := b.depth.map parseTex
    kernel := b.kernel }

/-- The raster state block of a launch, where it names one. -/
def blockReads (q : QueueRef) (addr : Nat) (s : State) : State × Except (Word × Nat) (Option RasterBlock) :=
  if addr = 0 then (s, .ok none)
  else match rasterReads q addr s with
    | (s, .error e) => (s, .error e)
    | (s, .ok b) => (s, .ok (some b))

/-- All that a LAUNCH_GRID reads: its kernel descriptor and its raster state block (R342). -/
def gridReads (q : QueueRef) (p : GridPacket) (s : State) : State × Except (Word × Nat) (KDesc × Option RasterBlock) :=
  match packetReads q 8 [p.kdesc] s with
  | (s, .error e) => (s, .error e)
  | (s, .ok l) =>
    match blockReads q p.rsb s with
    | (s, .error e) => (s, .error e)
    | (s, .ok b) => (s, .ok (parseKDesc (toBytes (l.headD 0) 64), b))

/-- The nodes of a table whose first tile operand names a tensor. -/
def tiledEntries (p : GraphPacket) (es : List Nat) : List Nat := es.filter fun e => !(p.tensors = 0 ∨ ntNtile e = 0 ∨ 4 < ntNtile e)

/-- All that a LAUNCH_GRAPH reads: its node table, the tensors its nodes' first tiles name, the kernel descriptors of its variants and
its raster state block (R342, R345, R346). -/
def graphReads (q : QueueRef) (p : GraphPacket) (s : State) :
    State × Except (Word × Nat) (List Nat × List Nat × List KDesc × Option RasterBlock) :=
  match packetReads q 16 ((List.range (p.ncnt + 1)).map fun k => p.nodes + 128 * k) s with
  | (s, .error e) => (s, .error e)
  | (s, .ok es) =>
    match packetReads q 4 ((tiledEntries p es).map fun e => p.tensors + 32 * field (ntTile e 0) 11 0) s with
    | (s, .error e) => (s, .error e)
    | (s, .ok ts) =>
      match packetReads q 8 (es.flatMap entryKernels) s with
      | (s, .error e) => (s, .error e)
      | (s, .ok ks) =>
        match blockReads q p.rsb s with
        | (s, .error e) => (s, .error e)
        | (s, .ok b) => (s, .ok (es, ts, kernelsOf ks, b))

/-- A launch is opened by the packet queue `q` read last (R342). -/
def Opens (s t : State) (q : QueueRef) (l : Launch) : Prop :=
  t.launches = s.launches ++ [l] ∧ l.q = q ∧ l.seq = (s.queue q).head - 1 ∧ l.aborted = false ∧
  (t.queue q).open_ = (s.queue q).open_ ++ [l.id]

/-- The least frame of a head that starts at or after `now` (R412). -/
def LeastFrame (h : Head) (now k : Nat) : Prop := now ≤ frameTime h k ∧ ∀ j < k, frameTime h j < now

/-- From `s` to `t` the threads of die `d` whose control satisfies `p` have the events `ev` pending besides, and no other agent
changed (R337, R354, R361). -/
def Wakes (s t : State) (d : Fin 2) (p : Tctl → Bool) (ev : BitVec 4) : Prop :=
  t.agents = s.agents.map fun w => if (match w.who with
    | .thread d' th => d' == d && p ((s.die d).tctl[th])
    | _ => false) = true then { w with events := w.events ||| ev } else w

/-- A tail written moves up to the head and no further (R368, R430). -/
def movedTail (tail head v : BitVec 32) : BitVec 32 := if (v - tail).toNat ≤ (head - tail).toNat then v else tail

/-- WEIGHT, PART and LOG2N as a write of 0x08 leaves them (R335). -/
def configuredQueue (x : Queue) (v : Word) : Queue :=
  let w : BitVec 8 := v.extractLsb' 16 8
  let n := v.toNat % 32
  { x with
    weight := if w = 0 then 1 else w
    part := if x.en then x.part else v.extractLsb' 8 3
    log2n := if x.en then x.log2n else if 4 ≤ n ∧ n ≤ 16 then BitVec.ofNat 5 n else 4 }

/-! ### The distaff's and the harts' writes (R366, R378, R433) -/

/-- The HIRQ queue of a die changed. -/
def withHirq (s : State) (d : Fin 2) (f : List (BitVec 32) → List (BitVec 32)) : State :=
  { s with host := if d = 0 then { s.host with hirq0 := f s.host.hirq0 } else { s.host with hirq1 := f s.host.hirq1 } }

/-- The warp whose AGENTID a write of MCTL names. -/
def mctlWarp (s : State) (v : Word) : Option Warp :=
  s.agents.find? fun w => !(isThread w.who) && w.status != .exited && (agentIdBits w.who).toNat == field v.toNat 58 48

/-- The team a write of MCTL names: that of a warp, or that of the command in an entry of a copy issue queue or of a matrix queue of a
core. -/
def mctlTeam (s : State) (v : Word) : Option Nat :=
  let id := field v.toNat 58 48
  let entry := field v.toNat 38 32
  let pushed := fun c : Cmd => cmdResident s c && c.d.val == id % 2 && c.core.val == id / 2 % 32
  match field v.toNat 47 44 with
  | 0 => (mctlWarp s v).map fun w => w.team
  | 1 => (s.cmds.find? fun c => pushed c && c.kind == .copy && c.entry == entry).map fun c => c.team
  | 3 => (s.cmds.find? fun c => pushed c && (cmdPly c).any fun p => 16 * p + c.entry == entry).map fun c => c.team
  | _ => none

/-- A warp after RESUME, by the kind of its halt or freeze (R366); one of any other kind stays as it is. -/
def resumed (w : Warp) : Warp :=
  let code := w.cause.toNat % 256
  let kept := w.karrw.filter fun k => k.addr == w.epc
  match w.status with
  | .halted => { w with
      pc := w.epc
      status := .running
      yielded := false
      karrw := kept }
  | .frozen .failedAnswer => { w with status := .running }
  | .frozen .trapNoVector =>
    if code = 1 ∨ code = 2 then { w with
      cause := 0
      pc := w.epc + 8
      status := .running
      replayNext := false
      karrw := none }
    else if code = 3 ∨ code = 4 then { w with
      cause := 0
      pc := w.epc
      status := .running
      replayNext := w.replay != 0
      yielded := false
      karrw := kept }
    else w
  | _ => w

/-- The team `m` reads its argument block from state `u` (R235): where that is read, each of its warps that waits for its start has
the block's dwords in x1 to x{NARGS}, the end of its stack region in x63 where the kernel has a stack, and runs; where a read fails, a record is
posted and they wait on. -/
def ReadsArguments (i : Instr) (s : State) (m : Team) (u : State) : Prop :=
  let waits := fun w : Warp => !(isThread w.who) && w.team == m.id && w.status == .startWait
  let u := chargeTo u none
  let p : Party := ⟨m.d, some m.core, corePart (u.die m.d) m.d m.core,
    ((u.agents ++ m.saved).filter waits).foldl (fun n w => max n w.wclk) 0, m.ctxRec.lease, m.ctxRec.ranges⟩
  let reads := readDwords u ⟨m.d, m.ctx, m.ctxRec.ppn⟩ p (BitVec.ofNat 64 m.args) m.kernel.nargs
  (∀ z bs ts, reads = (z, .ok (bs, ts)) → ∃ t, exec i s = .next t ∧ t.mem = z.mem ∧ ∃ started : Warp → Warp,
    t.agents = z.agents.map (fun w => if waits w then started w else w) ∧
    ∀ w, (∃ y, started w = { w with
        x := y
        status := .running
        rmax := max w.rmax ts
        wclk := max w.wclk ts }) ∧
      ∀ r : Fin 64, (started w).x[r] = if r = 0 then 0
        else if r = 63 ∧ m.kernel.stack ≠ 0 ∧ w.region.isSome = true then BitVec.ofNat 64 (m.ctxRec.stkBase + m.ctxRec.stkSlot * (w.region.getD 0 + 1))
        else if r.val ≤ m.kernel.nargs then BitVec.ofNat 64 (ofBytes ((bs.drop (8 * (r.val - 1))).take 8)) else w.x[r]) ∧
  ∀ z va reason, reads = (z, .error (va, reason)) → ∃ t r, exec i s = .next t ∧ t.agents = z.agents ∧ t.mem = z.mem ∧
    (t.die m.d).spoolQ = (z.die m.d).spoolQ ++ [r] ∧ r.kind = 1 ∧ r.access = 0 ∧ r.agent = 0 ∧ r.va = va ∧ r.reason = reason ∧ r.ctx = m.ctx ∧ r.master = .start m.id

/-- From `s` to `t` the team `m` is killed (R352, R366): none of its warps is left, those saved among them, nor any of its commands;
its node will end ABORTED; where it launched no task that runs, and no launch is over, memory is as it was and no other team is
killed; where it launched one, that task is aborted. -/
def Killed (s t : State) (m : Team) : Prop :=
  let tasks := bothDies.flatMap fun e => ((s.die e).tasks.filter fun k => k.team == m.id && k.outcome == none).map fun k => (e, k)
  (∀ w ∈ t.agents, isThread w.who = false → w.team = m.id → w.status = .exited) ∧
  (∀ c ∈ t.cmds, c.team = m.id → ∃ q l, c.kind = .queue q l) ∧
  (∀ o ∈ t.teams, o.id = m.id → o.killed = true ∧ o.stopped = false ∧ o.saved = [] ∧ (o.phase = .running ∨ o.phase = .ended)) ∧
  (∀ n ∈ (t.die m.home).nodes, n.id = m.node → n.killed = true) ∧
  (tasks = [] → (∀ l ∈ s.launches, l.nodes = [] ∨ ∃ n ∈ (s.die l.q.d).nodes, n.id ∈ l.nodes ∧ n.st ≠ .done ∧ n.st ≠ .aborted) →
    t.mem = s.mem ∧ (∀ o ∈ t.teams, o.id ≠ m.id → o ∈ s.teams) ∧ ∀ o ∈ s.teams, o.id ≠ m.id → o ∈ t.teams) ∧
  ∀ e k n, tasks = [(e, k)] → (s.die e).findNode k.node = some n → n.st ≠ .done → n.st ≠ .aborted → n.fragTeams = [] → n.origin = .task k.slot →
    (∀ f ∈ (s.die e).frags, f.node ≠ k.node) → (∀ j ∈ (s.die e).tasks, j.slot = k.slot → j = k) →
    ∀ j ∈ (t.die e).tasks, j.slot = k.slot → j.outcome = some false

/-- What a hart's store of `v` to a register does (R9, R378): one with a row of its own does what that row does; any other takes the bits
that are not reserved, in the states in which it is writable; a read-only one stays. -/
def PortStores (s : State) (d : Fin 2) (v : Word) : Prop :=
  let store := fun pa : Nat => exec (.regWrite pa v) s
  let port := fun p : Nat => store (0x20000000000 + 0x1000000 * d.val + p)
  let onDie := fun f : Die → Die => (.next (s.onDie d f) : Out)
  let clear := fun k : Word => v &&& ~~~k
  let log2 := fun n : Nat => if 6 ≤ n % 32 ∧ n % 32 ≤ 16 then n % 32 else 6
  let x := s.die d
  -- registers with a row of their own
  port 0x1208 = exec (.hostirq d v) s ∧ port 0x1418 = exec (.sptailWrite d v) s ∧ port 0x1B18 = exec (.eltailWrite d v) s ∧
  port 0x1618 = exec (.tableSwitch v) s ∧ port 0x1680 = exec (.clockSet v) s ∧ port 0x1690 = exec (.step v) s ∧
  port 0x1428 = (if field v.toNat 1 0 = 0 then exec (.resume d v) s else exec (.kill d v) s) ∧
  (∀ k : Fin 2048, port (0x2000 + 8 * k.val) = exec (.fkown d k v) s) ∧
  (field v.toNat 17 16 = 0 → port 0x1438 = exec (.shootdownPage d (field v.toNat 12 0)) s) ∧
  (field v.toNat 17 16 = 1 → port 0x1438 = exec (.shootdownContext d (field v.toNat 12 0)) s) ∧ (field v.toNat 17 16 = 3 → port 0x1438 = .next s) ∧
  (field v.toNat 17 16 = 2 → field v.toNat 12 0 = 0 → port 0x1438 = exec (.shootdownAll d) s) ∧
  (field v.toNat 5 4 = 0 → port 0x1450 = exec (.load d (v.extractLsb' 0 3).toFin) s) ∧
  (field v.toNat 5 4 = 1 → port 0x1450 = exec (.swapout d (v.extractLsb' 0 3).toFin) s) ∧
  (field v.toNat 5 4 = 2 → port 0x1450 = exec (.swapin d (v.extractLsb' 0 3).toFin) s) ∧ (field v.toNat 5 4 = 3 → port 0x1450 = .next s) ∧
  (∀ t, exec (.reelLockWrite (v.getLsbD 1)) s = .next t → port 0x1610 = if v.getLsbD 0 then exec .reelRun t else exec .reelStop t) ∧
  (∀ h : Fin 2, port (0x1700 + 64 * h.val) = exec (.headEnable d h v) s) ∧
  (∀ q : Fin 64, ∀ base ∈ [0x20000000000 + 0x1000000 * d.val + 64 * q.val, 0x20010000000 + 0x40000 * d.val + 4096 * q.val],
    let y := s.queue ⟨d, q⟩
    store base = .next (s.onQueue ⟨d, q⟩ fun y => if y.en = true then y else { y with rbase := clear 0xFFF }) ∧
    store (base + 8) = (if v.getLsbD 24 = false then exec (.queueDisable ⟨d, q⟩ v) s else if y.en = false then exec (.queueEnable ⟨d, q⟩ v) s
      else .next (s.onQueue ⟨d, q⟩ fun y => configuredQueue y v)) ∧
    store (base + 16) = exec (.queueNotify ⟨d, q⟩ v) s ∧ ∀ k ∈ [0x18, 0x20, 0x28, 0x30, 0x38], store (base + k) = .next s) ∧
  store 0x20020000020 = exec (.svnminRaise v) s ∧
  (∀ i w, (i, w) ∈ [(Instr.romend, (0x2000000 : Word)), (.lock4, 0x1000000), (.report, 0x200)] ++
    (List.finRange 8).map (fun k => (Instr.extend k, BitVec.ofNat 64 (0x100 + k.val))) → v = w → store 0x20020000100 = exec i s) ∧
  (∀ pa, (0x20030000000 ≤ pa ∧ pa < 0x20030100000) ∨ (0x20040000000 ≤ pa ∧ pa < 0x20040020000) → pa % 8 = 0 → store pa = exec (.imsicWrite pa v) s) ∧
  -- registers with none
  (∀ th : Fin 64, v.getLsbD 8 = false → port (0x1000 + 8 * th.val) = onDie fun x => { x with tctl := x.tctl.set th { x.tctl[th] with
    spool := v.getLsbD 7
    bound := v.getLsbD 6
    queue := (v.extractLsb' 0 6).toFin } }) ∧
  (∀ th : Fin 64, v.getLsbD 8 = true → port (0x1000 + 8 * th.val) = exec (.threadResume d th) (s.onDie d fun x => { x with tctl := x.tctl.set th { x.tctl[th] with
    spool := v.getLsbD 7
    bound := v.getLsbD 6
    queue := (v.extractLsb' 0 6).toFin } })) ∧
  port 0x1400 = (onDie fun x => if x.spEn = true then x else { x with spBase := clear 0xFFF }) ∧
  port 0x1408 = (onDie fun x => { x with
    spLog2n := if x.spEn = true then x.spLog2n else log2 v.toNat
    spEn := v.getLsbD 8 }) ∧
  port 0x1430 = (onDie fun x => { x with sdva := v &&& 0x01FFFFFFFFFFF000 }) ∧ port 0x1448 = (onDie fun x => { x with ptBase := clear 0x1FF }) ∧
  port 0x1600 = .next { s with reel := { s.reel with rtbase0 := clear 0xFFF } } ∧ port 0x1608 = .next { s with reel := { s.reel with rtbase1 := clear 0xFFF } } ∧
  port 0x1688 = .next { s with stage := { s.stage with hiWrite := v.setWidth 16 } } ∧ port 0x1698 = .next { s with stage := { s.stage with rate := v.setWidth 32 } } ∧
  (∀ h : Fin 2, let idle := fun f : Head → Head => (.next (s.onHead d h fun y => if y.cfg.getLsbD 31 = true then y else f y) : Out)
    port (0x1708 + 64 * h.val) = (idle fun y => { y with timing := v }) ∧ port (0x1710 + 64 * h.val) = (idle fun y => { y with rate := v }) ∧
    port (0x1718 + 64 * h.val) = (idle fun y => { y with phase := v }) ∧ port (0x1738 + 64 * h.val) = (idle fun y => { y with bg := v.setWidth 30 })) ∧
  (∀ p : Fin 8, port (0x1840 + 8 * p.val) = onDie fun x => { x with
    ecfg := x.ecfg.set p v
    refills := x.refills.set p ((s.stage.sec * 1000000000 + s.stage.nsec) % 2 ^ 64 / (1000 * (v.toNat % 1048576))) }) ∧
  port 0x18C0 = .next { s with etBase := clear 0xFFF } ∧ port 0x18C8 = .next { s with roveFloor := v } ∧
  port 0x18E0 = .next { s with plimit := min 1200 (max 300 (field v.toNat 10 0)) } ∧
  port 0x1B00 = (onDie fun x => if x.elEn = true then x else { x with elBase := clear 0xFFF }) ∧
  (x.elogQ.all (fun r => r.kind != 1) = true → x.counters[(13 : Fin 16)] < 2 ^ 64 → port 0x1B08 = onDie fun x => { x with
    elLog2n := if x.elEn = true then x.elLog2n else log2 v.toNat
    elEn := v.getLsbD 8 }) ∧
  (∀ k : Fin 8, store (0x20020001000 + 8 * k.val) = .next { s with host := { s.host with
      nonce := s.host.nonce.take (8 * k.val) ++ toBytes v.toNat 8 ++ s.host.nonce.drop (8 * k.val + 8) } } ∧
    store (0x20020001100 + 8 * k.val) = .next { s with host := { s.host with
      extBuf := s.host.extBuf.take (8 * k.val) ++ toBytes v.toNat 8 ++ s.host.extBuf.drop (8 * k.val + 8) } }) ∧
  -- read-only registers
  ∀ p ∈ [0x1200, 0x1410, 0x1420, 0x1440, 0x1458, 0x1620, 0x1630, 0x1668, 0x16A0, 0x16A8, 0x1800, 0x1838, 0x1880, 0x18B8, 0x18D0, 0x18D8, 0x18E8, 0x18F0,
    0x1A00, 0x1A78, 0x1B10, 0x1B20], port p = .next s

/-- The content of an aligned dword of the host interface block that a management frame may read (R392, R433). -/
def managedHost (h : HostBlock) (off : Nat) : Word :=
  let slice := fun (l : List Byte) (k : Nat) => BitVec.ofNat 64 (ofBytes ((l.drop k).take 8))
  if off = 0x10 then h.bootStat.setWidth 64
  else if off = 0x18 then (if h.poolRdy then 1 else 0)
  else if off = 0x28 then BitVec.ofNat 64 (h.svnMin[(1 : Fin 4)] + h.svnMin[(2 : Fin 4)] * 2 ^ 8 + h.svnMin[(3 : Fin 4)] * 2 ^ 16)
  else if 0x2000 ≤ off ∧ off < 0x2A20 then slice identityKey (off - 0x2000)
  else if 0x3000 ≤ off ∧ off < 0x3200 then slice h.mr.toList.flatten (off - 0x3000)
  else if 0x4000 ≤ off ∧ off < 0x5518 ∧ h.busy = none then slice (h.report.take 5395) (off - 0x4000)
  else 0

/-- A host offset, and a port of a die, that a management frame may read (R433). -/
def Managed (host : Bool) (k : Nat) : Prop :=
  if host = true then 0x10 ≤ k ∧ k < 0x30 ∨ 0x2000 ≤ k ∧ k < 0x2A20 ∨ 0x3000 ≤ k ∧ k < 0x3200 ∨ 0x4000 ≤ k ∧ k < 0x5518
  else 0x1A00 ≤ k ∧ k < 0x1A80 ∨ 0x1B10 ≤ k ∧ k < 0x1B28 ∨ k = 0x1620 ∨ 0x1630 ≤ k ∧ k < 0x1670

/-- The reply to a management frame (R433): none to one that is no read request (log entry 40); OP 2 with its dwords; OP 3 where it
names what no frame may read. -/
def ManagementReply (s : State) (frame reply : List Byte) : Prop :=
  let n := (frame.getD 3 0).toNat
  let offset := ofBytes ((frame.drop 4).take 8)
  let host := decide (offset < 2 ^ 63)
  let at_ := fun k : Nat => offset % 65536 + 8 * k
  let asks := 12 ≤ frame.length ∧ ofBytes (frame.take 2) = 0x4D47 ∧ frame.getD 2 0 = 1 ∧ 1 ≤ n ∧ n ≤ 8
  let head := fun op : Byte => frame.take 2 ++ [op] ++ (frame.drop 3).take 9
  let allowed := offset % 8 = 0 ∧ field offset 61 16 = 0 ∧ (host = true → field offset 62 62 = 0) ∧ ∀ k < n, Managed host (at_ k)
  (¬ asks → reply = []) ∧ (asks → ¬ allowed → reply = head 3) ∧
  (asks → allowed → reply.take 12 = head 2 ∧ reply.length = 12 + 8 * n ∧ ∀ k < n,
    (reply.drop (12 + 8 * k)).take 8 = toBytes (if host = true then managedHost s.host (at_ k) else portPeek s (dieOf (field offset 62 62)) (at_ k)).toNat 8)

/-! ### Partitions, boot and the host's registers -/

/-- A die whose RES has bit `p` at `b` (R373). -/
def withRes (x : Die) (p : Fin 8) (b : Bool) : Die :=
  { x with res := if b then x.res ||| BitVec.twoPow 8 p.val else x.res &&& ~~~(BitVec.twoPow 8 p.val) }

/-- Software, or the boot ROM while ROMMODE is 1, may extend measurement register `i` (R391). -/
def Extendable (h : HostBlock) (i : Fin 8) : Prop := (i = 0 ∧ h.romMode = true) ∨ (i = 4 ∧ h.lock4 = false) ∨ 5 ≤ i

/-- A measurement register after values are taken in, in order: each is the hash of the register and the value (R391). -/
def extended64 (r : List Byte) (l : List (List Byte)) : List Byte := l.foldl (fun r e => sha3 (r ++ e)) r

/-- The boot stops: its code stays, and no hart runs on (R390). -/
def BootStops (s : State) (code : BitVec 8) (t : State) : Prop := t.host.bootStat = code ∧ t.host.hart0 = false ∧ t.host.harts = false ∧
  t.mem = s.mem ∧ t.dies = s.dies

/-! ### Time and energy -/

/-- From `s` to `t` the stage clock stepped to `c` (R350, R397, R398, R403, R412, R420): the reel in RUN resynchronises and waits for the
next stage second, a head that is on seeks the least frame not before the new time, and of the multiples of a period those that lie
before the new time do not come; nothing else changed. -/
def ClockSteps (s t : State) (c : StageClock) : Prop :=
  let passed := fun period : Nat => (c.sec * 1000000000 + c.nsec - if c.frac = 0 then 1 else 0) / period
  (∃ dies, t = { s with
    stage := c
    dies := dies
    arbiter := passed 10000
    reel := { s.reel with
      st := if s.reel.st = .run then .resync else s.reel.st
      since := c.sec } }) ∧
  ∀ d, (t.die d = { s.die d with
      heads := (t.die d).heads
      refills := (t.die d).refills }) ∧
    (∀ p : Fin 8, (t.die d).refills[p] = passed (1000 * ((s.die d).ecfg[p].toNat % 1048576))) ∧ ∀ h,
    let x := s.head d h
    (x.st ≠ .on → t.head d h = x) ∧
    (x.st = .on → headRefused x = false → ∃ k, LeastFrame x ((c.sec * 1000000000 + c.nsec) % 2 ^ 64) k ∧ t.head d h = { x with
      nextFrame := k
      line := none })

/-- The arbiter's clock steps in MHz (R420). -/
def clockSteps : List Nat := (List.range 49).map fun k => 2000 - 25 * k

/-! ### The reel (R400, R403, R406, R409) -/

/-- TRAIN ends once a table is in force and every link is UP or has failed its first attempt. -/
def trainEnds (r : Reel) (sec : Nat) : Reel :=
  if r.st = .train ∧ r.table.isSome = true ∧ ∀ l : Fin 8, r.links[l].up = true ∨ r.links[l].failedFirst = true then { r with
    st := .wait
    since := sec } else r

/-- The slot that ended last at the stage time, where one has (R401). -/
def EndedLast (s : State) (slot : Nat) : Prop :=
  256 ≤ stageTicks s → slotStart slot + 256 ≤ stageTicks s ∧ stageTicks s < slotStart (slot + 1) + 256

/-- A time flit that leaves in a slot (R400, R402): TYPE 2, SLOT, CYC, reserved bits zero and CRC; its sender's stage time in bytes 32 to 39
and, with a table in force, its MODID in byte 40 (log entry 43). -/
def TimeFlit (s : State) (slot : Nat) (flit : BitVec 2048) : Prop :=
  let f := field flit.toNat
  f 3 0 = 2 ∧ f 15 4 = slot % 4096 ∧ f 63 63 = 0 ∧ f 191 178 = 0 ∧ f 255 192 = cycOf slot % 2 ^ 64 ∧ f 1983 1920 = 0 ∧
  f 319 256 = (s.stage.sec * 1000000000 + s.stage.nsec) % 2 ^ 64 ∧ (∀ t, s.reel.table = some t → f 327 320 = t.num 6 1 % 256) ∧
  f 2047 1984 = crc64 (toBytes flit.toNat 248)

/-- A link of the reel changed. -/
def withLink (r : Reel) (l : Fin 8) (x : Link) : Reel := { r with links := r.links.set l x }

/-- From `s` to `t` the receive copy `x` of a stream is closed: with REN its arrival is on its way to the far knot, with its error when
a flit was lost or is missing (R184, R409). -/
def RxCloses (s t : State) (stream : Nat) (x : RxCopy) : Prop :=
  (∀ k, tblGet t.reel.rx k = if k = stream then none else tblGet s.reel.rx k) ∧ t.mem = s.mem ∧ t.agents = s.agents ∧ t.dies = s.dies ∧
  (x.ren = false → t.knotQ = s.knotQ) ∧
  (x.ren = true → ∃ u : KnotUpdate, t.knotQ = s.knotQ ++ [u] ∧ u.home = .far x.rknot ∧ u.op = .arrive x.rinc (x.lost || decide (x.handled < x.nflits)) ∧ u.recv = some stream)

/-! ### The homes (R381 to R383) -/

/-- A tracked line whose owner's copy is dirty. -/
def dirtyLine (l : DirLine) : Bool := (l.owner.map fun o => heldBy l o == some .m || heldBy l o == some .o).getD false

/-- A die's caches have worked: its slices, its system cache, the write-backs it has yet to discard, their counts and its buckets may
differ, and nothing else. -/
def CacheWork (x y : Die) : Prop := y = { x with
  l2 := y.l2
  maxRts := y.maxRts
  maxWts := y.maxWts
  sys := y.sys
  lostBacks := y.lostBacks
  victims := y.victims
  invals := y.invals
  work := y.work
  counters := y.counters
  buckets := y.buckets }

/-- From `s` to `t` only the directory and what the dies' caches hold and count changed. -/
def HomesOnly (s t : State) : Prop :=
  (∃ dir dies, t = { s with
    dir := dir
    dies := dies }) ∧ ∀ d, CacheWork (s.die d) (t.die d)

/-- From `s` to `t` the directory's entry for one line alone changes. -/
def LineBecomes (s t : State) (line : Nat) (x : Option DirLine) : Prop :=
  HomesOnly s t ∧ ∀ j, tblGet t.dir j = if j = line then x else tblGet s.dir j

/-- From `s` to `t` an agent takes a line in, whose entry becomes `x`; where the 16 ways of its set are full, one other line of the set
leaves the agent (R264), and the entry of every further line stays. -/
def TakesLine (s t : State) (a : Fin 3) (line : Nat) (x : Option DirLine) : Prop :=
  HomesOnly s t ∧ tblGet t.dir line = x ∧ ∃ out : Option Nat, (∀ j, j ≠ line → out ≠ some j → tblGet t.dir j = tblGet s.dir j) ∧
    ∀ j, out = some j → j ∈ l2Set s a line ∧ 16 ≤ (l2Set s a line).length ∧ ∀ l, tblGet t.dir j = some l → heldBy l a = none

/-- From `s` to `t` an agent lets its copy of a line go, and the entry becomes `x`; a die's L2 holds no sector of it any longer, and
the slice's registers are no less than what they were and than the sectors' timestamps (R264). -/
def LetsGo (s t : State) (a : Fin 3) (line : Nat) (x : Option DirLine) : Prop :=
  LineBecomes s t line x ∧
  ∀ d : Fin 2, (a.val ≠ d.val → (t.die d).l2 = (s.die d).l2 ∧ (t.die d).maxRts = (s.die d).maxRts ∧ (t.die d).maxWts = (s.die d).maxWts) ∧
    (a.val = d.val →
      tblGetD (s.die d).maxWts (sliceOf (128 * line)) 0 ≤ tblGetD (t.die d).maxWts (sliceOf (128 * line)) 0 ∧
      tblGetD (s.die d).maxRts (sliceOf (128 * line)) 0 ≤ tblGetD (t.die d).maxRts (sliceOf (128 * line)) 0 ∧
      ∀ k < 4, tblGet (t.die d).l2 (4 * line + k) = none ∧
        (l2Get (s.die d) (4 * line + k)).1 ≤ tblGetD (t.die d).maxWts (sliceOf (128 * line)) 0 ∧
        (l2Get (s.die d) (4 * line + k)).2 ≤ tblGetD (t.die d).maxRts (sliceOf (128 * line)) 0)

/-- An access of `n` bytes by a function of PCIe at `addr` is made at `pa` (R384): the same address where the IOMMU has no root; else, for
bytes of one page, the address that Sv57 from its root gives (log entry 49). -/
def Reaches (s : State) (acc : Access) (addr n pa : Nat) : Prop :=
  (s.host.ioRoot = none ∧ pa = addr) ∨ ∃ root level pte, s.host.ioRoot = some root ∧ 0 < n ∧ addr % 4096 + n ≤ 4096 ∧
    (addr / 2 ^ 56 = 0 ∨ addr / 2 ^ 56 = 255) ∧ walkFrom s.mem (addr % 2 ^ 57) 4 (root * 4096) = .ok (level, pte) ∧
    leafReason level pte (addr % 2 ^ 57) acc = none ∧ pa = leafPa level pte (addr % 2 ^ 57)

/-- The IOMMU refuses an access of `n` bytes of one page: its address is not canonical, or the walk or its leaf faults. -/
def Unreached (s : State) (acc : Access) (addr n : Nat) : Prop :=
  ∃ root, s.host.ioRoot = some root ∧ addr % 4096 + n ≤ 4096 ∧
    ((addr / 2 ^ 56 ≠ 0 ∧ addr / 2 ^ 56 ≠ 255) ∨ (∃ e, walkFrom s.mem (addr % 2 ^ 57) 4 (root * 4096) = .error e) ∨
      ∃ level pte, walkFrom s.mem (addr % 2 ^ 57) 4 (root * 4096) = .ok (level, pte) ∧ leafReason level pte (addr % 2 ^ 57) acc ≠ none)

/-- What becomes of a line when one of its holders is gone and no owner remains. -/
def restOf (l : DirLine) (a : Fin 3) : Option DirLine :=
  let rest := l.held.filter fun p => p.1 != a
  if rest = [] then none else some ⟨.s, none, rest, none⟩

/-- A shootdown drops a TLB entry (R360). -/
def ShotDown (x : Shootdown) (e : TlbEntry) : Prop :=
  if x.mode = 0 then e.ctx = x.ctx ∧ e.page = x.page / 2 ^ (9 * e.level) else if x.mode = 1 then e.ctx = x.ctx else True

/-- The same line clean in an agent that held it dirty. -/
def cleaned (l : DirLine) (a : Fin 3) : DirLine :=
  if heldBy l a = some .m then { l with
    held := setHeld l.held a .e
    stale := none }
  else if heldBy l a = some .o then { l with
    st := .s
    owner := none
    held := setHeld l.held a .s
    stale := none }
  else l

/-! ### Rasterisation and the depth and blend unit (R291 to R300) -/

/-- A triangle covers the sample of a pixel (R292): with its edges turned so that its inside is positive, each is positive there or is
zero on a top or a left edge. -/
def CoversPixel (t : Tri) (px py : Nat) : Prop :=
  let x : Int := 256 * px + 128
  let y : Int := 256 * py + 128
  ∀ e ∈ (if 0 < t.area then [(t.v0, t.v1), (t.v1, t.v2), (t.v2, t.v0)] else [(t.v1, t.v0), (t.v2, t.v1), (t.v0, t.v2)]),
    let at_ := (e.2.x - e.1.x) * (y - e.1.y) - (e.2.y - e.1.y) * (x - e.1.x)
    0 < at_ ∨ at_ = 0 ∧ (e.1.y = e.2.y ∧ e.1.x < e.2.x ∨ e.2.y < e.1.y)

/-- A die's front end takes a pixel (R292, R293): it lies in every target, and with SFR 1 in one of the die's screen tiles. -/
def TakesPixel (r : RasterState) (d : Fin 2) (px py : Nat) : Prop :=
  px < 32768 ∧ py < 32768 ∧ (∀ t, some t ∈ r.depth :: r.targets → px < t.width ∧ py < t.height) ∧
    (rsSfr r = 1 → (px / 128 + py / 128) % 2 = d.val)

/-- "fragment ZFUNC stored" for 16-bit codes and for f32 values (R285, R297). -/
def depthHolds (codes : Bool) (fn a b : Nat) : Bool :=
  let x := decodeFp fmtF32 a
  let y := decodeFp fmtF32 b
  let cmp := fun (k : Nat) (c : Bool) => if codes then c else floatCompares k x y
  [false, cmp 2 (decide (a < b)), cmp 0 (decide (a = b)), cmp 3 (decide (a ≤ b)), cmp 4 (decide (b < a)), cmp 1 (decide (a ≠ b)),
    cmp 5 (decide (b ≤ a)), true].getD fn true

/-- Sector `k` of the pool, with an uncorrectable error, lies under the `n` bytes of a pixel at `pa`. -/
def PixelLost (s : State) (pa n k : Nat) : Prop := ErrSite.sector k ∈ s.softErrs ∧ pa / 32 ≤ k ∧ k ≤ (pa + n - 1) / 32

/-- From `s` to `t` an error of a sector is logged as consumed on a die: counted, and in the log where it holds fewer than 16 others
(R430). -/
def LogsLost (s t : State) (d : Fin 2) : Prop :=
  (((s.die d).elogQ.filter fun r => r.kind != 1).length < 16 → ∃ r k, (t.die d).elogQ = (s.die d).elogQ ++ [r] ∧ ErrSite.sector k ∈ s.softErrs ∧
    r.kind = 3 ∧ r.struct = 0 ∧ r.addr = 32 * k) ∧ (t.die d).counters[12] = ((s.die d).counters[12] + 1) % 2 ^ 64

/-- A fragment's depth test (R297): whether it passes, and the place and bytes of the depth it writes; over a lost sector it does not
pass (R429). -/
def depthOutcome (s : State) (f : Fragment) : Bool × Option (Nat × List Byte) :=
  match f.rs.depth, f.depth with
  | some dt, some (z, some pa) =>
    let zero := decodeFp fmtF32 0
    let one := decodeFp fmtF32 0x3F800000
    let x := decodeFp fmtF32 z.toNat
    let outside := x.isNan || fvBelow x zero || fvBelow one x
    if rsDclamp f.rs = false ∧ outside = true then (false, none)
    else if s.softErrs.any (fun e => match e with
      | .sector k => decide (pa / 32 ≤ k ∧ k ≤ (pa + pixelBytes dt - 1) / 32)
      | _ => false) = true then (false, none)
    else
      let z := if rsDclamp f.rs then clamp01 z.toNat else z.toNat
      let codes := decide (pixelBytes dt = 2)
      let code := if codes then (f32round (fpMul fmtF32 .rne z (f32lit 65535 0))).toNat else z
      let pass := depthHolds codes (rsZfunc f.rs) code (s.mem.num pa (pixelBytes dt))
      (pass, if pass && rsZwrite f.rs then some (pa, toBytes code (pixelBytes dt)) else none)
  | _, _ => (true, none)

/-! ### Integer division (R42) -/

/-- The quotient and the remainder of R42 for an s or a z type of `n` bits. -/
def DivisionRule (n : Nat) (sg : Bool) (a b q r : BitVec n) : Prop :=
  (b = 0 → q = BitVec.allOnes n ∧ r = a) ∧
  (b ≠ 0 → sg = true → a = BitVec.intMin n → b = -1 → q = BitVec.intMin n ∧ r = 0) ∧
  (b ≠ 0 → ¬(sg = true ∧ a = BitVec.intMin n ∧ b = -1) → asInt sg q = (asInt sg a).tdiv (asInt sg b) ∧ asInt sg r = asInt sg a - asInt sg q * asInt sg b) ∧
  (sg = true → r ≠ 0 → (r.toInt < 0 ↔ a.toInt < 0))

end Sys2Proof.Claims
end

