-- ==== Sys2Proof/Certificates/Slice0/Obligations.lean ====
section
/-! DEFINITION. The statements for the provers: what each instruction and each event of the hardware does, from the spec's rules. -/

open Sys2Proof Sys2Proof.Machine Sys2Proof.Claims

/-- Each scalar integer instruction of format A completes in every state: x[D] takes the operation of R95 on the low w bits of
its operands, extended by the signedness of TYPE, and the agent goes on (R94, R95, R42). Each scalar integer instruction of
format I completes in every state with the same operation on the low w bits of x[A] and of the sign-extended immediate; MOVI
gives that immediate, and MOVHI writes bits 63:32 of x[D] (R94, R95). -/
def Obligations.ScalarIntegerResults : Prop :=
  (∀ (s : State) (f : FmtA), ScalarIntType f.ty →
     let n := tyWidth f.ty
     let sg := signedType f.ty
     let a := lowX s f.a n
     let b := lowX s f.b n
     let gives := fun (i : FmtA → Instr) (r : BitVec n) => exec (i f) s = scalarResult s f.d (extended f.ty r)
     gives .add (a + b) ∧ gives .sub (a - b) ∧ gives .mul (a * b) ∧ gives .mulh (highProduct sg a b) ∧
     gives .div (quotient sg a b) ∧ gives .rem (remainder sg a b) ∧ gives .and (a &&& b) ∧ gives .or (a ||| b) ∧
     gives .xor (a ^^^ b) ∧ gives .andn (a &&& ~~~b) ∧ gives .shl (a <<< (b.toNat % n)) ∧ gives .shr (a >>> (b.toNat % n)) ∧
     gives .sar (a.sshiftRight (b.toNat % n)) ∧ gives .rol (a.rotateLeft (b.toNat % n)) ∧
     gives .ror (a.rotateRight (b.toNat % n)) ∧ gives .min (smaller sg a b) ∧ gives .max (larger sg a b) ∧
     gives .clz a.clz ∧ gives .ctz a.ctz ∧ gives .popc a.cpop ∧ gives .brev a.reverse ∧ gives .mov a ∧
     gives .sel (if readX s.cur f.c ≠ 0 then a else b) ∧ gives .addsh (a + b <<< (f.mod.toNat % 8)) ∧
     (f.mod.toNat < 6 → gives .cmp (if compares f.mod.toNat sg a b then 1 else 0))) ∧
  ((∀ (s : State) (f : FmtI), exec (.movi f) s = scalarResult s f.d (f.imm.signExtend 64) ∧
     ∃ r : Word, exec (.movhi f) s = scalarResult s f.d r ∧ ∀ k < 64,
       r.getLsbD k = if k < 32 then (readX s.cur f.d).getLsbD k else f.imm.getLsbD (k - 32)) ∧
   ∀ (s : State) (f : FmtI), ScalarIntType f.ty →
     let n := tyWidth f.ty
     let sg := signedType f.ty
     let a := lowX s f.a n
     let b := lowImm f n
     let gives := fun (i : FmtI → Instr) (r : BitVec n) => exec (i f) s = scalarResult s f.d (extended f.ty r)
     gives .addImm (a + b) ∧ gives .mulImm (a * b) ∧ gives .andImm (a &&& b) ∧ gives .orImm (a ||| b) ∧
     gives .xorImm (a ^^^ b) ∧ gives .shlImm (a <<< (b.toNat % n)) ∧ gives .shrImm (a >>> (b.toNat % n)) ∧
     gives .sarImm (a.sshiftRight (b.toNat % n)) ∧ gives .rolImm (a.rotateLeft (b.toNat % n)) ∧
     gives .rorImm (a.rotateRight (b.toNat % n)) ∧ gives .minImm (smaller sg a b) ∧ gives .maxImm (larger sg a b) ∧
     (f.mod.toNat < 6 → gives .cmpImm (if compares f.mod.toNat sg a b then 1 else 0)))

/-- BFX and BFI (R96) complete in every state, bit by bit: the field begins at bit x[B] mod 64 and has bits 14:8 of x[B] for its
length, cut at bit 63, all other bits of x[B] being ignored; BFX extends it by its top bit for s64 and by zeros for z64, a field
of length 0 being 0, and BFI writes the low bits of x[A] over that field of x[D], which a length of 0 leaves as it was. A
destination of x0 discards the result. -/
def Obligations.BitFields : Prop :=
  ∀ (s : State) (f : FmtA), f.ty = 6 ∨ f.ty = 7 →
    let a := readX s.cur f.a
    let b := readX s.cur f.b
    let old := readX s.cur f.d
    let pos := b.toNat % 64
    let len := min (b.toNat / 256 % 128) (64 - pos)
    (∃ r : Word, exec (.bfx f) s = scalarResult s f.d r ∧ ∀ k < 64,
      r.getLsbD k = if k < len then a.getLsbD (pos + k) else (f.ty == 6 && decide (0 < len) && a.getLsbD (pos + len - 1))) ∧
    (f.d = 0 → exec (.bfx f) s = becomes s (retire s.cur) ∧ exec (.bfi f) s = becomes s (retire s.cur)) ∧
    ∃ r : Word, exec (.bfi f) s = scalarResult s f.d r ∧ ∀ k < 64,
      r.getLsbD k = if pos ≤ k ∧ k < pos + len then a.getLsbD (k - pos) else old.getLsbD k

/-- Integer division never traps (R42). For every integer type DIV and REM, and VDIV element by element, give the quotient and
the remainder of the table: all ones and the dividend for divisor 0, MIN and 0 for MIN by -1, and else the exact quotient
rounded toward zero and what remains, whose sign for s types is the dividend's. -/
def Obligations.IntegerDivision : Prop :=
  ∀ (s : State) (f : FmtA),
    let n := tyWidth f.ty
    let sg := signedType f.ty
    (ScalarIntType f.ty → ∃ q r : BitVec n, exec (.div f) s = scalarResult s f.d (extended f.ty q) ∧
      exec (.rem f) s = scalarResult s f.d (extended f.ty r) ∧ DivisionRule n sg (lowX s f.a n) (lowX s f.b n) q r) ∧
    (f.ty.toNat < 8 → (n = 64 → f.d.toNat % 2 = 0) → ∃ q r : Nat → BitVec n, Completes (.vdiv f) s (fun t => Elementwise s t f q) ∧
      ∀ e, DivisionRule n sg (elt s.cur f.a f.ty e) (eltB s.cur f e) (q e) (r e))

/-- x0 reads as zero and m0 as the lanes at positions below VL (bits 0 to VL - 1, but for a SPLIT's arm, whose positions are
those of its own lanes), writes to either are discarded, a predicate naming m0 without inversion selects every lane below VL,
and CALL writes its return address to x62 (R14). -/
def Obligations.HardWiredRegisters : Prop :=
  ∀ (s : State),
    let w := s.cur
    (readX w 0 = 0 ∧ ∀ v, writeX w 0 v = w ∧ ∀ r, r ≠ 0 → readX (writeX w r v) r = v ∧ ∀ k, k ≠ r → readX (writeX w r v) k = readX w k) ∧
    (∀ v, writeM w 0 v = w ∧ ∀ r, r ≠ 0 → readM (writeM w r v) r = v ∧ ∀ k, k ≠ r → readM (writeM w r v) k = readM w k) ∧
    (w.mapping = none → ∀ p < 128, (readM w 0).getLsbD p = decide (p < w.vl)) ∧
    (∀ l, w.mapping = some l → ∀ pl < 128, (readM w 0).getLsbD pl = true ↔ ∃ p < w.vl, l.idxOf? pl = some p) ∧
    (w.replayNext = false → activeMask w 0 0 = readM w 0) ∧
    ∀ f, (∃ t, exec (.call f) s = .next t ∧ readX t.cur 62 = w.pc + 8) ∧ ∃ t, exec (.callIndirect f) s = .next t ∧ readX t.cur 62 = w.pc + 8

/-- Each scalar floating-point instruction but FCVT completes in every state: x[D] takes the exact value of its operation
rounded once into the format of TYPE in the mode of RND, zeros above it; FMIN and FMAX return the operand that is not NaN,
and of two that are equal that value; FCMP writes 1 or 0 by the conditions of R68 (R45, R97). FCVT (R98): the low bits of x[A] of type TYPE2 are converted under RND and
the policy; a result goes to x[D], an integer extended by its signedness and a floating-point one with zeros above; a case whose
policy is fault writes no register and takes a CONVERT trap with the case as sub-cause and the word as sr.tval. Under SR lane
0's generator advances by one use and gives the random bits; no other register changes (R50 to R52). -/
def Obligations.ScalarFloats : Prop :=
  (∀ (s : State) (f : FmtA), f.ty = 10 ∨ f.ty = 11 →
     let fm := scalarFormat f.ty
     let md := rndOf f.rnd
     let a := floatX s f.a fm
     let b := floatX s f.b fm
     let c := floatX s f.c fm
     let gives := fun (i : FmtA → Instr) (n : Nat) =>
       exec (i f) s = scalarResult s f.d (BitVec.ofNat 64 n) ∧ n < 2 ^ fm.width
     gives .fadd (encodeFp fm md (Fv.add md a b)) ∧ gives .fsub (encodeFp fm md (Fv.add md a b.neg)) ∧
     gives .fmul (encodeFp fm md (Fv.mul a b)) ∧ gives .fdiv (encodeFp fm md (Fv.div a b)) ∧
     gives .fma (encodeFp fm md (Fv.add md (negFv (f.mod.getLsbD 10) (Fv.mul a b)) (negFv (f.mod.getLsbD 9) c))) ∧
     (∃ n, gives .fmin n ∧ (a.isNan = true → n = encodeFp fm .rne b) ∧ (b.isNan = true → n = encodeFp fm .rne a) ∧
       (fvBelow a b = true → n = encodeFp fm .rne a) ∧ (fvBelow b a = true → n = encodeFp fm .rne b) ∧
       (a.isZero = true → b.isZero = true → n = fm.signed (a.isNeg || b.isNeg) 0) ∧ (EqualValues a b → n = encodeFp fm .rne a)) ∧
     (∃ n, gives .fmax n ∧ (a.isNan = true → n = encodeFp fm .rne b) ∧ (b.isNan = true → n = encodeFp fm .rne a) ∧
       (fvBelow a b = true → n = encodeFp fm .rne b) ∧ (fvBelow b a = true → n = encodeFp fm .rne a) ∧
       (a.isZero = true → b.isZero = true → n = fm.signed (a.isNeg && b.isNeg) 0) ∧ (EqualValues a b → n = encodeFp fm .rne a)) ∧
     (f.mod.toNat < 8 → gives .fcmp (if floatCompares f.mod.toNat a b then 1 else 0))) ∧
  (∀ (s : State) (f : FmtA),
     let g := xorshift s.cur.gens[0]
     let w := if f.rnd = 4 then { s.cur with gens := s.cur.gens.set 0 g } else s.cur
     let md := if f.rnd = 4 then Rnd.sr (g.toNat / 65536) else rndOf f.rnd
     let x := (readX s.cur f.a).toNat % 2 ^ tyWidth f.ty2
     let result := convertElem f.ty.toNat f.ty2.toNat md (policyOf (f.mod.toNat % 256)) x
     (∀ b, result = .ok b → exec (.fcvt f) s = becomes s (retire (writeX w f.d
       (if f.ty.toNat < 8 then extended f.ty (BitVec.ofNat (tyWidth f.ty) b) else BitVec.ofNat 64 b)))) ∧
     ∀ c word, result = .fault c → encode (.fcvt f) = some word → exec (.fcvt f) s = .next (raiseTrap { s with cur := w } 3 c word))

/-- The branches complete in every state (R61, R99): direct targets are the branch's address plus 8 x OFFSET; indirect ones lose
bits 2:0; BCC compares all 64 bits; CALL forms its target and then writes x62; LOOP writes the counter less 1 and branches
unless that is 0. Nothing else changes. BMK reads the bits of m[A] at the lanes whose position lies below VL: ANY, NONE, ALL and
NOTALL (R68, R99). -/
def Obligations.Branches : Prop :=
  (∀ (s : State) (f : FmtB),
     let w := s.cur
     let direct := w.pc + branchDisplacement f
     let indirect := (readX w f.a + branchDisplacement f) &&& ~~~7#64
     let either := fun (c : Bool) => if c then goesTo s w direct else becomes s (retire w)
     exec (.bra f) s = goesTo s w direct ∧ exec (.braIndirect f) s = goesTo s w indirect ∧
     (f.cond.toNat < 6 → exec (.bcc f) s = either (compares f.cond.toNat (f.uns == 0) (readX w f.a) (readX w f.b))) ∧
     exec (.call f) s = goesTo s (writeX w 62 (w.pc + 8)) direct ∧
     exec (.callIndirect f) s = goesTo s (writeX w 62 (w.pc + 8)) indirect ∧
     exec (.ret f) s = goesTo s w (readX w f.a &&& ~~~7#64) ∧
     (readX w f.a = 1 → exec (.loop f) s = becomes s (retire (writeX w f.a 0))) ∧
     (readX w f.a ≠ 1 → exec (.loop f) s = goesTo s (writeX w f.a (readX w f.a - 1)) direct)) ∧
  (∀ (s : State) (f : FmtB), f.a.toNat < 16 → f.cond.toNat < 4 →
     let w := s.cur
     let m := readM w (mfield f.a)
     let some1 := ∃ pl < 128, belowVl w pl = true ∧ m.getLsbD pl = true
     let some0 := ∃ pl < 128, belowVl w pl = true ∧ m.getLsbD pl = false
     let holds := (f.cond = 0 ∧ some1) ∨ (f.cond = 1 ∧ ¬ some1) ∨ (f.cond = 2 ∧ ¬ some0) ∨ (f.cond = 3 ∧ some0)
     (holds → exec (.bmk f) s = goesTo s w (w.pc + branchDisplacement f)) ∧ (¬ holds → exec (.bmk f) s = becomes s (retire w)))

/-- SPLIT, ARM and JOIN (R24, R102 to R104). SPLIT pushes VL, the masks and the lists of its arms, writes the lists one after
another to bytes 0 to 127 of v[D], 0xFF after them and 0 above, and their counts to the bytes of x[B]; VL and the mapping stay.
ARM makes an arm's list the mapping and its length VL. JOIN takes VL and the masks back, and the mapping of the arm below it. At
depth 8, or where there is no such arm or entry, the warp freezes with ILLEGAL, sub-cause 4 or 5. -/
def Obligations.Divergence : Prop :=
  (∀ (s : State) (f : FmtA), s.cur.split.length < 8 →
    let n := f.mod.toNat % 4 + 2
    let arms := (List.range n).map (outcomeLanes s.cur f)
    ∃ (list : VReg) (counts : Word),
      exec (.split f) s = becomes s { retire (writeX s.cur f.b counts) with
        v := s.cur.v.set f.d.toNat list f.d.isLt,
        split := { vl := s.cur.vl, masks := s.cur.m, arms, active := none } :: s.cur.split } ∧
      (∀ k < 512, list.extractLsb' (8 * k) 8 = if k < 128 then BitVec.ofNat 8 (arms.flatten.getD k 255) else 0) ∧
      ∀ k < 8, counts.extractLsb' (8 * k) 8 = if k < 4 then BitVec.ofNat 8 (arms.getD k []).length else 0) ∧
  (∀ (s : State) (f : FmtS) (top : SplitEntry) (rest : List SplitEntry) (l : List Nat), s.cur.split = top :: rest →
    top.arms[f.sel.toNat]? = some l →
    exec (.arm f) s = becomes s { retire s.cur with
      split := { top with active := some f.sel.toNat } :: rest, vl := l.length, mapping := some l }) ∧
  (∀ (s : State) (top : SplitEntry) (rest : List SplitEntry), s.cur.split = top :: rest →
    exec .join s = becomes s { retire s.cur with
      vl := top.vl, m := top.masks, split := rest,
      mapping := rest.head?.bind fun e => e.active.bind fun k => e.arms[k]? }) ∧
  (∀ (s : State) (f : FmtA) (w : Word), isThread s.cur.who = false → 8 ≤ s.cur.split.length → encode (.split f) = some w →
    Completes (.split f) s fun t => FreezesWith s t 0x10 4 w) ∧
  (∀ (s : State) (f : FmtS) (w : Word), isThread s.cur.who = false → encode (.arm f) = some w →
    (∀ top rest, s.cur.split = top :: rest → top.arms.length ≤ f.sel.toNat) →
    Completes (.arm f) s fun t => FreezesWith s t 0x10 5 w) ∧
  ∀ (s : State) (w : Word), isThread s.cur.who = false → s.cur.split = [] → encode .join = some w →
    Completes .join s fun t => FreezesWith s t 0x10 5 w

/-- TRAP and SVC (R109, R110, R112) at a warp: its transform-pipe results land first; then, with no trap being handled and a
trap vector that is not 0, sr.epc, sr.cause and sr.tval are the pc, the code and IMM20, and the pc is the vector; with a vector
of 0 the three are written and the warp freezes with FKIND 1; with a trap being handled the three keep their values and it
freezes with FKIND 2. Nothing else of the warp, the other agents or memory changes. TRET returns to sr.epc with sr.cause 0; the
next instruction is a replay when sr.replay is not 0, and an arrival that a KARRW at sr.epc has made is kept (R111, R164). A
trap vector is that of the context record in force for the team. That a trap in a handler is FKIND 2 whatever the vector, 0 among them,
and that TRAP and SVC as the instruction after TRET keep sr.replay, are the model's choices (log entry 51). -/
def Obligations.Traps : Prop :=
  (∀ (s : State) (f : FmtS) (i : Instr) (code : Word), isThread s.cur.who = false → (i = .trap f ∧ code = 1) ∨ (i = .svc f ∧ code = 2) →
     let u := drainXfm s
     let value : Word := f.imm.setWidth 64
     (u.cur.cause.setWidth 8 = 0#8 → vectorOf u ≠ 0 → exec i s = becomes u (trapped u.cur code value (vectorOf u))) ∧
     (u.cur.cause.setWidth 8 = 0#8 → vectorOf u = 0 → Completes i s fun t => t.mem = s.mem ∧ t.others = s.others ∧
       t.cur = { u.cur with epc := u.cur.pc, cause := code, tval := value, status := .frozen .trapNoVector } ∧
       LastNotice t 1 code value) ∧
     (u.cur.cause.setWidth 8 ≠ 0#8 → Completes i s fun t => t.mem = s.mem ∧ t.others = s.others ∧
       t.cur = { u.cur with status := .frozen .doubleTrap } ∧ LastNotice t 2 code value)) ∧
  (∀ s : State, exec .tret s = becomes s { s.cur with
     pc := s.cur.epc, cause := 0, replayNext := decide (s.cur.replay ≠ 0), status := .running, yielded := false,
     karrw := s.cur.karrw.filter fun k => k.addr == s.cur.epc })

/-- NOP and YIELD change nothing but the pc, and YIELD the order of issue; ROVE off sets sr.rove.ROVEOFF and ROVE on clears it
(R107, R108, R115). EXIT ends a warp: it issues no more, its split stack and pending loads are gone, and its registers, memory,
commands and the other agents are as they were (R106). HALT stops it at its own address with sr.epc past the HALT, sr.cause and
sr.tval as they were, any replay over (R111), and a halt notice to the distaff (R116). A distaff thread that halts sets TCTL.HALTED (R354). -/
def Obligations.WarpControl : Prop :=
  (∀ s : State, exec .nop s = becomes s (retire s.cur) ∧ exec .yield s = becomes s { retire s.cur with yielded := true } ∧
     exec .roveOff s = becomes s { retire s.cur with roveOff := true } ∧
     exec .roveOn s = becomes s { retire s.cur with roveOff := false } ∧
     (retire s.cur).pc = s.cur.pc + 8) ∧
  ((∀ s : State, Completes .exit s fun t => t.cur.status = .exited ∧ t.cur.split = [] ∧ t.cur.pend = [] ∧
     t.cur.x = s.cur.x ∧ t.cur.m = s.cur.m ∧ t.cur.pc = s.cur.pc ∧ t.mem = s.mem ∧ t.cmds = s.cmds ∧ t.others = s.others ∧
     t.knotQ = s.knotQ) ∧
   (∀ s : State, isThread s.cur.who = false → Completes .halt s fun t =>
     t.cur = { retire (drainXfm s).cur with pc := s.cur.pc, epc := s.cur.pc + 8, status := .halted } ∧ t.mem = s.mem ∧ t.others = s.others ∧
     ∃ r, (t.die (agentDie s.cur.who)).spoolQ.getLast? = some r ∧ r.kind = 0x11 ∧ r.agentId = agentIdBits s.cur.who ∧
       r.pc = s.cur.pc) ∧
   ∀ (s : State) (d : Fin 2) (h : Fin 64), s.cur.who = .thread d h → Completes .halt s fun t =>
     t.cur = { s.cur with status := .halted } ∧ (t.die d).tctl[h].halted = true ∧ t.mem = s.mem ∧ t.others = s.others)

/-- SRRD, SRWR and SNAP complete in every state, whatever register they name. SRRD writes the special register as its field map gives it, and a read of
sr.stimelo latches SECHI (R20, R21, R113); SRWR writes the writable fields alone: sr.vl held to 128 or to the active arm's count, sr.seed with every lane generator, sr.epc with
bits 2:0 clear; a read-only register takes nothing (R22, R50, R113). SNAP writes the word of its snapshot register that x[A] names:
the record, state and place of an entry of the core's copy or matrix queues, or an entry of its transform pipes; 0 beyond the
register, where no entry is, and for an entry of another context (R114, R367). That a write of sr.vl between a nested SPLIT and its first
ARM is held to the outer arm's count is the model's choice (log entry 51), and what SRRD, SRWR and SNAP do on a distaff thread its reading
(log entry 23). -/
def Obligations.SpecialRegisters : Prop :=
  (∀ (s : State) (f : FmtS), ∃ r : Word,
    exec (.srrd f) s = becomes s (retire (writeX
      (if f.sel = 4 then { s.cur with stimeLatch := BitVec.ofNat 16 (s.stage.sec / 2 ^ 32) } else s.cur) f.d r)) ∧
    (f.sel = 0 → r = BitVec.ofNat 64 s.cur.vl) ∧ (f.sel = 1 → r = s.cur.replay.extractLsb' 0 64) ∧
    (f.sel = 2 → r = s.cur.replay.extractLsb' 64 64) ∧
    (f.sel = 3 → r = BitVec.ofNat 64 (s.die (agentDie s.cur.who)).clock) ∧
    (f.sel = 4 → r = BitVec.ofNat 32 s.stage.sec ++ BitVec.ofNat 32 s.stage.nsec) ∧
    (f.sel = 5 → r = s.cur.stimeLatch.setWidth 64) ∧ (f.sel = 6 → r = BitVec.ofNat 64 s.cur.wclk) ∧
    (f.sel = 7 → r = s.cur.seed.setWidth 64) ∧ (f.sel = 12 → r = BitVec.ofNat 64 (agentDie s.cur.who).val) ∧
    (f.sel = 13 → r = BitVec.ofNat 64 s.cur.ctx) ∧ (f.sel = 15 → r = s.cur.cause) ∧ (f.sel = 16 → r = s.cur.epc) ∧
    (f.sel = 17 → r = s.cur.tval) ∧
    (f.sel = 8 → r.getLsbD 63 = s.cur.roveOff ∧ r.extractLsb' 60 3 = s.cur.lastEnd ∧ r.extractLsb' 48 12 = s.cur.lastLen ∧
      r.extractLsb' 24 24 = s.cur.prefs ∧ r.extractLsb' 0 24 = s.cur.episodes) ∧
    (f.sel = 9 → s.cur.widx < 32 → r.extractLsb' 12 3 = BitVec.ofNat 3 (agentPly s.cur.who) ∧
      r.extractLsb' 8 2 = BitVec.ofNat 2 (agentSlot s.cur.who) ∧ r.extractLsb' 0 5 = BitVec.ofNat 5 s.cur.widx) ∧
    (f.sel = 10 → r = BitVec.ofNat 64 (s.cur.ch * 2 ^ 39 + s.cur.cw * 2 ^ 36 + s.cur.crank * 2 ^ 32 + s.cur.tidx)) ∧
    (f.sel = 11 → ∀ c, agentCore s.cur.who = some c → r = BitVec.ofNat 64 (c.val / 6 * 2 ^ 12 + c.val % 6 * 2 ^ 8 + c.val)) ∧
    (f.sel = 14 → s.cur.split = [] → r = 0x70) ∧
    (f.sel = 14 → ∀ top rest, s.cur.split = top :: rest →
      r = BitVec.ofNat 64 (top.arms.length * 2 ^ 8 + top.active.getD 7 * 2 ^ 4 + s.cur.split.length))) ∧
  (∀ (s : State) (f : FmtS),
    let x := readX s.cur f.a
    let w := retire s.cur
    let gives := fun w' => exec (.srwr f) s = becomes s w'
    (f.sel = 0 → gives { w with vl := min (x.setWidth 8).toNat ((w.mapping.map List.length).getD 128) }) ∧
    (f.sel = 1 → gives { w with replay := w.replay.extractLsb' 64 64 ++ x }) ∧
    (f.sel = 2 → gives { w with replay := x ++ w.replay.extractLsb' 0 64 }) ∧
    (f.sel = 7 → ∃ gens, gives { w with seed := x.setWidth 32, gens } ∧ ∀ lane : Fin 128,
      let g := x.setWidth 32 ^^^ BitVec.ofNat 32 lane.val * 0x9E3779B9
      gens[lane] = if g = 0 then 0x6D2B79F5 else g) ∧
    (f.sel = 15 → gives { w with cause := x &&& 0x800000000000FFFF }) ∧
    (f.sel = 16 → gives { w with epc := x &&& ~~~7#64 }) ∧ (f.sel = 17 → gives { w with tval := x }) ∧
    (f.sel ∈ [3, 4, 5, 6, 8, 9, 10, 11, 12, 13, 14] → gives w)) ∧
  ∀ (s : State) (f : FmtS), ∃ r : Word, exec (.snap f) s = scalarResult s f.d r ∧
    let n := (readX s.cur f.a).toNat
    (f.sel = 0 → n = 0 → r = 0x20102001) ∧
    ∀ (d : Fin 2) (c : Fin 24) (p : Fin 8) (slot : Fin 4), s.cur.who = .warp d c p slot →
      let command := fun (own : Cmd → Bool) (e : Nat) => match (queued s own).find? fun x => x.entry == e with
        | some x => if x.ctx = s.cur.ctx then entryWord s x (n % 16) else 0
        | none => 0
      (f.sel = 0 → 1 ≤ n → r = 0) ∧ (f.sel = 1 → 512 ≤ n → r = 0) ∧ (f.sel = 2 → 2048 ≤ n → r = 0) ∧ (f.sel = 3 → 256 ≤ n → r = 0) ∧
      (f.sel = 1 → n < 512 → r = command (isCopyOf d c) (n / 16)) ∧
      (f.sel = 2 → n < 2048 → r = command (isMatrixOf d c (n / 256)) (n / 16 % 16)) ∧
      (f.sel = 3 → n < 256 → r = match (if n < 128 then (s.coreAt d c).pipe0 else (s.coreAt d c).pipe1)[n / 4 % 32]? with
        | some e => if (s.findTeam e.owner.team).map (·.ctx) = some s.cur.ctx then pipeWord s e (n % 4) else 0
        | none => 0)

/-- Each vector integer instruction completes in every state: every active element of v[D] takes the operation on the elements
of its operands, the other elements and all other registers keep their values, and the agent goes on (R117, R118, R120). The
operands are those before the write, D may be one of them. -/
def Obligations.VectorIntegerResults : Prop :=
  ∀ (s : State) (f : FmtA), f.ty.toNat < 8 → (tyWidth f.ty = 64 → f.d.toNat % 2 = 0) →
    let n := tyWidth f.ty
    let sg := signedType f.ty
    let gives := fun (i : FmtA → Instr) (r : BitVec n → BitVec n → BitVec n → BitVec n) =>
      Completes (i f) s fun t =>
        Elementwise s t f fun e => r (elt s.cur f.a f.ty e) (eltB s.cur f e) (elt s.cur f.c f.ty e)
    gives .vadd (fun a b _ => a + b) ∧ gives .vsub (fun a b _ => a - b) ∧
    gives .vadds (fun a b _ => saturated sg (asInt sg a + asInt sg b)) ∧
    gives .vsubs (fun a b _ => saturated sg (asInt sg a - asInt sg b)) ∧
    gives .vmul (fun a b _ => a * b) ∧ gives .vmulh (fun a b _ => highProduct sg a b) ∧
    gives .vmad (fun a b c => negIf (f.mod.getLsbD 10) (a * b) + negIf (f.mod.getLsbD 9) c) ∧
    gives .vdiv (fun a b _ => quotient sg a b) ∧ gives .vmin (fun a b _ => smaller sg a b) ∧
    gives .vmax (fun a b _ => larger sg a b) ∧ gives .vabs (fun a _ _ => a.abs) ∧ gives .vneg (fun a _ _ => -a) ∧
    gives .vand (fun a b _ => a &&& b) ∧ gives .vor (fun a b _ => a ||| b) ∧ gives .vxor (fun a b _ => a ^^^ b) ∧
    gives .vandn (fun a b _ => a &&& ~~~b) ∧ gives .vnot (fun a _ _ => ~~~a) ∧
    gives .vshl (fun a b _ => a <<< (b.toNat % n)) ∧ gives .vshr (fun a b _ => a >>> (b.toNat % n)) ∧
    gives .vsar (fun a b _ => a.sshiftRight (b.toNat % n)) ∧ gives .vclz (fun a _ _ => a.clz) ∧
    gives .vpopc (fun a _ _ => a.cpop)

/-- VSEL, VMOV, VBCAST, VIOTA, VBFX, VEXTR and VINS complete in every state with the effects of R121 and R123: VSEL chooses by
the bit of m[C] at the element's lane, VIOTA counts in the numbering the instruction sees, VBFX extracts the field MOD names,
and VEXTR and VINS address element x[B] mod N of that numbering whatever the predicate, reading 0 and writing nothing when its
position is at or beyond VL. CBLD and CBST complete in every state: cb[j] is the halfword at bytes 32g + 2j of v[A], and CBST
writes the sixteen entries to bytes 32g to 32g + 31 of v[D] and leaves its other bytes (R138). -/
def Obligations.VectorMovesAndPlacements : Prop :=
  (∀ (s : State) (f : FmtA), f.ty ≠ 11 → (tyWidth f.ty = 64 → f.d.toNat % 2 = 0) →
     let n := elemCount f.ty
     let wd := tyWidth f.ty
     let j := (readX s.cur f.b).toNat % n
     let pos := f.mod.toNat % 32
     let len := f.mod.toNat / 32 % 64
     Completes (.vsel f) s (fun t => Elementwise s t f fun e =>
       if (readM s.cur (mfield f.c)).getLsbD (e * 128 / n) then elt s.cur f.a f.ty e else eltB s.cur f e) ∧
     Completes (.vmov f) s (fun t => Elementwise s t f (elt s.cur f.a f.ty)) ∧
     Completes (.vbcast f) s (fun t => Elementwise s t f fun _ => lowX s f.b wd) ∧
     Completes (.viota f) s (fun t => Elementwise s t f fun e => lowX s f.b wd + BitVec.ofNat wd (numberOfElt s.cur n e)) ∧
     (f.ty.toNat < 6 → Completes (.vbfx f) s fun t => ∃ r : Nat → BitVec wd, Elementwise s t f r ∧ ∀ e < n, ∀ k < wd,
       (r e).getLsbD k = if k < len then (elt s.cur f.a f.ty e).getLsbD (pos + k)
         else (signedType f.ty && decide (0 < len) && (elt s.cur f.a f.ty e).getLsbD (pos + len - 1))) ∧
     exec (.vextr f) s = scalarResult s f.d (match numbered s.cur n j with
       | some e => if f.ty.toNat < 8 ∧ signedType f.ty then (elt s.cur f.a f.ty e).signExtend 64
           else (elt s.cur f.a f.ty e).setWidth 64
       | none => 0) ∧
     Completes (.vins f) s fun t => VectorWrite s t f.d n wd (fun e => numbered s.cur n j == some e) fun _ => lowX s f.a wd) ∧
  (∀ (s : State) (f : FmtA),
     let g := f.mod.toNat % 16
     (∃ cb, exec (.cbld f) s = becomes s { retire s.cur with cb } ∧
       ∀ j : Fin 16, cb[j] = (readV s.cur f.a).extractLsb' (8 * (32 * g + 2 * j)) 16) ∧
     ∃ r : VReg, exec (.cbst f) s = becomes s { retire s.cur with v := s.cur.v.set f.d.toNat r f.d.isLt } ∧
       (∀ j : Fin 16, r.extractLsb' (8 * (32 * g + 2 * j)) 16 = s.cur.cb[j]) ∧
       ∀ k < 256, k / 16 ≠ g → r.extractLsb' (16 * k) 16 = (readV s.cur f.d).extractLsb' (16 * k) 16)

/-- VCMP and VFCMP complete in every state: for each active lane the bit of m[D] is the condition of MOD bits 3:0 on the lane's
element ELEM (MOD bits 5:4) of a and b, and every other bit of m[D] is kept; a write to m0 is dropped (R68, R122, R125). The
mask instructions complete in every state: MAND, MOR, MXOR, MANDN, MNOT, MMOV, MSET and XTOM write the active bits of m[D] (XTOM
those of positions 64h to 64h + 63 from x[A]); MPOPC counts, MFFS finds the lowest, and MTOX gathers, the set bits of m[A] among
the positions below VL (R137). MPOPC, MFFS and MTOX complete in every state: over the positions below VL whose bit of m[A] is
set, x[D] takes their number, the lowest of them (all ones when there is none), and the bits of positions 64h to 64h + 63
(R137). -/
def Obligations.MasksAndCompares : Prop :=
  (∀ (s : State) (f : FmtA), f.d.toNat < 16 →
     let n := elemCount f.ty
     let c := f.mod.toNat % 16
     let at_ := fun pl => pl * (n / 128) + (f.mod.toNat / 16 % 4)
     let act := fun pl => (activeMask s.cur f.pm f.pi).getLsbD pl
     let fv := fun (x : BitVec (tyWidth f.ty)) => decodeFp (vFmt f.ty) x.toNat
     (f.ty.toNat < 8 → c < 6 → Completes (.vcmp f) s fun t => MaskWrite s t f.d act fun pl =>
       compares c (signedType f.ty) (elt s.cur f.a f.ty (at_ pl)) (eltB s.cur f (at_ pl))) ∧
     (f.ty = 8 ∨ f.ty = 9 ∨ f.ty = 10 → c < 8 → Completes (.vfcmp f) s fun t => MaskWrite s t f.d act fun pl =>
       floatCompares c (fv (elt s.cur f.a f.ty (at_ pl))) (fv (eltB s.cur f (at_ pl))))) ∧
  (∀ (s : State) (f : FmtA), f.d.toNat < 16 →
     let w := s.cur
     let a := fun pl => (readM w (mfield f.a)).getLsbD pl
     let b := fun pl => (readM w (mfield f.b)).getLsbD pl
     let act := fun pl => (activeMask w f.pm f.pi).getLsbD pl
     let gives := fun (i : FmtA → Instr) (val : Nat → Bool) => Completes (i f) s fun t => MaskWrite s t f.d act val
     gives .mand (fun pl => a pl && b pl) ∧ gives .mor (fun pl => a pl || b pl) ∧
     gives .mxor (fun pl => a pl != b pl) ∧ gives .mandn (fun pl => a pl && !(b pl)) ∧
     gives .mnot (fun pl => !(a pl)) ∧ gives .mmov a ∧ gives .mset (fun _ => f.mod.getLsbD 0) ∧
     (let h := if f.mod.getLsbD 0 then 64 else 0
      gives .xtom fun pl => match posOf w pl with
        | some p => if h ≤ p ∧ p < h + 64 then (readX w f.a).getLsbD (p - h) else (readM w (mfield f.d)).getLsbD pl
        | none => (readM w (mfield f.d)).getLsbD pl)) ∧
  (∀ (s : State) (f : FmtA),
     let w := s.cur
     let set := fun p => decide (p < w.vl) && ((physOf w p).map fun pl => (readM w (mfield f.a)).getLsbD pl).getD false
     exec (.mpopc f) s = scalarResult s f.d (BitVec.ofNat 64 ((List.range w.vl).countP set)) ∧
     (∀ p, set p = true → (∀ q < p, set q = false) → exec (.mffs f) s = scalarResult s f.d (BitVec.ofNat 64 p)) ∧
     ((∀ p, set p = false) → exec (.mffs f) s = scalarResult s f.d (BitVec.allOnes 64)) ∧
     ∃ r : Word, exec (.mtox f) s = scalarResult s f.d r ∧
       ∀ k < 64, r.getLsbD k = set ((if f.mod.getLsbD 0 then 64 else 0) + k))

/-- The vector floating-point arithmetic instructions complete in every state: every active element of v[D] takes the exact
value of its operation on the elements' values rounded once under RND; VFMIN and VFMAX return the operand that is not NaN, of
two that are equal that value, and order -0 below +0; nothing else changes (R45, R117, R124, R129 for VFDIV). -/
def Obligations.VectorFloatArithmetic : Prop :=
  ∀ (s : State) (f : FmtA), f.ty = 8 ∨ f.ty = 9 ∨ f.ty = 10 →
    let fm := vFmt f.ty
    let md := rndOf f.rnd
    let a := fun e => decodeFp fm (elt s.cur f.a f.ty e).toNat
    let b := fun e => decodeFp fm (eltB s.cur f e).toNat
    let c := fun e => decodeFp fm (elt s.cur f.c f.ty e).toNat
    let gives := fun (i : FmtA → Instr) (p : Nat → Nat → Prop) =>
      Completes (i f) s fun t => ∃ r : Nat → Nat, (∀ e, p e (r e)) ∧ Elementwise s t f fun e => BitVec.ofNat _ (r e)
    gives .vfadd (fun e r => r = encodeFp fm md (Fv.add md (a e) (b e))) ∧
    gives .vfsub (fun e r => r = encodeFp fm md (Fv.add md (a e) (b e).neg)) ∧
    gives .vfmul (fun e r => r = encodeFp fm md (Fv.mul (a e) (b e))) ∧
    gives .vfdiv (fun e r => r = encodeFp fm md (Fv.div (a e) (b e))) ∧
    gives .vfma (fun e r => r = encodeFp fm md
      (Fv.add md (negFv (f.mod.getLsbD 10) (Fv.mul (a e) (b e))) (negFv (f.mod.getLsbD 9) (c e)))) ∧
    gives .vfmin (fun e r => ((a e).isNan = true → r = encodeFp fm .rne (b e)) ∧
      ((b e).isNan = true → r = encodeFp fm .rne (a e)) ∧ (fvBelow (a e) (b e) = true → r = encodeFp fm .rne (a e)) ∧
      (fvBelow (b e) (a e) = true → r = encodeFp fm .rne (b e)) ∧
      ((a e).isZero = true → (b e).isZero = true → r = fm.signed ((a e).isNeg || (b e).isNeg) 0) ∧
      (EqualValues (a e) (b e) → r = encodeFp fm .rne (a e))) ∧
    gives .vfmax (fun e r => ((a e).isNan = true → r = encodeFp fm .rne (b e)) ∧
      ((b e).isNan = true → r = encodeFp fm .rne (a e)) ∧ (fvBelow (a e) (b e) = true → r = encodeFp fm .rne (b e)) ∧
      (fvBelow (b e) (a e) = true → r = encodeFp fm .rne (a e)) ∧
      ((a e).isZero = true → (b e).isZero = true → r = fm.signed ((a e).isNeg && (b e).isNeg) 0) ∧
      (EqualValues (a e) (b e) → r = encodeFp fm .rne (a e)))

/-- VFCLASS, VROUND, VFRAC and VSCALE complete in every state. VFCLASS sets the one bit of the element's class. VROUND gives the
integer the mode picks, the sign kept. VFRAC gives a - floor(a) rounded under the mode, or the value below 1.0 when that rounds
to 1.0, and +0 for an integral a. VSCALE gives a x 2^b rounded once, b a signed integer. Infinities and NaN are as R124 and R125
say. -/
def Obligations.VectorFloatShapes : Prop :=
  ∀ (s : State) (f : FmtA), f.ty = 8 ∨ f.ty = 9 ∨ f.ty = 10 →
    let fm := vFmt f.ty
    let md := rndOf f.rnd
    let x := fun e => elt s.cur f.a f.ty e
    let v := fun e => decodeFp fm (x e).toNat
    let small : Rat := 2 ^ (1 - (fm.bias : Int))
    let gives := fun (i : FmtA → Instr) (p : Nat → Nat → Prop) =>
      Completes (i f) s fun t => ∃ r : Nat → Nat, (∀ e, p e (r e)) ∧ Elementwise s t f fun e => BitVec.ofNat _ (r e)
    gives .vfclass (fun e r =>
      (v e = .nan → r = if (x e).getLsbD (fm.mb - 1) then 2 ^ 9 else 2 ^ 8) ∧ (v e = .inf true → r = 2 ^ 0) ∧
      (v e = .inf false → r = 2 ^ 7) ∧ ∀ neg m k, v e = .fin neg m k →
        (m = 0 → r = if neg then 2 ^ 3 else 2 ^ 4) ∧
        (m ≠ 0 → |numberOf (v e)| < small → r = if neg then 2 ^ 2 else 2 ^ 5) ∧
        (small ≤ |numberOf (v e)| → r = if neg then 2 ^ 1 else 2 ^ 6)) ∧
    gives .vround (fun e r => (v e = .nan → r = fm.nanBits) ∧ (∀ neg, v e = .inf neg → r = fm.signed neg fm.infBits) ∧
      ∀ neg m k, v e = .fin neg m k → ∃ n : Nat, r = encodeFp fm .rne (.fin neg n 0) ∧
        let z : Int := if neg then -n else n
        (md = .rtz → n = ⌊|numberOf (v e)|⌋) ∧ (md = .rdn → z = ⌊numberOf (v e)⌋) ∧ (md = .rup → z = ⌈numberOf (v e)⌉) ∧
        (md = .rne → |(n : Rat) - (|numberOf (v e)|)| < 1 / 2 ∨ (|(n : Rat) - (|numberOf (v e)|)| = 1 / 2 ∧ n % 2 = 0))) ∧
    gives .vfrac (fun e r => (v e = .nan → r = fm.nanBits) ∧ (∀ neg, v e = .inf neg → r = fm.nanBits) ∧
      ∀ neg m k, v e = .fin neg m k → ∃ (n : Nat) (q : Int),
        (n : Rat) * 2 ^ q = numberOf (v e) - ⌊numberOf (v e)⌋ ∧
        let rounded := encodeFp fm md (.fin false n q)
        let one := fm.bias * 2 ^ fm.mb
        r = if rounded = one then one - 1 else rounded) ∧
    gives .vscale (fun e r => (v e = .nan → r = fm.nanBits) ∧ (∀ neg, v e = .inf neg → r = fm.signed neg fm.infBits) ∧
      ∀ neg m k, v e = .fin neg m k → ∃ (n : Nat) (q : Int), (n = 0 ↔ m = 0) ∧
        numberOf (.fin neg n q) = numberOf (v e) * 2 ^ (eltB s.cur f e).toInt ∧ r = encodeFp fm md (.fin neg n q))

/-- The special functions complete in every state: every active element of v[D] takes a result of its operand alone, which is
VSQRT's exact root rounded once, and for the others meets every special value R56 lists; nothing else changes (R55, R56, R129).
A reciprocal and a reciprocal root lie within 1 ulp of the exact one, a reciprocal of 2^(bias + 1) or more being infinite; which
number within the bound of a function it takes is a free value (log entry 9), and so is that of the other functions, whose bound
SpecialFunctionAccuracy states. -/
def Obligations.SpecialFunctions : Prop :=
  ∀ (s : State) (f : FmtA), f.ty = 8 ∨ f.ty = 10 →
    let fm := vFmt f.ty
    let x := fun e => elt s.cur f.a f.ty e
    let v := fun e => decodeFp fm (x e).toNat
    let inf := fun neg => fm.signed neg fm.infBits
    let one := fm.bias * 2 ^ fm.mb
    let gives := fun (i : FmtA → Instr) (p : Nat → Nat → Prop) => Completes (i f) s fun t => ∃ r : Nat → Nat,
      (∀ e, (v e = .nan → r e = fm.nanBits) ∧ p e (r e)) ∧ (∀ d e, x d = x e → r d = r e) ∧
      Elementwise s t f fun e => BitVec.ofNat _ (r e)
    gives .vsqrt (fun e r => r = encodeFp fm (rndOf f.rnd) (v e).sqrt) ∧
    gives .vrcp (fun e r => (∀ neg k, v e = .fin neg 0 k → r = inf neg) ∧ (∀ neg, v e = .inf neg → r = fm.signed neg 0) ∧
      ∀ neg m k, m ≠ 0 → v e = .fin neg m k →
        ((2 : ℝ) ^ (fm.bias + 1) ≤ |1 / (numberOf (v e) : ℝ)| → r = inf neg) ∧
        (|1 / (numberOf (v e) : ℝ)| < 2 ^ (fm.bias + 1) → WithinUlps fm 1 (1 / (numberOf (v e) : ℝ)) r)) ∧
    gives .vrsq (fun e r => (∀ neg k, v e = .fin neg 0 k → r = inf neg) ∧ (v e = .inf false → r = 0) ∧
      (v e = .inf true → r = fm.nanBits) ∧ (∀ m k, m ≠ 0 → v e = .fin true m k → r = fm.nanBits) ∧
      ∀ m k, m ≠ 0 → v e = .fin false m k → WithinUlps fm 1 (1 / √(numberOf (v e) : ℝ)) r) ∧
    gives .vexp2 (fun e r => (v e = .inf true → r = 0) ∧ (v e = .inf false → r = inf false) ∧ ∀ neg m k, v e = .fin neg m k →
      ((fm.bias + 1 : Rat) ≤ numberOf (v e) → r = inf false) ∧
      ∀ n : Int, numberOf (v e) = n → fm.qmin ≤ n → n ≤ fm.bias → r = encodeFp fm .rne (.fin false 1 n)) ∧
    gives .vlog2 (fun e r => (v e = .inf true → r = fm.nanBits) ∧ (v e = .inf false → r = inf false) ∧
      (∀ neg k, v e = .fin neg 0 k → r = inf true) ∧ (∀ m k, m ≠ 0 → v e = .fin true m k → r = fm.nanBits) ∧
      ∀ m k (n : Int), v e = .fin false m k → numberOf (v e) = 2 ^ n →
        r = encodeFp fm .rne (.fin (decide (n < 0)) n.natAbs 0)) ∧
    gives .vsinpi (fun e r => (∀ neg, v e = .inf neg → r = fm.nanBits) ∧
      ∀ neg m k (n : Int), v e = .fin neg m k → numberOf (v e) = n → r = fm.signed neg 0) ∧
    gives .vcospi (fun e r => (∀ neg, v e = .inf neg → r = fm.nanBits) ∧ ∀ neg m k (n : Int), v e = .fin neg m k →
      (numberOf (v e) = n → r = fm.signed (decide (n % 2 = 1)) one) ∧ (numberOf (v e) = n + 1 / 2 → r = 0)) ∧
    gives .vtanh (fun e r => (∀ neg, v e = .inf neg → r = fm.signed neg one) ∧
      (∀ neg k, v e = .fin neg 0 k → r = fm.signed neg 0) ∧ (v e ≠ .nan → r % 2 ^ (fm.eb + fm.mb) ≤ one))

/-- The accuracy of the transcendental functions (R55, R56): for every finite element, VEXP2 below 2^(bias + 1), VLOG2 of a positive
one, VSINPI, VCOSPI and VTANH give a number within 2 ulp of the exact value, the ulp being that of the exact value in the format. Which
one within the bound is a free value (log entry 9). -/
def Obligations.SpecialFunctionAccuracy : Prop :=
  ∀ (s : State) (f : FmtA), f.ty = 8 ∨ f.ty = 10 →
    let fm := vFmt f.ty
    let v := fun e => decodeFp fm (elt s.cur f.a f.ty e).toNat
    let x : Nat → ℝ := fun e => numberOf (v e)
    let near := fun (i : FmtA → Instr) (in_ : Nat → Prop) (y : Nat → ℝ) => Completes (i f) s fun t => ∃ r : Nat → Nat,
      Elementwise s t f (fun e => BitVec.ofNat _ (r e)) ∧ ∀ e neg m k, v e = .fin neg m k → in_ e → WithinUlps fm 2 (y e) (r e)
    near .vexp2 (fun e => x e < fm.bias + 1) (fun e => 2 ^ x e) ∧
    near .vlog2 (fun e => 0 < x e) (fun e => Real.logb 2 (x e)) ∧
    near .vsinpi (fun _ => True) (fun e => Real.sin (Real.pi * x e)) ∧
    near .vcospi (fun _ => True) (fun e => Real.cos (Real.pi * x e)) ∧
    near .vtanh (fun _ => True) (fun e => Real.tanh (x e))

/-- VDOT2 and VDOT4 complete in every state (R126): each active 32-bit lane of v[D] takes, for the floating-point forms, the
group sum of R53 of the accumulator and the lane's 2 or 4 products, and for s8 and z8 the exact integer sum modulo 2^32; NEGP
negates the products and NEGC the accumulator; under BX the low 32 bits of x[B] give every lane's b elements. -/
def Obligations.DotProducts : Prop :=
  ∀ (s : State) (f : FmtA),
    let w := s.cur
    let act := activeElt w f 128
    let b := fun pl => if f.bx = 1 then (readX w f.b).setWidth 32 else own32 w f.b pl
    let negp := f.mod.getLsbD 10
    let negc := f.mod.getLsbD 9
    let c := fun pl => own32 w f.c pl
    let part := fun (x : BitVec 32) (n j : Nat) => x.toNat / 2 ^ (n * j) % 2 ^ n
    let products := fun per n pl => (List.range per).map fun j =>
      negFv negp (Fv.mul (valueOf f.ty2.toNat (part (own32 w f.a pl) n j)) (valueOf f.ty2.toNat (part (b pl) n j)))
    let sum := fun per n pl =>
      BitVec.ofNat 32 (groupSum (if negc then c pl ^^^ 0x80000000#32 else c pl).toNat (products per n pl))
    let int8 := fun (x : BitVec 32) j =>
      if signedType f.ty2 then (x.extractLsb' (8 * j) 8).signExtend 32 else (x.extractLsb' (8 * j) 8).setWidth 32
    let mul := fun pl j => int8 (own32 w f.a pl) j * int8 (b pl) j
    (f.ty2 = 8 ∨ f.ty2 = 9 → Completes (.vdot2 f) s fun t => VectorWrite s t f.d 128 32 act (sum 2 16)) ∧
    (f.ty = 10 → f.ty2 = 12 ∨ f.ty2 = 13 → Completes (.vdot4 f) s fun t => VectorWrite s t f.d 128 32 act (sum 4 8)) ∧
    (f.ty = 4 → f.ty2 = 0 ∨ f.ty2 = 1 → Completes (.vdot4 f) s fun t => VectorWrite s t f.d 128 32 act fun pl =>
      negIf negp (mul pl 0 + mul pl 1 + mul pl 2 + mul pl 3) + negIf negc (c pl))

/-- The permutes complete in every state (R131, R132): each active position takes the source its rule names, zero at or beyond
VL; VSHUFX keeps a position's own value where the source lies outside 0 to VL - 1; VTRN interleaves blocks of 2^s elements;
VCOMP packs the selected positions into the low ones, whatever the predicate there, and VEXPD spreads the low ones over the
selected. The reductions complete in every state (R133 to R136): VRED writes to every member below VL the value of the fixed
tree over 128 positions, VSCAN the running value in increasing position with or without the position's own, and VVOTE the vote's
bit; members at or beyond VL and positions that are no members bring the identity and receive nothing. No lane has a position of
128 or more. -/
def Obligations.CrossLane : Prop :=
  (∀ (s : State) (f : FmtA),
     let w := s.cur
     let i := fun pl => numberOfElt w 128 pl
     let act := activeElt w f 128
     let b := fun pl => if f.bx = 1 then (readX w f.b).setWidth 32 else own32 w f.b pl
     let gives := fun (ins : FmtA → Instr) (val : Nat → BitVec 32) =>
       Completes (ins f) s fun t => VectorWrite s t f.d 128 32 act val
     let m := (readX w f.b).toNat % 128
     let keeps := fun pl (j : Int) => if 0 ≤ j ∧ j < w.vl then lane32 w f.a j.toNat else own32 w f.a pl
     gives .vperm (fun pl => lane32 w f.a ((b pl).toNat % 128)) ∧
     gives .vpermx (fun pl => let j := (own32 w f.c pl).toNat % 256
       if j < 128 then lane32 w f.a j else lane32 w f.b (j - 128)) ∧
     gives .vrot (fun pl => lane32 w f.a ((i pl + (readX w f.b).toNat % w.vl) % w.vl)) ∧
     (f.mod.toNat % 4 = 0 → gives .vshufx fun pl => keeps pl (i pl ^^^ m : Nat)) ∧
     (f.mod.toNat % 4 = 1 → gives .vshufx fun pl => keeps pl (i pl - m)) ∧
     (f.mod.toNat % 4 = 2 → gives .vshufx fun pl => keeps pl (i pl + m)) ∧
     gives .vexpd (fun pl => lane32 w f.a ((selectedList w f).countP fun q => decide (q < i pl))) ∧
     Completes (.vcomp f) s (fun t => VectorWrite s t f.d 128 32
       (fun pl => match posOf w pl with
         | some q => decide (q < (selectedList w f).length)
         | none => false)
       fun pl => lane32 w f.a ((selectedList w f).getD (i pl) 0)) ∧
     (tyWidth f.ty ≠ 64 →
       let n := elemCount f.ty
       let h := 2 ^ (f.mod.toNat / 2 % 16)
       let x := fun r j => posElem w r n (tyWidth f.ty) j
       Completes (.vtrn f) s fun t => Elementwise s t f fun e =>
         let j := numberOfElt w n e
         let upper := j / h % 2 = 1
         if f.mod.getLsbD 0 then (if upper then x f.b j else x f.a (j + h))
         else if upper then x f.b (j - h) else x f.a j)) ∧
  (∀ (s : State) (f : FmtA), f.ty = 4 ∨ f.ty = 5 ∨ f.ty = 10 →
     let w := s.cur
     let op := f.mod.toNat % 8
     let run := fun p => (List.range p).foldl (fun acc q => reduceOp op f.ty acc (reduceInput w f op q)) (reduceIdentity op f.ty)
     let vals := (selectedList w f).map (lane32 w f.a)
     let accepted := op < if f.ty = 10 then 3 else 6
     (accepted → Completes (.vred f) s fun t => VectorWrite s t f.d 128 32 (activeElt w f 128) fun _ =>
       balanced (reduceOp op f.ty) (reduceInput w f op) 7 0) ∧
     (accepted → Completes (.vscan f) s fun t => VectorWrite s t f.d 128 32 (activeElt w f 128) fun pl =>
       let i := numberOfElt w 128 pl
       if 128 ≤ i then 0 else if f.mod.getLsbD 3 then run i else run (i + 1)) ∧
     (f.d.toNat < 16 → Completes (.vvote f) s fun t =>
       MaskWrite s t f.d (fun pl => (activeMask w f.pm f.pi).getLsbD pl) fun pl =>
         match f.mod.toNat % 4 with
         | 0 => decide (∃ x ∈ vals, x ≠ 0)
         | 1 => decide (∀ x ∈ vals, x ≠ 0)
         | 2 => own32 w f.a pl != 0
         | _ => decide (∀ x ∈ vals, ∀ y ∈ vals, x = y)))

/-- VCVT completes in every state (R127, R128): each active element of v[D] not in a fault case takes the element of v[A]
converted under RND and the policy, and under SR each lane's generator advances by the lane's elements. Where no active element
is in a fault case the warp goes on; otherwise a CONVERT trap is taken with the lowest such case as sub-cause and the word as
sr.tval, sr.replay holding the lanes with such an element. -/
def Obligations.VectorConversion : Prop :=
  ∀ (s : State) (f : FmtA), f.d.toNat + groupSize (cvtCount f.ty f.ty2) (tyWidth f.ty) ≤ 64 →
    let n := cvtCount f.ty f.ty2
    let active := activeElt s.cur f n
    let res := cvtResult s.cur f
    let good := fun e => active e && !(isFaultCase (res e))
    let bits := fun e => BitVec.ofNat (tyWidth f.ty) (cvtBits (res e))
    let gens : Vector (BitVec 32) 128 := if f.rnd = 4 then Vector.ofFn fun lane : Fin 128 =>
        if (activeMask s.cur f.pm f.pi).getLsbD lane.val then advanceGen (n / 128) s.cur.gens[lane] else s.cur.gens[lane]
      else s.cur.gens
    ((∀ e < n, active e = true → isFaultCase (res e) = false) → ∃ v,
      exec (.vcvt f) s = becomes s (retire { s.cur with
        v := v
        gens := gens }) ∧
      GroupWrite s.cur { s.cur with v := v } f.d n (tyWidth f.ty) active bits) ∧
    ∀ word, encode (.vcvt f) = some word → (∃ e < n, active e = true ∧ isFaultCase (res e) = true) → ∃ v bad c,
      exec (.vcvt f) s = .next (raiseTrap { s with cur := { s.cur with
        v := v
        gens := gens
        replay := bad } } 3 c word) ∧
      GroupWrite s.cur { s.cur with v := v } f.d n (tyWidth f.ty) good bits ∧
      (∀ pl < 128, bad.getLsbD pl = true ↔ ∃ e < n, e * 128 / n = pl ∧ active e = true ∧ isFaultCase (res e) = true) ∧
      (∃ e < n, active e = true ∧ res e = .fault c) ∧ ∀ e < n, ∀ k, active e = true → res e = .fault k → c ≤ k

/-- Loads from the scratchpads complete where every active address lies in the scratchpad it names and no soft error stands
there: LD writes the extended value to x[D], VLD, VLDS and VGATH write each active element, and nothing else changes; the bits
of an address below the alignment are ignored. Stores complete there too: each covered byte takes the byte of one of the active units
that cover it, the low bytes of x[D] for ST and of the elements of v[D] for VST, VSTS and VSCAT, and nothing else changes; which of
several units that cover one byte wins is open and left so (log entry 10). Where an active address lies outside, a load or store, a
vector form with all its lanes, writes no register and no byte: the warp freezes with BOUNDS, sr.tval the address of the lowest such
lane (R139, R140, R142, R145 to R147), its ignored low bits clear (the model's choice, log entry 56). -/
def Obligations.ScratchpadAccesses : Prop :=
  (∀ (s : State) (f : FmtM), f.space ≠ 0 → s.softErrs = [] →
    let w := s.cur
    let sp := f.space.toNat
    let n := elemBytes f.ty
    let act := fun (cnt e : Nat) => (activeMask w f.pm f.pi).getLsbD (e * 128 / cnt)
    let loads := fun (i : FmtM → Instr) (n cnt wd : Nat) (sg : Bool) (addr : Nat → Word) =>
      ((∀ e < cnt, act cnt e = true → LocalInside s sp (addr e) n) →
        Completes (i f) s fun t => VectorWrite s t f.d cnt wd (act cnt) fun e => widened wd sg (localValue s sp (addr e) n)) ∧
      LeavesBounds (i f) s sp n cnt (act cnt) addr
    let va := alignDown (addressOf w f) n
    let off : Word := (f.hi ++ f.lo : BitVec 24).signExtend 64
    (LocalInside s sp va n → exec (.ld f) s = scalarResult s f.d
      (widened 64 (decide (f.ty.toNat < 8) && signedType f.ty) (localValue s sp va n))) ∧
    LeavesBounds (.ld f) s sp n 1 (fun _ => true) (fun _ => va) ∧
    (tyWidth f.ty ≠ 64 → loads .vld 4 128 32 false (contiguousAddr w f) ∧
      loads .vlds n (elemCount f.ty) (tyWidth f.ty) false (stridedAddr w f) ∧
      (tyWidth f.ty ≠ 4 → loads .vgath n 128 32 (decide (f.ty.toNat < 8) && signedType f.ty) (indexAddr w f off))) ∧
    (tyWidth f.ty = 64 → f.d.toNat % 2 = 0 → loads .vld 8 128 64 false (contiguousAddr w f) ∧
      loads .vlds 8 128 64 false (stridedAddr w f) ∧ loads .vgath 8 128 64 false (indexAddr w f off))) ∧
  (∀ (s : State) (f : FmtM), f.space ≠ 0 →
    let w := s.cur
    let sp := f.space.toNat
    let n := elemBytes f.ty
    let act := fun (cnt e : Nat) => (activeMask w f.pm f.pi).getLsbD (e * 128 / cnt)
    let off : Word := (f.hi ++ f.lo : BitVec 24).signExtend 64
    let stores := fun (i : FmtM → Instr) (n cnt : Nat) (addr : Nat → Word) (val : Nat → BitVec (8 * n)) =>
      ((∀ e < cnt, act cnt e = true → LocalInside s sp (addr e) n) →
        Completes (i f) s fun t => LocalStores s t sp n cnt (act cnt) addr val) ∧
      LeavesBounds (i f) s sp n cnt (act cnt) addr
    let va := alignDown (addressOf w f) n
    (LocalInside s sp va n → Completes (.st f) s fun t =>
      LocalStores s t sp n 1 (fun _ => true) (fun _ => va) fun _ => (readX w f.d).setWidth _) ∧
    LeavesBounds (.st f) s sp n 1 (fun _ => true) (fun _ => va) ∧
    (tyWidth f.ty ≠ 64 → stores .vst 4 128 (contiguousAddr w f) (own32 w f.d) ∧
      stores .vsts n (elemCount f.ty) (stridedAddr w f) (fun e => (elt w f.d f.ty e).setWidth _) ∧
      stores .vscat n 128 (indexAddr w f off) (fun e => (own32 w f.d e).setWidth _)) ∧
    (tyWidth f.ty = 64 →
      let val := fun e => BitVec.ofNat (8 * 8) (srcElem w f.d 128 64 e)
      stores .vst 8 128 (contiguousAddr w f) val ∧ stores .vsts 8 128 (stridedAddr w f) val ∧
      stores .vscat 8 128 (indexAddr w f off) val))

/-- Loads from the pool complete where every active unit translates (R141, R142, R145, R146, R221): the data, the bytes seen at the
units' places, is in the registers at once or owed to them until it returns, and what lands is x[D] taking the value extended by the
signedness of TYPE, for LD, and each active element of v[D] its own, narrow types of VGATH extended in their lane; memory, teams and
every other agent are as they were. With no active lane a load only goes on. A distaff thread's addresses are physical and its loads
are done at once (R353). Stores to the pool complete where every active unit translates (R141, R142, R145 to R147): each byte a unit
covers takes the byte of one of the units that cover it, the low bytes of x[D] for ST and of the elements of v[D] for VST, VSTS and
VSCAT; every other byte of memory, every register, the teams and every other agent are as they were. With no active lane a store only
goes on. A load takes its bytes at issue (the model's choice, log entry 26); which of several units that cover one byte wins is left
open (log entry 10). -/
def Obligations.PoolAccesses : Prop :=
  (∀ (s : State) (f : FmtM), f.space = 0 →
     let act := fun (cnt e : Nat) => (activeMask s.cur f.pm f.pi).getLsbD (e * 128 / cnt)
     let sg := decide (f.ty.toNat < 8) && signedType f.ty
     let loads := fun (i : FmtM → Instr) (n : Nat) (us : List MemUnit) (lands : (Nat → BitVec (8 * n)) → Pending → Prop) =>
       let reached := (reachAll s .read true us).2.1
       (us = [] → exec (i f) s = becomes s (retire s.cur)) ∧
       (us ≠ [] → (reachAll s .read true us).2.2 = [] → (∀ r ∈ reached, ∀ p ∈ r.parts, inPool p.1.pa = true) →
         ∃ dies dir rmax now p val,
           exec (i f) s = .next { s with
             dies := dies
             dir := dir
             cur := retire (loadedOrOwed { s.cur with rmax := rmax } p now) } ∧
           (isThread s.cur.who = true → now = true) ∧ lands val p ∧
           ∀ r ∈ reached, val r.u.elem = BitVec.ofNat _ (ofBytes (r.parts.flatMap fun p => seenBytes s p.1 p.2)))
     loads .ld (elemBytes f.ty) (scalarUnit f (addressOf s.cur f)) (fun val p => LandsScalar p f.d (widened 64 sg (val 0))) ∧
     (tyWidth f.ty ≠ 64 →
       loads .vld 4 (contiguousUnits s.cur f) (fun val p => LandsVector p f.d 128 32 (act 128) val) ∧
       loads .vlds (elemBytes f.ty) (stridedUnits s.cur f) (fun val p =>
         LandsVector p f.d (elemCount f.ty) (tyWidth f.ty) (act (elemCount f.ty)) fun e => widened _ false (val e)) ∧
       (tyWidth f.ty ≠ 4 → loads .vgath (elemBytes f.ty) (indexedUnits s.cur f ((f.hi ++ f.lo : BitVec 24).signExtend 64)) (fun val p =>
         LandsVector p f.d 128 32 (act 128) fun e => widened 32 sg (val e)))) ∧
     (tyWidth f.ty = 64 → f.d.toNat % 2 = 0 →
       let lands := fun (val : Nat → BitVec (8 * 8)) p => LandsVector p f.d 128 64 (act 128) val
       loads .vld 8 (contiguousUnits s.cur f) lands ∧ loads .vlds 8 (stridedUnits s.cur f) lands ∧
       loads .vgath 8 (indexedUnits s.cur f ((f.hi ++ f.lo : BitVec 24).signExtend 64)) lands)) ∧
  (∀ (s : State) (f : FmtM), f.space = 0 → s.mem.wf = true →
     let stores := fun (i : FmtM → Instr) (us : List MemUnit) (val : Nat → Nat) =>
       let reached := (reachAll s .write true us).2.1
       (us = [] → exec (i f) s = becomes s (retire s.cur)) ∧
       (us ≠ [] → (reachAll s .write true us).2.2 = [] → (∀ r ∈ reached, ∀ p ∈ r.parts, inPool p.1.pa = true) →
         ∃ dies dir smax wrote freeCtr softErrs mem,
           exec (i f) s = .next { s with
             dies := dies
             dir := dir
             freeCtr := freeCtr
             softErrs := softErrs
             mem := mem
             cur := retire { s.cur with smax := smax, wrote := wrote } } ∧
           (∀ e ∈ softErrs, e ∈ s.softErrs) ∧ mem.wf = true ∧ ∀ a, TakesOne (Memory.get s.mem a) (Memory.get mem a) (bytesAt (unitWrites reached val) a))
     stores .st (scalarUnit f (addressOf s.cur f)) (fun _ => (readX s.cur f.d).toNat) ∧
     stores .vst (contiguousUnits s.cur f) (srcElem s.cur f.d 128 (if tyWidth f.ty = 64 then 64 else 32)) ∧
     stores .vsts (stridedUnits s.cur f) (srcElem s.cur f.d (elemCount f.ty) (tyWidth f.ty)) ∧
     stores .vscat (indexedUnits s.cur f ((f.hi ++ f.lo : BitVec 24).signExtend 64))
       (srcElem s.cur f.d 128 (if tyWidth f.ty = 64 then 64 else 32)))

/-- A load, store or atomic of which some units fault, and whose others lie in the pool, puts its warp to sleep on the faults (R150).
The other lanes are performed: their data is in the registers at once or owed to them, as a whole load's is, and no other register
changes; their units are stored and no byte besides changes; their atomics are made one by one in an order left open (log entry 10),
each lane of v[D] receiving its old value. A scalar access that faults changes no register and no byte. A load takes its bytes at
issue (log entry 26); the atomics are those of memory without soft errors (log entry 50). -/
def Obligations.MemoryFaults : Prop :=
  (∀ (s : State) (f : FmtM), f.space = 0 → isThread s.cur.who = false →
    let sg := decide (f.ty.toNat < 8) && signedType f.ty
    let sleeps := fun (i : FmtM → Instr) (acc : Access) (vector : Bool) (us : List MemUnit) (p : List Reached → State → Prop) =>
      let faults := (reachAll s acc true us).2.2
      let done := (reachAll s acc true us).2.1.filter fun r => !laneFaults faults r.u.lane
      faults ≠ [] → (∀ r ∈ done, ∀ q ∈ r.parts, inPool q.1.pa = true) →
        ∃ t, exec (i f) s = .next t ∧ SleepsOn s t (if acc = .read then 0 else 1) faults vector ∧ t.teams = s.teams ∧
          t.others = s.others ∧ p done t
    let same := fun (w w' : Warp) => w'.x = w.x ∧ w'.v = w.v ∧ w'.m = w.m ∧ w'.cb = w.cb ∧ w'.pend = w.pend
    let loads := fun (i : FmtM → Instr) (n cnt wd : Nat) (sg : Bool) us => sleeps i .read true us fun done t => t.mem = s.mem ∧
      (done = [] → same s.cur t.cur) ∧
      (done ≠ [] → ∃ p now, ∃ val : Nat → BitVec (8 * n), same (loadedOrOwed s.cur p now) t.cur ∧
        LandsVector p f.d cnt wd (fun e => done.any fun r => r.u.elem == e) (fun e => widened wd sg (val e)) ∧
        ∀ r ∈ done, val r.u.elem = BitVec.ofNat _ (ofBytes (r.parts.flatMap fun p => seenBytes s p.1 p.2)))
    let stores := fun i vector us (val : Nat → Nat) => sleeps i .write vector us fun done t => same s.cur t.cur ∧
      (s.mem.wf = true → ∀ a, TakesOne (Memory.get s.mem a) (Memory.get t.mem a) (bytesAt (unitWrites done val) a))
    sleeps .ld .read false (scalarUnit f (addressOf s.cur f)) (fun _ t => t.mem = s.mem ∧ same s.cur t.cur) ∧
    (tyWidth f.ty ≠ 64 → loads .vld 4 128 32 false (contiguousUnits s.cur f) ∧
      loads .vlds (elemBytes f.ty) (elemCount f.ty) (tyWidth f.ty) false (stridedUnits s.cur f) ∧
      (tyWidth f.ty ≠ 4 → loads .vgath (elemBytes f.ty) 128 32 sg (indexedUnits s.cur f ((f.hi ++ f.lo : BitVec 24).signExtend 64)))) ∧
    (tyWidth f.ty = 64 → f.d.toNat % 2 = 0 → loads .vld 8 128 64 false (contiguousUnits s.cur f) ∧
      loads .vlds 8 128 64 false (stridedUnits s.cur f) ∧
      loads .vgath 8 128 64 false (indexedUnits s.cur f ((f.hi ++ f.lo : BitVec 24).signExtend 64))) ∧
    stores .st false (scalarUnit f (addressOf s.cur f)) (fun _ => (readX s.cur f.d).toNat) ∧
    stores .vst true (contiguousUnits s.cur f) (srcElem s.cur f.d 128 (if tyWidth f.ty = 64 then 64 else 32)) ∧
    stores .vsts true (stridedUnits s.cur f) (srcElem s.cur f.d (elemCount f.ty) (tyWidth f.ty)) ∧
    stores .vscat true (indexedUnits s.cur f ((f.hi ++ f.lo : BitVec 24).signExtend 64))
      (srcElem s.cur f.d 128 (if tyWidth f.ty = 64 then 64 else 32))) ∧
  (∀ p ∈ scalarAtomics, ∀ (s : State) (f : FmtM), f.space = 0 → isThread s.cur.who = false →
    let faults := (reachAll s .atomic (ioAtomicOk p.1) (scalarUnit f (atomicAddressOf s.cur f))).2.2
    faults ≠ [] → ∃ t, exec (p.2 f) s = .next t ∧ SleepsOn s t 2 faults false ∧ t.teams = s.teams ∧ t.others = s.others ∧ t.mem = s.mem ∧
      t.cur.x = s.cur.x ∧ t.cur.v = s.cur.v ∧ t.cur.m = s.cur.m) ∧
  ∀ p ∈ vectorAtomics, ∀ (s : State) (f : FmtM), f.ty = 4 ∨ f.ty = 5 ∨ f.ty = 10 → AtomicType p.1 f.ty → f.space = 0 → s.softErrs = [] →
    isThread s.cur.who = false →
    let r := reachAll s .atomic (ioAtomicOk p.1) (indexedUnits s.cur f (f.lo.signExtend 64))
    let done := r.2.1.filter fun q => !laneFaults r.2.2 q.u.lane
    let new := fun (e : Nat) (old : BitVec 32) => atomicValue p.1 f.ty old (own32 s.cur f.d e) (own32 s.cur (f.d + 1) e)
    r.2.2 ≠ [] → (∀ q ∈ done, ∃ ph, q.parts = [(ph, 4)] ∧ inPool ph.pa = true) →
      ∃ t, exec (p.2 f) s = .next t ∧ SleepsOn s t 2 r.2.2 true ∧ t.teams = s.teams ∧ t.others = s.others ∧
        t.cur.x = s.cur.x ∧ t.cur.m = s.cur.m ∧ ∃ order : List Reached, order.Perm done ∧
        let made := oneByOne new (order.map fun q => (q.u.elem, (q.parts.map fun x => x.1.pa).headD 0)) s.mem
        t.mem = made.1 ∧ GroupWrite s.cur { s.cur with v := t.cur.v } f.d 128 32 (fun e => done.any fun q => q.u.elem == e)
          (fun e => (tblGet made.2 e).getD 0)

/-- A scalar atomic completes: x[D] takes the old value extended as in LD and the element the new one, in the pool where the
address translates and in a scratchpad where it lies inside, no soft error being present; no other byte and no other register
changes. Outside the scratchpad the warp freezes with BOUNDS (R140, R143, R144). -/
def Obligations.ScalarAtomics : Prop :=
  ∀ p ∈ scalarAtomics, ∀ (s : State) (f : FmtM), AtomicType p.1 f.ty →
    let n := elemBytes f.ty
    let va := alignDown (atomicAddressOf s.cur f) n
    let new := fun old : BitVec (8 * n) => atomicValue p.1 f.ty old ((readX s.cur f.d).setWidth _) ((readX s.cur f.b).setWidth _)
    let received := fun old : BitVec (8 * n) => widened 64 (decide (f.ty.toNat < 8) && signedType f.ty) old
    (f.space = 0 → s.softErrs = [] → ∀ ph, (reachUnit s .atomic (ioAtomicOk p.1) ⟨0, 0, va, n⟩).2 = ([(ph, n)], []) → inPool ph.pa = true →
      let old : BitVec (8 * n) := BitVec.ofNat _ (s.mem.num ph.pa n)
      ∃ dies dir smax rmax wrote, exec (p.2 f) s = .next { s with
        dies := dies
        dir := dir
        mem := s.mem.write ph.pa (toBytes (new old).toNat n)
        cur := retire (writeX { s.cur with smax := smax, rmax := rmax, wrote := wrote } f.d (received old)) }) ∧
    (f.space ≠ 0 → s.softErrs = [] → LocalInside s f.space.toNat va n →
      let old := localValue s f.space.toNat va n
      ∃ t, LocalStores s t f.space.toNat n 1 (fun _ => true) (fun _ => va) (fun _ => new old) ∧
        exec (p.2 f) s = .next { t with cur := writeX t.cur f.d (received old) }) ∧
    (f.space ≠ 0 → ¬ LocalInside s f.space.toNat va n → isThread s.cur.who = false →
      ∃ t, exec (p.2 f) s = .next t ∧ FreezesWith s t 0x11 0xFF va)

/-- A vector atomic completes: the active lanes' operations are made one by one in some order, each lane of v[D] receiving the
old value that order gives it, in the pool where every lane translates and in a scratchpad where every address lies inside, no soft
error being present; no other byte and no other register changes; where an active address lies outside its scratchpad the warp freezes with
BOUNDS at the lowest such lane and nothing is performed (R140, R144, R146 to R148), sr.tval the address with its ignored low bits clear
(log entry 56). The order is left open (log entry 10). -/
def Obligations.VectorAtomics : Prop :=
  ∀ p ∈ vectorAtomics, ∀ (s : State) (f : FmtM), f.ty = 4 ∨ f.ty = 5 ∨ f.ty = 10 → AtomicType p.1 f.ty →
    let us := indexedUnits s.cur f (f.lo.signExtend 64)
    let new := fun (e : Nat) (old : BitVec 32) => atomicValue p.1 f.ty old (own32 s.cur f.d e) (own32 s.cur (f.d + 1) e)
    let act := fun e : Nat => (activeMask s.cur f.pm f.pi).getLsbD e
    let received := fun (olds : Tbl (BitVec 32)) (v : Vector VReg 64) =>
      GroupWrite s.cur { s.cur with v := v } f.d 128 32 act (fun e => (tblGet olds e).getD 0)
    (f.space = 0 → s.softErrs = [] → (reachAll s .atomic (ioAtomicOk p.1) us).2.2 = [] →
      let reached := (reachAll s .atomic (ioAtomicOk p.1) us).2.1
      (∀ r ∈ reached, ∃ ph, r.parts = [(ph, 4)] ∧ inPool ph.pa = true) →
      ∃ order : List Reached, order.Perm reached ∧
        let made := oneByOne new (order.map fun r => (r.u.elem, (r.parts.map fun q => q.1.pa).headD 0)) s.mem
        ∃ dies dir smax rmax wrote freeCtr v, exec (p.2 f) s = .next { s with
          dies := dies
          dir := dir
          freeCtr := freeCtr
          mem := made.1
          cur := retire { s.cur with smax := smax, rmax := rmax, wrote := wrote, v := v } } ∧ received made.2 v) ∧
    (f.space ≠ 0 → s.softErrs = [] → (∀ u ∈ us, LocalInside s f.space.toNat u.va 4) →
      ∃ order freeCtr, order.Perm us ∧
        let made := localOneByOne f.space.toNat new order { s with freeCtr := freeCtr }
        ∃ v, exec (p.2 f) s = .next { made.1 with cur := retire { made.1.cur with v := v } } ∧ received made.2 v) ∧
    (f.space ≠ 0 → LeavesBounds (p.2 f) s f.space.toNat 4 128 act (indexAddr s.cur f (f.lo.signExtend 64)))

/-- The fences complete in every state: an acquire raises wclk to the timestamps read, and at system scope leaves no copy in the
core's L1 that memory has overtaken; a release raises wclk to the timestamps its stores received, which at module scope or wider
reach the XTS of its die, and it to them, once they are complete there; nothing else changes (R154, R155, R209, R221). PREF and
NOTIFY complete. A prefetch, its address translated or not, changes no register and no memory, and a core sees each sector
afterwards as before or as memory holds it (R152). NOTIFY is a release at system scope and then one store of x[B] to the dword of
x[A] (R169). -/
def Obligations.FencesAndNotify : Prop :=
  (∀ (s : State) (f : FmtS),
     let released := releasedAt s f.scope.toNat
     let fresh := fun u : State => if f.scope = 5 ∨ f.scope = 6 then overtakenGone u else u
     let acquires := fun w : Warp => retire { w with wclk := max w.wclk w.rmax }
     exec (.fenceAcq f) s = becomes (fresh s) (acquires s.cur) ∧
     exec (.fenceRel f) s = becomes released (retire released.cur) ∧
     exec (.fenceAcqrel f) s = becomes (fresh released) (acquires released.cur)) ∧
  ((∀ (s : State) (f : FmtM), ∃ dies dir, exec (.pref f) s = .next { s with
       dies := dies
       dir := dir
       cur := retire s.cur } ∧
     ∀ d c wclk sec, seenSector { s with
       dies := dies
       dir := dir } d c wclk sec ∈ [seenSector s d c wclk sec, sectorBits s.mem sec]) ∧
   ∀ (s : State) (f : FmtS),
     let released := releasedAt s 5
     let va := alignDown (readX s.cur f.a) 8
     ∀ ph, (reachUnit released .write true ⟨0, 0, va, 8⟩).2 = ([(ph, 8)], []) → inPool ph.pa = true →
       ∃ dies dir smax wrote softErrs, exec (.notify f) s = .next { released with
         dies := dies
         dir := dir
         softErrs := softErrs
         mem := s.mem.write ph.pa (toBytes (readX s.cur f.b).toNat 8)
         cur := retire { released.cur with smax := smax, wrote := wrote } } ∧ ∀ e ∈ softErrs, e ∈ s.softErrs)

/-- The knot instructions on a knot they name (R62, R157 to R164): KCFG, KARR, KSIG and KARRW send their update, an arrival
after a release at the knot's scope, that of the warp's own KCFG still on its way there; KWAIT and a KARRW run again end where the condition holds, or at a deadline that equals no
promise, and wait otherwise; KTRY tests once; KRD reads the knot's word. An index out of range freezes the warp. Where a knot
lies that a format K instruction names (R62, R157): KIDX plus bits 11:0 of x[A], in the team's own range, in that of the
cluster's team of rank x[A] bits 19:16, or among the far knots of the warp's context. That an arrival is an update on its way to
its knot, and that a wait stands at its instruction, is the model's reading (log entry 17). -/
def Obligations.Knots : Prop :=
  ((∀ (s : State) (f : FmtK) (r : KnotRef), knotTarget s f = .ok r →
     let k := getKnot s r
     let released := releasedAt s ((s.knotQ.filterMap fun u => match u.op with
       | .config _ scope _ _ => if u.home = r ∧ u.src = some (warpId s.cur) then some scope else none
       | _ => none).getLast?.getD k.scope)
     let sends := fun (u : State) (op : KnotOp) => { u with
       cur := retire u.cur
       knotQ := u.knotQ ++ [knotUpdate u r op none] }
     let waiting := fun (w : Warp) (c : WaitCond) => { w with
       status := .knotWait ⟨f.d, r, f.kidx.toNat + (readX s.cur f.a).toNat % 4096, f.kspace != 2, c, readX s.cur f.b⟩ }
     let cond := if f.kmode = 1 then WaitCond.threshold f.kval.toNat else .phase (f.kval.getLsbD 0)
     exec (.kcfg f) s = .next (sends s (.config (f.kmode == 1) f.scope.toNat f.kval.toNat ((readX s.cur f.b).getLsbD 0))) ∧
     exec (.karr f) s = .next (sends released (.arrive f.kval.toNat false)) ∧
     exec (.ksig f) s = .next (sends released (.arrive f.kval.toNat (f.kmode == 1))) ∧
     ((∀ a, s.cur.karrw = some a → a.addr ≠ s.cur.pc) → ¬ deadlinePassed s (readX s.cur f.b) →
       exec (.karrw f) s = .next { released with
         nextId := s.nextId + 1
         cur := waiting { released.cur with karrw := some ⟨s.cur.pc, s.nextId, none⟩ } (.flip none)
         knotQ := released.knotQ ++ [knotUpdate released r (.arrive f.kval.toNat false) (some s.nextId)] }) ∧
     (s.softErrs = [] → (∀ u ∈ s.knotQ, ¬ (u.home = r ∧ u.src = some (warpId s.cur))) →
       exec (.krd f) s = scalarResult s f.d (knotWord k) ∧
       exec (.ktry f) s = becomes s (if waitHolds cond k then waitDone s f.d k else retire (writeX s.cur f.d ((if k.err then 2 else 0) + 1))) ∧
       ∀ i c, (i = Instr.kwait f ∧ c = cond) ∨ (i = .karrw f ∧ ∃ a, s.cur.karrw = some a ∧ a.addr = s.cur.pc ∧ c = .flip a.flips) →
         (waitHolds c k = true → exec i s = becomes s (waitDone s f.d k)) ∧
         (waitHolds c k = false → ¬ deadlinePassed s (readX s.cur f.b) → exec i s = becomes s (waiting s.cur c)) ∧
         (waitHolds c k = false → deadlinePassed s (readX s.cur f.b) → promisesAt s.cur (readX s.cur f.b) = [] →
           exec i s = becomes s (retire (writeX { s.cur with karrw := karrwDone s.cur } f.d 1))))) ∧
   ∀ (s : State) (f : FmtK), isThread s.cur.who = false →
     ∀ i ∈ [Instr.kcfg f, .karr f, .ksig f, .kwait f, .ktry f, .karrw f, .krd f],
       (∀ idx, knotTarget s f = .error (.bounds idx) → ∃ t, exec i s = .next t ∧ FreezesWith s t 0x11 0xFF (BitVec.ofNat 64 idx)) ∧
       (knotTarget s f = .error .illegal → ∃ t, exec i s = .next t ∧ FreezesWith s t 0x10 3 ((encode i).getD 0))) ∧
  (∀ (s : State) (f : FmtK) (t : Team), s.curTeam = some t →
     let a := (readX s.cur f.a).toNat
     let idx := f.kidx.toNat + a % 4096
     (f.kspace = 0 → knotTarget s f = if 1024 ≤ idx then .error .illegal else if idx < t.kernel.knots then .ok (.team t.id idx)
       else .error (.bounds idx)) ∧
     (f.kspace = 1 → idx < 1024 → ∀ u, a / 65536 % 16 < s.cur.cw * s.cur.ch → s.clusterTeam t.cluster (a / 65536 % 16) = some u →
       knotTarget s f = if idx < u.kernel.knots then .ok (.team u.id idx) else .error (.bounds idx)) ∧
     (f.kspace = 1 → (1024 ≤ idx ∨ s.cur.cw * s.cur.ch ≤ a / 65536 % 16) → knotTarget s f = .error .illegal) ∧
     (f.kspace = 2 → knotTarget s f = if 4096 ≤ idx then .error .illegal else if farOwned s idx s.cur.ctx then .ok (.far idx)
       else .error (.bounds idx)))

/-- TLAUNCH reads both descriptors, which hold no soft error, and then releases at die scope and enters the task, whose handle x[D]
receives; a refusal writes its reason of R166, enters nothing and releases nothing. The reads change nothing but caches. SLEEPUNTIL and TFENCE complete
with the results of R167, R170 where no promise stands at their deadline: the time slept past the deadline; status 0, 2, 1 or 3
for a task that completed, was aborted, has not ended in time, or is none of the team's, with the acquire of the first two.
Before that the warp waits at the instruction. The order of the refusals is the model's (log entry 22). -/
def Obligations.Tasks : Prop :=
  (∀ (s : State) (f : FmtS), s.softErrs = [] →
     let a := readX s.cur f.a
     let refused := fun (u : State) (why : Word) => exec (.tlaunch f) s = becomes u (retire (writeX u.cur f.d why))
     (a.toNat % 64 ≠ 0 → refused s 3) ∧
     (a.toNat % 64 = 0 → ∀ s1 bs ts, readDwords s (warpSpace s s.cur) (curParty s false) a 8 = (s1, .ok (bs, ts)) → CachesOnly s s1 ∧
       let s1 : State := { s1 with cur := { s1.cur with rmax := max s1.cur.rmax ts } }
       (taskDescBad (ofBytes bs) = true → refused s1 3) ∧
       (taskDescBad (ofBytes bs) = false → ∀ s2 kb tk,
         readDwords s1 (warpSpace s1 s1.cur) (curParty s1 false) (BitVec.ofNat 64 (bits (ofBytes bs) 63 0)) 8 = (s2, .ok (kb, tk)) →
         CachesOnly s1 s2 ∧
         let s2 : State := { s2 with cur := { s2.cur with rmax := max s2.cur.rmax tk } }
         let k := parseKDesc kb
         ∀ d c p slot t ln, s2.cur.who = .warp d c p slot → s2.findTeam s2.cur.team = some t → (s2.die t.home).findNode t.node = some ln →
           let released := releasedAt s2 3
           (taskKernelBad k t.ctxRec d = true → refused s2 3) ∧
           (taskKernelBad k t.ctxRec d = false → ∀ why, taskRefusal s2 d c ln.part ln.ctx k t.ctxRec = some why → refused s2 (BitVec.ofNat 64 why)) ∧
           (taskKernelBad k t.ctxRec d = false → taskRefusal s2 d c ln.part ln.ctx k t.ctxRec = none → ∃ dies nextId task,
             exec (.tlaunch f) s = .next { released with
               dies := dies
               nextId := nextId
               cur := retire (writeX released.cur f.d (taskHandle task)) } ∧
             dies[d].tasks = (s2.die d).tasks ++ [task] ∧ task.team = t.id ∧ task.outcome = none ∧ task.core = c ∧
             task.gen = (s2.die d).taskGen)))) ∧
  (∀ (s : State) (f : FmtS),
     let now := (s.stage.sec * 1000000000 + s.stage.nsec) % 2 ^ 64
     let a := readX s.cur f.a
     (promisesAt s.cur a = [] → a.toNat ≤ now →
       exec (.sleepuntil f) s = scalarResult s f.d (BitVec.ofNat 64 (now - a.toNat))) ∧
     (now < a.toNat → exec (.sleepuntil f) s = becomes s { s.cur with status := .sleepUntil f.d a }) ∧
     (taskOf s a = none → exec (.tfence f) s = scalarResult s f.d 3) ∧
     ∀ t, taskOf s a = some t →
       (∀ ok, t.outcome = some ok →
         exec (.tfence f) s = becomes s (retire (writeX { s.cur with wclk := max s.cur.wclk t.tts } f.d (if ok then 0 else 2)))) ∧
       (t.outcome = none → ¬ deadlinePassed s (readX s.cur f.b) →
         exec (.tfence f) s = becomes s { s.cur with status := .taskWait f.d a (readX s.cur f.b) }) ∧
       (t.outcome = none → deadlinePassed s (readX s.cur f.b) → promisesAt s.cur (readX s.cur f.b) = [] →
         exec (.tfence f) s = becomes s (retire (writeX { s.cur with karrw := karrwDone s.cur } f.d 1))))

/-- The tile store's instructions on rows below CELLS, of which a ply's store holds 256 (R194): TSLD gives each active lane its
cell of the row, TSST writes the active lanes of v[B] to it, TSZERO clears its rows; no other cell changes. At or beyond CELLS
the warp freezes with BOUNDS and nothing is written. -/
def Obligations.TileStore : Prop :=
  ∀ (s : State) (f : FmtA) (tm : Team), s.curTeam = some tm → tm.kernel.cells ≤ 256 →
    let cells := tm.kernel.cells
    let off : Nat := f.mod.toNat % 256
    let row : Word := readX s.cur f.a + BitVec.ofNat 64 off
    let act := fun p : Nat => (activeMask s.cur f.pm f.pi).getLsbD p
    let beyond := fun r : Word => BitVec.ofNat 64 (128 * r.toNat) ||| 0x8000000000000000#64
    (row.toNat < cells → s.softErrs = [] → Completes (.tsld f) s fun t =>
      VectorWrite s t f.d 128 32 act fun p => tileCell s s.cur.team (curPly s) row.toNat p) ∧
    (row.toNat < cells → Completes (.tsst f) s fun t =>
      TileWrite s t fun r p => if r = row.toNat ∧ act p then some (laneOf (readV s.cur f.b) p) else none) ∧
    ((∀ k ≤ off, (readX s.cur f.a + BitVec.ofNat 64 k).toNat < cells) → Completes (.tszero f) s fun t =>
      TileWrite s t fun r _ => if ∃ k ≤ off, r = (readX s.cur f.a + BitVec.ofNat 64 k).toNat then some 0 else none) ∧
    (isThread s.cur.who = false → cells ≤ row.toNat → ∀ i ∈ [Instr.tsld f, .tsst f],
      ∃ t, exec i s = .next t ∧ FreezesWith s t 0x11 0xFF (beyond row)) ∧
    (isThread s.cur.who = false → ∀ k ≤ off, cells ≤ (readX s.cur f.a + BitVec.ofNat 64 k).toNat →
      (∀ j < k, (readX s.cur f.a + BitVec.ofNat 64 j).toNat < cells) →
      ∃ t, exec (.tszero f) s = .next t ∧ FreezesWith s t 0x11 0xFF (beyond (readX s.cur f.a + BitVec.ofNat 64 k)))

/-- The pushes CPY, MXPUSH and CPYT (R171, R172, R174, R182, R183, R187). A push whose record passes its checks completes, the record entering as one command of
that record, waiting, in the lowest free entry of its queue or on its stream, and the warp goes on, after CPYT with the promise in
x[D]; memory, the teams and every other command are as they were. A header that fails, then a body that fails, is ILLEGAL with its
sub-cause, as is a push to an engine the team does not hold; a range outside its bounds, one bank in both bank masks and a knot
that is not the team's stop the whole team. A full queue or a ninth promise holds the warp at the push; a stream not granted, or a
reel that is not in RUN, gives 0. That a push to a full queue is held at its instruction before its record is looked at is the
model's reading (log entry 17). -/
def Obligations.EngineCommands : Prop :=
  ∀ (s : State) (f : FmtE) (d : Fin 2) (c : Fin 24) (p : Fin 8) (slot : Fin 4), s.cur.who = .warp d c p slot →
    let r := slotRecord s.cur f
    let ranks := s.cur.cw * s.cur.ch
    let held := fun w => becomes s { s.cur with status := .held w }
    let entered := fun (cmd : Cmd) (kind : CmdKind) (e : Nat) =>
      cmd.id = s.nextId ∧ cmd.record = r ∧ cmd.kind = kind ∧ cmd.entry = e ∧ cmd.d = d ∧ cmd.core = c ∧ cmd.team = s.cur.team ∧
      cmd.widx = s.cur.widx ∧ cmd.ctx = s.cur.ctx ∧ cmd.st = .waiting ∧ cmd.next = 0 ∧ cmd.err = 0 ∧
      (r.extractLsb' 42 2 = 3#2 → cmd.ready = true)
    let enters := fun (i : Instr) (kind : CmdKind) (e : Nat) => ∃ cmd,
      exec i s = .next { s with
        cur := retire s.cur
        cmds := s.cmds ++ [cmd]
        nextId := s.nextId + 1 } ∧ entered cmd kind e
    let fails := fun (i : Instr) (k : Nat) => ∃ t, exec i s = .next t ∧ FreezesWith s t 0x10 k ((encode i).getD 0)
    let teamStops := fun (i : Instr) (code sub : Nat) (a : Word) => ∃ t, exec i s = .next t ∧ TeamFreezes s t code sub a
    let knots := fun (i : Instr) (good : Prop) =>
      (∀ idx, recordKnotBad s s.cur.team s.cur.ctx r = some idx → teamStops i 0x11 0xFF (BitVec.ofNat 64 idx)) ∧
      (recordKnotBad s s.cur.team s.cur.ctx r = none → good)
    let checked := fun (i : Instr) (kind : Nat) (body : Option Nat) (good : Prop) =>
      (∀ k, headerSub kind ranks r = some k → fails i k) ∧
      (∀ k, headerSub kind ranks r = none → body = some k → fails i k) ∧
      (headerSub kind ranks r = none → body = none → good)
    (freeEntry s (isCopyOf d c) 32 = none → exec (.cpy f) s = held .copies) ∧
    (∀ e, freeEntry s (isCopyOf d c) 32 = some e → checked (.cpy f) 1 (copyBodySub r)
      ((∀ a, copyOutside r (curScratch s) = some a → teamStops (.cpy f) 0x11 e a) ∧
       (copyOutside r (curScratch s) = none → knots (.cpy f) (enters (.cpy f) .copy e)))) ∧
    (let owns := tblGet (s.coreAt d c).engines f.eng.toNat = some (s.cur.team, false)
     (owns → freeEntry s (isMatrixOf d c f.eng.toNat) 16 = none → exec (.mxpush f) s = held (.matrix f.eng.toNat)) ∧
     (¬ owns → checked (.mxpush f) 3 (mxBodySub r) (fails (.mxpush f) 3)) ∧
     ∀ tm e, s.curTeam = some tm → owns → freeEntry s (isMatrixOf d c f.eng.toNat) 16 = some e → checked (.mxpush f) 3 (mxBodySub r)
       (let both := mxAmask r &&& mxBmask r
        let outside := mxOutside r (curScratch s) (128 * tm.kernel.cells)
        (∀ a, outside = some a → teamStops (.mxpush f) 0x11 (16 * f.eng.toNat + e) a) ∧
        (outside = none → both ≠ 0 → teamStops (.mxpush f) 0x12 f.eng.toNat (BitVec.ofNat 64 both)) ∧
        (outside = none → both = 0 → knots (.mxpush f) (enters (.mxpush f) (.matrix f.eng.toNat) e)))) ∧
    checked (.cpyt f) 2 (stageBodySub r)
      ((s.reel.table = none → exec (.cpyt f) s = scalarResult s f.d 0) ∧
       ∀ t, s.reel.table = some t →
         (s.reel.st ≠ .run ∨ streamGranted s f.stream.toNat s.cur.ctx = false → exec (.cpyt f) s = scalarResult s f.d 0) ∧
         (s.reel.st = .run → streamGranted s f.stream.toNat s.cur.ctx = true →
           (8 ≤ s.cur.promises.length → exec (.cpyt f) s = held .promises) ∧
           (s.cur.promises.length < 8 →
             (∀ a, stageOutside r (curScratch s) = some a → teamStops (.cpyt f) 0x11 0xFF a) ∧
             (stageOutside r (curScratch s) = none → knots (.cpyt f)
               (let promise := promiseFor s t f.stream.toNat (stageFlits r) (queuedFlits s f.stream.toNat)
                ∃ cmd copyNos, exec (.cpyt f) s = .next { s with
                  cur := retire (writeX { s.cur with
                    promises := s.cur.promises ++ [(f.stream.toNat, promise, cmd.copyNo)] } f.d (BitVec.ofNat 64 promise))
                  cmds := s.cmds ++ [cmd]
                  nextId := s.nextId + 1
                  reel := { s.reel with copyNos := copyNos } } ∧
                entered cmd (.stage f.stream.toNat) 0 ∧ cmd.promise = promise ∧
                cmd.copyNo = tblGetD s.reel.copyNos f.stream.toNat 0 ∧
                ∀ k, tblGetD copyNos k 0 = if k = f.stream.toNat then (cmd.copyNo + 1) % 4096 else tblGetD s.reel.copyNos k 0)))))

/-- CPYQ, MXACQ, MXREL and MXQS complete (R185, R186): CPYQ reports the copies and clears the team's error count; MXACQ takes
the engines of the team's plies, all or none, and sets every bit of m[D] or none; MXREL marks the team's engines for release,
those with an empty queue free at once; MXQS reports an engine: held by the team or by another, a command running, the head waiting for
its BSHARED partners, bits 7:5 zero, and the free entries (R193). -/
def Obligations.EngineState : Prop :=
  ∀ (s : State) (f : FmtE) (d : Fin 2) (c : Fin 24) (p : Fin 8) (slot : Fin 4) (tm : Team), s.cur.who = .warp d c p slot → s.curTeam = some tm →
    let copies := queued s (isCopyOf d c)
    let plies := distinct (teamPlies tm.base tm.kernel.warps)
    let mine := ∀ q ∈ plies, ∀ e, tblGet (s.coreAt d c).engines q = some e → e.1 = tm.id
    exec (.cpyq f) s = .next { s.onTeam s.cur.team (fun t => { t with errCnt := 0, lastErr := 0 }) with
      cur := retire (writeX s.cur f.d (BitVec.ofNat 64 (tm.lastErr * 2 ^ 32 + tm.errCnt * 2 ^ 24 + s.cur.promises.length * 2 ^ 16 +
        (copies.filter (·.team == s.cur.team)).length * 2 ^ 8 + (32 - copies.length)))) } ∧
    (mine → ∃ engines, exec (.mxacq f) s = .next { s.onCore d c (fun x => { x with engines := engines }) with
        cur := retire (writeM s.cur (mfield f.d) (BitVec.allOnes 128)) } ∧
      ∀ q, tblGet engines q = if q ∈ plies then some (tm.id, false) else tblGet (s.coreAt d c).engines q) ∧
    (¬ mine → exec (.mxacq f) s = becomes s (retire (writeM s.cur (mfield f.d) 0))) ∧
    (∃ engines, exec (.mxrel f) s = .next { s.onCore d c (fun x => { x with engines := engines }) with cur := retire s.cur } ∧
      ∀ q e, (q, e) ∈ engines ↔ ∃ e0, (q, e0) ∈ (s.coreAt d c).engines ∧ e = (e0.1, e0.2 || e0.1 == s.cur.team) ∧
        ¬ (e.2 = true ∧ queued s (isMatrixOf d c q) = [])) ∧
    let queue := mxQueue s d c f.eng.toNat
    let owner := tblGet (s.coreAt d c).engines f.eng.toNat
    ∃ n < 4096, exec (.mxqs f) s = scalarResult s f.d (BitVec.ofNat 64 n) ∧
      (n.testBit 11 = true ↔ ∃ b, owner = some (s.cur.team, b)) ∧
      (n.testBit 10 = true ↔ ∃ t b, owner = some (t, b) ∧ t ≠ s.cur.team) ∧
      ((∃ x ∈ queue, x.st = .running) → n.testBit 9 = true) ∧
      ((∀ x ∈ queue, x.st ≠ .running ∧ x.st ≠ .frozen) → n.testBit 9 = false ∧
        (n.testBit 8 = true ↔ ∃ h, mxHead queue = some h ∧ mxShared h.record = true ∧ mxWaited s h = true ∧ sharedSet s h = none)) ∧
      n / 32 % 8 = 0 ∧ n % 32 = 16 - queue.length

/-- XFM enters the transform pipe of its ply and its destination is written at the reply (R195). The transpositions move element
256k + 16i + j to 256k + 16j + i; pack takes the low bits of the lanes; unpack extends elements into lanes; cvt and quant write
what VCVT would, and under a policy that can fault complete, or trap, as VCVT does (R29, R127, R128). A reply lands the oldest
entry of its pipe at its owner. That the result is formed at issue and written at the reply is the model's reading (log entry
30). -/
def Obligations.TransformPipe : Prop :=
  ∀ (s : State) (f : FmtA) (d : Fin 2) (c : Fin 24) (p : Fin 8) (slot : Fin 4), s.cur.who = .warp d c p slot →
    let from16 := fun e : Nat => e / 256 * 256 + e % 16 * 16 + e / 16 % 16
    let n := cvtCount f.ty f.ty2
    let good := fun e => activeElt s.cur f n e && !(isFaultCase (cvtResult s.cur f e))
    let gens : Vector (BitVec 32) 128 := if f.rnd = 4 then Vector.ofFn fun lane : Fin 128 =>
        if (activeMask s.cur f.pm f.pi).getLsbD lane.val then advanceGen (n / 128) s.cur.gens[lane] else s.cur.gens[lane]
      else s.cur.gens
    EntersPipe (.xfmTr8 f) s d c p s.cur.gens (fun w w' => WritesInTurn w w' f.d 1 8 fun e => seqCell s.cur f.a 8 (from16 e)) ∧
    EntersPipe (.xfmTr16 f) s d c p s.cur.gens (fun w w' => WritesInTurn w w' f.d 1 16 fun e => seqCell s.cur f.a 16 (from16 e)) ∧
    (f.d.toNat % 2 = 0 → EntersPipe (.xfmTr32 f) s d c p s.cur.gens (fun w w' =>
      WritesInTurn w w' f.d 2 32 fun e => seqCell s.cur f.a 32 (from16 e))) ∧
    (tyWidth f.ty ≤ 16 → EntersPipe (.xfmPack f) s d c p s.cur.gens (fun w w' =>
      WritesInTurn w w' f.d 1 (tyWidth f.ty) fun e => (seqCell s.cur f.a 32 e).setWidth _)) ∧
    (f.d.toNat % (32 / tyWidth f.ty) = 0 → f.ty.toNat < 4 → EntersPipe (.xfmUnpack f) s d c p s.cur.gens (fun w w' =>
      WritesInTurn w w' f.d (32 / tyWidth f.ty) 32 fun e => widened 32 (signedType f.ty) (seqCell s.cur f.a (tyWidth f.ty) e))) ∧
    (∀ i, i = Instr.xfmCvt f ∨ i = Instr.xfmQuant f →
      (hasFaultPolicy f = false → f.d.toNat + groupSize n (tyWidth f.ty) ≤ 64 → EntersPipe i s d c p gens (fun w w' =>
        GroupWrite w w' f.d n (tyWidth f.ty) good fun e => BitVec.ofNat (tyWidth f.ty) (cvtBits (cvtResult s.cur f e)))) ∧
      (hasFaultPolicy f = true →
        ((∀ e < n, activeElt s.cur f n e = true → isFaultCase (cvtResult s.cur f e) = false) → exec i s = exec (.vcvt f) s) ∧
        ((∃ e < n, activeElt s.cur f n e = true ∧ isFaultCase (cvtResult s.cur f e) = true) → ∃ u cause,
          exec (.vcvt f) s = .next (raiseTrap u 3 cause ((encode (.vcvt f)).getD 0)) ∧
          exec i s = .next (raiseTrap u 3 cause ((encode i).getD 0))))) ∧
    ∀ (pipe : Fin 2) (e : XfmEntry) (rest : List XfmEntry),
      ((pipe = 0 → (s.coreAt d c).pipe0 = e :: rest →
        exec (.xfmReply d c pipe) s = .next ((s.onCore d c fun x => { x with pipe0 := rest }).mapAgents (isWarp e.owner) fun w => xfmComplete w e)) ∧
      (pipe = 1 → (s.coreAt d c).pipe1 = e :: rest →
        exec (.xfmReply d c pipe) s = .next ((s.onCore d c fun x => { x with pipe1 := rest }).mapAgents (isWarp e.owner) fun w => xfmComplete w e)))

/-- The texture instructions (R196 to R202). With a texture descriptor that is good, TQRY answers the size of a level, the count
of levels and the format, 0 for a level not there, at once where no storage holds an error; TLD, SGATH and SAMPLE give every active lane its channels: over the texels T
that the sampler finds, TLD those of the texel, zeros outside its level, SGATH one channel of a footprint, and SAMPLE what the arithmetic
of R199 makes of them, its choices for a last level and for a quotient that is no number being log entry 35's; a bad descriptor is ILLEGAL,
sub-cause 3. WTINV drops what the core's samplers hold for a slot of the context,
WTINV.all everything; WTPF goes on whatever its slot. Which version of a line a sampler holds is left open (log entry 12); a
reserved bit of a sampler descriptor makes it bad (log entry 24). -/
def Obligations.Textures : Prop :=
  ∀ (s : State) (f : FmtA) (d : Fin 2) (c : Fin 24) (p : Fin 8) (slot : Fin 4), s.cur.who = .warp d c p slot →
    let act := activeMask s.cur f.pm f.pi
    let arg := fun k q => (laneOf (vAt s.cur (f.a.toNat + k)) q).toNat
    let seen := fun (u : State) ts => { u with cur := { u.cur with rmax := max u.cur.rmax ts } }
    let lanes := fun (out : List (Nat × List Nat)) => ∀ q < 128, (out.any fun o => o.1 == q) = act.getLsbD q
    (∀ u n ts, readDescriptor s (readX s.cur f.b) 32 = (u, .ok (n, ts)) →
      CachesOnly s u ∧
      (texBad n = true → ∀ i ∈ [Instr.tqry f, .tld f, .sgath f, .sample f], ∃ t, exec i s = .next t ∧
        FreezesWith (seen u ts) t 0x10 3 ((encode i).getD 0)) ∧
      (texBad n = false →
        let t := parseTex n
        let lvl := f.mod.toNat % 16
        let read := gotAlso s d (gotNone s) (descAsked s (readX s.cur f.b) 32)
        let got := if t.fmt = 16 then { read with fresh := { read.fresh with uses := some (s.cur.ctx, t.slot) } } else read
        let found := fun (v : State) (g : SampGot) (T : Nat → Nat → Nat → List Nat) => ∃ P, P v g ∧ Fetches P (fetchOf v false false) t T
        let work := lanesOf (seen u ts) got (loadLane (fetchOf (seen u ts) false false) t lvl (arg 0) (arg 1)) act
        (s.softErrs = [] → exec (.tqry f) s = .next { u with cur := retire (writeX (seen u ts).cur f.d (if t.levels ≤ lvl then 0
          else BitVec.ofNat 64 (max 1 (t.width / 2 ^ lvl) + max 1 (t.height / 2 ^ lvl) * 2 ^ 16 + t.levels * 2 ^ 32 + t.fmt * 2 ^ 36))) }) ∧
        (work.faults = [] → work.bad = none → Samples (.tld f) s f work.out ∧ lanes work.out ∧
          ∀ o ∈ work.out, let outside := t.levels ≤ lvl ∨ max 1 (t.width / 2 ^ lvl) ≤ arg 0 o.1 ∨ max 1 (t.height / 2 ^ lvl) ≤ arg 1 o.1
            (outside → o.2 = [0, 0, 0, 0]) ∧ ∀ T, found (seen u ts) got T → ¬ outside → o.2 = T lvl (arg 0 o.1) (arg 1 o.1)) ∧
        ∀ u2 n2 ts2, readDescriptor (seen u ts) (readX s.cur f.c) 16 = (u2, .ok (n2, ts2)) →
          CachesOnly (seen u ts) u2 ∧
          (sampBad n2 = true → ∀ i ∈ [Instr.sgath f, .sample f], ∃ t, exec i s = .next t ∧
            FreezesWith (seen u2 ts2) t 0x10 3 ((encode i).getD 0)) ∧
          (sampBad n2 = false →
            let v := seen u2 ts2
            let got := gotAlso (seen u ts) d got (descAsked (seen u ts) (readX s.cur f.c) 16)
            let gather := lanesOf v got (gatherLane (fetchOf v false false) t (parseSamp n2) (f.mod.toNat / 4 % 16) (f.mod.toNat % 4) (arg 0) (arg 1)) act
            let filter := lanesOf v got (sampleLane (fetchOf v false false) t (parseSamp n2) f.mod.toNat (arg 0) (arg 1) (arg 2)) act
            let sampling := fun T => (⟨T, t, parseSamp n2⟩ : Sampling)
            (gather.faults = [] → gather.bad = none → Samples (.sgath f) s f gather.out ∧ lanes gather.out ∧
              ∀ T, found v got T → ∀ o ∈ gather.out, o.2 = (sampling T).gathered (f.mod.toNat / 4 % 16) (f.mod.toNat % 4) (arg 0 o.1) (arg 1 o.1)) ∧
            (filter.faults = [] → filter.bad = none → Samples (.sample f) s f filter.out ∧ lanes filter.out ∧
              (f.mod.toNat < 3 → ∀ T, found v got T → ∀ o ∈ filter.out, o.2 = (sampling T).result f.mod.toNat (arg 0) (arg 1) (arg 2) o.1))))) ∧
    (∀ n, n = (readX s.cur f.a).toNat % 4096 →
      exec (.wtinv f) s = .next { s.onCore d c (fun x => { x with
        tables := x.tables.filter fun t => !(t.ctx == s.cur.ctx && t.slot == n)
        texels := x.texels.filter fun t => !(t.ctx == s.cur.ctx && t.slot == n)
        lines := x.lines.filter fun t => !(t.ctx == s.cur.ctx && t.slot == some n)
        slotDrops := tblSet x.slotDrops (slotKey s.cur.ctx n) (tblGetD x.slotDrops (slotKey s.cur.ctx n) 0 + 1) }) with cur := retire s.cur }) ∧
    exec (.wtinvAll f) s = .next { s.onCore d c (fun x => { x with
      tables := []
      texels := []
      lines := []
      sampDrops := x.sampDrops + 1 }) with cur := retire s.cur } ∧
    ∃ u, CachesOnly s u ∧ exec (.wtpf f) s = .next { u with cur := retire s.cur }

/-- The ray instructions complete (R203 to R205, R309). TRACE gives each active lane a new query, over at once where an operand is NaN or TMAX
lies below TMIN, and walks it; RQNEXT drops the candidate of a query that is not over and walks on. Where no lane's walk faults and
no sector of the pool holds an error, each walk ends with its query over or with a candidate, the queries are kept, and v[D] to
v[D+3] and m[C] of each active lane report its candidate with its bit set, or its committed hit; a query that is over stays as it
is. RQCOMMIT makes the candidates of the active lanes their hits; RQTERM reports the hits and ends the queries. Memory, the teams
and every other agent are as they were. A walk the model calls endless is outside (log entry 25). -/
def Obligations.RayQueries : Prop :=
  ∀ (s : State) (f : FmtA) (d : Fin 2) (c : Fin 24) (p : Fin 8) (slot : Fin 4), s.cur.who = .warp d c p slot → f.d.toNat ≤ 60 →
    let act := activeMask s.cur f.pm f.pi
    let walk := fun start => walkLanes (warpSpace s s.cur) (curParty s false) start (activeLanes s.cur f) ⟨s, [], [], 0, [], false⟩
    let fresh := fun l => some (startQuery s.cur f l)
    let next := fun l => (tblGet s.cur.queries l).map fun q => if q.done = true then q else { q with
      cand := none
      done := q.first && q.hit.isSome }
    let spent := fun l => (∃ k < 8, decodeFp fmtF32 (laneOf (vAt s.cur (f.a.toNat + k)) l).toNat = .nan) ∨
      fvBelow (decodeFp fmtF32 (laneOf (vAt s.cur (f.a.toNat + 7)) l).toNat) (decodeFp fmtF32 (laneOf (vAt s.cur (f.a.toNat + 6)) l).toNat) = true
    let committed := fun q : RayQuery => match q.cand with
      | some c => { q with hit := some c, tcur := c.t, cand := none }
      | none => q
    (s.softErrs = [] → ∀ i start, (i = Instr.trace f ∧ start = fresh) ∨ (i = .rqnext f ∧ start = next) →
      (walk start).endless = false → (walk start).faults = [] → Walks i s f act start (walk start)) ∧
    ((∀ l < 128, act.getLsbD l = true → spent l) → ∃ w', exec (.trace f) s = becomes s (retire w') ∧
      (∀ l, tblGet w'.queries l = if l < 128 ∧ act.getLsbD l = true then fresh l else tblGet s.cur.queries l) ∧
      QueryWrite { s.cur with queries := w'.queries } w' f.d (mfield f.c) (fun l => act.getLsbD l) (fun k _ => hitWord none k) fun _ => false) ∧
    (∀ l < 128, (startQuery s.cur f l).hit = none ∧ (startQuery s.cur f l).cand = none ∧ ((startQuery s.cur f l).done = true ↔ spent l)) ∧
    exec (.rqcommit f) s = becomes s (retire { s.cur with queries := s.cur.queries.map fun e => if act.getLsbD e.1 then (e.1, committed e.2) else e }) ∧
    ∃ w', exec (.rqterm f) s = becomes s (retire w') ∧
      QueryWrite { s.cur with queries := s.cur.queries.map fun e => if act.getLsbD e.1 ∧ e.1 < 128 then (e.1, { e.2 with cand := none, done := true, stack := [] }) else e }
        w' f.d (mfield f.c) (fun l => act.getLsbD l) (fun k l => hitWord ((tblGet s.cur.queries l).bind fun q => q.hit) k) (fun _ => false)

/-- GEMIT and FEMIT (R206, R207, R288, R297). GEMIT.vtx and GEMIT.prim add the active lanes, in increasing position, to the open
batch and GEMIT.end hands it to the raster front end; past a limit, with bits 31:30 of a triangle set, or outside a geometry
launch they are ILLEGAL, sub-cause 3. FEMIT gives the fragment of each active lane its depth, once, and one more colour for its
target. -/
def Obligations.RasterInstructions : Prop :=
  ∀ (s : State) (f : FmtA) (d : Fin 2) (c : Fin 24) (p : Fin 8) (slot : Fin 4), s.cur.who = .warp d c p slot →
    let act := activeMask s.cur f.pm f.pi
    let lanes := (List.range 128).filterMap fun q => (physOf s.cur q).bind fun l => if act.getLsbD l then some l else none
    let b := s.cur.batch.getD ⟨[], []⟩
    let at_ := fun (r k l : Nat) => laneOf (vAt s.cur (r + k)) l
    let vertex := fun l : Nat => (⟨at_ f.a.toNat 0 l, at_ f.a.toNat 1 l, at_ f.a.toNat 2 l, at_ f.a.toNat 3 l,
      (List.range (f.mod.toNat / 4 % 32)).map fun k => at_ f.b.toNat k l⟩ : Vertex)
    let word := fun l => (laneOf (vAt s.cur f.a.toNat) l).toNat
    let refused := fun i : Instr => ∃ t, exec i s = .next t ∧ FreezesWith s t 0x10 3 ((encode i).getD 0)
    (geometryState s = none → refused (.gemitVtx f) ∧ refused (.gemitPrim f) ∧ refused (.gemitEnd f)) ∧
    (geometryState s ≠ none →
      (256 < b.verts.length + lanes.length → refused (.gemitVtx f)) ∧
      (b.verts.length + lanes.length ≤ 256 → exec (.gemitVtx f) s = becomes s (retire { s.cur with
        batch := some { b with verts := b.verts ++ lanes.map vertex } })) ∧
      (512 < b.prims.length + lanes.length ∨ (∃ l ∈ lanes, 2 ^ 30 ≤ word l) → refused (.gemitPrim f)) ∧
      (b.prims.length + lanes.length ≤ 512 → (∀ l ∈ lanes, word l < 2 ^ 30) → exec (.gemitPrim f) s = becomes s (retire { s.cur with
        batch := some { b with prims := b.prims ++ lanes.map fun l => (word l % 1024, word l / 1024 % 1024, word l / 1048576) } })) ∧
      (∀ batch tm, s.cur.batch = some batch → s.curTeam = some tm → exec (.gemitEnd f) s =
        .next { s.onDie tm.home (fun x => { x with front := x.front ++ [⟨tm.node, batch⟩] }) with cur := retire { s.cur with batch := none } }) ∧
      (s.cur.batch = none → exec (.gemitEnd f) s = becomes s (retire s.cur))) ∧
    (fragmentState s = none → refused (.femit f)) ∧
    ∀ tm r, fragmentState s = some (tm, r) →
      let target := f.mod.toNat % 8
      (r.raw.getLsbD (448 + target) = false → refused (.femit f)) ∧
      (r.raw.getLsbD (448 + target) = true → (femitLanes f tm r (activeLanes s.cur f) s ⟨[], []⟩).2 = ⟨[], []⟩ → r.targets.getD target none ≠ none →
        (s.die tm.home).frags.Pairwise (fun g g' => ¬(g.owner = g'.owner ∧ g.lane = g'.lane)) →
        ∃ u, CachesOnly s u ∧ exec (.femit f) s = .next { u with cur := retire s.cur } ∧
          (u.die tm.home).frags.length = (s.die tm.home).frags.length ∧
          ∀ (n : Nat) (g : Fragment), (s.die tm.home).frags[n]? = some g → ∃ g', (u.die tm.home).frags[n]? = some g' ∧
            if g.owner = tm.node ∧ g.complete = false ∧ g.lane < 128 ∧ act.getLsbD g.lane = true then
              ∃ ca depth place, g' = { g with
                depth := some (depth, place)
                ops := g.ops ++ [(target, ca, femitColour s.cur f g.lane)] } ∧
                ((depth, place) = g.depth.getD (depth, place)) ∧
                (g.depth = none → depth = if f.mod.getLsbD 3 then laneOf (vAt s.cur f.b.toNat) g.lane else g.zf)
            else g' = g)

/-- The distaff's instructions (R354, R363, R379). On a warp they are ILLEGAL, sub-cause 6. On a thread QWAIT takes the pending
events or sleeps; QTAIL reads PUB of the bound queue as an acquire; PRD and PWR read and write an assigned port, a HOSTIRQ write
waiting for room, and an unassigned port freezes the thread; FANSW, a release at system scope toward the master, answers the fault
of the record's RID with 0 or 1 in x[B]; QHAND hands over a written packet, and answers 1 where a node finds the pool full and 0
where one enters it. What is unstated is a free value. Log entries 16 and 28 name the free values. -/
def Obligations.DistaffInstructions : Prop :=
  ∀ (s : State) (f : FmtS),
    (∀ (d : Fin 2) (c : Fin 24) (p : Fin 8) (slot : Fin 4), s.cur.who = .warp d c p slot →
      ∀ i ∈ [Instr.qwait f, .qtail f, .qhandPacket f, .qhandNode f, .prd f, .pwr f, .fansw f], ∃ t, exec i s = .next t ∧
        FreezesWith s t 0x10 6 ((encode i).getD 0)) ∧
    ∀ (d : Fin 2) (k : Fin 64), s.cur.who = .thread d k →
      let q : QueueRef := ⟨d, (s.die d).tctl[k].queue⟩
      let acquired := fun (u : State) => { u.cur with wclk := max u.cur.wclk u.cur.rmax }
      let answers := fun (i : Instr) (u : State) (v : Word) => exec i s = .next { u with cur := retire (writeX (acquired u) f.d v) }
      let port := (readX s.cur f.a).toNat
      let slot := physRead s d (readX s.cur f.a).toNat 64
      let record := physRead s d (readX s.cur f.a).toNat 8
      let judged := judgeSlot (slot.1.queue q).head (ofBytes slot.2)
      let handed := actOnSlot slot.1 q (ofBytes slot.2)
      let node := (graphLaunch slot.1 q (ofBytes slot.2)).bind fun l => l.nodes[(readX s.cur f.b).toNat % 4096]?
      (s.cur.events = 0 → exec (.qwait f) s = becomes s { s.cur with status := .qwait f.d }) ∧
      (s.cur.events ≠ 0 → exec (.qwait f) s = becomes s (retire (writeX { s.cur with events := 0 } f.d (s.cur.events.setWidth 64)))) ∧
      answers (.qtail f) s ((s.queue q).pub.setWidth 64) ∧
      (portAssigned port = true → answers (.prd f) (portRead s d port).1 (portRead s d port).2) ∧
      (portAssigned port = true → port ≠ 0x1208 ∨ (hirqOf s d).length < 64 →
        exec (.pwr f) s = .next (portWrite { s with cur := retire s.cur } d port (readX s.cur f.b))) ∧
      (port = 0x1208 → 64 ≤ (hirqOf s d).length → exec (.pwr f) s = becomes s { s.cur with status := .held .port }) ∧
      (portAssigned port = false → ∀ i ∈ [Instr.prd f, .pwr f], ∃ t, exec i s = .next t ∧ t.cur = { s.cur with status := .halted } ∧
        (t.die d).tctl[k].frozen = true ∧ t.mem = s.mem ∧ t.others = s.others) ∧
      (∀ u, u = (let released := releasedAt record.1 5
          if readX s.cur f.b = 0 then answerRid released d (listBits record.2 47 32) false
          else if readX s.cur f.b = 1 then answerRid released d (listBits record.2 47 32) true else released) →
        exec (.fansw f) s = .next { u with cur := retire (acquired u) }) ∧
      (queueReads (s.queue q) = true → judged ≠ .unwritten → answers (.qhandPacket f) handed
        (if (handed.queue q).st = .malformed then BitVec.ofNat 64 (2 + (handed.queue q).err.toNat * 256)
          else if (handed.queue q).full = true then 1 else 0)) ∧
      (queueReads (s.queue q) = true → judged = .unwritten → exec (.qhandPacket f) s = .next { handed with
        freeCtr := handed.freeCtr + 1
        cur := retire (writeX handed.cur f.d (Config.deviceRead handed.freeCtr 0)) }) ∧
      (queueReads (s.queue q) = false → exec (.qhandPacket f) s = .next { s with
        freeCtr := s.freeCtr + 1
        cur := retire (writeX s.cur f.d (Config.deviceRead s.freeCtr 0)) }) ∧
      (∀ id, node = some id → ∀ u, u = slot.1.onDie d (fun x => admitNode (stageNs slot.1) x id) → answers (.qhandNode f) u
        (match (u.die d).findNode id with
          | some n => if n.st = .pending ∧ n.preds = 0 ∧ n.join = false ∧ poolFree (u.die d) = 0 then 1 else 0
          | none => 0)) ∧
      (node = none → exec (.qhandNode f) s = .next { slot.1 with
        freeCtr := slot.1.freeCtr + 1
        cur := retire (writeX slot.1.cur f.d (Config.deviceRead slot.1.freeCtr 0)) })

/-- What happens to a warp between its instructions (R28, R32 to R38, R40, R151, R153, R158 to R164, R167, R170, R221, R224, R246,
R247). Returning data lands in the registers, for a roving warp in its checkpoint, which starts to restore when nothing its stalled
instruction names is owed any longer; an uncorrectable sector marks the registers it feeds, and freezes the warp at a load that ran
as a replay. A warp stalled on a load that missed the system cache roves from its checkpoint, ends at 1,024 instructions and is
restored 8 clocks after its restore began. A wait ends at its deadline with 1, a sleep with the time it is late, either with
MISSED_PROMISE at a promise. A tick raises TC and the clocks of its die's warps that do not rove. The oldest update of a warp to a
knot reaches it. A cluster stuck for 65,536 clocks freezes with DEADLOCK. Log entries 15 and 17 name the readings of roving and of
waits. -/
def Obligations.WarpEvents : Prop :=
  ∀ (s : State),
    (∀ who, s.cur.who = who → s.cur.status ≠ .exited →
      (∀ (n : Nat) (p : Pending), s.cur.pend[n]? = some p →
        let w := { s.cur with pend := s.cur.pend.eraseIdx n }
        let returns := fun (bad : Option Nat) (w' : Warp) => ∃ u, CachesOnly s u ∧ exec (.loadDataReturn who n bad) s = .next { u with cur := w' }
        ((∀ q ∈ p.sectors, ErrSite.sector q.1 ∉ s.softErrs) →
          (s.cur.rove = none → returns none (applyPending w p)) ∧
          ∀ r, s.cur.rove = some r →
            let c := applyPending { w with x := r.x, m := r.m } p
            let r' := { r with x := c.x, m := c.m }
            let w' := { w with v := c.v, rove := some r' }
            let wakes := r.phase ≠ .restore ∧ ∀ q ∈ r.needs, q ∉ owedRegs w'
            (¬ wakes → returns none w') ∧
            (wakes → returns none { w' with
              lastEnd := if r.phase = .rove then 0 else s.cur.lastEnd
              lastLen := if r.phase = .rove then BitVec.ofNat 12 (min r.count 4095) else s.cur.lastLen
              rove := some { r' with phase := .restore, entered := (s.die (agentDie who)).clock } })) ∧
        ∀ sec, sec ∈ p.sectors.map Prod.fst →
          (p.replay = false → ∃ w', returns (some sec) w' ∧
            (∀ (k : Nat) (q : RegRef), (owedList p)[k]? = some q → (sec, k) ∈ p.sectors → ∃ lost, (q, lost) ∈ w'.poison) ∧
            (s.cur.rove = none → w' = { applyPending w (goodPart p (badSectors s p (some sec))) with poison := w'.poison })) ∧
          (p.replay = true → s.softErrs = [] → isThread who = false → ∃ t, exec (.loadDataReturn who n (some sec)) s = .next t ∧
            t.cur.status = .frozen .violation ∧ t.cur.pc = p.pc ∧ t.cur.epc = p.pc ∧ t.cur.cause = 0x8000000000000015 ∧
            t.cur.tval = BitVec.ofNat 64 (32 * sec) ∧ t.cur.rove = none ∧ t.mem = s.mem)) ∧
      (∀ i, (fetchInstr s).2 = .instr i → mayRove s i = true → ∃ u episodes r, CachesOnly s u ∧
        exec (.roveEnter who) s = .next { u with cur := { s.cur with episodes := episodes, rove := some r } } ∧
        (∃ p ∈ s.cur.pend, p.missed = true ∧ meets (owedBy p) (touched i) = true) ∧ s.cur.roveOff = false ∧ s.cur.rove = none ∧
        episodes.toNat = min (s.cur.episodes.toNat + 1) 0xFFFFFF ∧ r.phase = .rove ∧ r.needs = touched i ∧ r.x = s.cur.x ∧ r.m = s.cur.m ∧
        r.cb = s.cur.cb ∧ r.vl = s.cur.vl ∧ r.split = s.cur.split ∧ r.mapping = s.cur.mapping ∧ r.pc = s.cur.pc ∧ r.inv = owedRegs s.cur ∧
        r.minv = [] ∧ r.shadow = [] ∧ r.stores = [] ∧ r.overflow = false ∧ r.count = 0) ∧
      (∀ r, s.cur.rove = some r →
        (r.phase = .rove → 1024 ≤ r.count → ∃ t, exec (.roveInstructionLimit who) s = .next t ∧
          t.cur = { s.cur with
            lastEnd := 1
            lastLen := BitVec.ofNat 12 (min r.count 4095)
            rove := some { r with phase := .ended } } ∧ { t with cur := s.cur, others := s.others } = s) ∧
        (r.phase = .restore → r.entered + 8 ≤ (s.die (agentDie who)).clock → ∃ t, exec (.roveRestoreDone who) s = .next t ∧
          t.cur = { s.cur with
            x := r.x
            m := r.m
            cb := r.cb
            vl := r.vl
            split := r.split
            mapping := r.mapping
            pc := r.pc
            wclk := max s.cur.wclk (s.die (agentDie who)).tc
            rove := none } ∧ { t with cur := s.cur, others := s.others } = s)) ∧
      (∀ dst dl, (∃ k : KnotWait, s.cur.status = .knotWait k ∧ k.dst = dst ∧ k.deadline = dl) ∨ (∃ h, s.cur.status = .taskWait dst h dl) →
        deadlinePassed s dl →
        (promisesAt s.cur dl = [] → exec (.deadlineReached who) s = becomes s (retire (writeX { s.cur with karrw := karrwDone s.cur } dst 1))) ∧
        ∀ q rest, promisesAt s.cur dl = q :: rest → exec (.deadlineReached who) s = .next (raiseTrap { s with cur := { s.cur with status := .running } } 4 q dl)) ∧
      (∀ dst dl, s.cur.status = .sleepUntil dst dl → dl.toNat ≤ (s.stage.sec * 1000000000 + s.stage.nsec) % 2 ^ 64 →
        (promisesAt s.cur dl = [] → exec (.deadlineReached who) s =
          becomes s (retire (writeX s.cur dst (BitVec.ofNat 64 ((s.stage.sec * 1000000000 + s.stage.nsec) % 2 ^ 64 - dl.toNat))))) ∧
        ∀ q rest, promisesAt s.cur dl = q :: rest → exec (.deadlineReached who) s = .next (raiseTrap { s with cur := { s.cur with status := .running } } 4 q dl))) ∧
    (∀ n bad, AtAnother (fun who => .loadDataReturn who n bad) s) ∧ AtAnother .roveEnter s ∧ AtAnother .deadlineReached s ∧
    (∀ d : Fin 2, (s.die d).tc < (s.die d).clock / 1024 → exec (.logicalTick d) s =
      .next ((s.onDie d fun x => { x with tc := x.tc + 1 }).mapAgents
        (fun w => !(isThread w.who) && agentDie w.who == d && w.status != .exited && w.rove.isNone)
        fun w => { w with wclk := max (w.wclk + 1) ((s.die d).tc + 1) })) ∧
    (∀ n u, s.knotQ[n]? = some u → (∀ o ∈ s.knotQ.take n, ¬(o.home = u.home ∧ o.src.isSome ∧ o.src = u.src)) →
      (∀ id k, u.home = .team id k → (s.findTeam id).isSome = true) → (∀ k, u.home = .far k → farOwned s k u.ctx = true) →
      ∃ t, exec (.knotUpdate n) s = .next t ∧ t.knotQ = s.knotQ.eraseIdx n ∧ t.mem = s.mem ∧
        (∀ a err, u.op = .arrive a err → getKnot t u.home = arrived s u a err (getKnot s u.home)) ∧
        ∀ c sc v ph, u.op = .config c sc v ph → getKnot t u.home = configured c sc v ph (getKnot s u.home)) ∧
    ∀ (d : Fin 2) (cluster : Nat), 65536 ≤ tblGetD (s.die d).stalls cluster 0 → clusterStuck s cluster = true →
      ∃ t, exec (.deadlockDetect d cluster) s = .next t ∧ t.mem = s.mem ∧
        (t.teams = s.teams.map fun m => if m.cluster = cluster then { m with stopped := true } else m) ∧
        (∀ w ∈ t.agents, isThread w.who = false → w.status = .exited ∨ w.status = .frozen .violation ∨
          ∃ o ∈ s.agents, w = { o with v := w.v } ∧ (s.findTeam w.team).map (fun m => m.cluster) ≠ some cluster) ∧
        ∀ o ∈ s.agents, isThread o.who = false → (s.findTeam o.team).map (fun m => m.cluster) = some cluster → ∀ k, o.status = .knotWait k →
          ∃ w ∈ t.agents, w.who = o.who ∧ w.pc = o.pc ∧ w.epc = o.pc ∧ w.cause = 0x8000000000000013 ∧ w.tval = BitVec.ofNat 64 k.idx

/-- The events of engine commands complete: commands start, end and stop (R172 to R174, R177, R180, R183, R189, R192, R429). A copy starts when it is its die's next,
one of extent 0 ending at once; a matrix command starts when its wait is satisfied and its queue lets it, a BSHARED one with its
set, and one without a step ends as soon as its wait is satisfied; a stage copy starts when its wait is satisfied. A copy whose
elements all move ends, as do a matrix command or set whose steps
are made and a stage copy whose flits have left on every link it uses, its promise given back; a copy stopped at an element pauses
on the record of its fault, and a command that reads an uncorrectable error freezes on its notice, a member of a set stalling the
others. The order in which copies start, and that a stopped record is retried, is the model's reading (log entry 31); that an event
whose conditions do not hold leaves the state as it is, log entry 29. -/
def Obligations.CommandEvents : Prop :=
  ∀ (s : State) (n : Nat) (c : Cmd), s.findCmd n = some c →
    let runs := exec (.commandStart n) s = .next (s.onCmd n fun x => { x with st := .running })
    let own := c.kind = .copy
    let freezes := fun (i : Instr) (u : State) (c' : Cmd) (site : ErrSite) => ∃ t r, exec i s = .next t ∧ t.mem = u.mem ∧
      t.cmds = u.cmds.map (fun x => if x.id = c'.id then { c' with st := .frozen } else x) ∧
      (t.die c'.d).spoolQ = (u.die c'.d).spoolQ ++ [r] ∧ r.kind = 0x10 ∧ r.cause = 0x8000000000000015 ∧ r.tval = siteTval site
    (isCopyKind c = true → nextCopy s c.d = some c →
      (cmdTotal c ≠ 0 → runs) ∧
      (cmdTotal c = 0 → ∃ t, exec (.commandStart n) s = .next t ∧ t = endCmd s n 0 ∧ (own → Ended s t c 0))) ∧
    (∀ p, c.kind = .matrix p → c.st = .waiting → c.ready = true → cmdMayRun s c = true → mxShared c.record = false →
      (∀ h, mxHead (mxQueue s c.d c.core p) = some h → mxShared h.record = false) →
      (0 ∈ matrixTrips c.record → exec (.commandStart n) s = .next (endCmd s n 0)) ∧
      (0 ∉ matrixTrips c.record → (∀ o ∈ mxQueue s c.d c.core p, o.st ≠ .running ∧ o.st ≠ .frozen) →
        (mxQueue s c.d c.core p).find? (mxWaited s) = some c → runs)) ∧
    (∀ p, c.kind = .matrix p → (∀ o ∈ mxQueue s c.d c.core p, o.st ≠ .running ∧ o.st ≠ .frozen) → c.st = .waiting → c.ready = true →
      cmdMayRun s c = true → (mxQueue s c.d c.core p).find? (mxWaited s) = some c →
      (mxShared c.record = true → mxHead (mxQueue s c.d c.core p) = some c →
        (sharedSet s c = none → exec (.commandStart n) s = .next s) ∧
        ∀ l, sharedSet s c = some l → exec (.commandStart n) s = .next { s with
          cmds := s.cmds.map fun x => if x.id ∈ l.map (fun y => y.id) then { x with st := .running } else x })) ∧
    (∀ stream, c.kind = .stage stream → c.st = .waiting → c.ready = true → cmdMayRun s c = true →
      exec (.commandStart n) s = .next (s.onCmd n fun x => { x with
        st := .running
        since := max x.since ((s.stage.sec * 1000000000 + s.stage.nsec) % 2 ^ 64) })) ∧
    (isCopyKind c = true → c.st = .running → cmdMayRun s c = true → ∀ u c',
      (moveAll s c = (u, c', none) → exec (.copyElementFault n) s = .next s ∧
        ∃ t, exec (.copyComplete n) s = .next t ∧ ∀ v, v = u.onCmd n (fun _ => c') → t = endCmd v n c'.err ∧
          (v.findCmd n = some c' → c'.kind = .copy → Ended v t c' c'.err)) ∧
      (∀ acc va reason, moveAll s c = (u, c', some (.fault acc va reason)) → exec (.copyComplete n) s = .next s ∧
        ∃ t r, exec (.copyElementFault n) s = .next t ∧ t.mem = u.mem ∧
        t.cmds = u.cmds.map (fun x => if x.id = c'.id then { c' with st := .paused, token := u.nextId, failErr := stopErr acc reason } else x) ∧
        (t.die c'.d).spoolQ = (u.die c'.d).spoolQ ++ [r] ∧ r.kind = 1 ∧ r.token = u.nextId ∧ r.va = va ∧ r.reason = reason ∧ r.access = accessCode acc ∧ r.ctx = c'.ctx) ∧
      ∀ site, moveAll s c = (u, c', some (.bad site)) → exec (.copyComplete n) s = .next s ∧ freezes (.copyElementFault n) u c' site) ∧
    (∀ p, c.kind = .matrix p → c.st = .running → cmdMayRun s c = true →
      let l := runningSet s c
      let lead := leader l c
      (mxShared c.record = false → l = [c] ∧ lead = c) ∧
      ((∃ o ∈ l, o.st ≠ .running) → exec (.matrixComplete n) s = .next s) ∧
      ((∀ o ∈ l, o.st = .running) → ∀ u ms stop,
        mxSteps lead ((matrixTrips lead.record).foldl (· * ·) 1 - lead.next) lead.next (chargeTo s none) none (l.map fun o => ⟨o, none⟩) = (u, ms, stop) →
        ∃ counted, CachesOnly u counted ∧
          let stored := ms.foldl (fun s m => s.onCmd m.cmd.id fun _ => m.cmd) counted
          (stop = none → exec (.matrixComplete n) s = .next (ms.foldl (fun s m => endCmd s m.cmd.id 0) stored)) ∧
          ∀ id site o, stop = some (id, site) → stored.findCmd id = some o → freezes (.matrixComplete n) stored o site)) ∧
    (∀ stream, c.kind = .stage stream → c.st = .running →
      (streamGranted s stream c.ctx = true → ∀ l < 8, usesLink s stream l = true → stageFlits c.record ≤ tblGetD c.sent l 0) →
      (streamGranted s stream c.ctx = false → ∀ q ∈ c.sent, stageFlits c.record ≤ tblGetD c.sent q.1 0) →
      ∃ t, exec (.stageCopyComplete n) s = .next t ∧ t = endCmd s n 0 ∧ t.cmds = s.cmds.filter (fun x => x.id != n) ∧ t.mem = s.mem ∧
        ∀ w ∈ t.agents, isWarp ⟨c.team, c.widx⟩ w = true → ∀ q ∈ w.promises, ¬(q.1 = stream ∧ q.2.2 = c.copyNo))

/-- The swift's events complete: it places and resumes the first of its candidates that has room, in rank order, and the queues' counters change
(R240, R242, R249 to R251, R349): TEAM_PLACE acts where that candidate is a node's next team, whose new teams are that node's, and
TEAM_RESUME where it is the named team's cluster, none of whose teams resumed is saved any longer; with room for none nothing changes. A
team retires when no warp and no command of it is left and no arrival of a command is on its way: it is ended, its engines and stack
regions are free, its node counts it and carries its clock (R236, R436). A team the swift wants saved has its cluster saved, the warps
out of their slots and its commands' clocks raised (R220, R249, R370); a team it does not want saved stays. For the first class-0 node
passed over that pre-emption can help, the clusters saved make room for it and no other choice of clusters that does has fewer teams,
nor as many with fewer of class 2 (R369). Log entries 36 and 42 name the readings, log entry 29 that an event whose conditions do not
hold leaves the state as it is. -/
def Obligations.TeamEvents : Prop :=
  ∀ (s : State) (d : Fin 2),
    let order := rankAll (s.die d) (candidates s d)
    let credited := fun (u : State) (r : Ranked) => u.onDie d fun x => creditQueues x (candidates s d) r
    (∀ before r after, order = before ++ r :: after → (∀ x ∈ before, tryPlace s d x.cand = none) →
      (∀ node u, r.cand = .fresh node → placeNode s d node = some u →
        exec (.teamPlace d) s = .next (credited u r) ∧ s.teams.length ≤ u.teams.length ∧
        (∀ m ∈ u.teams.drop s.teams.length, m.node = node ∧ m.d = d ∧ m.home = d) ∧
        ∀ tm, s.findTeam tm.id = some tm → tm.home = d → exec (.teamResume tm.id) s = .next s) ∧
      ∀ node tm u, r.cand = .saved node tm.cluster → s.findTeam tm.id = some tm → tm.home = d → resumeCluster s d node tm.cluster = some u →
        exec (.teamResume tm.id) s = .next (credited u r) ∧ exec (.teamPlace d) s = .next s ∧
        (savedCluster s tm.cluster = [tm] → tm.phase = .saved → tm.crank = 0 → tm.kernel.cw * tm.kernel.ch = 1 →
          ∀ x ∈ u.teams, x.id = tm.id → x.saved = [] ∧ x.phase ≠ .saved)) ∧
    ((∀ x ∈ order, tryPlace s d x.cand = none) → exec (.teamPlace d) s = .next s ∧
      ∀ tm, s.findTeam tm.id = some tm → tm.home = d → exec (.teamResume tm.id) s = .next s) ∧
    (∀ tm, s.findTeam tm.id = some tm →
      (tm.phase ≠ .saved → tm.phase ≠ .ended → s.teamWarps tm.id = [] → tm.saved = [] → (∀ x ∈ s.cmds, x.team = tm.id → ∃ q l, x.kind = .queue q l) →
        (∀ u ∈ s.knotQ, u.cmdTeam ≠ some tm.id) →
        ∃ v, exec (.teamRetire tm.id) s = .next (dropCluster (nodeProgress v tm.home tm.node) tm.cluster) ∧ v.mem = s.mem ∧ v.cmds = s.cmds ∧
          v.teams = s.teams.map (fun x => if x.id = tm.id then { x with phase := .ended, regions := [], inReserve := false } else x) ∧
          v.others = s.others.filter (fun w => isThread w.who || w.team != tm.id) ∧
          (v.coreAt tm.d tm.core).engines = (s.coreAt tm.d tm.core).engines.filter (fun e => e.2.1 != tm.id) ∧
          (v.die tm.home).regions = (s.die tm.home).regions.filter (fun r => !(r.1 == tm.ctx && tm.regions.contains r.2)) ∧
          (v.die tm.home).nodes = (s.die tm.home).nodes.map fun n =>
            if n.id = tm.node then { n with ended := n.ended + 1, tts := max n.tts tm.tts } else n) ∧
      ((s.teamWarps tm.id ≠ [] ∨ (∃ x ∈ s.cmds, x.team = tm.id ∧ ∀ q l, x.kind ≠ .queue q l) ∨ ∃ u ∈ s.knotQ, u.cmdTeam = some tm.id) →
        exec (.teamRetire tm.id) s = .next s) ∧
      (wantsSaved s tm = false → exec (.preemptRequest tm.id) s = .next s) ∧
      (wantsSaved s tm = true →
        let l := clusterOf s tm.cluster
        let mine := fun (k : Nat) => l.any fun m => m.id == k
        ∃ t, exec (.preemptRequest tm.id) s = .next t ∧ t.mem = s.mem ∧
          t.cmds = s.cmds.map (fun (x : Cmd) => if mine x.team then { x with time := max x.time x.maxTs } else x) ∧
          (∀ x ∈ t.teams, mine x.id = true → x.phase = .saved) ∧
          (∀ w ∈ t.others, isThread w.who = true ∨ mine w.team = false) ∧
          (isThread t.cur.who = false → mine t.cur.team = true → t.cur.status = .exited) ∧
          (((s.agents.filter fun w => w.status != .exited).map (·.who)).Nodup →
            ∀ m ∈ l, (s.teams.filter fun x => x.id == m.id) = [m] →
              ∃ x ∈ t.teams, x.id = m.id ∧ x.saved.length = (s.teamWarps m.id).length))) ∧
    ((∀ m ∈ (s.die d).nodes, passedOver s d m = false) → exec (.preemptClass0 d) s = .next s) ∧
    ((∀ m ∈ (s.die d).nodes.filter (passedOver s d), preemptChoice s d m = none) → exec (.preemptClass0 d) s = .next s) ∧
    ∀ before m after v, (s.die d).nodes.filter (passedOver s d) = before ++ m :: after → (∀ x ∈ before, preemptChoice s d x = none) →
      preemptChoice s d m = some v →
      exec (.preemptClass0 d) s = .next (preemptClusters s v) ∧ (placeNode (preemptClusters s v) d m.id).isSome = true ∧
        ∃ z, z.Sublist (preemptable s d m.part) ∧ z ≠ [] ∧ v = z.map (·.1) ∧
          ∀ y, y.Sublist (preemptable s d m.part) → y ≠ [] → (placeNode (preemptClusters s (y.map (·.1))) d m.id).isSome = true →
            let teams := fun l : List (Nat × Nat × Nat) => (l.map (·.2.2)).sum
            let ofClass2 := fun l : List (Nat × Nat × Nat) => teams (l.filter (·.2.1 == 2))
            teams z < teams y ∨ teams z = teams y ∧ ofClass2 z ≤ ofClass2 y

/-- Packets that launch nothing (R342, R344, R350, R359). A NOP completes and the queue reads on, or waits for a pool slot its nodes
lack (R351). SET_ENERGY sets an account, full and refilled next at the next multiple of its period. A
barrier, a signal, a TIMESTAMP and a SET_CONTEXT hold the queue until every earlier packet has completed; then the signal merges
its value into the fence word, the TIMESTAMP writes its two dwords, and SET_CONTEXT loads its record, or stops the queue with
ERR 5. WAIT_FENCE holds the queue until its word satisfies. Log entry 38 names the readings. -/
def Obligations.QueuePackets : Prop :=
  ∀ (s : State) (q : QueueRef), Reading (s.queue q) →
    let idle := (s.queue q).open_ = []
    let holds := fun (i : Instr) (p : Packet) => ¬ idle → exec i s = .next (waitsOn s q (.packet p))
    let sp : Space := ⟨q.d, (s.queue q).ctx, ctxPpn s q.d (s.queue q).ctx⟩
    let pt : Party := ⟨q.d, none, none, (s.die q.d).xts, ctxLease s q.d (s.queue q).ctx, []⟩
    (∀ v, Reading (v.queue q) → freeQueue v q = readsOn v q) ∧
    exec (.nopPacket q) s = .next (readsOn s q) ∧
    (∀ cap period, exec (.setEnergy q cap period) s = .next (readsOn (s.onDie q.d fun x => { x with
      ecfg := x.ecfg.set (s.queue q).part.toFin (BitVec.ofNat 64 (cap * 1048576 + period))
      rem := x.rem.set (s.queue q).part.toFin cap
      refills := x.refills.set (s.queue q).part.toFin ((s.stage.sec * 1000000000 + s.stage.nsec) % 2 ^ 64 / (1000 * (period % 1048576))) }) q)) ∧
    (idle → exec (.queueBarrier q) s = .next (readsOn s q)) ∧ holds (.queueBarrier q) .barrier ∧
    (∀ addr value, holds (.signalFence q addr value) (.signalFence addr value) ∧
      (idle → addr ≠ 0 → ∀ u ph, Machine.translate { s with nextId := s.nextId + 1 } q.d (s.queue q).ctx sp.ppn (BitVec.ofNat 64 addr) .atomic = (u, .ok ph) → ph.kind ≠ .io →
        ∃ v, Rewrites u v (s.mem.write ph.pa (toBytes (signalled (s.mem.num ph.pa 8) value false) 8)) ∧ exec (.signalFence q addr value) s = .next (freeQueue v q))) ∧
    (∀ addr, holds (.timestamp q addr) (.timestamp addr) ∧
      (idle → ∀ u ph, Machine.translate s q.d sp.ctx sp.ppn (BitVec.ofNat 64 addr) .write = (u, .ok ph) → inPool ph.pa = true → inPool (ph.pa + 8) = true →
        ∃ v, Rewrites u v ((s.mem.write ph.pa (toBytes ((s.stage.sec * 1000000000 + s.stage.nsec) % 2 ^ 64) 8)).write (ph.pa + 8) (toBytes (s.die q.d).clock 8)) ∧
          exec (.timestamp q addr) s = .next (freeQueue v q))) ∧
    (∀ addr cid, holds (.setContext q addr cid) (.setContext addr cid) ∧
      (idle → ∀ u bs, physRead s q.d addr 256 = (u, bs) →
        (ctxRecordBad addr (ofBytes bs) = true → ∃ t, exec (.setContext q addr cid) s = .next t ∧ Stops u q 5 t) ∧
        (ctxRecordBad addr (ofBytes bs) = false → ∀ v, (readGroups u q.d (bits (ofBytes bs) 255 192) = (v, none) → ∃ t, exec (.setContext q addr cid) s = .next t ∧ Stops v q 5 t) ∧
          ∀ g, readGroups u q.d (bits (ofBytes bs) 255 192) = (v, some g) → exec (.setContext q addr cid) s = .next (freeQueue
            ((v.onDie q.d fun x => { x with contexts := tblSet x.contexts cid (parseCtx (ofBytes bs) g) }).onQueue q fun x => { x with
              ctx := cid
              ctxSet := true }) q)))) ∧
    ∀ addr value dep,
      (∀ u bs ts, readDwords s sp pt (BitVec.ofNat 64 addr) 1 = (u, .ok (bs, ts)) →
        let word := ofBytes bs
        let met := word.testBit 63 = true ∨ value ≤ word % 2 ^ 63
        (¬ met → exec (.waitFence q addr value dep) s = .next (u.onQueue q fun x => restState { x with hold := some (.fence addr value dep) })) ∧
        (met → ¬(dep = true ∧ word.testBit 63 = true) → exec (.waitFence q addr value dep) s = .next (freeQueue u q)) ∧
        (met → dep = true → word.testBit 63 = true → exec (.waitFence q addr value dep) s = .next (abortQueue (freeQueue u q) q))) ∧
      (∀ u va reason, readDwords s sp pt (BitVec.ofNat 64 addr) 1 = (u, .error (va, reason)) → ∃ t r, exec (.waitFence q addr value dep) s = .next t ∧ t.mem = s.mem ∧
        (t.queue q).hold = some (.fence addr value dep) ∧ (t.die q.d).spoolQ = (u.die q.d).spoolQ ++ [r] ∧ r.kind = 1 ∧ r.access = 0 ∧ r.agent = 4 ∧ r.va = va ∧
        r.reason = reason ∧ r.ctx = (s.queue q).ctx ∧ r.master = .queue q) ∧
      ((s.queue q).hold = some (.fence addr value dep) → awaitsAnswer s q = false → exec (.waitFenceSatisfied q) s = exec (.waitFence q addr value dep) s)

/-- Packets that launch (R287, R342, R343, R345 to R348). A COPY becomes a command of the die's copy engines. A grid is judged by
its kernel descriptor: ERR 2 for a malformed one or a team count it does not divide, ERR 4 for one that can never be placed and for a
raster state block that is refused, and else a node of it enters the swift. A graph whose raster state block is refused stops with ERR
4; it is judged by its node table and kernels, ERR 3, or enters with all its nodes. A read that fails, of the kernel, the node table, the
tensors, the kernels of the nodes or the raster state block, posts a record and holds the queue. Log entries 27 and 38 name the
readings. -/
def Obligations.LaunchPackets : Prop :=
  ∀ (s : State) (q : QueueRef),
    let holdsOn := fun (i : Instr) (p : Packet) (u : State) (va : Word) (reason : Nat) => ∃ t r, exec i s = .next t ∧
      (t.queue q).hold = some (.packet p) ∧ (t.die q.d).spoolQ = (u.die q.d).spoolQ ++ [r] ∧ r.kind = 1 ∧ r.va = va ∧ r.reason = reason ∧
      r.access = 0 ∧ r.agent = 4 ∧ r.master = .queue q
    (∀ p : CopyPacket, ∃ t c, exec (.copy q p) s = .next t ∧ t.mem = s.mem ∧ t.cmds = s.cmds ++ [c] ∧ c.kind = .queue q s.nextId ∧ c.d = q.d ∧
      c.record = BitVec.ofNat 512 (p.src * 2 ^ 64 + p.dst * 2 ^ 128 + p.bytes * 2 ^ 192 + p.qos * 2 ^ 232) ∧ c.ctx = (s.queue q).ctx ∧ c.st = .waiting ∧
      c.ready = true ∧ Opens s t q ⟨s.nextId, q, (s.queue q).head - 1, false, p.fence, p.fval, [], false⟩) ∧
    (∀ p : GridPacket,
      (∀ u k b, gridReads q p s = (u, .ok (k, b)) →
        let refused := ∃ r, b = some r ∧ RefusedRaster r
        let bad := kernelMalformed k = true ∨ p.teams % (k.cw * k.ch) ≠ 0
        (bad → ∃ t, exec (.launchGrid q p) s = .next t ∧ Stops u q 2 t) ∧
        (¬ bad → kernelNever u q k = true ∨ refused → ∃ t, exec (.launchGrid q p) s = .next t ∧ Stops u q 4 t) ∧
        (¬ bad → kernelNever u q k = false → ¬ refused → ∃ t m, exec (.launchGrid q p) s = .next t ∧ t.mem = u.mem ∧ m ∈ (t.die q.d).nodes ∧ m.id = u.nextId ∧
          m.origin = .launch (u.nextId + 1) 0 ∧ m.q = q ∧ m.cls = p.cls ∧ m.deadline = p.deadline ∧ m.args = p.args ∧ m.ctx = (u.queue q).ctx ∧
          m.part = (u.queue q).part.toNat ∧ m.variants = [⟨k, p.teams, 0, 0⟩] ∧ m.preds = 0 ∧ (m.st = .pending ∨ m.st = .ready) ∧
          m.rsb = b.map rasterOf ∧
          t.launches = u.launches ++ [⟨u.nextId + 1, q, (u.queue q).head - 1, false, p.fence, p.fval, [u.nextId], false⟩])) ∧
      ∀ u va reason, gridReads q p s = (u, .error (va, reason)) → holdsOn (.launchGrid q p) (.grid p) u va reason) ∧
    ∀ p : GraphPacket, (∀ u va reason, graphReads q p s = (u, .error (va, reason)) → holdsOn (.launchGraph q p) (.graph p) u va reason) ∧
     ∀ u3 es ts ks b, graphReads q p s = (u3, .ok (es, ts, ks, b)) →
      let l := dealKernels es ks
      let refused := ∃ r, b = some r ∧ RefusedRaster r
      let bad := tableBad es p.tensors = true ∨ ∃ e ∈ l, ∃ v ∈ entryVariants e.1 e.2, variantBad u3 q v.teams v.kernel = true
      (refused → ∃ t, exec (.launchGraph q p) s = .next t ∧ Stops u3 q 4 t) ∧
      (¬ refused → bad → ∃ t, exec (.launchGraph q p) s = .next t ∧ Stops u3 q 3 t) ∧
      (¬ refused → ¬ bad → ∃ v nodes, exec (.launchGraph q p) s = .next (finishNodes v q.d ((nodes.filter fun m : Node => m.join && m.preds == 0).map fun m : Node => (m.id, false))) ∧
        v.mem = u3.mem ∧ (v.die q.d).nodes = (u3.die q.d).nodes ++ nodes ∧ nodes.length = l.length ∧
        v.launches = u3.launches ++ [⟨u3.nextId + l.length, q, (u3.queue q).head - 1, true, p.fence, p.fval, (List.range l.length).map (u3.nextId + ·), false⟩] ∧
        ∀ i e m, l[i]? = some e → nodes[i]? = some m → m.id = u3.nextId + i ∧ m.origin = .launch (u3.nextId + l.length) i ∧ m.q = q ∧
          (m.join = true ↔ ntKind e.1 = 2) ∧ m.cls = bits e.1 9 8 ∧ m.args = bits e.1 255 192 ∧ m.deadline = bits e.1 127 64 ∧ m.preds = ntNpred e.1 ∧
          m.succ = (ntSucc e.1).map (u3.nextId + ·) ∧ m.variants = entryVariants e.1 e.2 ∧ m.fence = bits e.1 191 128 ∧ m.fval = 1 ∧ m.st = .pending ∧
          m.rsb = b.map rasterOf ∧ (ntNtile e.1 = 0 → m.tile = none) ∧
          (ntNtile e.1 ≠ 0 → m.tile = some (tileAddr (ts.getD (tiledEntries p (es.take i)).length 0) (ntTile e.1 0))))

/-- Display heads (R342, R411 to R413). A FLIP waits for earlier packets and for room, latches later, or completes at once at a
head that is off; setting HEN is refused or begins at the least frame not before now, and clearing it ends the scan and completes the
FLIPs that wait; a frame that is due takes the FLIPs that
latch, shows the one started last, completes them, and has its first active line next to scan. Log entry 39 names the readings, log
entry 29 that a frame that is not due leaves the state as it is. -/
def Obligations.DisplayHeads : Prop :=
  ∀ (s : State) (d h : Fin 2),
    let x := s.head d h
    (∀ q p, Reading (s.queue q) → q.d = d → p.dhead = h →
      ((s.queue q).open_ ≠ [] ∨ x.cfg.getLsbD 31 = true ∧ 4 ≤ x.flips.length → exec (.flip q p) s = .next (waitsOn s q (.packet (.flip p)))) ∧
      ((s.queue q).open_ = [] → x.cfg.getLsbD 31 = true → x.flips.length < 4 → ∃ t, exec (.flip q p) s = .next t ∧ t.mem = s.mem ∧
        Opens s t q ⟨s.nextId, q, (s.queue q).head - 1, false, p.fence, p.fval, [], false⟩ ∧ t.head d h = { x with
          flips := x.flips ++ [{ launch := s.nextId, image := p.image, release := p.release, start := (s.stage.sec * 1000000000 + s.stage.nsec) % 2 ^ 64 }] }) ∧
      ((s.queue q).open_ = [] → x.cfg.getLsbD 31 = false → ∃ v, Opens s v q ⟨s.nextId, q, (s.queue q).head - 1, false, p.fence, p.fval, [], false⟩ ∧
        v.mem = s.mem ∧ exec (.flip q p) s = .next (completeLaunch v s.nextId false (v.die d).xts))) ∧
    (∀ v : Word, x.cfg.getLsbD 31 = false →
      let y := { x with cfg := v &&& 0xFFFFFFFF80FF00F0#64 }
      let off := { y with cfg := v &&& 0xFFFFFFFF00FF00F0#64 }
      (v.getLsbD 31 = false → exec (.headEnable d h v) s = .next (s.onHead d h fun _ => { off with st := .off })) ∧
      (v.getLsbD 31 = true → headRefused y = true → exec (.headEnable d h v) s = .next (s.onHead d h fun _ => { off with st := .refused })) ∧
      (v.getLsbD 31 = true → headRefused y = false → ∃ k, LeastFrame y ((s.stage.sec * 1000000000 + s.stage.nsec) % 2 ^ 64) k ∧
        exec (.headEnable d h v) s = .next (s.onHead d h fun _ => { y with
          st := .on
          nextFrame := k }))) ∧
    (∀ v : Word, x.cfg.getLsbD 31 = true → (v.getLsbD 31 = true → exec (.headEnable d h v) s = .next s) ∧
      (v.getLsbD 31 = false → exec (.headEnable d h v) s = .next (x.flips.foldl (fun s f => completeLaunch s f.launch false 0) (s.onHead d h fun _ => { x with
        cfg := x.cfg &&& 0xFFFFFFFF7FFFFFFF#64
        st := .off
        line := none
        flips := [] })))) ∧
    (¬(x.st = .on ∧ frameTime x x.nextFrame ≤ (s.stage.sec * 1000000000 + s.stage.nsec) % 2 ^ 64) → exec (.frameStart d h) s = .next s) ∧
    (x.st = .on → frameTime x x.nextFrame ≤ (s.stage.sec * 1000000000 + s.stage.nsec) % 2 ^ 64 →
      let at_ := frameTime x x.nextFrame
      let latched := x.flips.filter fun f => decide (f.release ≤ at_ ∧ f.start + 20000 ≤ at_)
      ∃ v late, exec (.frameStart d h) s = .next (latched.foldl (fun s f => completeLaunch s f.launch false (s.die d).xts) v) ∧
        v = s.onHead d h (fun _ => { x with
          frame := x.nextFrame
          nextFrame := x.nextFrame + 1
          flips := x.flips.filter fun f => !(decide (f.release ≤ at_ ∧ f.start + 20000 ≤ at_))
          late := late
          line := if (x.timing.extractLsb' 16 16).toNat = 0 then none else some 0
          flipped := x.flipped || !latched.isEmpty
          image := ((latched.getLast?).map fun f => BitVec.ofNat 64 f.image).getD x.image }) ∧ (latched = [] → late = x.late))

/-- A queue's registers and its teardown (R335, R337, R352, R354). A NOTIFY moves PUB forward or is ignored, and wakes the bound
threads, and the queue's thread looks at its slot again. EN set makes the queue IDLE at its published tail; EN cleared takes effect
in STATE 6 and 7. RESET_QUEUE of a queue in STATE 0, 6 or 7 only writes its fence, which stands in the packet's own context and
sequence; a DRAIN of any other waits for what has started, and stops a queue with nothing open at
once; an ABORT stops what has started. Log entry 38 names the readings. -/
def Obligations.QueueRegisters : Prop :=
  ∀ (s : State) (q : QueueRef),
    let x := s.queue q
    (∀ v : Word, let d := (v.setWidth 32 - x.pub).toNat
      ∃ t, exec (.queueNotify q v) s = .next t ∧ t.mem = s.mem ∧ Wakes s t q.d (fun c => c.bound && c.queue == q.q) 1 ∧
        (t.queue q).pub = (if 1 ≤ d ∧ d ≤ 2 ^ 31 - 1 then v.setWidth 32 else x.pub) ∧ (t.queue q).head = x.head ∧ (t.queue q).en = x.en ∧
        (t.queue q).hold = x.hold ∧ (t.queue q).open_ = x.open_ ∧ (t.queue q).unwritten = false) ∧
    (∀ v : Word, (v.getLsbD 24 = true → x.en = false → exec (.queueEnable q v) s = .next (s.onQueue q fun x => { configuredQueue x v with
        en := true
        head := x.pub
        err := 0
        st := .idle
        ctxSet := false
        hold := none
        unwritten := false })) ∧ (v.getLsbD 24 = false ∨ x.en = true → exec (.queueEnable q v) s = .next s)) ∧
    (∀ v : Word, (v.getLsbD 24 = true → exec (.queueDisable q v) s = .next s) ∧
      (v.getLsbD 24 = false → exec (.queueDisable q v) s = .next (s.onQueue q fun x => if x.en = true ∧ (x.st = .stopped ∨ x.st = .malformed) then
        { configuredQueue x v with
          en := false
          st := .disabled
          hold := none } else configuredQueue x v))) ∧
    ∀ (target : Fin 64) (addr value : Nat),
      let t : QueueRef := ⟨q.d, target⟩
      ∃ w, Wakes s w q.d (fun c => c.bound && c.queue == target) 8 ∧ w.mem = s.mem ∧ w.dies = s.dies ∧
        let u := freeQueue w q
        let y := u.queue t
        let off := y.st = .disabled ∨ y.st = .stopped ∨ y.st = .malformed
        let asked := u.onQueue t fun x => { x with resets := x.resets ++ [⟨q, (u.queue q).ctx, packetSeq u q, addr, value⟩] }
        let signals := signalWord u q (u.queue q).ctx (packetSeq u q) addr value false false (u.die q.d).xts
        (off → exec (.resetQueueDrain q target addr value) s = .next signals ∧ exec (.resetQueueAbort q target addr value) s = .next signals ∧
          (addr = 0 → signals = u)) ∧
        (¬ off → y.st ≠ .aborting → (y.open_ ≠ [] ∨ y.hold ≠ none) → exec (.resetQueueDrain q target addr value) s = .next (asked.onQueue t fun x => { x with st := .draining })) ∧
        (¬ off → y.open_ = [] → y.hold = none → y.resets = [] → addr = 0 → exec (.resetQueueDrain q target addr value) s = .next (u.onQueue t fun x => { x with st := .stopped })) ∧
        (¬ off → y.st = .aborting → exec (.resetQueueAbort q target addr value) s = .next asked) ∧
        (¬ off → y.st ≠ .aborting → exec (.resetQueueAbort q target addr value) s = .next (abortQueue asked t))

/-- What the distaff and the harts write, and a management frame (R9, R235, R335, R355, R366, R368, R378, R379, R391, R392, R397, R404,
R411, R419, R430, R433, R435). RESUME of a thread restarts one that is frozen or halted at its PC. A HOSTIRQ write joins its die's
queue, and a read takes the oldest value. An FKOWN write gives a far knot its reset state, its flip count and times kept, and tests its
waiters. A tail moves up to its head and no further. MCTL names a warp or a command: RESUME restarts a halted warp, one frozen by a
failed answer, or one frozen by a trap without a vector, and has a team frozen at its start read its argument block again; KILL ends
the warps and commands of the named team, kept or saved, whose node will end ABORTED, and aborts the task it launched. REG_WRITE, where a hart runs, stores to a
register that has no behaviour of its own, or does what the row of a register that has one does; a read-only or unassigned port stays. An IMSIC
write raises its identity. A management frame is answered with the dwords it names, or with OP 3. Log entries 23 and 40 name the
readings for threads and ports, log entry 57 the KARRW arrival that a resumed warp keeps, log entry 53 the low bits of a base that are dropped, and log entry 29 that a write or
an event whose conditions do not hold leaves the state as it is. -/
def Obligations.DistaffEvents : Prop :=
  ∀ (s : State) (d : Fin 2) (v : Word),
    let x := s.die d
    let byte := fun hi lo : Nat => field v.toNat hi lo
    (∀ th : Fin 64, let c := x.tctl[th]
      (c.frozen = true ∨ c.halted = true → exec (.threadResume d th) s = .next ((s.onDie d fun x => { x with tctl := x.tctl.set th { c with
        frozen := false
        halted := false } }).mapAgents (fun w => w.who == .thread d th) fun w => { w with status := .running })) ∧
      (c.frozen = false → c.halted = false → exec (.threadResume d th) s = .next s)) ∧
    exec (.hostirq d v) s = .next (withHirq s d fun l => l ++ [v.setWidth 32]) ∧
    exec (.hirqRead d) s = .next (withHirq s d fun l => l.drop 1) ∧
    (∀ k : Fin 2048, ∃ t, exec (.fkown d k v) s = .next t ∧ t.mem = s.mem ∧ t.knotQ = s.knotQ ∧ t.teams = s.teams ∧
      tblGet (t.die d).fkown k.val = some (BitVec.ofNat 16 (v.toNat % 8192 + if v.getLsbD 15 then 32768 else 0)) ∧
      let r := KnotRef.far (2048 * d.val + k.val)
      let fresh : Knot := { getKnot s r with
        err := false
        counter := false
        scope := 4
        phase := false
        expect := 1
        count := 0 }
      getKnot t r = fresh ∧ (∀ o, o ≠ r → getKnot t o = getKnot s o) ∧ t.agents = s.agents.map fun w => match w.status with
        | .knotWait k => if k.home = r ∧ waitHolds k.cond fresh = true then finishWait w k.dst fresh else w
        | _ => w) ∧
    exec (.sptailWrite d v) s = .next (s.onDie d fun x => { x with spTail := movedTail x.spTail x.spHead (v.setWidth 32) }) ∧
    exec (.eltailWrite d v) s = .next (s.onDie d fun x => { x with elTail := movedTail x.elTail x.elHead (v.setWidth 32) }) ∧
    (byte 1 0 ≠ 0 ∨ byte 47 44 ≠ 0 ∨ (∀ w, mctlWarp s v = some w → agentDie w.who ≠ d) → exec (.resume d v) s = .next s) ∧
    (∀ w, byte 1 0 = 0 → byte 47 44 = 0 → mctlWarp s v = some w → agentDie w.who = d →
      (w.status ≠ .frozen .startFailed → exec (.resume d v) s = .next (s.mapAgents (fun o => o.who == w.who && o.status != .exited) resumed)) ∧
      (∀ m, w.status = .frozen .startFailed → s.findTeam w.team = some m → ReadsArguments (.resume d v) s m
        (s.mapAgents (fun o => !(isThread o.who) && o.team == m.id && o.status == .frozen .startFailed) fun o => { o with status := .startWait }))) ∧
    (byte 1 0 ≠ 1 ∨ mctlTeam s v = none ∨ (∀ id m, mctlTeam s v = some id → s.findTeam id = some m → m.d ≠ d) → exec (.kill d v) s = .next s) ∧
    (∀ m, byte 1 0 = 1 → mctlTeam s v = some m.id → s.findTeam m.id = some m → m.d = d → m.killed = false → ∃ t, exec (.kill d v) s = .next t ∧
      Killed s t m) ∧
    (∀ pa, pa % 8 ≠ 0 → exec (.regWrite pa v) s = .next s) ∧
    (s.host.hart0 = false → s.host.harts = false → ∀ pa, exec (.regWrite pa v) s = .next s) ∧
    (s.host.hart0 = true ∨ s.host.harts = true → PortStores s d v) ∧
    (∀ addr, (∃ k, regionOf addr = .imsic k ∨ regionOf addr = .imsicM k) → addr % 4096 = 0 → exec (.imsicWrite addr v) s = .next { s with
      host := { s.host with imsic := if (addr, v.setWidth 32) ∈ s.host.imsic then s.host.imsic else s.host.imsic ++ [(addr, v.setWidth 32)] } }) ∧
    (∀ addr, (∀ k, regionOf addr ≠ .imsic k ∧ regionOf addr ≠ .imsicM k) ∨ addr % 4096 ≠ 0 → exec (.imsicWrite addr v) s = .next s) ∧
    ∀ frame, ∃ reply, exec (.mgmtRead d frame) s = .next (s.onDie d fun x => { x with mgmtReply := reply }) ∧ ManagementReply s frame reply

/-- A die's fault spool posts the first of its records that may be posted: an advisory one without room is dropped and counted;
a fault takes a RID that is outstanding until its answer; the ring's slot holds the record's 64 bytes, and SPHEAD advances
(R361, R362, R364). The error log posts its oldest record likewise, and one that is no corrected error asserts an interrupt; a ring
full after it drops the records of corrected errors that wait
(R430). That which of several records goes first is the oldest is the model's order (log entry 2); that an event with nothing to post
leaves the state as it is, log entry 29. -/
def Obligations.RecordsPosted : Prop :=
  ∀ (s : State) (d : Fin 2),
    let x := s.die d
    let now := (s.stage.sec * 1000000000 + s.stage.nsec) % 2 ^ 64
    ((∀ r ∈ x.spoolQ, postable x r = false) → exec (.spoolPost d) s = .next s) ∧
    (∀ before r after, x.spoolQ = before ++ r :: after → (∀ b ∈ before, postable x b = false) → postable x r = true →
      let room := x.spEn = true ∧ (x.spHead - x.spTail).toNat < 2 ^ x.spLog2n
      let advisory := r.kind = 2 ∨ r.kind = 3
      let slot := x.spBase.toNat + 64 * (x.spHead.toNat % 2 ^ x.spLog2n)
      (advisory → ¬ room → exec (.spoolPost d) s = .next (s.onDie d fun x => { x with
        spoolQ := before ++ after
        drops := min 65535 (x.drops + 1) })) ∧
      (¬(advisory ∧ ¬ room) → inPool slot = true → ∃ t rid, exec (.spoolPost d) s = .next t ∧ (t.die d).spHead = x.spHead + 1 ∧
        (t.die d).spoolQ = before ++ after ∧ t.mem = s.mem.write slot (recordBytes r rid now) ∧ Wakes s t d (·.spool) (if r.kind = 0x10 ∨ r.kind = 0x11 then 6 else 2) ∧
        (r.kind = 1 → (t.die d).outst = x.outst ++ [⟨rid, r.token, r.master⟩]) ∧
        (advisory ∨ r.kind = 0x10 ∨ r.kind = 0x11 → rid = 0 ∧ (t.die d).outst = x.outst))) ∧
    (let free := x.elEn = true ∧ (x.elHead - x.elTail).toNat < 2 ^ x.elLog2n
     (x.elogQ = [] ∨ ¬ free → exec (.errorLogPost d) s = .next s) ∧
     ∀ r rest, x.elogQ = r :: rest → free →
      let slot := x.elBase.toNat + 32 * (x.elHead.toNat % 2 ^ x.elLog2n)
      inPool slot = true → ∃ t, exec (.errorLogPost d) s = .next t ∧ (t.die d).elHead = x.elHead + 1 ∧
        (t.die d).elogQ = (if (x.elHead + 1 - x.elTail).toNat < 2 ^ x.elLog2n then rest else rest.filter fun r => r.kind != 1) ∧
        t.mem = s.mem.write slot (elogBytes r now) ∧ t.host = (if r.kind = 1 then s.host else { s.host with aplic3 := true }))

/-- LOAD, SWAPOUT and SWAPIN of a partition start an operation, after the one that runs, and complete later (R371 to R373): a
record refused leaves PERR with its cause, one loaded is in force and resident when no resident partition holds any of its
cores, its token bucket full and the ways its shadow storage takes out of the system cache (R265, R423); SWAPOUT of a pinned partition fails with PERR 5, of a resident one saves its teams and clears RES; SWAPIN fails with PERR
2 while a resident partition holds any of its cores, and else sets RES and brings its teams back. Log entry 18 names the choice
for a write while an operation runs, log entry 40 the readings, log entry 29 that SWAP_COMPLETE with no operation leaves the state as
it is. -/
def Obligations.Partitions : Prop :=
  ∀ (s : State) (d : Fin 2) (p : Fin 8),
    let x := s.die d
    let done := fun (u : State) => u.onDie d fun y => { y with partOp := none }
    (∀ i op, (i, op) ∈ [(Instr.load d p, PartOp.load), (.swapout d p, .swapout), (.swapin d p, .swapin)] →
      (x.partOp = none → exec i s = .next (s.onDie d fun y => { y with partOp := some (op, p) })) ∧
      ∀ t, exec (.swapComplete d) s = .next t → exec i s = .next (t.onDie d fun y => { y with partOp := some (op, p) })) ∧
    (x.partOp = none → exec (.swapComplete d) s = .next s) ∧
    (x.partOp = some (.load, p) → ∀ u bs, physRead s d (x.ptBase.toNat + 64 * p.val) 64 = (u, bs) →
      let r := (parsePart (ofBytes bs)).1
      let clear := (parsePart (ofBytes bs)).2
      let live := ∃ t ∈ u.teams, t.d = d ∧ ((u.die t.home).findNode t.node).map (·.part) = some p.val ∧ t.phase ≠ .ended
      let ways := ((u.die d).parts.filter (·.1 != p.val)).foldl (fun n e => n + e.2.shways[d]) 0
      let few := r.shways[d] ≠ 0 ∧ (r.shways[d] * 8192 < (r.cores[d]).cpop.toNat * 6208 ∨ 16 < ways + r.shways[d])
      let fails := fun (e : BitVec 4) => exec (.swapComplete d) s = .next (done (u.onDie d fun y => { y with perr := e }))
      (clear = false ∨ 4 < r.resv → fails 1) ∧
      (clear = true → r.resv ≤ 4 → live → fails 3) ∧
      (clear = true → r.resv ≤ 4 → ¬ live → few → fails 4) ∧
      (clear = true → r.resv ≤ 4 → ¬ live → ¬ few → ∃ t, exec (.swapComplete d) s = .next t ∧ t.mem = u.mem ∧ t.agents = u.agents ∧ t.teams = u.teams ∧
        let y := u.die d
        let z := t.die d
        z.parts = tblSet y.parts p.val r ∧ z.perr = 0 ∧ z.partOp = none ∧
        z.res = (withRes y p (!(z.parts.any fun e => decide (e.1 < 8) && y.res.getLsbD e.1 && e.1 != p.val && (e.2.cores[d] &&& r.cores[d]) != 0))).res ∧
        (∀ e, e ∈ z.sys ↔ e ∈ y.sys ∧ e.way < 24 - shadowWays z d) ∧
        let burst := r.qos.toNat / 2 ^ 32 % 2 ^ 16
        z.buckets[p] = (((1024 * if burst = 0 then 64 else burst : Nat) : Int), (u.stage.sec * 1000000000 + u.stage.nsec) % 2 ^ 64))) ∧
    (x.partOp = some (.swapout, p) →
      (isPinned x d p.val = true → exec (.swapComplete d) s = .next (done (s.onDie d fun y => { y with perr := 5 }))) ∧
      (isPinned x d p.val = false → x.res.getLsbD p.val = false → exec (.swapComplete d) s = .next (done (s.onDie d fun y => { y with perr := 0 }))) ∧
      (isPinned x d p.val = false → x.res.getLsbD p.val = true → ∃ t, exec (.swapComplete d) s = .next t ∧ t.mem = s.mem ∧
        (t.die d).res = (withRes x p false).res ∧ (t.die d).perr = 0 ∧ (t.die d).partOp = none ∧
        ∀ tm ∈ s.teams, tm.d = d → ((s.die tm.home).findNode tm.node).map (·.part) = some p.val → (tm.phase = .running ∨ tm.phase = .starting) → tm.killed = false →
          ∃ tm' ∈ t.teams, tm'.id = tm.id ∧ tm'.phase = .saved ∧ tm'.swapped = true)) ∧
    (x.partOp = some (.swapin, p) → ∀ r, tblGet x.parts p.val = some r →
      let held := x.parts.any fun e => decide (e.1 < 8) && x.res.getLsbD e.1 && (e.2.cores[d] &&& r.cores[d]) != 0
      let v := s.onDie d fun y => { withRes y p true with perr := 0 }
      let back := (partTeams v d p.val).filter fun t => t.swapped && t.phase == .saved
      (held = true → exec (.swapComplete d) s = .next (done (s.onDie d fun y => { y with perr := 2 }))) ∧
      (held = false → exec (.swapComplete d) s = .next (done (back.foldl (fun s t => restoreTeam s t d ⟨t.core, ⟨t.base, t.sbase, t.row0⟩, t.inReserve⟩)
        (back.foldl (fun s t => s.onCore d t.core (enterCore p.val)) v)))))

/-- The measurement engine and SVNMIN (R391 to R394). The harts write them, where one runs. A write waits while an operation runs. An
EXTEND the register allows, and a REPORT, start; one it does not allow sets ERR. An extend that completes leaves the hash of the
register and the value; a report holds the body with the registers latched when it was asked for, and its ML-DSA-87 signature
under the module's identity. FIPS 204 is taken from outside the spec (log entry 14); that SVNMIN_RAISE past 64 is ignored is log entry
37, that the report's time is the stage time at its start, where R393 speaks of its signing, log entry 55, and that an event whose
conditions do not hold leaves the state as it is, log entry 29. -/
def Obligations.Measurements : Prop :=
  ∀ s : State,
    let h := s.host
    let now := (s.stage.sec * 1000000000 + s.stage.nsec) % 2 ^ 64
    let runs := h.hart0 = true ∨ h.harts = true
    let ops := [(Instr.romend, (0x2000000 : BitVec 64)), (.lock4, 0x1000000), (.report, 0x200)] ++
      (List.finRange 8).map (fun k => (Instr.extend k, BitVec.ofNat 64 (0x100 + k.val)))
    (¬ runs → (∀ v, exec (.svnminRaise v) s = .next s) ∧ ∀ i w, (i, w) ∈ ops → exec i s = .next s) ∧
    (runs → ∀ v : Word, let kind : Fin 4 := (v.extractLsb' 8 2).toFin
      let m := (v.extractLsb' 0 8).toNat
      (h.lock4 = true ∨ kind = 0 ∨ 64 < m ∨ m ≤ h.svnMin[kind] → exec (.svnminRaise v) s = .next s) ∧
      (h.lock4 = false → kind ≠ 0 → m ≤ 64 → h.svnMin[kind] < m → exec (.svnminRaise v) s = .next { s with host := { h with svnMin := h.svnMin.set kind m } })) ∧
    (runs → h.busy ≠ none → ∀ i w, (i, w) ∈ ops → exec i s = .next { s with host := { h with waiting := h.waiting ++ [w] } }) ∧
    (runs → h.busy = none →
      exec .romend s = .next { s with host := { h with
        err := false
        romMode := false } } ∧
      exec .lock4 s = .next { s with host := { h with
        err := false
        lock4 := true } } ∧
      exec .report s = .next { s with host := { h with
        err := false
        mrIdx := 0
        busy := some (.report h.nonce h.mr.toList now) } } ∧
      ∀ i : Fin 8, (Extendable h i → exec (.extend i) s = .next { s with host := { h with
          err := false
          mrIdx := i
          busy := some (.extend i h.extBuf) } }) ∧
        (¬ Extendable h i → exec (.extend i) s = .next { s with host := { h with
          err := true
          mrIdx := i } })) ∧
    (h.busy = none → exec .attestOpComplete s = .next s) ∧
    (h.waiting = [] →
      (∀ i e, h.busy = some (.extend i e) → exec .attestOpComplete s = .next { s with host := { h with
        mr := h.mr.set i (extended64 h.mr[i] [e])
        busy := none } }) ∧
      ∀ nonce mrs time, h.busy = some (.report nonce mrs time) →
        let body := reportBody h nonce mrs time
        exec .attestOpComplete s = .next { s with host := { h with
          report := body ++ fitBytes 4627 (MlDsa.sign identitySeed (attestMessage body) (toBytes (Config.entropy h.entropyCtr).toNat 32))
          entropyCtr := h.entropyCtr + 1
          busy := none } })

/-- Reset and the boot sequence (R387 to R391, R394). Each step runs only after the one before it; a check that fails stops the boot
with its code; the images are copied to their destinations, and what lies there is checked; they and their digests extend the measurement
registers, after an extend that the engine runs; the last step extends MR4, or sets ERR where LOCK4 forbids it, locks it and releases the
harts. Every thread of a die runs from ENTRY (the model's choice, log entry 6), and ML-DSA is FIPS 204's, from outside the spec (log
entry 14). Log entries 19 and 20 name what the pool keeps and the open value of MR4, log entry 37 the readings. -/
def Obligations.BootSequence : Prop :=
  ∀ s : State,
    let h := s.host
    let landedMr := fun i : Fin 8 => match h.busy with
      | some (.extend j e) => if j = i then extended64 h.mr[i] [e] else h.mr[i]
      | _ => h.mr[i]
    (∃ t, exec .reset s = .next t ∧ t.mem = s.mem ∧ t.dies = State.reset.dies ∧ t.cur = State.reset.cur ∧ t.others = State.reset.others ∧ t.teams = [] ∧
      t.cmds = [] ∧ t.host.svnMin = h.svnMin ∧ t.host.romMode = true ∧ t.host.bootStat = 0 ∧ t.host.mr[3] = extended64 (List.replicate 64 0) [bootStateValue]) ∧
    (∀ links m image, h.bootStat = 0 → h.romMode = true → h.hart0 = true → h.mr[3] ≠ List.replicate 64 0 →
      let l3 := h.l3.write (mfield64 m 16) image
      let landed := l3.read (mfield64 m 16) image.length
      (links = false → ∃ t, exec (.bootRomLoad links m image) s = .next t ∧ BootStops s 0x86 t ∧ t.host.l3 = h.l3) ∧
      (links = true → verifyImage h 1 m landed ≠ 0 → ∃ t, exec (.bootRomLoad links m image) s = .next t ∧
        BootStops s (BitVec.ofNat 8 (verifyImage h 1 m landed)) t ∧ t.host.l3 = l3) ∧
      (links = true → verifyImage h 1 m landed = 0 → h.waiting = [] → ∃ t, exec (.bootRomLoad links m image) s = .next t ∧ t.host.bootStat = 1 ∧ t.host.romMode = false ∧
        t.host.mr[0] = extended64 (landedMr 0) (((List.range 4).map fun k => (m.drop (64 * k)).take 64) ++ [sha3 landed]) ∧ t.host.svns[0] = mfield32 m 8 ∧
        t.host.l3 = l3 ∧ t.mem = s.mem ∧ t.dies = s.dies)) ∧
    (∀ (d : Fin 2) m image, h.bootStat = 1 → (s.die d).image = none →
      let dmem := (s.die d).dmem.write (mfield64 m 16) image
      let landed := dmem.read (mfield64 m 16) image.length
      (verifyImage h 2 m landed ≠ 0 → ∃ t, exec (.distaffImageStart d m image) s = .next t ∧
        BootStops (s.onDie d fun x => { x with dmem := dmem }) (BitVec.ofNat 8 (0x88 + d.val)) t) ∧
      (verifyImage h 2 m landed = 0 → ∃ t, exec (.distaffImageStart d m image) s = .next t ∧ t.mem = s.mem ∧
        (t.die d).image = some { digest := sha3 landed, svn := mfield32 m 8, entry := mfield64 m 24 } ∧ (t.die d).dmem = dmem ∧
        (∀ i : Fin 8, t.host.mr[i] = if i.val = d.val + 1 then extended64 h.mr[i] [sha3 landed] else h.mr[i]) ∧
        (∀ w ∈ t.agents, ∀ th, w.who = .thread d th → w.pc = BitVec.ofNat 64 (mfield64 m 24) ∧ w.status = .running) ∧
        (t.host.bootStat = if (s.die (if d = 0 then 1 else 0)).image = none then 1 else 2))) ∧
    (∀ (d : Fin 2) ok, h.bootStat = 2 →
      (ok = false → ∃ t, exec (.memoryTraining d ok) s = .next t ∧ BootStops s 0x87 t) ∧
      (ok = true → ∃ t, exec (.memoryTraining d ok) s = .next t ∧ (t.die d).trained = true ∧ t.mem = s.mem ∧
        let both := (s.die (if d = 0 then 1 else 0)).trained = true
        (t.host.poolRdy = true ↔ h.poolRdy = true ∨ both) ∧ t.host.bootStat = if both then 3 else 2)) ∧
    ∀ m image, h.bootStat = 3 →
      let stored := image.take (2 ^ 40 - mfield64 m 16)
      let mem := s.mem.write (mfield64 m 16) stored
      let landed := mem.read (mfield64 m 16) stored.length
      (verifyImage h 3 m landed ≠ 0 → ∃ t, exec (.loaderStart m image) s = .next t ∧ t.host.bootStat = BitVec.ofNat 8 (verifyImage h 3 m landed) ∧
        t.host.hart0 = false ∧ t.host.harts = false ∧ t.mem = mem) ∧
      (verifyImage h 3 m landed = 0 → h.waiting = [] → ∃ t e, exec (.loaderStart m image) s = .next t ∧ t.host.lock4 = true ∧ t.host.harts = true ∧
        t.host.bootStat = 4 ∧ (h.lock4 = false → t.host.mr[4] = extended64 (landedMr 4) [e]) ∧ (h.lock4 = true → t.host.mr[4] = landedMr 4 ∧ t.host.err = true) ∧
        t.host.svns[3] = mfield32 m 8 ∧ t.mem = mem)

/-- The stage clock, the timestamps of the Ethernet ports, and accounts of energy and errors (R350, R396 to R398, R418, R427 to
R431). A write of the clock and a STEP are steps of it; a read of its low word latches the high seconds; a timestamp queue holds
64 and gives its head to a read. A whole multiple of PERIOD that stage time has reached sets REM to CAP; a fit out of range counts; the
scrub of a sector that the die homes counts and logs what it finds, a correction with the number since the sector's last record where
the log has room for it; a fatal error sets FATAL on both dies. That an event whose conditions do not hold leaves the state as it is is
log entry 29. -/
def Obligations.TimeAndEnergy : Prop :=
  ∀ (s : State) (d : Fin 2),
    let x := s.die d
    (∀ v : Word, let nsec := v.toNat % 2 ^ 32
      (1000000000 ≤ nsec → exec (.clockSet v) s = .next s) ∧
      (nsec < 1000000000 → ∃ t, exec (.clockSet v) s = .next t ∧ ClockSteps s t { s.stage with
        sec := s.stage.hiWrite.toNat * 2 ^ 32 + v.toNat / 2 ^ 32
        nsec := nsec
        frac := 0 })) ∧
    (∀ v : Word, ∃ t c, exec (.step v) s = .next t ∧ ClockSteps s t c ∧ c.nsec < 1000000000 ∧ c.sec < 2 ^ 48 ∧ c.rate = s.stage.rate ∧ c.frac = s.stage.frac ∧
      (((c.sec * 1000000000 + c.nsec : Nat) : Int) - ((s.stage.sec * 1000000000 + s.stage.nsec : Nat) + v.toInt)) % (2 ^ 48 * 1000000000) = 0) ∧
    exec (.secloRead d) s = .next { s with stage := { s.stage with hiLatch := BitVec.ofNat 16 (s.stage.sec / 2 ^ 32) } } ∧
    exec (.timestampQueueRead d) s = .next (s.onDie d fun x => { x with stamps := x.stamps.drop 1 }) ∧
    (∀ egress msg seq,
      (msg.toNat < 4 → x.stamps.length < 64 → exec (.ptpTimestamp d egress msg seq) s = .next (s.onDie d fun x => { x with stamps := x.stamps ++
        [(BitVec.ofNat 64 (2 ^ 63 + (if egress then 2 ^ 62 else 0) + msg.toNat * 2 ^ 48 + seq.toNat * 2 ^ 32 + s.stage.nsec % 2 ^ 32), BitVec.ofNat 48 s.stage.sec)] })) ∧
      (4 ≤ msg.toNat ∨ 64 ≤ x.stamps.length → exec (.ptpTimestamp d egress msg seq) s = .next s)) ∧
    (∀ p : Fin 8, let period := x.ecfg[p].toNat % 1048576
      let turn := (s.stage.sec * 1000000000 + s.stage.nsec) % 2 ^ 64 / (1000 * period)
      (period ≠ 0 → x.refills[p] < turn → exec (.energyPeriod d p) s = .next (s.onDie d fun x => { x with
        rem := x.rem.set p (x.ecfg[p].toNat / 1048576)
        refills := x.refills.set p turn })) ∧
      (period = 0 ∨ turn ≤ x.refills[p] → exec (.energyPeriod d p) s = .next s)) ∧
    (∀ fit, (0xC000 ≤ fit → fit ≤ 0x14000 → exec (.calFit d fit) s = .next (s.onDie d fun x => { x with cal := fit })) ∧
      (fit < 0xC000 ∨ 0x14000 < fit → exec (.calFit d fit) s = .next (s.onDie d fun x => { x with counters := x.counters.set 11 ((x.counters[11] + 1) % 2 ^ 64) }))) ∧
    let own := fun sector : Nat => inPool (32 * sector) = true ∧ (32 * sector).testBit 12 = decide (d = 1)
    let corrections := fun (y : Die) (sector : Nat) => tblGetD y.mended sector 0
    (∀ sector corrected, ¬ own sector → exec (.patrolScrub d sector corrected) s = .next s) ∧
    (∀ sector, own sector → ∃ t, exec (.patrolScrub d sector true) s = .next t ∧ t.mem = s.mem ∧ t.agents = s.agents ∧
      (t.die d).counters[10] = (x.counters[10] + 1) % 2 ^ 64 ∧
      let n := min (corrections x sector + 1) (2 ^ 32 - 1)
      let room := x.elEn = true ∧ (x.elHead - x.elTail).toNat < 2 ^ x.elLog2n
      (room → corrections (t.die d) sector = 0 ∧
        (t.die d).elogQ = x.elogQ ++ [{ kind := 1, struct := 0, ctx := 0, count := n, agentId := 0, addr := 32 * sector }]) ∧
      (¬ room → corrections (t.die d) sector = n ∧ (t.die d).elogQ = x.elogQ ∧ (t.die d).counters[13] = (x.counters[13] + 1) % 2 ^ 64)) ∧
    (∀ sector, own sector → ∃ t, exec (.patrolScrub d sector false) s = .next t ∧ t.mem = s.mem ∧ t.agents = s.agents ∧ (t.die d).counters[12] = (x.counters[12] + 1) % 2 ^ 64 ∧
      ((x.elogQ.filter (·.kind != 1)).length < 16 → (t.die d).elogQ = x.elogQ ++ [{ kind := 2, struct := 0, ctx := 0, count := 0, agentId := 0, addr := 32 * sector }])) ∧
    ∀ link, ∃ t, exec (.fatalError link) s = .next t ∧ (∀ e, t.die e = { s.die e with fatal := true }) ∧ t.host = { s.host with aplic4 := s.host.aplic4 || link } ∧
      t.agents = s.agents ∧ t.mem = s.mem

/-- A period of the power arbiter (R414, R416, R420, R421), for every whole multiple of 10,000 ns that stage time has reached, and at no other
time. What was
counted is charged first. Each die's clock is the highest of the steps from 800 to 2,000 MHz that fits its half of the budget, 800
where none does; each core's allowance is its share; D falls by 2, to no less than 2, for a period over the allowance, rises by 1, to
no more than 16, for one below 90 % of it, and THROT marks a core whose D is not 16; the partitions' and the system's accounts take
the whole nanojoules charged; a roving warp whose context's account is not above the floor ends. The weights of the events and the
Jorrad chiplet's measured power are left free (log entry 13); that nothing happens before a multiple is log entry 29. -/
def Obligations.ArbiterPeriods : Prop :=
  ∀ (s : State) (m : PeriodMeter),
    let turn := (s.stage.sec * 1000000000 + s.stage.nsec) % 2 ^ 64 / 10000
    (turn ≤ s.arbiter → exec (.arbiterPeriod m) s = .next s) ∧
    (s.arbiter < turn → ∃ t, exec (.arbiterPeriod m) s = .next t ∧ t.arbiter = s.arbiter + 1 ∧ (s.etBase = 0 → t.mem = s.mem) ∧
      t.agents = (s.agents.map fun w => (roveFloored t w).getD w) ∧
      let v := chargeTo s none
      let out := fun e : Fin 2 => (v.die e).rawOut * (v.die e).cal / 65536 / 10000
      let budget := s.plimit * 1000 - m.jorradMw - (out 0 + out 1)
      ∀ d : Fin 2,
        let x := v.die d
        let y := addCharges x
        let charge := (x.rawPart.foldl (· + ·) 0 + x.rawSys) * x.cal / 65536
        let fits := fun f => charge * f * 2 ≤ budget * 1000 * (x.fgrant * 10)
        ((∃ f ∈ clockSteps, fits f) → (t.die d).fgrant ∈ clockSteps ∧ fits (t.die d).fgrant ∧ ∀ f ∈ clockSteps, fits f → f ≤ (t.die d).fgrant) ∧
        ((∀ f ∈ clockSteps, ¬ fits f) → (t.die d).fgrant = 800) ∧
        (∀ p : Fin 8, (t.die d).pused[p] = (x.pused[p] + y.pcharge[p] / 1000) % 2 ^ 64 ∧ (t.die d).pcharge[p] = y.pcharge[p] % 1000) ∧
        (t.die d).sysUsed = (x.sysUsed + y.sysCharge / 1000) % 2 ^ 64 ∧ (t.die d).sysCharge = y.sysCharge % 1000 ∧
        ∀ c : Fin 24,
          let o := v.coreAt d c
          let n := t.coreAt d c
          let used := o.raw * x.cal / 65536
          let allowed := o.allow * 10000
          (allowed < used → n.duty = max 2 (o.duty - 2)) ∧ (used * 10 < allowed * 9 → n.duty = min 16 (o.duty + 1)) ∧
          (used ≤ allowed → allowed * 9 ≤ used * 10 → n.duty = o.duty) ∧ (n.throttled = true ↔ n.duty ≠ 16) ∧ n.allow = coreAllow v m d c.val ∧
          n.raw = 0 ∧ (s.etBase = 0 → n = { o with
            duty := n.duty
            throttled := n.throttled
            allow := n.allow
            raw := 0 }))

/-- The reel's states, tables and links (R400, R403, R404, R406). RUN set trains every link; TRAIN ends in WAIT, with a table in force, at the
switch, the link coming UP or the timeout after which each link is UP or has failed its first attempt; with LOCK, a new second takes WAIT and RESYNC to RUN; a table switch takes force at the first second from EPOCH on that
begins at least 1 ms after it was asked for, or is refused with TERR and leaves the old table in force. A second switch replaces
one in preparation (log entry 21). A link is UP when the least of the latencies of its 64 exchanges of time flits is within 4,000 ns,
and fails its first attempt 250 ms of oscillator time after TRAIN began. Where a time flit carries the stage time and MODID is the
model's, and what R400 and R402 do not say of it is free (log entry 43); that an event whose conditions do not hold leaves the state
as it is is log entry 29. -/
def Obligations.ReelEvents : Prop :=
  ∀ s : State,
    let r := s.reel
    let sec := s.stage.sec
    let become := fun (i : Instr) (r' : Reel) => exec i s = .next { s with reel := r' }
    (r.st = .off → become .reelRun { r with
      run := true
      st := .train
      trainAt := s.stage.osc
      links := r.links.map fun l => { l with
        training := true
        up := false
        failedFirst := false } }) ∧
    (r.st ≠ .off → become .reelRun { r with run := true }) ∧
    become .reelStop { r with
      run := false
      st := .off
      links := r.links.map fun l => { l with
        training := false
        up := false
        failedFirst := false } } ∧
    (r.st = .run → become (.reelLockWrite false) { r with
      lock := false
      st := .resync
      since := sec }) ∧
    (∀ b, b = true ∨ r.st ≠ .run → become (.reelLockWrite b) { r with lock := b }) ∧
    (r.st = .wait ∨ r.st = .resync → sec ≠ r.since → r.lock = true → become .reelSecondBoundary { r with
      since := sec
      st := .run
      links := r.links.map fun l => { l with nextSlot := sec * (95367 * 4096) } }) ∧
    (r.st = .wait ∨ r.st = .resync → sec ≠ r.since → r.lock = false → become .reelSecondBoundary { r with since := sec }) ∧
    (r.st ≠ .wait → r.st ≠ .resync → exec .reelSecondBoundary s = .next s) ∧
    (∀ v : Word, ∃ at_, become (.tableSwitch v) { r with switch := some (v.getLsbD 63, at_, imageAt s.mem (if v.getLsbD 63 then r.rtbase1 else r.rtbase0).toNat) } ∧
      v.toNat % 2 ^ 48 ≤ at_ ∧ sec * 1000000000 + s.stage.nsec + 1000000 ≤ at_ * 1000000000 ∧
      ∀ k, v.toNat % 2 ^ 48 ≤ k → sec * 1000000000 + s.stage.nsec + 1000000 ≤ k * 1000000000 → at_ ≤ k) ∧
    (r.switch = none → exec .tableTakesForce s = .next s) ∧
    (∀ sel at_ t, r.switch = some (sel, at_, t) →
      (sec < at_ → exec .tableTakesForce s = .next s) ∧
      (at_ ≤ sec → tableError t = 0 → become .tableTakesForce (trainEnds { r with
        switch := none
        terr := 0
        table := some t
        inForce := sel } sec)) ∧
      (at_ ≤ sec → tableError t = 0 → r.st = .train → ∃ u, exec .tableTakesForce s = .next u ∧
        (u.reel.st = .wait ↔ ∀ k : Fin 8, r.links[k].up = true ∨ r.links[k].failedFirst = true) ∧ (u.reel.st ≠ .wait → u.reel.st = .train)) ∧
      (at_ ≤ sec → tableError t ≠ 0 → become .tableTakesForce (trainEnds { r with
        switch := none
        terr := BitVec.ofNat 8 (tableError t) } sec))) ∧
    ∀ l : Fin 8,
      let x := r.links[l]
      (r.st = .off → exec (.linkTrain l) s = .next s) ∧
      (r.st ≠ .off → become (.linkTrain l) (withLink r l (if x.up then x else { x with training := true }))) ∧
      let others := ∀ k : Fin 8, k ≠ l → r.links[k].up = true ∨ r.links[k].failedFirst = true
      (∀ (rounds : List (Nat × Nat)) (peer : BitVec 8),
        (x.training = false ∨ rounds.length ≠ 64 → exec (.linkUp l rounds peer) s = .next s) ∧
        ∃ flit slot, TimeFlit s slot flit ∧ EndedLast s slot ∧ let sent := { x with
          lastFlit := flit
          lastSlot := some slot }
        ∀ lat, x.training = true → rounds.length = 64 → (∃ p ∈ rounds, lat = (p.1 - p.2 + 1) / 2) → (∀ p ∈ rounds, lat ≤ (p.1 - p.2 + 1) / 2) →
          (lat ≤ 4000 → exec (.linkUp l rounds peer) s = .next { s with
            reel := trainEnds (withLink r l { sent with
              training := false
              up := true
              lat := lat
              peer := peer
              nextSlot := cycleAfter (stageTicks s) }) sec
            freeCtr := s.freeCtr + 1 }) ∧
          (lat ≤ 4000 → r.st = .train → ∃ t, exec (.linkUp l rounds peer) s = .next t ∧
            (t.reel.st = .wait ↔ others ∧ r.table.isSome = true) ∧ (t.reel.st ≠ .wait → t.reel.st = .train)) ∧
          (4000 < lat → exec (.linkUp l rounds peer) s = .next { s with
            reel := withLink r l sent
            freeCtr := s.freeCtr + 1 })) ∧
      (r.st = .train → x.up = false → r.trainAt + 250000000 * 2 ^ 40 ≤ s.stage.osc →
        become (.linkTrainTimeout l) (trainEnds (withLink r l { x with failedFirst := true }) sec) ∧
        ∃ t, exec (.linkTrainTimeout l) s = .next t ∧ (t.reel.st = .wait ↔ others ∧ r.table.isSome = true) ∧ (t.reel.st ≠ .wait → t.reel.st = .train)) ∧
      (r.st ≠ .train ∨ x.up = true ∨ s.stage.osc < r.trainAt + 250000000 * 2 ^ 40 → exec (.linkTrainTimeout l) s = .next s) ∧
      become (.linkLoss l) (withLink r l { x with
        up := false
        training := r.st != .off })

/-- Flits (R183, R184, R402, R405, R408, R409). A slot that is due carries its copy's next flit, or stays idle when a read of
its source faults, and the copy pauses. A flit that is not handled is counted; one handled is written and counted for its
stream's open copy; one of a later copy closes an older first, one of an earlier is written and counted for none; the last closes it,
that of a later copy its own besides the older, and so does a stale receiver. Padding bytes are free (log entry 10); log entry 33 names
the readings, log entry 29 that an event with nothing due leaves the state as it is. -/
def Obligations.StageFlits : Prop :=
  ∀ (s : State) (l : Fin 8),
    (slotDue s l = none → exec (.slotTransmit l) s = .next s) ∧
    (∀ n c, slotDue s l = some (n, c) →
      let i := sentOn c l.val
      ∃ v, CachesOnly ((chargeTo s none).onLink l fun x => { x with nextSlot := n + 1 }) v ∧
      (∀ u bs, stageRead v c (208 * i) (min 208 (stageBytes c.record - 208 * i)) = (u, .ok bs) → ∃ t, exec (.slotTransmit l) s = .next t ∧ t.mem = u.mem ∧
        (t.reel.links[l]).lastFlit = buildFlit u.freeCtr (n % 4096) ((cmdStream c).getD 0) c.copyNo i (stageFlits c.record)
          ((stageDst c.record + 208 * i) % 2 ^ 64) (recBits c.record 335 308) (cycOf n) (i + 1 == stageFlits c.record) bs ∧
        (t.reel.links[l]).lastSlot = some n ∧
        t.cmds = u.cmds.map fun x => if x.id = c.id then { x with sent := tblSet x.sent l.val (i + 1) } else x) ∧
      ∀ u e, stageRead v c (208 * i) (min 208 (stageBytes c.record - 208 * i)) = (u, .error e) → exec (.slotTransmit l) s = .next (stopCmd (chargeTo u (cmdPayer u c)) c e)) ∧
    (∀ f : BitVec 2048,
      let field := fun hi lo : Nat => f.toNat / 2 ^ lo % 2 ^ (hi + 1 - lo)
      let stream := field 31 16
      (flitGood s l f = false → exec (.flitReceive l f) s = .next (s.onLink l fun x => { x with rxBad := min (2 ^ 32 - 1) (x.rxBad + 1) })) ∧
      let fresh : RxCopy := ⟨field 43 32, 0, field 173 156, false, field 155 155 == 1, field 154 140, field 139 128, 0⟩
      let counted := fun (x : RxCopy) (u : State) (ok : Bool) => { x with
        handled := x.handled + 1
        lost := x.lost || !ok
        lastAt := stageTicks u }
      (flitGood s l f = true → ∀ x, tblGet s.reel.rx stream = some x → x.copy ≠ fresh.copy →
        (laterCopy fresh.copy x.copy = false → exec (.flitReceive l f) s = .next (rxWrite s l f).1) ∧
        (laterCopy fresh.copy x.copy = true → field 62 62 = 0 → ∃ v, RxCloses s v stream x ∧ ∀ u ok, rxWrite v l f = (u, ok) →
          exec (.flitReceive l f) s = .next { u with reel := { u.reel with rx := tblSet u.reel.rx stream (counted fresh u ok) } }) ∧
        (laterCopy fresh.copy x.copy = true → field 62 62 = 1 → ∃ v, RxCloses s v stream x ∧ ∀ u ok, rxWrite v l f = (u, ok) →
          ∃ t, exec (.flitReceive l f) s = .next t ∧ RxCloses u t stream (counted fresh u ok))) ∧
      (flitGood s l f = true → (∀ x, tblGet s.reel.rx stream = some x → x.copy = field 43 32) → ∀ u ok, rxWrite s l f = (u, ok) →
        let x' := counted ((tblGet s.reel.rx stream).getD fresh) u ok
        (field 62 62 = 0 → exec (.flitReceive l f) s = .next { u with reel := { u.reel with rx := tblSet u.reel.rx stream x' } }) ∧
        (field 62 62 = 1 → ∃ t, exec (.flitReceive l f) s = .next t ∧ RxCloses u t stream x'))) ∧
    ∀ stream, (tblGet s.reel.rx stream = none → exec (.receiverTimeout stream) s = .next s) ∧
      ∀ x, tblGet s.reel.rx stream = some x →
        (rxStale s x = false → exec (.receiverTimeout stream) s = .next s) ∧
        (rxStale s x = true → ∃ t, exec (.receiverTimeout stream) s = .next t ∧ RxCloses s t stream x)

/-- Transactions at a line's home (R378, R381 to R384, R389). The L3 makes no request before POOLRDY. A line nobody holds goes to its reader in E. A read shared makes the
reader a sharer: a dirty owner goes to O, a clean one to S. A read unique or an upgrade leaves the requester alone, in M if the
data was dirty. A write-back by a dirty owner and an eviction notice let a copy go; a write-back that is lost leaves memory with
the stale sector; a line taken in where its set is full pushes one other out. An I/O read changes no holder; an I/O write or atomic
takes every copy away and is done at the home, the atomics being FetchAdd, Swap and CAS at 32 and 64 bits (R384); a function's request to
a root port's own window is peer-to-peer and does nothing (R384). Its addresses are those that the IOMMU gives, and one it refuses does nothing
(R384; log entry 49: one root, Sv57). Log entry 11 names the free values of devices, log entry 47 the choice of the line pushed out, log
entry 29 that an event whose conditions do not hold leaves the state as it is. -/
def Obligations.HomeTransactions : Prop :=
  ∀ (s : State) (a : Fin 3) (line : Nat), inPool (128 * line) = true →
    let entry := tblGet s.dir line
    let peer := fun (addr : Nat) => match regionOf addr with
      | .ecam _ => true
      | .pcie _ => true
      | _ => false
    (a = 2 → s.host.poolRdy = false → ∀ i ∈ [Instr.readShared a line, .readUnique a line, .upgrade a line], exec i s = .next s) ∧
    (a ≠ 2 ∨ s.host.poolRdy = true → ∃ t, exec (.readShared a line) s = .next t ∧ (entry = none → TakesLine s t a line (some ⟨.x, some a, [(a, .e)], none⟩)) ∧
      ∀ l, entry = some l → (heldBy l a ≠ none → HomesOnly s t ∧ t.dir = s.dir) ∧
        (heldBy l a = none → ∃ m, TakesLine s t a line (some m) ∧ m.stale = l.stale ∧ heldBy m a = some .s ∧
          (l.st ≠ .x → m.st = l.st ∧ m.owner = l.owner ∧ ∀ b, b ≠ a → heldBy m b = heldBy l b) ∧
          ∀ o, l.st = .x → l.owner = some o → (∀ b, b ≠ a → b ≠ o → heldBy m b = heldBy l b) ∧
            (dirtyLine l = true → m.st = .o ∧ m.owner = some o ∧ heldBy m o = some .o) ∧
            (dirtyLine l = false → m.st = .s ∧ m.owner = none ∧ heldBy m o = some .s))) ∧
    (a ≠ 2 ∨ s.host.poolRdy = true → ∀ i ∈ [Instr.readUnique a line, .upgrade a line], ∃ t, exec i s = .next t ∧
      (entry = none → TakesLine s t a line (some ⟨.x, some a, [(a, .e)], none⟩)) ∧
      ∀ l, entry = some l → (l.st = .x ∧ l.owner = some a → t = s) ∧
        (¬(l.st = .x ∧ l.owner = some a) → TakesLine s t a line (some ⟨.x, some a, [(a, if dirtyLine l then .m else .e)], l.stale⟩))) ∧
    (∀ lost, (∀ l, entry = some l → ¬(l.owner = some a ∧ dirtyLine l = true)) → exec (.writeBack a line lost) s = .next s) ∧
    (∀ l, entry = some l → l.owner = some a → dirtyLine l = true →
      (∃ t, exec (.writeBack a line none) s = .next t ∧ LetsGo s t a line (restOf l a)) ∧
      ∀ k old, l.stale = some old → ∃ t, exec (.writeBack a line (some k)) s = .next t ∧
        (∀ j, tblGet t.dir j = if j = line then restOf l a else tblGet s.dir j) ∧ t.agents = s.agents ∧
        t.mem = s.mem.write (128 * line + 32 * (k % 4)) (toBytes (old.extractLsb' (256 * (k % 4)) 256).toNat 32)) ∧
    (∃ t, exec (.evictionNotice a line) s = .next t ∧ ∀ l, entry = some l →
      (heldBy l a = some .e ∨ (heldBy l a = some .s ∧ l.owner = none) → LetsGo s t a line (restOf l a)) ∧
      (heldBy l a = some .s → l.owner ≠ none → LetsGo s t a line (some { l with held := l.held.filter fun p => p.1 != a })) ∧
      (heldBy l a ≠ some .e → heldBy l a ≠ some .s → t = s)) ∧
    (∃ t, exec (.directoryEvict line) s = .next t ∧ LineBecomes s t line none) ∧
    (∀ addr n pa, Reaches s .read addr n pa → (inPool pa = true → ∃ t, exec (.ioRead addr n) s = .next t ∧ HomesOnly s t ∧ t.dir = s.dir) ∧
      (inPool pa = false → peer pa = false → pa % 8 = 0 → n = 8 → exec (.ioRead addr n) s = .next (windowRead s pa).1) ∧
      (inPool pa = false → peer pa = true → exec (.ioRead addr n) s = .next s)) ∧
    (∀ addr bs pa, Reaches s .write addr bs.length pa → inPool pa = false → peer pa = true → exec (.ioWrite addr bs) s = .next s) ∧
    (∀ addr n bs op wide x y, (Unreached s .read addr n → exec (.ioRead addr n) s = .next s) ∧
      (Unreached s .write addr bs.length → exec (.ioWrite addr bs) s = .next s) ∧
      (Unreached s .atomic addr 1 → exec (.ioAtomic addr op wide x y) s = .next s)) ∧
    (∀ addr bs pa, Reaches s .write addr bs.length pa → inPool pa = true → ∃ t dies, exec (.ioWrite addr bs) s = .next t ∧ t = { s with
        dies := dies
        dir := t.dir
        mem := s.mem.write pa bs
        softErrs := healed s.softErrs [(pa, bs)] } ∧
      ∀ j, tblGet t.dir j = if bs ≠ [] ∧ pa / 128 ≤ j ∧ 128 * j < pa + bs.length then none else tblGet s.dir j) ∧
    (∀ addr bs pa, Reaches s .write addr bs.length pa → inPool pa = false → peer pa = false → pa % 8 = 0 → bs.length = 8 →
      exec (.ioWrite addr bs) s = .next (windowWrite s pa (BitVec.ofNat 64 (ofBytes bs)))) ∧
    ∀ addr op wide x y dest, Reaches s .atomic addr 1 dest →
      let n := if wide then 8 else 4
      let pa := dest / n * n
      let old := s.mem.num pa n
      let new := match op with
        | .fetchAdd => (old + x.toNat) % 2 ^ (8 * n)
        | .swap => x.toNat % 2 ^ (8 * n)
        | .cas => if old = x.toNat % 2 ^ (8 * n) then y.toNat % 2 ^ (8 * n) else old
      inPool pa = true → ∃ t dies, exec (.ioAtomic addr op wide x y) s = .next t ∧ t = { s with
          dies := dies
          dir := t.dir
          mem := s.mem.write pa (toBytes new n) } ∧
        ∀ j, tblGet t.dir j = if j = pa / 128 then none else tblGet s.dir j

/-- Shootdowns (R358, R360, R368). One started while the die is idle is under way, and else waits its turn; it ends with every TLB
entry it matches dropped, of the die and of its cores, and no other, the sampler contents of the context, or of every context, dropped
for modes 1 and 2, and the next one begun. That every line the die's L2 holds dirty is written back and clean there, where step 3 of R360
asks for the sectors written under a dropped entry, is the model's choice (log entry 54); that an end with none under way leaves the state as it is,
log entry 29. -/
def Obligations.Shootdowns : Prop :=
  ∀ (s : State) (d : Fin 2),
    (∀ cid, ∀ i ∈ [(Instr.shootdownPage d cid, (⟨0, cid, (s.die d).sdva.toNat / 4096⟩ : Shootdown)),
        (.shootdownContext d cid, ⟨1, cid, (s.die d).sdva.toNat / 4096⟩), (.shootdownAll d, ⟨2, 0, (s.die d).sdva.toNat / 4096⟩)],
      ((s.die d).shootdown = none → exec i.1 s = .next (s.onDie d fun y => { y with shootdown := some i.2 })) ∧
      ((s.die d).shootdown ≠ none → exec i.1 s = .next (s.onDie d fun y => { y with sdWaiting := y.sdWaiting ++ [i.2] }))) ∧
    ((s.die d).shootdown = none → exec (.shootdownComplete d) s = .next s) ∧
    ∀ x, (s.die d).shootdown = some x → ∃ t, exec (.shootdownComplete d) s = .next t ∧ t.mem = s.mem ∧ t.agents = s.agents ∧
      (∀ e, e ≠ d → CacheWork (s.die e) (t.die e)) ∧ (t.die d).shootdown = (s.die d).sdWaiting.head? ∧ (t.die d).sdWaiting = (s.die d).sdWaiting.tail ∧
      (∀ e, e ∈ (t.die d).tlb ↔ e ∈ (s.die d).tlb ∧ ¬ ShotDown x e) ∧
      let a : Fin 3 := if d = 0 then 0 else 1
      (∀ line, (tblGet s.dir line = none → tblGet t.dir line = none) ∧ ∀ l, tblGet s.dir line = some l →
        (l.owner = some a ∧ dirtyLine l = true → tblGet t.dir line = some (cleaned l a)) ∧
        (¬(l.owner = some a ∧ dirtyLine l = true) → tblGet t.dir line = some l)) ∧
      ∀ c : Fin 24,
        let y := (s.die d).cores[c]
        let z := (t.die d).cores[c]
        (∀ e, e ∈ z.tlb ↔ e ∈ y.tlb ∧ ¬ ShotDown x e) ∧ (x.mode = 0 → z = { y with tlb := z.tlb }) ∧
        (x.mode ≠ 0 →
          (∀ e, e ∈ z.tables ↔ e ∈ y.tables ∧ x.mode ≠ 2 ∧ e.ctx ≠ x.ctx) ∧
          (∀ e, e ∈ z.texels ↔ e ∈ y.texels ∧ x.mode ≠ 2 ∧ e.ctx ≠ x.ctx) ∧
          (∀ e, e ∈ z.lines ↔ e ∈ y.lines ∧ x.mode ≠ 2 ∧ e.ctx ≠ x.ctx) ∧ z.sampDrops = y.sampDrops + 1)

/-- RASTER_BATCH (R289 to R295). The oldest batch of a die's front end becomes fragment warps: one node each in the geometry
launch's context and class, of at most 32 quads of one 32 x 32 block, preferring the core of its block, a primitive having one quad
at a place. There is a fragment at a
pixel exactly when a triangle of the batch covers it and the die takes it. FRAGMENT_APPLY (R297, R299, R300). The unit works on
the first fragment with work that no earlier one at its pixel holds back: its depth test, which writes the depth when it passes
with ZWRITE, or its oldest colour, blended into its pixel if it passed; a fragment that failed writes nothing. Fragments that
are done go. A lost sector under its pixel fails the test, and leaves the pixel as it is, and is logged as consumed (R429; log entry 41).
Log entry 34 names the readings, log entry 29 that a batch that is not there leaves the state as it is. -/
def Obligations.RasterEvents : Prop :=
  (∀ (s : State) (d : Fin 2),
     ((s.die d).front = [] → exec (.rasterBatch d) s = .next s) ∧
     ∀ b rest g r, (s.die d).front = b :: rest → (s.die d).findNode b.node = some g → g.rsb = some r →
       let tris := (b.batch.prims.zipIdx).flatMap fun p => primTris r b.batch p.2 p.1
       ∃ v, ∃ warps : List (List Quad), ∃ nodes frags, exec (.rasterBatch d) s = .next (nodeOutcome (admitNodes v d) d b.node) ∧
         v.mem = s.mem ∧ v.agents = s.agents ∧ (v.die d).front = rest ∧ (v.die d).frags = (s.die d).frags ++ frags ∧
         (∀ w ∈ warps, w ≠ [] ∧ w.length ≤ 32 ∧ ∀ q ∈ w, ∀ q' ∈ w, q.qx / 16 = q'.qx / 16 ∧ q.qy / 16 = q'.qy / 16) ∧
         (v.die d).nodes = ((s.die d).nodes.map fun m => if m.id = g.id then { m with
           fragTeams := m.fragTeams ++ (List.range warps.length).map (s.nextId + ·) } else m) ++ nodes ∧
         nodes.length = warps.length ∧
         warps.flatten.Pairwise (fun q q' => ¬(q.tri.prim = q'.tri.prim ∧ q.qx = q'.qx ∧ q.qy = q'.qy)) ∧
         (∀ (i : Nat) (w : List Quad) (n : Node) (init : FragInit), warps[i]? = some w → nodes[i]? = some n → n.init = some init →
           n.id = s.nextId + i ∧ n.origin = .fragment g.id ∧ n.ctx = g.ctx ∧ n.cls = g.cls ∧ n.part = g.part ∧ n.args = rsFargs r ∧
           n.variants = [⟨r.kernel, 1, 0, 0⟩] ∧ (∀ q ∈ w, n.pref = some ((q.qx / 16 + 7 * (q.qy / 16)) % 24)) ∧ init.vl = 4 * w.length ∧
           ∀ l < 128, init.m1.getLsbD l = frags.any fun f => f.owner == n.id && f.lane == l) ∧
         (∀ px py, (∃ f ∈ frags, f.px = px ∧ f.py = py) ↔ TakesPixel r d px py ∧ ∃ t ∈ tris, CoversPixel t px py) ∧
         ∀ f ∈ frags, f.node = g.id ∧ f.rs = r ∧ f.depth = none ∧ f.ops = [] ∧ f.test = .untested ∧ f.complete = false) ∧
  (∀ (s : State) (d : Fin 2),
     let frags := (s.die d).frags
     let ready := fun f : Fragment => f.depth.isSome = true ∧ (f.test = .untested ∨ f.ops ≠ [])
     let heldBack := fun (before : List Fragment) (f : Fragment) => ∃ g ∈ before, g.px = f.px ∧ g.py = f.py ∧ shareTarget g.rs f.rs = true
     ∃ v, exec (.fragmentApply d) s = .next ((((v.die d).frags.filter fragmentSpent).map fun f => f.node).eraseDups.foldl (fun s n => nodeOutcome s d n)
         (v.onDie d fun x => { x with frags := x.frags.filter fun f => !(fragmentSpent f) })) ∧
       ((∀ before f after, frags = before ++ f :: after → ready f → heldBack before f) → v = s) ∧
       ∀ before f after, frags = before ++ f :: after → ready f → ¬ heldBack before f →
         (∀ b2 f2 a2, before = b2 ++ f2 :: a2 → ready f2 → heldBack b2 f2) →
         ∃ g, (v.die d).frags = (frags.map fun h => if h.owner = f.owner ∧ h.lane = f.lane then g else h) ∧ v.agents = s.agents ∧
           (f.test = .untested →
             g = { f with
               test := if (depthOutcome s f).1 then .passed else .failed
               ops := if (depthOutcome s f).1 then f.ops else [] } ∧
             v.mem = ((depthOutcome s f).2.map fun w => s.mem.write w.1 w.2).getD s.mem) ∧
           ∀ target pa colour ops, f.test ≠ .untested → f.ops = (target, pa, colour) :: ops → g = { f with ops := ops } ∧
             (f.test = .failed → v = { s with dies := v.dies } ∧ v.mem = s.mem) ∧
             ∀ t, f.test = .passed → f.rs.targets.getD target none = some t →
              (∀ k, PixelLost s pa (pixelBytes t) k → v.mem = s.mem ∧ LogsLost s v d) ∧
              ((∀ k, ¬ PixelLost s pa (pixelBytes t) k) →
               v.mem = s.mem.write pa (toBytes (blendPixel f.rs target t.fmt (s.mem.num pa (pixelBytes t)) colour) (pixelBytes t))))

/-- Decoding and encoding agree (R57 to R73): the word of a well-formed instruction decodes to it, with every field at every
value the encoding admits; and a word that decodes is the word of the instruction it decodes to, so that no bit of it is
dropped. -/
def Obligations.EncodingRoundTrip : Prop :=
  (∀ i : Instr, i.wf = true → ∀ w, encode i = some w → decode w = .ok i) ∧ ∀ (w : Word) (i : Instr), decode w = .ok i → encode i = some w ∧ i.wf = true

/-- Words written out from the spec's encoding tables decode to the instructions they stand for (R57 to R73, and the examples of
the instructions' own sections). -/
def Obligations.SpecWordsDecode : Prop :=
  decodeTableWord 64 0x0400C41400300000 = some (.add { d := 3, a := 4, b := 5, c := 0, pm := 0, pi := 0, ty := 6, rnd := 0, ty2 := 0, bx := 0, mod := 0 }) ∧
  decodeTableWord 64 0x0800C40000300080 = some (.addImm { d := 3, a := 4, imm := 16, res := 0, ty := 6, mod := 0 }) ∧
  decodeTableWord 64 0x2401461C03500000 = some (.vfadd { d := 5, a := 6, b := 7, c := 0, pm := 3, pi := 0, ty := 10, rnd := 0, ty2 := 0, bx := 0, mod := 0 }) ∧
  decodeTableWord 64 0x10603E0000000000 = some (.ret { cond := 0, uns := 0, res1 := 0, a := 62, b := 0, off := 0, res2 := 0 }) ∧
  decodeTableWord 64 0x1450000000000000 = some .nop ∧
  decodeTableWord 64 0x180000000000002A = some (.trap { d := 0, a := 0, b := 0, scope := 0, sel := 0, imm := 0x2A }) ∧
  decodeTableWord 64 0x4001460000280020 = some (.ld { space := 0, d := 5, a := 6, b := 0, hi := 0, pm := 0, pi := 0, ty := 5, lo := 16, nt := 0 }) ∧
  decodeTableWord 64 0x50514000000C0001 = some (.karrw { d := 5, a := 0, b := 0, scope := 0, kidx := 3, kspace := 0, kmode := 0, kval := 1 }) ∧
  decodeTableWord 64 0x5401461C00000000 = some (.tlaunch { d := 5, a := 6, b := 7, scope := 0, sel := 0, imm := 0 }) ∧
  decodeTableWord 64 0xF401400000000000 = some (.qwait { d := 5, a := 0, b := 0, scope := 0, sel := 0, imm := 0 }) ∧
  decodeTableWord 64 0x0000000000000000 = none

/-- A step runs the decoded instruction (R57, R73, R100). Where no fatal error has stopped the module (R431), the agenda is empty, the
hardware has nothing to do of itself and the issuing warp goes on issuing, a clock passes, in which a stalled warp may begin to rove (R32); then, if the word at its
translated PC lies in no sector with an uncorrectable error, decodes and its operands are there, the step is the instruction's meaning,
its issue counted (R414), with the marks of late data it writes over cleared; it waits while they are not, or begins to rove; a word
that is no instruction freezes the warp with ILLEGAL, its sub-cause and the word. What the clock counted is charged to the warp's
context (R414), and a write-back of a line with an uncorrectable error is discarded where it is bad (R429). That a step is one clock and in what order agents issue is the model's choice (log entries 2 and 3). -/
def Obligations.StepRunsDecodedInstruction : Prop :=
  ∀ (s u : State) (d : Fin 2) (c : Fin 24) (p : Fin 8) (k : Fin 4) (ph : Phys), (∀ e, (s.die e).fatal = false) → s.agenda = [] → nextInternal s = none →
    let at_ := chargeTo (roveAll (tick s)) none
    at_.cur.who = .warp d c p k → at_.cur.status = .running → at_.cur.yielded = false → at_.cur.rove = none →
    translateFor at_ at_.cur at_.cur.pc .fetch = (u, .ok ph) → inPool ph.pa = true → ErrSite.sector (ph.pa / 32) ∉ at_.softErrs →
    let w := BitVec.ofNat 64 (at_.mem.num ph.pa 8)
    let charged := fun (t : State) => discardLost (chargeTo t (agentPayer at_ at_.cur))
    (∀ i, decode w = .ok i → majorOf w ≠ 0x3D → ∃ v, CachesOnly at_ v ∧
      (readyTo v i = .go → step s = onNext charged (onNext (clearMarks i v.cur) (exec i (countIssue i v)))) ∧
      (readyTo v i = .stall → step s = .next (charged (roveEnter v)))) ∧
    (∀ sub, decode w = .error sub → majorOf w ≠ 0x3D → ∃ v t, CachesOnly at_ v ∧ step s = .next (charged t) ∧ FreezesWith v t 0x10 sub w) ∧
    (majorOf w = 0x3D → ∃ v t, CachesOnly at_ v ∧ step s = .next (charged t) ∧ FreezesWith v t 0x10 6 w)

/-- What reset leaves (R241, R243, R335, R372, R386 to R392, R403, R411, R426): no warp, team, command or launch, memory
with nothing listed, both dies' clocks and counters 0, every queue disabled, no far knot allocated, no partition loaded, every
core's last ply base 7, no head on, the reel off, the measurement registers zero, BOOTSTAT 0 and ROMMODE 1. The memory's
canonical form, addresses rising and no entry equal to what an unlisted address reads as, holds at reset of the pool, of the boot
ROM's memory and of both distaff memories (the model's form of State; 11 R266). The values the spec does not give are the model's (log entries 4 and 7), and so is that
every thread stands exited at reset, since a thread runs from the distaff image's ENTRY (log entry 6);
memory's canonical form is the model's own. No sector is in error, no system cache holds a line, and the boot ROM's memory
lists nothing. -/
def Obligations.ResetState : Prop :=
  (let s := State.reset
   s.mem = [] ∧ s.teams = [] ∧ s.cmds = [] ∧ s.launches = [] ∧ s.knotQ = [] ∧ s.dir = [] ∧ s.softErrs = [] ∧ s.host.l3 = [] ∧ s.reel.st = .off ∧ s.stage.sec = 0 ∧ s.stage.nsec = 0 ∧
   s.host.bootStat = 0 ∧ s.host.romMode = true ∧ s.host.harts = false ∧ (∀ k : Fin 8, s.host.mr[k] = List.replicate 64 0) ∧
   (∀ w ∈ s.agents, ∃ d t, w.who = .thread d t ∧ w.status = .exited) ∧
   ∀ d : Fin 2, (s.die d).clock = 0 ∧ (s.die d).fkown = [] ∧ (s.die d).contexts = [] ∧ (s.die d).tlb = [] ∧ (s.die d).parts = [] ∧ (s.die d).res = 0 ∧
     (s.die d).nodes = [] ∧ (s.die d).fatal = false ∧ (s.die d).sys = [] ∧ (∀ k : Fin 16, (s.die d).counters[k] = 0) ∧
     (∀ c : Fin 24, (s.coreAt d c).lastBase = 7 ∧ (s.coreAt d c).l1 = []) ∧
     (∀ q : Fin 64, (s.queue ⟨d, q⟩).st = .disabled ∧ (s.queue ⟨d, q⟩).en = false ∧ (s.queue ⟨d, q⟩).head = 0 ∧ (s.queue ⟨d, q⟩).pub = 0) ∧
     ∀ h : Fin 2, (s.head d h).st = .off ∧ (s.head d h).cfg = 0 ∧ (s.head d h).flips = []) ∧
  (Memory.wf State.reset.mem = true ∧ Memory.wf State.reset.host.l3 = true ∧ ∀ d, Memory.wf (State.reset.die d).dmem = true)

/-- Every step keeps the memory's canonical form, from whatever state has it: the pool's, the boot ROM's and both distaff memories' (the
model's form of State; 11 R266). The form is the model's own (log entry 4). -/
def Obligations.StepKeepsMemoryForm : Prop :=
  KeptByStep fun s => Memory.wf s.mem = true ∧ Memory.wf s.host.l3 = true ∧ ∀ d, Memory.wf (s.die d).dmem = true
end

