-- ==== Sys2Proof/Laws/Vectors.lean ====
section
/-! SUPPORT. Elements of registers and groups: what is read after an element is written, and what a group write leaves alone
(01 R16 to R18). -/

set_option Elab.async false
set_option exponentiation.threshold 5000

namespace Sys2Proof.Machine

theorem packNat_lt (w : Nat) (f : Nat → Nat) (n : Nat) : packNat w f n < 2 ^ (w * n) := by
  induction n with
  | zero => simp [packNat]
  | succ n ih =>
    have h : f n % 2 ^ w < 2 ^ w := Nat.mod_lt _ (by positivity)
    rw [packNat, Nat.shiftLeft_eq, Nat.mul_succ, pow_add]
    calc packNat w f n + f n % 2 ^ w * 2 ^ (w * n)
        < 2 ^ (w * n) + f n % 2 ^ w * 2 ^ (w * n) := by omega
      _ = (f n % 2 ^ w + 1) * 2 ^ (w * n) := by ring
      _ ≤ 2 ^ w * 2 ^ (w * n) := Nat.mul_le_mul_right _ h
      _ = 2 ^ (w * n) * 2 ^ w := by ring

/-- A field of a packed number. -/
theorem packNat_field (w : Nat) (f : Nat → Nat) (n e : Nat) (he : e < n) :
    (packNat w f n >>> (w * e)) % 2 ^ w = f e % 2 ^ w := by
  induction n with
  | zero => omega
  | succ n ih =>
    have hp := packNat_lt w f n
    rw [packNat, Nat.shiftLeft_eq, Nat.shiftRight_eq_div_pow]
    rcases Nat.lt_succ_iff_lt_or_eq.mp he with h | h
    · have e1 : f n % 2 ^ w * 2 ^ (w * n) = 2 ^ (w * e) * (f n % 2 ^ w * 2 ^ (w * (n - e - 1)) * 2 ^ w) := by
        have : w * n = w * e + w * (n - e - 1) + w := by
          have : n = e + (n - e - 1) + 1 := by omega
          conv_lhs => rw [this]
          ring
        rw [this, pow_add, pow_add]
        ring
      rw [e1, Nat.add_mul_div_left _ _ (by positivity), Nat.add_mul_mod_self_right, ← Nat.shiftRight_eq_div_pow, ih h]
    · subst h
      rw [Nat.add_mul_div_right _ _ (by positivity), Nat.div_eq_of_lt hp, Nat.zero_add, Nat.mod_mod]

/-- An element of a register built from its elements (R16). -/
theorem elemOf_buildReg (w : Nat) (f : Nat → Nat) (e : Nat) (he : e < 4096 / w) : elemOf (buildReg w f) w e = f e % 2 ^ w := by
  have h : packNat w f (4096 / w) < 2 ^ 4096 :=
    lt_of_lt_of_le (packNat_lt w f _) (Nat.pow_le_pow_right (by norm_num) (Nat.mul_div_le 4096 w))
  rw [elemOf, buildReg, BitVec.toNat_ofNat, Nat.mod_eq_of_lt h, packNat_field _ _ _ _ he]

/-- Bits of a mask built from its bits. -/
theorem buildMask_getLsbD (f : Nat → Bool) (i : Nat) (hi : i < 128) : (buildMask f).getLsbD i = f i := by
  have h := packNat_lt 1 (fun i => if f i then 1 else 0) 128
  have hf := packNat_field 1 (fun i => if f i then 1 else 0) 128 i hi
  rw [Nat.one_mul] at h hf
  rw [buildMask, BitVec.getLsbD, BitVec.toNat_ofNat, Nat.mod_eq_of_lt h, Nat.testBit_eq_decide_div_mod_eq,
    ← Nat.shiftRight_eq_div_pow]
  simp only [Nat.pow_one] at hf
  rw [hf]
  cases f i <;> simp

theorem setReg_getD (v : Vector VReg 64) (r k : Nat) (x : VReg) (hr : r < 64) :
    (setReg v r x).toArray.getD k 0 = if k = r then x else v.toArray.getD k 0 := by
  simp only [setReg, Vector.toArray_setIfInBounds, Array.getD_eq_getD_getElem?, Array.getElem?_setIfInBounds]
  by_cases h : r = k
  · subst h
    simp [hr]
  · simp [h, Ne.symm h]

/-- Register `k` after a group is written (R17). -/
theorem writeGroup_getD (v : Vector VReg 64) (base n w : Nat) (act : Nat → Bool) (val : Nat → Nat) (k : Nat)
    (hb : base + groupSize n w ≤ 64) :
    (writeGroup v base n w act val).toArray.getD k 0 =
      if base ≤ k ∧ k < base + groupSize n w then
        groupReg (v.toArray.getD k 0) (groupSize n w) (k - base) w act val
      else v.toArray.getD k 0 := by
  unfold writeGroup
  generalize groupSize n w = f at *
  suffices H : ∀ m, m ≤ f → ((List.range m).foldl (fun acc k =>
      setReg acc (base + k) (groupReg (v.toArray.getD (base + k) 0) f k w act val)) v).toArray.getD k 0 =
      if base ≤ k ∧ k < base + m then groupReg (v.toArray.getD k 0) f (k - base) w act val else v.toArray.getD k 0 from H f le_rfl
  intro m hm
  induction m with
  | zero => simp
  | succ m ih =>
    rw [List.range_succ, List.foldl_append]
    simp only [List.foldl_cons, List.foldl_nil]
    rw [setReg_getD _ _ _ _ (by omega), ih (by omega)]
    by_cases h : k = base + m
    · subst h
      simp
    · rw [if_neg h]
      by_cases h2 : base ≤ k ∧ k < base + m
      · rw [if_pos h2, if_pos ⟨h2.1, by omega⟩]
      · rw [if_neg h2, if_neg (by omega)]

/-- An element read from a group just written (R17, R18). -/
theorem readGroup_writeGroup (v : Vector VReg 64) (base n w e : Nat) (act : Nat → Bool) (val : Nat → Nat)
    (hb : base + groupSize n w ≤ 64) (hf : 0 < groupSize n w) (he : e / groupSize n w < 4096 / w) :
    readGroup (writeGroup v base n w act val) base n w e =
      if act e then val e % 2 ^ w else readGroup v base n w e % 2 ^ w := by
  have hm := Nat.mod_lt e hf
  simp only [readGroup]
  rw [writeGroup_getD v base n w act val _ hb, if_pos ⟨by omega, by omega⟩]
  simp only [groupReg, Nat.add_sub_cancel_left]
  have hd : e / groupSize n w * groupSize n w + e % groupSize n w = e := by
    rw [Nat.mul_comm]
    exact Nat.div_add_mod e _
  rw [elemOf_buildReg _ _ _ he, hd]
  split <;> rfl

theorem elemOf_lt (r : VReg) (w e : Nat) : elemOf r w e < 2 ^ w := Nat.mod_lt _ (by positivity)

/-- A register outside a group written (R17). -/
theorem vAt_writeElems (w : Warp) (d : BitVec 6) (n wd : Nat) (act : Mask) (val : Nat → Nat) (k : Nat)
    (hb : d.toNat + groupSize n wd ≤ 64) (hk : k < d.toNat ∨ d.toNat + groupSize n wd ≤ k) :
    vAt (writeElems w d n wd act val) k = vAt w k := by
  simp only [vAt, writeElems]
  rw [writeGroup_getD _ _ _ _ _ _ _ hb, if_neg (by omega)]

/-- An element of the group written by an instruction (R17, R18). -/
theorem srcElem_writeElems (w : Warp) (d : BitVec 6) (n wd e : Nat) (act : Mask) (val : Nat → Nat)
    (hb : d.toNat + groupSize n wd ≤ 64) (hf : 0 < groupSize n wd) (he : e / groupSize n wd < 4096 / wd) :
    srcElem (writeElems w d n wd act val) d n wd e =
      if act.getLsbD (laneOfElem n e) then val e % 2 ^ wd else srcElem w d n wd e := by
  have h : readGroup w.v d.toNat n wd e % 2 ^ wd = readGroup w.v d.toNat n wd e :=
    Nat.mod_eq_of_lt (elemOf_lt _ _ _)
  simp only [srcElem, writeElems]
  rw [readGroup_writeGroup _ _ _ _ _ _ _ hb hf he, h]

end Sys2Proof.Machine
end

