-- ==== Sys2Proof/Laws/Alu.lean ====
section
/-! SUPPORT. The model's integer arithmetic over numbers gives the operations over bit vectors of the statements (02 R41, R42;
05 R94, R95). -/

set_option Elab.async false

namespace Sys2Proof.Machine

open Sys2Proof Sys2Proof.Claims

variable {n : Nat} (a b : BitVec n)

theorem mod_of_le (x : Nat) (h : x ≤ a.toNat) : x % 2 ^ n = x := Nat.mod_eq_of_lt (lt_of_le_of_lt h a.isLt)
theorem toSigned_toNat : toSigned n a.toNat = a.toInt := by
  rw [toSigned, BitVec.ofNat_toNat, BitVec.setWidth_eq]
theorem ofNat_ofSigned (v : Int) : BitVec.ofNat n (ofSigned n v) = BitVec.ofInt n v := by
  rw [ofSigned, BitVec.ofNat_toNat, BitVec.setWidth_eq]

theorem ofNat_alu_sub : BitVec.ofNat n (a.toNat + (2 ^ n - b.toNat)) = a - b := by
  apply BitVec.eq_of_toNat_eq
  rw [BitVec.toNat_ofNat, BitVec.toNat_sub]
  congr 1
  omega
theorem ofNat_alu_andn : BitVec.ofNat n (a.toNat &&& (2 ^ n - 1 - b.toNat)) = a &&& ~~~b := by
  apply BitVec.eq_of_toNat_eq
  rw [BitVec.toNat_ofNat, BitVec.toNat_and, BitVec.toNat_not]
  exact mod_of_le a _ Nat.and_le_left
theorem ofNat_aluShl : BitVec.ofNat n (aluShl n a.toNat b.toNat) = a <<< (b.toNat % n) := by
  apply BitVec.eq_of_toNat_eq
  simp [aluShl]
theorem ofNat_aluShr : BitVec.ofNat n (aluShr n a.toNat b.toNat) = a >>> (b.toNat % n) := by
  apply BitVec.eq_of_toNat_eq
  rw [BitVec.toNat_ofNat, aluShr, BitVec.toNat_ushiftRight]
  exact mod_of_le a _ (by rw [Nat.shiftRight_eq_div_pow]; exact Nat.div_le_self _ _)
theorem ofNat_aluSar : BitVec.ofNat n (aluSar n a.toNat b.toNat) = a.sshiftRight (b.toNat % n) := by
  rw [aluSar, ofNat_ofSigned, toSigned_toNat]
  rfl
theorem ofNat_aluMulh (sg : Bool) : BitVec.ofNat n (aluMulh n sg a.toNat b.toNat) = highProduct sg a b := by
  cases sg
  · rfl
  · simp only [aluMulh, highProduct, if_true, ofNat_ofSigned, toSigned_toNat]
    push_cast
    rfl
theorem ofInt_tdiv : BitVec.ofInt n (Int.tdiv a.toInt b.toInt) = a.sdiv b := by
  apply BitVec.eq_of_toInt_eq
  rw [BitVec.toInt_ofInt, BitVec.toInt_sdiv]
theorem ofInt_tmod : BitVec.ofInt n (Int.tmod a.toInt b.toInt) = a.srem b := by
  apply BitVec.eq_of_toInt_eq
  rw [BitVec.toInt_ofInt, BitVec.toInt_srem, ← BitVec.toInt_srem]
  exact BitVec.toInt_bmod_cancel _
theorem ofNat_aluDiv (sg : Bool) : BitVec.ofNat n (aluDiv n sg a.toNat b.toNat) = quotient sg a b := by
  unfold aluDiv quotient
  by_cases h : b = 0
  · subst h
    apply BitVec.eq_of_toNat_eq
    simp
  · have hb : ¬ b.toNat = 0 := fun e => h (BitVec.eq_of_toNat_eq (by simpa using e))
    rw [if_neg hb, if_neg h]
    cases sg
    · apply BitVec.eq_of_toNat_eq
      simp only [BitVec.toNat_ofNat, BitVec.toNat_udiv, Bool.false_eq_true, if_false]
      exact mod_of_le a _ (Nat.div_le_self _ _)
    · rw [if_pos rfl, if_pos rfl, ofNat_ofSigned, toSigned_toNat, toSigned_toNat, ofInt_tdiv]
theorem ofNat_aluRem (sg : Bool) : BitVec.ofNat n (aluRem n sg a.toNat b.toNat) = remainder sg a b := by
  unfold aluRem remainder
  by_cases h : b = 0
  · subst h
    simp
  · have hb : ¬ b.toNat = 0 := fun e => h (BitVec.eq_of_toNat_eq (by simpa using e))
    rw [if_neg hb, if_neg h]
    cases sg
    · apply BitVec.eq_of_toNat_eq
      simp only [BitVec.toNat_ofNat, BitVec.toNat_umod, Bool.false_eq_true, if_false]
      exact mod_of_le a _ (Nat.mod_le _ _)
    · rw [if_pos rfl, if_pos rfl, ofNat_ofSigned, toSigned_toNat, toSigned_toNat, ofInt_tmod]
theorem ofNat_aluRol : BitVec.ofNat n (aluRol n a.toNat b.toNat) = a.rotateLeft (b.toNat % n) := by
  rcases Nat.eq_zero_or_pos n with h | h
  · subst h
    exact Subsingleton.elim _ _
  rw [BitVec.rotateLeft_def]
  apply BitVec.eq_of_toNat_eq
  rw [Nat.mod_eq_of_lt (Nat.mod_lt _ h)]
  rw [BitVec.toNat_ofNat, aluRol, Nat.mod_mod, BitVec.toNat_or, BitVec.toNat_shiftLeft, BitVec.toNat_ushiftRight,
    Nat.or_mod_two_pow]
  congr 1
  exact mod_of_le a _ (by rw [Nat.shiftRight_eq_div_pow]; exact Nat.div_le_self _ _)
theorem ofNat_aluRor : BitVec.ofNat n (aluRor n a.toNat b.toNat) = a.rotateRight (b.toNat % n) := by
  rcases Nat.eq_zero_or_pos n with h | h
  · subst h
    exact Subsingleton.elim _ _
  rw [BitVec.rotateRight_def]
  apply BitVec.eq_of_toNat_eq
  rw [Nat.mod_eq_of_lt (Nat.mod_lt _ h)]
  rw [BitVec.toNat_ofNat, aluRor, Nat.mod_mod, BitVec.toNat_or, BitVec.toNat_shiftLeft, BitVec.toNat_ushiftRight,
    Nat.or_mod_two_pow]
  congr 1
  exact mod_of_le a _ (by rw [Nat.shiftRight_eq_div_pow]; exact Nat.div_le_self _ _)
theorem ofNat_brevOf : BitVec.ofNat n (brevOf n a.toNat) = a.reverse := by
  have hl := packNat_lt 1 (fun i => bits a.toNat (n - 1 - i) (n - 1 - i)) n
  apply BitVec.eq_of_getLsbD_eq
  intro i hi
  have hf := packNat_field 1 (fun i => bits a.toNat (n - 1 - i) (n - 1 - i)) n i hi
  rw [Nat.one_mul] at hl hf
  rw [BitVec.getLsbD, BitVec.toNat_ofNat, brevOf, Nat.mod_eq_of_lt hl, Nat.testBit_eq_decide_div_mod_eq,
    ← Nat.shiftRight_eq_div_pow]
  rw [Nat.pow_one] at hf
  rw [hf, BitVec.getLsbD_reverse, BitVec.getMsbD, BitVec.getLsbD, Nat.testBit_eq_decide_div_mod_eq]
  simp [hi, bits, Nat.shiftRight_eq_div_pow, show n - 1 - i + 1 - (n - 1 - i) = 1 by omega]
theorem ofNat_clzOf (hn : 0 < n) : BitVec.ofNat n (clzOf n a.toNat) = a.clz := by
  by_cases h : a = 0
  · subst h
    have e : (0 : BitVec n).clz = BitVec.ofNat n n := by
      rw [← BitVec.natCast_eq_ofNat]
      exact BitVec.clz_eq_iff_eq_zero.mpr rfl
    rw [e]
    simp [clzOf]
  have h0 : ¬ a.toNat = 0 := fun e => h (BitVec.eq_of_toNat_eq (by simpa using e))
  have h1 := BitVec.two_pow_sub_clz_le_toNat_of_ne_zero hn h
  have h2 := BitVec.toNat_lt_two_pow_sub_clz (x := a)
  have h3 := (BitVec.clz_lt_iff_ne_zero (x := a)).mpr h
  have h4 : a.clz.toNat < n := by
    have := BitVec.lt_def.mp h3
    rw [BitVec.natCast_eq_ofNat, BitVec.toNat_ofNat] at this
    exact lt_of_lt_of_le this (Nat.mod_le _ _)
  have hl : Nat.log2 a.toNat = n - 1 - a.clz.toNat := by
    have e1 := (Nat.le_log2 h0).mpr h1
    have e2 := (Nat.log2_lt h0).mpr h2
    omega
  unfold clzOf
  rw [if_neg h0, hl, show n - 1 - (n - 1 - a.clz.toNat) = a.clz.toNat by omega]
  simp
/-- The bits below the lowest 1 are 0. -/
theorem ctzOf_spec (w x : Nat) : ctzOf w x ≤ w ∧ (∀ i < ctzOf w x, x.testBit i = false) ∧
    (ctzOf w x < w → x.testBit (ctzOf w x) = true) := by
  induction w generalizing x with
  | zero => simp [ctzOf]
  | succ w ih =>
    unfold ctzOf
    split
    · simp [*]
    · obtain ⟨h1, h2, h3⟩ := ih (x / 2)
      refine ⟨by omega, ?_, ?_⟩
      · intro i hi
        cases i with
        | zero => simp; omega
        | succ i => rw [Nat.testBit_succ]; exact h2 i (by omega)
      · intro h
        rw [Nat.add_comm, Nat.testBit_succ]
        exact h3 (by omega)
theorem ofNat_ctzOf : BitVec.ofNat n (ctzOf n a.toNat) = a.ctz := by
  obtain ⟨h1, h2, h3⟩ := ctzOf_spec n a.toNat
  by_cases h : a = 0
  · subst h
    have e : (0 : BitVec n).ctz = BitVec.ofNat n n := by
      rw [BitVec.ctz, ← BitVec.natCast_eq_ofNat]
      exact BitVec.clz_eq_iff_eq_zero.mpr (by simp)
    rw [e]
    congr 1
    by_contra hc
    have := h3 (by omega)
    simp at this
  have hc := BitVec.getLsbD_true_ctz_of_ne_zero h
  have hf := fun i (hi : i < a.ctz.toNat) => BitVec.getLsbD_false_of_lt_ctz hi
  have e : ctzOf n a.toNat = a.ctz.toNat := by
    rcases lt_trichotomy (ctzOf n a.toNat) a.ctz.toNat with hl | he | hl
    · have hn : ctzOf n a.toNat < n := by
        have := (BitVec.ctz_lt_iff_ne_zero (x := a)).mpr h
        have := BitVec.lt_def.mp this
        rw [BitVec.natCast_eq_ofNat, BitVec.toNat_ofNat] at this
        have := Nat.mod_le n (2 ^ n)
        omega
      have := hf _ hl
      rw [BitVec.getLsbD, h3 hn] at this
      exact absurd this (by simp)
    · exact he
    · have := h2 _ hl
      rw [BitVec.getLsbD] at hc
      rw [this] at hc
      exact absurd hc (by simp)
  rw [e]
  simp
theorem popOf_succ (w x : Nat) : popOf (w + 1) x = popOf w x + (x.testBit w).toNat := by
  induction w generalizing x with
  | zero => rcases Nat.mod_two_eq_zero_or_one x with h | h <;> simp [popOf, Nat.testBit_zero, h]
  | succ w ih =>
    have e : popOf (w + 1 + 1) x = x % 2 + popOf (w + 1) (x / 2) := rfl
    have e2 : popOf (w + 1) x = x % 2 + popOf w (x / 2) := rfl
    rw [e, ih, e2, Nat.testBit_succ]
    omega
theorem ofNat_popOf : BitVec.ofNat n (popOf n a.toNat) = a.cpop := by
  have h : ∀ w acc, a.cpopNatRec w acc = acc + popOf w a.toNat := by
    intro w
    induction w with
    | zero => intro acc; rfl
    | succ w ih =>
      intro acc
      rw [BitVec.cpopNatRec_succ, ih, popOf_succ, BitVec.getLsbD]
      omega
  rw [BitVec.cpop, h, Nat.zero_add]

theorem intOrder_neg (sg : Bool) : decide (intOrder n sg a.toNat b.toNat < 0) = less sg a b := by
  cases sg <;>
    simp [intOrder, less, toSigned, BitVec.slt, BitVec.ult, Nat.mod_eq_of_lt a.isLt, Nat.mod_eq_of_lt b.isLt]
theorem ofNat_aluMin (sg : Bool) : BitVec.ofNat n (aluMin n sg a.toNat b.toNat) = smaller sg a b := by
  simp only [aluMin, smaller, intCond, condHolds, intOrder_neg]
  split <;> simp
theorem ofNat_aluMax (sg : Bool) : BitVec.ofNat n (aluMax n sg a.toNat b.toNat) = larger sg a b := by
  simp only [aluMax, larger, intCond, condHolds, intOrder_neg]
  split <;> simp
theorem intCond_compares (c : Nat) (sg : Bool) : intCond c n sg a.toNat b.toNat = compares c sg a b := by
  have h1 := intOrder_neg a b sg
  have h2 := intOrder_neg b a sg
  have h3 : intOrder n sg b.toNat a.toNat = - intOrder n sg a.toNat b.toNat := by
    cases sg <;> simp [intOrder]
  rw [h3] at h2
  have h4 : decide (intOrder n sg a.toNat b.toNat = 0) = (a == b) := by
    cases sg
    · simp only [intOrder, Nat.mod_eq_of_lt a.isLt, Nat.mod_eq_of_lt b.isLt, Bool.false_eq_true, if_false]
      by_cases e : a = b
      · subst e
        simp
      · have h : a.toNat ≠ b.toNat := fun h => e (BitVec.eq_of_toNat_eq h)
        rw [beq_eq_false_iff_ne.mpr e, decide_eq_false (by omega)]
    · simp only [intOrder, toSigned_toNat, if_true]
      by_cases e : a = b
      · subst e
        simp
      · have h : a.toInt ≠ b.toInt := fun h => e (BitVec.eq_of_toInt_eq h)
        rw [beq_eq_false_iff_ne.mpr e, decide_eq_false (by omega)]
  unfold intCond condHolds compares
  generalize intOrder n sg a.toNat b.toNat = o at *
  split
  · exact h4
  · rw [bne, ← h4]
    simp
  · exact h1
  · rw [← h2, ← decide_not]
    congr 1
    simp
  · rw [← h2]
    congr 1
    simp
  · rw [← h1, ← decide_not]
    simp

end Sys2Proof.Machine
end

