-- ==== Sys2Proof/Laws/Elements.lean ====
section
/-! SUPPORT. What the shared forms of vector instructions do, element by element (01 R17, R18; 06 R117). -/

set_option Elab.async false

namespace Sys2Proof.Machine

open Sys2Proof Sys2Proof.Claims

/-- The sizes of a group: `n` elements of `wd` bits fill `groupSize n wd` registers, which fit at `d`. -/
structure GroupOk (d : BitVec 6) (n wd : Nat) : Prop where
  pos : 0 < groupSize n wd
  room : ∀ e < n, e / groupSize n wd < 4096 / wd
  fits : d.toNat + groupSize n wd ≤ 64

theorem ofNat_mod_two_pow (x n : Nat) : BitVec.ofNat n (x % 2 ^ n) = BitVec.ofNat n x := by
  apply BitVec.eq_of_toNat_eq
  simp

theorem srcElem_of_v (w w' : Warp) (r : BitVec 6) (n wd e : Nat) (h : w.v = w'.v) : srcElem w r n wd e = srcElem w' r n wd e := by
  rw [srcElem, srcElem, h]

theorem vAt_of_v (w w' : Warp) (k : Nat) (h : w.v = w'.v) : vAt w k = vAt w' k := by
  rw [vAt, vAt, h]

theorem retire_writeElems_v (w : Warp) (d : BitVec 6) (n wd : Nat) (act : Mask) (val : Nat → Nat) :
    (retire (writeElems w d n wd act val)).v = (writeElems w d n wd act val).v := rfl

theorem retire_writeElems (w : Warp) (d : BitVec 6) (n wd : Nat) (act : Mask) (val : Nat → Nat) :
    retire (writeElems w d n wd act val) = { retire w with v := (writeElems w d n wd act val).v } := rfl

/-- What a write of elements gives. -/
theorem vecWrite_spec (s : State) (f : FmtA) (n wd : Nat) (val : Nat → Nat) (h : GroupOk f.d n wd) :
    ∃ t, vecWrite s f n wd val = .next t ∧
      VectorWrite s t f.d n wd (activeElt s.cur f n) fun e => BitVec.ofNat wd (val e) := by
  have hr := srcElem_writeElems s.cur f.d n wd
  have hv := vAt_writeElems s.cur f.d n wd (activeMask s.cur f.pm f.pi) val
  have e0 := retire_writeElems s.cur f.d n wd (activeMask s.cur f.pm f.pi) val
  refine ⟨_, rfl, ?_, fun e he => ?_, fun k _ hk => ?_⟩
  · dsimp only
    rw [e0]
  · dsimp only
    rw [srcElem_of_v _ _ _ _ _ _ (retire_writeElems_v _ _ _ _ _ _), hr e _ val h.fits h.pos (h.room e he), activeElt, ← laneOfElem]
    split
    · exact ofNat_mod_two_pow _ _
    · rfl
  · dsimp only
    rw [vAt_of_v _ _ _ (retire_writeElems_v _ _ _ _ _ _)]
    exact hv _ h.fits hk

theorem tyWidth_cases : ∀ t : BitVec 4,
    tyWidth t = 64 ∨ tyWidth t = 32 ∨ tyWidth t = 16 ∨ tyWidth t = 8 ∨ tyWidth t = 4 := by
  decide

/-- The group of a type fits where a 64-bit one begins at an even register. -/
theorem groupOk_of_pairOk (t : BitVec 4) (d : BitVec 6) (h : pairOk t [d] = true) : GroupOk d (elemCount t) (tyWidth t) := by
  have hd := d.isLt
  have hw := tyWidth_cases t
  rcases hw with hw | hw | hw | hw | hw
  · have he : d.toNat % 2 = 0 := by
      simpa [pairOk, hw, aligned] using h
    refine ⟨?_, fun e h => ?_, ?_⟩ <;> simp_all [elemCount, groupSize] <;> omega
  all_goals refine ⟨?_, fun e h => ?_, ?_⟩ <;> simp_all [elemCount, groupSize]

/-- A write to a mask. -/
theorem maskResult_spec (s : State) (d : BitVec 6) (act val : Nat → Bool) (hd : d.toNat < 16) (m : Mask)
    (hm : ∀ pl < 128, m.getLsbD pl = if act pl then val pl else (readM s.cur (mfield d)).getLsbD pl) :
    ∃ t, answer s (retire (writeM s.cur (mfield d) m)) = .next t ∧ MaskWrite s t d act val := by
  have h16 : (mfield d).toNat = d.toNat := by
    rw [mfield, BitVec.toNat_setWidth, Nat.mod_eq_of_lt hd]
  have h0 : (mfield d = 0) ↔ d = 0 := by
    constructor
    · intro h
      apply BitVec.eq_of_toNat_eq
      rw [← h16, h]
      rfl
    · rintro rfl
      rfl
  refine ⟨_, rfl, m, ?_, hm⟩
  unfold writeM retire
  by_cases h : d = 0
  · rw [if_pos (h0.mpr h), if_pos h]
  · rw [if_neg (fun e => h (h0.mp e)), if_neg h]
    have e : s.cur.m.set (mfield d).toNat m (mfield d).isLt = s.cur.m.setIfInBounds d.toNat m := by
      apply Vector.ext
      intro i hi
      simp [Vector.getElem_setIfInBounds, Vector.getElem_set, h16]
    rw [← e]

/-- The integer types are signed as the type says (R66). -/
theorem tySigned_signedType : ∀ t : BitVec 4, t.toNat < 8 → tySigned t.toNat = signedType t := by decide

/-- The group of a type fits where a 64-bit one begins at an even register (R117). -/
theorem groupOk_even (t : BitVec 4) (d : BitVec 6) (h : tyWidth t = 64 → d.toNat % 2 = 0) : GroupOk d (elemCount t) (tyWidth t) := by
  apply groupOk_of_pairOk
  unfold pairOk
  rcases tyWidth_cases t with hw | hw | hw | hw | hw
  · simp [hw, aligned, h hw]
  all_goals simp [hw]

/-- An element fits its width. -/
theorem srcElem_lt (w : Warp) (r : BitVec 6) (n wd e : Nat) : srcElem w r n wd e < 2 ^ wd := by
  rw [srcElem, readGroup]; exact elemOf_lt _ _ _

/-- An element as a number. -/
theorem elt_toNat (w : Warp) (r : BitVec 6) (t : BitVec 4) (e : Nat) : (elt w r t e).toNat = srcElem w r (elemCount t) (tyWidth t) e := by
  rw [elt, BitVec.toNat_ofNat, Nat.mod_eq_of_lt (srcElem_lt _ _ _ _ _)]

/-- An element of source B as a number (R117). -/
theorem eltB_toNat (w : Warp) (f : FmtA) (e : Nat) : (eltB w f e).toNat = srcB w f (elemCount f.ty) (tyWidth f.ty) e := by
  rw [eltB, srcB]; split
  · rw [BitVec.toNat_setWidth]
  · exact elt_toNat _ _ _ _

/-- The vector result of an operation on bit vectors. -/
theorem vecOp_spec (s : State) (f : FmtA) (h : tyWidth f.ty = 64 → f.d.toNat % 2 = 0)
    (val : Nat → Nat) (r : Nat → BitVec (tyWidth f.ty)) (hr : ∀ e, BitVec.ofNat _ (val e) = r e) (o : Out)
    (ho : o = vecWrite s f (elemCount f.ty) (tyWidth f.ty) val) : ∃ t, o = .next t ∧ Elementwise s t f r := by
  subst ho
  obtain ⟨t, h1, h2⟩ := vecWrite_spec s f _ _ val (groupOk_even f.ty f.d h)
  exact ⟨t, h1, by simpa only [Elementwise, hr] using h2⟩

/-- A bit of the mask of lanes below VL (R14). -/
theorem vlMask_bit (w : Warp) (pl : Nat) (h : pl < 128) : (vlMask w).getLsbD pl = belowVl w pl := by
  rw [vlMask, buildMask_getLsbD _ _ h, belowVl]
  cases posOf w pl <;> rfl

/-- An active element's position is known (R14, R18). -/
theorem active_pos (w : Warp) (f : FmtA) (n e : Nat) (h : activeElt w f n e = true) : ∃ p, posOf w (e * 128 / n) = some p ∧ p < w.vl := by
  rw [activeElt, activeMask, BitVec.getLsbD_and, BitVec.getLsbD_and, Bool.and_eq_true, Bool.and_eq_true] at h
  have hlt : e * 128 / n < 128 := by
    by_contra hc
    have := h.1.2
    rw [BitVec.getLsbD_of_ge _ _ (by omega)] at this
    exact Bool.noConfusion this
  have := h.1.2
  rw [vlMask_bit _ _ hlt, belowVl] at this
  cases hp : posOf w (e * 128 / n) with
  | none => simp [hp] at this
  | some p => simp [hp] at this; exact ⟨p, rfl, this⟩

/-- Elements per lane: the lane of an element. -/
theorem lane_div (t : BitVec 4) (e : Nat) : e * 128 / elemCount t = e / (elemCount t / 128) := by
  rcases tyWidth_cases t with hw | hw | hw | hw | hw <;> simp [elemCount, hw] <;> omega

/-- The results of two element functions that agree on active elements. -/
theorem vectorWrite_congr {s t : State} {d : BitVec 6} {n wd : Nat} {act : Nat → Bool} {v v' : Nat → BitVec wd}
    (h : VectorWrite s t d n wd act v) (hv : ∀ e < n, act e = true → v e = v' e) : VectorWrite s t d n wd act v' := by
  refine ⟨h.1, fun e he => ?_, h.2.2⟩
  rw [h.2.1 e he]
  split
  · rename_i ha; exact hv e he ha
  · rfl

/-- An element read by the number the instruction sees (R118, R130). -/
theorem crossElem_numbered (w : Warp) (r : BitVec 6) (n wd j : Nat) :
    crossElem w r n wd j = (match numbered w n j with | some e => srcElem w r n wd e | none => 0) := by
  unfold crossElem numbered physElem
  by_cases h : j / (n / 128) < w.vl
  · rw [if_pos h, if_pos h]
    all_goals rfl
  · rw [if_neg h, if_neg h]

/-- A saturated result (R120). -/
theorem ofNat_clampBits {n : Nat} (sg : Bool) (v : Int) : BitVec.ofNat n (clampBits n sg v) = saturated sg v := by
  have hp : (1:Int) ≤ 2 ^ (n - 1) := one_le_pow₀ (by norm_num)
  have hq : (1:Int) ≤ 2 ^ n := one_le_pow₀ (by norm_num)
  unfold clampBits saturated
  rw [ofNat_ofSigned]
  congr 1
  cases sg <;> simp only [if_true, Bool.false_eq_true, if_false, Nat.cast_pow, Nat.cast_ofNat] <;> split <;> [skip; split; skip; split] <;> omega

/-- The integer of an element. -/
theorem elemInt_asInt {n : Nat} (sg : Bool) (a : BitVec n) : elemInt n sg a.toNat = asInt sg a := by
  cases sg <;> simp [elemInt, asInt, toSigned_toNat]

end Sys2Proof.Machine
end

