-- ==== Sys2Proof/Laws/Dispatch.lean ====
section
/-! SUPPORT. The meaning each constructor of `Instr` has: one equation for each arm of `exec`. -/

set_option Elab.async false

namespace Sys2Proof.Machine

theorem exec_add (f : FmtA) (s : State) :
    exec (.add f) s = execAdd f s := rfl
theorem exec_addImm (f : FmtI) (s : State) :
    exec (.addImm f) s = execAddImm f s := rfl
theorem exec_sub (f : FmtA) (s : State) :
    exec (.sub f) s = execSub f s := rfl
theorem exec_mul (f : FmtA) (s : State) :
    exec (.mul f) s = execMul f s := rfl
theorem exec_mulImm (f : FmtI) (s : State) :
    exec (.mulImm f) s = execMulImm f s := rfl
theorem exec_mulh (f : FmtA) (s : State) :
    exec (.mulh f) s = execMulh f s := rfl
theorem exec_div (f : FmtA) (s : State) :
    exec (.div f) s = execDiv f s := rfl
theorem exec_rem (f : FmtA) (s : State) :
    exec (.rem f) s = execRem f s := rfl
theorem exec_and (f : FmtA) (s : State) :
    exec (.and f) s = execAnd f s := rfl
theorem exec_andImm (f : FmtI) (s : State) :
    exec (.andImm f) s = execAndImm f s := rfl
theorem exec_or (f : FmtA) (s : State) :
    exec (.or f) s = execOr f s := rfl
theorem exec_orImm (f : FmtI) (s : State) :
    exec (.orImm f) s = execOrImm f s := rfl
theorem exec_xor (f : FmtA) (s : State) :
    exec (.xor f) s = execXor f s := rfl
theorem exec_xorImm (f : FmtI) (s : State) :
    exec (.xorImm f) s = execXorImm f s := rfl
theorem exec_andn (f : FmtA) (s : State) :
    exec (.andn f) s = execAndn f s := rfl
theorem exec_shl (f : FmtA) (s : State) :
    exec (.shl f) s = execShl f s := rfl
theorem exec_shlImm (f : FmtI) (s : State) :
    exec (.shlImm f) s = execShlImm f s := rfl
theorem exec_shr (f : FmtA) (s : State) :
    exec (.shr f) s = execShr f s := rfl
theorem exec_shrImm (f : FmtI) (s : State) :
    exec (.shrImm f) s = execShrImm f s := rfl
theorem exec_sar (f : FmtA) (s : State) :
    exec (.sar f) s = execSar f s := rfl
theorem exec_sarImm (f : FmtI) (s : State) :
    exec (.sarImm f) s = execSarImm f s := rfl
theorem exec_rol (f : FmtA) (s : State) :
    exec (.rol f) s = execRol f s := rfl
theorem exec_rolImm (f : FmtI) (s : State) :
    exec (.rolImm f) s = execRolImm f s := rfl
theorem exec_ror (f : FmtA) (s : State) :
    exec (.ror f) s = execRor f s := rfl
theorem exec_rorImm (f : FmtI) (s : State) :
    exec (.rorImm f) s = execRorImm f s := rfl
theorem exec_min (f : FmtA) (s : State) :
    exec (.min f) s = execMin f s := rfl
theorem exec_minImm (f : FmtI) (s : State) :
    exec (.minImm f) s = execMinImm f s := rfl
theorem exec_max (f : FmtA) (s : State) :
    exec (.max f) s = execMax f s := rfl
theorem exec_maxImm (f : FmtI) (s : State) :
    exec (.maxImm f) s = execMaxImm f s := rfl
theorem exec_clz (f : FmtA) (s : State) :
    exec (.clz f) s = execClz f s := rfl
theorem exec_ctz (f : FmtA) (s : State) :
    exec (.ctz f) s = execCtz f s := rfl
theorem exec_popc (f : FmtA) (s : State) :
    exec (.popc f) s = execPopc f s := rfl
theorem exec_brev (f : FmtA) (s : State) :
    exec (.brev f) s = execBrev f s := rfl
theorem exec_bfx (f : FmtA) (s : State) :
    exec (.bfx f) s = execBfx f s := rfl
theorem exec_bfi (f : FmtA) (s : State) :
    exec (.bfi f) s = execBfi f s := rfl
theorem exec_sel (f : FmtA) (s : State) :
    exec (.sel f) s = execSel f s := rfl
theorem exec_mov (f : FmtA) (s : State) :
    exec (.mov f) s = execMov f s := rfl
theorem exec_addsh (f : FmtA) (s : State) :
    exec (.addsh f) s = execAddsh f s := rfl
theorem exec_cmp (f : FmtA) (s : State) :
    exec (.cmp f) s = execCmp f s := rfl
theorem exec_cmpImm (f : FmtI) (s : State) :
    exec (.cmpImm f) s = execCmpImm f s := rfl
theorem exec_movi (f : FmtI) (s : State) :
    exec (.movi f) s = execMovi f s := rfl
theorem exec_movhi (f : FmtI) (s : State) :
    exec (.movhi f) s = execMovhi f s := rfl
theorem exec_fadd (f : FmtA) (s : State) :
    exec (.fadd f) s = execFadd f s := rfl
theorem exec_fsub (f : FmtA) (s : State) :
    exec (.fsub f) s = execFsub f s := rfl
theorem exec_fmul (f : FmtA) (s : State) :
    exec (.fmul f) s = execFmul f s := rfl
theorem exec_fma (f : FmtA) (s : State) :
    exec (.fma f) s = execFma f s := rfl
theorem exec_fdiv (f : FmtA) (s : State) :
    exec (.fdiv f) s = execFdiv f s := rfl
theorem exec_fmin (f : FmtA) (s : State) :
    exec (.fmin f) s = execFmin f s := rfl
theorem exec_fmax (f : FmtA) (s : State) :
    exec (.fmax f) s = execFmax f s := rfl
theorem exec_fcmp (f : FmtA) (s : State) :
    exec (.fcmp f) s = execFcmp f s := rfl
theorem exec_fcvt (f : FmtA) (s : State) :
    exec (.fcvt f) s = execFcvt f s := rfl
theorem exec_bra (f : FmtB) (s : State) :
    exec (.bra f) s = execBra f s := rfl
theorem exec_braIndirect (f : FmtB) (s : State) :
    exec (.braIndirect f) s = execBraIndirect f s := rfl
theorem exec_bcc (f : FmtB) (s : State) :
    exec (.bcc f) s = execBcc f s := rfl
theorem exec_bmk (f : FmtB) (s : State) :
    exec (.bmk f) s = execBmk f s := rfl
theorem exec_call (f : FmtB) (s : State) :
    exec (.call f) s = execCall f s := rfl
theorem exec_callIndirect (f : FmtB) (s : State) :
    exec (.callIndirect f) s = execCallIndirect f s := rfl
theorem exec_ret (f : FmtB) (s : State) :
    exec (.ret f) s = execRet f s := rfl
theorem exec_loop (f : FmtB) (s : State) :
    exec (.loop f) s = execLoop f s := rfl
theorem exec_split (f : FmtA) (s : State) :
    exec (.split f) s = execSplit f s := rfl
theorem exec_arm (f : FmtS) (s : State) :
    exec (.arm f) s = execArm f s := rfl
theorem exec_join (s : State) :
    exec (.join) s = execJoin s := rfl
theorem exec_exit (s : State) :
    exec (.exit) s = execExit s := rfl
theorem exec_yield (s : State) :
    exec (.yield) s = execYield s := rfl
theorem exec_nop (s : State) :
    exec (.nop) s = execNop s := rfl
theorem exec_trap (f : FmtS) (s : State) :
    exec (.trap f) s = execTrap f s := rfl
theorem exec_svc (f : FmtS) (s : State) :
    exec (.svc f) s = execSvc f s := rfl
theorem exec_tret (s : State) :
    exec (.tret) s = execTret s := rfl
theorem exec_srrd (f : FmtS) (s : State) :
    exec (.srrd f) s = execSrrd f s := rfl
theorem exec_srwr (f : FmtS) (s : State) :
    exec (.srwr f) s = execSrwr f s := rfl
theorem exec_snap (f : FmtS) (s : State) :
    exec (.snap f) s = execSnap f s := rfl
theorem exec_roveOff (s : State) :
    exec (.roveOff) s = execRoveOff s := rfl
theorem exec_roveOn (s : State) :
    exec (.roveOn) s = execRoveOn s := rfl
theorem exec_halt (s : State) :
    exec (.halt) s = execHalt s := rfl
theorem exec_vadd (f : FmtA) (s : State) :
    exec (.vadd f) s = execVadd f s := rfl
theorem exec_vsub (f : FmtA) (s : State) :
    exec (.vsub f) s = execVsub f s := rfl
theorem exec_vadds (f : FmtA) (s : State) :
    exec (.vadds f) s = execVadds f s := rfl
theorem exec_vsubs (f : FmtA) (s : State) :
    exec (.vsubs f) s = execVsubs f s := rfl
theorem exec_vmul (f : FmtA) (s : State) :
    exec (.vmul f) s = execVmul f s := rfl
theorem exec_vmulh (f : FmtA) (s : State) :
    exec (.vmulh f) s = execVmulh f s := rfl
theorem exec_vmad (f : FmtA) (s : State) :
    exec (.vmad f) s = execVmad f s := rfl
theorem exec_vdiv (f : FmtA) (s : State) :
    exec (.vdiv f) s = execVdiv f s := rfl
theorem exec_vmin (f : FmtA) (s : State) :
    exec (.vmin f) s = execVmin f s := rfl
theorem exec_vmax (f : FmtA) (s : State) :
    exec (.vmax f) s = execVmax f s := rfl
theorem exec_vabs (f : FmtA) (s : State) :
    exec (.vabs f) s = execVabs f s := rfl
theorem exec_vneg (f : FmtA) (s : State) :
    exec (.vneg f) s = execVneg f s := rfl
theorem exec_vand (f : FmtA) (s : State) :
    exec (.vand f) s = execVand f s := rfl
theorem exec_vor (f : FmtA) (s : State) :
    exec (.vor f) s = execVor f s := rfl
theorem exec_vxor (f : FmtA) (s : State) :
    exec (.vxor f) s = execVxor f s := rfl
theorem exec_vandn (f : FmtA) (s : State) :
    exec (.vandn f) s = execVandn f s := rfl
theorem exec_vnot (f : FmtA) (s : State) :
    exec (.vnot f) s = execVnot f s := rfl
theorem exec_vshl (f : FmtA) (s : State) :
    exec (.vshl f) s = execVshl f s := rfl
theorem exec_vshr (f : FmtA) (s : State) :
    exec (.vshr f) s = execVshr f s := rfl
theorem exec_vsar (f : FmtA) (s : State) :
    exec (.vsar f) s = execVsar f s := rfl
theorem exec_vclz (f : FmtA) (s : State) :
    exec (.vclz f) s = execVclz f s := rfl
theorem exec_vpopc (f : FmtA) (s : State) :
    exec (.vpopc f) s = execVpopc f s := rfl
theorem exec_vbfx (f : FmtA) (s : State) :
    exec (.vbfx f) s = execVbfx f s := rfl
theorem exec_vcmp (f : FmtA) (s : State) :
    exec (.vcmp f) s = execVcmp f s := rfl
theorem exec_vsel (f : FmtA) (s : State) :
    exec (.vsel f) s = execVsel f s := rfl
theorem exec_vmov (f : FmtA) (s : State) :
    exec (.vmov f) s = execVmov f s := rfl
theorem exec_vbcast (f : FmtA) (s : State) :
    exec (.vbcast f) s = execVbcast f s := rfl
theorem exec_viota (f : FmtA) (s : State) :
    exec (.viota f) s = execViota f s := rfl
theorem exec_vextr (f : FmtA) (s : State) :
    exec (.vextr f) s = execVextr f s := rfl
theorem exec_vins (f : FmtA) (s : State) :
    exec (.vins f) s = execVins f s := rfl
theorem exec_vfadd (f : FmtA) (s : State) :
    exec (.vfadd f) s = execVfadd f s := rfl
theorem exec_vfsub (f : FmtA) (s : State) :
    exec (.vfsub f) s = execVfsub f s := rfl
theorem exec_vfmul (f : FmtA) (s : State) :
    exec (.vfmul f) s = execVfmul f s := rfl
theorem exec_vfma (f : FmtA) (s : State) :
    exec (.vfma f) s = execVfma f s := rfl
theorem exec_vfmin (f : FmtA) (s : State) :
    exec (.vfmin f) s = execVfmin f s := rfl
theorem exec_vfmax (f : FmtA) (s : State) :
    exec (.vfmax f) s = execVfmax f s := rfl
theorem exec_vfcmp (f : FmtA) (s : State) :
    exec (.vfcmp f) s = execVfcmp f s := rfl
theorem exec_vfclass (f : FmtA) (s : State) :
    exec (.vfclass f) s = execVfclass f s := rfl
theorem exec_vround (f : FmtA) (s : State) :
    exec (.vround f) s = execVround f s := rfl
theorem exec_vfrac (f : FmtA) (s : State) :
    exec (.vfrac f) s = execVfrac f s := rfl
theorem exec_vscale (f : FmtA) (s : State) :
    exec (.vscale f) s = execVscale f s := rfl
theorem exec_vdot2 (f : FmtA) (s : State) :
    exec (.vdot2 f) s = execVdot2 f s := rfl
theorem exec_vdot4 (f : FmtA) (s : State) :
    exec (.vdot4 f) s = execVdot4 f s := rfl
theorem exec_vcvt (f : FmtA) (s : State) :
    exec (.vcvt f) s = execVcvt f s := rfl
theorem exec_vrcp (f : FmtA) (s : State) :
    exec (.vrcp f) s = execVrcp f s := rfl
theorem exec_vrsq (f : FmtA) (s : State) :
    exec (.vrsq f) s = execVrsq f s := rfl
theorem exec_vsqrt (f : FmtA) (s : State) :
    exec (.vsqrt f) s = execVsqrt f s := rfl
theorem exec_vfdiv (f : FmtA) (s : State) :
    exec (.vfdiv f) s = execVfdiv f s := rfl
theorem exec_vexp2 (f : FmtA) (s : State) :
    exec (.vexp2 f) s = execVexp2 f s := rfl
theorem exec_vlog2 (f : FmtA) (s : State) :
    exec (.vlog2 f) s = execVlog2 f s := rfl
theorem exec_vsinpi (f : FmtA) (s : State) :
    exec (.vsinpi f) s = execVsinpi f s := rfl
theorem exec_vcospi (f : FmtA) (s : State) :
    exec (.vcospi f) s = execVcospi f s := rfl
theorem exec_vtanh (f : FmtA) (s : State) :
    exec (.vtanh f) s = execVtanh f s := rfl
theorem exec_vperm (f : FmtA) (s : State) :
    exec (.vperm f) s = execVperm f s := rfl
theorem exec_vpermx (f : FmtA) (s : State) :
    exec (.vpermx f) s = execVpermx f s := rfl
theorem exec_vrot (f : FmtA) (s : State) :
    exec (.vrot f) s = execVrot f s := rfl
theorem exec_vshufx (f : FmtA) (s : State) :
    exec (.vshufx f) s = execVshufx f s := rfl
theorem exec_vtrn (f : FmtA) (s : State) :
    exec (.vtrn f) s = execVtrn f s := rfl
theorem exec_vred (f : FmtA) (s : State) :
    exec (.vred f) s = execVred f s := rfl
theorem exec_vscan (f : FmtA) (s : State) :
    exec (.vscan f) s = execVscan f s := rfl
theorem exec_vvote (f : FmtA) (s : State) :
    exec (.vvote f) s = execVvote f s := rfl
theorem exec_vcomp (f : FmtA) (s : State) :
    exec (.vcomp f) s = execVcomp f s := rfl
theorem exec_vexpd (f : FmtA) (s : State) :
    exec (.vexpd f) s = execVexpd f s := rfl
theorem exec_mand (f : FmtA) (s : State) :
    exec (.mand f) s = execMand f s := rfl
theorem exec_mor (f : FmtA) (s : State) :
    exec (.mor f) s = execMor f s := rfl
theorem exec_mxor (f : FmtA) (s : State) :
    exec (.mxor f) s = execMxor f s := rfl
theorem exec_mandn (f : FmtA) (s : State) :
    exec (.mandn f) s = execMandn f s := rfl
theorem exec_mnot (f : FmtA) (s : State) :
    exec (.mnot f) s = execMnot f s := rfl
theorem exec_mmov (f : FmtA) (s : State) :
    exec (.mmov f) s = execMmov f s := rfl
theorem exec_mset (f : FmtA) (s : State) :
    exec (.mset f) s = execMset f s := rfl
theorem exec_mpopc (f : FmtA) (s : State) :
    exec (.mpopc f) s = execMpopc f s := rfl
theorem exec_mffs (f : FmtA) (s : State) :
    exec (.mffs f) s = execMffs f s := rfl
theorem exec_mtox (f : FmtA) (s : State) :
    exec (.mtox f) s = execMtox f s := rfl
theorem exec_xtom (f : FmtA) (s : State) :
    exec (.xtom f) s = execXtom f s := rfl
theorem exec_cbld (f : FmtA) (s : State) :
    exec (.cbld f) s = execCbld f s := rfl
theorem exec_cbst (f : FmtA) (s : State) :
    exec (.cbst f) s = execCbst f s := rfl
theorem exec_ld (f : FmtM) (s : State) :
    exec (.ld f) s = execLd f s := rfl
theorem exec_st (f : FmtM) (s : State) :
    exec (.st f) s = execSt f s := rfl
theorem exec_vld (f : FmtM) (s : State) :
    exec (.vld f) s = execVld f s := rfl
theorem exec_vst (f : FmtM) (s : State) :
    exec (.vst f) s = execVst f s := rfl
theorem exec_vlds (f : FmtM) (s : State) :
    exec (.vlds f) s = execVlds f s := rfl
theorem exec_vsts (f : FmtM) (s : State) :
    exec (.vsts f) s = execVsts f s := rfl
theorem exec_vgath (f : FmtM) (s : State) :
    exec (.vgath f) s = execVgath f s := rfl
theorem exec_vscat (f : FmtM) (s : State) :
    exec (.vscat f) s = execVscat f s := rfl
theorem exec_pref (f : FmtM) (s : State) :
    exec (.pref f) s = execPref f s := rfl
theorem exec_atomAdd (f : FmtM) (s : State) :
    exec (.atomAdd f) s = execAtomAdd f s := rfl
theorem exec_atomAnd (f : FmtM) (s : State) :
    exec (.atomAnd f) s = execAtomAnd f s := rfl
theorem exec_atomOr (f : FmtM) (s : State) :
    exec (.atomOr f) s = execAtomOr f s := rfl
theorem exec_atomXor (f : FmtM) (s : State) :
    exec (.atomXor f) s = execAtomXor f s := rfl
theorem exec_atomMin (f : FmtM) (s : State) :
    exec (.atomMin f) s = execAtomMin f s := rfl
theorem exec_atomMax (f : FmtM) (s : State) :
    exec (.atomMax f) s = execAtomMax f s := rfl
theorem exec_atomXchg (f : FmtM) (s : State) :
    exec (.atomXchg f) s = execAtomXchg f s := rfl
theorem exec_atomCas (f : FmtM) (s : State) :
    exec (.atomCas f) s = execAtomCas f s := rfl
theorem exec_atomFadd (f : FmtM) (s : State) :
    exec (.atomFadd f) s = execAtomFadd f s := rfl
theorem exec_atomFmin (f : FmtM) (s : State) :
    exec (.atomFmin f) s = execAtomFmin f s := rfl
theorem exec_atomFmax (f : FmtM) (s : State) :
    exec (.atomFmax f) s = execAtomFmax f s := rfl
theorem exec_vatomAdd (f : FmtM) (s : State) :
    exec (.vatomAdd f) s = execVatomAdd f s := rfl
theorem exec_vatomAnd (f : FmtM) (s : State) :
    exec (.vatomAnd f) s = execVatomAnd f s := rfl
theorem exec_vatomOr (f : FmtM) (s : State) :
    exec (.vatomOr f) s = execVatomOr f s := rfl
theorem exec_vatomXor (f : FmtM) (s : State) :
    exec (.vatomXor f) s = execVatomXor f s := rfl
theorem exec_vatomMin (f : FmtM) (s : State) :
    exec (.vatomMin f) s = execVatomMin f s := rfl
theorem exec_vatomMax (f : FmtM) (s : State) :
    exec (.vatomMax f) s = execVatomMax f s := rfl
theorem exec_vatomXchg (f : FmtM) (s : State) :
    exec (.vatomXchg f) s = execVatomXchg f s := rfl
theorem exec_vatomCas (f : FmtM) (s : State) :
    exec (.vatomCas f) s = execVatomCas f s := rfl
theorem exec_vatomFadd (f : FmtM) (s : State) :
    exec (.vatomFadd f) s = execVatomFadd f s := rfl
theorem exec_vatomFmin (f : FmtM) (s : State) :
    exec (.vatomFmin f) s = execVatomFmin f s := rfl
theorem exec_vatomFmax (f : FmtM) (s : State) :
    exec (.vatomFmax f) s = execVatomFmax f s := rfl
theorem exec_fenceAcq (f : FmtS) (s : State) :
    exec (.fenceAcq f) s = execFenceAcq f s := rfl
theorem exec_fenceRel (f : FmtS) (s : State) :
    exec (.fenceRel f) s = execFenceRel f s := rfl
theorem exec_fenceAcqrel (f : FmtS) (s : State) :
    exec (.fenceAcqrel f) s = execFenceAcqrel f s := rfl
theorem exec_kcfg (f : FmtK) (s : State) :
    exec (.kcfg f) s = execKcfg f s := rfl
theorem exec_karr (f : FmtK) (s : State) :
    exec (.karr f) s = execKarr f s := rfl
theorem exec_ksig (f : FmtK) (s : State) :
    exec (.ksig f) s = execKsig f s := rfl
theorem exec_kwait (f : FmtK) (s : State) :
    exec (.kwait f) s = execKwait f s := rfl
theorem exec_ktry (f : FmtK) (s : State) :
    exec (.ktry f) s = execKtry f s := rfl
theorem exec_karrw (f : FmtK) (s : State) :
    exec (.karrw f) s = execKarrw f s := rfl
theorem exec_krd (f : FmtK) (s : State) :
    exec (.krd f) s = execKrd f s := rfl
theorem exec_tlaunch (f : FmtS) (s : State) :
    exec (.tlaunch f) s = execTlaunch f s := rfl
theorem exec_tfence (f : FmtS) (s : State) :
    exec (.tfence f) s = execTfence f s := rfl
theorem exec_notify (f : FmtS) (s : State) :
    exec (.notify f) s = execNotify f s := rfl
theorem exec_sleepuntil (f : FmtS) (s : State) :
    exec (.sleepuntil f) s = execSleepuntil f s := rfl
theorem exec_cpy (f : FmtE) (s : State) :
    exec (.cpy f) s = execCpy f s := rfl
theorem exec_cpyt (f : FmtE) (s : State) :
    exec (.cpyt f) s = execCpyt f s := rfl
theorem exec_cpyq (f : FmtE) (s : State) :
    exec (.cpyq f) s = execCpyq f s := rfl
theorem exec_mxacq (f : FmtE) (s : State) :
    exec (.mxacq f) s = execMxacq f s := rfl
theorem exec_mxrel (f : FmtE) (s : State) :
    exec (.mxrel f) s = execMxrel f s := rfl
theorem exec_mxpush (f : FmtE) (s : State) :
    exec (.mxpush f) s = execMxpush f s := rfl
theorem exec_mxqs (f : FmtE) (s : State) :
    exec (.mxqs f) s = execMxqs f s := rfl
theorem exec_tsld (f : FmtA) (s : State) :
    exec (.tsld f) s = execTsld f s := rfl
theorem exec_tsst (f : FmtA) (s : State) :
    exec (.tsst f) s = execTsst f s := rfl
theorem exec_tszero (f : FmtA) (s : State) :
    exec (.tszero f) s = execTszero f s := rfl
theorem exec_xfmCvt (f : FmtA) (s : State) :
    exec (.xfmCvt f) s = execXfmCvt f s := rfl
theorem exec_xfmQuant (f : FmtA) (s : State) :
    exec (.xfmQuant f) s = execXfmQuant f s := rfl
theorem exec_xfmTr8 (f : FmtA) (s : State) :
    exec (.xfmTr8 f) s = execXfmTr8 f s := rfl
theorem exec_xfmTr16 (f : FmtA) (s : State) :
    exec (.xfmTr16 f) s = execXfmTr16 f s := rfl
theorem exec_xfmTr32 (f : FmtA) (s : State) :
    exec (.xfmTr32 f) s = execXfmTr32 f s := rfl
theorem exec_xfmPack (f : FmtA) (s : State) :
    exec (.xfmPack f) s = execXfmPack f s := rfl
theorem exec_xfmUnpack (f : FmtA) (s : State) :
    exec (.xfmUnpack f) s = execXfmUnpack f s := rfl
theorem exec_xfmReply (d : Fin 2) (core : Fin 24) (pipe : Fin 2) (s : State) :
    exec (.xfmReply d core pipe) s = execXfmReply d core pipe s := rfl
theorem exec_sample (f : FmtA) (s : State) :
    exec (.sample f) s = execSample f s := rfl
theorem exec_sgath (f : FmtA) (s : State) :
    exec (.sgath f) s = execSgath f s := rfl
theorem exec_tld (f : FmtA) (s : State) :
    exec (.tld f) s = execTld f s := rfl
theorem exec_tqry (f : FmtA) (s : State) :
    exec (.tqry f) s = execTqry f s := rfl
theorem exec_wtinv (f : FmtA) (s : State) :
    exec (.wtinv f) s = execWtinv f s := rfl
theorem exec_wtinvAll (f : FmtA) (s : State) :
    exec (.wtinvAll f) s = execWtinvAll f s := rfl
theorem exec_wtpf (f : FmtA) (s : State) :
    exec (.wtpf f) s = execWtpf f s := rfl
theorem exec_trace (f : FmtA) (s : State) :
    exec (.trace f) s = execTrace f s := rfl
theorem exec_rqnext (f : FmtA) (s : State) :
    exec (.rqnext f) s = execRqnext f s := rfl
theorem exec_rqcommit (f : FmtA) (s : State) :
    exec (.rqcommit f) s = execRqcommit f s := rfl
theorem exec_rqterm (f : FmtA) (s : State) :
    exec (.rqterm f) s = execRqterm f s := rfl
theorem exec_gemitVtx (f : FmtA) (s : State) :
    exec (.gemitVtx f) s = execGemitVtx f s := rfl
theorem exec_gemitPrim (f : FmtA) (s : State) :
    exec (.gemitPrim f) s = execGemitPrim f s := rfl
theorem exec_gemitEnd (f : FmtA) (s : State) :
    exec (.gemitEnd f) s = execGemitEnd f s := rfl
theorem exec_femit (f : FmtA) (s : State) :
    exec (.femit f) s = execFemit f s := rfl
theorem exec_qwait (f : FmtS) (s : State) :
    exec (.qwait f) s = execQwait f s := rfl
theorem exec_qtail (f : FmtS) (s : State) :
    exec (.qtail f) s = execQtail f s := rfl
theorem exec_qhandPacket (f : FmtS) (s : State) :
    exec (.qhandPacket f) s = execQhandPacket f s := rfl
theorem exec_qhandNode (f : FmtS) (s : State) :
    exec (.qhandNode f) s = execQhandNode f s := rfl
theorem exec_prd (f : FmtS) (s : State) :
    exec (.prd f) s = execPrd f s := rfl
theorem exec_pwr (f : FmtS) (s : State) :
    exec (.pwr f) s = execPwr f s := rfl
theorem exec_fansw (f : FmtS) (s : State) :
    exec (.fansw f) s = execFansw f s := rfl
theorem exec_loadDataReturn (who : Agent) (n : Nat) (bad : Option Nat) (s : State) :
    exec (.loadDataReturn who n bad) s = execLoadDataReturn who n bad s := rfl
theorem exec_roveEnter (who : Agent) (s : State) :
    exec (.roveEnter who) s = execRoveEnter who s := rfl
theorem exec_roveInstructionLimit (who : Agent) (s : State) :
    exec (.roveInstructionLimit who) s = execRoveInstructionLimit who s := rfl
theorem exec_roveRestoreDone (who : Agent) (s : State) :
    exec (.roveRestoreDone who) s = execRoveRestoreDone who s := rfl
theorem exec_logicalTick (d : Fin 2) (s : State) :
    exec (.logicalTick d) s = execLogicalTick d s := rfl
theorem exec_knotUpdate (n : Nat) (s : State) :
    exec (.knotUpdate n) s = execKnotUpdate n s := rfl
theorem exec_deadlineReached (who : Agent) (s : State) :
    exec (.deadlineReached who) s = execDeadlineReached who s := rfl
theorem exec_deadlockDetect (d : Fin 2) (cluster : Nat) (s : State) :
    exec (.deadlockDetect d cluster) s = execDeadlockDetect d cluster s := rfl
theorem exec_commandStart (cmd : Nat) (s : State) :
    exec (.commandStart cmd) s = execCommandStart cmd s := rfl
theorem exec_copyComplete (cmd : Nat) (s : State) :
    exec (.copyComplete cmd) s = execCopyComplete cmd s := rfl
theorem exec_matrixComplete (cmd : Nat) (s : State) :
    exec (.matrixComplete cmd) s = execMatrixComplete cmd s := rfl
theorem exec_stageCopyComplete (cmd : Nat) (s : State) :
    exec (.stageCopyComplete cmd) s = execStageCopyComplete cmd s := rfl
theorem exec_spoolPost (d : Fin 2) (s : State) :
    exec (.spoolPost d) s = execSpoolPost d s := rfl
theorem exec_errorLogPost (d : Fin 2) (s : State) :
    exec (.errorLogPost d) s = execErrorLogPost d s := rfl
theorem exec_teamPlace (d : Fin 2) (s : State) :
    exec (.teamPlace d) s = execTeamPlace d s := rfl
theorem exec_teamRetire (team : Nat) (s : State) :
    exec (.teamRetire team) s = execTeamRetire team s := rfl
theorem exec_preemptRequest (team : Nat) (s : State) :
    exec (.preemptRequest team) s = execPreemptRequest team s := rfl
theorem exec_preemptClass0 (d : Fin 2) (s : State) :
    exec (.preemptClass0 d) s = execPreemptClass0 d s := rfl
theorem exec_teamResume (team : Nat) (s : State) :
    exec (.teamResume team) s = execTeamResume team s := rfl
theorem exec_launchGrid (q : QueueRef) (p : GridPacket) (s : State) :
    exec (.launchGrid q p) s = execLaunchGrid q p s := rfl
theorem exec_launchGraph (q : QueueRef) (p : GraphPacket) (s : State) :
    exec (.launchGraph q p) s = execLaunchGraph q p s := rfl
theorem exec_copy (q : QueueRef) (p : CopyPacket) (s : State) :
    exec (.copy q p) s = execCopy q p s := rfl
theorem exec_waitFence (q : QueueRef) (addr value : Nat) (abortDep : Bool) (s : State) :
    exec (.waitFence q addr value abortDep) s = execWaitFence q addr value abortDep s := rfl
theorem exec_waitFenceSatisfied (q : QueueRef) (s : State) :
    exec (.waitFenceSatisfied q) s = execWaitFenceSatisfied q s := rfl
theorem exec_signalFence (q : QueueRef) (addr value : Nat) (s : State) :
    exec (.signalFence q addr value) s = execSignalFence q addr value s := rfl
theorem exec_flip (q : QueueRef) (p : FlipPacket) (s : State) :
    exec (.flip q p) s = execFlip q p s := rfl
theorem exec_timestamp (q : QueueRef) (addr : Nat) (s : State) :
    exec (.timestamp q addr) s = execTimestamp q addr s := rfl
theorem exec_queueBarrier (q : QueueRef) (s : State) :
    exec (.queueBarrier q) s = execQueueBarrier q s := rfl
theorem exec_setContext (q : QueueRef) (recAddr cid : Nat) (s : State) :
    exec (.setContext q recAddr cid) s = execSetContext q recAddr cid s := rfl
theorem exec_setEnergy (q : QueueRef) (cap period : Nat) (s : State) :
    exec (.setEnergy q cap period) s = execSetEnergy q cap period s := rfl
theorem exec_resetQueueDrain (q : QueueRef) (target : Fin 64) (addr value : Nat) (s : State) :
    exec (.resetQueueDrain q target addr value) s = execResetQueueDrain q target addr value s := rfl
theorem exec_resetQueueAbort (q : QueueRef) (target : Fin 64) (addr value : Nat) (s : State) :
    exec (.resetQueueAbort q target addr value) s = execResetQueueAbort q target addr value s := rfl
theorem exec_nopPacket (q : QueueRef) (s : State) :
    exec (.nopPacket q) s = execNopPacket q s := rfl
theorem exec_queueNotify (q : QueueRef) (v : BitVec 64) (s : State) :
    exec (.queueNotify q v) s = execQueueNotify q v s := rfl
theorem exec_queueEnable (q : QueueRef) (v : BitVec 64) (s : State) :
    exec (.queueEnable q v) s = execQueueEnable q v s := rfl
theorem exec_queueDisable (q : QueueRef) (v : BitVec 64) (s : State) :
    exec (.queueDisable q v) s = execQueueDisable q v s := rfl
theorem exec_threadResume (d : Fin 2) (t : Fin 64) (s : State) :
    exec (.threadResume d t) s = execThreadResume d t s := rfl
theorem exec_hostirq (d : Fin 2) (v : BitVec 64) (s : State) :
    exec (.hostirq d v) s = execHostirq d v s := rfl
theorem exec_hirqRead (d : Fin 2) (s : State) :
    exec (.hirqRead d) s = execHirqRead d s := rfl
theorem exec_fkown (d : Fin 2) (k : Fin 2048) (v : BitVec 64) (s : State) :
    exec (.fkown d k v) s = execFkown d k v s := rfl
theorem exec_resume (d : Fin 2) (v : BitVec 64) (s : State) :
    exec (.resume d v) s = execResume d v s := rfl
theorem exec_kill (d : Fin 2) (v : BitVec 64) (s : State) :
    exec (.kill d v) s = execKill d v s := rfl
theorem exec_shootdownPage (d : Fin 2) (cid : Nat) (s : State) :
    exec (.shootdownPage d cid) s = execShootdownPage d cid s := rfl
theorem exec_shootdownContext (d : Fin 2) (cid : Nat) (s : State) :
    exec (.shootdownContext d cid) s = execShootdownContext d cid s := rfl
theorem exec_shootdownAll (d : Fin 2) (s : State) :
    exec (.shootdownAll d) s = execShootdownAll d s := rfl
theorem exec_shootdownComplete (d : Fin 2) (s : State) :
    exec (.shootdownComplete d) s = execShootdownComplete d s := rfl
theorem exec_sptailWrite (d : Fin 2) (v : BitVec 64) (s : State) :
    exec (.sptailWrite d v) s = execSptailWrite d v s := rfl
theorem exec_eltailWrite (d : Fin 2) (v : BitVec 64) (s : State) :
    exec (.eltailWrite d v) s = execEltailWrite d v s := rfl
theorem exec_load (d : Fin 2) (p : Fin 8) (s : State) :
    exec (.load d p) s = execLoad d p s := rfl
theorem exec_swapout (d : Fin 2) (p : Fin 8) (s : State) :
    exec (.swapout d p) s = execSwapout d p s := rfl
theorem exec_swapin (d : Fin 2) (p : Fin 8) (s : State) :
    exec (.swapin d p) s = execSwapin d p s := rfl
theorem exec_swapComplete (d : Fin 2) (s : State) :
    exec (.swapComplete d) s = execSwapComplete d s := rfl
theorem exec_svnminRaise (v : BitVec 64) (s : State) :
    exec (.svnminRaise v) s = execSvnminRaise v s := rfl
theorem exec_romend (s : State) :
    exec (.romend) s = execRomend s := rfl
theorem exec_lock4 (s : State) :
    exec (.lock4) s = execLock4 s := rfl
theorem exec_extend (idx : Fin 8) (s : State) :
    exec (.extend idx) s = execExtend idx s := rfl
theorem exec_report (s : State) :
    exec (.report) s = execReport s := rfl
theorem exec_attestOpComplete (s : State) :
    exec (.attestOpComplete) s = execAttestOpComplete s := rfl
theorem exec_clockSet (v : BitVec 64) (s : State) :
    exec (.clockSet v) s = execClockSet v s := rfl
theorem exec_step (v : BitVec 64) (s : State) :
    exec (.step v) s = execStep v s := rfl
theorem exec_secloRead (d : Fin 2) (s : State) :
    exec (.secloRead d) s = execSecloRead d s := rfl
theorem exec_timestampQueueRead (e : Fin 2) (s : State) :
    exec (.timestampQueueRead e) s = execTimestampQueueRead e s := rfl
theorem exec_ptpTimestamp (e : Fin 2) (egress : Bool) (msgType : BitVec 4) (seqId : BitVec 16) (s : State) :
    exec (.ptpTimestamp e egress msgType seqId) s = execPtpTimestamp e egress msgType seqId s := rfl
theorem exec_reelRun (s : State) :
    exec (.reelRun) s = execReelRun s := rfl
theorem exec_reelStop (s : State) :
    exec (.reelStop) s = execReelStop s := rfl
theorem exec_reelLockWrite (lock : Bool) (s : State) :
    exec (.reelLockWrite lock) s = execReelLockWrite lock s := rfl
theorem exec_reelSecondBoundary (s : State) :
    exec (.reelSecondBoundary) s = execReelSecondBoundary s := rfl
theorem exec_tableSwitch (v : BitVec 64) (s : State) :
    exec (.tableSwitch v) s = execTableSwitch v s := rfl
theorem exec_tableTakesForce (s : State) :
    exec (.tableTakesForce) s = execTableTakesForce s := rfl
theorem exec_linkTrain (l : Fin 8) (s : State) :
    exec (.linkTrain l) s = execLinkTrain l s := rfl
theorem exec_linkUp (l : Fin 8) (rounds : List (Nat × Nat)) (peer : BitVec 8) (s : State) :
    exec (.linkUp l rounds peer) s = execLinkUp l rounds peer s := rfl
theorem exec_linkTrainTimeout (l : Fin 8) (s : State) :
    exec (.linkTrainTimeout l) s = execLinkTrainTimeout l s := rfl
theorem exec_linkLoss (l : Fin 8) (s : State) :
    exec (.linkLoss l) s = execLinkLoss l s := rfl
theorem exec_slotTransmit (l : Fin 8) (s : State) :
    exec (.slotTransmit l) s = execSlotTransmit l s := rfl
theorem exec_flitReceive (l : Fin 8) (flit : BitVec 2048) (s : State) :
    exec (.flitReceive l flit) s = execFlitReceive l flit s := rfl
theorem exec_receiverTimeout (stream : Nat) (s : State) :
    exec (.receiverTimeout stream) s = execReceiverTimeout stream s := rfl
theorem exec_headEnable (d : Fin 2) (h : Fin 2) (v : BitVec 64) (s : State) :
    exec (.headEnable d h v) s = execHeadEnable d h v s := rfl
theorem exec_frameStart (d : Fin 2) (h : Fin 2) (s : State) :
    exec (.frameStart d h) s = execFrameStart d h s := rfl
theorem exec_rasterBatch (d : Fin 2) (s : State) :
    exec (.rasterBatch d) s = execRasterBatch d s := rfl
theorem exec_fragmentApply (d : Fin 2) (s : State) :
    exec (.fragmentApply d) s = execFragmentApply d s := rfl
theorem exec_readShared (agent : Fin 3) (line : Nat) (s : State) :
    exec (.readShared agent line) s = execReadShared agent line s := rfl
theorem exec_readUnique (agent : Fin 3) (line : Nat) (s : State) :
    exec (.readUnique agent line) s = execReadUnique agent line s := rfl
theorem exec_upgrade (agent : Fin 3) (line : Nat) (s : State) :
    exec (.upgrade agent line) s = execUpgrade agent line s := rfl
theorem exec_writeBack (agent : Fin 3) (line : Nat) (lost : Option Nat) (s : State) :
    exec (.writeBack agent line lost) s = execWriteBack agent line lost s := rfl
theorem exec_evictionNotice (agent : Fin 3) (line : Nat) (s : State) :
    exec (.evictionNotice agent line) s = execEvictionNotice agent line s := rfl
theorem exec_ioRead (addr : Nat) (size : Nat) (s : State) :
    exec (.ioRead addr size) s = execIoRead addr size s := rfl
theorem exec_ioWrite (addr : Nat) (data : List (BitVec 8)) (s : State) :
    exec (.ioWrite addr data) s = execIoWrite addr data s := rfl
theorem exec_ioAtomic (addr : Nat) (op : IoAtomicOp) (wide : Bool) (a b : BitVec 64) (s : State) :
    exec (.ioAtomic addr op wide a b) s = execIoAtomic addr op wide a b s := rfl
theorem exec_directoryEvict (line : Nat) (s : State) :
    exec (.directoryEvict line) s = execDirectoryEvict line s := rfl
theorem exec_imsicWrite (addr : Nat) (v : BitVec 64) (s : State) :
    exec (.imsicWrite addr v) s = execImsicWrite addr v s := rfl
theorem exec_mgmtRead (d : Fin 2) (frame : List (BitVec 8)) (s : State) :
    exec (.mgmtRead d frame) s = execMgmtRead d frame s := rfl
theorem exec_arbiterPeriod (m : PeriodMeter) (s : State) :
    exec (.arbiterPeriod m) s = execArbiterPeriod m s := rfl
theorem exec_energyPeriod (d : Fin 2) (p : Fin 8) (s : State) :
    exec (.energyPeriod d p) s = execEnergyPeriod d p s := rfl
theorem exec_calFit (d : Fin 2) (fit : Nat) (s : State) :
    exec (.calFit d fit) s = execCalFit d fit s := rfl
theorem exec_patrolScrub (d : Fin 2) (sector : Nat) (corrected : Bool) (s : State) :
    exec (.patrolScrub d sector corrected) s = execPatrolScrub d sector corrected s := rfl
theorem exec_fatalError (jorradLink : Bool) (s : State) :
    exec (.fatalError jorradLink) s = execFatalError jorradLink s := rfl
theorem exec_reset (s : State) :
    exec (.reset) s = execReset s := rfl
theorem exec_bootRomLoad (linksTrain : Bool) (manifest image : List (BitVec 8)) (s : State) :
    exec (.bootRomLoad linksTrain manifest image) s = execBootRomLoad linksTrain manifest image s := rfl
theorem exec_distaffImageStart (d : Fin 2) (manifest image : List (BitVec 8)) (s : State) :
    exec (.distaffImageStart d manifest image) s = execDistaffImageStart d manifest image s := rfl
theorem exec_memoryTraining (d : Fin 2) (ok : Bool) (s : State) :
    exec (.memoryTraining d ok) s = execMemoryTraining d ok s := rfl
theorem exec_loaderStart (manifest image : List (BitVec 8)) (s : State) :
    exec (.loaderStart manifest image) s = execLoaderStart manifest image s := rfl
theorem exec_regWrite (addr : Nat) (v : BitVec 64) (s : State) :
    exec (.regWrite addr v) s = execRegWrite addr v s := rfl
theorem exec_copyElementFault (cmd : Nat) (s : State) :
    exec (.copyElementFault cmd) s = execCopyElementFault cmd s := rfl

end Sys2Proof.Machine
end

