-- ==== Sys2Proof/Laws/Floats.lean ====
section
/-! SUPPORT. Floating-point values in order, and what an encoding of one holds (02 R43 to R45, 03 R68, 04 R97, R98). -/

set_option Elab.async false

namespace Sys2Proof.Machine

open Sys2Proof Sys2Proof.Claims

/-- A scaled significand as a number. -/
theorem atScale_num (neg : Bool) (m : Nat) (e k : Int) (h : k ≤ e) :
   (atScale neg m e k : Rat) = numberOf (.fin neg m e) / 2 ^ k := by
  have e1 : (2:Rat) ^ e = 2 ^ ((e - k).toNat) * 2 ^ k := by
    rw [← zpow_natCast, ← zpow_add₀ (by norm_num)]
    congr 1; omega
  have hk : (2:Rat) ^ k ≠ 0 := by positivity
  simp only [atScale, numberOf, Nat.shiftLeft_eq]
  cases neg <;> simp <;> rw [e1] <;> field_simp

/-- Comparing finite values compares the numbers. -/
theorem cmp_fin (sa sb ma mb ea eb) : Fv.cmp (.fin sa ma ea) (.fin sb mb eb) =
   if numberOf (.fin sa ma ea) < numberOf (.fin sb mb eb) then -1 else if numberOf (.fin sa ma ea) = numberOf (.fin sb mb eb) then 0 else 1 := by
  have ha := atScale_num sa ma ea (min ea eb) (min_le_left _ _)
  have hb := atScale_num sb mb eb (min ea eb) (min_le_right _ _)
  have hk : (0:Rat) < 2 ^ (min ea eb) := by positivity
  have h1 : atScale sa ma ea (min ea eb) < atScale sb mb eb (min ea eb) ↔ numberOf (.fin sa ma ea) < numberOf (.fin sb mb eb) := by
    rw [← Int.cast_lt (R := Rat), ha, hb, div_lt_div_iff_of_pos_right hk]
  have h2 : atScale sa ma ea (min ea eb) = atScale sb mb eb (min ea eb) ↔ numberOf (.fin sa ma ea) = numberOf (.fin sb mb eb) := by
    rw [← Int.cast_inj (α := Rat), ha, hb, div_left_inj' hk.ne']
  simp only [Fv.cmp, h1, h2]

/-- Comparing values that are not NaN. -/
theorem cmp_below (a b : Fv) (ha : a.isNan = false) (hb : b.isNan = false) :
   Fv.cmp a b = if fvBelow a b then -1 else if fvBelow b a then 1 else 0 := by
  cases a with
  | nan => cases ha
  | inf x => cases b with
    | nan => cases hb
    | inf y => cases x <;> cases y <;> rfl
    | fin => cases x <;> rfl
  | fin sa ma ea => cases b with
    | nan => cases hb
    | inf y => cases y <;> rfl
    | fin sb mb eb =>
      rw [cmp_fin]
      simp only [fvBelow, decide_eq_true_eq]
      rcases lt_trichotomy (numberOf (.fin sa ma ea)) (numberOf (.fin sb mb eb)) with h | h | h
      · simp [h]
      · simp [h]
      · simp [h, not_lt.mpr h.le, h.ne']

/-- The order of values is asymmetric. -/
theorem below_asymm (a b : Fv) (h : fvBelow a b = true) : fvBelow b a = false := by
  cases a with
  | nan => cases h
  | inf x => cases b with
    | nan => cases h
    | inf y => revert h; cases x <;> cases y <;> decide
    | fin => revert h; cases x <;> simp [fvBelow]
  | fin sa ma ea => cases b with
    | nan => cases h
    | inf y => revert h; cases y <;> simp [fvBelow]
    | fin sb mb eb =>
      simp only [fvBelow, decide_eq_true_eq, decide_eq_false_iff_not] at *
      exact not_lt.mpr h.le

/-- Values in order are not NaN. -/
theorem below_nan (a b : Fv) (h : fvBelow a b = true) : a.isNan = false ∧ b.isNan = false := by
  cases a <;> cases b <;> first | exact ⟨rfl, rfl⟩ | cases h

/-- The floating-point conditions (R68). -/
theorem cond_spec (c : Nat) (hc : c < 8) (a b : Fv) : fpCond c a b = floatCompares c a b := by
  by_cases ha : a.isNan = true
  · have h1 : fvBelow a b = false := by by_contra h; have := (below_nan a b (by simpa using h)).1; simp_all
    have h2 : fvBelow b a = false := by by_contra h; have := (below_nan b a (by simpa using h)).2; simp_all
    interval_cases c <;> simp [fpCond, floatCompares, ha, h1, h2]
  · by_cases hb : b.isNan = true
    · have h1 : fvBelow a b = false := by by_contra h; have := (below_nan a b (by simpa using h)).2; simp_all
      have h2 : fvBelow b a = false := by by_contra h; have := (below_nan b a (by simpa using h)).1; simp_all
      interval_cases c <;> simp [fpCond, floatCompares, hb, h1, h2]
    · have ha : a.isNan = false := by simpa using ha
      have hb : b.isNan = false := by simpa using hb
      have h := cmp_below a b ha hb
      have as := below_asymm a b
      interval_cases c <;> simp only [fpCond, floatCompares, ha, hb, h, condHolds] <;> revert as <;> cases fvBelow a b <;> cases fvBelow b a <;> simp

/-- The smaller value: a NaN gives the other operand, and -0 is below +0 (R97). -/
theorem min_spec (a b : Fv) : (a.isNan = true → Fv.min a b = b) ∧ (b.isNan = true → Fv.min a b = a) ∧
   (fvBelow a b = true → Fv.min a b = a) ∧ (fvBelow b a = true → Fv.min a b = b) := by
  refine ⟨fun h => by simp [Fv.min, h], fun h => ?_, fun h => ?_, fun h => ?_⟩
  · cases a <;> simp_all [Fv.min, Fv.isNan]
    cases b <;> simp_all
  · obtain ⟨ha, hb⟩ := below_nan _ _ h
    have hc := cmp_below a b ha hb
    rw [h] at hc
    simp only [if_true] at hc
    simp [Fv.min, ha, hb, hc]
    rfl
  · obtain ⟨hb, ha⟩ := below_nan _ _ h
    have hc := cmp_below a b ha hb
    rw [h, below_asymm _ _ h] at hc
    simp at hc
    simp [Fv.min, ha, hb, hc]

/-- The larger value: a NaN gives the other operand, and +0 is above -0 (R97). -/
theorem max_spec (a b : Fv) : (a.isNan = true → Fv.max a b = b) ∧ (b.isNan = true → Fv.max a b = a) ∧
   (fvBelow a b = true → Fv.max a b = b) ∧ (fvBelow b a = true → Fv.max a b = a) := by
  refine ⟨fun h => by simp [Fv.max, h], fun h => ?_, fun h => ?_, fun h => ?_⟩
  · cases a <;> simp_all [Fv.max, Fv.isNan]
    cases b <;> simp_all
  · obtain ⟨ha, hb⟩ := below_nan _ _ h
    have hc := cmp_below a b ha hb
    rw [h] at hc
    simp only [if_true] at hc
    simp [Fv.max, ha, hb, hc]
    rfl
  · obtain ⟨hb, ha⟩ := below_nan _ _ h
    have hc := cmp_below a b ha hb
    rw [h, below_asymm _ _ h] at hc
    simp at hc
    simp [Fv.max, ha, hb, hc]

/-- An encoded scalar value fits its format. -/
theorem encode_lt (t : BitVec 4) (md : Rnd) (v : Fv) : encodeFp (scalarFormat t) md v < 2 ^ (scalarFormat t).width := by
  unfold scalarFormat
  have key : ∀ (f : FpFmt), f.sp = .ieee → f.maxBits < 2 ^ (f.eb + f.mb) → f.infBits < 2 ^ (f.eb + f.mb) → f.nanBits < 2 ^ (f.eb + f.mb) →
      encodeFp f md v < 2 ^ f.width := by
    intro f _ h1 h2 h3
    have hs : ∀ n x, x < 2 ^ (f.eb + f.mb) → f.signed n x < 2 ^ f.width := by
      intro n x hx
      have : 2 ^ f.width = 2 ^ (f.eb + f.mb) + 2 ^ (f.eb + f.mb) := by
        rw [show f.width = (f.eb + f.mb) + 1 by simp [FpFmt.width]; omega, pow_succ]; omega
      cases n <;> simp [FpFmt.signed] <;> omega
    have ho : ∀ n, overflowBits f md n < 2 ^ (f.eb + f.mb) := by
      intro n; unfold overflowBits; split <;> (try split) <;> assumption
    cases v with
    | nan => exact hs false _ h3
    | inf n => exact hs n _ h2
    | fin neg m e =>
      simp only [encodeFp]
      split
      · exact hs _ _ (by positivity)
      · apply hs
        split
        · omega
        · exact ho _
  split
  · exact key fmtF64 rfl (by decide) (by decide) (by decide)
  · exact key fmtF32 rfl (by decide) (by decide) (by decide)

/-- Zeros of opposite signs (R97). -/
theorem zero_spec (fm : FpFmt) (a b : Fv) (ha : a.isZero = true) (hb : b.isZero = true) :
   encodeFp fm .rne (Fv.min a b) = fm.signed (a.isNeg || b.isNeg) 0 ∧ encodeFp fm .rne (Fv.max a b) = fm.signed (a.isNeg && b.isNeg) 0 := by
  cases a with
  | nan => cases ha
  | inf => cases ha
  | fin sa ma ea => cases b with
    | nan => cases hb
    | inf => cases hb
    | fin sb mb eb =>
      simp only [Fv.isZero, decide_eq_true_eq] at ha hb
      subst ha hb
      have hc : Fv.cmp (.fin sa 0 ea) (.fin sb 0 eb) = 0 := by rw [cmp_fin]; simp [numberOf]
      simp only [Fv.min, Fv.max, Fv.isNan, hc]
      cases sa <;> cases sb <;> exact ⟨rfl, rfl⟩

/-- The format of a scalar type. -/
theorem fmt_eq (t) : sFmt t = scalarFormat t := rfl

/-- A converted integer extended by its type (R98). -/
theorem fcvt_ext (t : BitVec 4) (b : Nat) (h : t.toNat < 8) : extendTo64 (tyWidth t) (tySigned t.toNat) b = extended t (BitVec.ofNat (tyWidth t) b) := by
  have : tySigned t.toNat = signedType t := by simp [tySigned, signedType, h]
  unfold extendTo64 extended
  rw [this]
  split
  · rfl
  · apply BitVec.eq_of_toNat_eq
    simp

end Sys2Proof.Machine
end

