-- ==== Sys2Proof/Laws/Scalars.lean ====
section
/-! SUPPORT. Scalar instructions and bit fields (05 R94 to R96). -/

set_option Elab.async false

namespace Sys2Proof.Machine

open Sys2Proof Sys2Proof.Claims

/-- The types a scalar integer instruction takes are signed as the type says, and 32 or 64 bits wide (R66, R94). -/
theorem spec_types : ∀ t : BitVec 4, ScalarIntType t → tySigned t.toNat = signedType t ∧ (tyWidth t = 32 ∨ tyWidth t = 64) := by
  intro t h; rcases h with rfl | rfl | rfl | rfl <;> decide

/-- A result extended by the signedness of its type (R94). -/
theorem ext_eq (t : BitVec 4) (ht : tySigned t.toNat = signedType t) (n x : Nat) (r : BitVec n) (h : BitVec.ofNat n x = r) :
   extendTo64 n (tySigned t.toNat) x = extended t r := by
  subst h
  unfold extendTo64 extended
  rw [ht]
  split
  · rfl
  · apply BitVec.eq_of_toNat_eq
    simp

/-- A scalar integer result of format A is the extended value of its operation (R94). -/
theorem intA_spec (s : State) (f : FmtA) (ht : ScalarIntType f.ty) (op) (r : BitVec (tyWidth f.ty))
   (h : BitVec.ofNat _ (op (tyWidth f.ty) (signedType f.ty) (lowX s f.a (tyWidth f.ty)).toNat (lowX s f.b (tyWidth f.ty)).toNat) = r) :
   intA s f op = scalarResult s f.d (extended f.ty r) := by
  have h1 := (spec_types _ ht).1
  rw [← ext_eq f.ty h1 _ _ r h, ← h1]
  simp only [intA, lowX, BitVec.toNat_setWidth]
  rfl

/-- A scalar integer result of format I is the extended value of its operation (R94). -/
theorem intI_spec (s : State) (f : FmtI) (ht : ScalarIntType f.ty) (op) (r : BitVec (tyWidth f.ty))
   (h : BitVec.ofNat _ (op (tyWidth f.ty) (signedType f.ty) (lowX s f.a (tyWidth f.ty)).toNat (lowImm f (tyWidth f.ty)).toNat) = r) :
   intI s f op = scalarResult s f.d (extended f.ty r) := by
  have h1 := (spec_types _ ht).1
  rw [← ext_eq f.ty h1 _ _ r h, ← h1]
  simp only [intI, lowX, lowImm, BitVec.toNat_setWidth]
  rfl

/-- The length of a bit field, cut at bit 63 (R96). -/
theorem len_eq (b : Nat) : fieldLen b = min (b / 256 % 128) (64 - b % 64) := by
  simp [fieldLen, bits, Nat.shiftRight_eq_div_pow]

/-- A field of a number as a word. -/
theorem field_get (x lo w : Nat) (hw : lo + w ≤ 64) : (BitVec.ofNat 64 x).extractLsb' lo w = BitVec.ofNat w (x / 2 ^ lo) := by
  apply BitVec.eq_of_toNat_eq
  rw [BitVec.extractLsb'_toNat, BitVec.toNat_ofNat, BitVec.toNat_ofNat, Nat.shiftRight_eq_div_pow, show 64 = lo + (64 - lo) by omega, pow_add,
    Nat.mod_mul_right_div_self, Nat.mod_mod_of_dvd]
  exact Nat.pow_dvd_pow 2 (by omega)

/-- The generators a seed sets (R50). -/
theorem seedGens_get (x : BitVec 32) (lane : Fin 128) : (seedGens x)[lane] =
    if x ^^^ BitVec.ofNat 32 lane.val * 0x9E3779B9 = 0 then 0x6D2B79F5 else x ^^^ BitVec.ofNat 32 lane.val * 0x9E3779B9 := by
  have h : BitVec.ofNat 32 (lane.val * 0x9E3779B9) = BitVec.ofNat 32 lane.val * 0x9E3779B9 := BitVec.ofNat_mul _ _
  unfold seedGens
  rw [Fin.getElem_fin, Vector.getElem_ofFn]
  dsimp only
  rw [h, show (0x6D2B79F5#32) = (0x6D2B79F5 : BitVec 32) from rfl]

end Sys2Proof.Machine
end

