-- ==== Sys2Proof/Laws/State.lean ====
section
/-! SUPPORT. What each update of a state and of a warp leaves as it was: one lemma a field, so that no proof unfolds a record
update. -/

set_option Elab.async false

namespace Sys2Proof.Machine

/-! ### Updates of the state -/

@[simp] theorem onDie_cur (s : State) (d : Fin 2) (f : Die → Die) : (s.onDie d f).cur = s.cur := rfl
@[simp] theorem onDie_others (s : State) (d : Fin 2) (f : Die → Die) : (s.onDie d f).others = s.others := rfl
@[simp] theorem onDie_mem (s : State) (d : Fin 2) (f : Die → Die) : (s.onDie d f).mem = s.mem := rfl
@[simp] theorem onDie_teams (s : State) (d : Fin 2) (f : Die → Die) : (s.onDie d f).teams = s.teams := rfl
@[simp] theorem onDie_cmds (s : State) (d : Fin 2) (f : Die → Die) : (s.onDie d f).cmds = s.cmds := rfl
@[simp] theorem onDie_launches (s : State) (d : Fin 2) (f : Die → Die) : (s.onDie d f).launches = s.launches := rfl
@[simp] theorem onDie_signals (s : State) (d : Fin 2) (f : Die → Die) : (s.onDie d f).signals = s.signals := rfl
@[simp] theorem onDie_knotQ (s : State) (d : Fin 2) (f : Die → Die) : (s.onDie d f).knotQ = s.knotQ := rfl
@[simp] theorem onDie_dir (s : State) (d : Fin 2) (f : Die → Die) : (s.onDie d f).dir = s.dir := rfl
@[simp] theorem onDie_stage (s : State) (d : Fin 2) (f : Die → Die) : (s.onDie d f).stage = s.stage := rfl
@[simp] theorem onDie_reel (s : State) (d : Fin 2) (f : Die → Die) : (s.onDie d f).reel = s.reel := rfl
@[simp] theorem onDie_host (s : State) (d : Fin 2) (f : Die → Die) : (s.onDie d f).host = s.host := rfl
@[simp] theorem onDie_etBase (s : State) (d : Fin 2) (f : Die → Die) : (s.onDie d f).etBase = s.etBase := rfl
@[simp] theorem onDie_roveFloor (s : State) (d : Fin 2) (f : Die → Die) : (s.onDie d f).roveFloor = s.roveFloor := rfl
@[simp] theorem onDie_plimit (s : State) (d : Fin 2) (f : Die → Die) : (s.onDie d f).plimit = s.plimit := rfl
@[simp] theorem onDie_arbiter (s : State) (d : Fin 2) (f : Die → Die) : (s.onDie d f).arbiter = s.arbiter := rfl
@[simp] theorem onDie_softErrs (s : State) (d : Fin 2) (f : Die → Die) : (s.onDie d f).softErrs = s.softErrs := rfl
@[simp] theorem onDie_nextId (s : State) (d : Fin 2) (f : Die → Die) : (s.onDie d f).nextId = s.nextId := rfl
@[simp] theorem onDie_freeCtr (s : State) (d : Fin 2) (f : Die → Die) : (s.onDie d f).freeCtr = s.freeCtr := rfl
@[simp] theorem onDie_agenda (s : State) (d : Fin 2) (f : Die → Die) : (s.onDie d f).agenda = s.agenda := rfl

@[simp] theorem onCore_cur (s : State) (d : Fin 2) (c : Fin 24) (f : Core → Core) : (s.onCore d c f).cur = s.cur := rfl
@[simp] theorem onCore_others (s : State) (d : Fin 2) (c : Fin 24) (f : Core → Core) : (s.onCore d c f).others = s.others := rfl
@[simp] theorem onCore_mem (s : State) (d : Fin 2) (c : Fin 24) (f : Core → Core) : (s.onCore d c f).mem = s.mem := rfl
@[simp] theorem onCore_teams (s : State) (d : Fin 2) (c : Fin 24) (f : Core → Core) : (s.onCore d c f).teams = s.teams := rfl
@[simp] theorem onCore_cmds (s : State) (d : Fin 2) (c : Fin 24) (f : Core → Core) : (s.onCore d c f).cmds = s.cmds := rfl
@[simp] theorem onCore_launches (s : State) (d : Fin 2) (c : Fin 24) (f : Core → Core) : (s.onCore d c f).launches = s.launches := rfl
@[simp] theorem onCore_signals (s : State) (d : Fin 2) (c : Fin 24) (f : Core → Core) : (s.onCore d c f).signals = s.signals := rfl
@[simp] theorem onCore_knotQ (s : State) (d : Fin 2) (c : Fin 24) (f : Core → Core) : (s.onCore d c f).knotQ = s.knotQ := rfl
@[simp] theorem onCore_dir (s : State) (d : Fin 2) (c : Fin 24) (f : Core → Core) : (s.onCore d c f).dir = s.dir := rfl
@[simp] theorem onCore_stage (s : State) (d : Fin 2) (c : Fin 24) (f : Core → Core) : (s.onCore d c f).stage = s.stage := rfl
@[simp] theorem onCore_reel (s : State) (d : Fin 2) (c : Fin 24) (f : Core → Core) : (s.onCore d c f).reel = s.reel := rfl
@[simp] theorem onCore_host (s : State) (d : Fin 2) (c : Fin 24) (f : Core → Core) : (s.onCore d c f).host = s.host := rfl
@[simp] theorem onCore_etBase (s : State) (d : Fin 2) (c : Fin 24) (f : Core → Core) : (s.onCore d c f).etBase = s.etBase := rfl
@[simp] theorem onCore_roveFloor (s : State) (d : Fin 2) (c : Fin 24) (f : Core → Core) : (s.onCore d c f).roveFloor = s.roveFloor := rfl
@[simp] theorem onCore_plimit (s : State) (d : Fin 2) (c : Fin 24) (f : Core → Core) : (s.onCore d c f).plimit = s.plimit := rfl
@[simp] theorem onCore_arbiter (s : State) (d : Fin 2) (c : Fin 24) (f : Core → Core) : (s.onCore d c f).arbiter = s.arbiter := rfl
@[simp] theorem onCore_softErrs (s : State) (d : Fin 2) (c : Fin 24) (f : Core → Core) : (s.onCore d c f).softErrs = s.softErrs := rfl
@[simp] theorem onCore_nextId (s : State) (d : Fin 2) (c : Fin 24) (f : Core → Core) : (s.onCore d c f).nextId = s.nextId := rfl
@[simp] theorem onCore_freeCtr (s : State) (d : Fin 2) (c : Fin 24) (f : Core → Core) : (s.onCore d c f).freeCtr = s.freeCtr := rfl
@[simp] theorem onCore_agenda (s : State) (d : Fin 2) (c : Fin 24) (f : Core → Core) : (s.onCore d c f).agenda = s.agenda := rfl

@[simp] theorem onQueue_cur (s : State) (q : QueueRef) (f : Queue → Queue) : (s.onQueue q f).cur = s.cur := rfl
@[simp] theorem onQueue_others (s : State) (q : QueueRef) (f : Queue → Queue) : (s.onQueue q f).others = s.others := rfl
@[simp] theorem onQueue_mem (s : State) (q : QueueRef) (f : Queue → Queue) : (s.onQueue q f).mem = s.mem := rfl
@[simp] theorem onQueue_teams (s : State) (q : QueueRef) (f : Queue → Queue) : (s.onQueue q f).teams = s.teams := rfl
@[simp] theorem onQueue_cmds (s : State) (q : QueueRef) (f : Queue → Queue) : (s.onQueue q f).cmds = s.cmds := rfl
@[simp] theorem onQueue_launches (s : State) (q : QueueRef) (f : Queue → Queue) : (s.onQueue q f).launches = s.launches := rfl
@[simp] theorem onQueue_signals (s : State) (q : QueueRef) (f : Queue → Queue) : (s.onQueue q f).signals = s.signals := rfl
@[simp] theorem onQueue_knotQ (s : State) (q : QueueRef) (f : Queue → Queue) : (s.onQueue q f).knotQ = s.knotQ := rfl
@[simp] theorem onQueue_dir (s : State) (q : QueueRef) (f : Queue → Queue) : (s.onQueue q f).dir = s.dir := rfl
@[simp] theorem onQueue_stage (s : State) (q : QueueRef) (f : Queue → Queue) : (s.onQueue q f).stage = s.stage := rfl
@[simp] theorem onQueue_reel (s : State) (q : QueueRef) (f : Queue → Queue) : (s.onQueue q f).reel = s.reel := rfl
@[simp] theorem onQueue_host (s : State) (q : QueueRef) (f : Queue → Queue) : (s.onQueue q f).host = s.host := rfl
@[simp] theorem onQueue_etBase (s : State) (q : QueueRef) (f : Queue → Queue) : (s.onQueue q f).etBase = s.etBase := rfl
@[simp] theorem onQueue_roveFloor (s : State) (q : QueueRef) (f : Queue → Queue) : (s.onQueue q f).roveFloor = s.roveFloor := rfl
@[simp] theorem onQueue_plimit (s : State) (q : QueueRef) (f : Queue → Queue) : (s.onQueue q f).plimit = s.plimit := rfl
@[simp] theorem onQueue_arbiter (s : State) (q : QueueRef) (f : Queue → Queue) : (s.onQueue q f).arbiter = s.arbiter := rfl
@[simp] theorem onQueue_softErrs (s : State) (q : QueueRef) (f : Queue → Queue) : (s.onQueue q f).softErrs = s.softErrs := rfl
@[simp] theorem onQueue_nextId (s : State) (q : QueueRef) (f : Queue → Queue) : (s.onQueue q f).nextId = s.nextId := rfl
@[simp] theorem onQueue_freeCtr (s : State) (q : QueueRef) (f : Queue → Queue) : (s.onQueue q f).freeCtr = s.freeCtr := rfl
@[simp] theorem onQueue_agenda (s : State) (q : QueueRef) (f : Queue → Queue) : (s.onQueue q f).agenda = s.agenda := rfl

@[simp] theorem onTeam_cur (s : State) (id : Nat) (f : Team → Team) : (s.onTeam id f).cur = s.cur := rfl
@[simp] theorem onTeam_others (s : State) (id : Nat) (f : Team → Team) : (s.onTeam id f).others = s.others := rfl
@[simp] theorem onTeam_mem (s : State) (id : Nat) (f : Team → Team) : (s.onTeam id f).mem = s.mem := rfl
@[simp] theorem onTeam_dies (s : State) (id : Nat) (f : Team → Team) : (s.onTeam id f).dies = s.dies := rfl
@[simp] theorem onTeam_cmds (s : State) (id : Nat) (f : Team → Team) : (s.onTeam id f).cmds = s.cmds := rfl
@[simp] theorem onTeam_launches (s : State) (id : Nat) (f : Team → Team) : (s.onTeam id f).launches = s.launches := rfl
@[simp] theorem onTeam_signals (s : State) (id : Nat) (f : Team → Team) : (s.onTeam id f).signals = s.signals := rfl
@[simp] theorem onTeam_knotQ (s : State) (id : Nat) (f : Team → Team) : (s.onTeam id f).knotQ = s.knotQ := rfl
@[simp] theorem onTeam_dir (s : State) (id : Nat) (f : Team → Team) : (s.onTeam id f).dir = s.dir := rfl
@[simp] theorem onTeam_stage (s : State) (id : Nat) (f : Team → Team) : (s.onTeam id f).stage = s.stage := rfl
@[simp] theorem onTeam_reel (s : State) (id : Nat) (f : Team → Team) : (s.onTeam id f).reel = s.reel := rfl
@[simp] theorem onTeam_host (s : State) (id : Nat) (f : Team → Team) : (s.onTeam id f).host = s.host := rfl
@[simp] theorem onTeam_etBase (s : State) (id : Nat) (f : Team → Team) : (s.onTeam id f).etBase = s.etBase := rfl
@[simp] theorem onTeam_roveFloor (s : State) (id : Nat) (f : Team → Team) : (s.onTeam id f).roveFloor = s.roveFloor := rfl
@[simp] theorem onTeam_plimit (s : State) (id : Nat) (f : Team → Team) : (s.onTeam id f).plimit = s.plimit := rfl
@[simp] theorem onTeam_arbiter (s : State) (id : Nat) (f : Team → Team) : (s.onTeam id f).arbiter = s.arbiter := rfl
@[simp] theorem onTeam_softErrs (s : State) (id : Nat) (f : Team → Team) : (s.onTeam id f).softErrs = s.softErrs := rfl
@[simp] theorem onTeam_nextId (s : State) (id : Nat) (f : Team → Team) : (s.onTeam id f).nextId = s.nextId := rfl
@[simp] theorem onTeam_freeCtr (s : State) (id : Nat) (f : Team → Team) : (s.onTeam id f).freeCtr = s.freeCtr := rfl
@[simp] theorem onTeam_agenda (s : State) (id : Nat) (f : Team → Team) : (s.onTeam id f).agenda = s.agenda := rfl

@[simp] theorem onCmd_cur (s : State) (id : Nat) (f : Cmd → Cmd) : (s.onCmd id f).cur = s.cur := rfl
@[simp] theorem onCmd_others (s : State) (id : Nat) (f : Cmd → Cmd) : (s.onCmd id f).others = s.others := rfl
@[simp] theorem onCmd_mem (s : State) (id : Nat) (f : Cmd → Cmd) : (s.onCmd id f).mem = s.mem := rfl
@[simp] theorem onCmd_dies (s : State) (id : Nat) (f : Cmd → Cmd) : (s.onCmd id f).dies = s.dies := rfl
@[simp] theorem onCmd_teams (s : State) (id : Nat) (f : Cmd → Cmd) : (s.onCmd id f).teams = s.teams := rfl
@[simp] theorem onCmd_launches (s : State) (id : Nat) (f : Cmd → Cmd) : (s.onCmd id f).launches = s.launches := rfl
@[simp] theorem onCmd_signals (s : State) (id : Nat) (f : Cmd → Cmd) : (s.onCmd id f).signals = s.signals := rfl
@[simp] theorem onCmd_knotQ (s : State) (id : Nat) (f : Cmd → Cmd) : (s.onCmd id f).knotQ = s.knotQ := rfl
@[simp] theorem onCmd_dir (s : State) (id : Nat) (f : Cmd → Cmd) : (s.onCmd id f).dir = s.dir := rfl
@[simp] theorem onCmd_stage (s : State) (id : Nat) (f : Cmd → Cmd) : (s.onCmd id f).stage = s.stage := rfl
@[simp] theorem onCmd_reel (s : State) (id : Nat) (f : Cmd → Cmd) : (s.onCmd id f).reel = s.reel := rfl
@[simp] theorem onCmd_host (s : State) (id : Nat) (f : Cmd → Cmd) : (s.onCmd id f).host = s.host := rfl
@[simp] theorem onCmd_etBase (s : State) (id : Nat) (f : Cmd → Cmd) : (s.onCmd id f).etBase = s.etBase := rfl
@[simp] theorem onCmd_roveFloor (s : State) (id : Nat) (f : Cmd → Cmd) : (s.onCmd id f).roveFloor = s.roveFloor := rfl
@[simp] theorem onCmd_plimit (s : State) (id : Nat) (f : Cmd → Cmd) : (s.onCmd id f).plimit = s.plimit := rfl
@[simp] theorem onCmd_arbiter (s : State) (id : Nat) (f : Cmd → Cmd) : (s.onCmd id f).arbiter = s.arbiter := rfl
@[simp] theorem onCmd_softErrs (s : State) (id : Nat) (f : Cmd → Cmd) : (s.onCmd id f).softErrs = s.softErrs := rfl
@[simp] theorem onCmd_nextId (s : State) (id : Nat) (f : Cmd → Cmd) : (s.onCmd id f).nextId = s.nextId := rfl
@[simp] theorem onCmd_freeCtr (s : State) (id : Nat) (f : Cmd → Cmd) : (s.onCmd id f).freeCtr = s.freeCtr := rfl
@[simp] theorem onCmd_agenda (s : State) (id : Nat) (f : Cmd → Cmd) : (s.onCmd id f).agenda = s.agenda := rfl

@[simp] theorem dropCmd_cur (s : State) (id : Nat) : (s.dropCmd id).cur = s.cur := rfl
@[simp] theorem dropCmd_others (s : State) (id : Nat) : (s.dropCmd id).others = s.others := rfl
@[simp] theorem dropCmd_mem (s : State) (id : Nat) : (s.dropCmd id).mem = s.mem := rfl
@[simp] theorem dropCmd_dies (s : State) (id : Nat) : (s.dropCmd id).dies = s.dies := rfl
@[simp] theorem dropCmd_teams (s : State) (id : Nat) : (s.dropCmd id).teams = s.teams := rfl
@[simp] theorem dropCmd_launches (s : State) (id : Nat) : (s.dropCmd id).launches = s.launches := rfl
@[simp] theorem dropCmd_signals (s : State) (id : Nat) : (s.dropCmd id).signals = s.signals := rfl
@[simp] theorem dropCmd_knotQ (s : State) (id : Nat) : (s.dropCmd id).knotQ = s.knotQ := rfl
@[simp] theorem dropCmd_dir (s : State) (id : Nat) : (s.dropCmd id).dir = s.dir := rfl
@[simp] theorem dropCmd_stage (s : State) (id : Nat) : (s.dropCmd id).stage = s.stage := rfl
@[simp] theorem dropCmd_reel (s : State) (id : Nat) : (s.dropCmd id).reel = s.reel := rfl
@[simp] theorem dropCmd_host (s : State) (id : Nat) : (s.dropCmd id).host = s.host := rfl
@[simp] theorem dropCmd_etBase (s : State) (id : Nat) : (s.dropCmd id).etBase = s.etBase := rfl
@[simp] theorem dropCmd_roveFloor (s : State) (id : Nat) : (s.dropCmd id).roveFloor = s.roveFloor := rfl
@[simp] theorem dropCmd_plimit (s : State) (id : Nat) : (s.dropCmd id).plimit = s.plimit := rfl
@[simp] theorem dropCmd_arbiter (s : State) (id : Nat) : (s.dropCmd id).arbiter = s.arbiter := rfl
@[simp] theorem dropCmd_softErrs (s : State) (id : Nat) : (s.dropCmd id).softErrs = s.softErrs := rfl
@[simp] theorem dropCmd_nextId (s : State) (id : Nat) : (s.dropCmd id).nextId = s.nextId := rfl
@[simp] theorem dropCmd_freeCtr (s : State) (id : Nat) : (s.dropCmd id).freeCtr = s.freeCtr := rfl
@[simp] theorem dropCmd_agenda (s : State) (id : Nat) : (s.dropCmd id).agenda = s.agenda := rfl

@[simp] theorem mapAgents_mem (s : State) (p : Warp → Bool) (f : Warp → Warp) : (s.mapAgents p f).mem = s.mem := rfl
@[simp] theorem mapAgents_dies (s : State) (p : Warp → Bool) (f : Warp → Warp) : (s.mapAgents p f).dies = s.dies := rfl
@[simp] theorem mapAgents_teams (s : State) (p : Warp → Bool) (f : Warp → Warp) : (s.mapAgents p f).teams = s.teams := rfl
@[simp] theorem mapAgents_cmds (s : State) (p : Warp → Bool) (f : Warp → Warp) : (s.mapAgents p f).cmds = s.cmds := rfl
@[simp] theorem mapAgents_launches (s : State) (p : Warp → Bool) (f : Warp → Warp) : (s.mapAgents p f).launches = s.launches := rfl
@[simp] theorem mapAgents_signals (s : State) (p : Warp → Bool) (f : Warp → Warp) : (s.mapAgents p f).signals = s.signals := rfl
@[simp] theorem mapAgents_knotQ (s : State) (p : Warp → Bool) (f : Warp → Warp) : (s.mapAgents p f).knotQ = s.knotQ := rfl
@[simp] theorem mapAgents_dir (s : State) (p : Warp → Bool) (f : Warp → Warp) : (s.mapAgents p f).dir = s.dir := rfl
@[simp] theorem mapAgents_stage (s : State) (p : Warp → Bool) (f : Warp → Warp) : (s.mapAgents p f).stage = s.stage := rfl
@[simp] theorem mapAgents_reel (s : State) (p : Warp → Bool) (f : Warp → Warp) : (s.mapAgents p f).reel = s.reel := rfl
@[simp] theorem mapAgents_host (s : State) (p : Warp → Bool) (f : Warp → Warp) : (s.mapAgents p f).host = s.host := rfl
@[simp] theorem mapAgents_etBase (s : State) (p : Warp → Bool) (f : Warp → Warp) : (s.mapAgents p f).etBase = s.etBase := rfl
@[simp] theorem mapAgents_roveFloor (s : State) (p : Warp → Bool) (f : Warp → Warp) : (s.mapAgents p f).roveFloor = s.roveFloor := rfl
@[simp] theorem mapAgents_plimit (s : State) (p : Warp → Bool) (f : Warp → Warp) : (s.mapAgents p f).plimit = s.plimit := rfl
@[simp] theorem mapAgents_arbiter (s : State) (p : Warp → Bool) (f : Warp → Warp) : (s.mapAgents p f).arbiter = s.arbiter := rfl
@[simp] theorem mapAgents_softErrs (s : State) (p : Warp → Bool) (f : Warp → Warp) : (s.mapAgents p f).softErrs = s.softErrs := rfl
@[simp] theorem mapAgents_nextId (s : State) (p : Warp → Bool) (f : Warp → Warp) : (s.mapAgents p f).nextId = s.nextId := rfl
@[simp] theorem mapAgents_freeCtr (s : State) (p : Warp → Bool) (f : Warp → Warp) : (s.mapAgents p f).freeCtr = s.freeCtr := rfl
@[simp] theorem mapAgents_agenda (s : State) (p : Warp → Bool) (f : Warp → Warp) : (s.mapAgents p f).agenda = s.agenda := rfl

@[simp] theorem onWarp_mem (s : State) (id : WarpId) (f : Warp → Warp) : (s.onWarp id f).mem = s.mem := rfl
@[simp] theorem onWarp_dies (s : State) (id : WarpId) (f : Warp → Warp) : (s.onWarp id f).dies = s.dies := rfl
@[simp] theorem onWarp_cmds (s : State) (id : WarpId) (f : Warp → Warp) : (s.onWarp id f).cmds = s.cmds := rfl
@[simp] theorem onWarp_launches (s : State) (id : WarpId) (f : Warp → Warp) : (s.onWarp id f).launches = s.launches := rfl
@[simp] theorem onWarp_signals (s : State) (id : WarpId) (f : Warp → Warp) : (s.onWarp id f).signals = s.signals := rfl
@[simp] theorem onWarp_knotQ (s : State) (id : WarpId) (f : Warp → Warp) : (s.onWarp id f).knotQ = s.knotQ := rfl
@[simp] theorem onWarp_dir (s : State) (id : WarpId) (f : Warp → Warp) : (s.onWarp id f).dir = s.dir := rfl
@[simp] theorem onWarp_stage (s : State) (id : WarpId) (f : Warp → Warp) : (s.onWarp id f).stage = s.stage := rfl
@[simp] theorem onWarp_reel (s : State) (id : WarpId) (f : Warp → Warp) : (s.onWarp id f).reel = s.reel := rfl
@[simp] theorem onWarp_host (s : State) (id : WarpId) (f : Warp → Warp) : (s.onWarp id f).host = s.host := rfl
@[simp] theorem onWarp_etBase (s : State) (id : WarpId) (f : Warp → Warp) : (s.onWarp id f).etBase = s.etBase := rfl
@[simp] theorem onWarp_roveFloor (s : State) (id : WarpId) (f : Warp → Warp) : (s.onWarp id f).roveFloor = s.roveFloor := rfl
@[simp] theorem onWarp_plimit (s : State) (id : WarpId) (f : Warp → Warp) : (s.onWarp id f).plimit = s.plimit := rfl
@[simp] theorem onWarp_arbiter (s : State) (id : WarpId) (f : Warp → Warp) : (s.onWarp id f).arbiter = s.arbiter := rfl
@[simp] theorem onWarp_softErrs (s : State) (id : WarpId) (f : Warp → Warp) : (s.onWarp id f).softErrs = s.softErrs := rfl
@[simp] theorem onWarp_nextId (s : State) (id : WarpId) (f : Warp → Warp) : (s.onWarp id f).nextId = s.nextId := rfl
@[simp] theorem onWarp_freeCtr (s : State) (id : WarpId) (f : Warp → Warp) : (s.onWarp id f).freeCtr = s.freeCtr := rfl
@[simp] theorem onWarp_agenda (s : State) (id : WarpId) (f : Warp → Warp) : (s.onWarp id f).agenda = s.agenda := rfl

@[simp] theorem onAgent_mem (s : State) (a : Agent) (f : Warp → Warp) : (s.onAgent a f).mem = s.mem := rfl
@[simp] theorem onAgent_dies (s : State) (a : Agent) (f : Warp → Warp) : (s.onAgent a f).dies = s.dies := rfl
@[simp] theorem onAgent_teams (s : State) (a : Agent) (f : Warp → Warp) : (s.onAgent a f).teams = s.teams := rfl
@[simp] theorem onAgent_cmds (s : State) (a : Agent) (f : Warp → Warp) : (s.onAgent a f).cmds = s.cmds := rfl
@[simp] theorem onAgent_launches (s : State) (a : Agent) (f : Warp → Warp) : (s.onAgent a f).launches = s.launches := rfl
@[simp] theorem onAgent_signals (s : State) (a : Agent) (f : Warp → Warp) : (s.onAgent a f).signals = s.signals := rfl
@[simp] theorem onAgent_knotQ (s : State) (a : Agent) (f : Warp → Warp) : (s.onAgent a f).knotQ = s.knotQ := rfl
@[simp] theorem onAgent_dir (s : State) (a : Agent) (f : Warp → Warp) : (s.onAgent a f).dir = s.dir := rfl
@[simp] theorem onAgent_stage (s : State) (a : Agent) (f : Warp → Warp) : (s.onAgent a f).stage = s.stage := rfl
@[simp] theorem onAgent_reel (s : State) (a : Agent) (f : Warp → Warp) : (s.onAgent a f).reel = s.reel := rfl
@[simp] theorem onAgent_host (s : State) (a : Agent) (f : Warp → Warp) : (s.onAgent a f).host = s.host := rfl
@[simp] theorem onAgent_etBase (s : State) (a : Agent) (f : Warp → Warp) : (s.onAgent a f).etBase = s.etBase := rfl
@[simp] theorem onAgent_roveFloor (s : State) (a : Agent) (f : Warp → Warp) : (s.onAgent a f).roveFloor = s.roveFloor := rfl
@[simp] theorem onAgent_plimit (s : State) (a : Agent) (f : Warp → Warp) : (s.onAgent a f).plimit = s.plimit := rfl
@[simp] theorem onAgent_arbiter (s : State) (a : Agent) (f : Warp → Warp) : (s.onAgent a f).arbiter = s.arbiter := rfl
@[simp] theorem onAgent_softErrs (s : State) (a : Agent) (f : Warp → Warp) : (s.onAgent a f).softErrs = s.softErrs := rfl
@[simp] theorem onAgent_nextId (s : State) (a : Agent) (f : Warp → Warp) : (s.onAgent a f).nextId = s.nextId := rfl
@[simp] theorem onAgent_freeCtr (s : State) (a : Agent) (f : Warp → Warp) : (s.onAgent a f).freeCtr = s.freeCtr := rfl
@[simp] theorem onAgent_agenda (s : State) (a : Agent) (f : Warp → Warp) : (s.onAgent a f).agenda = s.agenda := rfl

@[simp] theorem onThread_mem (s : State) (d : Fin 2) (t : Fin 64) (f : Warp → Warp) : (s.onThread d t f).mem = s.mem := rfl
@[simp] theorem onThread_dies (s : State) (d : Fin 2) (t : Fin 64) (f : Warp → Warp) : (s.onThread d t f).dies = s.dies := rfl
@[simp] theorem onThread_teams (s : State) (d : Fin 2) (t : Fin 64) (f : Warp → Warp) : (s.onThread d t f).teams = s.teams := rfl
@[simp] theorem onThread_cmds (s : State) (d : Fin 2) (t : Fin 64) (f : Warp → Warp) : (s.onThread d t f).cmds = s.cmds := rfl
@[simp] theorem onThread_launches (s : State) (d : Fin 2) (t : Fin 64) (f : Warp → Warp) : (s.onThread d t f).launches = s.launches := rfl
@[simp] theorem onThread_signals (s : State) (d : Fin 2) (t : Fin 64) (f : Warp → Warp) : (s.onThread d t f).signals = s.signals := rfl
@[simp] theorem onThread_knotQ (s : State) (d : Fin 2) (t : Fin 64) (f : Warp → Warp) : (s.onThread d t f).knotQ = s.knotQ := rfl
@[simp] theorem onThread_dir (s : State) (d : Fin 2) (t : Fin 64) (f : Warp → Warp) : (s.onThread d t f).dir = s.dir := rfl
@[simp] theorem onThread_stage (s : State) (d : Fin 2) (t : Fin 64) (f : Warp → Warp) : (s.onThread d t f).stage = s.stage := rfl
@[simp] theorem onThread_reel (s : State) (d : Fin 2) (t : Fin 64) (f : Warp → Warp) : (s.onThread d t f).reel = s.reel := rfl
@[simp] theorem onThread_host (s : State) (d : Fin 2) (t : Fin 64) (f : Warp → Warp) : (s.onThread d t f).host = s.host := rfl
@[simp] theorem onThread_etBase (s : State) (d : Fin 2) (t : Fin 64) (f : Warp → Warp) : (s.onThread d t f).etBase = s.etBase := rfl
@[simp] theorem onThread_roveFloor (s : State) (d : Fin 2) (t : Fin 64) (f : Warp → Warp) : (s.onThread d t f).roveFloor = s.roveFloor := rfl
@[simp] theorem onThread_plimit (s : State) (d : Fin 2) (t : Fin 64) (f : Warp → Warp) : (s.onThread d t f).plimit = s.plimit := rfl
@[simp] theorem onThread_arbiter (s : State) (d : Fin 2) (t : Fin 64) (f : Warp → Warp) : (s.onThread d t f).arbiter = s.arbiter := rfl
@[simp] theorem onThread_softErrs (s : State) (d : Fin 2) (t : Fin 64) (f : Warp → Warp) : (s.onThread d t f).softErrs = s.softErrs := rfl
@[simp] theorem onThread_nextId (s : State) (d : Fin 2) (t : Fin 64) (f : Warp → Warp) : (s.onThread d t f).nextId = s.nextId := rfl
@[simp] theorem onThread_freeCtr (s : State) (d : Fin 2) (t : Fin 64) (f : Warp → Warp) : (s.onThread d t f).freeCtr = s.freeCtr := rfl
@[simp] theorem onThread_agenda (s : State) (d : Fin 2) (t : Fin 64) (f : Warp → Warp) : (s.onThread d t f).agenda = s.agenda := rfl

@[simp] theorem freshId_cur (s : State) : (s.freshId.2).cur = s.cur := rfl
@[simp] theorem freshId_others (s : State) : (s.freshId.2).others = s.others := rfl
@[simp] theorem freshId_mem (s : State) : (s.freshId.2).mem = s.mem := rfl
@[simp] theorem freshId_dies (s : State) : (s.freshId.2).dies = s.dies := rfl
@[simp] theorem freshId_teams (s : State) : (s.freshId.2).teams = s.teams := rfl
@[simp] theorem freshId_cmds (s : State) : (s.freshId.2).cmds = s.cmds := rfl
@[simp] theorem freshId_launches (s : State) : (s.freshId.2).launches = s.launches := rfl
@[simp] theorem freshId_signals (s : State) : (s.freshId.2).signals = s.signals := rfl
@[simp] theorem freshId_knotQ (s : State) : (s.freshId.2).knotQ = s.knotQ := rfl
@[simp] theorem freshId_dir (s : State) : (s.freshId.2).dir = s.dir := rfl
@[simp] theorem freshId_stage (s : State) : (s.freshId.2).stage = s.stage := rfl
@[simp] theorem freshId_reel (s : State) : (s.freshId.2).reel = s.reel := rfl
@[simp] theorem freshId_host (s : State) : (s.freshId.2).host = s.host := rfl
@[simp] theorem freshId_etBase (s : State) : (s.freshId.2).etBase = s.etBase := rfl
@[simp] theorem freshId_roveFloor (s : State) : (s.freshId.2).roveFloor = s.roveFloor := rfl
@[simp] theorem freshId_plimit (s : State) : (s.freshId.2).plimit = s.plimit := rfl
@[simp] theorem freshId_arbiter (s : State) : (s.freshId.2).arbiter = s.arbiter := rfl
@[simp] theorem freshId_softErrs (s : State) : (s.freshId.2).softErrs = s.softErrs := rfl
@[simp] theorem freshId_freeCtr (s : State) : (s.freshId.2).freeCtr = s.freeCtr := rfl
@[simp] theorem freshId_agenda (s : State) : (s.freshId.2).agenda = s.agenda := rfl

@[simp] theorem choose_cur (s : State) (n : Nat) : ((s.choose n).2).cur = s.cur := rfl
@[simp] theorem choose_others (s : State) (n : Nat) : ((s.choose n).2).others = s.others := rfl
@[simp] theorem choose_mem (s : State) (n : Nat) : ((s.choose n).2).mem = s.mem := rfl
@[simp] theorem choose_dies (s : State) (n : Nat) : ((s.choose n).2).dies = s.dies := rfl
@[simp] theorem choose_teams (s : State) (n : Nat) : ((s.choose n).2).teams = s.teams := rfl
@[simp] theorem choose_cmds (s : State) (n : Nat) : ((s.choose n).2).cmds = s.cmds := rfl
@[simp] theorem choose_launches (s : State) (n : Nat) : ((s.choose n).2).launches = s.launches := rfl
@[simp] theorem choose_signals (s : State) (n : Nat) : ((s.choose n).2).signals = s.signals := rfl
@[simp] theorem choose_knotQ (s : State) (n : Nat) : ((s.choose n).2).knotQ = s.knotQ := rfl
@[simp] theorem choose_dir (s : State) (n : Nat) : ((s.choose n).2).dir = s.dir := rfl
@[simp] theorem choose_stage (s : State) (n : Nat) : ((s.choose n).2).stage = s.stage := rfl
@[simp] theorem choose_reel (s : State) (n : Nat) : ((s.choose n).2).reel = s.reel := rfl
@[simp] theorem choose_host (s : State) (n : Nat) : ((s.choose n).2).host = s.host := rfl
@[simp] theorem choose_etBase (s : State) (n : Nat) : ((s.choose n).2).etBase = s.etBase := rfl
@[simp] theorem choose_roveFloor (s : State) (n : Nat) : ((s.choose n).2).roveFloor = s.roveFloor := rfl
@[simp] theorem choose_plimit (s : State) (n : Nat) : ((s.choose n).2).plimit = s.plimit := rfl
@[simp] theorem choose_arbiter (s : State) (n : Nat) : ((s.choose n).2).arbiter = s.arbiter := rfl
@[simp] theorem choose_softErrs (s : State) (n : Nat) : ((s.choose n).2).softErrs = s.softErrs := rfl
@[simp] theorem choose_nextId (s : State) (n : Nat) : ((s.choose n).2).nextId = s.nextId := rfl
@[simp] theorem choose_agenda (s : State) (n : Nat) : ((s.choose n).2).agenda = s.agenda := rfl

@[simp] theorem enqueueRec_cur (s : State) (d : Fin 2) (r : SpoolRec) : (enqueueRec s d r).cur = s.cur := rfl
@[simp] theorem enqueueRec_others (s : State) (d : Fin 2) (r : SpoolRec) : (enqueueRec s d r).others = s.others := rfl
@[simp] theorem enqueueRec_mem (s : State) (d : Fin 2) (r : SpoolRec) : (enqueueRec s d r).mem = s.mem := rfl
@[simp] theorem enqueueRec_teams (s : State) (d : Fin 2) (r : SpoolRec) : (enqueueRec s d r).teams = s.teams := rfl
@[simp] theorem enqueueRec_cmds (s : State) (d : Fin 2) (r : SpoolRec) : (enqueueRec s d r).cmds = s.cmds := rfl
@[simp] theorem enqueueRec_launches (s : State) (d : Fin 2) (r : SpoolRec) : (enqueueRec s d r).launches = s.launches := rfl
@[simp] theorem enqueueRec_signals (s : State) (d : Fin 2) (r : SpoolRec) : (enqueueRec s d r).signals = s.signals := rfl
@[simp] theorem enqueueRec_knotQ (s : State) (d : Fin 2) (r : SpoolRec) : (enqueueRec s d r).knotQ = s.knotQ := rfl
@[simp] theorem enqueueRec_dir (s : State) (d : Fin 2) (r : SpoolRec) : (enqueueRec s d r).dir = s.dir := rfl
@[simp] theorem enqueueRec_stage (s : State) (d : Fin 2) (r : SpoolRec) : (enqueueRec s d r).stage = s.stage := rfl
@[simp] theorem enqueueRec_reel (s : State) (d : Fin 2) (r : SpoolRec) : (enqueueRec s d r).reel = s.reel := rfl
@[simp] theorem enqueueRec_host (s : State) (d : Fin 2) (r : SpoolRec) : (enqueueRec s d r).host = s.host := rfl
@[simp] theorem enqueueRec_etBase (s : State) (d : Fin 2) (r : SpoolRec) : (enqueueRec s d r).etBase = s.etBase := rfl
@[simp] theorem enqueueRec_roveFloor (s : State) (d : Fin 2) (r : SpoolRec) : (enqueueRec s d r).roveFloor = s.roveFloor := rfl
@[simp] theorem enqueueRec_plimit (s : State) (d : Fin 2) (r : SpoolRec) : (enqueueRec s d r).plimit = s.plimit := rfl
@[simp] theorem enqueueRec_arbiter (s : State) (d : Fin 2) (r : SpoolRec) : (enqueueRec s d r).arbiter = s.arbiter := rfl
@[simp] theorem enqueueRec_softErrs (s : State) (d : Fin 2) (r : SpoolRec) : (enqueueRec s d r).softErrs = s.softErrs := rfl
@[simp] theorem enqueueRec_nextId (s : State) (d : Fin 2) (r : SpoolRec) : (enqueueRec s d r).nextId = s.nextId := rfl
@[simp] theorem enqueueRec_freeCtr (s : State) (d : Fin 2) (r : SpoolRec) : (enqueueRec s d r).freeCtr = s.freeCtr := rfl
@[simp] theorem enqueueRec_agenda (s : State) (d : Fin 2) (r : SpoolRec) : (enqueueRec s d r).agenda = s.agenda := rfl

@[simp] theorem raiseEvents_mem (s : State) (d : Fin 2) (p : Tctl → Bool) (ev : BitVec 4) : (raiseEvents s d p ev).mem = s.mem := rfl
@[simp] theorem raiseEvents_dies (s : State) (d : Fin 2) (p : Tctl → Bool) (ev : BitVec 4) : (raiseEvents s d p ev).dies = s.dies := rfl
@[simp] theorem raiseEvents_teams (s : State) (d : Fin 2) (p : Tctl → Bool) (ev : BitVec 4) : (raiseEvents s d p ev).teams = s.teams := rfl
@[simp] theorem raiseEvents_cmds (s : State) (d : Fin 2) (p : Tctl → Bool) (ev : BitVec 4) : (raiseEvents s d p ev).cmds = s.cmds := rfl
@[simp] theorem raiseEvents_launches (s : State) (d : Fin 2) (p : Tctl → Bool) (ev : BitVec 4) : (raiseEvents s d p ev).launches = s.launches := rfl
@[simp] theorem raiseEvents_signals (s : State) (d : Fin 2) (p : Tctl → Bool) (ev : BitVec 4) : (raiseEvents s d p ev).signals = s.signals := rfl
@[simp] theorem raiseEvents_knotQ (s : State) (d : Fin 2) (p : Tctl → Bool) (ev : BitVec 4) : (raiseEvents s d p ev).knotQ = s.knotQ := rfl
@[simp] theorem raiseEvents_dir (s : State) (d : Fin 2) (p : Tctl → Bool) (ev : BitVec 4) : (raiseEvents s d p ev).dir = s.dir := rfl
@[simp] theorem raiseEvents_stage (s : State) (d : Fin 2) (p : Tctl → Bool) (ev : BitVec 4) : (raiseEvents s d p ev).stage = s.stage := rfl
@[simp] theorem raiseEvents_reel (s : State) (d : Fin 2) (p : Tctl → Bool) (ev : BitVec 4) : (raiseEvents s d p ev).reel = s.reel := rfl
@[simp] theorem raiseEvents_host (s : State) (d : Fin 2) (p : Tctl → Bool) (ev : BitVec 4) : (raiseEvents s d p ev).host = s.host := rfl
@[simp] theorem raiseEvents_etBase (s : State) (d : Fin 2) (p : Tctl → Bool) (ev : BitVec 4) : (raiseEvents s d p ev).etBase = s.etBase := rfl
@[simp] theorem raiseEvents_roveFloor (s : State) (d : Fin 2) (p : Tctl → Bool) (ev : BitVec 4) : (raiseEvents s d p ev).roveFloor = s.roveFloor := rfl
@[simp] theorem raiseEvents_plimit (s : State) (d : Fin 2) (p : Tctl → Bool) (ev : BitVec 4) : (raiseEvents s d p ev).plimit = s.plimit := rfl
@[simp] theorem raiseEvents_arbiter (s : State) (d : Fin 2) (p : Tctl → Bool) (ev : BitVec 4) : (raiseEvents s d p ev).arbiter = s.arbiter := rfl
@[simp] theorem raiseEvents_softErrs (s : State) (d : Fin 2) (p : Tctl → Bool) (ev : BitVec 4) : (raiseEvents s d p ev).softErrs = s.softErrs := rfl
@[simp] theorem raiseEvents_nextId (s : State) (d : Fin 2) (p : Tctl → Bool) (ev : BitVec 4) : (raiseEvents s d p ev).nextId = s.nextId := rfl
@[simp] theorem raiseEvents_freeCtr (s : State) (d : Fin 2) (p : Tctl → Bool) (ev : BitVec 4) : (raiseEvents s d p ev).freeCtr = s.freeCtr := rfl
@[simp] theorem raiseEvents_agenda (s : State) (d : Fin 2) (p : Tctl → Bool) (ev : BitVec 4) : (raiseEvents s d p ev).agenda = s.agenda := rfl

/-! ### Updates of a warp -/

@[simp] theorem writeX_who (w : Warp) (r : BitVec 6) (val : Word) : (writeX w r val).who = w.who := by unfold writeX; split <;> rfl
@[simp] theorem writeX_v (w : Warp) (r : BitVec 6) (val : Word) : (writeX w r val).v = w.v := by unfold writeX; split <;> rfl
@[simp] theorem writeX_m (w : Warp) (r : BitVec 6) (val : Word) : (writeX w r val).m = w.m := by unfold writeX; split <;> rfl
@[simp] theorem writeX_cb (w : Warp) (r : BitVec 6) (val : Word) : (writeX w r val).cb = w.cb := by unfold writeX; split <;> rfl
@[simp] theorem writeX_vl (w : Warp) (r : BitVec 6) (val : Word) : (writeX w r val).vl = w.vl := by unfold writeX; split <;> rfl
@[simp] theorem writeX_split (w : Warp) (r : BitVec 6) (val : Word) : (writeX w r val).split = w.split := by unfold writeX; split <;> rfl
@[simp] theorem writeX_mapping (w : Warp) (r : BitVec 6) (val : Word) : (writeX w r val).mapping = w.mapping := by unfold writeX; split <;> rfl
@[simp] theorem writeX_pc (w : Warp) (r : BitVec 6) (val : Word) : (writeX w r val).pc = w.pc := by unfold writeX; split <;> rfl
@[simp] theorem writeX_replay (w : Warp) (r : BitVec 6) (val : Word) : (writeX w r val).replay = w.replay := by unfold writeX; split <;> rfl
@[simp] theorem writeX_replayNext (w : Warp) (r : BitVec 6) (val : Word) : (writeX w r val).replayNext = w.replayNext := by unfold writeX; split <;> rfl
@[simp] theorem writeX_seed (w : Warp) (r : BitVec 6) (val : Word) : (writeX w r val).seed = w.seed := by unfold writeX; split <;> rfl
@[simp] theorem writeX_gens (w : Warp) (r : BitVec 6) (val : Word) : (writeX w r val).gens = w.gens := by unfold writeX; split <;> rfl
@[simp] theorem writeX_wclk (w : Warp) (r : BitVec 6) (val : Word) : (writeX w r val).wclk = w.wclk := by unfold writeX; split <;> rfl
@[simp] theorem writeX_smax (w : Warp) (r : BitVec 6) (val : Word) : (writeX w r val).smax = w.smax := by unfold writeX; split <;> rfl
@[simp] theorem writeX_rmax (w : Warp) (r : BitVec 6) (val : Word) : (writeX w r val).rmax = w.rmax := by unfold writeX; split <;> rfl
@[simp] theorem writeX_stimeLatch (w : Warp) (r : BitVec 6) (val : Word) : (writeX w r val).stimeLatch = w.stimeLatch := by unfold writeX; split <;> rfl
@[simp] theorem writeX_roveOff (w : Warp) (r : BitVec 6) (val : Word) : (writeX w r val).roveOff = w.roveOff := by unfold writeX; split <;> rfl
@[simp] theorem writeX_lastEnd (w : Warp) (r : BitVec 6) (val : Word) : (writeX w r val).lastEnd = w.lastEnd := by unfold writeX; split <;> rfl
@[simp] theorem writeX_lastLen (w : Warp) (r : BitVec 6) (val : Word) : (writeX w r val).lastLen = w.lastLen := by unfold writeX; split <;> rfl
@[simp] theorem writeX_prefs (w : Warp) (r : BitVec 6) (val : Word) : (writeX w r val).prefs = w.prefs := by unfold writeX; split <;> rfl
@[simp] theorem writeX_episodes (w : Warp) (r : BitVec 6) (val : Word) : (writeX w r val).episodes = w.episodes := by unfold writeX; split <;> rfl
@[simp] theorem writeX_cause (w : Warp) (r : BitVec 6) (val : Word) : (writeX w r val).cause = w.cause := by unfold writeX; split <;> rfl
@[simp] theorem writeX_epc (w : Warp) (r : BitVec 6) (val : Word) : (writeX w r val).epc = w.epc := by unfold writeX; split <;> rfl
@[simp] theorem writeX_tval (w : Warp) (r : BitVec 6) (val : Word) : (writeX w r val).tval = w.tval := by unfold writeX; split <;> rfl
@[simp] theorem writeX_team (w : Warp) (r : BitVec 6) (val : Word) : (writeX w r val).team = w.team := by unfold writeX; split <;> rfl
@[simp] theorem writeX_widx (w : Warp) (r : BitVec 6) (val : Word) : (writeX w r val).widx = w.widx := by unfold writeX; split <;> rfl
@[simp] theorem writeX_tidx (w : Warp) (r : BitVec 6) (val : Word) : (writeX w r val).tidx = w.tidx := by unfold writeX; split <;> rfl
@[simp] theorem writeX_crank (w : Warp) (r : BitVec 6) (val : Word) : (writeX w r val).crank = w.crank := by unfold writeX; split <;> rfl
@[simp] theorem writeX_cw (w : Warp) (r : BitVec 6) (val : Word) : (writeX w r val).cw = w.cw := by unfold writeX; split <;> rfl
@[simp] theorem writeX_ch (w : Warp) (r : BitVec 6) (val : Word) : (writeX w r val).ch = w.ch := by unfold writeX; split <;> rfl
@[simp] theorem writeX_ctx (w : Warp) (r : BitVec 6) (val : Word) : (writeX w r val).ctx = w.ctx := by unfold writeX; split <;> rfl
@[simp] theorem writeX_status (w : Warp) (r : BitVec 6) (val : Word) : (writeX w r val).status = w.status := by unfold writeX; split <;> rfl
@[simp] theorem writeX_karrw (w : Warp) (r : BitVec 6) (val : Word) : (writeX w r val).karrw = w.karrw := by unfold writeX; split <;> rfl
@[simp] theorem writeX_promises (w : Warp) (r : BitVec 6) (val : Word) : (writeX w r val).promises = w.promises := by unfold writeX; split <;> rfl
@[simp] theorem writeX_pend (w : Warp) (r : BitVec 6) (val : Word) : (writeX w r val).pend = w.pend := by unfold writeX; split <;> rfl
@[simp] theorem writeX_poison (w : Warp) (r : BitVec 6) (val : Word) : (writeX w r val).poison = w.poison := by unfold writeX; split <;> rfl
@[simp] theorem writeX_queries (w : Warp) (r : BitVec 6) (val : Word) : (writeX w r val).queries = w.queries := by unfold writeX; split <;> rfl
@[simp] theorem writeX_batch (w : Warp) (r : BitVec 6) (val : Word) : (writeX w r val).batch = w.batch := by unfold writeX; split <;> rfl
@[simp] theorem writeX_rove (w : Warp) (r : BitVec 6) (val : Word) : (writeX w r val).rove = w.rove := by unfold writeX; split <;> rfl
@[simp] theorem writeX_yielded (w : Warp) (r : BitVec 6) (val : Word) : (writeX w r val).yielded = w.yielded := by unfold writeX; split <;> rfl
@[simp] theorem writeX_region (w : Warp) (r : BitVec 6) (val : Word) : (writeX w r val).region = w.region := by unfold writeX; split <;> rfl
@[simp] theorem writeX_events (w : Warp) (r : BitVec 6) (val : Word) : (writeX w r val).events = w.events := by unfold writeX; split <;> rfl

@[simp] theorem setV_who (w : Warp) (n : Nat) (r : VReg) : (setV w n r).who = w.who := rfl
@[simp] theorem setV_x (w : Warp) (n : Nat) (r : VReg) : (setV w n r).x = w.x := rfl
@[simp] theorem setV_m (w : Warp) (n : Nat) (r : VReg) : (setV w n r).m = w.m := rfl
@[simp] theorem setV_cb (w : Warp) (n : Nat) (r : VReg) : (setV w n r).cb = w.cb := rfl
@[simp] theorem setV_vl (w : Warp) (n : Nat) (r : VReg) : (setV w n r).vl = w.vl := rfl
@[simp] theorem setV_split (w : Warp) (n : Nat) (r : VReg) : (setV w n r).split = w.split := rfl
@[simp] theorem setV_mapping (w : Warp) (n : Nat) (r : VReg) : (setV w n r).mapping = w.mapping := rfl
@[simp] theorem setV_pc (w : Warp) (n : Nat) (r : VReg) : (setV w n r).pc = w.pc := rfl
@[simp] theorem setV_replay (w : Warp) (n : Nat) (r : VReg) : (setV w n r).replay = w.replay := rfl
@[simp] theorem setV_replayNext (w : Warp) (n : Nat) (r : VReg) : (setV w n r).replayNext = w.replayNext := rfl
@[simp] theorem setV_seed (w : Warp) (n : Nat) (r : VReg) : (setV w n r).seed = w.seed := rfl
@[simp] theorem setV_gens (w : Warp) (n : Nat) (r : VReg) : (setV w n r).gens = w.gens := rfl
@[simp] theorem setV_wclk (w : Warp) (n : Nat) (r : VReg) : (setV w n r).wclk = w.wclk := rfl
@[simp] theorem setV_smax (w : Warp) (n : Nat) (r : VReg) : (setV w n r).smax = w.smax := rfl
@[simp] theorem setV_rmax (w : Warp) (n : Nat) (r : VReg) : (setV w n r).rmax = w.rmax := rfl
@[simp] theorem setV_stimeLatch (w : Warp) (n : Nat) (r : VReg) : (setV w n r).stimeLatch = w.stimeLatch := rfl
@[simp] theorem setV_roveOff (w : Warp) (n : Nat) (r : VReg) : (setV w n r).roveOff = w.roveOff := rfl
@[simp] theorem setV_lastEnd (w : Warp) (n : Nat) (r : VReg) : (setV w n r).lastEnd = w.lastEnd := rfl
@[simp] theorem setV_lastLen (w : Warp) (n : Nat) (r : VReg) : (setV w n r).lastLen = w.lastLen := rfl
@[simp] theorem setV_prefs (w : Warp) (n : Nat) (r : VReg) : (setV w n r).prefs = w.prefs := rfl
@[simp] theorem setV_episodes (w : Warp) (n : Nat) (r : VReg) : (setV w n r).episodes = w.episodes := rfl
@[simp] theorem setV_cause (w : Warp) (n : Nat) (r : VReg) : (setV w n r).cause = w.cause := rfl
@[simp] theorem setV_epc (w : Warp) (n : Nat) (r : VReg) : (setV w n r).epc = w.epc := rfl
@[simp] theorem setV_tval (w : Warp) (n : Nat) (r : VReg) : (setV w n r).tval = w.tval := rfl
@[simp] theorem setV_team (w : Warp) (n : Nat) (r : VReg) : (setV w n r).team = w.team := rfl
@[simp] theorem setV_widx (w : Warp) (n : Nat) (r : VReg) : (setV w n r).widx = w.widx := rfl
@[simp] theorem setV_tidx (w : Warp) (n : Nat) (r : VReg) : (setV w n r).tidx = w.tidx := rfl
@[simp] theorem setV_crank (w : Warp) (n : Nat) (r : VReg) : (setV w n r).crank = w.crank := rfl
@[simp] theorem setV_cw (w : Warp) (n : Nat) (r : VReg) : (setV w n r).cw = w.cw := rfl
@[simp] theorem setV_ch (w : Warp) (n : Nat) (r : VReg) : (setV w n r).ch = w.ch := rfl
@[simp] theorem setV_ctx (w : Warp) (n : Nat) (r : VReg) : (setV w n r).ctx = w.ctx := rfl
@[simp] theorem setV_status (w : Warp) (n : Nat) (r : VReg) : (setV w n r).status = w.status := rfl
@[simp] theorem setV_karrw (w : Warp) (n : Nat) (r : VReg) : (setV w n r).karrw = w.karrw := rfl
@[simp] theorem setV_promises (w : Warp) (n : Nat) (r : VReg) : (setV w n r).promises = w.promises := rfl
@[simp] theorem setV_pend (w : Warp) (n : Nat) (r : VReg) : (setV w n r).pend = w.pend := rfl
@[simp] theorem setV_poison (w : Warp) (n : Nat) (r : VReg) : (setV w n r).poison = w.poison := rfl
@[simp] theorem setV_queries (w : Warp) (n : Nat) (r : VReg) : (setV w n r).queries = w.queries := rfl
@[simp] theorem setV_batch (w : Warp) (n : Nat) (r : VReg) : (setV w n r).batch = w.batch := rfl
@[simp] theorem setV_rove (w : Warp) (n : Nat) (r : VReg) : (setV w n r).rove = w.rove := rfl
@[simp] theorem setV_yielded (w : Warp) (n : Nat) (r : VReg) : (setV w n r).yielded = w.yielded := rfl
@[simp] theorem setV_region (w : Warp) (n : Nat) (r : VReg) : (setV w n r).region = w.region := rfl
@[simp] theorem setV_events (w : Warp) (n : Nat) (r : VReg) : (setV w n r).events = w.events := rfl

@[simp] theorem writeM_who (w : Warp) (r : BitVec 4) (val : Mask) : (writeM w r val).who = w.who := by unfold writeM; split <;> rfl
@[simp] theorem writeM_x (w : Warp) (r : BitVec 4) (val : Mask) : (writeM w r val).x = w.x := by unfold writeM; split <;> rfl
@[simp] theorem writeM_v (w : Warp) (r : BitVec 4) (val : Mask) : (writeM w r val).v = w.v := by unfold writeM; split <;> rfl
@[simp] theorem writeM_cb (w : Warp) (r : BitVec 4) (val : Mask) : (writeM w r val).cb = w.cb := by unfold writeM; split <;> rfl
@[simp] theorem writeM_vl (w : Warp) (r : BitVec 4) (val : Mask) : (writeM w r val).vl = w.vl := by unfold writeM; split <;> rfl
@[simp] theorem writeM_split (w : Warp) (r : BitVec 4) (val : Mask) : (writeM w r val).split = w.split := by unfold writeM; split <;> rfl
@[simp] theorem writeM_mapping (w : Warp) (r : BitVec 4) (val : Mask) : (writeM w r val).mapping = w.mapping := by unfold writeM; split <;> rfl
@[simp] theorem writeM_pc (w : Warp) (r : BitVec 4) (val : Mask) : (writeM w r val).pc = w.pc := by unfold writeM; split <;> rfl
@[simp] theorem writeM_replay (w : Warp) (r : BitVec 4) (val : Mask) : (writeM w r val).replay = w.replay := by unfold writeM; split <;> rfl
@[simp] theorem writeM_replayNext (w : Warp) (r : BitVec 4) (val : Mask) : (writeM w r val).replayNext = w.replayNext := by unfold writeM; split <;> rfl
@[simp] theorem writeM_seed (w : Warp) (r : BitVec 4) (val : Mask) : (writeM w r val).seed = w.seed := by unfold writeM; split <;> rfl
@[simp] theorem writeM_gens (w : Warp) (r : BitVec 4) (val : Mask) : (writeM w r val).gens = w.gens := by unfold writeM; split <;> rfl
@[simp] theorem writeM_wclk (w : Warp) (r : BitVec 4) (val : Mask) : (writeM w r val).wclk = w.wclk := by unfold writeM; split <;> rfl
@[simp] theorem writeM_smax (w : Warp) (r : BitVec 4) (val : Mask) : (writeM w r val).smax = w.smax := by unfold writeM; split <;> rfl
@[simp] theorem writeM_rmax (w : Warp) (r : BitVec 4) (val : Mask) : (writeM w r val).rmax = w.rmax := by unfold writeM; split <;> rfl
@[simp] theorem writeM_stimeLatch (w : Warp) (r : BitVec 4) (val : Mask) : (writeM w r val).stimeLatch = w.stimeLatch := by unfold writeM; split <;> rfl
@[simp] theorem writeM_roveOff (w : Warp) (r : BitVec 4) (val : Mask) : (writeM w r val).roveOff = w.roveOff := by unfold writeM; split <;> rfl
@[simp] theorem writeM_lastEnd (w : Warp) (r : BitVec 4) (val : Mask) : (writeM w r val).lastEnd = w.lastEnd := by unfold writeM; split <;> rfl
@[simp] theorem writeM_lastLen (w : Warp) (r : BitVec 4) (val : Mask) : (writeM w r val).lastLen = w.lastLen := by unfold writeM; split <;> rfl
@[simp] theorem writeM_prefs (w : Warp) (r : BitVec 4) (val : Mask) : (writeM w r val).prefs = w.prefs := by unfold writeM; split <;> rfl
@[simp] theorem writeM_episodes (w : Warp) (r : BitVec 4) (val : Mask) : (writeM w r val).episodes = w.episodes := by unfold writeM; split <;> rfl
@[simp] theorem writeM_cause (w : Warp) (r : BitVec 4) (val : Mask) : (writeM w r val).cause = w.cause := by unfold writeM; split <;> rfl
@[simp] theorem writeM_epc (w : Warp) (r : BitVec 4) (val : Mask) : (writeM w r val).epc = w.epc := by unfold writeM; split <;> rfl
@[simp] theorem writeM_tval (w : Warp) (r : BitVec 4) (val : Mask) : (writeM w r val).tval = w.tval := by unfold writeM; split <;> rfl
@[simp] theorem writeM_team (w : Warp) (r : BitVec 4) (val : Mask) : (writeM w r val).team = w.team := by unfold writeM; split <;> rfl
@[simp] theorem writeM_widx (w : Warp) (r : BitVec 4) (val : Mask) : (writeM w r val).widx = w.widx := by unfold writeM; split <;> rfl
@[simp] theorem writeM_tidx (w : Warp) (r : BitVec 4) (val : Mask) : (writeM w r val).tidx = w.tidx := by unfold writeM; split <;> rfl
@[simp] theorem writeM_crank (w : Warp) (r : BitVec 4) (val : Mask) : (writeM w r val).crank = w.crank := by unfold writeM; split <;> rfl
@[simp] theorem writeM_cw (w : Warp) (r : BitVec 4) (val : Mask) : (writeM w r val).cw = w.cw := by unfold writeM; split <;> rfl
@[simp] theorem writeM_ch (w : Warp) (r : BitVec 4) (val : Mask) : (writeM w r val).ch = w.ch := by unfold writeM; split <;> rfl
@[simp] theorem writeM_ctx (w : Warp) (r : BitVec 4) (val : Mask) : (writeM w r val).ctx = w.ctx := by unfold writeM; split <;> rfl
@[simp] theorem writeM_status (w : Warp) (r : BitVec 4) (val : Mask) : (writeM w r val).status = w.status := by unfold writeM; split <;> rfl
@[simp] theorem writeM_karrw (w : Warp) (r : BitVec 4) (val : Mask) : (writeM w r val).karrw = w.karrw := by unfold writeM; split <;> rfl
@[simp] theorem writeM_promises (w : Warp) (r : BitVec 4) (val : Mask) : (writeM w r val).promises = w.promises := by unfold writeM; split <;> rfl
@[simp] theorem writeM_pend (w : Warp) (r : BitVec 4) (val : Mask) : (writeM w r val).pend = w.pend := by unfold writeM; split <;> rfl
@[simp] theorem writeM_poison (w : Warp) (r : BitVec 4) (val : Mask) : (writeM w r val).poison = w.poison := by unfold writeM; split <;> rfl
@[simp] theorem writeM_queries (w : Warp) (r : BitVec 4) (val : Mask) : (writeM w r val).queries = w.queries := by unfold writeM; split <;> rfl
@[simp] theorem writeM_batch (w : Warp) (r : BitVec 4) (val : Mask) : (writeM w r val).batch = w.batch := by unfold writeM; split <;> rfl
@[simp] theorem writeM_rove (w : Warp) (r : BitVec 4) (val : Mask) : (writeM w r val).rove = w.rove := by unfold writeM; split <;> rfl
@[simp] theorem writeM_yielded (w : Warp) (r : BitVec 4) (val : Mask) : (writeM w r val).yielded = w.yielded := by unfold writeM; split <;> rfl
@[simp] theorem writeM_region (w : Warp) (r : BitVec 4) (val : Mask) : (writeM w r val).region = w.region := by unfold writeM; split <;> rfl
@[simp] theorem writeM_events (w : Warp) (r : BitVec 4) (val : Mask) : (writeM w r val).events = w.events := by unfold writeM; split <;> rfl

@[simp] theorem writeElems_who (w : Warp) (d : BitVec 6) (n wd : Nat) (act : Mask) (val : Nat → Nat) : (writeElems w d n wd act val).who = w.who := rfl
@[simp] theorem writeElems_x (w : Warp) (d : BitVec 6) (n wd : Nat) (act : Mask) (val : Nat → Nat) : (writeElems w d n wd act val).x = w.x := rfl
@[simp] theorem writeElems_m (w : Warp) (d : BitVec 6) (n wd : Nat) (act : Mask) (val : Nat → Nat) : (writeElems w d n wd act val).m = w.m := rfl
@[simp] theorem writeElems_cb (w : Warp) (d : BitVec 6) (n wd : Nat) (act : Mask) (val : Nat → Nat) : (writeElems w d n wd act val).cb = w.cb := rfl
@[simp] theorem writeElems_vl (w : Warp) (d : BitVec 6) (n wd : Nat) (act : Mask) (val : Nat → Nat) : (writeElems w d n wd act val).vl = w.vl := rfl
@[simp] theorem writeElems_split (w : Warp) (d : BitVec 6) (n wd : Nat) (act : Mask) (val : Nat → Nat) : (writeElems w d n wd act val).split = w.split := rfl
@[simp] theorem writeElems_mapping (w : Warp) (d : BitVec 6) (n wd : Nat) (act : Mask) (val : Nat → Nat) : (writeElems w d n wd act val).mapping = w.mapping := rfl
@[simp] theorem writeElems_pc (w : Warp) (d : BitVec 6) (n wd : Nat) (act : Mask) (val : Nat → Nat) : (writeElems w d n wd act val).pc = w.pc := rfl
@[simp] theorem writeElems_replay (w : Warp) (d : BitVec 6) (n wd : Nat) (act : Mask) (val : Nat → Nat) : (writeElems w d n wd act val).replay = w.replay := rfl
@[simp] theorem writeElems_replayNext (w : Warp) (d : BitVec 6) (n wd : Nat) (act : Mask) (val : Nat → Nat) : (writeElems w d n wd act val).replayNext = w.replayNext := rfl
@[simp] theorem writeElems_seed (w : Warp) (d : BitVec 6) (n wd : Nat) (act : Mask) (val : Nat → Nat) : (writeElems w d n wd act val).seed = w.seed := rfl
@[simp] theorem writeElems_gens (w : Warp) (d : BitVec 6) (n wd : Nat) (act : Mask) (val : Nat → Nat) : (writeElems w d n wd act val).gens = w.gens := rfl
@[simp] theorem writeElems_wclk (w : Warp) (d : BitVec 6) (n wd : Nat) (act : Mask) (val : Nat → Nat) : (writeElems w d n wd act val).wclk = w.wclk := rfl
@[simp] theorem writeElems_smax (w : Warp) (d : BitVec 6) (n wd : Nat) (act : Mask) (val : Nat → Nat) : (writeElems w d n wd act val).smax = w.smax := rfl
@[simp] theorem writeElems_rmax (w : Warp) (d : BitVec 6) (n wd : Nat) (act : Mask) (val : Nat → Nat) : (writeElems w d n wd act val).rmax = w.rmax := rfl
@[simp] theorem writeElems_stimeLatch (w : Warp) (d : BitVec 6) (n wd : Nat) (act : Mask) (val : Nat → Nat) : (writeElems w d n wd act val).stimeLatch = w.stimeLatch := rfl
@[simp] theorem writeElems_roveOff (w : Warp) (d : BitVec 6) (n wd : Nat) (act : Mask) (val : Nat → Nat) : (writeElems w d n wd act val).roveOff = w.roveOff := rfl
@[simp] theorem writeElems_lastEnd (w : Warp) (d : BitVec 6) (n wd : Nat) (act : Mask) (val : Nat → Nat) : (writeElems w d n wd act val).lastEnd = w.lastEnd := rfl
@[simp] theorem writeElems_lastLen (w : Warp) (d : BitVec 6) (n wd : Nat) (act : Mask) (val : Nat → Nat) : (writeElems w d n wd act val).lastLen = w.lastLen := rfl
@[simp] theorem writeElems_prefs (w : Warp) (d : BitVec 6) (n wd : Nat) (act : Mask) (val : Nat → Nat) : (writeElems w d n wd act val).prefs = w.prefs := rfl
@[simp] theorem writeElems_episodes (w : Warp) (d : BitVec 6) (n wd : Nat) (act : Mask) (val : Nat → Nat) : (writeElems w d n wd act val).episodes = w.episodes := rfl
@[simp] theorem writeElems_cause (w : Warp) (d : BitVec 6) (n wd : Nat) (act : Mask) (val : Nat → Nat) : (writeElems w d n wd act val).cause = w.cause := rfl
@[simp] theorem writeElems_epc (w : Warp) (d : BitVec 6) (n wd : Nat) (act : Mask) (val : Nat → Nat) : (writeElems w d n wd act val).epc = w.epc := rfl
@[simp] theorem writeElems_tval (w : Warp) (d : BitVec 6) (n wd : Nat) (act : Mask) (val : Nat → Nat) : (writeElems w d n wd act val).tval = w.tval := rfl
@[simp] theorem writeElems_team (w : Warp) (d : BitVec 6) (n wd : Nat) (act : Mask) (val : Nat → Nat) : (writeElems w d n wd act val).team = w.team := rfl
@[simp] theorem writeElems_widx (w : Warp) (d : BitVec 6) (n wd : Nat) (act : Mask) (val : Nat → Nat) : (writeElems w d n wd act val).widx = w.widx := rfl
@[simp] theorem writeElems_tidx (w : Warp) (d : BitVec 6) (n wd : Nat) (act : Mask) (val : Nat → Nat) : (writeElems w d n wd act val).tidx = w.tidx := rfl
@[simp] theorem writeElems_crank (w : Warp) (d : BitVec 6) (n wd : Nat) (act : Mask) (val : Nat → Nat) : (writeElems w d n wd act val).crank = w.crank := rfl
@[simp] theorem writeElems_cw (w : Warp) (d : BitVec 6) (n wd : Nat) (act : Mask) (val : Nat → Nat) : (writeElems w d n wd act val).cw = w.cw := rfl
@[simp] theorem writeElems_ch (w : Warp) (d : BitVec 6) (n wd : Nat) (act : Mask) (val : Nat → Nat) : (writeElems w d n wd act val).ch = w.ch := rfl
@[simp] theorem writeElems_ctx (w : Warp) (d : BitVec 6) (n wd : Nat) (act : Mask) (val : Nat → Nat) : (writeElems w d n wd act val).ctx = w.ctx := rfl
@[simp] theorem writeElems_status (w : Warp) (d : BitVec 6) (n wd : Nat) (act : Mask) (val : Nat → Nat) : (writeElems w d n wd act val).status = w.status := rfl
@[simp] theorem writeElems_karrw (w : Warp) (d : BitVec 6) (n wd : Nat) (act : Mask) (val : Nat → Nat) : (writeElems w d n wd act val).karrw = w.karrw := rfl
@[simp] theorem writeElems_promises (w : Warp) (d : BitVec 6) (n wd : Nat) (act : Mask) (val : Nat → Nat) : (writeElems w d n wd act val).promises = w.promises := rfl
@[simp] theorem writeElems_pend (w : Warp) (d : BitVec 6) (n wd : Nat) (act : Mask) (val : Nat → Nat) : (writeElems w d n wd act val).pend = w.pend := rfl
@[simp] theorem writeElems_poison (w : Warp) (d : BitVec 6) (n wd : Nat) (act : Mask) (val : Nat → Nat) : (writeElems w d n wd act val).poison = w.poison := rfl
@[simp] theorem writeElems_queries (w : Warp) (d : BitVec 6) (n wd : Nat) (act : Mask) (val : Nat → Nat) : (writeElems w d n wd act val).queries = w.queries := rfl
@[simp] theorem writeElems_batch (w : Warp) (d : BitVec 6) (n wd : Nat) (act : Mask) (val : Nat → Nat) : (writeElems w d n wd act val).batch = w.batch := rfl
@[simp] theorem writeElems_rove (w : Warp) (d : BitVec 6) (n wd : Nat) (act : Mask) (val : Nat → Nat) : (writeElems w d n wd act val).rove = w.rove := rfl
@[simp] theorem writeElems_yielded (w : Warp) (d : BitVec 6) (n wd : Nat) (act : Mask) (val : Nat → Nat) : (writeElems w d n wd act val).yielded = w.yielded := rfl
@[simp] theorem writeElems_region (w : Warp) (d : BitVec 6) (n wd : Nat) (act : Mask) (val : Nat → Nat) : (writeElems w d n wd act val).region = w.region := rfl
@[simp] theorem writeElems_events (w : Warp) (d : BitVec 6) (n wd : Nat) (act : Mask) (val : Nat → Nat) : (writeElems w d n wd act val).events = w.events := rfl

@[simp] theorem retire_who (w : Warp) : (retire w).who = w.who := rfl
@[simp] theorem retire_x (w : Warp) : (retire w).x = w.x := rfl
@[simp] theorem retire_v (w : Warp) : (retire w).v = w.v := rfl
@[simp] theorem retire_m (w : Warp) : (retire w).m = w.m := rfl
@[simp] theorem retire_cb (w : Warp) : (retire w).cb = w.cb := rfl
@[simp] theorem retire_vl (w : Warp) : (retire w).vl = w.vl := rfl
@[simp] theorem retire_split (w : Warp) : (retire w).split = w.split := rfl
@[simp] theorem retire_mapping (w : Warp) : (retire w).mapping = w.mapping := rfl
@[simp] theorem retire_seed (w : Warp) : (retire w).seed = w.seed := rfl
@[simp] theorem retire_gens (w : Warp) : (retire w).gens = w.gens := rfl
@[simp] theorem retire_wclk (w : Warp) : (retire w).wclk = w.wclk := rfl
@[simp] theorem retire_smax (w : Warp) : (retire w).smax = w.smax := rfl
@[simp] theorem retire_rmax (w : Warp) : (retire w).rmax = w.rmax := rfl
@[simp] theorem retire_stimeLatch (w : Warp) : (retire w).stimeLatch = w.stimeLatch := rfl
@[simp] theorem retire_roveOff (w : Warp) : (retire w).roveOff = w.roveOff := rfl
@[simp] theorem retire_lastEnd (w : Warp) : (retire w).lastEnd = w.lastEnd := rfl
@[simp] theorem retire_lastLen (w : Warp) : (retire w).lastLen = w.lastLen := rfl
@[simp] theorem retire_prefs (w : Warp) : (retire w).prefs = w.prefs := rfl
@[simp] theorem retire_episodes (w : Warp) : (retire w).episodes = w.episodes := rfl
@[simp] theorem retire_cause (w : Warp) : (retire w).cause = w.cause := rfl
@[simp] theorem retire_epc (w : Warp) : (retire w).epc = w.epc := rfl
@[simp] theorem retire_tval (w : Warp) : (retire w).tval = w.tval := rfl
@[simp] theorem retire_team (w : Warp) : (retire w).team = w.team := rfl
@[simp] theorem retire_widx (w : Warp) : (retire w).widx = w.widx := rfl
@[simp] theorem retire_tidx (w : Warp) : (retire w).tidx = w.tidx := rfl
@[simp] theorem retire_crank (w : Warp) : (retire w).crank = w.crank := rfl
@[simp] theorem retire_cw (w : Warp) : (retire w).cw = w.cw := rfl
@[simp] theorem retire_ch (w : Warp) : (retire w).ch = w.ch := rfl
@[simp] theorem retire_ctx (w : Warp) : (retire w).ctx = w.ctx := rfl
@[simp] theorem retire_karrw (w : Warp) : (retire w).karrw = w.karrw := rfl
@[simp] theorem retire_promises (w : Warp) : (retire w).promises = w.promises := rfl
@[simp] theorem retire_pend (w : Warp) : (retire w).pend = w.pend := rfl
@[simp] theorem retire_poison (w : Warp) : (retire w).poison = w.poison := rfl
@[simp] theorem retire_queries (w : Warp) : (retire w).queries = w.queries := rfl
@[simp] theorem retire_batch (w : Warp) : (retire w).batch = w.batch := rfl
@[simp] theorem retire_rove (w : Warp) : (retire w).rove = w.rove := rfl
@[simp] theorem retire_region (w : Warp) : (retire w).region = w.region := rfl
@[simp] theorem retire_events (w : Warp) : (retire w).events = w.events := rfl

@[simp] theorem jump_who (w : Warp) (target : Word) : (jump w target).who = w.who := rfl
@[simp] theorem jump_x (w : Warp) (target : Word) : (jump w target).x = w.x := rfl
@[simp] theorem jump_v (w : Warp) (target : Word) : (jump w target).v = w.v := rfl
@[simp] theorem jump_m (w : Warp) (target : Word) : (jump w target).m = w.m := rfl
@[simp] theorem jump_cb (w : Warp) (target : Word) : (jump w target).cb = w.cb := rfl
@[simp] theorem jump_vl (w : Warp) (target : Word) : (jump w target).vl = w.vl := rfl
@[simp] theorem jump_split (w : Warp) (target : Word) : (jump w target).split = w.split := rfl
@[simp] theorem jump_mapping (w : Warp) (target : Word) : (jump w target).mapping = w.mapping := rfl
@[simp] theorem jump_seed (w : Warp) (target : Word) : (jump w target).seed = w.seed := rfl
@[simp] theorem jump_gens (w : Warp) (target : Word) : (jump w target).gens = w.gens := rfl
@[simp] theorem jump_wclk (w : Warp) (target : Word) : (jump w target).wclk = w.wclk := rfl
@[simp] theorem jump_smax (w : Warp) (target : Word) : (jump w target).smax = w.smax := rfl
@[simp] theorem jump_rmax (w : Warp) (target : Word) : (jump w target).rmax = w.rmax := rfl
@[simp] theorem jump_stimeLatch (w : Warp) (target : Word) : (jump w target).stimeLatch = w.stimeLatch := rfl
@[simp] theorem jump_roveOff (w : Warp) (target : Word) : (jump w target).roveOff = w.roveOff := rfl
@[simp] theorem jump_lastEnd (w : Warp) (target : Word) : (jump w target).lastEnd = w.lastEnd := rfl
@[simp] theorem jump_lastLen (w : Warp) (target : Word) : (jump w target).lastLen = w.lastLen := rfl
@[simp] theorem jump_prefs (w : Warp) (target : Word) : (jump w target).prefs = w.prefs := rfl
@[simp] theorem jump_episodes (w : Warp) (target : Word) : (jump w target).episodes = w.episodes := rfl
@[simp] theorem jump_cause (w : Warp) (target : Word) : (jump w target).cause = w.cause := rfl
@[simp] theorem jump_epc (w : Warp) (target : Word) : (jump w target).epc = w.epc := rfl
@[simp] theorem jump_tval (w : Warp) (target : Word) : (jump w target).tval = w.tval := rfl
@[simp] theorem jump_team (w : Warp) (target : Word) : (jump w target).team = w.team := rfl
@[simp] theorem jump_widx (w : Warp) (target : Word) : (jump w target).widx = w.widx := rfl
@[simp] theorem jump_tidx (w : Warp) (target : Word) : (jump w target).tidx = w.tidx := rfl
@[simp] theorem jump_crank (w : Warp) (target : Word) : (jump w target).crank = w.crank := rfl
@[simp] theorem jump_cw (w : Warp) (target : Word) : (jump w target).cw = w.cw := rfl
@[simp] theorem jump_ch (w : Warp) (target : Word) : (jump w target).ch = w.ch := rfl
@[simp] theorem jump_ctx (w : Warp) (target : Word) : (jump w target).ctx = w.ctx := rfl
@[simp] theorem jump_karrw (w : Warp) (target : Word) : (jump w target).karrw = w.karrw := rfl
@[simp] theorem jump_promises (w : Warp) (target : Word) : (jump w target).promises = w.promises := rfl
@[simp] theorem jump_pend (w : Warp) (target : Word) : (jump w target).pend = w.pend := rfl
@[simp] theorem jump_poison (w : Warp) (target : Word) : (jump w target).poison = w.poison := rfl
@[simp] theorem jump_queries (w : Warp) (target : Word) : (jump w target).queries = w.queries := rfl
@[simp] theorem jump_batch (w : Warp) (target : Word) : (jump w target).batch = w.batch := rfl
@[simp] theorem jump_rove (w : Warp) (target : Word) : (jump w target).rove = w.rove := rfl
@[simp] theorem jump_region (w : Warp) (target : Word) : (jump w target).region = w.region := rfl
@[simp] theorem jump_events (w : Warp) (target : Word) : (jump w target).events = w.events := rfl

@[simp] theorem trapReturn_who (w : Warp) : (trapReturn w).who = w.who := rfl
@[simp] theorem trapReturn_x (w : Warp) : (trapReturn w).x = w.x := rfl
@[simp] theorem trapReturn_v (w : Warp) : (trapReturn w).v = w.v := rfl
@[simp] theorem trapReturn_m (w : Warp) : (trapReturn w).m = w.m := rfl
@[simp] theorem trapReturn_cb (w : Warp) : (trapReturn w).cb = w.cb := rfl
@[simp] theorem trapReturn_vl (w : Warp) : (trapReturn w).vl = w.vl := rfl
@[simp] theorem trapReturn_split (w : Warp) : (trapReturn w).split = w.split := rfl
@[simp] theorem trapReturn_mapping (w : Warp) : (trapReturn w).mapping = w.mapping := rfl
@[simp] theorem trapReturn_replay (w : Warp) : (trapReturn w).replay = w.replay := rfl
@[simp] theorem trapReturn_seed (w : Warp) : (trapReturn w).seed = w.seed := rfl
@[simp] theorem trapReturn_gens (w : Warp) : (trapReturn w).gens = w.gens := rfl
@[simp] theorem trapReturn_wclk (w : Warp) : (trapReturn w).wclk = w.wclk := rfl
@[simp] theorem trapReturn_smax (w : Warp) : (trapReturn w).smax = w.smax := rfl
@[simp] theorem trapReturn_rmax (w : Warp) : (trapReturn w).rmax = w.rmax := rfl
@[simp] theorem trapReturn_stimeLatch (w : Warp) : (trapReturn w).stimeLatch = w.stimeLatch := rfl
@[simp] theorem trapReturn_roveOff (w : Warp) : (trapReturn w).roveOff = w.roveOff := rfl
@[simp] theorem trapReturn_lastEnd (w : Warp) : (trapReturn w).lastEnd = w.lastEnd := rfl
@[simp] theorem trapReturn_lastLen (w : Warp) : (trapReturn w).lastLen = w.lastLen := rfl
@[simp] theorem trapReturn_prefs (w : Warp) : (trapReturn w).prefs = w.prefs := rfl
@[simp] theorem trapReturn_episodes (w : Warp) : (trapReturn w).episodes = w.episodes := rfl
@[simp] theorem trapReturn_epc (w : Warp) : (trapReturn w).epc = w.epc := rfl
@[simp] theorem trapReturn_tval (w : Warp) : (trapReturn w).tval = w.tval := rfl
@[simp] theorem trapReturn_team (w : Warp) : (trapReturn w).team = w.team := rfl
@[simp] theorem trapReturn_widx (w : Warp) : (trapReturn w).widx = w.widx := rfl
@[simp] theorem trapReturn_tidx (w : Warp) : (trapReturn w).tidx = w.tidx := rfl
@[simp] theorem trapReturn_crank (w : Warp) : (trapReturn w).crank = w.crank := rfl
@[simp] theorem trapReturn_cw (w : Warp) : (trapReturn w).cw = w.cw := rfl
@[simp] theorem trapReturn_ch (w : Warp) : (trapReturn w).ch = w.ch := rfl
@[simp] theorem trapReturn_ctx (w : Warp) : (trapReturn w).ctx = w.ctx := rfl
@[simp] theorem trapReturn_promises (w : Warp) : (trapReturn w).promises = w.promises := rfl
@[simp] theorem trapReturn_pend (w : Warp) : (trapReturn w).pend = w.pend := rfl
@[simp] theorem trapReturn_poison (w : Warp) : (trapReturn w).poison = w.poison := rfl
@[simp] theorem trapReturn_queries (w : Warp) : (trapReturn w).queries = w.queries := rfl
@[simp] theorem trapReturn_batch (w : Warp) : (trapReturn w).batch = w.batch := rfl
@[simp] theorem trapReturn_rove (w : Warp) : (trapReturn w).rove = w.rove := rfl
@[simp] theorem trapReturn_region (w : Warp) : (trapReturn w).region = w.region := rfl
@[simp] theorem trapReturn_events (w : Warp) : (trapReturn w).events = w.events := rfl

theorem retire_pc (w : Warp) : (retire w).pc = w.pc + 8 := rfl
theorem jump_pc (w : Warp) (target : Word) : (jump w target).pc = target := rfl

end Sys2Proof.Machine
end

