-- ==== Sys2Proof/Laws/Control.lean ====
section
/-! SUPPORT. Branches, divergence, violations and traps (03 R61, 05 R99 to R112, 15 R365). -/

set_option Elab.async false

namespace Sys2Proof.Machine

open Sys2Proof Sys2Proof.Claims

/-- The displacement of a branch (R61). -/
theorem off_eq (f : FmtB) : branchOffset f = branchDisplacement f := by
  simp only [branchOffset, branchDisplacement]
  apply BitVec.eq_of_toInt_eq
  have e : (f.off ++ (0 : BitVec 3)).toInt = 8 * f.off.toInt := by
    have := f.off.isLt
    rw [BitVec.toInt_eq_toNat_cond, BitVec.toInt_eq_toNat_cond, BitVec.toNat_append]
    simp [Nat.shiftLeft_eq]
    split <;> split <;> omega
  rw [BitVec.toInt_signExtend_of_le (by decide), e, BitVec.toInt_mul, BitVec.toInt_signExtend_of_le (by decide)]
  have h1 := BitVec.toInt_lt (x := f.off)
  have h2 := BitVec.le_toInt (x := f.off)
  rw [show (8 : BitVec 64).toInt = 8 from rfl, Int.bmod_eq_of_le] <;> omega

/-- A mask with some bit set. -/
theorem mask_ne_zero (m : Mask) : (m != 0) = true ↔ ∃ pl < 128, m.getLsbD pl = true := by
  rw [bne_iff_ne]
  constructor
  · intro h
    by_contra hc
    push Not at hc
    apply h
    apply BitVec.eq_of_getLsbD_eq
    intro i hi
    have := hc i hi
    simpa using this
  · rintro ⟨pl, h, hb⟩ e
    rw [e] at hb
    simp at hb

/-- The lanes of an outcome of SPLIT (R102). -/
theorem armList_eq (w : Warp) (f : FmtA) (k : Nat) (hk : k < 100) : splitList w f k = outcomeLanes w f k := by
  unfold splitList outcomeLanes
  rw [← List.filterMap_eq_filter, List.filterMap_filterMap]
  apply List.filterMap_congr
  intro p _
  cases physOf w p with
  | none => rfl
  | some pl =>
    have : ((laneOf (readV w f.a) pl).toNat == k) = (laneOf (readV w f.a) pl == BitVec.ofNat 32 k) := by
      rw [Bool.eq_iff_iff]
      simp only [beq_iff_eq]
      constructor
      · rintro h; apply BitVec.eq_of_toNat_eq; simp; omega
      · rintro h; rw [h]; simp; omega
    simp only [Option.bind_some, Option.guard, this]

/-- The cause word of a violation (R23). -/
theorem causeWord_viol (sub : Nat) (code : Nat) (h : sub < 256) : causeWord true code sub = 0x8000000000000000 + BitVec.ofNat 64 (sub * 256 + code) := by
  unfold causeWord
  rw [Nat.mod_eq_of_lt h]
  apply BitVec.eq_of_toNat_eq
  simp
  omega

/-- A die that was changed. -/
theorem onDie_die (s : State) (d : Fin 2) (f : Die → Die) : (s.onDie d f).die d = f (s.die d) := by
  simp [State.onDie, State.die]

/-- The other die. -/
theorem onDie_die_ne (s : State) (d e : Fin 2) (f : Die → Die) (h : d ≠ e) : (s.onDie d f).die e = s.die e := by
  have : d.val ≠ e.val := fun h' => h (Fin.ext h')
  simp [State.onDie, State.die, this]

/-- A freeze notice joins its die records. -/
theorem freezeNotice_spoolQ (s : State) (w : Warp) (k : Nat) (c t : Word) :
   ((freezeNotice s w k c t).die (agentDie w.who)).spoolQ = (s.die (agentDie w.who)).spoolQ ++ [{ warpRec w 0x10 with fkind := k, cause := c, tval := t }] := by
  unfold freezeNotice enqueueRec
  rw [onDie_die]
  rfl

/-- A register written by number. -/
theorem set_eq (v : Vector VReg 64) (d : BitVec 6) (x : VReg) : v.setIfInBounds d.toNat x = v.set d.toNat x d.isLt := by
  apply Vector.ext
  intro i hi
  simp [Vector.getElem_setIfInBounds, Vector.getElem_set]

/-- A byte of a register built from bytes. -/
theorem extractByte (f : Nat → Nat) (n k : Nat) (hk : k < n) (w : Nat) (hw : 8 * n ≤ w):
   (BitVec.ofNat w (packNat 8 f n)).extractLsb' (8 * k) 8 = BitVec.ofNat 8 (f k) := by
  apply BitVec.eq_of_toNat_eq
  have h1 := packNat_lt 8 f n
  have h2 : packNat 8 f n < 2 ^ w := lt_of_lt_of_le h1 (Nat.pow_le_pow_right (by norm_num) hw)
  rw [BitVec.extractLsb'_toNat, BitVec.toNat_ofNat, BitVec.toNat_ofNat, Nat.mod_eq_of_lt h2]
  exact packNat_field 8 f n k hk

/-- A change of a core leaves the records waiting for the spool. -/
theorem onCore_spoolQ (s t : State) (d : Fin 2) (c : Fin 24) (f : Core → Core) (e : Fin 2) (h : t.dies = (s.onCore d c f).dies) :
    (t.die e).spoolQ = (s.die e).spoolQ := by
  have : t.die e = (s.onCore d c f).die e := by unfold State.die; rw [h]
  rw [this, State.onCore]
  by_cases he : d = e
  · subst he; rw [onDie_die]
  · rw [onDie_die_ne _ _ _ _ he]

/-- The drain of the transform pipe leaves everything but its owner and the pipes (R109). -/
theorem drainXfm_frame (s : State) : (drainXfm s).mem = s.mem ∧ (drainXfm s).others = s.others ∧ (drainXfm s).teams = s.teams ∧ (drainXfm s).cmds = s.cmds ∧
   (drainXfm s).knotQ = s.knotQ ∧ (∀ d, ((drainXfm s).die d).spoolQ = (s.die d).spoolQ) := by
  unfold drainXfm
  split
  · simp
  · refine ⟨rfl, rfl, rfl, rfl, rfl, ?_⟩
    intro d
    rename_i d' c p _ _
    exact onCore_spoolQ s _ d' c (fun x => setPipe x p.val ((pipeOf x p.val).filter fun e => !(e.owner == warpId s.cur))) d rfl

/-- Results that land change vector registers alone. -/
theorem landV_frame (w : Warp) (l) : ∃ v, landV w l = { w with v } := by
  unfold landV
  induction l generalizing w with
  | nil => exact ⟨w.v, rfl⟩
  | cons q l ih =>
    obtain ⟨v, h⟩ := ih (setV w q.1.toNat ((readV w q.1 &&& ~~~q.2.1) ||| q.2.2))
    exact ⟨v, by rw [List.foldl_cons, h]; rfl⟩

/-- The drain of the transform pipe changes the vector registers of the issuing agent alone (R109). -/
theorem drainXfm_cur (s : State) : ∃ v, (drainXfm s).cur = { s.cur with v } := by
  unfold drainXfm
  split
  · exact ⟨s.cur.v, rfl⟩
  · dsimp only
    generalize List.filter _ _ = l
    generalize s.cur = w
    induction l generalizing w with
    | nil => exact ⟨w.v, rfl⟩
    | cons e l ih =>
      obtain ⟨v, h⟩ := landV_frame w e.writes
      obtain ⟨v', h'⟩ := ih (xfmComplete w e)
      refine ⟨v', ?_⟩
      rw [List.foldl_cons, h', xfmComplete, h]

/-- What a violation of a warp leaves (R23, R365). -/
theorem violate_spec (s : State) (code sub : Nat) (tval : Word) (h : sub < 256) (ht : isThread s.cur.who = false) : FreezesWith s (violate s code sub tval) code sub tval := by
  unfold violate
  rw [if_neg (by simp [ht]), causeWord_viol _ _ h]
  obtain ⟨v, hc⟩ := drainXfm_cur s
  obtain ⟨hm, ho, ht', -, -, hs⟩ := drainXfm_frame s
  refine ⟨?_, ho, hm, ht', ⟨0, .none, 0x10, 0, 0, s.cur.ctx, 0, agentIdBits s.cur.who, 0, s.cur.pc, 0, 0, _, tval⟩, rfl, rfl, rfl, rfl, rfl, rfl, ?_⟩
  · simp only [freezeNotice, enqueueRec, onDie_cur, hc]
  · rw [← hs (agentDie s.cur.who)]
    have := freezeNotice_spoolQ { drainXfm s with cur := { (drainXfm s).cur with epc := (drainXfm s).cur.pc, cause := 0x8000000000000000 + BitVec.ofNat 64 (sub * 256 + code), tval := tval, status := .frozen .violation } }
      { (drainXfm s).cur with epc := (drainXfm s).cur.pc, cause := 0x8000000000000000 + BitVec.ofNat 64 (sub * 256 + code), tval := tval, status := .frozen .violation } 0
      (0x8000000000000000 + BitVec.ofNat 64 (sub * 256 + code)) tval
    simp only [hc] at this ⊢
    exact this

/-- The vector a trap goes to (R109). -/
theorem vector_eq (s : State) : trapVector s s.cur = vectorOf s := by
  unfold trapVector vectorOf State.findTeam
  cases List.find? (fun t => t.id == s.cur.team) s.teams <;> rfl

/-- What a warp trap leaves (R109). -/
theorem raiseTrap_spec (s : State) (code : Nat) (cw tval : Word) (hc : causeWord false code 0 = cw) (h : isThread s.cur.who = false) :
    let u := drainXfm s
    (u.cur.cause.setWidth 8 = 0#8 → vectorOf u ≠ 0 → Host.Outcome.next (raiseTrap s code 0 tval) = becomes u (trapped u.cur cw tval (vectorOf u))) ∧
    (u.cur.cause.setWidth 8 = 0#8 → vectorOf u = 0 → (raiseTrap s code 0 tval).mem = s.mem ∧ (raiseTrap s code 0 tval).others = s.others ∧
      (raiseTrap s code 0 tval).cur = { u.cur with epc := u.cur.pc, cause := cw, tval := tval, status := .frozen .trapNoVector } ∧
      LastNotice (raiseTrap s code 0 tval) 1 cw tval) ∧
    (u.cur.cause.setWidth 8 ≠ 0#8 → (raiseTrap s code 0 tval).mem = s.mem ∧ (raiseTrap s code 0 tval).others = s.others ∧
      (raiseTrap s code 0 tval).cur = { u.cur with status := .frozen .doubleTrap } ∧ LastNotice (raiseTrap s code 0 tval) 2 cw tval) := by
  intro u
  obtain ⟨v, hv⟩ := drainXfm_cur s
  obtain ⟨hm, ho, -, -, -, hs⟩ := drainXfm_frame s
  have hw : isThread u.cur.who = false := by show isThread (drainXfm s).cur.who = false; rw [hv]; exact h
  have ex : u.cur.cause.extractLsb' 0 8 = u.cur.cause.setWidth 8 := by
    apply BitVec.eq_of_toNat_eq; simp
  have hr : raiseTrap s code 0 tval = takeTrap u code 0 tval := rfl
  rw [hr]
  unfold takeTrap trapInto
  rw [if_neg (by simp [hw]), ex, vector_eq, hc]
  refine ⟨fun h1 h2 => ?_, fun h1 h2 => ?_, fun h1 => ?_⟩
  · rw [if_neg (by simpa using h1), if_neg h2]
    rfl
  · rw [if_neg (by simpa using h1), if_pos h2]
    refine ⟨hm, ho, rfl, { warpRec { u.cur with epc := u.cur.pc, cause := cw, tval := tval, status := Status.frozen FreezeKind.trapNoVector } 0x10 with fkind := 1, cause := cw, tval := tval }, ?_, rfl, rfl, rfl, rfl, rfl, rfl⟩
    dsimp only
    have := freezeNotice_spoolQ { u with cur := { u.cur with epc := u.cur.pc, cause := cw, tval := tval, status := Status.frozen FreezeKind.trapNoVector } } { u.cur with epc := u.cur.pc, cause := cw, tval := tval, status := Status.frozen FreezeKind.trapNoVector } 1 cw tval
    exact (congrArg List.getLast? this).trans List.getLast?_concat
  · rw [if_pos (by simpa using h1)]
    refine ⟨hm, ho, rfl, { warpRec { u.cur with status := Status.frozen FreezeKind.doubleTrap } 0x10 with fkind := 2, cause := cw, tval := tval }, ?_, rfl, rfl, rfl, rfl, rfl, rfl⟩
    dsimp only
    have := freezeNotice_spoolQ { u with cur := { u.cur with status := Status.frozen FreezeKind.doubleTrap } } { u.cur with status := Status.frozen FreezeKind.doubleTrap } 2 cw tval
    exact (congrArg List.getLast? this).trans List.getLast?_concat

end Sys2Proof.Machine
end

