-- ==== Sys2Proof/Laws/Caches.lean ====
section
/-! SUPPORT. What the transactions of the caches and page walks leave as it was: one lemma for each operation of Machine/Caches.lean and
Machine/Walk.lean. -/

set_option Elab.async false

namespace Sys2Proof.Machine

/-- From `s` to `t` what the dies hold beside memory, and the directory, alone changed. -/
def Beside (s t : State) : Prop := ∃ dies dir, t = { s with
  dies := dies
  dir := dir }

theorem Beside.refl (s : State) : Beside s s := ⟨_, _, rfl⟩

theorem Beside.trans {s t u : State} (h1 : Beside s t) (h2 : Beside t u) : Beside s u := by
  obtain ⟨a, b, rfl⟩ := h1
  obtain ⟨c, d, rfl⟩ := h2
  exact ⟨c, d, rfl⟩

theorem Beside.mem {s t : State} (h : Beside s t) : t.mem = s.mem := by obtain ⟨a, b, rfl⟩ := h; rfl
theorem Beside.cur {s t : State} (h : Beside s t) : t.cur = s.cur := by obtain ⟨a, b, rfl⟩ := h; rfl

/-- From `x` to `y` a die's caches, last-level TLB, counts and buckets alone changed. -/
def SameBut (x y : Die) : Prop := ∃ l2 maxRts maxWts invals sys victims tlb work buckets counters lostBacks, y = { x with
  l2 := l2
  maxRts := maxRts
  maxWts := maxWts
  invals := invals
  sys := sys
  victims := victims
  tlb := tlb
  work := work
  buckets := buckets
  counters := counters
  lostBacks := lostBacks }

theorem SameBut.refl (x : Die) : SameBut x x := ⟨_, _, _, _, _, _, _, _, _, _, _, rfl⟩

theorem SameBut.trans {x y z : Die} (h1 : SameBut x y) (h2 : SameBut y z) : SameBut x z := by
  obtain ⟨_, _, _, _, _, _, _, _, _, _, _, rfl⟩ := h1
  obtain ⟨_, _, _, _, _, _, _, _, _, _, _, rfl⟩ := h2
  exact ⟨_, _, _, _, _, _, _, _, _, _, _, rfl⟩

/-- From `s` to `t` the caches of the dies and the directory alone changed, the L1 of every core being as it was. -/
def Quiet (s t : State) : Prop := Beside s t ∧ ∀ d, SameBut (s.die d) (t.die d)

theorem Quiet.refl (s : State) : Quiet s s := ⟨.refl s, fun _ => .refl _⟩
theorem Quiet.trans {s t u : State} (h1 : Quiet s t) (h2 : Quiet t u) : Quiet s u := ⟨h1.1.trans h2.1, fun d => (h1.2 d).trans (h2.2 d)⟩
theorem Quiet.beside {s t : State} (h : Quiet s t) : Beside s t := h.1

theorem Quiet.clock {s t : State} (h : Quiet s t) (d : Fin 2) : (t.die d).clock = (s.die d).clock := by
  obtain ⟨_, _, _, _, _, _, _, _, _, _, _, e⟩ := h.2 d; rw [e]
theorem Quiet.coreAt {s t : State} (h : Quiet s t) (d : Fin 2) (c : Fin 24) : t.coreAt d c = s.coreAt d c := by
  obtain ⟨_, _, _, _, _, _, _, _, _, _, _, e⟩ := h.2 d; unfold State.coreAt; rw [e]
theorem Quiet.queue {s t : State} (h : Quiet s t) (q : QueueRef) : t.queue q = s.queue q := by
  obtain ⟨_, _, _, _, _, _, _, _, _, _, _, e⟩ := h.2 q.d; unfold State.queue; rw [e]
theorem Quiet.frags {s t : State} (h : Quiet s t) (d : Fin 2) : (t.die d).frags = (s.die d).frags := by
  obtain ⟨_, _, _, _, _, _, _, _, _, _, _, e⟩ := h.2 d; rw [e]
theorem Quiet.nodes {s t : State} (h : Quiet s t) (d : Fin 2) : (t.die d).nodes = (s.die d).nodes := by
  obtain ⟨_, _, _, _, _, _, _, _, _, _, _, e⟩ := h.2 d; rw [e]
theorem Quiet.contexts {s t : State} (h : Quiet s t) (d : Fin 2) : (t.die d).contexts = (s.die d).contexts := by
  obtain ⟨_, _, _, _, _, _, _, _, _, _, _, e⟩ := h.2 d; rw [e]
theorem Quiet.xts {s t : State} (h : Quiet s t) (d : Fin 2) : (t.die d).xts = (s.die d).xts := by
  obtain ⟨_, _, _, _, _, _, _, _, _, _, _, e⟩ := h.2 d; rw [e]
theorem Quiet.tc {s t : State} (h : Quiet s t) (d : Fin 2) : (t.die d).tc = (s.die d).tc := by
  obtain ⟨_, _, _, _, _, _, _, _, _, _, _, e⟩ := h.2 d; rw [e]
theorem Quiet.spoolQ {s t : State} (h : Quiet s t) (d : Fin 2) : (t.die d).spoolQ = (s.die d).spoolQ := by
  obtain ⟨_, _, _, _, _, _, _, _, _, _, _, e⟩ := h.2 d; rw [e]

theorem quiet_dir (s : State) (l : Tbl DirLine) : Quiet s { s with dir := l } := ⟨⟨s.dies, l, rfl⟩, fun _ => .refl _⟩

theorem quiet_onDie (s : State) (d : Fin 2) (g : Die → Die) (hg : ∀ x, SameBut x (g x)) : Quiet s (s.onDie d g) := by
  refine ⟨⟨_, s.dir, rfl⟩, fun e => ?_⟩
  by_cases h : d = e
  · subst h; rw [onDie_die]; exact hg _
  · rw [onDie_die_ne _ _ _ _ h]; exact .refl _

theorem quiet_foldl {α : Type} (f : State → α → State) (h : ∀ s a, Quiet s (f s a)) (l : List α) : ∀ s, Quiet s (l.foldl f s) := by
  induction l with
  | nil => exact .refl
  | cons a l ih => exact fun s => (h s a).trans (ih _)

/-! ### Dies -/

theorem same_countUp (x : Die) (i : Fin 16) (n : Nat) : SameBut x (countUp x i n) := ⟨_, _, _, _, _, _, _, _, _, _, _, rfl⟩
theorem same_workUp (x : Die) (i : Fin 15) (n : Nat) : SameBut x (workUp x i n) := ⟨_, _, _, _, _, _, _, _, _, _, _, rfl⟩
theorem same_dramUp (x : Die) (i : Fin 16) (n : Nat) : SameBut x (dramUp x i n) := (same_countUp x i n).trans (same_workUp _ _ _)

theorem same_sysFill (x : Die) (h : Fin 2) (ways : List Nat) (line : Nat) (dirty : Bool) : SameBut x (sysFill x h ways line dirty) := by
  have k : ∀ b : Bool, SameBut x (if b then dramUp x 6 128 else x) := by
    intro b
    split
    · exact same_dramUp x 6 128
    · exact .refl x
  unfold sysFill
  dsimp only
  split
  · exact ⟨_, _, _, _, _, _, _, _, _, _, _, rfl⟩
  · split
    · exact k dirty
    · exact (k _).trans ⟨_, _, _, _, _, _, _, _, _, _, _, rfl⟩

theorem same_payTokens (x : Die) (p : Fin 8) (rate burst now : Nat) : SameBut x (payTokens x p rate burst now) :=
  ⟨_, _, _, _, _, _, _, _, _, _, _, rfl⟩

theorem same_tlbFill (x : Die) (e : TlbEntry) : SameBut x (tlbFill x e) := ⟨_, _, _, _, _, _, _, _, _, _, _, rfl⟩

/-! ### Requests -/

theorem quiet_meshFlits (s : State) (d : Fin 2) (n : Nat) : Quiet s (meshFlits s d n) := quiet_onDie s d _ fun x => same_workUp x 11 n

theorem quiet_regulate (s : State) (a : Fin 3) (part : Option (Fin 8)) : Quiet s (regulate s a part) := by
  unfold regulate
  split
  · split
    · dsimp only
      split
      · exact .refl s
      · exact quiet_onDie s _ _ fun x => same_payTokens x _ _ _ _
    · exact .refl s
  · exact .refl s

theorem quiet_sendHome (s : State) (a : Fin 3) (part : Option (Fin 8)) (line : Nat) : Quiet s (sendHome s a part line) := by
  unfold sendHome
  split
  · have h := quiet_regulate s a part
    split
    · exact h
    · exact h.trans (quiet_onDie (regulate s a part) _ (fun x => workUp x 14 1) fun x => same_workUp x 14 1)
  · exact .refl s

theorem quiet_sysAccess (s : State) (a : Fin 3) (part : Option (Fin 8)) (line : Nat) (w : Bool) :
    Quiet s (sysAccess s a part line w).1 := by
  unfold sysAccess
  dsimp only
  split
  · dsimp only
    refine quiet_onDie s _ _ fun x => ?_
    exact ⟨_, _, _, _, _, _, _, _, _, _, _, rfl⟩
  · dsimp only
    refine quiet_onDie s _ _ fun x => ?_
    have h : SameBut x (if w then x else dramUp x 5 128) := by
      split
      · exact .refl x
      · exact same_dramUp x 5 128
    exact (h.trans (same_sysFill ..)).trans (same_workUp ..)

theorem quiet_evictL2 (s : State) (a : Fin 3) (line : Nat) : Quiet s (evictL2 s a line) := by
  unfold evictL2
  split
  · exact .refl s
  · exact quiet_onDie s _ _ fun x => ⟨_, _, _, _, _, _, _, _, _, _, _, rfl⟩

theorem quiet_noteLost (s : State) (a : Fin 3) (line : Nat) (l : DirLine) : Quiet s (noteLost s a line l) := by
  unfold noteLost
  split
  · exact .refl s
  · split
    · exact quiet_onDie s _ _ fun x => ⟨_, _, _, _, _, _, _, _, _, _, _, rfl⟩
    · exact .refl s

theorem quiet_letGo (s : State) (a : Fin 3) (part : Option (Fin 8)) (line : Nat) : Quiet s (letGo s a part line) := by
  unfold letGo
  split
  · exact .refl s
  · split
    · dsimp only
      exact ((((quiet_noteLost s a line _).trans (quiet_dir _ _)).trans (quiet_evictL2 _ a line)).trans (quiet_sendHome _ a part line)).trans
        (quiet_sysAccess ..)
    · split
      · exact .refl s
      · exact (quiet_dir s _).trans (quiet_evictL2 _ a line)
      · exact (quiet_dir s _).trans (quiet_evictL2 _ a line)

theorem quiet_l2Room (s : State) (a : Fin 3) (part : Option (Fin 8)) (line : Nat) : Quiet s (l2Room s a part line) := by
  unfold l2Room
  split
  · exact .refl s
  · split
    · exact .refl s
    · split
      · exact .refl s
      · exact (quiet_letGo s a part _).trans (quiet_onDie _ _ _ fun x => ⟨_, _, _, _, _, _, _, _, _, _, _, rfl⟩)

theorem quiet_fillL2 (s : State) (a : Fin 3) (line : Nat) : Quiet s (fillL2 s a line) := by
  unfold fillL2
  split
  · exact .refl s
  · exact quiet_onDie s _ _ fun x => ⟨_, _, _, _, _, _, _, _, _, _, _, rfl⟩

theorem quiet_l2Take (s : State) (a : Fin 3) (part : Option (Fin 8)) (line : Nat) : Quiet s (l2Take s a part line) :=
  (quiet_l2Room s a part line).trans (quiet_fillL2 _ a line)

theorem quiet_noteInval (s : State) (line : Nat) (keep : Option (Fin 3)) : Quiet s (noteInval s line keep) := by
  have h := fun (c : Bool) (s : State) (d : Fin 2) =>
    (show Quiet s (if c = true then s.onDie d (fun x => { x with invals := tblSet x.invals line (tblGetD x.invals line 0 + 1) }) else s) from by
      split
      · exact quiet_onDie s d _ fun x => ⟨_, _, _, _, _, _, _, _, _, _, _, rfl⟩
      · exact .refl s)
  unfold noteInval
  exact (h _ s 0).trans (h _ _ 1)

theorem quiet_touchL2 (s : State) (a : Fin 3) : Quiet s (touchL2 s a) := by
  unfold touchL2
  split
  · exact quiet_onDie s _ _ fun x => same_workUp x 8 1
  · exact .refl s

theorem quiet_agentFetch (s : State) (a : Fin 3) (part : Option (Fin 8)) (line : Nat) : Quiet s (agentFetch s a part line).1 := by
  unfold agentFetch
  have h := quiet_touchL2 s a
  have room := fun l => h.trans (((quiet_dir (touchL2 s a) l).trans (quiet_l2Take _ a part line)).trans (quiet_sendHome _ a part line))
  dsimp only
  split
  · split
    · exact h
    · split
      · exact room _
      · exact (room _).trans (quiet_sysAccess ..)
  · exact (room _).trans (quiet_sysAccess ..)

theorem quiet_agentRead (s : State) (a : Fin 3) (part : Option (Fin 8)) (line : Nat) : Quiet s (agentRead s a part line) :=
  quiet_agentFetch s a part line

theorem quiet_ownFetch (s : State) (a : Fin 3) (part : Option (Fin 8)) (line : Nat) : Quiet s (ownFetch s a part line) := by
  unfold ownFetch
  split
  · have h := (quiet_noteInval s line (some a)).trans (quiet_sendHome _ a part line)
    dsimp only
    split
    · exact h
    · split
      · exact h.trans (quiet_l2Take ..)
      · exact (h.trans (quiet_l2Take ..)).trans (quiet_sysAccess ..)
  · exact ((quiet_sendHome s a part line).trans (quiet_l2Take _ a part line)).trans (quiet_sysAccess ..)

theorem quiet_agentOwn (s : State) (a : Fin 3) (part : Option (Fin 8)) (line : Nat) : Quiet s (agentOwn s a part line) := by
  unfold agentOwn
  have h : ∀ c : Bool, Quiet s (if c = true then touchL2 s a else ownFetch (touchL2 s a) a part line) := by
    intro c
    split
    · exact quiet_touchL2 s a
    · exact (quiet_touchL2 s a).trans (quiet_ownFetch _ a part line)
  exact (h _).trans (quiet_dir _ _)

theorem quiet_agentUnique (s : State) (a : Fin 3) (line : Nat) : Quiet s (agentUnique s a line) := by
  have h : ∀ c : Bool, Quiet s (if c = true then s else { ownFetch s a none line with
      dir := tblSet (ownFetch s a none line).dir line (dirReadUnique (tblGet s.dir line) a) }) := by
    intro c
    split
    · exact .refl s
    · exact (quiet_ownFetch s a none line).trans (quiet_dir _ _)
  exact h _

theorem quiet_homeRead (s : State) (line : Nat) : Quiet s (homeRead s line) := by
  have h : ∀ c : Bool, Quiet s (if c = true then s else (sysAccess s 2 none line false).1) := by
    intro c
    split
    · exact .refl s
    · exact quiet_sysAccess s 2 none line false
  exact h _

theorem quiet_homeDrop (s : State) (line : Nat) : Quiet s (homeDrop s line) := by
  unfold homeDrop
  have h := (quiet_noteInval s line none).trans (quiet_dir _ (tblErase (noteInval s line none).dir line))
  dsimp only
  split
  · split
    · exact (h.trans (quiet_noteLost _ _ line _)).trans (quiet_sysAccess ..)
    · exact h
  · exact h

theorem quiet_homeOwn (s : State) (line : Nat) : Quiet s (homeOwn s line) :=
  ((quiet_homeDrop s line).trans (quiet_sysAccess ..)).trans (quiet_sysAccess ..)

/-! ### Translation -/

theorem quiet_walkTraffic (s : State) (d : Fin 2) (part : Option (Fin 8)) (l : List Nat) : Quiet s (walkTraffic s d part l) :=
  quiet_foldl _ (fun s a => quiet_agentRead s (dieAgent d) part (a / 128)) l s

theorem quiet_translateFrom (part : Option (Fin 8)) (s : State) (d : Fin 2) (ctx ppn : Nat) (va : Word) (acc : Access) :
    Quiet s (translateFrom part s d ctx ppn va acc).1 := by
  unfold translateFrom
  dsimp only
  split
  · exact .refl s
  · split
    · exact .refl s
    · have h := quiet_walkTraffic s d part (walkReads s.mem (va.toNat % 2 ^ 57) 4 (ppn * 4096))
      split
      · exact h
      · split
        · exact h
        · exact h.trans (quiet_onDie _ d _ fun x => same_tlbFill x _)

theorem quiet_translate (s : State) (d : Fin 2) (ctx ppn : Nat) (va : Word) (acc : Access) : Quiet s (Machine.translate s d ctx ppn va acc).1 :=
  quiet_translateFrom none s d ctx ppn va acc

end Sys2Proof.Machine
end

