-- ==== Sys2Proof/Laws/VectorOps.lean ====
section
/-! SUPPORT. Lemmas of the vector operations: arithmetic, masks, floating point and special functions. -/

set_option Elab.async false

namespace Sys2Proof.Machine

open Sys2Proof Sys2Proof.Claims

theorem laneOfElem_eq (n e : Nat) : laneOfElem n e = e * 128 / n := rfl

theorem extendElt (w : Warp) (r : BitVec 6) (t : BitVec 4) (e : Nat) :
   extendTo64 (tyWidth t) (tySigned t.toNat) (srcElem w r (elemCount t) (tyWidth t) e) =
    if t.toNat < 8 ∧ signedType t then (elt w r t e).signExtend 64 else (elt w r t e).setWidth 64 := by
  rw [← elt_toNat, extendTo64]
  by_cases h : t.toNat < 8
  · rw [tySigned_signedType t h]
    by_cases hs : signedType t = true
    · rw [if_pos hs, if_pos ⟨h, hs⟩, BitVec.ofNat_toNat, BitVec.setWidth_eq]
    · rw [if_neg hs, if_neg (fun x => hs x.2)]
      apply BitVec.eq_of_toNat_eq; simp
  · have : tySigned t.toNat = false := by simp [tySigned, h]
    rw [this, if_neg (by simp), if_neg (fun x => h x.1)]
    apply BitVec.eq_of_toNat_eq; simp

theorem mw (s : State) (f : FmtA) (hd : f.d.toNat < 16) (val : Mask) (b : Nat → Bool) (hv : ∀ pl < 128, val.getLsbD pl = b pl) :
   ∃ t, maskWrite s f val = .next t ∧ MaskWrite s t f.d (fun pl => (activeMask s.cur f.pm f.pi).getLsbD pl) b := by
  refine maskResult_spec s f.d _ _ hd _ fun pl hp => ?_
  simp only [BitVec.getLsbD_or, BitVec.getLsbD_and, BitVec.getLsbD_not, hp, hv pl hp]
  cases (activeMask s.cur f.pm f.pi).getLsbD pl <;> simp

theorem bitAt_eq (w : Warp) (m : Mask) (p : Nat) : maskBitAt w m p = ((physOf w p).map fun pl => m.getLsbD pl).getD false := by
  rw [maskBitAt]; cases physOf w p <;> rfl

theorem filter_lt (P Q : Nat → Bool) (n : Nat) (h : ∀ p < n, P p = Q p) : (List.range n).filter P = (List.range n).filter Q :=
  List.filter_congr fun p hp => h p (List.mem_range.mp hp)

theorem vfmt_width : ∀ t : BitVec 4, t = 8 ∨ t = 9 ∨ t = 10 → tyWidth t = (vFmt t).width ∧ tyWidth t ≠ 64 := by decide

/-- A finite value decoded (R43). -/
theorem decode_fin (f : FpFmt) (x : Nat) (neg : Bool) (m : Nat) (e : Int) (h : decodeFp f x = .fin neg m e) :
    (m < 2 ^ f.mb ∧ e = f.qmin) ∨ (2 ^ f.mb ≤ m ∧ m < 2 ^ (f.mb + 1) ∧ f.qmin ≤ e) := by
  have hm : x % 2 ^ f.mb < 2 ^ f.mb := Nat.mod_lt _ (by positivity)
  unfold decodeFp at h
  dsimp only at h
  split_ifs at h with h1 h2 h0
  · cases h
    left
    exact ⟨hm, rfl⟩
  · cases h
    right
    refine ⟨by omega, by rw [pow_succ]; omega, ?_⟩
    have : (1:Int) ≤ bits x (f.eb + f.mb - 1) f.mb := by omega
    omega

theorem abs_numberOf (neg : Bool) (m : Nat) (e : Int) : |numberOf (.fin neg m e)| = (m : Rat) * 2 ^ e := by
  have h2 : (0:Rat) < 2 ^ e := by positivity
  cases neg <;> simp [numberOf, abs_mul, abs_of_pos h2]

theorem small_eq (f : FpFmt) : (2:Rat) ^ (1 - (f.bias : Int)) = (2:Rat) ^ f.mb * 2 ^ f.qmin := by
  rw [← zpow_natCast, ← zpow_add₀ (by norm_num), FpFmt.qmin]; congr 1; omega

theorem below_small (f : FpFmt) (x : Nat) (neg : Bool) (m : Nat) (e : Int) (h : decodeFp f x = .fin neg m e) :
    m < 2 ^ f.mb ↔ |numberOf (.fin neg m e)| < (2:Rat) ^ (1 - (f.bias : Int)) := by
  rw [abs_numberOf, small_eq]
  have h2 : (0:Rat) < 2 ^ f.qmin := by positivity
  rcases decode_fin f x neg m e h with ⟨h1, rfl⟩ | ⟨h1, -, h3⟩
  · simp only [h1, true_iff]
    exact mul_lt_mul_of_pos_right (by exact_mod_cast h1) h2
  · constructor
    · intro; omega
    · intro h4
      exfalso
      have h5 : (2:Rat) ^ f.qmin ≤ 2 ^ e := zpow_le_zpow_right₀ (by norm_num) h3
      have h6 : (2:Rat) ^ f.mb ≤ m := by exact_mod_cast h1
      have : (2:Rat) ^ f.mb * 2 ^ f.qmin ≤ m * 2 ^ e := mul_le_mul h6 h5 (by positivity) (by positivity)
      linarith

theorem class_spec (f : FpFmt) (x : Nat) :
      (decodeFp f x = .nan → fpClass f x = if x.testBit (f.mb - 1) then 2 ^ 9 else 2 ^ 8) ∧ (decodeFp f x = .inf true → fpClass f x = 2 ^ 0) ∧
      (decodeFp f x = .inf false → fpClass f x = 2 ^ 7) ∧ ∀ neg m k, decodeFp f x = .fin neg m k →
        (m = 0 → fpClass f x = if neg then 2 ^ 3 else 2 ^ 4) ∧
        (m ≠ 0 → |numberOf (decodeFp f x)| < (2:Rat) ^ (1 - (f.bias : Int)) → fpClass f x = if neg then 2 ^ 2 else 2 ^ 5) ∧
        ((2:Rat) ^ (1 - (f.bias : Int)) ≤ |numberOf (decodeFp f x)| → fpClass f x = if neg then 2 ^ 1 else 2 ^ 6) := by
  refine ⟨fun h => ?_, fun h => ?_, fun h => ?_, fun neg m k h => ?_⟩
  · simp [fpClass, h]
  · simp [fpClass, h]
  · simp [fpClass, h]
  · have hb := below_small f x neg m k h
    rw [h]
    have hc : fpClass f x = if m = 0 then (if neg then 8 else 16)
      else if m < 2 ^ f.mb then (if neg then 4 else 32)
      else if neg then 2 else 64 := by simp [fpClass, h]
    rw [hc]
    refine ⟨fun h0 => by rw [if_pos h0]; rfl, fun h0 h1 => by rw [if_neg h0, if_pos (hb.2 h1)]; rfl, fun h1 => ?_⟩
    have : ¬ m < 2 ^ f.mb := fun h2 => absurd (hb.1 h2) (not_lt.mpr h1)
    have h0 : m ≠ 0 := by rintro rfl; exact this (by positivity)
    rw [if_neg h0, if_neg this]
    rfl

/-- The integer part and the rest of a magnitude with fraction bits. -/
theorem int_part (m s : Nat) : (m : Rat) * 2 ^ (-(s : Int)) = (m >>> s : Nat) + (m % 2 ^ s : Nat) / (2 ^ s : Rat) := by
  have h : (2:Rat) ^ s ≠ 0 := by positivity
  rw [zpow_neg, zpow_natCast, Nat.shiftRight_eq_div_pow]
  have e := Nat.div_add_mod m (2 ^ s)
  have e2 : (m : Rat) = 2 ^ s * (m / 2 ^ s : Nat) + (m % 2 ^ s : Nat) := by exact_mod_cast e.symm
  field_simp
  linarith

/-- Rounding a magnitude to an integer (R49). -/
theorem roundTo_spec (md : Rnd) (neg : Bool) (m : Nat) (e : Int) (n : Nat) (hn : n = roundTo md neg m e 0) (x : Rat) (hx : x = (m : Rat) * 2 ^ e) :
    (md = .rtz → (n : Int) = ⌊x⌋) ∧ (md = .rdn → (n : Int) = if neg then ⌈x⌉ else ⌊x⌋) ∧ (md = .rup → (n : Int) = if neg then ⌊x⌋ else ⌈x⌉) ∧
    (md = .rne → |(n : Rat) - x| < 1 / 2 ∨ (|(n : Rat) - x| = 1 / 2 ∧ n % 2 = 0)) := by
  unfold roundTo at hn
  split at hn
  · rename_i h
    have h1 : x = (n : Rat) := by
      rw [hx, hn, Nat.shiftLeft_eq]
      push_cast
      congr 1
      rw [← zpow_natCast]; congr 1; omega
    rw [h1]; simp
  · rename_i h
    dsimp only at hn
    have he : e = -(((0 - e).toNat : Nat) : Int) := by omega
    generalize (0 - e).toNat = s at *
    subst he
    rw [int_part] at hx
    have hp : (0:Rat) < 2 ^ s := by positivity
    have hr : m % 2 ^ s < 2 ^ s := Nat.mod_lt _ (by positivity)
    generalize m >>> s = k at *
    generalize m % 2 ^ s = r at *
    have hr0 : (0:Rat) ≤ r / 2 ^ s := by positivity
    have hr1 : (r:Rat) / 2 ^ s < 1 := by rw [div_lt_one hp]; exact_mod_cast hr
    have hf : ⌊x⌋ = (k : Int) := by rw [Int.floor_eq_iff]; push_cast; constructor <;> linarith
    have hz : r = 0 → x = k := by rintro rfl; simp [hx]
    have hc : r ≠ 0 → ⌈x⌉ = (k : Int) + 1 := by
      intro h0
      have : (0:Rat) < r / 2 ^ s := div_pos (by exact_mod_cast Nat.pos_of_ne_zero h0) hp
      rw [Int.ceil_eq_iff]; push_cast; constructor <;> linarith
    have hc0 : r = 0 → ⌈x⌉ = (k : Int) := by intro h0; rw [hz h0]; simp
    refine ⟨?_, ?_, ?_, ?_⟩
    · rintro rfl; rw [hf, hn]; simp [roundsUp]
    · rintro rfl
      by_cases h0 : r = 0
      · cases neg <;> simp [hn, roundsUp, hf, hc0 h0, h0]
      · cases neg <;> simp [hn, roundsUp, hf, hc h0, h0]
    · rintro rfl
      by_cases h0 : r = 0
      · cases neg <;> simp [hn, roundsUp, hf, hc0 h0, h0]
      · cases neg <;> simp [hn, roundsUp, hf, hc h0, h0]
    · rintro rfl
      simp only [roundsUp, Bool.or_eq_true, Bool.and_eq_true, decide_eq_true_eq] at hn
      have c1 : 2 ^ s < 2 * r ↔ (1:Rat) / 2 < r / 2 ^ s := by
        rw [lt_div_iff₀ hp]
        constructor
        · intro h; have : ((2 ^ s : Nat) : Rat) < ((2 * r : Nat) : Rat) := by exact_mod_cast h
          push_cast at this; linarith
        · intro h; have : ((2 ^ s : Nat) : Rat) < ((2 * r : Nat) : Rat) := by push_cast; linarith
          exact_mod_cast this
      have c2 : 2 * r = 2 ^ s ↔ (r:Rat) / 2 ^ s = 1 / 2 := by
        rw [div_eq_iff hp.ne']
        constructor
        · intro h; have : ((2 * r : Nat) : Rat) = ((2 ^ s : Nat) : Rat) := by exact_mod_cast h
          push_cast at this; linarith
        · intro h; have : ((2 * r : Nat) : Rat) = ((2 ^ s : Nat) : Rat) := by push_cast; linarith
          exact_mod_cast this
      simp only [c1, c2] at hn
      generalize (r:Rat) / 2 ^ s = y at *
      split at hn
      · rename_i hu
        rw [hn, hx]
        push_cast
        rw [show ((k:Rat) + 1 - (k + y)) = 1 - y by ring, abs_of_pos (by linarith)]
        rcases hu with hu | ⟨hu, ho⟩
        · left; linarith
        · right; exact ⟨by linarith, by omega⟩
      · rename_i hu
        rw [hn, hx, show ((k:Rat) - (k + y)) = -y by ring, abs_neg, abs_of_nonneg hr0]
        push Not at hu
        rcases lt_or_eq_of_le hu.1 with h1 | h1
        · left; exact h1
        · right; exact ⟨h1, by have := hu.2 h1; omega⟩

theorem frac_spec (f : FpFmt) (hb : 0 < f.bias) (md : Rnd) (x : Nat) (neg : Bool) (m : Nat) (k : Int) (h : decodeFp f x = .fin neg m k) :
    ∃ (n : Nat) (q : Int), (n : Rat) * 2 ^ q = numberOf (.fin neg m k) - ⌊numberOf (.fin neg m k)⌋ ∧
      fpFrac f md x = if encodeFp f md (.fin false n q) = f.bias * 2 ^ f.mb then f.bias * 2 ^ f.mb - 1 else encodeFp f md (.fin false n q) := by
  have hv := atScale_num neg m k (min k 0) (min_le_left _ _)
  have hq : min k 0 = -(((-(min k 0)).toNat : Nat) : Int) := by omega
  refine ⟨(atScale neg m k (min k 0) % (2 ^ (-(min k 0)).toNat : Nat)).toNat, min k 0, ?_, ?_⟩
  · generalize atScale neg m k (min k 0) = z at *
    generalize numberOf (.fin neg m k) = v at *
    generalize (-(min k 0)).toNat = s at *
    rw [hq] at hv ⊢
    have hp : (0:Rat) < 2 ^ s := by positivity
    have hpi : (0:Int) < (2 ^ s : Nat) := by positivity
    rw [zpow_neg, zpow_natCast] at hv ⊢
    have h0 := Int.emod_nonneg z hpi.ne'
    have h1 := Int.emod_lt_of_pos z hpi
    have h2 := Int.mul_ediv_add_emod z (2 ^ s : Nat)
    have hvz : v = z / 2 ^ s := by rw [hv]; field_simp
    have hfl : ⌊v⌋ = z / (2 ^ s : Nat) := by
      have := Rat.floor_intCast_div_natCast z (2 ^ s)
      rw [hvz, ← this]; congr 1; push_cast; rfl
    rw [hfl]
    have h3 : (((z % (2 ^ s : Nat)).toNat : Nat) : Rat) = ((z % (2 ^ s : Nat) : Int) : Rat) := by
      have : (((z % (2 ^ s : Nat)).toNat : Nat) : Int) = z % (2 ^ s : Nat) := Int.toNat_of_nonneg h0
      exact_mod_cast this
    rw [h3, hvz]
    have h4 : (z : Rat) = (2 ^ s : Rat) * ((z / (2 ^ s : Nat) : Int) : Rat) + ((z % (2 ^ s : Nat) : Int) : Rat) := by
      exact_mod_cast h2.symm
    generalize ((z / (2 ^ s : Nat) : Int) : Rat) = c at *
    generalize ((z % (2 ^ s : Nat) : Int) : Rat) = d at *
    rw [h4]
    field_simp
    ring
  · unfold fpFrac
    rw [h]
    dsimp only
    generalize (atScale neg m k (min k 0) % (2 ^ (-(min k 0)).toNat : Nat)).toNat = n
    rw [Nat.shiftLeft_eq]
    by_cases h0 : n = 0
    · subst h0
      have h1 : encodeFp f md (.fin false 0 (min k 0)) = 0 := by simp [encodeFp, FpFmt.signed]
      rw [if_pos rfl, h1, if_neg]
      have : 0 < f.bias * 2 ^ f.mb := by positivity
      omega
    · rw [if_neg h0]
      split <;> rename_i h1
      · rw [h1]
      · rfl

theorem min_all (fm : FpFmt) (a b : Fv) : ∀ r, r = encodeFp fm .rne (Fv.min a b) →
  (a.isNan = true → r = encodeFp fm .rne b) ∧ (b.isNan = true → r = encodeFp fm .rne a) ∧
  (fvBelow a b = true → r = encodeFp fm .rne a) ∧ (fvBelow b a = true → r = encodeFp fm .rne b) ∧
  (a.isZero = true → b.isZero = true → r = fm.signed (a.isNeg || b.isNeg) 0) := by
  rintro r rfl
  have h := min_spec a b
  have hz := zero_spec fm a b
  refine ⟨fun x => ?_, fun x => ?_, fun x => ?_, fun x => ?_, fun x y => ?_⟩
  · rw [h.1 x]
  · rw [h.2.1 x]
  · rw [h.2.2.1 x]
  · rw [h.2.2.2 x]
  · exact (hz x y).1

theorem max_all (fm : FpFmt) (a b : Fv) : ∀ r, r = encodeFp fm .rne (Fv.max a b) →
  (a.isNan = true → r = encodeFp fm .rne b) ∧ (b.isNan = true → r = encodeFp fm .rne a) ∧
  (fvBelow a b = true → r = encodeFp fm .rne b) ∧ (fvBelow b a = true → r = encodeFp fm .rne a) ∧
  (a.isZero = true → b.isZero = true → r = fm.signed (a.isNeg && b.isNeg) 0) := by
  rintro r rfl
  have h := max_spec a b
  have hz := zero_spec fm a b
  refine ⟨fun x => ?_, fun x => ?_, fun x => ?_, fun x => ?_, fun x y => ?_⟩
  · rw [h.1 x]
  · rw [h.2.1 x]
  · rw [h.2.2.1 x]
  · rw [h.2.2.2 x]
  · exact (hz x y).2

theorem vfmt_width2 : ∀ t : BitVec 4, t = 8 ∨ t = 10 → tyWidth t ≠ 64 := by decide

theorem sqrt_nan (f : FpFmt) (md : Rnd) (x : Nat) (h : decodeFp f x = .nan) : fpSqrt f md x = f.nanBits := by
  rw [fpSqrt, h]; rfl

theorem rcp_spec (f : FpFmt) (x : Nat) : (decodeFp f x = .nan → sfuRcp f x = f.nanBits) ∧
   (∀ neg k, decodeFp f x = .fin neg 0 k → sfuRcp f x = f.signed neg f.infBits) ∧ ∀ neg, decodeFp f x = .inf neg → sfuRcp f x = f.signed neg 0 := by
  refine ⟨fun h => ?_, fun neg k h => ?_, fun neg h => ?_⟩ <;> simp [sfuRcp, h, Fv.div, encodeFp]

theorem rsq_spec (f : FpFmt) (x : Nat) : (decodeFp f x = .nan → sfuRsq f x = f.nanBits) ∧
   (∀ neg k, decodeFp f x = .fin neg 0 k → sfuRsq f x = f.signed neg f.infBits) ∧ (decodeFp f x = .inf false → sfuRsq f x = 0) ∧
    (decodeFp f x = .inf true → sfuRsq f x = f.nanBits) ∧ ∀ m k, m ≠ 0 → decodeFp f x = .fin true m k → sfuRsq f x = f.nanBits := by
  refine ⟨fun h => ?_, fun neg k h => ?_, fun h => ?_, fun h => ?_, fun m k h0 h => ?_⟩ <;> simp [sfuRsq, h, Fv.div, Fv.sqrt, encodeFp, FpFmt.signed, *]

theorem exp_spec (f : FpFmt) (x : Nat) : (decodeFp f x = .nan → sfuExp2 f x = f.nanBits) ∧
   (decodeFp f x = .inf true → sfuExp2 f x = 0) ∧ (decodeFp f x = .inf false → sfuExp2 f x = f.signed false f.infBits) ∧ ∀ neg m k, decodeFp f x = .fin neg m k →
      ((f.bias + 1 : Rat) ≤ numberOf (decodeFp f x) → sfuExp2 f x = f.signed false f.infBits) ∧
      ∀ n : Int, numberOf (decodeFp f x) = n → f.qmin ≤ n → n ≤ f.bias → sfuExp2 f x = encodeFp f .rne (.fin false 1 n) := by
  refine ⟨fun h => ?_, fun h => ?_, fun h => ?_, fun neg m k h => ?_⟩
  · simp [sfuExp2, h]
  · simp [sfuExp2, h]
  · simp [sfuExp2, h, FpFmt.signed]
  · have hv := atScale_num neg m k (min k 0) (min_le_left _ _)
    have hq : min k 0 = -(((-(min k 0)).toNat : Nat) : Int) := by omega
    rw [h]
    unfold sfuExp2
    rw [h]
    dsimp only
    have hqq : ∀ q, min k 0 = q → (atScale neg m k q = atScale neg m k (min k 0)) := by rintro q rfl; rfl
    generalize atScale neg m k (min k 0) = z at *
    generalize numberOf (.fin neg m k) = v at *
    generalize hs : (-(min k 0)).toNat = s at *
    rw [hq] at hv
    rw [zpow_neg, zpow_natCast] at hv
    have hp : (0:Rat) < 2 ^ s := by positivity
    have hvz : (z : Rat) = v * 2 ^ s := by rw [hv]; field_simp
    have hpi : (0:Int) < (2 ^ s : Nat) := by positivity
    rw [Int.fdiv_eq_ediv_of_nonneg _ hpi.le]
    refine ⟨fun h1 => ?_, fun n h1 h2 h3 => ?_⟩
    · rw [if_pos]
      · rfl
      · rw [Int.le_ediv_iff_mul_le hpi]
        have : (((f.bias : Int) + 1) * (2 ^ s : Nat) : Rat) ≤ z := by
          rw [hvz]; push_cast; exact mul_le_mul_of_nonneg_right h1 hp.le
        exact_mod_cast this
    · have hz : z = n * (2 ^ s : Nat) := by
        have : (z : Rat) = n * (2 ^ s : Nat) := by rw [hvz, h1]; push_cast; rfl
        exact_mod_cast this
      have hd : z / (2 ^ s : Nat) = n := by rw [hz, Int.mul_ediv_cancel _ hpi.ne']
      rw [hd, if_neg (by omega), if_neg (by omega), if_pos, if_neg (by omega)]
      rw [hz]; simp

theorem log_spec (f : FpFmt) (x : Nat) : (decodeFp f x = .nan → sfuLog2 f x = f.nanBits) ∧
   (decodeFp f x = .inf true → sfuLog2 f x = f.nanBits) ∧ (decodeFp f x = .inf false → sfuLog2 f x = f.signed false f.infBits) ∧
      (∀ neg k, decodeFp f x = .fin neg 0 k → sfuLog2 f x = f.signed true f.infBits) ∧ (∀ m k, m ≠ 0 → decodeFp f x = .fin true m k → sfuLog2 f x = f.nanBits) ∧
      ∀ m k (n : Int), decodeFp f x = .fin false m k → numberOf (decodeFp f x) = 2 ^ n →
        sfuLog2 f x = encodeFp f .rne (.fin (decide (n < 0)) n.natAbs 0) := by
  refine ⟨fun h => ?_, fun h => ?_, fun h => ?_, fun neg k h => ?_, fun m k h0 h => ?_, fun m k n h h1 => ?_⟩
  · simp [sfuLog2, h]
  · simp [sfuLog2, h]
  · simp [sfuLog2, h, FpFmt.signed]
  · simp [sfuLog2, h]
  · simp [sfuLog2, h, h0]
  · rw [h] at h1
    simp only [numberOf, Bool.false_eq_true, if_false, one_mul] at h1
    have hm0 : m ≠ 0 := by rintro rfl; simp at h1; exact absurd h1.symm (by positivity)
    have h2 : (m : Rat) = 2 ^ (n - k) := by
      rw [zpow_sub₀ (by norm_num), ← h1]; field_simp
    have hnk : 0 ≤ n - k := by
      by_contra hc
      have : (2:Rat) ^ (n - k) < 1 := zpow_lt_one_of_neg₀ (by norm_num) (by omega)
      rw [← h2] at this
      have : m < 1 := by exact_mod_cast this
      omega
    obtain ⟨j, hj⟩ := Int.eq_ofNat_of_zero_le hnk
    rw [hj, zpow_natCast] at h2
    have hm : m = 2 ^ j := by exact_mod_cast h2
    have hl : Nat.log2 m = j := by rw [hm]; exact Nat.log2_two_pow
    unfold sfuLog2
    rw [h]
    dsimp only
    rw [if_neg hm0, if_neg (by simp), hl, if_pos hm, show (j : Int) + k = n by omega]

theorem tanh_spec (f : FpFmt) (hb : f.bias * 2 ^ f.mb < 2 ^ (f.eb + f.mb)) (x : Nat) : (decodeFp f x = .nan → sfuTanh f x = f.nanBits) ∧
   (∀ neg, decodeFp f x = .inf neg → sfuTanh f x = f.signed neg (f.bias * 2 ^ f.mb)) ∧
      (∀ neg k, decodeFp f x = .fin neg 0 k → sfuTanh f x = f.signed neg 0) ∧ (decodeFp f x ≠ .nan → sfuTanh f x % 2 ^ (f.eb + f.mb) ≤ f.bias * 2 ^ f.mb) := by
  have hs : ∀ neg (k : Nat), k ≤ f.bias * 2 ^ f.mb → f.signed neg k % 2 ^ (f.eb + f.mb) ≤ f.bias * 2 ^ f.mb := by
    intro neg k hk
    cases neg
    · simp only [FpFmt.signed]; rw [if_neg (by simp), Nat.mod_eq_of_lt (by omega)]; exact hk
    · rw [FpFmt.signed, if_pos rfl, Nat.add_mod_right, Nat.mod_eq_of_lt (by omega)]; exact hk
  refine ⟨fun h => ?_, fun neg h => ?_, fun neg k h => ?_, fun h => ?_⟩
  · simp [sfuTanh, h]
  · simp [sfuTanh, h, Nat.shiftLeft_eq]
  · simp [sfuTanh, h]
  · unfold sfuTanh
    cases hd : decodeFp f x with
    | nan => exact absurd hd h
    | inf neg => dsimp only; rw [Nat.shiftLeft_eq]; exact hs _ _ le_rfl
    | fin neg m e =>
      dsimp only
      split
      · exact hs _ _ (Nat.zero_le _)
      · rw [Nat.shiftLeft_eq]
        unfold sfuResult sfuChoose
        dsimp only
        apply hs
        generalize ha : (sfuNear _ _ _ _).filter _ = cs
        generalize Config.sfuPick _ _ % cs.length = i
        rw [List.getD_eq_getElem?_getD]
        cases hg : cs[i]? with
        | none => dsimp; split <;> omega
        | some c =>
          have hm := List.mem_of_getElem? hg
          rw [← ha, List.mem_filter] at hm
          simpa [Nat.shiftLeft_eq] using hm.2

/-- `|x|` modulo 2 of a number with half-integral value. -/
theorem mod2_spec (neg : Bool) (m : Nat) (e : Int) (z : Int) (h : numberOf (.fin neg m e) * 2 = z) :
    fxMod2 m e = (z.natAbs % 4) * (1 <<< (fxBits - 1)) := by
  have hm : (m : Rat) * 2 ^ e * 2 = z.natAbs := by
    have h1 : |numberOf (.fin neg m e) * 2| = |(z : Rat)| := by rw [h]
    rw [abs_mul, Nat.abs_ofNat] at h1
    have h2 : |numberOf (.fin neg m e)| = (m : Rat) * 2 ^ e := by
      have h2 : (0:Rat) < 2 ^ e := by positivity
      cases neg <;> simp [numberOf, abs_mul, abs_of_pos h2]
    rw [h2] at h1
    rw [h1]; exact (Nat.cast_natAbs (α := Rat) z).symm ▸ (by simp)
  generalize z.natAbs = n at *
  clear h z neg
  unfold fxMod2
  by_cases h1 : 1 ≤ e
  · rw [if_pos h1]
    obtain ⟨j, hj⟩ := Int.eq_ofNat_of_zero_le (show 0 ≤ e - 1 by omega)
    have h2 : (m * 2 ^ j * 4 : Nat) = n := by
      have : ((m * 2 ^ j * 4 : Nat) : Rat) = n := by
        rw [← hm, show e = (j : Int) + 1 by omega, zpow_add₀ (by norm_num), zpow_natCast]
        push_cast; ring
      exact_mod_cast this
    rw [← h2]; simp
  · rw [if_neg h1]
    obtain ⟨j, hj⟩ := Int.eq_ofNat_of_zero_le (show 0 ≤ 1 - e by omega)
    rw [hj]
    have he : e = 1 - (j : Int) := by omega
    have h2 : m * 4 = n * 2 ^ j := by
      have : ((m * 4 : Nat) : Rat) = (n * 2 ^ j : Nat) := by
        push_cast
        rw [← hm, he, zpow_sub₀ (by norm_num), zpow_natCast]
        field_simp; ring
      exact_mod_cast this
    have h3 : m % 2 ^ j * 4 = n % 4 * 2 ^ j := by
      rw [Nat.mul_comm, ← Nat.mul_mod_mul_left, Nat.mul_comm 4 m, h2, Nat.mul_mod_mul_right]
    simp only [Int.toNat_natCast]
    generalize m % 2 ^ j = a at *
    generalize n % 4 = b at *
    unfold fxOf
    dsimp only
    have hB : fxBits = 512 := rfl
    have h513 : (2:Nat) ^ 513 = 2 ^ 511 * 4 := by rw [Nat.pow_succ, Nat.pow_succ, Nat.mul_assoc]
    have hone : 1 <<< (fxBits - 1) = 2 ^ 511 := by rw [hB, Nat.shiftLeft_eq, Nat.one_mul]
    rw [hone]
    clear hone hm
    split
    · rename_i hc
      rw [Nat.shiftLeft_eq]
      have hj2 : (e + (fxBits : Int)).toNat = 513 - j := by omega
      have hj3 : j ≤ 513 := by omega
      rw [hj2]
      have : a * 4 * 2 ^ (513 - j) = b * 2 ^ 511 * 4 := by
        rw [h3, Nat.mul_assoc, ← pow_add, show j + (513 - j) = 513 by omega, Nat.mul_assoc]
        rw [h513]
      have h5 : a * 2 ^ (513 - j) * 4 = b * 2 ^ 511 * 4 := by rw [← this]; ring
      exact Nat.eq_of_mul_eq_mul_right (by norm_num) h5
    · rename_i hc
      obtain ⟨i, hi⟩ := Int.eq_ofNat_of_zero_le (show 0 ≤ -(e + (fxBits : Int)) by omega)
      rw [hi, Int.toNat_natCast, Nat.shiftRight_eq_div_pow]
      have hj2 : j = 513 + i := by omega
      apply Nat.div_eq_of_eq_mul_left (by positivity)
      have : a * 4 = b * 2 ^ 511 * 2 ^ i * 4 := by
        rw [h3, hj2, pow_add, h513]
        ring
      exact Nat.eq_of_mul_eq_mul_right (by norm_num) this

theorem sin_spec (f : FpFmt) (x : Nat) : (decodeFp f x = .nan → sfuSinPi f x = f.nanBits) ∧ (∀ neg, decodeFp f x = .inf neg → sfuSinPi f x = f.nanBits) ∧
      ∀ neg m k (n : Int), decodeFp f x = .fin neg m k → numberOf (decodeFp f x) = n → sfuSinPi f x = f.signed neg 0 := by
  refine ⟨fun h => by simp [sfuSinPi, h], fun neg h => by simp [sfuSinPi, h], fun neg m k n h h1 => ?_⟩
  rw [h] at h1
  have h2 := mod2_spec neg m k (2 * n) (by rw [h1]; push_cast; ring)
  unfold sfuSinPi
  rw [h]
  dsimp only
  rw [h2, if_pos]
  have : (2 * n).natAbs % 4 = 2 * (n.natAbs % 2) := by omega
  rw [this, show (1 <<< fxBits) = 2 * (1 <<< (fxBits - 1)) by rw [Nat.shiftLeft_eq, Nat.shiftLeft_eq, show fxBits = (fxBits - 1) + 1 from rfl, pow_succ]; simp; ring]
  generalize 1 <<< (fxBits - 1) = c
  rw [show 2 * (n.natAbs % 2) * c = n.natAbs % 2 * (2 * c) by ring]
  exact Nat.mul_mod_left _ _

theorem cos_spec (f : FpFmt) (x : Nat) : (decodeFp f x = .nan → sfuCosPi f x = f.nanBits) ∧ (∀ neg, decodeFp f x = .inf neg → sfuCosPi f x = f.nanBits) ∧
      ∀ neg m k (n : Int), decodeFp f x = .fin neg m k →
      (numberOf (decodeFp f x) = n → sfuCosPi f x = f.signed (decide (n % 2 = 1)) (f.bias * 2 ^ f.mb)) ∧ (numberOf (decodeFp f x) = n + 1 / 2 → sfuCosPi f x = 0) := by
  have hone : (1 <<< fxBits) = 2 * (1 <<< (fxBits - 1)) := by rw [Nat.shiftLeft_eq, Nat.shiftLeft_eq, show fxBits = (fxBits - 1) + 1 from rfl, pow_succ]; simp; ring
  have hc : 0 < 1 <<< (fxBits - 1) := by rw [Nat.shiftLeft_eq]; positivity
  refine ⟨fun h => by simp [sfuCosPi, h], fun neg h => by simp [sfuCosPi, h], fun neg m k n h => ⟨fun h1 => ?_, fun h1 => ?_⟩⟩
  · rw [h] at h1
    have h2 := mod2_spec neg m k (2 * n) (by rw [h1]; push_cast; ring)
    unfold sfuCosPi
    rw [h]
    dsimp only
    rw [h2, hone]
    clear h2
    generalize 1 <<< (fxBits - 1) = c at *
    rcases Int.emod_two_eq_zero_or_one n with hn | hn
    · rw [show (2 * n).natAbs % 4 = 0 by omega, hn]; simp [FpFmt.signed, Nat.shiftLeft_eq]
    · rw [show (2 * n).natAbs % 4 = 2 by omega, hn, if_neg (by omega), if_pos rfl]; simp [Nat.shiftLeft_eq]
  · rw [h] at h1
    have h2 := mod2_spec neg m k (2 * n + 1) (by rw [h1]; push_cast; ring)
    unfold sfuCosPi
    rw [h]
    dsimp only
    rw [h2, hone]
    clear h2
    generalize 1 <<< (fxBits - 1) = c at *
    rcases (show (2 * n + 1).natAbs % 4 = 1 ∨ (2 * n + 1).natAbs % 4 = 3 by omega) with hn | hn
    · rw [hn, if_neg (by omega), if_neg (by omega), if_pos]
      rw [Nat.one_mul, Nat.mod_eq_of_lt (by omega)]; omega
    · rw [hn, if_neg (by omega), if_neg (by omega), if_pos]
      rw [show 3 * c = c + 2 * c by ring, Nat.add_mod_right, Nat.mod_eq_of_lt (by omega)]; omega

end Sys2Proof.Machine
end

