-- ==== Sys2Proof/Laws/CrossLane.lean ====
section
/-! SUPPORT. Lemmas of cross-lane moves, reductions, dot products and conversions. -/

set_option Elab.async false

namespace Sys2Proof.Machine

open Sys2Proof Sys2Proof.Claims

theorem groupOk_lane (d : BitVec 6) : GroupOk d 128 32 := by
  have := d.isLt
  refine ⟨by decide, fun e h => ?_, ?_⟩ <;> simp [groupSize] <;> omega

theorem lane_spec (s : State) (f : FmtA) (val : Nat → Nat) (r : Nat → BitVec 32) (hr : ∀ e < 128, activeElt s.cur f 128 e = true → BitVec.ofNat 32 (val e) = r e)
    (o : Out) (ho : o = vecWrite s f 128 32 val) : ∃ t, o = .next t ∧ VectorWrite s t f.d 128 32 (activeElt s.cur f 128) r := by
  subst ho
  obtain ⟨t, h1, h2⟩ := vecWrite_spec s f 128 32 val (groupOk_lane f.d)
  exact ⟨t, h1, vectorWrite_congr h2 hr⟩

theorem srcElem_lane (w : Warp) (r : BitVec 6) (pl : Nat) : srcElem w r 128 32 pl = (laneOf (readV w r) pl).toNat := by
  have h : groupSize 128 32 = 1 := rfl
  simp only [srcElem, readGroup, h, Nat.mod_one, Nat.div_one, Nat.add_zero, elemOf, laneOf, BitVec.extractLsb'_toNat, readV]
  congr 3
  rw [Array.getD_eq_getD_getElem?, Vector.getElem?_toArray, Vector.getElem?_eq_getElem r.isLt]
  rfl

theorem own32_lane (w : Warp) (r : BitVec 6) (pl : Nat) : own32 w r pl = laneOf (readV w r) pl := by
  rw [own32, srcElem_lane]; simp

theorem elemOf_part (v : VReg) (n per pl j : Nat) (h : n * per = 32) (hj : j < per) :
    elemOf v n (pl * per + j) = (laneOf v pl).toNat / 2 ^ (n * j) % 2 ^ n := by
  have hle : n * j + n ≤ 32 := by
    calc n * j + n = n * (j + 1) := by ring
      _ ≤ n * per := Nat.mul_le_mul_left _ hj
      _ = 32 := h
  have h1 : n * (pl * per + j) = 32 * pl + n * j := by rw [← h]; ring
  apply Nat.eq_of_testBit_eq
  intro i
  rw [elemOf, laneOf, BitVec.extractLsb'_toNat, Nat.testBit_mod_two_pow, Nat.testBit_mod_two_pow, Nat.testBit_shiftRight, ← Nat.shiftRight_eq_div_pow,
    Nat.testBit_shiftRight, Nat.testBit_mod_two_pow, Nat.testBit_shiftRight, h1]
  by_cases hi : i < n
  · simp [hi, show n * j + i < 32 by omega, Nat.add_assoc]
  · simp [hi]

theorem dotProducts_eq (w : Warp) (f : FmtA) (per pl n : Nat) (hn : tyWidth f.ty2 = n) (h : n * per = 32) :
    dotProducts w f per pl = (List.range per).map fun j => negFv (f.mod.getLsbD 10)
      (Fv.mul (valueOf f.ty2.toNat ((own32 w f.a pl).toNat / 2 ^ (n * j) % 2 ^ n))
        (valueOf f.ty2.toNat ((if f.bx = 1 then (readX w f.b).setWidth 32 else own32 w f.b pl).toNat / 2 ^ (n * j) % 2 ^ n))) := by
  unfold dotProducts
  simp only [hn, negP, negFv]
  apply List.map_congr_left
  intro j hj
  have hj := List.mem_range.mp hj
  have hb : (if f.bx = 1 then ((readX w f.b).toNat >>> (n * j)) % 2 ^ n else elemOf (readV w f.b) n (pl * per + j)) =
     ((if f.bx = 1 then (readX w f.b).setWidth 32 else own32 w f.b pl).toNat / 2 ^ (n * j) % 2 ^ n) := by
    split
    · have hle : n * j + n ≤ 32 := by
        calc n * j + n = n * (j + 1) := by ring
          _ ≤ n * per := Nat.mul_le_mul_left _ hj
          _ = 32 := h
      apply Nat.eq_of_testBit_eq
      intro i
      rw [BitVec.toNat_setWidth, Nat.testBit_mod_two_pow, Nat.testBit_mod_two_pow, Nat.testBit_shiftRight, ← Nat.shiftRight_eq_div_pow,
        Nat.testBit_shiftRight, Nat.testBit_mod_two_pow]
      by_cases hi : i < n
      · simp [hi, show n * j + i < 32 by omega]
      · simp [hi]
    · rw [elemOf_part _ n per pl j h hj, own32_lane]
  rw [hb, elemOf_part _ n per pl j h hj, own32_lane w f.a]

theorem negF32_xor (n : Bool) (c : BitVec 32) : negF32 n c.toNat = (if n then c ^^^ 0x80000000#32 else c).toNat := by
  cases n
  · rfl
  · simp [negF32]

theorem ofSigned_toNat (v : Int) : BitVec.ofNat 32 (ofSigned 32 v) = BitVec.ofInt 32 v := ofNat_ofSigned v

theorem int8_elem (t : BitVec 4) (ht : t = 0 ∨ t = 1) (x : BitVec 32) (j : Nat) (hj : j < 4) :
   BitVec.ofInt 32 (elemInt 8 (tySigned t.toNat) (x.toNat / 2 ^ (8 * j) % 2 ^ 8)) =
     if signedType t then (x.extractLsb' (8 * j) 8).signExtend 32 else (x.extractLsb' (8 * j) 8).setWidth 32 := by
  have h8 : x.toNat / 2 ^ (8 * j) % 2 ^ 8 = (x.extractLsb' (8 * j) 8).toNat := by
    rw [BitVec.extractLsb'_toNat, Nat.shiftRight_eq_div_pow]
  rw [h8, elemInt_asInt, tySigned_signedType t (by rcases ht with h | h <;> rw [h] <;> decide)]
  generalize x.extractLsb' (8 * j) 8 = y
  cases signedType t <;> simp [asInt, BitVec.signExtend]

/-- A group write, whatever chooses its elements. -/
theorem groupWrite_spec (w : Warp) (d : BitVec 6) (n wd : Nat) (act : Nat → Bool) (val : Nat → Nat) (h : GroupOk d n wd) :
    GroupWrite w { w with v := writeGroup w.v d.toNat n wd act val } d n wd act fun e => BitVec.ofNat wd (val e) := by
  refine ⟨fun e he => ?_, fun k _ hk => ?_⟩
  · have := readGroup_writeGroup w.v d.toNat n wd e act val h.fits h.pos (h.room e he)
    rw [srcElem]
    dsimp only
    rw [this]
    split
    · exact ofNat_mod_two_pow _ _
    · exact ofNat_mod_two_pow _ _
  · have := writeGroup_getD w.v d.toNat n wd act val k h.fits
    rw [if_neg (by omega)] at this
    exact this

theorem i_spec (w : Warp) (f : FmtA) (pl : Nat) (h : activeElt w f 128 pl = true) (hp : pl < 128) :
    posOf w pl = some (numberOfElt w 128 pl) ∧ armElem w 128 pl = numberOfElt w 128 pl ∧ numberOfElt w 128 pl < w.vl := by
  obtain ⟨p, hp1, hp2⟩ := active_pos w f 128 pl h
  have e : pl * 128 / 128 = pl := by omega
  rw [e] at hp1
  have e1 : numberOfElt w 128 pl = p := by simp [numberOfElt, hp1, Nat.mod_one]
  have e2 : armElem w 128 pl = p := by simp [armElem, hp1, Nat.mod_one]
  exact ⟨by rw [e1, hp1], by rw [e1, e2], by rw [e1]; exact hp2⟩

theorem physOf_posOf (w : Warp) (pl p : Nat) (hpl : pl < 128) (h : posOf w pl = some p) : physOf w p = some pl := by
  unfold posOf at h
  unfold physOf
  cases hm : w.mapping with
  | none => rw [hm] at h; cases h; simp [hpl]
  | some l =>
    rw [hm] at h
    dsimp only at h ⊢
    obtain ⟨h1, h2, -⟩ := List.idxOf?_eq_some_iff.mp h
    rw [List.getElem?_eq_getElem h1]
    simpa using h2

theorem posElem_eq (w : Warp) (r : BitVec 6) (n wd j : Nat) : posElem w r n wd j = BitVec.ofNat wd (crossElem w r n wd j) := by
  rw [posElem, crossElem_numbered]
  cases numbered w n j <;> rfl

theorem lane32_eq (w : Warp) (r : BitVec 6) (j : Nat) : BitVec.ofNat 32 (lanePos w r j) = lane32 w r j := by
  rw [lane32, posElem_eq, lanePos]

theorem srcB32 (w : Warp) (f : FmtA) (pl : Nat) : srcB w f 128 32 pl = (if f.bx = 1 then (readX w f.b).setWidth 32 else own32 w f.b pl).toNat := by
  rw [srcB]; split
  · simp
  · rw [own32, BitVec.toNat_ofNat, Nat.mod_eq_of_lt (srcElem_lt _ _ _ _ _)]

theorem own_toNat (w : Warp) (r : BitVec 6) (pl : Nat) : srcElem w r 128 32 pl = (own32 w r pl).toNat := by
  rw [own32, BitVec.toNat_ofNat, Nat.mod_eq_of_lt (srcElem_lt _ _ _ _ _)]

theorem selected_eq (w : Warp) (f : FmtA) : selectedPositions w f.pm f.pi = selectedList w f := by
  unfold selectedPositions selectedList
  apply List.filter_congr
  intro p hp
  rw [selectedAt, maskBitAt]
  have := List.mem_range.mp hp
  cases physOf w p <;> simp [this]

theorem idx_count (l : List Nat) (hl : l.Pairwise (· < ·)) (i : Nat) (hi : i ∈ l) : l.idxOf? i = some (l.countP fun q => decide (q < i)) := by
  induction l with
  | nil => cases hi
  | cons a t ih =>
    rw [List.pairwise_cons] at hl
    rw [List.idxOf?_cons, List.countP_cons]
    by_cases ha : a = i
    · subst ha
      have : t.countP (fun q => decide (q < a)) = 0 := by
        rw [List.countP_eq_zero]; intro b hb; have := hl.1 b hb; simp; omega
      simp [this]
    · have hit : i ∈ t := by rcases List.mem_cons.mp hi with h | h; exact absurd h.symm ha; exact h
      have := hl.1 i hit
      rw [ih hl.2 hit]
      simp [ha, this]

theorem selected_mem (w : Warp) (f : FmtA) (pl : Nat) (hpl : pl < 128) (h : activeElt w f 128 pl = true) : numberOfElt w 128 pl ∈ selectedList w f := by
  obtain ⟨h1, -, h3⟩ := i_spec w f pl h hpl
  rw [selectedList, List.mem_filter, List.mem_range]
  refine ⟨h3, ?_⟩
  have e : pl * 128 / 128 = pl := by omega
  rw [activeElt, e] at h
  simp [selectedAt, h3, physOf_posOf w pl _ hpl h1, h]

theorem lanePos_toNat (w : Warp) (r : BitVec 6) (j : Nat) : lanePos w r j = (lane32 w r j).toNat := by
  rw [← lane32_eq, BitVec.toNat_ofNat, Nat.mod_eq_of_lt]
  rw [lanePos, crossElem_numbered]
  cases numbered w 128 j with
  | none => exact Nat.two_pow_pos _
  | some e => exact srcElem_lt _ _ _ _ _

theorem f32_lt (md : Rnd) (v : Fv) : encodeFp fmtF32 md v < 2 ^ 32 := encode_lt 10 md v

theorem redOp_toNat (op : Nat) (t : BitVec 4) (ht : t = 4 ∨ t = 5 ∨ t = 10) (ho : op < if t = 10 then 3 else 6) (a b : BitVec 32) :
    redOp op t.toNat a.toNat b.toNat = (reduceOp op t a b).toNat := by
  have hmin : ∀ sg, aluMin 32 sg a.toNat b.toNat = (smaller sg a b).toNat := by
    intro sg
    have h := ofNat_aluMin a b sg
    rw [← h, BitVec.toNat_ofNat, Nat.mod_eq_of_lt]
    unfold aluMin; split <;> exact BitVec.isLt _
  have hmax : ∀ sg, aluMax 32 sg a.toNat b.toNat = (larger sg a b).toNat := by
    intro sg
    have h := ofNat_aluMax a b sg
    rw [← h, BitVec.toNat_ofNat, Nat.mod_eq_of_lt]
    unfold aluMax; split <;> exact BitVec.isLt _
  rcases ht with rfl | rfl | rfl
  · have ho' : op < 6 := ho
    have hr : reduceOp op 4 a b = reduceInt op true a b := rfl
    rw [hr]
    interval_cases op <;> simp [redOp, reduceInt, hmin, hmax] <;> rfl
  · have ho' : op < 6 := ho
    have hr : reduceOp op 5 a b = reduceInt op false a b := rfl
    rw [hr]
    interval_cases op <;> simp [redOp, reduceInt, hmin, hmax] <;> rfl
  · have ho' : op < 3 := ho
    have hr : reduceOp op 10 a b = reduceFloat op a b := rfl
    rw [hr]
    interval_cases op
    · exact (Nat.mod_eq_of_lt (f32_lt _ _)).symm
    · exact (Nat.mod_eq_of_lt (f32_lt _ _)).symm
    · exact (Nat.mod_eq_of_lt (f32_lt _ _)).symm

theorem redIdent_toNat (op : Nat) (t : BitVec 4) (ht : t = 4 ∨ t = 5 ∨ t = 10) (ho : op < if t = 10 then 3 else 6) :
    redIdent op t.toNat = (reduceIdentity op t).toNat := by
  rcases ht with rfl | rfl | rfl
  · have ho' : op < 6 := ho
    interval_cases op <;> rfl
  · have ho' : op < 6 := ho
    interval_cases op <;> rfl
  · have ho' : op < 3 := ho
    interval_cases op <;> rfl

theorem redInputs_eq (w : Warp) (f : FmtA) (op : Nat) (ht : f.ty = 4 ∨ f.ty = 5 ∨ f.ty = 10) (ho : op < if f.ty = 10 then 3 else 6) :
    redInputs w f (redIdent op f.ty.toNat) = (List.range 128).map fun p => (reduceInput w f op p).toNat := by
  apply List.map_congr_left
  intro p hp
  have hs : (decide (p < w.vl) && maskBitAt w (activeMask w f.pm f.pi) p) = selectedAt w f p := by
    rw [selectedAt, maskBitAt]; cases physOf w p <;> rfl
  rw [reduceInput, ← hs, redIdent_toNat op _ ht ho]
  split
  · exact lanePos_toNat _ _ _
  · rfl

theorem pairUp_map (op : Nat → Nat → Nat) (g : Nat → Nat) (n : Nat) : ∀ b, pairUp op ((List.range (2 * n)).map fun i => g (b + i)) =
    (List.range n).map fun i => op (g (b + 2 * i)) (g (b + (2 * i + 1))) := by
  induction n with
  | zero => intro b; rfl
  | succ n ih =>
    intro b
    rw [show 2 * (n + 1) = 2 * n + 1 + 1 by ring, List.range_succ_eq_map, List.range_succ_eq_map, List.range_succ_eq_map]
    simp only [List.map_cons, List.map_map, pairUp]
    refine congrArg₂ _ rfl ?_
    have := ih (b + 2)
    rw [show ((fun i => g (b + i)) ∘ Nat.succ ∘ Nat.succ) = fun i => g (b + 2 + i) by funext i; simp only [Function.comp]; congr 1; omega, this]
    apply List.map_congr_left
    intro i _
    simp only [Function.comp]
    congr 2 <;> omega

theorem pairUp_balanced (op : Nat → Nat → Nat) (op' : BitVec 32 → BitVec 32 → BitVec 32) (h : ∀ a b : BitVec 32, op a.toNat b.toNat = (op' a b).toNat)
    (g : Nat → BitVec 32) (k n : Nat) : pairUp op ((List.range (2 * n)).map fun i => (balanced op' g k (i * 2 ^ k)).toNat) =
      (List.range n).map fun i => (balanced op' g (k + 1) (i * 2 ^ (k + 1))).toNat := by
  have := pairUp_map op (fun i => (balanced op' g k (i * 2 ^ k)).toNat) n 0
  simp only [Nat.zero_add] at this
  rw [this]
  apply List.map_congr_left
  intro i _
  rw [h, balanced]
  congr 3
  · ring_nf
  · ring_nf

theorem redTree_balanced (op : Nat → Nat → Nat) (op' : BitVec 32 → BitVec 32 → BitVec 32) (h : ∀ a b : BitVec 32, op a.toNat b.toNat = (op' a b).toNat)
    (g : Nat → BitVec 32) : redTree op ((List.range 128).map fun p => (g p).toNat) = (balanced op' g 7 0).toNat := by
  have h0 : ((List.range 128).map fun p => (g p).toNat) = ((List.range (2 * 64)).map fun i => (balanced op' g 0 (i * 2 ^ 0)).toNat) := by
    simp [balanced]
  have b := fun k n => pairUp_balanced op op' h g k n
  have b0 := b 0 64
  have b1 := b 1 32
  have b2 := b 2 16
  have b3 := b 3 8
  have b4 := b 4 4
  have b5 := b 5 2
  have b6 := b 6 1
  rw [redTree, h0, b0]
  simp only [Nat.reduceMul, Nat.reduceAdd] at b1 b2 b3 b4 b5 b6 ⊢
  rw [b1, b2, b3, b4, b5, b6]
  simp

theorem scan_get (op : Nat → Nat → Nat) (excl : Bool) (l : List Nat) : ∀ (acc i : Nat), i < l.length →
    (scanValues op excl acc l)[i]? = some (if excl then (l.take i).foldl op acc else (l.take (i + 1)).foldl op acc) := by
  induction l with
  | nil => intro acc i h; simp at h
  | cons x t ih =>
    intro acc i h
    cases i with
    | zero => cases excl <;> rfl
    | succ i =>
      simp only [List.length_cons] at h
      rw [scanValues, List.getElem?_cons_succ, ih _ _ (by omega)]
      rfl

theorem scan_len (op : Nat → Nat → Nat) (excl : Bool) (l : List Nat) : ∀ acc, (scanValues op excl acc l).length = l.length := by
  induction l with
  | nil => intro _; rfl
  | cons x t ih => intro acc; simp [scanValues, ih]

theorem fold_toNat (op : Nat → Nat → Nat) (op' : BitVec 32 → BitVec 32 → BitVec 32) (h : ∀ a b : BitVec 32, op a.toNat b.toNat = (op' a b).toNat)
    (g : Nat → BitVec 32) (l : List Nat) : ∀ acc : BitVec 32, (l.map fun p => (g p).toNat).foldl op acc.toNat = (l.foldl (fun acc p => op' acc (g p)) acc).toNat := by
  induction l with
  | nil => intro acc; rfl
  | cons x t ih => intro acc; simp only [List.map_cons, List.foldl_cons]; rw [h, ih]

theorem lsb_bits (r : VReg) (a n : Nat) : (r.extractLsb' a n).toNat = r.toNat / 2 ^ a % 2 ^ n := by
  rw [BitVec.extractLsb'_toNat, Nat.shiftRight_eq_div_pow]

theorem elem16 (r : VReg) (k : Nat) : (r.extractLsb' (16 * k) 16).toNat = elemOf r 16 k := by
  rw [BitVec.extractLsb'_toNat, elemOf]

theorem groupWrite_numbered (w : Warp) (d : BitVec 6) (n wd : Nat) (act : Nat → Bool) (val : Nat → Nat) (h : GroupOk d n wd) :
    GroupWrite w { w with v := writeGroup w.v d.toNat n wd act val } d n wd act fun e => BitVec.ofNat wd (val e) := by
  refine ⟨fun e he => ?_, fun k _ hk => ?_⟩
  · have := readGroup_writeGroup w.v d.toNat n wd e act val h.fits h.pos (h.room e he)
    rw [srcElem]
    dsimp only
    rw [this]
    split
    · exact ofNat_mod_two_pow _ _
    · exact ofNat_mod_two_pow _ _
  · have := writeGroup_getD w.v d.toNat n wd act val k h.fits
    rw [if_neg (by omega)] at this
    exact this

theorem cvt_sizes : ∀ a b : BitVec 4, cvtCount a b = 128 * (cvtCount a b / 128) ∧ 0 < cvtCount a b / 128 ∧
    0 < groupSize (cvtCount a b) (tyWidth a) ∧ cvtCount a b = groupSize (cvtCount a b) (tyWidth a) * (4096 / tyWidth a) := by decide

theorem cvt_groupOk (f : FmtA) (h : f.d.toNat + groupSize (cvtCount f.ty f.ty2) (tyWidth f.ty) ≤ 64) :
    GroupOk f.d (cvtCount f.ty f.ty2) (tyWidth f.ty) := by
  obtain ⟨-, -, h1, h2⟩ := cvt_sizes f.ty f.ty2
  refine ⟨h1, fun e he => ?_, h⟩
  rw [Nat.div_lt_iff_lt_mul h1, Nat.mul_comm, ← h2]
  exact he

theorem fault_le (w : Warp) (f : FmtA) (e k : Nat) (h : cvtResult w f e = .fault k) : k ≤ 3 := by
  have h1 : ∀ dst src md p x, convertElem dst src md p x = .fault k → k ≤ 3 := by
    intro dst src md p x h
    unfold convertElem at h
    split at h
    · unfold toFp fpNanCase fpInfCase fpUflCase fpOvfCase at h
      dsimp only at h
      repeat' split at h
      all_goals first | (cases h; done) | (cases h; decide)
    · unfold toInt at h
      dsimp only at h
      repeat' split at h
      all_goals first | (cases h; done) | (cases h; decide)
  unfold cvtResult cvtElem at h
  dsimp only at h
  split at h
  · cases h
  · exact h1 _ _ _ _ _ h

def lowStep (act : Nat → Bool) (res : Nat → CvtResult) (m e : Nat) : Nat :=
  if act e then (match res e with
    | .fault c => min m c
    | .ok _ => m) else m

theorem lowest_spec (act : Nat → Bool) (res : Nat → CvtResult) (n : Nat) :
    (List.range n).foldl (lowStep act res) 3 ≤ 3 ∧ (∀ e < n, ∀ k, act e = true → res e = .fault k → (List.range n).foldl (lowStep act res) 3 ≤ k) ∧
     ((List.range n).foldl (lowStep act res) 3 = 3 ∨ ∃ e < n, act e = true ∧ res e = .fault ((List.range n).foldl (lowStep act res) 3)) := by
  induction n with
  | zero => simp
  | succ n ih =>
    rw [List.range_succ, List.foldl_append]
    generalize (List.range n).foldl (lowStep act res) 3 = L at *
    obtain ⟨h1, h2, h3⟩ := ih
    simp only [List.foldl_cons, List.foldl_nil, lowStep]
    by_cases ha : act n = true
    · rw [if_pos ha]
      cases hr : res n with
      | ok b =>
        refine ⟨h1, fun e he k hk hk2 => ?_, ?_⟩
        · rcases Nat.lt_succ_iff_lt_or_eq.mp he with h | rfl
          · exact h2 e h k hk hk2
          · rw [hr] at hk2; cases hk2
        · rcases h3 with h | ⟨e, he, h⟩
          · exact .inl h
          · exact .inr ⟨e, by omega, h⟩
      | fault c =>
        dsimp only
        have hm1 : min L c ≤ L := Nat.min_le_left _ _
        have hm2 : min L c ≤ c := Nat.min_le_right _ _
        refine ⟨by omega, fun e he k hk hk2 => ?_, ?_⟩
        · rcases Nat.lt_succ_iff_lt_or_eq.mp he with h | rfl
          · have := h2 e h k hk hk2; omega
          · rw [hr] at hk2; cases hk2; omega
        · rcases Nat.lt_or_ge c L with hc | hc
          · right; rw [Nat.min_eq_right (by omega)]; exact ⟨n, by omega, ha, hr⟩
          · rw [Nat.min_eq_left hc]
            rcases h3 with h | ⟨e, he, h⟩
            · exact .inl h
            · exact .inr ⟨e, by omega, h⟩
    · rw [if_neg ha]
      refine ⟨h1, fun e he k hk hk2 => ?_, ?_⟩
      · rcases Nat.lt_succ_iff_lt_or_eq.mp he with h | rfl
        · exact h2 e h k hk hk2
        · exact absurd hk ha
      · rcases h3 with h | ⟨e, he, h⟩
        · exact .inl h
        · exact .inr ⟨e, by omega, h⟩

theorem faults_bit (w : Warp) (f : FmtA) (pl : Nat) (hp : pl < 128) : (cvtFaults w f (activeMask w f.pm f.pi)).getLsbD pl = true ↔
    ∃ e < cvtCount f.ty f.ty2, e * 128 / cvtCount f.ty f.ty2 = pl ∧ activeElt w f (cvtCount f.ty f.ty2) e = true ∧ isFaultCase (cvtResult w f e) = true := by
  obtain ⟨h1, h2, -, -⟩ := cvt_sizes f.ty f.ty2
  rw [cvtFaults, buildMask_getLsbD _ _ hp]
  generalize cvtCount f.ty f.ty2 / 128 = k at *
  rw [h1]
  have hd : ∀ e, e * 128 / (128 * k) = e / k := by intro e; rw [Nat.mul_comm 128 k]; exact Nat.mul_div_mul_right _ _ (by norm_num)
  simp only [activeElt, hd, Bool.and_eq_true, List.any_eq_true, List.mem_range]
  constructor
  · rintro ⟨ha, j, hj, hf⟩
    refine ⟨pl * k + j, ?_, ?_, ?_, hf⟩
    · calc pl * k + j < pl * k + k := by omega
        _ = (pl + 1) * k := by ring
        _ ≤ 128 * k := Nat.mul_le_mul_right _ hp
    · rw [Nat.mul_comm, Nat.mul_add_div h2, Nat.div_eq_of_lt hj, Nat.add_zero]
    · rw [Nat.mul_comm, Nat.mul_add_div h2, Nat.div_eq_of_lt hj, Nat.add_zero]; exact ha
  · rintro ⟨e, he, hel, ha, hf⟩
    refine ⟨by rw [hel] at ha; exact ha, e % k, Nat.mod_lt _ h2, ?_⟩
    rw [← hel, Nat.mul_comm, Nat.div_add_mod]; exact hf

theorem faults_zero (w : Warp) (f : FmtA) : cvtFaults w f (activeMask w f.pm f.pi) = 0 ↔
    ∀ e < cvtCount f.ty f.ty2, activeElt w f (cvtCount f.ty f.ty2) e = true → isFaultCase (cvtResult w f e) = false := by
  constructor
  · intro h e he ha
    by_contra hc
    have hn : e * 128 / cvtCount f.ty f.ty2 < 128 := by
      rw [Nat.div_lt_iff_lt_mul (by omega), Nat.mul_comm]; exact Nat.mul_lt_mul_of_pos_left he (by norm_num)
    have := (faults_bit w f _ hn).2 ⟨e, he, rfl, ha, by simpa using hc⟩
    rw [h] at this
    exact absurd (this.symm.trans BitVec.getLsbD_zero) (by simp)
  · intro h
    apply BitVec.eq_of_getLsbD_eq
    intro i hi
    rw [Bool.eq_iff_iff, faults_bit _ _ _ hi]
    have hz0 : BitVec.getLsbD (0 : Mask) i = false := BitVec.getLsbD_zero
    rw [hz0]
    simp only [Bool.false_eq_true, iff_false]
    rintro ⟨e, he, -, ha, hf⟩
    rw [h e he ha] at hf
    cases hf

end Sys2Proof.Machine
end

