-- ==== Sys2Proof/Laws/Memory.lean ====
section
/-! SUPPORT. The pool's memory: every operation keeps the canonical form, a byte read after a write, equal contents are equal
data. -/

set_option Elab.async false

namespace Sys2Proof.Machine

/-- Every listed address lies above `a`. -/
abbrev Memory.Above (a : Nat) (m : Memory) : Prop := ∀ p ∈ m, a < p.1

theorem Memory.wf_cons (a : Nat) (b : Byte) (t : Memory) :
    Memory.wf ((a, b) :: t) = true ↔ b ≠ poolDefault ∧ Memory.Above a t ∧ Memory.wf t = true := by
  induction t generalizing a b with
  | nil => simp [Memory.wf, Memory.Above]
  | cons p t ih =>
    obtain ⟨c, d⟩ := p
    simp only [Memory.wf, Bool.and_eq_true, bne_iff_ne, ne_eq, decide_eq_true_eq]
    constructor
    · rintro ⟨⟨h1, h2⟩, h3⟩
      refine ⟨h1, ?_, h3⟩
      intro p hp
      rcases List.mem_cons.mp hp with rfl | hp
      · exact h2
      · exact lt_trans h2 (((ih c d).mp h3).2.1 p hp)
    · rintro ⟨h1, h2, h3⟩
      exact ⟨⟨h1, h2 (c, d) List.mem_cons_self⟩, h3⟩

theorem Memory.get_above (m : Memory) (a : Nat) (h : Memory.Above a m) : Memory.get m a = poolDefault := by
  cases m with
  | nil => rfl
  | cons p t =>
    obtain ⟨k, b⟩ := p
    have hk : a < k := h (k, b) List.mem_cons_self
    simp [Memory.get, hk, show ¬ k = a by omega]

theorem Memory.above_put (m : Memory) (a c : Nat) (b : Byte) (h : Memory.Above c m) (hc : c < a) :
    Memory.Above c (Memory.put m a b) := by
  induction m with
  | nil =>
    intro p hp
    simp only [Memory.put] at hp
    split at hp
    · simp at hp
    · simp only [List.mem_singleton] at hp
      rw [hp]
      exact hc
  | cons q t ih =>
    obtain ⟨k, d⟩ := q
    have hk : c < k := h (k, d) List.mem_cons_self
    have ht : Memory.Above c t := fun p hp => h p (List.mem_cons_of_mem _ hp)
    intro p hp
    simp only [Memory.put] at hp
    split at hp <;> (try split at hp) <;> (try split at hp) <;> (try simp only [List.mem_cons] at hp)
    · rcases hp with rfl | hp
      · exact hk
      · exact ht p hp
    · rcases hp with rfl | rfl | hp
      · exact hc
      · exact hk
      · exact ht p hp
    · exact ht p hp
    · rcases hp with rfl | hp
      · exact hc
      · exact ht p hp
    · rcases hp with rfl | hp
      · exact hk
      · exact ih ht p hp

/-- A byte write keeps the canonical form. -/
theorem Memory.wf_put (m : Memory) (a : Nat) (b : Byte) (h : Memory.wf m = true) :
    Memory.wf (Memory.put m a b) = true := by
  induction m with
  | nil =>
    simp only [Memory.put]
    split
    · rfl
    · simp_all [Memory.wf]
  | cons q t ih =>
    obtain ⟨k, d⟩ := q
    obtain ⟨h1, h2, h3⟩ := (Memory.wf_cons k d t).mp h
    simp only [Memory.put]
    split
    · split
      · exact h
      · refine (Memory.wf_cons a b _).mpr ⟨‹_›, ?_, h⟩
        intro p hp
        rcases List.mem_cons.mp hp with rfl | hp
        · assumption
        · have := h2 p hp
          omega
    · split
      · subst ‹k = a›
        split
        · exact h3
        · exact (Memory.wf_cons k b t).mpr ⟨‹_›, h2, h3⟩
      · exact (Memory.wf_cons k d _).mpr ⟨h1, Memory.above_put t a k b h2 (by omega), ih h3⟩

/-- Writing bytes keeps the canonical form. -/
theorem Memory.wf_write (m : Memory) (a : Nat) (bs : List Byte) (h : Memory.wf m = true) :
    Memory.wf (Memory.write m a bs) = true := by
  induction bs generalizing m a with
  | nil => exact h
  | cons b bs ih => exact ih _ _ (Memory.wf_put m a b h)

/-- A byte read after it is written. -/
theorem Memory.get_put_same (m : Memory) (a : Nat) (b : Byte) (h : Memory.wf m = true) :
    Memory.get (Memory.put m a b) a = b := by
  induction m with
  | nil =>
    simp only [Memory.put]
    split
    · simp_all [Memory.get]
    · simp [Memory.get]
  | cons q t ih =>
    obtain ⟨k, d⟩ := q
    obtain ⟨_, h2, h3⟩ := (Memory.wf_cons k d t).mp h
    simp only [Memory.put]
    split
    · split
      · subst b
        simp [Memory.get, show ¬ k = a by omega, *]
      · simp [Memory.get]
    · split
      · subst ‹k = a›
        split
        · subst b
          exact Memory.get_above t k h2
        · simp [Memory.get]
      · simp [Memory.get, ‹¬ k = a›, show ¬ a < k by omega, ih h3]

/-- A byte read elsewhere after a write. -/
theorem Memory.get_put_other (m : Memory) (a c : Nat) (b : Byte) (h : Memory.wf m = true) (hc : c ≠ a) :
    Memory.get (Memory.put m a b) c = Memory.get m c := by
  induction m with
  | nil =>
    simp only [Memory.put]
    split
    · rfl
    · simp [Memory.get, hc.symm]
  | cons q t ih =>
    obtain ⟨k, d⟩ := q
    obtain ⟨_, h2, h3⟩ := (Memory.wf_cons k d t).mp h
    simp only [Memory.put]
    split
    · split
      · rfl
      · by_cases hk : c < a
        · simp [Memory.get, hc.symm, hk, show ¬ k = c by omega, show c < k by omega]
        · simp [Memory.get, hc.symm, hk]
    · split
      · subst ‹k = a›
        split
        · by_cases hk : c < k
          · rw [Memory.get_above t c fun p hp => lt_trans hk (h2 p hp)]
            simp [Memory.get, hc.symm, hk]
          · simp [Memory.get, hc.symm, hk]
        · simp [Memory.get, hc.symm]
      · simp only [Memory.get, ih h3]

/-- A byte outside the bytes written reads as before. -/
theorem Memory.get_write_other (m : Memory) (a c : Nat) (bs : List Byte) (h : Memory.wf m = true)
    (hc : c < a ∨ a + bs.length ≤ c) : Memory.get (Memory.write m a bs) c = Memory.get m c := by
  induction bs generalizing m a with
  | nil => rfl
  | cons b bs ih =>
    simp only [List.length_cons] at hc
    rw [Memory.write, ih _ _ (Memory.wf_put m a b h) (by omega), Memory.get_put_other m a c b h (by omega)]

/-- The bytes written read back. -/
theorem Memory.read_write (m : Memory) (a : Nat) (bs : List Byte) (h : Memory.wf m = true) :
    Memory.read (Memory.write m a bs) a bs.length = bs := by
  induction bs generalizing m a with
  | nil => rfl
  | cons b bs ih =>
    simp only [List.length_cons, Memory.read, Memory.write, ih _ _ (Memory.wf_put m a b h)]
    rw [Memory.get_write_other _ _ _ _ (Memory.wf_put m a b h) (by omega), Memory.get_put_same m a b h]

/-- Memories in canonical form that read alike are equal. -/
theorem Memory.ext (m n : Memory) (hm : Memory.wf m = true) (hn : Memory.wf n = true)
    (h : ∀ a, Memory.get m a = Memory.get n a) : m = n := by
  induction m generalizing n with
  | nil =>
    cases n with
    | nil => rfl
    | cons q t =>
      obtain ⟨k, d⟩ := q
      have := h k
      simp [Memory.get] at this
      exact absurd this.symm ((Memory.wf_cons k d t).mp hn).1
  | cons p s ih =>
    obtain ⟨j, c⟩ := p
    obtain ⟨hj, hja, hs⟩ := (Memory.wf_cons j c s).mp hm
    cases n with
    | nil =>
      have := h j
      simp [Memory.get] at this
      exact absurd this hj
    | cons q t =>
      obtain ⟨k, d⟩ := q
      obtain ⟨hk, hka, ht⟩ := (Memory.wf_cons k d t).mp hn
      have e : j = k := by
        rcases lt_trichotomy j k with hl | he | hl
        · have := h j
          simp [Memory.get, hl, show ¬ k = j by omega] at this
          exact absurd this hj
        · exact he
        · have := h k
          simp [Memory.get, hl, show ¬ j = k by omega] at this
          exact absurd this.symm hk
      subst e
      have e2 : c = d := by simpa [Memory.get] using h j
      subst e2
      congr 1
      refine ih t hs ht fun a => ?_
      rcases lt_trichotomy a j with hl | he | hl
      · rw [Memory.get_above s a fun p hp => lt_trans hl (hja p hp), Memory.get_above t a fun p hp => lt_trans hl (hka p hp)]
      · subst he
        rw [Memory.get_above s a hja, Memory.get_above t a hka]
      · have := h a
        simpa [Memory.get, show ¬ j = a by omega, show ¬ a < j by omega] using this

theorem State.reset_memory_wf : Memory.wf State.reset.mem = true := rfl

end Sys2Proof.Machine
end

