-- ==== Sys2Proof/Laws/Scratchpad.lean ====
section
/-! SUPPORT. Lemmas of scratchpad loads and stores, and of loaded values on their way to registers. -/

set_option Elab.async false

namespace Sys2Proof.Machine

open Sys2Proof Sys2Proof.Claims

theorem elemOf_bit (r : VReg) (w e i : Nat) : (elemOf r w e).testBit i = (decide (i < w) && r.getLsbD (w * e + i)) := by
  rw [elemOf, Nat.testBit_mod_two_pow, Nat.testBit_shiftRight, BitVec.getLsbD]

theorem elemOf_merge (old m v : VReg) (w e : Nat) (h : w * e + w ≤ 4096) :
    elemOf ((old &&& ~~~m) ||| v) w e = ((elemOf old w e &&& (2 ^ w - 1 - elemOf m w e)) ||| elemOf v w e) := by
  apply Nat.eq_of_testBit_eq
  intro i
  have hm : elemOf m w e < 2 ^ w := elemOf_lt _ _ _
  have hsub : (2 ^ w - 1 - elemOf m w e).testBit i = (decide (i < w) && !(elemOf m w e).testBit i) := by
    have : 2 ^ w - 1 - elemOf m w e = 2 ^ w - (elemOf m w e + 1) := by omega
    rw [this, Nat.testBit_two_pow_sub_succ hm]
  rw [Nat.testBit_or, Nat.testBit_and, hsub]
  simp only [elemOf_bit]
  by_cases hi : i < w
  · have : w * e + i < 4096 := by omega
    simp [hi, BitVec.getLsbD_not, this]
  · simp [hi]

theorem width_fits (w e : Nat) (he : e < 4096 / w) : w * e + w ≤ 4096 := by
  have : e + 1 ≤ 4096 / w := he
  calc w * e + w = w * (e + 1) := by ring
    _ ≤ w * (4096 / w) := Nat.mul_le_mul_left _ this
    _ ≤ 4096 := Nat.mul_div_le 4096 w

/-- Register `k` of a group after the owed bits land. -/
theorem landV_vAt (d : BitVec 6) (n wd : Nat) (act : Nat → Bool) (val : Nat → Nat) (w : Warp) (hb : d.toNat + groupSize n wd ≤ 64) :
    ∀ k < 64, vAt (landV w ((List.range (groupSize n wd)).map fun k =>
      (d + BitVec.ofNat 6 k, groupReg 0 (groupSize n wd) k wd act (fun _ => 2 ^ wd - 1), groupReg 0 (groupSize n wd) k wd act val))) k =
      if d.toNat ≤ k ∧ k < d.toNat + groupSize n wd then
        (vAt w k &&& ~~~groupReg 0 (groupSize n wd) (k - d.toNat) wd act (fun _ => 2 ^ wd - 1)) ||| groupReg 0 (groupSize n wd) (k - d.toNat) wd act val
      else vAt w k := by
  generalize groupSize n wd = f at *
  suffices H : ∀ m, m ≤ f → ∀ k < 64, vAt (landV w ((List.range m).map fun k =>
      (d + BitVec.ofNat 6 k, groupReg 0 f k wd act (fun _ => 2 ^ wd - 1), groupReg 0 f k wd act val))) k =
      if d.toNat ≤ k ∧ k < d.toNat + m then
        (vAt w k &&& ~~~groupReg 0 f (k - d.toNat) wd act (fun _ => 2 ^ wd - 1)) ||| groupReg 0 f (k - d.toNat) wd act val
      else vAt w k from H f le_rfl
  intro m
  induction m with
  | zero => intro _ k _; simp [landV]
  | succ m ih =>
    intro hm k hk
    have ih := ih (by omega)
    rw [List.range_succ, List.map_append, landV, List.foldl_append]
    simp only [List.map_cons, List.map_nil, List.foldl_cons, List.foldl_nil]
    have hd : (d + BitVec.ofNat 6 m).toNat = d.toNat + m := by
      rw [BitVec.toNat_add, BitVec.toNat_ofNat, Nat.mod_eq_of_lt (show m < 2 ^ 6 by omega), Nat.mod_eq_of_lt (by omega)]
    have hr : ∀ w' : Warp, readV w' (d + BitVec.ofNat 6 m) = vAt w' (d.toNat + m) := by
      intro w'
      rw [readV, vAt, Array.getD_eq_getD_getElem?, Vector.getElem?_toArray, Vector.getElem?_eq_getElem (by omega)]
      simp only [Option.getD_some]
      congr 1
    rw [show (List.foldl (fun w q => setV w q.1.toNat ((readV w q.1 &&& ~~~q.2.1) ||| q.2.2)) w
        (List.map (fun k => (d + BitVec.ofNat 6 k, groupReg 0 f k wd act (fun _ => 2 ^ wd - 1), groupReg 0 f k wd act val)) (List.range m))) =
        landV w (List.map (fun k => (d + BitVec.ofNat 6 k, groupReg 0 f k wd act (fun _ => 2 ^ wd - 1), groupReg 0 f k wd act val)) (List.range m)) from rfl]
    rw [hr, hd]
    rw [show ∀ (w' : Warp) (x : VReg), vAt (setV w' (d.toNat + m) x) k = if k = d.toNat + m then x else vAt w' k from
      fun w' x => by rw [vAt, setV, setReg_getD _ _ _ _ (by omega)]; rfl]
    rw [ih (d.toNat + m) (by omega), ih k hk]
    by_cases h : k = d.toNat + m
    · subst h
      simp
    · rw [if_neg h]
      by_cases h2 : d.toNat ≤ k ∧ k < d.toNat + m
      · rw [if_pos h2, if_pos ⟨h2.1, by omega⟩]
      · rw [if_neg h2, if_neg (by omega)]

theorem landV_group (d : BitVec 6) (n wd : Nat) (act : Nat → Bool) (val : Nat → Nat) (w : Warp) (h : GroupOk d n wd) (v) 
    (hv : landV w ((List.range (groupSize n wd)).map fun k =>
      (d + BitVec.ofNat 6 k, groupReg 0 (groupSize n wd) k wd act (fun _ => 2 ^ wd - 1), groupReg 0 (groupSize n wd) k wd act val)) = { w with v := v }) :
    GroupWrite w { w with v := v } d n wd act fun e => BitVec.ofNat wd (val e) := by
  rw [← hv]
  have H := landV_vAt d n wd act val w h.fits
  refine ⟨fun e he => ?_, fun k hk hk2 => ?_⟩
  · have hm := Nat.mod_lt e h.pos
    have hr := h.room e he
    rw [srcElem, readGroup]
    dsimp only
    rw [show ∀ w' : Warp, w'.v.toArray.getD (d.toNat + e % groupSize n wd) 0 = vAt w' (d.toNat + e % groupSize n wd) from fun _ => rfl]
    rw [H _ (by have := h.fits; omega), if_pos ⟨by omega, by omega⟩, elemOf_merge _ _ _ _ _ (width_fits _ _ hr)]
    simp only [groupReg, Nat.add_sub_cancel_left]
    have hd : e / groupSize n wd * groupSize n wd + e % groupSize n wd = e := by
      rw [Nat.mul_comm]
      exact Nat.div_add_mod e _
    rw [elemOf_buildReg _ _ _ hr, elemOf_buildReg _ _ _ hr, hd]
    have hlt : elemOf (vAt w (d.toNat + e % groupSize n wd)) wd (e / groupSize n wd) < 2 ^ wd := elemOf_lt _ _ _
    have hz : elemOf 0 wd (e / groupSize n wd) = 0 := by simp [elemOf]
    have h2 : 0 < 2 ^ wd := Nat.two_pow_pos _
    split
    · rw [Nat.mod_eq_of_lt (show 2 ^ wd - 1 < 2 ^ wd by omega), Nat.sub_self, Nat.and_zero, Nat.zero_or]
      exact ofNat_mod_two_pow _ _
    · rw [hz, Nat.zero_mod, Nat.sub_zero, Nat.or_zero, Nat.and_two_pow_sub_one_eq_mod, Nat.mod_eq_of_lt hlt, srcElem, readGroup]
      rfl
  · rw [H k hk, if_neg (by omega)]

theorem tySigned_eq (t : BitVec 4) : tySigned t.toNat = (decide (t.toNat < 8) && signedType t) := rfl

theorem widened_ext (n : Nat) (sg : Bool) (v : Nat) : extendTo64 n sg v = widened 64 sg (BitVec.ofNat n v) := by
  rw [extendTo64, widened]
  split
  · rfl
  · apply BitVec.eq_of_toNat_eq; simp

theorem widened_elem (m wd : Nat) (sg : Bool) (v : Nat) (h64 : wd ≤ 64) (h : wd ≤ m → sg = false ∨ m = wd) :
    BitVec.ofNat wd (if m < wd then (extendTo64 m sg v).toNat else v) = widened wd sg (BitVec.ofNat m v) := by
  by_cases hm : m < wd
  · rw [if_pos hm, widened_ext, widened, widened]
    split
    · rw [BitVec.ofNat_toNat]
      apply BitVec.eq_of_getLsbD_eq
      intro i hi
      simp only [BitVec.getLsbD_setWidth, BitVec.getLsbD_signExtend, hi, show i < 64 by omega, decide_true, Bool.true_and]
    · apply BitVec.eq_of_toNat_eq
      simp only [BitVec.toNat_ofNat, BitVec.toNat_setWidth]
      rw [Nat.mod_eq_of_lt (b := 2 ^ 64)]
      exact lt_of_lt_of_le (Nat.mod_lt _ (Nat.two_pow_pos _)) (Nat.pow_le_pow_right (by norm_num) (by omega))
  · rw [if_neg hm]
    rcases h (by omega) with rfl | rfl
    · rw [widened, if_neg (by simp)]
      apply BitVec.eq_of_toNat_eq
      simp only [BitVec.toNat_ofNat, BitVec.toNat_setWidth]
      exact (Nat.mod_mod_of_dvd _ (Nat.pow_dvd_pow 2 (by omega))).symm
    · rw [widened]
      split
      · exact (BitVec.signExtend_eq _).symm
      · simp

theorem tblGet_units (cnt : Nat) (act : Nat → Bool) (mk : Nat → MemUnit) (hm : ∀ e, (mk e).elem = e) (g : MemUnit → Nat) (j : Nat) :
    tblGet ((((List.range cnt).filterMap fun e => if act e then some (mk e) else none).map fun u => (u.elem, g u))) j =
      if j < cnt ∧ act j = true then some (g (mk j)) else none := by
  suffices H : ∀ l : List Nat, tblGet (((l.filterMap fun e => if act e then some (mk e) else none).map fun u => (u.elem, g u))) j =
      if j ∈ l ∧ act j = true then some (g (mk j)) else none by
    rw [H]; simp
  intro l
  induction l with
  | nil => simp [tblGet]
  | cons a l ih =>
    rw [List.filterMap_cons]
    by_cases ha : act a = true
    · rw [if_pos ha]
      simp only [List.map_cons, tblGet, hm]
      by_cases hj : a = j
      · subst hj; simp [ha]
      · rw [if_neg hj, ih]; simp [Ne.symm hj]
    · rw [if_neg ha]
      dsimp only
      rw [ih]
      by_cases hj : j = a
      · subst hj; simp [ha]
      · simp [hj]

theorem tblGet_map (l : Tbl Nat) (g : Nat → Nat) (j : Nat) : tblGet (l.map fun q => (q.1, g q.2)) j = (tblGet l j).map g := by
  induction l with
  | nil => rfl
  | cons a l ih =>
    obtain ⟨k, v⟩ := a
    simp only [List.map_cons, tblGet]
    split
    · rfl
    · exact ih

theorem softHit_nil (s : State) (l : List ErrSite) (h : s.softErrs = []) : softHit s l = none := by
  rw [softHit, List.find?_eq_none]
  intro e _
  simp [h]

theorem applyPending_x (w : Warp) (p : Pending) (h1 : p.vw = []) (h2 : p.mw = []) : applyPending w p = p.xw.foldl (fun w q => writeX w q.1 q.2) w := by
  simp [applyPending, h1, h2, landV]

theorem applyPending_v (w : Warp) (p : Pending) (h1 : p.xw = []) (h2 : p.mw = []) : applyPending w p = landV w p.vw := by
  simp [applyPending, h1, h2]

/-- The value a local unit reads. -/
theorem scratchGet_value (s : State) (sp : Nat) (u : MemUnit) (h : LocalInside s sp u.va u.n) : BitVec.ofNat (8 * u.n) (scratchGet s sp u) = localValue s sp u.va u.n := by
  unfold scratchGet scratchPlace localValue
  unfold LocalInside at h
  cases hs : spdTarget s s.cur sp u.va.toNat u.n with
  | none => rw [hs] at h; cases h
  | some q =>
    simp only [Option.getD_some]
    cases s.findTeam q.1 <;> rfl

theorem rmax_same (w : Warp) : { w with rmax := max w.rmax 0 } = w := by
  simp

/-- A load from the scratchpads in its bounds. -/
theorem localLoad (f : FmtM) (vector : Bool) (sh : MemShape) (us : List MemUnit) (s : State) (hs : f.space ≠ 0) (he : s.softErrs = [])
    (hb : scratchBad s f.space.toNat us = none) :
    loadUnits f vector sh us s = answer s (retire (applyPending s.cur (loadOwed f vector sh (us.map fun u => (u.elem, scratchGet s f.space.toNat u)) [] s.cur))) := by
  unfold loadUnits
  rw [if_pos hs, hb]
  dsimp only
  rw [softHit_nil _ _ he]
  dsimp only
  unfold settleLoad
  dsimp only
  rw [Bool.true_or, if_pos rfl]
  simp only [answer, Nat.max_zero]

theorem bad_none (s : State) (sp : Nat) (us : List MemUnit) (h : ∀ u ∈ us, LocalInside s sp u.va u.n) : scratchBad s sp us = none := by
  rw [scratchBad, List.find?_eq_none]
  intro u hu
  have := h u hu
  unfold LocalInside at this
  cases hs : spdTarget s s.cur sp u.va.toNat u.n with
  | none => rw [hs] at this; cases this
  | some q => simp

theorem vectorUnits_mem (sh : MemShape) (al : Nat) (act : Mask) (addr : Nat → Word) (u : MemUnit) (h : u ∈ vectorUnits sh al act addr) :
    ∃ e < sh.cnt, act.getLsbD (laneOfElem sh.cnt e) = true ∧ u = ⟨laneOfElem sh.cnt e, e, alignDown (addr e) al, sh.n⟩ := by
  rw [vectorUnits, List.mem_filterMap] at h
  obtain ⟨e, he, h⟩ := h
  split at h
  · rename_i ha; cases h; exact ⟨e, List.mem_range.mp he, ha, rfl⟩
  · cases h

/-- A vector load from the scratchpads in its bounds. -/
theorem localVectorLoad (f : FmtM) (sh : MemShape) (al : Nat) (addr addr' : Nat → Word) (s : State) (hs : f.space ≠ 0) (he : s.softErrs = [])
    (ha : ∀ e < sh.cnt, (activeMask s.cur f.pm f.pi).getLsbD (e * 128 / sh.cnt) = true → alignDown (addr e) al = addr' e)
    (hg : GroupOk f.d sh.cnt sh.wd) (h64 : sh.wd ≤ 64) (hsg : sh.wd ≤ 8 * sh.n → sh.sgn = false ∨ 8 * sh.n = sh.wd)
    (hin : ∀ e < sh.cnt, (activeMask s.cur f.pm f.pi).getLsbD (e * 128 / sh.cnt) = true → LocalInside s f.space.toNat (addr' e) sh.n)
    (o : Out) (ho : o = loadUnits f true sh (vectorUnits sh al (activeMask s.cur f.pm f.pi) addr) s) :
    ∃ t, o = .next t ∧ VectorWrite s t f.d sh.cnt sh.wd (fun e => (activeMask s.cur f.pm f.pi).getLsbD (e * 128 / sh.cnt)) fun e =>
      widened sh.wd sh.sgn (localValue s f.space.toNat (addr' e) sh.n) := by
  subst ho
  have hb : scratchBad s f.space.toNat (vectorUnits sh al (activeMask s.cur f.pm f.pi) addr) = none := by
    apply bad_none
    intro u hu
    obtain ⟨e, he2, hact, rfl⟩ := vectorUnits_mem _ _ _ _ _ hu
    dsimp only
    rw [ha e he2 hact]
    exact hin e he2 hact
  rw [localLoad f true sh _ s hs he hb, applyPending_v _ _ rfl rfl]
  obtain ⟨v, hv⟩ := landV_frame s.cur (loadOwed f true sh ((vectorUnits sh al (activeMask s.cur f.pm f.pi) addr).map fun u => (u.elem, scratchGet s f.space.toNat u)) [] s.cur).vw
  rw [hv]
  refine ⟨_, rfl, rfl, ?_⟩
  have hgr := landV_group f.d sh.cnt sh.wd _ _ s.cur hg v hv
  refine ⟨fun e he2 => ?_, fun k hk hk2 => hgr.2 k hk hk2⟩
  have h1 := hgr.1 e he2
  rw [srcElem_of_v (retire { s.cur with v := v }) { s.cur with v := v } _ _ _ _ rfl, h1]
  have htg := tblGet_units sh.cnt (fun e => (activeMask s.cur f.pm f.pi).getLsbD (laneOfElem sh.cnt e)) (fun e => ⟨laneOfElem sh.cnt e, e, alignDown (addr e) al, sh.n⟩) (fun _ => rfl) (scratchGet s f.space.toNat) e
  have hv2 : tblGet (if 8 * sh.n < sh.wd then ((vectorUnits sh al (activeMask s.cur f.pm f.pi) addr).map fun u => (u.elem, scratchGet s f.space.toNat u)).map fun q => (q.1, (extendTo64 (8 * sh.n) sh.sgn q.2).toNat)
      else ((vectorUnits sh al (activeMask s.cur f.pm f.pi) addr).map fun u => (u.elem, scratchGet s f.space.toNat u))) e =
      if (activeMask s.cur f.pm f.pi).getLsbD (e * 128 / sh.cnt) = true then some (if 8 * sh.n < sh.wd then (extendTo64 (8 * sh.n) sh.sgn (scratchGet s f.space.toNat ⟨laneOfElem sh.cnt e, e, alignDown (addr e) al, sh.n⟩)).toNat
        else scratchGet s f.space.toNat ⟨laneOfElem sh.cnt e, e, alignDown (addr e) al, sh.n⟩) else none := by
    have htg' : tblGet ((vectorUnits sh al (activeMask s.cur f.pm f.pi) addr).map fun u => (u.elem, scratchGet s f.space.toNat u)) e =
       if (activeMask s.cur f.pm f.pi).getLsbD (e * 128 / sh.cnt) = true then some (scratchGet s f.space.toNat ⟨laneOfElem sh.cnt e, e, alignDown (addr e) al, sh.n⟩) else none := by
      refine Eq.trans htg ?_
      simp only [he2, true_and]
      rfl
    by_cases hw : 8 * sh.n < sh.wd
    · simp only [if_pos hw]
      rw [tblGet_map _ (fun x => (extendTo64 (8 * sh.n) sh.sgn x).toNat), htg']
      split <;> rfl
    · simp only [if_neg hw]
      exact htg'
  simp only [tblGetD, hv2]
  by_cases hact : (activeMask s.cur f.pm f.pi).getLsbD (e * 128 / sh.cnt) = true
  · simp only [if_pos hact, Option.isSome_some, Option.getD_some, if_true]
    rw [widened_elem _ _ _ _ h64 hsg]
    have := scratchGet_value s f.space.toNat ⟨laneOfElem sh.cnt e, e, alignDown (addr e) al, sh.n⟩ (by dsimp only; rw [ha e he2 hact]; exact hin e he2 hact)
    dsimp only at this
    rw [this, ha e he2 hact]
  · simp only [if_neg hact]
    rfl

theorem active_number (w : Warp) (f : FmtM) (cnt e : Nat) (hc : e * 128 / cnt = e / (cnt / 128)) (h : (activeMask w f.pm f.pi).getLsbD (e * 128 / cnt) = true) :
    armElem w cnt e = numberOfElt w cnt e := by
  obtain ⟨p, hp, -⟩ := active_pos w { ty := 0, d := 0, a := 0, b := 0, c := 0, mod := 0, ty2 := 0, rnd := 0, bx := 0, pm := f.pm, pi := f.pi } cnt e h
  rw [hc] at hp
  rw [armElem, numberOfElt, hp]
  rfl

theorem groupOk_pair (d : BitVec 6) (h : d.toNat % 2 = 0) : GroupOk d 128 64 := by
  have := d.isLt
  refine ⟨by decide, fun e h => ?_, ?_⟩ <;> simp [groupSize] <;> omega

theorem elemBytes_width : ∀ t : BitVec 4, tyWidth t ≠ 4 → 8 * elemBytes t = tyWidth t ∧ tyWidth t ≤ 64 := by decide

theorem elemBytes_all : ∀ t : BitVec 4, tyWidth t ≤ 8 * elemBytes t ∧ tyWidth t ≤ 64 := by decide

theorem count_div : ∀ t : BitVec 4, elemCount t = 128 * (elemCount t / 128) ∧ 0 < elemCount t / 128 := by decide

theorem lvl (f : FmtM) (n cnt wd : Nat) (sgn : Bool) (al : Nat) (addr addr' : Nat → Word) (s : State) (hs : f.space ≠ 0) (he : s.softErrs = [])
    (ha : ∀ e < cnt, (activeMask s.cur f.pm f.pi).getLsbD (e * 128 / cnt) = true → alignDown (addr e) al = addr' e)
    (hg : GroupOk f.d cnt wd) (h64 : wd ≤ 64) (hsg : wd ≤ 8 * n → sgn = false ∨ 8 * n = wd)
    (hin : ∀ e < cnt, (activeMask s.cur f.pm f.pi).getLsbD (e * 128 / cnt) = true → LocalInside s f.space.toNat (addr' e) n)
    (o : Out) (ho : o = loadUnits f true ⟨n, cnt, wd, sgn⟩ (vectorUnits ⟨n, cnt, wd, sgn⟩ al (activeMask s.cur f.pm f.pi) addr) s) :
    ∃ t, o = .next t ∧ VectorWrite s t f.d cnt wd (fun e => (activeMask s.cur f.pm f.pi).getLsbD (e * 128 / cnt)) fun e =>
      widened wd sgn (localValue s f.space.toNat (addr' e) n) := localVectorLoad f ⟨n, cnt, wd, sgn⟩ al addr addr' s hs he ha hg h64 hsg hin o ho

theorem tblGet_set {α : Type} (t : Tbl α) (j : Nat) (b : α) (k : Nat) : tblGet (tblSet t j b) k = if k = j then some b else tblGet t k := by
  induction t with
  | nil =>
    simp only [tblSet, tblGet]
    by_cases h : j = k
    · subst h; simp
    · rw [if_neg h, if_neg (Ne.symm h)]
  | cons p t ih =>
    obtain ⟨i, a⟩ := p
    rw [tblSet]
    split
    · rw [tblGet]
      by_cases h : j = k
      · subst h; simp
      · rw [if_neg h, if_neg (Ne.symm h)]
    · split
      · rename_i h2; subst h2
        rw [tblGet, tblGet]
        by_cases h : j = k
        · subst h; simp
        · rw [if_neg h, if_neg (Ne.symm h), if_neg h]
      · rw [tblGet, tblGet, ih]
        by_cases h : i = k
        · subst h; rw [if_pos rfl, if_pos rfl, if_neg (by omega)]
        · rw [if_neg h, if_neg h]

theorem spdWrite_fields (t : Team) (o : Nat) (bs : List Byte) : ∃ m, spdWrite t o bs = { t with scratch := m } := by
  induction bs generalizing t o with
  | nil => exact ⟨t.scratch, rfl⟩
  | cons b bs ih =>
    obtain ⟨m, hm⟩ := ih { t with scratch := tblSet t.scratch o b } (o + 1)
    exact ⟨m, hm⟩

theorem spdByte_write (t : Team) (o off : Nat) (bs : List Byte) : spdByte (spdWrite t o bs) off =
    if h : o ≤ off ∧ off < o + bs.length then bs[off - o]'(by omega) else spdByte t off := by
  induction bs generalizing t o with
  | nil => rw [spdWrite, dif_neg]; simp
  | cons b bs ih =>
    rw [spdWrite, ih]
    simp only [List.length_cons]
    by_cases h : o + 1 ≤ off ∧ off < o + 1 + bs.length
    · rw [dif_pos h, dif_pos ⟨by omega, by omega⟩]
      rw [List.getElem_cons, dif_neg (by omega)]
      congr 1
    · rw [dif_neg h]
      by_cases h2 : off = o
      · subst h2
        rw [dif_pos ⟨le_refl _, by omega⟩, spdByte]
        dsimp only
        rw [tblGet_set, if_pos rfl]
        simp
      · rw [dif_neg (by omega), spdByte, spdByte]
        dsimp only
        rw [tblGet_set, if_neg h2]

theorem findTeam_onTeam (s : State) (id j : Nat) (f : Team → Team) (hf : ∀ t, (f t).id = t.id) :
    (s.onTeam id f).findTeam j = (s.findTeam j).map fun t => if t.id == id then f t else t := by
  unfold State.onTeam State.findTeam
  rw [List.find?_map]
  congr 1
  congr 1
  funext t
  simp only [Function.comp]
  split
  · rw [hf]
  · rfl

/-- Teams alike but for their scratchpads and what is kept of the stores to them. -/
def alike (a b : List Team) : Prop := (a.map fun x => { x with scratch := [], loose := .empty }) = (b.map fun x => { x with scratch := [], loose := .empty })

theorem find_alike (p : Team → Bool) (hp : ∀ t m l, p { t with scratch := m, loose := l } = p t) : ∀ a b : List Team, alike a b →
    (a.find? p).map (fun x => { x with scratch := [], loose := .empty }) = (b.find? p).map fun x => { x with scratch := [], loose := .empty } := by
  intro a
  induction a with
  | nil => intro b h; cases b with
    | nil => rfl
    | cons y b => simp [alike] at h
  | cons x a ih => intro b h; cases b with
    | nil => simp [alike] at h
    | cons y b =>
      unfold alike at h
      rw [List.map_cons, List.map_cons, List.cons.injEq] at h
      have hxy : p x = p y := by rw [← hp x [] .empty, ← hp y [] .empty, h.1]
      rw [List.find?_cons, List.find?_cons, hxy]
      cases p y
      · exact ih b h.2
      · simp [h.1]

theorem spdTarget_alike (s t : State) (h1 : t.cur = s.cur) (h2 : alike t.teams s.teams) (sp a n : Nat) : spdTarget t t.cur sp a n = spdTarget s s.cur sp a n := by
  have hF : ∀ j, (t.findTeam j).map (fun x => { x with scratch := [], loose := .empty }) = (s.findTeam j).map fun x => { x with scratch := [], loose := .empty } :=
    fun j => find_alike _ (fun _ _ _ => rfl) _ _ h2
  have hC : ∀ c r, (t.clusterTeam c r).map (fun x => { x with scratch := [], loose := .empty }) = (s.clusterTeam c r).map fun x => { x with scratch := [], loose := .empty } :=
    fun c r => find_alike _ (fun _ _ _ => rfl) _ _ h2
  unfold spdTarget
  rw [h1]
  have hw := hF s.cur.team
  cases ht : t.findTeam s.cur.team with
  | none => cases hs : s.findTeam s.cur.team with
    | none => rfl
    | some y => rw [ht, hs] at hw; cases hw
  | some x => cases hs : s.findTeam s.cur.team with
    | none => rw [ht, hs] at hw; cases hw
    | some y =>
      rw [ht, hs] at hw
      simp only [Option.map_some, Option.some.injEq] at hw
      have e1 : x.kernel = y.kernel := by have := congrArg Team.kernel hw; exact this
      have e2 : x.id = y.id := by have := congrArg Team.id hw; exact this
      have e3 : x.cluster = y.cluster := by have := congrArg Team.cluster hw; exact this
      dsimp only
      rw [e1, e2, e3]
      have hc := hC y.cluster (a / 2 ^ 22)
      cases hu : t.clusterTeam y.cluster (a / 2 ^ 22) with
      | none => cases hv : s.clusterTeam y.cluster (a / 2 ^ 22) with
        | none => rfl
        | some v => rw [hu, hv] at hc; cases hc
      | some u => cases hv : s.clusterTeam y.cluster (a / 2 ^ 22) with
        | none => rw [hu, hv] at hc; cases hc
        | some v =>
          rw [hu, hv] at hc
          simp only [Option.map_some, Option.some.injEq] at hc
          have f1 : u.kernel = v.kernel := by have := congrArg Team.kernel hc; exact this
          have f2 : u.id = v.id := by have := congrArg Team.id hc; exact this
          dsimp only
          rw [f1, f2]

theorem toBytes_get (v n k : Nat) (h : k < (toBytes v n).length) : (toBytes v n)[k] = BitVec.ofNat 8 (v / 256 ^ k) := by
  induction n generalizing v k with
  | zero => simp [toBytes] at h
  | succ n ih =>
    cases k with
    | zero => simp [toBytes]
    | succ k =>
      simp only [toBytes, List.getElem_cons_succ]
      rw [ih]
      rw [pow_succ, Nat.mul_comm, Nat.div_div_eq_div_mul]

theorem toBytes_len (v n : Nat) : (toBytes v n).length = n := by
  induction n generalizing v with
  | zero => rfl
  | succ n ih => simp [toBytes, ih]

theorem scratchAt_of (s : State) (id off : Nat) (t : Team) (h : s.findTeam id = some t) : scratchAt s id off = spdByte t off := by
  rw [scratchAt, h]; rfl

/-- One unit stored. -/
theorem scratchPut_spec (s : State) (sp : Nat) (u : MemUnit) (v : Nat) (hin : LocalInside s sp u.va u.n) :
    (scratchPut s sp u v).cur = s.cur ∧ alike (scratchPut s sp u v).teams s.teams ∧
    (∃ teams softErrs, scratchPut s sp u v = { s with
      teams := teams
      softErrs := softErrs } ∧ ∀ x ∈ softErrs, x ∈ s.softErrs) ∧
    ∀ id off, ((∀ k, ¬ LocalCovers s sp u.va u.n id off k) → scratchAt (scratchPut s sp u v) id off = scratchAt s id off) ∧
      ∀ k, LocalCovers s sp u.va u.n id off k → (s.findTeam id).isSome = true → scratchAt (scratchPut s sp u v) id off = BitVec.ofNat 8 (v / 256 ^ k) := by
  unfold LocalInside at hin
  cases hs : spdTarget s s.cur sp u.va.toNat u.n with
  | none => rw [hs] at hin; cases hin
  | some q =>
    obtain ⟨i, o⟩ := q
    let g := fun t : Team => spdWrite (markLoose t (.warp (warpId s.cur)) o u.n) o (toBytes v u.n)
    have e : scratchPut s sp u v = { s.onTeam i g with
        softErrs := s.softErrs.filter fun e => !(((dwordsOf o u.n).map (ErrSite.scratch i)).contains e) } := by
      unfold scratchPut scratchPlace
      rw [hs]
      rfl
    have hg : ∀ t : Team, ∃ m l, g t = { t with scratch := m, loose := l } := by
      intro t; obtain ⟨m, hm⟩ := spdWrite_fields (markLoose t (.warp (warpId s.cur)) o u.n) o (toBytes v u.n); exact ⟨m, _, hm⟩
    have hid : ∀ t : Team, (g t).id = t.id := by
      intro t; obtain ⟨m, l, hm⟩ := hg t; rw [hm]
    have hb : ∀ (t : Team) off, spdByte (g t) off = if h : o ≤ off ∧ off < o + (toBytes v u.n).length then (toBytes v u.n)[off - o]'(by omega) else spdByte t off :=
      fun t off => spdByte_write (markLoose t (.warp (warpId s.cur)) o u.n) o off (toBytes v u.n)
    have hat : ∀ id off, scratchAt (scratchPut s sp u v) id off = (((s.onTeam i g).findTeam id).map fun t => spdByte t off).getD 0 := by
      intro id off; rw [e]; rfl
    refine ⟨by rw [e]; rfl, ?_, ⟨_, _, by rw [e]; rfl, ?_⟩, fun id off => ⟨fun hk => ?_, fun k hk hsome => ?_⟩⟩
    · rw [e, alike]
      show List.map _ (List.map _ s.teams) = _
      rw [List.map_map]
      apply List.map_congr_left
      intro t _
      simp only [Function.comp]
      split
      · obtain ⟨m, l, hm⟩ := hg t; rw [hm]
      · rfl
    · intro x hx; exact (List.mem_filter.mp hx).1
    · rw [hat, findTeam_onTeam _ _ _ _ hid, scratchAt]
      cases ht : s.findTeam id with
      | none => rfl
      | some t =>
        simp only [Option.map_some, Option.getD_some]
        split
        · rename_i hti
          have hti : t.id = i := by simpa using hti
          have hid2 : t.id = id := by
            have := List.find?_some ht; simpa using this
          rw [hb, dif_neg]
          rintro ⟨h1, h2⟩
          rw [toBytes_len] at h2
          exact hk (off - o) ⟨by omega, o, by rw [hs, ← hid2, hti], by omega⟩
        · rfl
    · obtain ⟨hkn, o', ho', hok⟩ := hk
      rw [hs, Option.some.injEq, Prod.mk.injEq] at ho'
      obtain ⟨rfl, rfl⟩ := ho'
      rw [hat, findTeam_onTeam _ _ _ _ hid]
      cases ht : s.findTeam i with
      | none => rw [ht] at hsome; cases hsome
      | some t =>
        have hid2 : t.id = i := by
          have := List.find?_some ht; simpa using this
        simp only [Option.map_some, Option.getD_some, hid2, beq_self_eq_true, if_true]
        rw [hb, dif_pos ⟨by omega, by rw [toBytes_len]; omega⟩, toBytes_get]
        congr 3
        omega

/-- A target's team exists. -/
theorem target_found (s : State) (w : Warp) (sp a n id o : Nat) (h : spdTarget s w sp a n = some (id, o)) : (s.findTeam id).isSome = true := by
  have key : ∀ t ∈ s.teams, (s.findTeam t.id).isSome = true := by
    intro t ht
    rw [State.findTeam, List.find?_isSome]
    exact ⟨t, ht, by simp⟩
  unfold spdTarget at h
  cases ht : s.findTeam w.team with
  | none => rw [ht] at h; cases h
  | some t =>
    rw [ht] at h
    dsimp only at h
    have h1 := key t (List.mem_of_find?_eq_some ht)
    split at h
    · split at h
      · cases h; exact h1
      · cases h
    · split at h
      · cases h
      · cases hu : s.clusterTeam t.cluster (a / 2 ^ 22) with
        | none => rw [hu] at h; cases h
        | some x =>
          rw [hu] at h
          dsimp only at h
          have h2 := key x (List.mem_of_find?_eq_some hu)
          split at h
          · cases h; exact h2
          · cases h

theorem found_alike (s t : State) (h2 : alike t.teams s.teams) (id : Nat) : (t.findTeam id).isSome = (s.findTeam id).isSome := by
  have hF := find_alike (fun x => x.id == id) (fun _ _ _ => rfl) _ _ h2
  have := congrArg Option.isSome hF
  rw [Option.isSome_map, Option.isSome_map] at this
  exact this

/-- Units stored one after another. -/
theorem scratchPuts_spec (sp : Nat) (val : MemUnit → Nat) (us : List MemUnit) : ∀ s : State, (∀ u ∈ us, LocalInside s sp u.va u.n) →
    let t := us.foldl (fun s u => scratchPut s sp u (val u)) s
    t.cur = s.cur ∧ alike t.teams s.teams ∧ (∃ teams softErrs, t = { s with
      teams := teams
      softErrs := softErrs } ∧ ∀ x ∈ softErrs, x ∈ s.softErrs) ∧
    ∀ id off, ((∀ u ∈ us, ∀ k, ¬ LocalCovers s sp u.va u.n id off k) → scratchAt t id off = scratchAt s id off) ∧
      ((∃ u ∈ us, ∃ k, LocalCovers s sp u.va u.n id off k) →
        ∃ u ∈ us, ∃ k, LocalCovers s sp u.va u.n id off k ∧ scratchAt t id off = BitVec.ofNat 8 (val u / 256 ^ k)) := by
  induction us with
  | nil => intro s _; exact ⟨rfl, rfl, ⟨s.teams, s.softErrs, rfl, fun _ h => h⟩, fun id off => ⟨fun _ => rfl, fun h => by obtain ⟨u, hu, -⟩ := h; cases hu⟩⟩
  | cons u us ih =>
    intro s hin
    obtain ⟨p1, p2, ⟨tm, se, p3, p3'⟩, p4⟩ := scratchPut_spec s sp u (val u) (hin u (List.mem_cons_self ..))
    have hcov : ∀ a n id off k, LocalCovers (scratchPut s sp u (val u)) sp a n id off k ↔ LocalCovers s sp a n id off k := by
      intro a n id off k
      unfold LocalCovers
      rw [spdTarget_alike s (scratchPut s sp u (val u)) p1 p2]
    have hin' : ∀ x ∈ us, LocalInside (scratchPut s sp u (val u)) sp x.va x.n := by
      intro x hx
      have := hin x (List.mem_cons_of_mem _ hx)
      unfold LocalInside at this ⊢
      rw [spdTarget_alike s (scratchPut s sp u (val u)) p1 p2]
      exact this
    obtain ⟨q1, q2, ⟨tm2, se2, q3, q3'⟩, q4⟩ := ih _ hin'
    simp only [hcov] at q4
    dsimp only [List.foldl_cons] at q1 q2 q3 q3' q4 ⊢
    refine ⟨q1.trans p1, q2.trans p2, ⟨tm2, se2, by rw [q3, p3], fun x hx => ?_⟩, fun id off => ⟨fun h => ?_, fun h => ?_⟩⟩
    · have h1 := q3' x hx
      rw [p3] at h1
      exact p3' x h1
    · rw [(q4 id off).1 (fun x hx => h x (List.mem_cons_of_mem _ hx)), (p4 id off).1 (h u (List.mem_cons_self ..))]
    · by_cases hr : ∃ x ∈ us, ∃ k, LocalCovers s sp x.va x.n id off k
      · obtain ⟨x, hx, k, hk, e⟩ := (q4 id off).2 hr
        exact ⟨x, List.mem_cons_of_mem _ hx, k, hk, e⟩
      · obtain ⟨x, hx, k, hk⟩ := h
        rcases List.mem_cons.mp hx with rfl | hx
        · refine ⟨x, List.mem_cons_self .., k, hk, ?_⟩
          rw [(q4 id off).1 (fun y hy j hj => hr ⟨y, hy, j, hj⟩)]
          obtain ⟨hkn, o, ho, hok⟩ := hk
          exact (p4 id off).2 k ⟨hkn, o, ho, hok⟩ (target_found _ _ _ _ _ _ _ ho)
        · exact absurd ⟨x, hx, k, hk⟩ hr

theorem shuffled_spec {α : Type} (l : List α) : ∀ s : State, (∃ k, (shuffled s l).1 = { s with freeCtr := k }) ∧ (shuffled s l).2.Perm l := by
  induction l with
  | nil => intro s; exact ⟨⟨s.freeCtr, rfl⟩, List.Perm.refl _⟩
  | cons a l ih =>
    intro s
    obtain ⟨⟨k, hk⟩, hp⟩ := ih s
    rw [shuffled]
    refine ⟨⟨k + 1, ?_⟩, ?_⟩
    · dsimp only [State.choose]; rw [hk]
    · dsimp only
      refine List.Perm.trans List.perm_middle (List.Perm.cons a ?_)
      rw [List.take_append_drop]
      exact hp

theorem byte_of (m v k : Nat) (hk : 8 * k + 8 ≤ m) : BitVec.ofNat 8 (v / 256 ^ k) = (BitVec.ofNat m v).extractLsb' (8 * k) 8 := by
  apply BitVec.eq_of_toNat_eq
  rw [BitVec.extractLsb'_toNat, BitVec.toNat_ofNat, BitVec.toNat_ofNat]
  apply Nat.eq_of_testBit_eq
  intro i
  rw [show (256:Nat) ^ k = 2 ^ (8 * k) by rw [pow_mul]; norm_num, ← Nat.shiftRight_eq_div_pow, Nat.testBit_mod_two_pow, Nat.testBit_mod_two_pow, Nat.testBit_shiftRight,
    Nat.testBit_shiftRight, Nat.testBit_mod_two_pow]
  by_cases h : i < 8
  · simp [show 8 * k + i < m by omega]
  · simp [h]

/-- Stores to the scratchpads in their bounds. -/
theorem localStore (f : FmtM) (vector : Bool) (us : List MemUnit) (val : Nat → Nat) (s : State) (hs : f.space ≠ 0) (n cnt : Nat) (act : Nat → Bool) (addr : Nat → Word)
    (hin : ∀ e < cnt, act e = true → LocalInside s f.space.toNat (addr e) n)
    (hus : ∀ u, u ∈ us ↔ ∃ e < cnt, act e = true ∧ u.elem = e ∧ u.va = addr e ∧ u.n = n ∧ u ∈ us)
    (hex : ∀ e < cnt, act e = true → ∃ u ∈ us, u.elem = e ∧ u.va = addr e ∧ u.n = n) (v : Nat → BitVec (8 * n)) (hv : ∀ e < cnt, act e = true → BitVec.ofNat (8 * n) (val e) = v e)
    (o : Out) (ho : o = storeUnits f vector us val s) : ∃ t, o = .next t ∧ LocalStores s t f.space.toNat n cnt act addr v := by
  subst ho
  have hinu : ∀ u ∈ us, LocalInside s f.space.toNat u.va u.n := by
    intro u hu
    obtain ⟨e, he, ha, -, h2, h3, -⟩ := (hus u).1 hu
    rw [h2, h3]; exact hin e he ha
  have core : ∀ (s1 : State) (us1 : List MemUnit), (∃ k, s1 = { s with freeCtr := k }) → us1.Perm us →
      LocalStores s { (us1.foldl (fun s u => scratchPut s f.space.toNat u (val u.elem)) s1) with cur := retire (us1.foldl (fun s u => scratchPut s f.space.toNat u (val u.elem)) s1).cur }
        f.space.toNat n cnt act addr v := by
    rintro s1 us1 ⟨k, rfl⟩ hp
    have hin1 : ∀ u ∈ us1, LocalInside { s with freeCtr := k } f.space.toNat u.va u.n := fun u hu => hinu u (hp.mem_iff.mp hu)
    obtain ⟨q1, q2, ⟨tm, se, q3, q3'⟩, q4⟩ := scratchPuts_spec f.space.toNat (fun u => val u.elem) us1 _ hin1
    generalize us1.foldl (fun s u => scratchPut s f.space.toNat u (val u.elem)) { s with freeCtr := k } = t at *
    refine ⟨⟨tm, se, k, ?_, q3'⟩, q2, fun id off => ⟨fun h => ?_, fun h => ?_⟩⟩
    · rw [q1, q3]
    · have := (q4 id off).1 (fun u hu j hc => by
        obtain ⟨e, he, ha, -, h2, h3, -⟩ := (hus u).1 (hp.mem_iff.mp hu)
        rw [h2, h3] at hc
        exact h e he ha j hc)
      exact this
    · obtain ⟨e, he, ha, j, hc⟩ := h
      obtain ⟨u, hu, h1, h2, h3⟩ := hex e he ha
      obtain ⟨u', hu', j', hc', hb⟩ := (q4 id off).2 ⟨u, hp.mem_iff.mpr hu, j, by rw [h2, h3]; exact hc⟩
      obtain ⟨e', he', ha', h1', h2', h3', -⟩ := (hus u').1 (hp.mem_iff.mp hu')
      refine ⟨e', he', ha', j', by rw [h2', h3'] at hc'; exact hc', ?_⟩
      have hjn : j' < n := by rw [h3'] at hc'; exact hc'.1
      refine Eq.trans hb ?_
      rw [h1', ← hv e' he' ha', byte_of (8 * n) _ _ (by omega)]
  unfold storeUnits
  rw [if_pos hs, bad_none _ _ _ hinu]
  dsimp only
  by_cases hc : collides (us.map fun u => u.va.toNat) = true
  · rw [if_pos hc]
    obtain ⟨hk, hp⟩ := shuffled_spec us s
    exact ⟨_, rfl, core _ _ hk hp⟩
  · rw [if_neg hc]
    exact ⟨_, rfl, core s us ⟨s.freeCtr, rfl⟩ (List.Perm.refl _)⟩

/-- A vector store to the scratchpads. -/
theorem localVectorStore (f : FmtM) (n cnt wd : Nat) (sg : Bool) (al : Nat) (addr addr' : Nat → Word) (val : Nat → Nat) (v : Nat → BitVec (8 * n)) (s : State) (hs : f.space ≠ 0)
    (ha : ∀ e < cnt, (activeMask s.cur f.pm f.pi).getLsbD (e * 128 / cnt) = true → alignDown (addr e) al = addr' e)
    (hin : ∀ e < cnt, (activeMask s.cur f.pm f.pi).getLsbD (e * 128 / cnt) = true → LocalInside s f.space.toNat (addr' e) n)
    (hv : ∀ e < cnt, BitVec.ofNat (8 * n) (val e) = v e)
    (o : Out) (ho : o = storeUnits f true (vectorUnits ⟨n, cnt, wd, sg⟩ al (activeMask s.cur f.pm f.pi) addr) val s) :
    ∃ t, o = .next t ∧ LocalStores s t f.space.toNat n cnt (fun e => (activeMask s.cur f.pm f.pi).getLsbD (e * 128 / cnt)) addr' v := by
  refine localStore f true _ val s hs n cnt _ addr' hin (fun u => ?_) (fun e he hact => ?_) v (fun e he _ => hv e he) o ho
  · constructor
    · intro hu
      obtain ⟨e, he2, hact, rfl⟩ := vectorUnits_mem _ _ _ _ _ hu
      exact ⟨e, he2, hact, rfl, ha e he2 hact, rfl, hu⟩
    · rintro ⟨-, -, -, -, -, -, h⟩; exact h
  · refine ⟨⟨laneOfElem cnt e, e, alignDown (addr e) al, n⟩, ?_, rfl, ha e he hact, rfl⟩
    rw [vectorUnits, List.mem_filterMap]
    refine ⟨e, List.mem_range.mpr he, ?_⟩
    rw [if_pos]
    exact hact

theorem setWidth_ofNat (a b x : Nat) (h : b ≤ a) : (BitVec.ofNat a x).setWidth b = BitVec.ofNat b x := by
  apply BitVec.eq_of_toNat_eq
  simp only [BitVec.toNat_setWidth, BitVec.toNat_ofNat]
  exact Nat.mod_mod_of_dvd _ (Nat.pow_dvd_pow 2 h)

theorem elemBytes_le : ∀ t : BitVec 4, tyWidth t ≠ 64 → 8 * elemBytes t ≤ 32 := by decide

theorem elemBytes_64 : ∀ t : BitVec 4, tyWidth t = 64 → elemBytes t = 8 ∧ elemCount t = 128 := by decide

theorem srcElem_ext (w : Warp) (r : BitVec 6) (n wd m e : Nat) (h : wd ≤ m) : BitVec.ofNat m (srcElem w r n wd e) = (BitVec.ofNat wd (srcElem w r n wd e)).setWidth m := by
  apply BitVec.eq_of_toNat_eq
  simp only [BitVec.toNat_setWidth, BitVec.toNat_ofNat]
  rw [Nat.mod_eq_of_lt (srcElem_lt _ _ _ _ _)]

end Sys2Proof.Machine
end

