-- ==== Sys2Proof/Laws/Pool.lean ====
section
/-! SUPPORT. Lemmas of reads of the pool: what a read leaves as it was, and what a unit of a load sees. -/

set_option Elab.async false

namespace Sys2Proof.Machine

open Sys2Proof Sys2Proof.Claims

theorem onCore_coreAt (s : State) (d d' : Fin 2) (c c' : Fin 24) (f : Core → Core) :
    (s.onCore d c f).coreAt d' c' = if d = d' ∧ c = c' then f (s.coreAt d' c') else s.coreAt d' c' := by
  unfold State.onCore State.coreAt State.onDie State.die
  by_cases hd : d = d'
  · subst hd
    have e1 : (s.dies.set d { s.dies[d] with cores := s.dies[d].cores.set c (f s.dies[d].cores[c]) })[d] = { s.dies[d] with cores := s.dies[d].cores.set c (f s.dies[d].cores[c]) } :=
      Vector.getElem_set_self ..
    rw [e1]
    by_cases hc : c = c'
    · subst hc
      rw [if_pos ⟨rfl, rfl⟩]
      exact Vector.getElem_set_self ..
    · rw [if_neg (fun h => hc h.2)]
      have e2 : (s.dies[d].cores.set c (f s.dies[d].cores[c]))[c'] = s.dies[d].cores[c'] := Vector.getElem_set_ne _ _ (by omega)
      exact e2
  · rw [if_neg (fun h => hd h.1)]
    have e1 : (s.dies.set d { s.dies[d] with cores := s.dies[d].cores.set c (f s.dies[d].cores[c]) })[d'] = s.dies[d'] :=
      Vector.getElem_set_ne _ _ (by omega)
    rw [e1]

/-- A state that differs in dies and directory alone and sees the same bytes. -/
def SeesAlike (s t : State) : Prop := (∃ dies dir, t = { s with
    dies := dies
    dir := dir }) ∧ ∀ ph n, seenBytes t ph n = seenBytes s ph n

theorem SeesAlike.refl (s : State) : SeesAlike s s := ⟨⟨s.dies, s.dir, rfl⟩, fun _ _ => rfl⟩

theorem SeesAlike.trans {s t u : State} (h1 : SeesAlike s t) (h2 : SeesAlike t u) : SeesAlike s u := by
  obtain ⟨⟨a, b, rfl⟩, h1⟩ := h1
  obtain ⟨⟨c, d, rfl⟩, h2⟩ := h2
  exact ⟨⟨c, d, rfl⟩, fun ph n => (h2 ph n).trans (h1 ph n)⟩

theorem seenBytes_l1 (s t : State) (h1 : t.cur = s.cur) (h2 : t.mem = s.mem)
    (h3 : ∀ d c, (t.coreAt d c).l1 = (s.coreAt d c).l1) (ph : Phys) (n : Nat) : seenBytes t ph n = seenBytes s ph n := by
  have h : ∀ d c k sec, seenSector t d c k sec = seenSector s d c k sec := by
    intro d c k sec; unfold seenSector; rw [h3, h2]
  unfold seenBytes
  simp only [h1, h2, h]

theorem coreAt_onDie (s : State) (d : Fin 2) (g : Die → Die) (hg : ∀ x, (g x).cores = x.cores) (d' : Fin 2) (c : Fin 24) : (s.onDie d g).coreAt d' c = s.coreAt d' c := by
  unfold State.coreAt
  by_cases h : d = d'
  · subst h; rw [onDie_die, hg]
  · rw [onDie_die_ne _ _ _ _ h]

theorem sees_onDie (s : State) (d : Fin 2) (g : Die → Die) (hg : ∀ x, (g x).cores = x.cores) : SeesAlike s (s.onDie d g) :=
  ⟨⟨_, s.dir, rfl⟩, seenBytes_l1 _ _ rfl rfl fun d' c => by rw [coreAt_onDie _ _ _ hg]⟩

theorem sees_dir (s : State) (dir) : SeesAlike s { s with dir := dir } := ⟨⟨s.dies, dir, rfl⟩, fun _ _ => rfl⟩

theorem sees_quiet {s t : State} (h : Quiet s t) : SeesAlike s t :=
  ⟨h.1, seenBytes_l1 _ _ h.1.cur h.1.mem fun d c => by rw [h.coreAt]⟩

theorem sees_translate (s : State) (d : Fin 2) (ctx ppn : Nat) (va : Word) (acc : Access) : SeesAlike s (Machine.translate s d ctx ppn va acc).1 :=
  sees_quiet (quiet_translate ..)

theorem unfaulted_nil (l : List Reached) : unfaulted l [] = l := by
  simp [unfaulted]

theorem reachAll_units (acc : Access) (ok : Bool) (us : List MemUnit) : ∀ s, (reachAll s acc ok us).2.1.map Reached.u = us := by
  induction us with
  | nil => intro s; rfl
  | cons u us ih => intro s; simp only [reachAll, List.map_cons]; rw [ih]

theorem sees_foldl {α : Type} (f : State → α → State) (h : ∀ s a, SeesAlike s (f s a)) (l : List α) : ∀ s, SeesAlike s (l.foldl f s) := by
  induction l with
  | nil => intro s; exact .refl s
  | cons a l ih => intro s; exact (h s a).trans (ih _)

theorem sees_renew (s : State) (d : Fin 2) (sec lease : Nat) : SeesAlike s (renewLease s d sec lease).1 :=
  sees_onDie s d (fun x => { x with l2 := tblSet x.l2 sec ((l2Get (s.die d) sec).1, max (l2Get (s.die d) sec).2 ((s.die d).tc + lease)) }) (fun _ => rfl)

theorem SeesAlike.cur {s t : State} (h : SeesAlike s t) : t.cur = s.cur := by
  obtain ⟨⟨a, b, rfl⟩, -⟩ := h; rfl

theorem tblGet_mapped {α β : Type} (l : List α) (k : α → Nat) (v : α → β) (hn : (l.map k).Nodup) : ∀ a ∈ l, tblGet (l.map fun x => (k x, v x)) (k a) = some (v a) := by
  induction l with
  | nil => intro a h; cases h
  | cons b l ih =>
    intro a ha
    rw [List.map_cons, List.nodup_cons] at hn
    rw [List.map_cons, tblGet]
    rcases List.mem_cons.1 ha with rfl | ha
    · rw [if_pos rfl]
    · rw [if_neg fun he : k b = k a => hn.1 (by rw [he]; exact List.mem_map_of_mem ha)]
      exact ih hn.2 a ha

theorem vectorUnits_elems (sh : MemShape) (al : Nat) (act : Mask) (addr : Nat → Word) : ((vectorUnits sh al act addr).map MemUnit.elem).Nodup := by
  have h : (vectorUnits sh al act addr).map MemUnit.elem = (List.range sh.cnt).filter fun e => act.getLsbD (laneOfElem sh.cnt e) := by
    unfold vectorUnits
    induction List.range sh.cnt with
    | nil => rfl
    | cons e l ih =>
      rw [List.filterMap_cons, List.filter_cons]
      cases act.getLsbD (laneOfElem sh.cnt e)
      · simpa using ih
      · simpa using ih
  rw [h]
  exact List.Nodup.filter _ List.nodup_range

theorem Memory.get_write (m : Memory) (a c : Nat) (bs : List Byte) (h : Memory.wf m = true) :
    Memory.get (Memory.write m a bs) c = if h : a ≤ c ∧ c < a + bs.length then bs[c - a]'(by omega) else Memory.get m c := by
  induction bs generalizing m a with
  | nil => rw [dif_neg (by simp)]; rfl
  | cons b bs ih =>
    rw [Memory.write, ih _ _ (Memory.wf_put m a b h)]
    simp only [List.length_cons]
    by_cases h1 : a + 1 ≤ c ∧ c < a + 1 + bs.length
    · rw [dif_pos h1, dif_pos ⟨by omega, by omega⟩, List.getElem_cons, dif_neg (by omega)]
      congr 1
    · rw [dif_neg h1]
      by_cases h2 : c = a
      · subst h2
        rw [dif_pos ⟨le_refl _, by omega⟩, Memory.get_put_same m c b h]
        simp
      · rw [dif_neg (by omega), Memory.get_put_other m a c b h h2]

theorem takesOne_nil {α : Type} (x : α) : TakesOne x x [] := by simp [TakesOne]

theorem takesOne_trans {α : Type} {x y z : α} {l1 l2 : List α} (h1 : TakesOne x y l1) (h2 : TakesOne y z l2) : TakesOne x z (l1 ++ l2) := by
  unfold TakesOne at *
  by_cases h : l2 = []
  · subst h; rw [if_pos rfl] at h2; subst h2; rw [List.append_nil]; exact h1
  · rw [if_neg h] at h2
    rw [if_neg (by simp [h])]
    exact List.mem_append_right _ h2

theorem takesOne_perm {α : Type} {x y : α} {l1 l2 : List α} (h1 : TakesOne x y l1) (h2 : l1.Perm l2) : TakesOne x y l2 := by
  unfold TakesOne at *
  by_cases h : l1 = []
  · subst h; rw [List.nil_perm.1 h2]; exact h1
  · rw [if_neg h] at h1
    rw [if_neg (fun h3 => h (by rw [h3] at h2; exact List.perm_nil.1 h2))]
    exact h2.mem_iff.1 h1

/-- Memory after writes: in canonical form, each byte as `TakesOne` says. -/
def MemTakes (m m' : Memory) (ws : List (Phys × List Byte)) : Prop :=
  Memory.wf m = true → Memory.wf m' = true ∧ ∀ a, TakesOne (Memory.get m a) (Memory.get m' a) (bytesAt ws a)

theorem MemTakes.nil (m : Memory) : MemTakes m m [] := fun h => ⟨h, fun _ => takesOne_nil _⟩

theorem MemTakes.trans {a b c : Memory} {l1 l2 : List (Phys × List Byte)} (h1 : MemTakes a b l1) (h2 : MemTakes b c l2) :
    MemTakes a c (l1 ++ l2) := fun h =>
  ⟨(h2 (h1 h).1).1, fun x => by
    have := takesOne_trans ((h1 h).2 x) ((h2 (h1 h).1).2 x)
    unfold bytesAt at this ⊢
    rw [List.filterMap_append]; exact this⟩

theorem MemTakes.perm {a b : Memory} {l1 l2 : List (Phys × List Byte)} (h1 : MemTakes a b l1) (h2 : l1.Perm l2) : MemTakes a b l2 :=
  fun h => ⟨(h1 h).1, fun x => takesOne_perm ((h1 h).2 x) (h2.filterMap _)⟩

theorem MemTakes.write (m : Memory) (w : Phys × List Byte) : MemTakes m (m.write w.1.pa w.2) [w] := fun h => by
  refine ⟨Memory.wf_write _ _ _ h, fun a => ?_⟩
  unfold bytesAt TakesOne
  rw [Memory.get_write _ _ _ _ h]
  by_cases h1 : w.1.pa ≤ a ∧ a < w.1.pa + w.2.length
  · rw [dif_pos h1]
    have e : w.2[a - w.1.pa]? = some (w.2[a - w.1.pa]'(by omega)) := List.getElem?_eq_getElem _
    have e2 : (if a < w.1.pa then none else w.2[a - w.1.pa]?) = some (w.2[a - w.1.pa]'(by omega)) := by rw [if_neg (by omega), e]
    rw [List.filterMap_cons, e2]
    simp
  · rw [dif_neg h1]
    have e : (if a < w.1.pa then none else w.2[a - w.1.pa]?) = none := by
      split
      · rfl
      · exact List.getElem?_eq_none (by omega)
    rw [List.filterMap_cons, e]
    simp

theorem MemTakes.writes (ws : List (Phys × List Byte)) : ∀ m : Memory, MemTakes m (ws.foldl (fun m w => m.write w.1.pa w.2) m) ws := by
  induction ws with
  | nil => exact .nil
  | cons w ws ih => intro m; exact (MemTakes.write m w).trans (ih _)

/-- From `s` to `t` dies, directory and memory alone changed, memory by the writes. -/
def Stored (s t : State) (ws : List (Phys × List Byte)) : Prop :=
  (∃ dies dir mem, t = { s with
    dies := dies
    dir := dir
    mem := mem }) ∧ MemTakes s.mem t.mem ws

theorem Stored.refl (s : State) : Stored s s [] := ⟨⟨s.dies, s.dir, s.mem, rfl⟩, .nil _⟩

theorem Stored.trans {s t u : State} {l1 l2 : List (Phys × List Byte)} (h1 : Stored s t l1) (h2 : Stored t u l2) : Stored s u (l1 ++ l2) := by
  obtain ⟨⟨a, b, c, rfl⟩, h1⟩ := h1
  obtain ⟨⟨d, e, f, rfl⟩, h2⟩ := h2
  exact ⟨⟨d, e, f, rfl⟩, h1.trans h2⟩

theorem Stored.perm {s t : State} {l1 l2 : List (Phys × List Byte)} (h1 : Stored s t l1) (h2 : l1.Perm l2) : Stored s t l2 :=
  ⟨h1.1, h1.2.perm h2⟩

theorem Stored.same {s t : State} (h : ∃ dies dir, t = { s with
    dies := dies
    dir := dir }) : Stored s t [] := by
  obtain ⟨a, b, rfl⟩ := h
  exact ⟨⟨a, b, s.mem, rfl⟩, .nil _⟩

theorem Stored.foldl {α : Type} (f : State → α → State) (h : ∀ s a, Stored s (f s a) []) (l : List α) : ∀ s, Stored s (l.foldl f s) [] := by
  induction l with
  | nil => exact .refl
  | cons a l ih => intro s; exact (h s a).trans (ih _)

theorem stored_onDie (s : State) (d : Fin 2) (g : Die → Die) : Stored s (s.onDie d g) [] := .same ⟨_, s.dir, rfl⟩

theorem stored_stampWrite (s : State) (d : Fin 2) (k sec : Nat) : Stored s (stampWrite s d k sec).1 [] := by
  unfold stampWrite
  exact .same ⟨_, s.dir, rfl⟩

theorem stored_drop (s : State) (d : Fin 2) (c : Fin 24) (pa n : Nat) : Stored s (dropOwnSectors s d c pa n) [] := .same ⟨_, s.dir, rfl⟩

theorem unitWrites_place (l : List Reached) (val : Nat → Nat) (w : Phys × List Byte) (h : w ∈ unitWrites l val) :
    ∃ r ∈ l, ∃ p ∈ r.parts, p.1 = w.1 := by
  unfold unitWrites at h
  rw [List.mem_flatMap] at h
  obtain ⟨r, hr, h⟩ := h
  refine ⟨r, hr, ?_⟩
  dsimp only at h
  generalize toBytes (val r.u.elem) r.u.n = bs at h
  suffices H : ∀ (ps : List (Phys × Nat)) (acc : List (Phys × List Byte) × Nat), w ∈ (ps.foldl (fun (acc : List (Phys × List Byte) × Nat) p =>
      (acc.1 ++ [(p.1, (bs.drop acc.2).take p.2)], acc.2 + p.2)) acc).1 → w ∈ acc.1 ∨ ∃ p ∈ ps, p.1 = w.1 by
    rcases H _ _ h with h | h
    · cases h
    · exact h
  intro ps
  induction ps with
  | nil => intro acc h; exact .inl h
  | cons p ps ih =>
    intro acc h
    rw [List.foldl_cons] at h
    rcases ih _ h with h | ⟨q, hq, h⟩
    · rcases List.mem_append.1 h with h | h
      · exact .inl h
      · rw [List.mem_singleton] at h
        subst h
        exact .inr ⟨p, List.mem_cons_self .., rfl⟩
    · exact .inr ⟨q, List.mem_cons_of_mem _ hq, h⟩

theorem unitWrites_perm {l l' : List Reached} (h : l.Perm l') (val : Nat → Nat) : (unitWrites l val).Perm (unitWrites l' val) :=
  List.Perm.flatMap_right _ h

/-- What the groups of faults hold. -/
theorem groupPages_spec (fs : List (Nat × Word × Nat)) :
    ((groupPages fs).map fun g => g.1).Nodup ∧ (∀ g ∈ groupPages fs, g.2.1.toNat / 4096 = g.1) ∧
    (∀ x ∈ fs, ∃ g ∈ groupPages fs, g.1 = x.2.1.toNat / 4096) ∧
    ∀ g ∈ groupPages fs, ∀ l < 128, g.2.2.2.getLsbD l = fs.any fun x => x.1 == l && x.2.1.toNat / 4096 == g.1 := by
  induction fs with
  | nil => exact ⟨List.nodup_nil, (fun g h => by cases h), (fun x h => by cases h), fun g h => by cases h⟩
  | cons f fs ih =>
    obtain ⟨pl, va, r⟩ := f
    obtain ⟨h1, h2, h3, h4⟩ := ih
    have hb : ∀ l < 128, (BitVec.ofNat 128 (2 ^ pl)).getLsbD l = (pl == l) := by
      intro l hl
      rw [BitVec.getLsbD_ofNat, Nat.testBit_two_pow]
      simp [hl, beq_eq_decide]
    rw [groupPages]
    cases hf : (groupPages fs).find? (fun g => g.1 == va.toNat / 4096) with
    | none =>
      rw [List.find?_eq_none] at hf
      refine ⟨?_, ?_, ?_, ?_⟩
      · rw [List.map_cons, List.nodup_cons]
        refine ⟨fun hm => ?_, h1⟩
        obtain ⟨g, hg, he⟩ := List.mem_map.1 hm
        exact hf g hg (by simpa using he)
      · intro g hg
        rcases List.mem_cons.1 hg with rfl | hg
        · rfl
        · exact h2 g hg
      · intro x hx
        rcases List.mem_cons.1 hx with rfl | hx
        · exact ⟨_, List.mem_cons_self .., rfl⟩
        · obtain ⟨g, hg, he⟩ := h3 x hx
          exact ⟨g, List.mem_cons_of_mem _ hg, he⟩
      · intro g hg l hl
        rw [List.any_cons]
        rcases List.mem_cons.1 hg with rfl | hg
        · dsimp only
          rw [hb l hl]
          have : (fs.any fun x => x.1 == l && x.2.1.toNat / 4096 == va.toNat / 4096) = false := by
            rw [List.any_eq_false]
            intro x hx hc
            obtain ⟨g, hg, he⟩ := h3 x hx
            rw [Bool.and_eq_true] at hc
            exact hf g hg (by rw [he]; exact hc.2)
          rw [this]; simp
        · rw [h4 g hg l hl]
          have : (va.toNat / 4096 == g.1) = false := by
            have := hf g hg
            rw [beq_eq_false_iff_ne]
            intro he; exact this (by rw [he]; simp)
          rw [this]; simp
    | some g0 =>
      obtain ⟨p0, va0, r0, m0⟩ := g0
      dsimp only
      have hg0 := List.mem_of_find?_eq_some hf
      have hp0 : p0 = va.toNat / 4096 := by have := List.find?_some hf; simpa using this
      refine ⟨?_, ?_, ?_, ?_⟩
      · rw [List.map_cons, List.nodup_cons]
        refine ⟨fun hm => ?_, (List.Sublist.map _ List.filter_sublist).nodup h1⟩
        obtain ⟨g, hg, he⟩ := List.mem_map.1 hm
        have := (List.mem_filter.1 hg).2
        simp at this; exact this he
      · intro g hg
        rcases List.mem_cons.1 hg with rfl | hg
        · dsimp only
          split
          · rfl
          · rw [h2 _ hg0]; exact hp0
        · exact h2 g (List.mem_filter.1 hg).1
      · intro x hx
        rcases List.mem_cons.1 hx with rfl | hx
        · exact ⟨_, List.mem_cons_self .., rfl⟩
        · obtain ⟨g, hg, he⟩ := h3 x hx
          by_cases hc : g.1 = va.toNat / 4096
          · exact ⟨_, List.mem_cons_self .., by rw [← he, hc]⟩
          · exact ⟨g, List.mem_cons_of_mem _ (List.mem_filter.2 ⟨hg, by simpa using hc⟩), he⟩
      · intro g hg l hl
        rw [List.any_cons]
        rcases List.mem_cons.1 hg with rfl | hg
        · dsimp only
          rw [BitVec.getLsbD_or, hb l hl, h4 _ hg0 l hl]
          dsimp only
          rw [hp0]; simp [Bool.or_comm]
        · obtain ⟨hg, hne⟩ := List.mem_filter.1 hg
          rw [h4 g hg l hl]
          have : (va.toNat / 4096 == g.1) = false := by
            rw [beq_eq_false_iff_ne]; intro he; simp at hne; exact hne he.symm
          rw [this]; simp

theorem masks_any (gs : List (Nat × Word × Nat × Mask)) (l : Nat) : ∀ m0 : Mask,
    (gs.foldl (fun m g => m ||| g.2.2.2) m0).getLsbD l = (m0.getLsbD l || gs.any fun g => g.2.2.2.getLsbD l) := by
  induction gs with
  | nil => intro m0; simp
  | cons g gs ih => intro m0; rw [List.foldl_cons, ih, BitVec.getLsbD_or, List.any_cons, Bool.or_assoc]

/-- The record of a group. -/
def groupRec (w : Warp) (access : Nat) (vector : Bool) (g : Nat × Word × Nat × Mask) (tok : Nat) : SpoolRec :=
  { warpRec w 1 with token := tok, master := .warp (warpId w), access, reason := g.2.2.1, va := g.2.1,
                     lanes := if vector then g.2.2.2 else 0 }

theorem groupRecs (access : Nat) (vector : Bool) (gs : List (Nat × Word × Nat × Mask)) : ∀ acc : State × List Nat,
    ∃ recs : List SpoolRec, ∃ dies nextId,
      gs.foldl (fun (acc : State × List Nat) g =>
        let (tok, s) := acc.1.freshId
        let r := { warpRec s.cur 1 with token := tok, master := .warp (warpId s.cur), access, reason := g.2.2.1, va := g.2.1, lanes := if vector then g.2.2.2 else 0 }
        (enqueueRec s (agentDie s.cur.who) r, acc.2 ++ [tok])) acc =
        ({ acc.1 with dies := dies, nextId := nextId }, acc.2 ++ recs.map SpoolRec.token) ∧
      (dies[agentDie acc.1.cur.who]).spoolQ = (acc.1.die (agentDie acc.1.cur.who)).spoolQ ++ recs ∧
      (recs.map fun r => (r.va, r.lanes)) = (gs.map fun g => (g.2.1, if vector then g.2.2.2 else 0)) ∧
      ∀ r ∈ recs, r.kind = 1 ∧ r.access = access ∧ r.ctx = acc.1.cur.ctx ∧ r.pc = acc.1.cur.pc ∧ r.agentId = agentIdBits acc.1.cur.who := by
  induction gs with
  | nil => intro acc; exact ⟨[], acc.1.dies, acc.1.nextId, by simp, by simp [State.die], rfl, fun r h => by cases h⟩
  | cons g gs ih =>
    intro acc
    rw [List.foldl_cons]
    let r := groupRec acc.1.cur access vector g acc.1.nextId
    obtain ⟨recs, dies, nid, e, hq, hv, hr⟩ := ih (enqueueRec { acc.1 with nextId := acc.1.nextId + 1 } (agentDie acc.1.cur.who) r, acc.2 ++ [acc.1.nextId])
    refine ⟨r :: recs, dies, nid, e.trans ?_, ?_, ?_, ?_⟩
    · refine Prod.ext rfl ?_
      show (acc.2 ++ [acc.1.nextId]) ++ recs.map SpoolRec.token = acc.2 ++ (r :: recs).map SpoolRec.token
      rw [List.append_assoc]; rfl
    · have e2 : ((enqueueRec { acc.1 with nextId := acc.1.nextId + 1 } (agentDie acc.1.cur.who) r).die (agentDie acc.1.cur.who)).spoolQ =
          (acc.1.die (agentDie acc.1.cur.who)).spoolQ ++ [r] := by
        unfold enqueueRec; rw [onDie_die]; rfl
      have hq' : (dies[agentDie acc.1.cur.who]).spoolQ = ((enqueueRec { acc.1 with nextId := acc.1.nextId + 1 } (agentDie acc.1.cur.who) r).die (agentDie acc.1.cur.who)).spoolQ ++ recs := hq
      rw [hq', e2, List.append_assoc]; rfl
    · rw [List.map_cons, List.map_cons, hv]; rfl
    · intro q hq
      rcases List.mem_cons.1 hq with rfl | hq
      · exact ⟨rfl, rfl, rfl, rfl, rfl⟩
      · exact hr q hq

/-- A fault of the issuing warp. -/
theorem memFault_spec (s : State) (access : Nat) (faults : List (Nat × Word × Nat)) (vector : Bool) (hne : faults ≠ []) :
    SleepsOn s (memFault s access faults vector) access faults vector ∧
    ∃ dies nextId status replay replayNext, memFault s access faults vector = { s with
      dies := dies
      nextId := nextId
      cur := { s.cur with
        status := status
        replay := replay
        replayNext := replayNext } } := by
  obtain ⟨g1, g2, g3, g4⟩ := groupPages_spec faults
  obtain ⟨recs, dies, nid, e, hq, hv, hr⟩ := groupRecs access vector (groupPages faults) (s, [])
  have em : memFault s access faults vector = { s with
      dies := dies
      nextId := nid
      cur := { s.cur with
        status := .spool (recs.map SpoolRec.token)
        replay := if vector then (groupPages faults).foldl (fun m g => m ||| g.2.2.2) (0 : Mask) else s.cur.replay
        replayNext := if vector then true else s.cur.replayNext } } := by
    unfold memFault
    dsimp only
    dsimp only at e
    rw [e]
    rfl
  have pages : (recs.map fun r => r.va.toNat / 4096) = (groupPages faults).map fun g => g.1 := by
    have h : (recs.map fun r => (r.va, r.lanes)).map (fun q => q.1.toNat / 4096) = ((groupPages faults).map fun g => (g.2.1, if vector then g.2.2.2 else (0 : Mask))).map (fun q => q.1.toNat / 4096) := by rw [hv]
    rw [List.map_map, List.map_map] at h
    refine (show (recs.map fun r => r.va.toNat / 4096) = _ from h).trans (List.map_congr_left fun g hg => ?_)
    exact g2 g hg
  refine ⟨?_, ⟨_, _, _, _, _, em⟩⟩
  rw [em]
  have found : ∀ r ∈ recs, ∃ g ∈ groupPages faults, r.va = g.2.1 ∧ r.lanes = if vector then g.2.2.2 else 0 := by
    intro r hr
    have : (r.va, r.lanes) ∈ (groupPages faults).map fun g => (g.2.1, if vector then g.2.2.2 else 0) := by
      rw [← hv]; exact List.mem_map_of_mem hr
    obtain ⟨g, hg, he⟩ := List.mem_map.1 this
    rw [Prod.mk.injEq] at he
    exact ⟨g, hg, he.1.symm, he.2.symm⟩
  refine ⟨(s.die (agentDie s.cur.who)).spoolQ, recs, ?_, hq, rfl, rfl, rfl, ?_, ?_, ?_, ?_, ?_⟩
  · rintro rfl
    cases faults with
    | nil => exact hne rfl
    | cons x xs =>
      obtain ⟨g, hg, -⟩ := g3 x (List.mem_cons_self ..)
      have hn : (groupPages (x :: xs)).map (fun g => g.1) = [] := pages.symm
      rw [List.map_eq_nil_iff] at hn
      rw [hn] at hg; cases hg
  · rintro rfl l hl
    dsimp only
    rw [if_pos rfl, masks_any]
    unfold laneFaults
    rw [show (BitVec.getLsbD (0 : Mask) l) = false from BitVec.getLsbD_zero, Bool.false_or, Bool.eq_iff_iff, List.any_eq_true, List.any_eq_true]
    constructor
    · rintro ⟨g, hg, hb⟩
      rw [g4 g hg l hl, List.any_eq_true] at hb
      obtain ⟨x, hx, hb⟩ := hb
      rw [Bool.and_eq_true] at hb
      exact ⟨x, hx, hb.1⟩
    · rintro ⟨x, hx, hb⟩
      obtain ⟨g, hg, he⟩ := g3 x hx
      refine ⟨g, hg, ?_⟩
      rw [g4 g hg l hl, List.any_eq_true]
      exact ⟨x, hx, by rw [hb, he]; simp⟩
  · rintro rfl; rfl
  · rw [pages]; exact g1
  · intro x hx
    obtain ⟨g, hg, he⟩ := g3 x hx
    have : g.1 ∈ recs.map fun r => r.va.toNat / 4096 := by rw [pages]; exact List.mem_map_of_mem hg
    obtain ⟨r, hr2, h⟩ := List.mem_map.1 this
    exact ⟨r, hr2, h.trans he⟩
  · intro r hrm
    obtain ⟨h1, h2, h3, h4, h5⟩ := hr r hrm
    refine ⟨h1, h2, h3, h4, h5, fun l hl => ?_⟩
    obtain ⟨g, hg, hva, hla⟩ := found r hrm
    rw [hla, hva, g2 g hg]
    cases vector
    · simp
    · simp only [if_true, Bool.true_and]; exact g4 g hg l hl

theorem SleepsOn_same {s s' t : State} {access : Nat} {faults : List (Nat × Word × Nat)} {vector : Bool} (h : SleepsOn s' t access faults vector)
    (h1 : s'.cur.who = s.cur.who) (h2 : s'.cur.pc = s.cur.pc) (h3 : s'.cur.ctx = s.cur.ctx) (h4 : s'.cur.replay = s.cur.replay) :
    SleepsOn s t access faults vector := by
  unfold SleepsOn at *
  rw [h1, h2, h3, h4] at h
  exact h

theorem applyPending_frame (w : Warp) (p : Pending) : ∃ x v m, applyPending w p = { w with
    x := x
    v := v
    m := m } := by
  have hx : ∀ (l : List (BitVec 6 × Word)) (w : Warp), ∃ x, l.foldl (fun w q => writeX w q.1 q.2) w = { w with x := x } := by
    intro l
    induction l with
    | nil => intro w; exact ⟨w.x, rfl⟩
    | cons q l ih =>
      intro w
      obtain ⟨x, hx⟩ := ih (writeX w q.1 q.2)
      refine ⟨x, (List.foldl_cons ..).trans (hx.trans ?_)⟩
      unfold writeX; split <;> rfl
  have hm : ∀ (l : List (BitVec 4 × Mask × Mask)) (w : Warp), ∃ m, l.foldl (fun w q => writeM w q.1 ((readM w q.1 &&& ~~~q.2.1) ||| q.2.2)) w = { w with m := m } := by
    intro l
    induction l with
    | nil => intro w; exact ⟨w.m, rfl⟩
    | cons q l ih =>
      intro w
      obtain ⟨m, hm⟩ := ih (writeM w q.1 ((readM w q.1 &&& ~~~q.2.1) ||| q.2.2))
      refine ⟨m, (List.foldl_cons ..).trans (hm.trans ?_)⟩
      unfold writeM; split <;> rfl
  unfold applyPending
  obtain ⟨x, h1⟩ := hx p.xw w
  rw [h1]
  obtain ⟨v, h2⟩ := landV_frame { w with x := x } p.vw
  dsimp only
  rw [h2]
  obtain ⟨m, h3⟩ := hm p.mw { w with
    x := x
    v := v }
  exact ⟨x, v, m, h3⟩

theorem exec_scalarAtomics (f : FmtM) (s : State) : ∀ p ∈ scalarAtomics, exec (p.2 f) s = atomScalar p.1 f s := by
  intro p hp
  simp only [scalarAtomics, List.mem_cons, List.not_mem_nil, or_false] at hp
  rcases hp with rfl | rfl | rfl | rfl | rfl | rfl | rfl | rfl | rfl | rfl | rfl <;> dsimp only
  · rw [exec_atomAdd]; rfl
  · rw [exec_atomAnd]; rfl
  · rw [exec_atomOr]; rfl
  · rw [exec_atomXor]; rfl
  · rw [exec_atomMin]; rfl
  · rw [exec_atomMax]; rfl
  · rw [exec_atomXchg]; rfl
  · rw [exec_atomCas]; rfl
  · rw [exec_atomFadd]; rfl
  · rw [exec_atomFmin]; rfl
  · rw [exec_atomFmax]; rfl

theorem exec_vectorAtomics (f : FmtM) (s : State) : ∀ p ∈ vectorAtomics, exec (p.2 f) s = atomVector p.1 f s := by
  intro p hp
  simp only [vectorAtomics, List.mem_cons, List.not_mem_nil, or_false] at hp
  rcases hp with rfl | rfl | rfl | rfl | rfl | rfl | rfl | rfl | rfl | rfl | rfl <;> dsimp only
  · rw [exec_vatomAdd]; rfl
  · rw [exec_vatomAnd]; rfl
  · rw [exec_vatomOr]; rfl
  · rw [exec_vatomXor]; rfl
  · rw [exec_vatomMin]; rfl
  · rw [exec_vatomMax]; rfl
  · rw [exec_vatomXchg]; rfl
  · rw [exec_vatomCas]; rfl
  · rw [exec_vatomFadd]; rfl
  · rw [exec_vatomFmin]; rfl
  · rw [exec_vatomFmax]; rfl

theorem toBytes_mod (n : Nat) : ∀ x, toBytes (x % 2 ^ (8 * n)) n = toBytes x n := by
  induction n with
  | zero => intro x; rfl
  | succ n ih =>
    intro x
    rw [toBytes, toBytes]
    have e : 2 ^ (8 * (n + 1)) = 256 * 2 ^ (8 * n) := by rw [Nat.mul_add, Nat.pow_add]; omega
    rw [e, Nat.mod_mul_right_div_self, ih]
    congr 1
    apply BitVec.eq_of_toNat_eq
    simp

theorem toBytes_value (n x : Nat) (v : BitVec (8 * n)) (h : BitVec.ofNat (8 * n) x = v) : toBytes x n = toBytes v.toNat n := by
  rw [← h, BitVec.toNat_ofNat, toBytes_mod]

theorem ofBytes_lt (l : List Byte) : ofBytes l < 2 ^ (8 * l.length) := by
  induction l with
  | nil => decide
  | cons b l ih =>
    rw [ofBytes, List.length_cons, Nat.mul_add, Nat.pow_add]
    have := b.isLt
    omega

theorem mem_read_len (m : Memory) (n : Nat) : ∀ a, (Memory.read m a n).length = n := by
  induction n with
  | zero => intro a; rfl
  | succ n ih => intro a; rw [Memory.read, List.length_cons, ih]

theorem num_toNat (m : Memory) (a n : Nat) : (BitVec.ofNat (8 * n) (m.num a n)).toNat = m.num a n := by
  rw [BitVec.toNat_ofNat, Nat.mod_eq_of_lt]
  have := ofBytes_lt (Memory.read m a n)
  rw [mem_read_len] at this
  exact this

theorem atomic_widths (op : AtomOp) (t : BitVec 4) (h : AtomicType op t) : 8 * elemBytes t = tyWidth t ∧ widthOf t.toNat = tyWidth t ∧
    ((op = .fadd ∨ op = .fmin ∨ op = .fmax) → fmtOf t.toNat = some (scalarFormat t)) := by
  rcases h with rfl | rfl | ⟨h | h | h | h, h1, h2, h3⟩
  · exact ⟨rfl, rfl, fun _ => rfl⟩
  · exact ⟨rfl, rfl, fun _ => rfl⟩
  all_goals
    subst h
    exact ⟨rfl, rfl, fun h => by rcases h with h | h | h <;> contradiction⟩

theorem atomNew_value (op : AtomOp) (t : BitVec 4) (k : Nat) (hk : k = tyWidth t) (h : AtomicType op t) (old x b : BitVec k) :
    BitVec.ofNat k (atomNew op t.toNat old.toNat x.toNat b.toNat) = atomicValue op t old x b := by
  obtain ⟨-, hw, hf⟩ := atomic_widths op t h
  unfold atomNew atomicValue
  rw [hw, ← hk]
  cases op
  · dsimp only; apply BitVec.eq_of_toNat_eq; simp
  · dsimp only; apply BitVec.eq_of_toNat_eq; rw [BitVec.toNat_ofNat, BitVec.toNat_and, Nat.mod_eq_of_lt]; exact (old &&& x).isLt
  · dsimp only; apply BitVec.eq_of_toNat_eq; rw [BitVec.toNat_ofNat, BitVec.toNat_or, Nat.mod_eq_of_lt]; exact (old ||| x).isLt
  · dsimp only; apply BitVec.eq_of_toNat_eq; rw [BitVec.toNat_ofNat, BitVec.toNat_xor, Nat.mod_eq_of_lt]; exact (old ^^^ x).isLt
  · dsimp only; rw [ofNat_aluMin, tySigned_eq]
  · dsimp only; rw [ofNat_aluMax, tySigned_eq]
  · dsimp only; simp
  · dsimp only
    by_cases he : old = x
    · rw [if_pos he, if_pos (by rw [he])]; simp
    · rw [if_neg he, if_neg (fun h2 => he (BitVec.eq_of_toNat_eq h2))]; simp
  · dsimp only; rw [hf (.inl rfl)]; rfl
  · dsimp only; rw [hf (.inr (.inl rfl))]; rfl
  · dsimp only; rw [hf (.inr (.inr rfl))]; rfl

/-- From `s` to `t` dies, directory and memory alone changed. -/
def Wrote (s t : State) (mem : Memory) : Prop := ∃ dies dir, t = { s with
    dies := dies
    dir := dir
    mem := mem }

theorem Wrote.after {s t u : State} {m : Memory} (h1 : Wrote s t s.mem) (h2 : Wrote t u m) : Wrote s u m := by
  obtain ⟨a, b, rfl⟩ := h1
  obtain ⟨c, d, rfl⟩ := h2
  exact ⟨c, d, rfl⟩

theorem wrote_foldl {α : Type} (f : State → α → State) (h : ∀ s a, Wrote s (f s a) s.mem) (l : List α) : ∀ s, Wrote s (l.foldl f s) s.mem := by
  induction l with
  | nil => intro s; exact ⟨s.dies, s.dir, rfl⟩
  | cons a l ih =>
    intro s
    have h1 := h s a
    have h2 := ih (f s a)
    have e : (f s a).mem = s.mem := by obtain ⟨x, y, e⟩ := h1; rw [e]
    rw [e] at h2
    exact h1.after h2

theorem tblGet_any {α β : Type} (l : Tbl α) (g : α → β) (j : Nat) : tblGet (l.map fun q => (q.1, g q.2)) j = (tblGet l j).map g := by
  induction l with
  | nil => rfl
  | cons a l ih =>
    obtain ⟨k, v⟩ := a
    simp only [List.map_cons, tblGet]
    split
    · rfl
    · exact ih

theorem tblGet_isSome {α : Type} (l : Tbl α) (j : Nat) : (tblGet l j).isSome = true ↔ j ∈ l.map (fun q => q.1) := by
  induction l with
  | nil => simp [tblGet]
  | cons a l ih =>
    obtain ⟨k, v⟩ := a
    rw [tblGet, List.map_cons, List.mem_cons]
    by_cases h : k = j
    · rw [if_pos h]; simp [h]
    · rw [if_neg h, ih]; simp [Ne.symm h]

theorem oneByOne_keys (g : Nat → BitVec 32 → BitVec 32) (l : List (Nat × Nat)) : ∀ m, (oneByOne g l m).2.map (fun q => q.1) = l.map fun q => q.1 := by
  induction l with
  | nil => intro m; rfl
  | cons a l ih => intro m; obtain ⟨e, pa⟩ := a; rw [oneByOne]; dsimp only; rw [List.map_cons, List.map_cons, ih]

theorem localOneByOne_keys (sp : Nat) (g : Nat → BitVec 32 → BitVec 32) (l : List MemUnit) : ∀ s, (localOneByOne sp g l s).2.map (fun q => q.1) = l.map fun u => u.elem := by
  induction l with
  | nil => intro m; rfl
  | cons a l ih => intro m; rw [localOneByOne]; dsimp only; rw [List.map_cons, List.map_cons, ih]

theorem atomicResult_scalar (f : FmtM) (n old : Nat) (w : Warp) :
    atomicResult f false ⟨n, 1, 64, false⟩ [(0, old)] w = writeX w f.d (widened 64 (decide (f.ty.toNat < 8) && signedType f.ty) (BitVec.ofNat (8 * n) old)) := by
  rw [← widened_ext, ← tySigned_eq]
  rfl

theorem atomicResult_vector (f : FmtM) (olds : Tbl (BitVec 32)) (act : Nat → Bool) (h : ∀ e < 128, (tblGet olds e).isSome = act e) (w : Warp) :
    ∃ v, atomicResult f true ⟨4, 128, 32, false⟩ (olds.map fun q => (q.1, q.2.toNat)) w = { w with v := v } ∧
      GroupWrite w { w with v := v } f.d 128 32 act (fun e => (tblGet olds e).getD 0) := by
  have hp : atomicResult f true ⟨4, 128, 32, false⟩ (olds.map fun q => (q.1, q.2.toNat)) w =
      landV w (loadTriples f.d ⟨4, 128, 32, false⟩ (olds.map fun q => (q.1, q.2.toNat))) := by
    unfold atomicResult
    rw [applyPending_v _ _ rfl rfl]
    rfl
  rw [hp]
  obtain ⟨v, hv⟩ := landV_frame w (loadTriples f.d ⟨4, 128, 32, false⟩ (olds.map fun q => (q.1, q.2.toNat)))
  refine ⟨v, hv, ?_⟩
  have hg := landV_group f.d 128 32 _ _ w (groupOk_lane f.d) v hv
  refine ⟨fun e he => ?_, hg.2⟩
  rw [hg.1 e he]
  have e1 := tblGet_any olds BitVec.toNat e
  simp only [tblGetD, e1, ← h e he]
  cases tblGet olds e with
  | none => rfl
  | some x => simp

theorem localOneByOne_spec (sp : Nat) (g : Nat → Nat → Nat) (g' : Nat → BitVec 32 → BitVec 32)
    (hg : ∀ e (old : BitVec 32), BitVec.ofNat 32 (g e old.toNat) = g' e old) (l : List MemUnit) :
    ∀ s, (∀ u ∈ l, u.n = 4) → (∀ u ∈ l, LocalInside s sp u.va 4) →
      (scratchAtomics s sp g l).1 = (localOneByOne sp g' l s).1 ∧
      (scratchAtomics s sp g l).2 = (localOneByOne sp g' l s).2.map (fun q => (q.1, q.2.toNat)) ∧
      (localOneByOne sp g' l s).1.cur = s.cur := by
  induction l with
  | nil => intro s _ _; exact ⟨rfl, rfl, rfl⟩
  | cons u l ih =>
    intro s hn hin
    obtain ⟨lane, elem, va, n⟩ := u
    have hn4 : n = 4 := hn _ (List.mem_cons_self ..)
    subst hn4
    have hi : LocalInside s sp va 4 := hin _ (List.mem_cons_self ..)
    have hlt : scratchGet s sp ⟨lane, elem, va, 4⟩ < 2 ^ (8 * 4) := by
      unfold scratchGet
      dsimp only
      split
      · have := ofBytes_lt (spdRead (by assumption) (scratchPlace s sp ⟨lane, elem, va, 4⟩).2 4)
        simpa [spdRead] using this
      · decide
    have hval := scratchGet_value s sp ⟨lane, elem, va, 4⟩ hi
    dsimp only at hval
    have hold : (localValue s sp va 4).toNat = scratchGet s sp ⟨lane, elem, va, 4⟩ := by
      rw [← hval, BitVec.toNat_ofNat, Nat.mod_eq_of_lt hlt]
    have hput : scratchPut s sp ⟨lane, elem, va, 4⟩ (g elem (scratchGet s sp ⟨lane, elem, va, 4⟩)) =
        scratchPut s sp ⟨lane, elem, va, 4⟩ (g' elem (localValue s sp va 4)).toNat := by
      unfold scratchPut
      dsimp only
      have hb : toBytes (g elem (scratchGet s sp ⟨lane, elem, va, 4⟩)) 4 = toBytes (g' elem (localValue s sp va 4)).toNat 4 := by
        refine toBytes_value 4 _ _ ?_
        rw [← hold]; exact hg _ _
      rw [hb]
    obtain ⟨p1, p2, -, -⟩ := scratchPut_spec s sp ⟨lane, elem, va, 4⟩ (g' elem (localValue s sp va 4)).toNat hi
    have h2 := ih (scratchPut s sp ⟨lane, elem, va, 4⟩ (g' elem (localValue s sp va 4)).toNat) (fun x hx => hn x (List.mem_cons_of_mem _ hx))
      (fun x hx => by
        have := hin x (List.mem_cons_of_mem _ hx)
        unfold LocalInside at this ⊢
        rw [spdTarget_alike s _ p1 p2]
        exact this)
    rw [scratchAtomics, localOneByOne]
    dsimp only
    rw [hput]
    refine ⟨h2.1, ?_, h2.2.2.trans p1⟩
    rw [List.map_cons, h2.2.1]
    dsimp only
    rw [hold]

theorem reachAll_one (s : State) (acc : Access) (ok : Bool) (u : MemUnit) :
    reachAll s acc ok [u] = ((reachUnit s acc ok u).1, [⟨u, (reachUnit s acc ok u).2.1⟩], (reachUnit s acc ok u).2.2) := by
  simp [reachAll]

theorem collides_one (a : Nat) : collides [a] = false := by simp [collides, distinct, List.eraseDups, List.eraseDupsBy, List.eraseDupsBy.loop]

theorem retire_writeX (w : Warp) (d : BitVec 6) (v : Word) : retire (writeX w d v) = writeX (retire w) d v := by
  unfold writeX; split <;> rfl

theorem mem_vectorUnits (sh : MemShape) (al : Nat) (act : Mask) (addr : Nat → Word) (e : Nat) (he : e < sh.cnt) :
    e ∈ (vectorUnits sh al act addr).map MemUnit.elem ↔ act.getLsbD (laneOfElem sh.cnt e) = true := by
  rw [List.mem_map]
  constructor
  · rintro ⟨u, hu, rfl⟩
    obtain ⟨e2, -, h, rfl⟩ := vectorUnits_mem _ _ _ _ _ hu
    exact h
  · intro h
    refine ⟨⟨laneOfElem sh.cnt e, e, alignDown (addr e) al, sh.n⟩, ?_, rfl⟩
    unfold vectorUnits
    rw [List.mem_filterMap]
    exact ⟨e, List.mem_range.2 he, if_pos h⟩

theorem deadline_passed (s : State) (dl : Word) : deadlineReached s dl = true ↔ deadlinePassed s dl := by
  unfold deadlineReached deadlinePassed stageNs
  simp

theorem drainOwn_none (s : State) (r : KnotRef) (h : ∀ u ∈ s.knotQ, ¬ (u.home = r ∧ u.src = some (warpId s.cur))) : drainOwn s r = s := by
  unfold drainOwn
  have h1 : s.knotQ.filter (fun u : KnotUpdate => decide (u.home = r) && u.src == some (warpId s.cur)) = [] := by
    rw [List.filter_eq_nil_iff]
    intro u hu hc
    simp at hc
    exact h u hu hc
  have h2 : s.knotQ.filter (fun u : KnotUpdate => !(decide (u.home = r) && u.src == some (warpId s.cur))) = s.knotQ := by
    rw [List.filter_eq_self]
    intro u hu
    have := h u hu
    simpa [imp_iff_not_or] using this
  dsimp only
  rw [h1, h2]
  rfl

theorem readKnot_clear (s : State) (r : KnotRef) (he : s.softErrs = []) (h : ∀ u ∈ s.knotQ, ¬ (u.home = r ∧ u.src = some (warpId s.cur))) (k : State → Knot → Out) :
    readKnot s r k = k s (getKnot s r) := by
  unfold readKnot
  rw [drainOwn_none s r h]
  dsimp only
  rw [softHit_nil s _ he]

theorem waitOn_clear (s : State) (f : FmtK) (r : KnotRef) (c : State → WaitCond) (he : s.softErrs = []) (h : ∀ u ∈ s.knotQ, ¬ (u.home = r ∧ u.src = some (warpId s.cur))) :
    (waitHolds (c s) (getKnot s r) = true → waitOn s f r c = becomes s (waitDone s f.d (getKnot s r))) ∧
    (waitHolds (c s) (getKnot s r) = false → ¬ deadlinePassed s (readX s.cur f.b) → waitOn s f r c = becomes s { s.cur with
      status := .knotWait ⟨f.d, r, f.kidx.toNat + (readX s.cur f.a).toNat % 4096, f.kspace != 2, c s, readX s.cur f.b⟩ }) ∧
    (waitHolds (c s) (getKnot s r) = false → deadlinePassed s (readX s.cur f.b) → promisesAt s.cur (readX s.cur f.b) = [] →
      waitOn s f r c = becomes s (retire (writeX { s.cur with karrw := karrwDone s.cur } f.d 1))) := by
  unfold waitOn
  rw [readKnot_clear s r he h]
  refine ⟨fun hc => ?_, fun hc hd => ?_, fun hc hd hp => ?_⟩
  · rw [if_pos hc]; rfl
  · rw [if_neg (by rw [hc]; exact Bool.noConfusion)]
    unfold beginWait
    dsimp only
    rw [if_neg (fun h => hd ((deadline_passed _ _).1 h))]
    rfl
  · rw [if_neg (by rw [hc]; exact Bool.noConfusion)]
    unfold beginWait
    dsimp only
    rw [if_pos ((deadline_passed _ _).2 hd)]
    unfold expireWait
    rw [hp]
    rfl

theorem onKnot_ok (s : State) (f : FmtK) (i : Instr) (r : KnotRef) (h : knotTarget s f = .ok r) (k : KnotRef → Out) : onKnot s f i k = k r := by
  unfold onKnot; rw [h]

theorem enterTask_spec (s : State) (d : Fin 2) (c : Fin 24) (team : Nat) (ln : Node) (k : KDesc) (r : CtxRec) (n args wclk : Nat) :
    ∃ dies nextId task, enterTask s d c team ln k r n args wclk = ({ s with
        dies := dies
        nextId := nextId }, taskHandle task) ∧ dies[d].tasks = (s.die d).tasks ++ [task] ∧ task.team = team ∧ task.outcome = none ∧
      task.core = c ∧ task.gen = (s.die d).taskGen := by
  unfold enterTask
  dsimp only [State.freshId]
  refine ⟨_, _, _, rfl, ?_, rfl, rfl, rfl, rfl⟩
  exact congrArg Die.tasks (Vector.getElem_set_self ..)

theorem laneOf_elem (r : VReg) (p : Nat) : (laneOf r p).toNat = elemOf r 32 p := by
  rw [laneOf, elemOf, BitVec.extractLsb'_toNat, Nat.shiftRight_eq_div_pow]

theorem laneOf_group (old : VReg) (act : Nat → Bool) (val : Nat → BitVec 32) (p : Nat) (hp : p < 128) :
    laneOf (groupReg old 1 0 32 act fun p => (val p).toNat) p = if act p then val p else laneOf old p := by
  apply BitVec.eq_of_toNat_eq
  rw [laneOf_elem, groupReg, elemOf_buildReg _ _ _ (by omega)]
  simp only [Nat.mul_one, Nat.add_zero]
  split
  · exact Nat.mod_eq_of_lt (val p).isLt
  · rw [laneOf_elem]; exact Nat.mod_eq_of_lt (elemOf_lt _ _ _)

theorem tileRow_set (t : Team) (ply row ply' row' : Nat) (r : VReg) (h : row < 256) (h' : row' < 256) :
    tileRow (tileSet t ply row r) ply' row' = if ply' = ply ∧ row' = row then r else tileRow t ply' row' := by
  unfold tileRow tileSet
  dsimp only
  rw [tblGet_set]
  unfold tileKey
  by_cases hc : 256 * ply' + row' = 256 * ply + row
  · rw [if_pos hc, if_pos (by omega)]; rfl
  · rw [if_neg hc, if_neg (by rintro ⟨rfl, rfl⟩; exact hc rfl)]

theorem curTeam_found (s : State) (tm : Team) (h : s.curTeam = some tm) : s.findTeam s.cur.team = some tm ∧ tm.id = s.cur.team := by
  have h1 : s.findTeam s.cur.team = some tm := h
  refine ⟨h1, ?_⟩
  unfold State.findTeam at h1
  have := List.find?_some h1
  simpa using this

theorem findTeam_tile (s : State) (id id' ply row : Nat) (g : Team → VReg) :
    (s.onTeam id fun t => tileSet t ply row (g t)).findTeam id' = (s.findTeam id').map fun t => if t.id == id then tileSet t ply row (g t) else t :=
  findTeam_onTeam s id id' (fun t => tileSet t ply row (g t)) (fun _ => rfl)

theorem tileStore_cur (s : State) (id ply row : Nat) (act : Mask) (v : VReg) : (tileStore s id ply row act v).cur = s.cur := by
  unfold tileStore; dsimp only; split <;> rfl

theorem tileStore_base (s : State) (id ply row : Nat) (act : Mask) (v : VReg) (j : Nat) :
    ((tileStore s id ply row act v).findTeam j).map (fun t => t.base) = (s.findTeam j).map fun t => t.base := by
  have ht : (tileStore s id ply row act v).findTeam j = (s.onTeam id fun t => tileSet t ply row (groupReg (tileRow t ply row) 1 0 32 (fun p => act.getLsbD p) fun p => (laneOf v p).toNat)).findTeam j := by
    unfold State.findTeam tileStore; dsimp only; split <;> rfl
  rw [ht, findTeam_tile, Option.map_map]
  congr 1
  funext t
  simp only [Function.comp]
  split <;> rfl

theorem curPly_same (s1 s2 : State) (e1 : s1.cur = s2.cur) (e2 : ((s1.findTeam s1.cur.team).map fun t => t.base) = ((s2.findTeam s1.cur.team).map fun t => t.base)) :
    curPly s1 = curPly s2 := by
  unfold curPly State.curTeam
  rw [e1] at e2 ⊢
  cases hA : s1.findTeam s2.cur.team with
  | none => cases hB : s2.findTeam s2.cur.team with
    | none => rfl
    | some y => rw [hA, hB] at e2; cases e2
  | some x => cases hB : s2.findTeam s2.cur.team with
    | none => rw [hA, hB] at e2; cases e2
    | some y =>
      rw [hA, hB] at e2
      simp only [Option.map_some, Option.some.injEq] at e2
      dsimp only [relPly]; rw [e2]

theorem tileStore_ply (s : State) (id ply row : Nat) (act : Mask) (v : VReg) : curPly (tileStore s id ply row act v) = curPly s := by
  refine curPly_same _ _ (tileStore_cur ..) (tileStore_base ..)

/-- A row of the issuing warp's own ply stored, of its own team. -/
def ownStore (act : Mask) (v : VReg) (s : State) (r : Word) : State := tileStore s s.cur.team (curPly s) r.toNat act v

theorem ownFold (act : Mask) (v : VReg) (team ply : Nat) (rows : List Word) : ∀ s0 : State, s0.cur.team = team → curPly s0 = ply →
    rows.foldl (ownStore act v) s0 = rows.foldl (fun s' r => tileStore s' team ply r.toNat act v) s0 := by
  induction rows with
  | nil => intro s0 _ _; rw [List.foldl_nil, List.foldl_nil]
  | cons r rows ih =>
    intro s0 h1 h2
    have e : ownStore act v s0 r = tileStore s0 team ply r.toNat act v := by unfold ownStore; rw [h1, h2]
    rw [List.foldl_cons, List.foldl_cons, e]
    exact ih _ (by rw [tileStore_cur]; exact h1) ((tileStore_ply ..).trans h2)

theorem tileFold_same (rows : List Word) (act : Mask) (v : VReg) (s : State) :
    rows.foldl (ownStore act v) s =
    rows.foldl (fun s' r => tileStore s' s.cur.team (curPly s) r.toNat act v) s := ownFold act v _ _ rows s rfl rfl

/-- One row stored. -/
theorem tileStore_spec (s : State) (id ply row : Nat) (act : Mask) (v : VReg) (hr : row < 256) :
    (∃ teams softErrs, tileStore s id ply row act v = { s with
      teams := teams
      softErrs := softErrs } ∧ (∀ x ∈ softErrs, x ∈ s.softErrs)) ∧
    ((tileStore s id ply row act v).teams.map fun x => { x with tiles := [] }) = (s.teams.map fun x => { x with tiles := [] }) ∧
    ∀ id' ply' row', row' < 256 → ∀ pl < 128, (s.findTeam id).isSome = true → tileCell (tileStore s id ply row act v) id' ply' row' pl =
      if id' = id ∧ ply' = ply ∧ row' = row ∧ act.getLsbD pl then laneOf v pl else tileCell s id' ply' row' pl := by
  have ht : (tileStore s id ply row act v).teams = (s.onTeam id fun t => tileSet t ply row (groupReg (tileRow t ply row) 1 0 32 (fun p => act.getLsbD p) fun p => (laneOf v p).toNat)).teams := by
    unfold tileStore; dsimp only; split <;> rfl
  refine ⟨?_, ?_, ?_⟩
  · unfold tileStore
    dsimp only
    split
    · exact ⟨_, _, rfl, fun x hx => List.mem_of_mem_filter hx⟩
    · exact ⟨_, s.softErrs, rfl, fun x hx => hx⟩
  · rw [ht]
    unfold State.onTeam
    dsimp only
    rw [List.map_map]
    refine List.map_congr_left fun t _ => ?_
    dsimp only [Function.comp]
    split <;> rfl
  · intro id' ply' row' hr' pl hpl hf
    have hft : (tileStore s id ply row act v).findTeam id' = (s.onTeam id fun t => tileSet t ply row (groupReg (tileRow t ply row) 1 0 32 (fun p => act.getLsbD p) fun p => (laneOf v p).toNat)).findTeam id' := by
      unfold State.findTeam; rw [ht]
    unfold tileCell
    rw [hft, findTeam_tile]
    cases hs : s.findTeam id' with
    | none =>
      rw [if_neg]
      · rfl
      · rintro ⟨rfl, -⟩; rw [hs] at hf; cases hf
    | some t =>
      have hid : t.id = id' := by
        unfold State.findTeam at hs
        have := List.find?_some hs
        simpa using this
      simp only [Option.map_some, Option.getD_some]
      by_cases he : t.id = id
      · rw [if_pos (by simp [he]), tileRow_set _ _ _ _ _ _ hr hr']
        by_cases hc : ply' = ply ∧ row' = row
        · rw [if_pos hc, laneOf_group _ _ _ _ hpl]
          obtain ⟨rfl, rfl⟩ := hc
          by_cases ha : act.getLsbD pl = true
          · rw [if_pos ha, if_pos ⟨by omega, rfl, rfl, ha⟩]
          · rw [if_neg ha, if_neg (fun h => ha h.2.2.2)]
        · rw [if_neg hc, if_neg (fun h => hc ⟨h.2.1, h.2.2.1⟩)]
      · rw [if_neg (by simp [he]), if_neg (fun h => he (by omega))]

theorem tileFold_spec (id ply : Nat) (rows : List Word) : ∀ s : State, (∀ r ∈ rows, r.toNat < 256) → (s.findTeam id).isSome = true →
    let t := rows.foldl (fun s r => tileStore s id ply r.toNat (BitVec.allOnes 128) 0) s
    (∃ teams softErrs, t = { s with
      teams := teams
      softErrs := softErrs } ∧ (∀ x ∈ softErrs, x ∈ s.softErrs)) ∧
    (t.teams.map fun x => { x with tiles := [] }) = (s.teams.map fun x => { x with tiles := [] }) ∧
    ∀ id' ply' row', row' < 256 → ∀ pl < 128, tileCell t id' ply' row' pl =
      if id' = id ∧ ply' = ply ∧ ∃ r ∈ rows, row' = r.toNat then 0 else tileCell s id' ply' row' pl := by
  induction rows with
  | nil =>
    intro s _ _
    refine ⟨⟨s.teams, s.softErrs, rfl, fun x hx => hx⟩, rfl, fun id' ply' row' hr' pl hpl => ?_⟩
    rw [if_neg (by simp)]; rfl
  | cons r rows ih =>
    intro s hr hf
    dsimp only [List.foldl_cons]
    obtain ⟨⟨a, b, e, he⟩, h2, h3⟩ := tileStore_spec s id ply r.toNat (BitVec.allOnes 128) 0 (hr r (List.mem_cons_self ..))
    have hf' : ((tileStore s id ply r.toNat (BitVec.allOnes 128) 0).findTeam id).isSome = true := by
      have ht : (tileStore s id ply r.toNat (BitVec.allOnes 128) 0).findTeam id = (s.onTeam id fun t => tileSet t ply r.toNat (groupReg (tileRow t ply r.toNat) 1 0 32 (fun p => (BitVec.allOnes 128).getLsbD p) fun p => (laneOf 0 p).toNat)).findTeam id := by
        unfold State.findTeam tileStore; dsimp only; split <;> rfl
      rw [ht, findTeam_tile, Option.isSome_map]
      exact hf
    obtain ⟨⟨a2, b2, e2, he2⟩, g2, g3⟩ := ih (tileStore s id ply r.toNat (BitVec.allOnes 128) 0) (fun x hx => hr x (List.mem_cons_of_mem _ hx)) hf'
    refine ⟨⟨a2, b2, ?_, fun x hx => ?_⟩, g2.trans h2, fun id' ply' row' hr' pl hpl => ?_⟩
    · rw [e2, e]
    · have := he2 x hx; rw [e] at this; exact he x this
    · rw [g3 id' ply' row' hr' pl hpl, h3 id' ply' row' hr' pl hpl hf]
      have hones : (BitVec.allOnes 128).getLsbD pl = true := by rw [BitVec.getLsbD_allOnes]; simpa using hpl
      have hz : laneOf 0 pl = 0 := by unfold laneOf; simp
      rw [hones, hz]
      by_cases h : id' = id ∧ ply' = ply ∧ ∃ r ∈ rows, row' = r.toNat
      · rw [if_pos h]
        obtain ⟨h1, h2, x, hx, h3⟩ := h
        rw [if_pos ⟨h1, h2, x, List.mem_cons_of_mem _ hx, h3⟩]
      · rw [if_neg h]
        by_cases h' : id' = id ∧ ply' = ply ∧ row' = r.toNat ∧ true = true
        · rw [if_pos h', if_pos ⟨h'.1, h'.2.1, r, List.mem_cons_self .., h'.2.2.1⟩]
        · rw [if_neg h', if_neg]
          rintro ⟨k1, k2, x, hx, k3⟩
          rcases List.mem_cons.1 hx with hx | hx
          · exact h' ⟨k1, k2, by rw [k3, hx], rfl⟩
          · exact h ⟨k1, k2, x, hx, k3⟩

theorem rowBounds_spec (s : State) (row : Word) (ht : isThread s.cur.who = false) :
    ∃ t, rowBounds s row = .next t ∧ FreezesWith s t 0x11 0xFF (BitVec.ofNat 64 (128 * row.toNat) ||| 0x8000000000000000#64) := by
  unfold rowBounds boundsAt
  rw [Nat.mul_comm]
  exact ⟨_, rfl, violate_spec s _ _ _ (by decide) ht⟩

theorem lanesWrite (s : State) (f : FmtA) (val : Nat → BitVec 32) :
    VectorWrite s { s with cur := retire (writeElems s.cur f.d 128 32 (activeMask s.cur f.pm f.pi) fun p => (val p).toNat) } f.d 128 32
      (fun p => (activeMask s.cur f.pm f.pi).getLsbD p) val := by
  obtain ⟨t, ht, h⟩ := vecWrite_spec s f 128 32 (fun p => (val p).toNat) (groupOk_lane f.d)
  have e : t = { s with cur := retire (writeElems s.cur f.d 128 32 (activeMask s.cur f.pm f.pi) fun p => (val p).toNat) } := (Host.Outcome.next.inj ht).symm
  rw [← e]
  have ea : activeElt s.cur f 128 = fun p => (activeMask s.cur f.pm f.pi).getLsbD p := by
    funext p; unfold activeElt; rw [Nat.mul_div_cancel _ (by decide)]
  rw [ea] at h
  exact vectorWrite_congr h (fun e _ _ => by simp)

theorem enterCmd_spec (s : State) (c : Cmd) (h : c.st = .waiting) : ∃ ready time maxTs, enterCmd s c = { s with
    cmds := s.cmds ++ [{ c with
      ready := ready
      time := time
      maxTs := maxTs }] } := by
  unfold enterCmd
  split
  · exact ⟨_, _, _, rfl⟩
  · unfold wakeCmd
    split
    · split
      · exact ⟨_, _, _, rfl⟩
      · exact ⟨c.ready, c.time, c.maxTs, rfl⟩
    · exact ⟨c.ready, c.time, c.maxTs, rfl⟩

theorem illegal_spec (s : State) (sub : Nat) (i : Instr) (h : sub < 256) (ht : isThread s.cur.who = false) :
    ∃ t, illegal s sub i = .next t ∧ FreezesWith s t 0x10 sub ((encode i).getD 0) := ⟨_, rfl, violate_spec s _ _ _ h ht⟩

theorem curCore_warp (s : State) (d : Fin 2) (c : Fin 24) (p : Fin 8) (slot : Fin 4) (h : s.cur.who = .warp d c p slot) : curCore s = (d, c) := by
  unfold curCore; rw [h]; rfl

theorem onCore_onCore (s : State) (d : Fin 2) (c : Fin 24) (f g : Core → Core) : (s.onCore d c f).onCore d c g = s.onCore d c (fun x => g (f x)) := by
  unfold State.onCore State.onDie
  have e : (s.dies.set d { s.dies[d] with cores := s.dies[d].cores.set c (f s.dies[d].cores[c]) })[d] = { s.dies[d] with cores := s.dies[d].cores.set c (f s.dies[d].cores[c]) } :=
    Vector.getElem_set_self ..
  dsimp only
  rw [e]
  dsimp only
  have e2 : (s.dies[d].cores.set c (f s.dies[d].cores[c]))[c] = f s.dies[d].cores[c] := Vector.getElem_set_self ..
  rw [e2]
  congr 1
  refine (Vector.set_set ..).trans ?_
  congr 2
  exact Vector.set_set ..

theorem tblGet_foldSet (l : List Nat) (v : Nat × Bool) : ∀ (e : Tbl (Nat × Bool)) (q : Nat), tblGet (l.foldl (fun e p => tblSet e p v) e) q = if q ∈ l then some v else tblGet e q := by
  induction l with
  | nil => intro e q; simp
  | cons a l ih =>
    intro e q
    rw [List.foldl_cons, ih, tblGet_set]
    by_cases h1 : q ∈ l
    · rw [if_pos h1, if_pos (List.mem_cons_of_mem _ h1)]
    · rw [if_neg h1]
      by_cases h2 : q = a
      · rw [if_pos h2, if_pos (by rw [h2]; exact List.mem_cons_self ..)]
      · rw [if_neg h2, if_neg (by simp [h1, h2])]

theorem landWhole_vAt (d : BitVec 6) (g : Nat → VReg) (w : Warp) : ∀ n, d.toNat + n ≤ 64 → ∀ k < 64,
    vAt (landV w ((List.range n).map fun k => wholeReg (d + BitVec.ofNat 6 k) (g k))) k =
      if d.toNat ≤ k ∧ k < d.toNat + n then g (k - d.toNat) else vAt w k := by
  intro n
  induction n with
  | zero => intro _ k _; rw [if_neg (by omega)]; rfl
  | succ n ih =>
    intro hn k hk
    have hd : (d + BitVec.ofNat 6 n).toNat = d.toNat + n := by
      rw [BitVec.toNat_add, BitVec.toNat_ofNat, Nat.mod_eq_of_lt (a := n) (by omega), Nat.mod_eq_of_lt (by omega)]
    rw [List.range_succ, List.map_append, landV, List.foldl_append]
    have ih := ih (by omega) k hk
    rw [landV] at ih
    generalize hw : List.foldl (fun w q => setV w q.1.toNat ((readV w q.1 &&& ~~~q.2.1) ||| q.2.2)) w
        ((List.range n).map fun k => wholeReg (d + BitVec.ofNat 6 k) (g k)) = w1 at ih ⊢
    rw [List.map_cons, List.map_nil, List.foldl_cons, List.foldl_nil]
    have h1 := setReg_getD w1.v (d.toNat + n) k ((readV w1 (d + BitVec.ofNat 6 n) &&& ~~~(BitVec.allOnes 4096)) ||| g n) (by omega)
    have h2 : vAt (setV w1 (wholeReg (d + BitVec.ofNat 6 n) (g n)).1.toNat
        ((readV w1 (wholeReg (d + BitVec.ofNat 6 n) (g n)).1 &&& ~~~(wholeReg (d + BitVec.ofNat 6 n) (g n)).2.1) ||| (wholeReg (d + BitVec.ofNat 6 n) (g n)).2.2)) k =
        (setReg w1.v (d.toNat + n) ((readV w1 (d + BitVec.ofNat 6 n) &&& ~~~(BitVec.allOnes 4096)) ||| g n)).toArray.getD k 0 := by
      simp only [wholeReg, hd]; rfl
    rw [h2, h1]
    by_cases he : k = d.toNat + n
    · rw [if_pos he, if_pos (by omega), show k - d.toNat = n by omega]
      simp
    · rw [if_neg he]
      rw [show w1.v.toArray.getD k 0 = vAt w1 k from rfl, ih]
      by_cases h3 : d.toNat ≤ k ∧ k < d.toNat + n
      · rw [if_pos h3, if_pos (by omega)]
      · rw [if_neg h3, if_neg (by omega)]

theorem cell_elem (r : VReg) (wd e : Nat) : r.extractLsb' (wd * e) wd = BitVec.ofNat wd (elemOf r wd e) := by
  apply BitVec.eq_of_toNat_eq
  rw [BitVec.extractLsb'_toNat, BitVec.toNat_ofNat, elemOf]
  simp

theorem seqCell_elem (w : Warp) (r : BitVec 6) (wd e : Nat) : seqCell w r wd e = BitVec.ofNat wd (seqElem w r wd (4096 / wd) e) := cell_elem _ _ _

theorem writesInTurn_land (d : BitVec 6) (cnt wd : Nat) (val : Nat → Nat) (val' : Nat → BitVec wd) (w : Warp) (hp : 0 < 4096 / wd) (hd : d.toNat + cnt ≤ 64)
    (hv : ∀ e < cnt * (4096 / wd), BitVec.ofNat wd (val e) = val' e) :
    ∃ v, landV w ((List.range cnt).map fun k => wholeReg (d + BitVec.ofNat 6 k) (buildReg wd fun p => val (k * (4096 / wd) + p))) = { w with v := v } ∧
      WritesInTurn w { w with v := v } d cnt wd val' := by
  obtain ⟨v, h⟩ := landV_frame w ((List.range cnt).map fun k => wholeReg (d + BitVec.ofNat 6 k) (buildReg wd fun p => val (k * (4096 / wd) + p)))
  have H := landWhole_vAt d (fun k => buildReg wd fun p => val (k * (4096 / wd) + p)) w cnt hd
  rw [h] at H
  refine ⟨v, h, fun e he => ?_, fun k hk ho => ?_⟩
  · have h1 : e / (4096 / wd) < cnt := by rw [Nat.div_lt_iff_lt_mul hp]; exact he
    rw [seqCell_elem, seqElem, H (d.toNat + e / (4096 / wd)) (by omega),
      if_pos ⟨Nat.le_add_right _ _, Nat.add_lt_add_left h1 _⟩, elemOf_buildReg _ _ _ (Nat.mod_lt _ hp), ofNat_mod_two_pow, Nat.add_sub_cancel_left,
      Nat.div_add_mod' e (4096 / wd), hv e he]
  · rw [H k hk, if_neg (by omega)]

theorem xfm_enters (s : State) (d : Fin 2) (c : Fin 24) (p : Fin 8) (slot : Fin 4) (hw : s.cur.who = .warp d c p slot) (i : Instr) (act : Mask) (gens)
    (P : Warp → Warp → Prop) (hex : exec i s = xfmIssue s i act gens) (he : (encode i).isSome = true)
    (h : ∀ w, ∃ v, landV w (xfmOwed s.cur i act) = { w with v := v } ∧ P w { w with v := v }) : EntersPipe i s d c p gens P := by
  refine ⟨⟨(encode i).getD 0, warpId s.cur, act, xfmOwed s.cur i act⟩, ?_, rfl, ?_, h⟩
  · rw [hex, xfmIssue]
    dsimp only
    rw [hw]
    rfl
  · cases hx : encode i with
    | none => rw [hx] at he; cases he
    | some w => rfl
--PROOF

theorem land_one (d : BitVec 6) (g : Nat → VReg) : [wholeReg d (g 0)] = (List.range 1).map fun k => wholeReg (d + BitVec.ofNat 6 k) (g k) := by
  simp

theorem land_two (d : BitVec 6) (g : Nat → VReg) : [wholeReg d (g 0), wholeReg (d + 1) (g 1)] = (List.range 2).map fun k => wholeReg (d + BitVec.ofNat 6 k) (g k) := by
  simp [List.range_succ]

theorem pack_widths : ∀ t : BitVec 4, tyWidth t ≤ 16 → 0 < 4096 / tyWidth t ∧ tyWidth t ≤ 32 := by decide

theorem unpack_widths : ∀ t : BitVec 4, ∀ d : BitVec 6, t.toNat < 4 → d.toNat % (32 / tyWidth t) = 0 → d.toNat + 32 / tyWidth t ≤ 64 ∧ 4096 / tyWidth t = 128 * (32 / tyWidth t) := by decide

theorem unpack_small : ∀ t : BitVec 4, t.toNat < 4 → tyWidth t ≤ 16 := by decide

theorem widened_low (n : Nat) (sg : Bool) (x : BitVec n) (h : n ≤ 32) : BitVec.ofNat 32 (widened 64 sg x).toNat = widened 32 sg x := by
  rw [widened, widened]
  apply BitVec.eq_of_getLsbD_eq
  intro i hi
  rw [BitVec.ofNat_toNat, BitVec.getLsbD_setWidth]
  cases sg with
  | false =>
    simp only [Bool.false_eq_true, if_false, BitVec.getLsbD_setWidth, hi, show i < 64 by omega, decide_true, Bool.true_and]
  | true =>
    simp only [if_true, BitVec.getLsbD_signExtend, hi, show i < 64 by omega, decide_true, Bool.true_and]

theorem vAt_field (w : Warp) (r : BitVec 6) : vAt w r.toNat = readV w r := by
  rw [vAt, readV]
  have := r.isLt
  rw [Array.getD, dif_pos (by simpa using this)]
  rfl

theorem lane_seq (w : Warp) (r : BitVec 6) (e : Nat) : laneOf (vAt w (r.toNat + e / 128)) (e % 128) = seqCell w r 32 e := rfl

theorem pairFst {α β γ δ : Type} (x : α × β) (y : α → γ × δ) (k : β → δ → δ) :
    (match x with | (a, d) => match y a with | (b, r) => (b, k d r)).1 = (y x.1).1 := rfl

theorem sampLines_succ (f : Fetch) (slot : Option Nat) (a : LaneWork) (va n : Nat) :
    (sampLines f slot a va (n + 1)).1 = (sampLines f slot (sampLine f slot a va).1 (va + 128) n).1 := by
  refine (congrArg Prod.fst (sampLines.eq_2 f slot a va n)).trans ?_
  generalize hk : (2 ^ 1024 : Nat) = k
  clear hk
  exact pairFst (sampLine f slot a va) (fun a => sampLines f slot a (va + 128) n) (fun d r => d.toNat + r * k)

theorem texLand (d : BitVec 6) (out : List (Nat × List Nat)) (k : Nat) (w : Warp) : ∃ v, landV w (loadTriples d ⟨4, 128, 32, false⟩
      (out.map fun o => (o.1, (o.2.getD k 0) % 65536 + (o.2.getD (k + 1) 0) % 65536 * 65536))) = { w with v := v } ∧
    GroupWrite w { w with v := v } d 128 32 (fun e => out.any fun o => o.1 == e)
      (fun e => BitVec.ofNat 32 (((tblGet out e).map fun c => c.getD k 0 % 65536 + c.getD (k + 1) 0 % 65536 * 65536).getD 0)) := by
  obtain ⟨v, hv⟩ := landV_frame w (loadTriples d ⟨4, 128, 32, false⟩ (out.map fun o => (o.1, (o.2.getD k 0) % 65536 + (o.2.getD (k + 1) 0) % 65536 * 65536)))
  refine ⟨v, hv, ?_⟩
  have h := landV_group d 128 32 _ _ w (groupOk_lane d) v hv
  have e1 : (fun e => (tblGet (out.map fun o => (o.1, (o.2.getD k 0) % 65536 + (o.2.getD (k + 1) 0) % 65536 * 65536)) e).isSome) = fun e => out.any fun o => o.1 == e := by
    funext e
    rw [Bool.eq_iff_iff, tblGet_isSome, List.any_eq_true]
    simp only [List.map_map, List.mem_map, Function.comp, beq_iff_eq]
  have e2 : (fun e => BitVec.ofNat 32 (tblGetD (out.map fun o => (o.1, (o.2.getD k 0) % 65536 + (o.2.getD (k + 1) 0) % 65536 * 65536)) e 0)) =
      fun e => BitVec.ofNat 32 (((tblGet out e).map fun c => c.getD k 0 % 65536 + c.getD (k + 1) 0 % 65536 * 65536).getD 0) := by
    funext e
    rw [tblGetD, tblGet_any out (fun c : List Nat => c.getD k 0 % 65536 + c.getD (k + 1) 0 % 65536 * 65536) e]
  rw [e1, e2] at h
  exact h

theorem notThread (s : State) (d : Fin 2) (c : Fin 24) (p : Fin 8) (slot : Fin 4) (h : s.cur.who = .warp d c p slot) : isThread s.cur.who = false := by
  rw [h]; rfl

theorem bits_low (x hi : Nat) : bits x hi 0 = x % 2 ^ (hi + 1) := by
  simp [bits]

theorem landLanes (d : BitVec 6) (vals : Tbl Nat) (w : Warp) : ∃ v, landV w (loadTriples d ⟨4, 128, 32, false⟩ vals) = { w with v := v } ∧
    GroupWrite w { w with v := v } d 128 32 (fun e => (tblGet vals e).isSome) (fun e => BitVec.ofNat 32 (tblGetD vals e 0)) := by
  obtain ⟨v, hv⟩ := landV_frame w (loadTriples d ⟨4, 128, 32, false⟩ vals)
  exact ⟨v, hv, landV_group d 128 32 _ _ w (groupOk_lane d) v hv⟩

theorem own32_vAt (w : Warp) (r : BitVec 6) (l : Nat) : own32 w r l = laneOf (vAt w r.toNat) l := by rw [own32_lane, vAt_field]

theorem plus_toNat (d : BitVec 6) (k : Nat) (hd : d.toNat ≤ 60) (hk : k < 4) : (d + BitVec.ofNat 6 k).toNat = d.toNat + k := by
  rw [BitVec.toNat_add, BitVec.toNat_ofNat]
  omega

/-- One register of lanes written. -/
theorem lanes_row (w w' : Warp) (r : BitVec 6) (has : Nat → Bool) (val : Nat → BitVec 32) (h : GroupWrite w w' r 128 32 has val) :
    (∀ l < 128, laneOf (vAt w' r.toNat) l = if has l then val l else laneOf (vAt w r.toNat) l) ∧ ∀ k < 64, k ≠ r.toNat → vAt w' k = vAt w k := by
  refine ⟨fun l hl => ?_, fun k hk hne => h.2 k hk (by have : groupSize 128 32 = 1 := by decide
                                                       omega)⟩
  have := h.1 l hl
  rw [← own32_vAt, ← own32_vAt]
  exact this

theorem writeM_eq (w : Warp) (r : BitVec 4) (val : Mask) : writeM w r val = { w with m := if r = 0 then w.m else w.m.setIfInBounds r.toNat val } := by
  unfold writeM
  split
  · rfl
  · have e : w.m.set r.toNat val r.isLt = w.m.setIfInBounds r.toNat val := by
      apply Vector.ext
      intro i hi
      rw [Vector.getElem_set, Vector.getElem_setIfInBounds]
    rw [e]

theorem walkLanes_none (sp : Space) (p : Party) (g : Nat → Option RayQuery) (l : Nat) (ls : List Nat) (r : RaysDone) (h : g l = none) :
    walkLanes sp p g (l :: ls) r = walkLanes sp p g ls { r with out := r.out ++ [(l, hitWords none, false)] } := by
  rw [walkLanes, h]

theorem activeLanes_mem (w : Warp) (f : FmtA) (l : Nat) : l ∈ activeLanes w f ↔ l < 128 ∧ (activeMask w f.pm f.pi).getLsbD l = true := by
  rw [activeLanes, List.mem_filter, List.mem_range]

theorem hitWords_get (h : Option RayHit) (k : Nat) (hk : k < 4) : BitVec.ofNat 32 ((hitWords h).getD k 0) = hitWord h k := by
  rcases (by omega : k = 0 ∨ k = 1 ∨ k = 2 ∨ k = 3) with rfl | rfl | rfl | rfl <;> cases h <;> simp [hitWords, hitWord, f32pinf]

theorem queryWords_get (q : Option RayQuery) (k : Nat) (hk : k < 4) : BitVec.ofNat 32 ((queryWords q).1.getD k 0) = hitWord (reported q) k ∧
    (queryWords q).2 = (q.bind fun q => q.cand).isSome := by
  cases q with
  | none => exact ⟨hitWords_get none k hk, rfl⟩
  | some q =>
    unfold queryWords reported
    cases hc : q.cand with
    | none => simp only [Option.bind_some, hc]; exact ⟨hitWords_get _ k hk, rfl⟩
    | some c => simp only [Option.bind_some, hc]; exact ⟨hitWords_get _ k hk, rfl⟩

theorem out_get (ls : List Nat) (W : Nat → List Nat × Bool) (k l : Nat) (hl : l ∈ ls) :
    tblGetD ((ls.map fun l => (l, W l)).map fun o => (o.1, o.2.1.getD k 0)) l 0 = (W l).1.getD k 0 := by
  induction ls with
  | nil => cases hl
  | cons a ls ih =>
    simp only [List.map_cons, tblGetD, tblGet]
    by_cases h : a = l
    · subst h; simp
    · simp only [beq_iff_eq, h, if_false]
      have := ih (by rcases List.mem_cons.1 hl with e | e
                     · exact absurd e.symm h
                     · exact e)
      simpa [tblGetD] using this

theorem out_any (ls : List Nat) (W : Nat → List Nat × Bool) (l : Nat) : ((ls.map fun l => (l, W l)).any fun o => o.1 == l) = decide (l ∈ ls) := by
  rw [Bool.eq_iff_iff, List.any_map, List.any_eq_true, decide_eq_true_eq]
  simp

theorem out_on (ls : List Nat) (W : Nat → List Nat × Bool) (l : Nat) (hl : l ∈ ls) : ((ls.map fun l => (l, W l)).any fun o => o.1 == l && o.2.2) = (W l).2 := by
  rw [List.any_map, Bool.eq_iff_iff, List.any_eq_true]
  constructor
  · rintro ⟨x, hx, h⟩
    simp only [Function.comp, Bool.and_eq_true, beq_iff_eq] at h
    rw [← h.1]
    exact h.2
  · intro h
    exact ⟨l, hl, by simp [h]⟩

theorem f32nan_iff (x : Nat) : f32nan x = true ↔ decodeFp fmtF32 x = .nan := by
  unfold f32nan f32val
  cases decodeFp fmtF32 x <;> simp [Fv.isNan]

theorem f32lt_below (a b : Nat) : f32lt a b = fvBelow (decodeFp fmtF32 a) (decodeFp fmtF32 b) := by
  unfold f32lt f32val
  generalize decodeFp fmtF32 a = x
  generalize decodeFp fmtF32 b = y
  by_cases h : fvBelow x y = true
  · have hn := below_nan x y h
    rw [cmp_below x y hn.1 hn.2, h, hn.1, hn.2]
    simp
  · rw [Bool.not_eq_true] at h
    rw [h]
    cases hx : x.isNan
    · cases hy : y.isNan
      · rw [cmp_below x y hx hy, h]
        simp
        split <;> simp
      · simp
    · simp

/-- What a FEMIT does to a fragment of the lanes `P`. -/
def Femitted (w : Warp) (f : FmtA) (node : Nat) (P : Nat → Prop) (g g' : Fragment) : Prop :=
  (g.owner = node ∧ g.complete = false ∧ P g.lane → ∃ ca depth place, g' = { g with
    depth := some (depth, place)
    ops := g.ops ++ [(f.mod.toNat % 8, ca, femitColour w f g.lane)] } ∧
    ((depth, place) = g.depth.getD (depth, place)) ∧
    (g.depth = none → depth = if f.mod.getLsbD 3 then laneOf (vAt w f.b.toNat) g.lane else g.zf)) ∧
  (¬(g.owner = node ∧ g.complete = false ∧ P g.lane) → g' = g)

/-- Reads that leave the fragments. -/
def FragsSame (s u : State) : Prop := CachesOnly s u ∧ ∀ e, (u.die e).frags = (s.die e).frags

theorem die_onDie_frags (s : State) (d e : Fin 2) (g : Die → Die) (hg : ∀ x, (g x).frags = x.frags) : ((s.onDie d g).die e).frags = (s.die e).frags := by
  by_cases h : d = e
  · subst h; rw [onDie_die, hg]
  · rw [onDie_die_ne _ _ _ _ h]

theorem tlbFill_frags (x : Die) (e) : (tlbFill x e).frags = x.frags := by
  unfold tlbFill; rfl

/-- The end of a lane's FEMIT, its places known. -/
def femitFinish (f : FmtA) (t : Team) (fr : Fragment) (s2 : State) (c : Except (Word × Nat) Nat) (zz : Except (Word × Nat) (Option Nat)) :
    State × List (Nat × Word × Nat) :=
  match c, zz with
  | .ok ca, .ok za =>
    let depth := if bitAt f.mod.toNat 3 then BitVec.ofNat 32 (laneArg s2.cur f.b 0 fr.lane) else fr.zf
    let upd := fun g : Fragment =>
      if g.owner == fr.owner && g.lane == fr.lane then
        { g with depth := if g.depth.isNone then some (depth, za) else g.depth,
                 ops := g.ops ++ [(bits f.mod.toNat 2 0, ca, femitColour s2.cur f fr.lane)] }
      else g
    (s2.onDie t.d fun x => { x with frags := x.frags.map upd }, [])
  | .error e, .ok _ => (s2, [(fr.lane, e.1, e.2)])
  | .ok _, .error e => (s2, [(fr.lane, e.1, e.2)])
  | .error e, .error e' => (s2, [(fr.lane, e.1, e.2), (fr.lane, e'.1, e'.2)])

/-- No two fragments of a list share a warp and a lane. -/
def FragKeys (l : List Fragment) : Prop := ∀ (i j : Nat) (g g' : Fragment), l[i]? = some g → l[j]? = some g' → g.owner = g'.owner → g.lane = g'.lane → i = j

theorem fragKeys_of (l : List Fragment) (h : l.Pairwise (fun g g' => ¬(g.owner = g'.owner ∧ g.lane = g'.lane))) : FragKeys l := by
  intro i j g g' hi hj ho hl
  rw [List.pairwise_iff_getElem] at h
  obtain ⟨hi', rfl⟩ := List.getElem?_eq_some_iff.1 hi
  obtain ⟨hj', rfl⟩ := List.getElem?_eq_some_iff.1 hj
  by_contra hne
  rcases Nat.lt_or_gt_of_ne hne with hlt | hlt
  · exact h i j hi' hj' hlt ⟨ho, hl⟩
  · exact h j i hj' hi' hlt ⟨ho.symm, hl.symm⟩

theorem lanes_eq (w : Warp) (act : Mask) : ((List.range 128).filterMap fun q => (physOf w q).bind fun l => if act.getLsbD l then some l else none) = lanesByPosition w act := by
  unfold lanesByPosition
  congr 1
  funext q
  cases physOf w q <;> rfl

theorem top_bits (x : BitVec 32) : (bits x.toNat 31 30 != 0) = decide (2 ^ 30 ≤ x.toNat) := by
  have := x.isLt
  rw [Bool.eq_iff_iff, bne_iff_ne, decide_eq_true_eq]
  simp only [bits, Nat.shiftRight_eq_div_pow]
  omega

theorem onThread_eq (s : State) (i : Instr) (g : Fin 2 → Fin 64 → Out) (d : Fin 2) (k : Fin 64) (hw : s.cur.who = .thread d k) : onThreadOnly s i g = g d k := by
  rw [onThreadOnly, hw]

theorem satInc_toNat (c : BitVec 24) : (satInc c).toNat = min (c.toNat + 1) 0xFFFFFF := by
  unfold satInc
  have := c.isLt
  split
  · rename_i h
    rw [h]; decide
  · rename_i h
    have h2 : c.toNat ≠ 0xFFFFFF := fun hc => h (BitVec.eq_of_toNat_eq hc)
    rw [BitVec.toNat_add]
    have : (1 : BitVec 24).toNat = 1 := rfl
    omega

theorem withAgent_cur (s : State) (who : Agent) (f : State → State) (h : s.cur.who = who) (h2 : s.cur.status ≠ .exited) : s.withAgent who f = f s := by
  rw [State.withAgent, if_pos ⟨h, h2⟩]

theorem atAnother_of (ev : Agent → Instr) (s : State) (f : State → State) (h : ∀ who s, exec (ev who) s = .next (s.withAgent who f)) : AtAnother ev s := by
  intro w rest t c rest' ho hne hw hr ht hto
  rw [h] at ht ⊢
  rw [withAgent_cur _ _ _ rfl hw] at ht
  injection ht with ht
  rw [State.withAgent, if_neg (fun hc => hne hc.1)]
  have hf : (s.others.find? fun o => o.who == w.who && o.status != .exited) = some w := by
    rw [ho, List.find?_cons_of_pos]
    simp [hw]
  have hfil : (s.others.filter fun o => !(o.who == w.who && o.status != .exited)) = rest := by
    rw [ho, List.filter_cons_of_neg (by simp [hw])]
    apply List.filter_eq_self.2
    intro o ho2
    by_cases e : o.who = w.who
    · simp [hr o ho2 e]
    · simp [e]
  rw [hf]
  dsimp only
  rw [hfil, ht, hto]

theorem freezeNotice_frame (s : State) (w : Warp) (k : Nat) (c t : Word) : ∃ d, freezeNotice s w k c t = { s with dies := d } := ⟨_, rfl⟩

theorem freezeNotices_frame (k : Nat) (c : Word) (l : List Warp) : ∀ s : State, ∃ d, l.foldl (fun s w => freezeNotice s w k c w.tval) s = { s with dies := d } := by
  induction l with
  | nil => intro s; exact ⟨s.dies, rfl⟩
  | cons w l ih =>
    intro s
    rw [List.foldl_cons]
    obtain ⟨d, hd⟩ := freezeNotice_frame s w k c w.tval
    rw [hd]
    obtain ⟨d2, h2⟩ := ih { s with dies := d }
    exact ⟨d2, h2⟩

/-- Two states whose knots are the same. -/
def KnotsAlike (s t : State) : Prop := (∀ id, (t.findTeam id).map (fun m => m.knots) = (s.findTeam id).map (fun m => m.knots)) ∧ ∀ e, (t.die e).farKnots = (s.die e).farKnots

theorem knots_trans {s t u : State} (h1 : KnotsAlike s t) (h2 : KnotsAlike t u) : KnotsAlike s u :=
  ⟨fun id => (h2.1 id).trans (h1.1 id), fun e => (h2.2 e).trans (h1.2 e)⟩

theorem getKnot_alike {s t : State} (h : KnotsAlike s t) (r : KnotRef) : getKnot t r = getKnot s r := by
  cases r with
  | team id i =>
    have := h.1 id
    simp only [getKnot]
    cases ht : t.findTeam id with
    | none =>
      rw [ht] at this
      cases hs : s.findTeam id with
      | none => rfl
      | some m => rw [hs] at this; simp at this
    | some m =>
      rw [ht] at this
      cases hs : s.findTeam id with
      | none => rw [hs] at this; simp at this
      | some m2 =>
        rw [hs] at this
        simp only [Option.map_some, Option.some.injEq] at this
        simp only [this]
  | far k => simp only [getKnot, h.2]

theorem knots_sameTeams {s t : State} (h1 : t.teams = s.teams) (h2 : ∀ e, (t.die e).farKnots = (s.die e).farKnots) : KnotsAlike s t :=
  ⟨fun id => by rw [State.findTeam, State.findTeam, h1], h2⟩

theorem find_mapSaved (l : List Team) (g : Team → List Warp) (id : Nat) :
    ((l.map fun t => { t with saved := g t }).find? fun t => t.id == id).map (fun m => m.knots) = (l.find? fun t => t.id == id).map (fun m => m.knots) := by
  induction l with
  | nil => rfl
  | cons t l ih =>
    simp only [List.map_cons, List.find?_cons]
    cases h : (t.id == id)
    · exact ih
    · rfl

theorem knots_onWarp (s : State) (id : WarpId) (f : Warp → Warp) : KnotsAlike s (s.onWarp id f) :=
  ⟨fun j => find_mapSaved s.teams (fun t => t.saved.map fun w => if isWarp id w then f w else w) j, fun _ => rfl⟩

theorem knots_testWaiters (s : State) (r : KnotRef) (st : List Knot) : KnotsAlike s (testWaiters s r st) := by
  refine knots_sameTeams rfl fun e => ?_
  have h : ∀ g : Die → Die, (∀ x, (g x).farKnots = x.farKnots) → ∀ (u : State) (d e : Fin 2), ((u.onDie d g).die e).farKnots = (u.die e).farKnots := by
    intro g hg u d e
    by_cases h : d = e
    · subst h; rw [onDie_die, hg]
    · rw [onDie_die_ne _ _ _ _ h]
  show ((resetStalls s r).die e).farKnots = _
  unfold resetStalls
  dsimp only
  refine (h _ ?_ _ _ _).trans (h _ ?_ _ _ _) <;> intro x <;> rfl

theorem getKnot_put (s : State) (r : KnotRef) (k : Knot) (h : ∀ id i, r = .team id i → (s.findTeam id).isSome = true) : getKnot (putKnot s r k) r = k := by
  cases r with
  | team id i =>
    have h := h id i rfl
    simp only [getKnot, putKnot]
    rw [findTeam_onTeam s id id (fun t => { t with knots := tblSet t.knots i k }) (fun _ => rfl)]
    cases hs : s.findTeam id with
    | none => rw [hs] at h; cases h
    | some t =>
      have hid : t.id = id := by simpa using List.find?_some hs
      simp [tblGetD, hid, tblGet_set]
  | far n =>
    simp only [getKnot, putKnot]
    rw [onDie_die]
    simp [tblGetD, tblGet_set]

theorem lastState_arrive (s : State) (u : KnotUpdate) (a : Nat) (err : Bool) (k : Knot) :
    (knotStates (raiseKts s u k) (.arrive a err)).getLastD (raiseKts s u k) = arrived s u a err k := by
  unfold knotStates arrived raiseKts
  dsimp only
  split
  · rfl
  · split <;> rfl

theorem onAgent_cur (s : State) (who : Agent) (f : Warp → Warp) (h : s.cur.who = who) (h2 : s.cur.status ≠ .exited) :
    (s.onAgent who f).cur = f s.cur ∧ { s.onAgent who f with cur := s.cur, others := s.others } = s := by
  refine ⟨?_, rfl⟩
  show (if (s.cur.who == who && s.cur.status != .exited) = true then f s.cur else s.cur) = f s.cur
  rw [if_pos (by simp [h, h2])]

theorem recBits_div (r : BitVec 512) (hi lo : Nat) : recBits r hi lo = r.toNat / 2 ^ lo % 2 ^ (hi + 1 - lo) := by
  rw [recBits, bits, Nat.shiftRight_eq_div_pow]

theorem findCmd_id {s : State} {n : Nat} {c : Cmd} (h : s.findCmd n = some c) : c.id = n := by
  simpa using List.find?_some h

theorem onTeam_twice (s : State) (id err tt : Nat) : ((if err ≠ 0 then s.onTeam id fun t => { t with errCnt := min 255 (t.errCnt + 1), lastErr := err } else s).onTeam id fun t => { t with tts := max t.tts tt }) =
    { s with teams := s.teams.map fun m => if m.id = id then { m with
      errCnt := if err = 0 then m.errCnt else min 255 (m.errCnt + 1)
      lastErr := if err = 0 then m.lastErr else err
      tts := max m.tts tt } else m } := by
  by_cases he : err = 0
  · subst he
    simp only [ne_eq, not_true_eq_false, if_false, State.onTeam, if_true]
    congr 1
    apply List.map_congr_left
    intro m _
    by_cases h : m.id = id
    · rw [if_pos (by simpa using h), if_pos h]
    · rw [if_neg (by simpa using h), if_neg h]
  · simp only [ne_eq, he, not_false_eq_true, if_true, State.onTeam, if_false]
    congr 1
    rw [List.map_map]
    apply List.map_congr_left
    intro m _
    by_cases h : m.id = id
    · simp [h]
    · simp [h]

theorem findCmd_onCmd (s : State) (n : Nat) (c c' : Cmd) (h : s.findCmd n = some c) (hid : c'.id = n) : (s.onCmd n fun _ => c').findCmd n = some c' := by
  unfold State.findCmd State.onCmd at *
  rw [List.find?_map]
  have : ((fun x : Cmd => x.id == n) ∘ fun c => if (c.id == n) = true then c' else c) = fun x : Cmd => x.id == n := by
    funext x
    simp only [Function.comp]
    by_cases hx : (x.id == n) = true
    · rw [if_pos hx, hx]; simp [hid]
    · rw [if_neg hx]
  rw [this, h]
  simp [findCmd_id h]

theorem onQueue_queue (s : State) (q : QueueRef) (f : Queue → Queue) : (s.onQueue q f).queue q = f (s.queue q) := by
  unfold State.onQueue State.queue
  rw [onDie_die]
  simp [State.die]

theorem onQueue_twice (s : State) (q : QueueRef) (f g : Queue → Queue) : (s.onQueue q f).onQueue q g = s.onQueue q (fun x => g (f x)) := by
  unfold State.onQueue State.onDie
  simp

theorem onQueue_congr (s : State) (q : QueueRef) (f g : Queue → Queue) (h : f (s.queue q) = g (s.queue q)) : s.onQueue q f = s.onQueue q g := by
  have e : ∀ k : Queue → Queue, s.onQueue q k = { s with dies := s.dies.set q.d { s.die q.d with queues := (s.die q.d).queues.set q.q (k (s.queue q)) } } := fun _ => rfl
  rw [e, e, h]

theorem queue_onDie (s : State) (d : Fin 2) (g : Die → Die) (q : QueueRef) (hg : ∀ x, (g x).queues = x.queues) : (s.onDie d g).queue q = s.queue q := by
  unfold State.queue
  by_cases h : d = q.d
  · subst h; rw [onDie_die, hg]
  · rw [onDie_die_ne _ _ _ _ h]

theorem freeQueue_reads (v : State) (q : QueueRef) (h : Reading (v.queue q)) : freeQueue v q = readsOn v q := by
  obtain ⟨hs, he⟩ := h
  have hd : ¬((v.queue q).st = .draining ∨ (v.queue q).st = .aborting) := by
    rintro (h | h) <;> rw [h] at hs <;> simp at hs
  have hq : ((v.onQueue q fun x => { x with hold := none }).queue q) = { v.queue q with hold := none } := onQueue_queue _ _ _
  have key : (v.onQueue q fun x => { x with hold := none }).onQueue q restState = readsOn v q := by
    rw [onQueue_twice]
    unfold readsOn
    refine onQueue_congr v q _ _ ?_
    unfold restState
    dsimp only
    rw [if_pos hs]
    simp
  unfold freeQueue settleQueue
  dsimp only
  rw [hq]
  dsimp only
  rw [if_neg hd, if_neg (fun h : _ ∧ _ => he h.1), ite_self]
  exact key

theorem holdQueue_waits (v : State) (q : QueueRef) (p : QueueHold) (h : Reading (v.queue q)) : holdQueue v q p = waitsOn v q p := by
  unfold holdQueue waitsOn
  refine onQueue_congr v q _ _ ?_
  unfold restState
  dsimp only
  rw [if_pos h.1]
  rfl

theorem fenceMerge_signalled (w v : Nat) (ab : Bool) (hw : w < 2 ^ 64) : fenceMerge w v ab = signalled w v ab := by
  unfold fenceMerge signalled
  have : (w / 2 ^ 63 % 2 = 1 ∨ ab = true) ↔ (2 ^ 63 ≤ w % 2 ^ 64 ∨ ab = true) := by
    have : w / 2 ^ 63 % 2 = 1 ↔ 2 ^ 63 ≤ w % 2 ^ 64 := by omega
    rw [this]
  rw [if_congr this rfl rfl]
  omega

theorem clock_translate (s : State) (d : Fin 2) (ctx ppn : Nat) (va : Word) (acc : Access) : ((Machine.translate s d ctx ppn va acc).1.die d).clock = (s.die d).clock :=
  (quiet_translate ..).clock d

theorem readLen (m : Memory) (n : Nat) : ∀ a, (m.read a n).length = n := by
  induction n with
  | zero => intro a; rfl
  | succ n ih => intro a; show (m.read (a + 1) n).length + 1 = _; rw [ih]

theorem toBytesLen (x n : Nat) : (toBytes x n).length = n := toBytes_len x n

theorem ofBytes_lt_eight (l : List Byte) (h : l.length = 8) : ofBytes l < 2 ^ 64 := by
  have := ofBytes_lt l
  rw [h] at this
  exact this

theorem queue_translate (s : State) (d : Fin 2) (ctx ppn : Nat) (va : Word) (acc : Access) (q : QueueRef) : (Machine.translate s d ctx ppn va acc).1.queue q = s.queue q :=
  (quiet_translate ..).queue q

theorem onQueue_die_nodes (s : State) (q : QueueRef) (f : Queue → Queue) (d : Fin 2) : ((s.onQueue q f).die d).nodes = (s.die d).nodes := by
  unfold State.onQueue
  by_cases h : q.d = d
  · subst h; rw [onDie_die]
  · rw [onDie_die_ne _ _ _ _ h]

theorem readFor_reads (s : State) (q : QueueRef) (p : Packet) (a n : Nat) (k : State → Nat → State) :
    readFor s q p a n k = match packetReads q n [a] s with
      | (u, .error (va, r)) => packetFault u q (.packet p) 0 va r
      | (u, .ok l) => k u (l.headD 0) := by
  unfold readFor packetReads packetReads
  dsimp only [queueSpace, queueParty]
  generalize readDwords s _ _ _ n = z
  obtain ⟨u, r⟩ := z
  cases r with
  | error e => rfl
  | ok b => rfl

/-- A node of a pool changed only by being made READY. -/
def Readied (m m' : Node) : Prop := m' = m ∨ ∃ now, m' = { m with
  st := .ready
  readyAt := now }

theorem readied_st {m m' : Node} (h : Readied m m') : m' = { m with
  st := m'.st
  readyAt := m'.readyAt } ∧ (m'.st = m.st ∨ m'.st = .ready) := by
  rcases h with rfl | ⟨now, rfl⟩
  · exact ⟨rfl, .inl rfl⟩
  · exact ⟨rfl, .inr rfl⟩

theorem admitNode_nodes (now : Nat) (x : Die) (id : Nat) : List.Forall₂ Readied x.nodes (admitNode now x id).nodes := by
  unfold admitNode
  split
  · unfold Die.onNode
    dsimp only
    rw [List.forall₂_map_right_iff]
    rw [List.forall₂_same]
    intro m _
    split
    · split
      · exact .inr ⟨now, rfl⟩
      · exact .inl rfl
    · exact .inl rfl
  · rw [List.forall₂_same]; exact fun m _ => .inl rfl

theorem readied_trans {a b c : List Node} (h1 : List.Forall₂ Readied a b) (h2 : List.Forall₂ Readied b c) : List.Forall₂ Readied a c := by
  induction h1 generalizing c with
  | nil => exact h2
  | cons h _ ih =>
    cases h2 with
    | cons h' t' =>
      refine .cons ?_ (ih t')
      rcases h with rfl | ⟨n, rfl⟩
      · exact h'
      · rcases h' with rfl | ⟨n', rfl⟩
        · exact .inr ⟨n, rfl⟩
        · exact .inr ⟨n', rfl⟩

theorem admit_fold (now : Nat) (l : List Nat) : ∀ x : Die, List.Forall₂ Readied x.nodes (l.foldl (admitNode now) x).nodes := by
  induction l with
  | nil => intro x; exact List.forall₂_same.2 fun m _ => .inl rfl
  | cons a l ih => intro x; exact readied_trans (admitNode_nodes now x a) (ih _)

theorem forall2_mem {a b : List Node} (h : List.Forall₂ Readied a b) (m : Node) (hm : m ∈ a) : ∃ m' ∈ b, Readied m m' := by
  induction h with
  | nil => cases hm
  | cons h _ ih =>
    rcases List.mem_cons.1 hm with rfl | hm
    · exact ⟨_, List.mem_cons_self, h⟩
    · obtain ⟨m', h1, h2⟩ := ih hm
      exact ⟨m', List.mem_cons_of_mem _ h1, h2⟩

theorem packetSeq_eq (s : State) (q : QueueRef) : BitVec.ofNat 32 (packetSeq s q) = (s.queue q).head - 1 := by
  unfold packetSeq
  exact BitVec.ofNat_toNat _ _ |>.trans (BitVec.setWidth_eq _)

/-- Tensors dealt out to the entries that name one. -/
def weave (P : Nat → Bool) : List Nat → List Nat → List Nat
  | [], _ => []
  | e :: es, ts => if P e then ts.headD 0 :: weave P es ts.tail else 0 :: weave P es ts

theorem weave_get (P : Nat → Bool) : ∀ (es ts : List Nat) (i e : Nat), es[i]? = some e → P e = true →
    (weave P es ts).getD i 0 = ts.getD ((es.take i).filter P).length 0 := by
  intro es
  induction es with
  | nil => intro ts i e h; simp at h
  | cons a es ih =>
    intro ts i e h hp
    cases i with
    | zero =>
      simp only [List.getElem?_cons_zero, Option.some.injEq] at h
      subst h
      unfold weave
      rw [if_pos hp]
      cases ts <;> rfl
    | succ i =>
      simp only [List.getElem?_cons_succ] at h
      unfold weave
      rw [List.take_succ_cons]
      by_cases ha : P a = true
      · rw [if_pos ha, List.filter_cons_of_pos ha, List.getD_cons_succ, ih _ _ _ h hp, List.length_cons]
        cases ts <;> simp
      · rw [if_neg ha, List.filter_cons_of_neg ha, List.getD_cons_succ, ih _ _ _ h hp]

theorem dealKernels_entry : ∀ (es : List Nat) (ks : List KDesc) (i : Nat) (e : Nat × List KDesc), (dealKernels es ks)[i]? = some e → es[i]? = some e.1 := by
  intro es
  induction es with
  | nil => intro ks i e h; simp [dealKernels] at h
  | cons a es ih =>
    intro ks i e h
    unfold dealKernels at h
    cases i with
    | zero => simp at h; subst h; rfl
    | succ i => simp only [List.getElem?_cons_succ] at h ⊢; exact ih _ _ _ h

theorem head_onQueue (s : State) (q : QueueRef) (f : Queue → Queue) (d h : Fin 2) : (s.onQueue q f).head d h = s.head d h := by
  unfold State.onQueue State.head
  by_cases e : q.d = d
  · subst e; rw [onDie_die]
  · rw [onDie_die_ne _ _ _ _ e]

theorem queue_onHead (s : State) (d h : Fin 2) (f : Head → Head) (q : QueueRef) : (s.onHead d h f).queue q = s.queue q := by
  unfold State.onHead
  exact queue_onDie s d _ q (fun _ => rfl)

theorem mask_off (v : Word) : v &&& 0xFFFFFFFF80FF00F0#64 &&& ~~~0x80000000#64 = v &&& 0xFFFFFFFF00FF00F0#64 := by
  rw [BitVec.and_assoc]
  rfl

theorem onHead_congr (s : State) (d h : Fin 2) (f g : Head → Head) (e : f (s.head d h) = g (s.head d h)) : s.onHead d h f = s.onHead d h g := by
  have k : ∀ k : Head → Head, s.onHead d h k = s.onDie d fun _ => { s.die d with heads := (s.die d).heads.set h (k (s.head d h)) } := fun _ => rfl
  rw [k, k, e]

theorem openLaunch_opens (s : State) (q : QueueRef) (g : Bool) (fence fval : Nat) (nodes : List Nat) :
    Opens s (openLaunch s q g fence fval nodes).1 q ⟨s.nextId, q, (s.queue q).head - 1, g, fence, fval, nodes, false⟩ ∧ (openLaunch s q g fence fval nodes).2 = s.nextId ∧
      (openLaunch s q g fence fval nodes).1.mem = s.mem ∧ (openLaunch s q g fence fval nodes).1.stage = s.stage ∧ ∀ d h, (openLaunch s q g fence fval nodes).1.head d h = s.head d h := by
  refine ⟨⟨?_, rfl, rfl, rfl, ?_⟩, rfl, rfl, rfl, fun d h => head_onQueue _ _ _ d h⟩
  · rw [← packetSeq_eq]; rfl
  · show ((State.onQueue _ q _).queue q).open_ = _
    rw [onQueue_queue]
    rfl

theorem frame_order (h : Head) (t k : Nat) (hn : 0 < headNum h) (hd : 0 < headDen h) : t ≤ frameTime h k ↔ frameAfter h t ≤ k := by
  unfold frameTime frameAfter
  by_cases ht : t ≤ h.phase.toNat
  · rw [if_pos ht]; exact ⟨fun _ => Nat.zero_le _, fun _ => Nat.le_trans ht (Nat.le_add_right _ _)⟩
  · rw [if_neg ht]
    unfold ceilDiv
    have hb : 0 < headDen h * 1000000000 := by omega
    have e : t ≤ h.phase.toNat + k * headDen h * 1000000000 / headNum h ↔ t - h.phase.toNat ≤ k * headDen h * 1000000000 / headNum h := by omega
    rw [e, Nat.le_div_iff_mul_le hn]
    generalize (t - h.phase.toNat) * headNum h = a
    rw [Nat.mul_assoc]
    generalize headDen h * 1000000000 = b at hb ⊢
    constructor
    · intro hh
      have : (a + b - 1) / b < k + 1 := by
        rw [Nat.div_lt_iff_lt_mul hb, Nat.add_mul]
        omega
      omega
    · intro hh
      have : (a + b - 1) / b < k + 1 := by omega
      rw [Nat.div_lt_iff_lt_mul hb, Nat.add_mul] at this
      omega

theorem leastFrame_after (h : Head) (t : Nat) (hr : headRefused h = false) : LeastFrame h t (frameAfter h t) := by
  have hn : 0 < headNum h ∧ 0 < headDen h := by
    unfold headRefused at hr
    simp only [Bool.or_eq_false_iff, beq_eq_false_iff_ne] at hr
    omega
  refine ⟨(frame_order h t _ hn.1 hn.2).2 (Nat.le_refl _), fun j hj => ?_⟩
  have := mt (frame_order h t j hn.1 hn.2).1 (by omega)
  omega

theorem raiseEvents_wakes (s : State) (d : Fin 2) (p : Tctl → Bool) (ev : BitVec 4) : Wakes s (raiseEvents s d p ev) d p ev := by
  unfold Wakes raiseEvents State.mapAgents State.agents
  rw [List.map_cons]
  all_goals rfl

theorem wakes_of_agents {s s' t : State} {d : Fin 2} {p : Tctl → Bool} {ev : BitVec 4} (h : Wakes s' t d p ev) (hc : s'.cur = s.cur) (ho : s'.others = s.others)
    (ht : (s'.die d).tctl = (s.die d).tctl) : Wakes s t d p ev := by
  unfold Wakes State.agents at *
  rw [h, hc, ho]
  refine List.map_congr_left fun w _ => ?_
  rw [ht]

theorem tctl_onQueue (s : State) (q : QueueRef) (f : Queue → Queue) (d : Fin 2) : ((s.onQueue q f).die d).tctl = (s.die d).tctl := by
  unfold State.onQueue
  by_cases e : q.d = d
  · subst e; rw [onDie_die]
  · rw [onDie_die_ne _ _ _ _ e]

theorem queueControl_spec (x : Queue) (v : Word) : queueControl x v =
    (if v.getLsbD 24 = true then (if x.en = true then configuredQueue x v else enableQueue (configuredQueue x v)) else
      (if x.en = true then disableQueue (configuredQueue x v) else configuredQueue x v)) := by
  have h1 : (v.extractLsb' 0 5).toNat = v.toNat % 32 := by simp
  unfold queueControl configuredQueue storeLog2
  rw [h1]
  by_cases he : x.en = true
  · simp only [he, if_true]
  · simp only [he, if_false]
    by_cases hl : 4 ≤ v.toNat % 32 ∧ v.toNat % 32 ≤ 16
    · simp only [hl]; rfl
    · rw [if_neg hl, if_neg hl]; rfl

theorem tail_moved (tail head v : BitVec 32) : tailWrite tail head v = movedTail tail head v := by
  unfold tailWrite movedTail
  by_cases h : (v - tail).toNat ≤ (head - tail).toNat
  · rw [if_neg (by omega), if_pos h]
  · rw [if_pos (by omega), if_neg h]

theorem mctlAgent_eq (v : Word) : mctlAgent v = v.toNat / 2 ^ 44 % 16 := by
  unfold mctlAgent
  rw [BitVec.extractLsb'_toNat, Nat.shiftRight_eq_div_pow]

theorem stalls_keep (s : State) (r : KnotRef) (e : Fin 2) : ((resetStalls s r).die e).fkown = (s.die e).fkown := by
  unfold resetStalls
  dsimp only
  have h : ∀ (s : State) (d : Fin 2) (g : Die → Die), (∀ x, (g x).fkown = x.fkown) → ((s.onDie d g).die e).fkown = (s.die e).fkown := by
    intro s d g hg
    by_cases hd : d = e
    · subst hd; rw [onDie_die, hg]
    · rw [onDie_die_ne _ _ _ _ hd]
  refine (h _ 1 _ ?_).trans (h _ 0 _ ?_) <;> intro x <;> rfl

theorem fkown_table (s : State) (d : Fin 2) (k : Fin 2048) (v : Word) :
    tblGet ((fkownWrite s d k.val v).die d).fkown k.val = some (BitVec.ofNat 16 (v.toNat % 8192 + if v.getLsbD 15 then 32768 else 0)) := by
  have hk : k.val % 2048 = k.val := Nat.mod_eq_of_lt k.isLt
  unfold fkownWrite
  dsimp only
  rw [hk]
  generalize hv : BitVec.ofNat 16 (v.toNat % 2 ^ 13 + if v.getLsbD 15 = true then 2 ^ 15 else 0) = b
  generalize hs : (s.onDie d fun x => { x with fkown := tblSet x.fkown k.val b }) = u
  have hu : tblGet (u.die d).fkown k.val = some b := by rw [← hs, onDie_die]; rw [tblGet_set, if_pos rfl]
  unfold testWaiters
  dsimp only
  generalize (KnotRef.far (2048 * d.val + k.val)) = r
  have h2 : ∀ w : State, (∀ e, (w.die e).fkown = (u.die e).fkown) → tblGet (((resetStalls w r)).die d).fkown k.val = some b := by
    intro w hw
    rw [stalls_keep, hw, hu]
  refine h2 _ fun e => ?_
  have hp : ∀ K : Knot, ((putKnot u r K).die e).fkown = (u.die e).fkown := by
    intro K
    cases r with
    | team id i => rfl
    | far n =>
      unfold putKnot
      dsimp only
      by_cases hd : farDie n = e
      · subst hd; rw [onDie_die]
      · rw [onDie_die_ne _ _ _ _ hd]
  exact hp _

theorem fkown_knot (s : State) (d : Fin 2) (k : Fin 2048) (v : Word) :
    getKnot (fkownWrite s d k.val v) (.far (2048 * d.val + k.val)) = { Knot.fresh 4 with
        flips := (getKnot s (.far (2048 * d.val + k.val))).flips
        kts0 := (getKnot s (.far (2048 * d.val + k.val))).kts0
        kts1 := (getKnot s (.far (2048 * d.val + k.val))).kts1 } := by
  have hk : k.val % 2048 = k.val := Nat.mod_eq_of_lt k.isLt
  unfold fkownWrite
  dsimp only
  rw [hk]
  generalize BitVec.ofNat 16 (v.toNat % 2 ^ 13 + if v.getLsbD 15 = true then 2 ^ 15 else 0) = b
  have hu : KnotsAlike s (s.onDie d fun x => { x with fkown := tblSet x.fkown k.val b }) := knots_sameTeams rfl fun e => by
    by_cases hd : d = e
    · subst hd; rw [onDie_die]
    · rw [onDie_die_ne _ _ _ _ hd]
  rw [getKnot_alike (knots_testWaiters _ _ _)]
  have key : ∀ (w : State) (l : List ErrSite), KnotsAlike w { w with softErrs := l } := fun _ _ => ⟨fun _ => rfl, fun _ => rfl⟩
  rw [getKnot_alike (key _ _), getKnot_put _ _ _ (fun id i h => by cases h), getKnot_alike hu]

theorem spoolPost_first (s : State) (d : Fin 2) (before : List SpoolRec) (r : SpoolRec) (after : List SpoolRec) (hl : (s.die d).spoolQ = before ++ r :: after)
    (hb : ∀ b ∈ before, postable (s.die d) b = false) (hr : postable (s.die d) r = true) :
    spoolPost s d = postRecord (s.onDie d fun x => { x with spoolQ := before ++ after }) d r := by
  have hf : (s.die d).spoolQ.findIdx? (postable (s.die d)) = some before.length := by
    rw [List.findIdx?_eq_some_iff_getElem]
    refine ⟨by rw [hl]; simp, ?_, fun j hj => ?_⟩
    · simp only [hl]; simpa using hr
    · have : (s.die d).spoolQ[j]'(by rw [hl]; simp; omega) = before[j] := by
        simp only [hl]
        rw [List.getElem_append_left hj]
      rw [this, hb _ (List.getElem_mem hj)]
      decide
  have hk : (s.die d).spoolQ[before.length]? = some r := by rw [hl]; simp
  unfold spoolPost
  dsimp only
  rw [hf]
  simp only [hk]
  congr 1
  have e : (s.onDie d fun x => { x with spoolQ := x.spoolQ.eraseIdx before.length }) = s.onDie d fun _ => { s.die d with spoolQ := (s.die d).spoolQ.eraseIdx before.length } := rfl
  rw [e, hl, List.eraseIdx_append_of_length_le (Nat.le_refl _)]
  simp only [Nat.sub_self, List.eraseIdx_zero, List.tail_cons]
  rfl

theorem setRes_with (x : Die) (p : Fin 8) (b : Bool) : setRes x p b = withRes x p b := by
  have h : ∀ (r : BitVec 8) (p : Fin 8) (b : Bool), BitVec.ofNat 8 (packNat 1 (fun i => if (if i = p.val then b else r.getLsbD i) then 1 else 0) 8) =
      if b then r ||| BitVec.twoPow 8 p.val else r &&& ~~~(BitVec.twoPow 8 p.val) := by decide +kernel
  unfold setRes withRes
  rw [h]

theorem die_onDie_field {α : Type} (g : Die → α) (s : State) (d e : Fin 2) (f : Die → Die) (h : ∀ x, g (f x) = g x) : g ((s.onDie d f).die e) = g (s.die e) := by
  by_cases hd : d = e
  · subst hd; rw [onDie_die, h]
  · rw [onDie_die_ne _ _ _ _ hd]

theorem onDie_congr (s : State) (d : Fin 2) (f g : Die → Die) (h : f (s.die d) = g (s.die d)) : s.onDie d f = s.onDie d g := by
  have e : ∀ k : Die → Die, s.onDie d k = { s with dies := s.dies.set d (k (s.die d)) } := fun _ => rfl
  rw [e, e, h]

theorem popOf_le (w : Nat) : ∀ x, popOf w x ≤ w := by
  induction w with
  | zero => intro x; exact Nat.le_refl 0
  | succ w ih => intro x; have := ih (x / 2); show x % 2 + popOf w (x / 2) ≤ w + 1; omega

theorem maskCount_cpop (m : BitVec 24) : m.cpop.toNat = maskCount m := by
  have h := popOf_le 24 m.toNat
  rw [← ofNat_popOf m, BitVec.toNat_ofNat, Nat.mod_eq_of_lt (by omega), maskCount]

theorem bit_eq (n k : Nat) : (BitVec.ofNat 64 n).getLsbD k = (decide (k < 64) && n.testBit k) := by
  simp [BitVec.getLsbD_ofNat]

theorem mayExtend_iff (h : HostBlock) (i : Fin 8) : mayExtend h i = true ↔ Extendable h i := by
  unfold mayExtend Extendable
  fin_cases i <;> simp

theorem take_extend (h : HostBlock) (now : Nat) (i : Fin 8) : engineTake h now (BitVec.ofNat 64 (0x100 + i.val)) =
    if mayExtend h i then { h with
          err := false
          mrIdx := i
          busy := some (.extend i h.extBuf) } else { h with
          err := true
          mrIdx := i } := by
  have e1 : ∀ i : Fin 8, (BitVec.ofNat 64 (0x100 + i.val)).getLsbD 24 = false ∧ (BitVec.ofNat 64 (0x100 + i.val)).getLsbD 25 = false ∧
      (BitVec.ofNat 64 (0x100 + i.val)).getLsbD 8 = true ∧ (BitVec.ofNat 64 (0x100 + i.val)).getLsbD 9 = false ∧
      ((BitVec.ofNat 64 (0x100 + i.val)).extractLsb' 0 3).toFin = i := by decide
  obtain ⟨a, b, c, d, e⟩ := e1 i
  unfold engineTake
  dsimp only
  simp only [a, b, c, d, e, Bool.or_false, Bool.not_false, Bool.and_true, if_true]
  rfl

theorem bootFailed_small (h : HostBlock) (n : BitVec 8) (e : h.bootStat = n) (hn : n.toNat < 0x80) : bootFailed h = false := by
  unfold bootFailed
  rw [e]
  simpa using hn

theorem extendMr_self (h : HostBlock) (i : Fin 8) (e : List Byte) : (extendMr h i e).mr[i] = sha3 (h.mr[i] ++ e) := by
  unfold extendMr
  simp

theorem extendFold (i : Fin 8) (f : Nat → List Byte) (l : List Nat) : ∀ h : HostBlock, (l.foldl (fun h k => extendMr h i (f k)) h).mr[i] = extended64 h.mr[i] (l.map f) := by
  induction l with
  | nil => intro h; rfl
  | cons a l ih => intro h; rw [List.foldl_cons, ih, extendMr_self]; rfl

theorem two_dies (d : Fin 2) : d = 0 ∨ d = 1 := by fin_cases d <;> simp

theorem startThreads_runs (s : State) (d : Fin 2) (entry : Nat) : ∀ w ∈ (startThreads s d entry).agents, ∀ th, w.who = .thread d th →
    w.pc = BitVec.ofNat 64 entry ∧ w.status = .running := by
  have key : ∀ w : Warp, ∀ th, (if (match w.who with
      | .thread d' _ => d' == d
      | _ => false) = true then { w with pc := BitVec.ofNat 64 entry, status := .running } else w).who = .thread d th →
      (if (match w.who with
      | .thread d' _ => d' == d
      | _ => false) = true then { w with pc := BitVec.ofNat 64 entry, status := .running } else w).pc = BitVec.ofNat 64 entry ∧
      (if (match w.who with
      | .thread d' _ => d' == d
      | _ => false) = true then { w with pc := BitVec.ofNat 64 entry, status := .running } else w).status = .running := by
    intro w th
    by_cases hc : (match w.who with
      | .thread d' _ => d' == d
      | _ => false) = true
    · rw [if_pos hc]; exact fun _ => ⟨rfl, rfl⟩
    · rw [if_neg hc]
      intro h
      rw [h] at hc
      simp at hc
  intro w hw th ht
  unfold startThreads State.mapAgents State.agents at hw
  rcases List.mem_cons.1 hw with rfl | hw
  · exact key s.cur th ht
  · obtain ⟨x, _, rfl⟩ := List.mem_map.1 hw
    exact key x th ht

theorem verify_shape (h : HostBlock) (k : Fin 4) (m image : List Byte) (hv : verifyImage h k m image = 0) : manifestShape k.val m = true := by
  unfold verifyImage at hv
  dsimp only at hv
  by_contra hc
  rw [if_pos (by simpa using hc)] at hv
  cases hv

theorem onDie_self (s : State) (d : Fin 2) (f : Die → Die) (h : f (s.die d) = s.die d) : s.onDie d f = s := by
  have e : s.onDie d f = { s with dies := s.dies.set d (f (s.die d)) } := rfl
  rw [e, h]
  have : s.dies.set d (s.die d) = s.dies := Vector.set_getElem_self _
  rw [this]

/-- What a flush of accounts leaves. -/
def Flushed {α : Type} (g : Die → α) (s t : State) : Prop := t.agents = s.agents ∧ t.plimit = s.plimit ∧ t.etBase = s.etBase ∧ (s.etBase = 0 → t = s) ∧
  ∀ e, g (t.die e) = g (s.die e)

theorem flushed_refl {α : Type} (g : Die → α) (s : State) : Flushed g s s := ⟨rfl, rfl, rfl, fun _ => rfl, fun _ => rfl⟩

theorem flushed_trans {α : Type} {g : Die → α} {s t u : State} (h1 : Flushed g s t) (h2 : Flushed g t u) : Flushed g s u :=
  ⟨h2.1.trans h1.1, h2.2.1.trans h1.2.1, h2.2.2.1.trans h1.2.2.1, fun h => (h2.2.2.2.1 (h1.2.2.1.trans h)).trans (h1.2.2.2.1 h), fun e => (h2.2.2.2.2 e).trans (h1.2.2.2.2 e)⟩

theorem grant_best (old charge budget : Nat) :
    ((∃ f ∈ clockSteps, charge * f * 2 ≤ budget * 1000 * (old * 10)) → grantClock old charge budget ∈ clockSteps ∧
      charge * grantClock old charge budget * 2 ≤ budget * 1000 * (old * 10) ∧ ∀ f ∈ clockSteps, charge * f * 2 ≤ budget * 1000 * (old * 10) → f ≤ grantClock old charge budget) ∧
    ((∀ f ∈ clockSteps, ¬ charge * f * 2 ≤ budget * 1000 * (old * 10)) → grantClock old charge budget = 800) := by
  unfold grantClock
  change ((∃ f ∈ clockSteps, _) → (clockSteps.find? _).getD 800 ∈ clockSteps ∧ charge * (clockSteps.find? _).getD 800 * 2 ≤ _ ∧ ∀ f ∈ clockSteps, _ → f ≤ (clockSteps.find? _).getD 800) ∧ (_ → (clockSteps.find? _).getD 800 = 800)
  cases h : clockSteps.find? fun f => decide (charge * f * 2 ≤ budget * 1000 * (old * 10)) with
  | none =>
    have hn := List.find?_eq_none.1 h
    refine ⟨fun ⟨f, hf, hc⟩ => absurd hc (by simpa using hn f hf), fun _ => rfl⟩
  | some g =>
    have hg := List.find?_some h
    have hm := List.mem_of_find?_eq_some h
    refine ⟨fun _ => ⟨hm, by simpa using hg, fun f hf hc => ?_⟩, fun hno => absurd (by simpa using hg) (hno g hm)⟩
    rw [List.find?_eq_some_iff_getElem] at h
    obtain ⟨_, i, hi, he, hb⟩ := h
    obtain ⟨j, hj, rfl⟩ := List.mem_iff_getElem.1 hf
    by_cases hij : j < i
    · have := hb j hij
      simp only [Bool.not_eq_true', decide_eq_false_iff_not] at this
      exact absurd hc this
    · subst he
      have hget : ∀ k (hk : k < clockSteps.length), clockSteps[k] = 2000 - 25 * k := by
        intro k hk
        have h49 : k < 49 := hk
        have : clockSteps[k]? = some (2000 - 25 * k) := by simp [clockSteps, List.getElem?_range h49]
        exact Option.some.inj ((List.getElem?_eq_getElem hk).symm.trans this)
      rw [Option.getD_some, hget, hget]
      omega

/-- The fields of a die that a period's flushes leave. -/
def meterFields (x : Die) : Nat × Vector Core 24 × Tbl PartRec × BitVec 8 × Nat × Vector Nat 8 × Vector Nat 8 × Nat × Nat :=
  (x.cal, x.cores, x.parts, x.res, x.fgrant, x.pused, x.pcharge, x.sysUsed, x.sysCharge)

def flushedCtx (d : Fin 2) (s : State) : State := ((s.die d).energy.map (·.1)).foldl (flushCtx d) s

def flushedDies (s : State) : State := (s.onDie 0 flushDie).onDie 1 flushDie

def arbitrated (s : State) (m : PeriodMeter) : State := { s with dies := #v[arbitrateDie s m 0, arbitrateDie s m 1] }

theorem arbitrateDie_keeps (C : State) (m : PeriodMeter) (d : Fin 2) : (arbitrateDie C m d).pused = (C.die d).pused ∧ (arbitrateDie C m d).pcharge = (C.die d).pcharge ∧
    (arbitrateDie C m d).sysUsed = (C.die d).sysUsed ∧ (arbitrateDie C m d).sysCharge = (C.die d).sysCharge := by
  unfold arbitrateDie
  generalize C.die d = x
  dsimp only
  exact ⟨rfl, rfl, rfl, rfl⟩

theorem trainCheck_ends (r : Reel) (sec : Nat) : trainCheck r sec = trainEnds r sec := by
  unfold trainCheck trainEnds
  refine if_congr ?_ rfl rfl
  refine and_congr_right fun _ => and_congr_right fun _ => ?_
  rw [List.all_eq_true]
  constructor
  · intro h l
    have := h r.links[l] (by simp)
    simpa using this
  · intro h x hx
    obtain ⟨i, hi, rfl⟩ := Vector.mem_iff_getElem.1 (by simpa using hx)
    simpa using h ⟨i, hi⟩

theorem tblGet_erase {α : Type} (t : Tbl α) (j k : Nat) : tblGet (tblErase t j) k = if k = j then none else tblGet t k := by
  unfold tblErase
  induction t with
  | nil => simp [tblGet]
  | cons a t ih =>
    obtain ⟨i, v⟩ := a
    by_cases hi : i = j
    · rw [List.filter_cons_of_neg (by simp [hi]), ih]
      by_cases hk : k = j
      · rw [if_pos hk, if_pos hk]
      · rw [if_neg hk, if_neg hk, tblGet, if_neg (by rw [hi]; exact fun h => hk h.symm)]
    · rw [List.filter_cons_of_pos (by simpa using hi), tblGet, tblGet, ih]
      by_cases hk : i = k
      · subst hk; rw [if_pos rfl, if_neg hi, if_pos rfl]
      · rw [if_neg hk, if_neg hk]

theorem closeRx_closes (s : State) (st : Nat) (x : RxCopy) (h : tblGet s.reel.rx st = some x) : RxCloses s (closeRx s st) st x := by
  unfold closeRx
  rw [h]
  dsimp only
  by_cases hr : x.ren = true
  · rw [if_pos hr]
    exact ⟨fun k => tblGet_erase _ _ _, rfl, rfl, rfl, (fun h0 => absurd (hr.symm.trans h0) (by decide)), (fun _ => ⟨_, rfl, rfl, rfl, rfl⟩)⟩
  · rw [if_neg hr]
    exact ⟨fun k => tblGet_erase _ _ _, rfl, rfl, rfl, fun _ => rfl, fun h0 => absurd h0 hr⟩

theorem flitBits_field (f : BitVec 2048) (hi lo : Nat) : flitBits f hi lo = f.toNat / 2 ^ lo % 2 ^ (hi + 1 - lo) := by
  unfold flitBits bits
  rw [Nat.shiftRight_eq_div_pow]

theorem heldBy_set (h : List (Fin 3 × Moesi)) (st : DirState) (o : Option (Fin 3)) (y : Option (BitVec 1024)) (a : Fin 3) (k : Moesi) (b : Fin 3) :
    heldBy ⟨st, o, setHeld h a k, y⟩ b = if b = a then some k else heldBy ⟨st, o, h, y⟩ b := by
  unfold heldBy setHeld
  simp only [List.find?_append]
  by_cases hb : b = a
  · subst hb
    rw [if_pos rfl]
    have : (h.filter fun p => p.1 != b).find? (fun p => p.1 == b) = none := by
      rw [List.find?_eq_none]
      intro p hp
      have := (List.mem_filter.mp hp).2
      simpa using this
    rw [this]
    simp
  · rw [if_neg hb]
    have e2 : ([(a, k)] : List (Fin 3 × Moesi)).find? (fun p => p.1 == b) = none := by
      simp [Ne.symm hb]
    rw [e2, Option.or_none]
    congr 1
    induction h with
    | nil => rfl
    | cons p h ih =>
      rw [List.filter_cons]
      by_cases hp : p.1 = a
      · rw [if_neg (by simp [hp]), ih, List.find?_cons_of_neg]
        simp [hp, Ne.symm hb]
      · rw [if_pos (by simp [hp]), List.find?_cons, List.find?_cons, ih]

theorem heldBy_fields (l : DirLine) (b : Fin 3) : heldBy l b = heldBy ⟨l.st, l.owner, l.held, l.stale⟩ b := rfl

theorem ownerDirty_eq (l : DirLine) : ownerDirty l = dirtyLine l := by
  unfold ownerDirty dirtyLine
  cases l.owner <;> rfl

theorem dropHolder_get (dir : Tbl DirLine) (line : Nat) (l : DirLine) (a : Fin 3) (j : Nat) :
    tblGet (dropHolder dir line l a) j = if j = line then restOf l a else tblGet dir j := by
  unfold dropHolder restOf
  dsimp only
  cases hr : l.held.filter fun p => p.1 != a with
  | nil => rw [if_pos rfl]; exact tblGet_erase _ _ _
  | cons p r => rw [if_neg (List.cons_ne_nil _ _)]; exact tblGet_set _ _ _ _

theorem foldErase_get {α : Type} (l : List Nat) : ∀ (t : Tbl α) (k : Nat), tblGet (l.foldl tblErase t) k = if k ∈ l then none else tblGet t k := by
  induction l with
  | nil => intro t k; simp
  | cons a l ih =>
    intro t k
    rw [List.foldl_cons, ih, tblGet_erase]
    by_cases h1 : k ∈ l
    · simp [h1]
    · by_cases h2 : k = a <;> simp [h1, h2]

theorem foldMax_le (g : Nat → Nat) (l : List Nat) : ∀ m, m ≤ l.foldl (fun m k => max m (g k)) m ∧ ∀ k ∈ l, g k ≤ l.foldl (fun m k => max m (g k)) m := by
  induction l with
  | nil => intro m; exact ⟨Nat.le_refl _, fun k hk => nomatch hk⟩
  | cons a l ih =>
    intro m
    rw [List.foldl_cons]
    have := ih (max m (g a))
    refine ⟨Nat.le_trans (Nat.le_max_left _ _) this.1, fun k hk => ?_⟩
    rcases List.mem_cons.mp hk with rfl | hk
    · exact Nat.le_trans (Nat.le_max_right _ _) this.1
    · exact this.2 k hk

theorem logError_keeps (s : State) (d : Fin 2) (r : ElogRec) : (logError s d r).dir = s.dir ∧ (logError s d r).agents = s.agents ∧ (logError s d r).mem = s.mem :=
  ⟨rfl, rfl, rfl⟩

theorem logDiscard_keeps (s : State) (a : Fin 3) (line k : Nat) : (logDiscard s a line k).dir = s.dir ∧
    (logDiscard s a line k).agents = s.agents ∧ (logDiscard s a line k).mem = s.mem :=
  ⟨rfl, rfl, rfl⟩

theorem sectorOf_bits (old : BitVec 1024) (k : Nat) : sectorOf old (k % 4) = toBytes (old.extractLsb' (256 * (k % 4)) 256).toNat 32 := by
  unfold sectorOf
  rw [BitVec.extractLsb'_toNat, Nat.shiftRight_eq_div_pow, Nat.mod_mod]
  exact (toBytes_mod 32 _).symm

theorem loseSector_keeps (s : State) (a : Fin 3) (line k : Nat) (old : BitVec 1024) :
    (loseSector s a line k old).dir = s.dir ∧ (loseSector s a line k old).agents = s.agents ∧
    (loseSector s a line k old).mem = s.mem.write (128 * line + 32 * (k % 4)) (toBytes (old.extractLsb' (256 * (k % 4)) 256).toNat 32) := by
  unfold loseSector
  rw [sectorOf_bits]
  generalize toBytes (old.extractLsb' (256 * (k % 4)) 256).toNat 32 = bs
  exact logDiscard_keeps _ _ _ _

theorem outside_dir (s : State) (pa : Nat) (bs : List Byte) : (outsideStore s pa bs).dir = s.dir := by
  unfold outsideStore
  split
  · rfl
  · dsimp only
    generalize sectorsOf pa bs.length = l
    induction l generalizing s with
    | nil => rfl
    | cons a l ih => rw [List.foldl_cons, ih]; rfl

theorem dwordAddrs_one (a : Nat) (h : a % 8 = 0) : dwordAddrs a 8 = [a] := by
  unfold dwordAddrs dwordsOf
  rw [if_neg (by decide)]
  have e1 : (a + 8 - 1) / 8 - a / 8 + 1 = 1 := by omega
  rw [e1]
  show [8 * (0 + a / 8)] = [a]
  congr 1; omega

theorem sdMatches_iff (x : Shootdown) (e : TlbEntry) : sdMatches x e = true ↔ ShotDown x e := by
  unfold sdMatches ShotDown
  split
  · rename_i h; rw [if_pos h]; simp
  · rename_i h; rw [if_neg (by omega), if_pos h]; simp
  · rename_i h0 h1
    rw [if_neg (fun e => h0 e), if_neg (fun e => h1 e)]
    simp

theorem cleanLine_eq (a : Fin 3) (l : DirLine) : cleanLine a l = cleaned l a := by
  unfold cleanLine cleaned
  cases h : heldBy l a with
  | none => simp
  | some m => cases m <;> simp

theorem tblGet_mapKeyed {α β : Type} (l : Tbl α) (g : Nat → α → β) (j : Nat) : tblGet (l.map fun q => (q.1, g q.1 q.2)) j = (tblGet l j).map (g j) := by
  induction l with
  | nil => rfl
  | cons q l ih =>
    rw [List.map_cons]
    show (if q.1 = j then some (g q.1 q.2) else _) = Option.map (g j) (if q.1 = j then some q.2 else _)
    split
    · rename_i h; rw [h]; rfl
    · exact ih

theorem sampler_drop (x : Shootdown) (c : Nat) : (!(x.mode == 2 || c == x.ctx)) = true ↔ x.mode ≠ 2 ∧ c ≠ x.ctx := by
  rw [Bool.not_eq_true', Bool.or_eq_false_iff, beq_eq_false_iff_ne, beq_eq_false_iff_ne]

theorem foldMin_lt {α : Type} (g : α → Nat) (l : List α) (x : Nat) : ∀ m, x < l.foldl (fun m t => min m (g t)) m ↔ x < m ∧ ∀ t ∈ l, x < g t := by
  induction l with
  | nil => intro m; simp
  | cons a l ih =>
    intro m
    rw [List.foldl_cons, ih, List.forall_mem_cons, Nat.lt_min]
    tauto

theorem mem_allTargets (r : RasterState) (t : TexDesc) : t ∈ allTargets r ↔ some t ∈ r.depth :: r.targets := by
  unfold allTargets
  rw [List.mem_append, List.mem_filterMap, List.mem_cons, Option.mem_toList]
  constructor
  · rintro (⟨x, hx, h⟩ | h)
    · cases h; exact .inr hx
    · exact .inl h.symm
  · rintro (h | h)
    · exact .inr h.symm
    · exact .inl ⟨_, h, rfl⟩

theorem takes_iff (r : RasterState) (d : Fin 2) (px py : Nat) : (px < coverW r ∧ py < coverH r ∧ dieTakes r d px py = true) ↔ TakesPixel r d px py := by
  unfold coverW coverH TakesPixel dieTakes
  rw [foldMin_lt, foldMin_lt, Bool.or_eq_true, bne_iff_ne, beq_iff_eq]
  constructor
  · rintro ⟨⟨h1, h2⟩, ⟨h3, h4⟩, h5⟩
    refine ⟨h1, h3, fun t ht => ⟨h2 t ((mem_allTargets r t).2 ht), h4 t ((mem_allTargets r t).2 ht)⟩, fun hs => ?_⟩
    rcases h5 with h5 | h5
    · exact absurd hs h5
    · exact h5
  · rintro ⟨h1, h3, h2, h5⟩
    refine ⟨⟨h1, fun t ht => (h2 t ((mem_allTargets r t).1 ht)).1⟩, ⟨h3, fun t ht => (h2 t ((mem_allTargets r t).1 ht)).2⟩, ?_⟩
    by_cases hs : rsSfr r = 1
    · exact .inr (h5 hs)
    · exact .inl hs

theorem edgeHolds_iff (a b : ScreenVert) (x y : Int) : edgeHolds a b x y = true ↔
    0 < edgeAt a b x y ∨ edgeAt a b x y = 0 ∧ (a.y = b.y ∧ a.x < b.x ∨ b.y < a.y) := by
  unfold edgeHolds
  dsimp only
  generalize edgeAt a b x y = e
  rw [Bool.or_eq_true, decide_eq_true_iff, Bool.and_eq_true, beq_iff_eq, Bool.or_eq_true, Bool.and_eq_true, beq_iff_eq, decide_eq_true_iff, decide_eq_true_iff]

theorem covers_iff (t : Tri) (px py : Nat) : triCovers t (sampleOf px) (sampleOf py) = true ↔ CoversPixel t px py := by
  unfold triCovers CoversPixel sampleOf
  dsimp only
  split <;> simp only [List.mem_cons, List.not_mem_nil, or_false, forall_eq_or_imp, forall_eq, Bool.and_eq_true, edgeHolds_iff, edgeAt, edgeFn, and_assoc]

/-- What the edges give of the place of a covered sample. -/
theorem covers_inside (t : Tri) (x y : Int) (ha : t.area = edgeAt t.v0 t.v1 t.v2.x t.v2.y) (hn : t.area ≠ 0) (h : triCovers t x y = true) :
    (min t.v0.x (min t.v1.x t.v2.x) ≤ x ∧ x ≤ max t.v0.x (max t.v1.x t.v2.x)) ∧ (min t.v0.y (min t.v1.y t.v2.y) ≤ y ∧ y ≤ max t.v0.y (max t.v1.y t.v2.y)) := by
  have hold : ∀ a b : ScreenVert, edgeHolds a b x y = true → 0 ≤ edgeAt a b x y := by
    intro a b hh
    unfold edgeHolds at hh
    dsimp only at hh
    rw [Bool.or_eq_true, decide_eq_true_eq, Bool.and_eq_true, beq_iff_eq] at hh
    rcases hh with hh | hh <;> omega
  have core : ∀ (A e0 e1 e2 x0 x1 x2 X : Int), 0 < A → 0 ≤ e0 → 0 ≤ e1 → 0 ≤ e2 → A = e0 + e1 + e2 → A * X = e0 * x0 + e1 * x1 + e2 * x2 →
      min x0 (min x1 x2) ≤ X ∧ X ≤ max x0 (max x1 x2) := by
    intro A e0 e1 e2 x0 x1 x2 X hA h0 h1 h2 hs hX
    constructor
    · have hm0 : min x0 (min x1 x2) ≤ x0 := by omega
      have hm1 : min x0 (min x1 x2) ≤ x1 := by omega
      have hm2 : min x0 (min x1 x2) ≤ x2 := by omega
      generalize min x0 (min x1 x2) = m at *
      have k0 := mul_le_mul_of_nonneg_left hm0 h0
      have k1 := mul_le_mul_of_nonneg_left hm1 h1
      have k2 := mul_le_mul_of_nonneg_left hm2 h2
      refine le_of_mul_le_mul_left ?_ hA
      rw [hX, hs, add_mul, add_mul]
      linarith
    · have hm0 : x0 ≤ max x0 (max x1 x2) := by omega
      have hm1 : x1 ≤ max x0 (max x1 x2) := by omega
      have hm2 : x2 ≤ max x0 (max x1 x2) := by omega
      generalize max x0 (max x1 x2) = m at *
      have k0 := mul_le_mul_of_nonneg_left hm0 h0
      have k1 := mul_le_mul_of_nonneg_left hm1 h1
      have k2 := mul_le_mul_of_nonneg_left hm2 h2
      refine le_of_mul_le_mul_left ?_ hA
      rw [hX, hs, add_mul, add_mul]
      linarith
  unfold triCovers at h
  split at h
  · rename_i hp
    simp only [Bool.and_eq_true] at h
    have e01 := hold _ _ h.1.1
    have e12 := hold _ _ h.1.2
    have e20 := hold _ _ h.2
    rw [ha] at hp
    unfold edgeAt edgeFn at *
    exact ⟨core _ _ _ _ t.v0.x t.v1.x t.v2.x x hp e12 e20 e01 (by ring) (by ring), core _ _ _ _ t.v0.y t.v1.y t.v2.y y hp e12 e20 e01 (by ring) (by ring)⟩
  · rename_i hp
    simp only [Bool.and_eq_true] at h
    have e01 := hold _ _ h.1.1
    have e12 := hold _ _ h.1.2
    have e20 := hold _ _ h.2
    have hp : 0 < -t.area := by omega
    rw [ha] at hp
    unfold edgeAt edgeFn at *
    exact ⟨core _ _ _ _ t.v0.x t.v1.x t.v2.x x hp e12 e20 e01 (by ring) (by ring), core _ _ _ _ t.v0.y t.v1.y t.v2.y y hp e12 e20 e01 (by ring) (by ring)⟩

theorem span_holds (lo hi : Int) (lim p : Nat) (h1 : lo ≤ sampleOf p) (h2 : sampleOf p ≤ hi) (h3 : p < lim) :
    (pixelSpan lo hi lim).1 ≤ p ∧ p < (pixelSpan lo hi lim).2 := by
  unfold pixelSpan sampleOf at *
  dsimp only
  omega

/-- A quad has lane `j` covered. -/
theorem quad_cover (f : Nat → Bool) (j : Nat) (hj : j < 4) : (packNat 1 (fun j => if f j = true then 1 else 0) 4).testBit j = f j := by
  have := packNat_field 1 (fun j => if f j = true then 1 else 0) 4 j hj
  rw [Nat.one_mul] at this
  rw [Nat.testBit, Nat.one_and_eq_mod_two]
  have this' : packNat 1 (fun j => if f j = true then 1 else 0) 4 >>> j % 2 = (if f j = true then 1 else 0) % 2 ^ 1 := this
  rw [this']
  cases f j <;> rfl

theorem pack_zero (f : Nat → Bool) (h : packNat 1 (fun j => if f j = true then 1 else 0) 4 = 0) (j : Nat) (hj : j < 4) : f j = false := by
  rw [← quad_cover f j hj, h, Nat.zero_testBit]

theorem setup_area (r : RasterState) (prov : List Nat) (prim : Nat) (v0 v1 v2 : ScreenVert) : ∀ t ∈ setupTri r prov prim v0 v1 v2,
    t.area = edgeAt t.v0 t.v1 t.v2.x t.v2.y ∧ t.area ≠ 0 := by
  unfold setupTri
  dsimp only
  split
  · intro t ht; exact nomatch ht
  · rename_i h
    intro t ht
    rw [List.mem_singleton] at ht
    subst ht
    exact ⟨rfl, fun h0 => h (.inl h0)⟩

theorem fan_area (r : RasterState) (prov : List Nat) (prim : Nat) (v0 : ScreenVert) (l : List ScreenVert) : ∀ t ∈ fanTris r prov prim v0 l,
    t.area = edgeAt t.v0 t.v1 t.v2.x t.v2.y ∧ t.area ≠ 0 := by
  induction l with
  | nil => intro t ht; exact nomatch ht
  | cons a l ih =>
    cases l with
    | nil => intro t ht; exact nomatch ht
    | cons b rest =>
      intro t ht
      rcases List.mem_append.mp (show t ∈ setupTri r prov prim v0 a b ++ fanTris r prov prim v0 (b :: rest) from ht) with h | h
      · exact setup_area _ _ _ _ _ _ t h
      · exact ih t h

theorem prim_area (r : RasterState) (b : Batch) (prim : Nat) (ix : Nat × Nat × Nat) : ∀ t ∈ primTris r b prim ix,
    t.area = edgeAt t.v0 t.v1 t.v2.x t.v2.y ∧ t.area ≠ 0 := by
  unfold primTris
  split
  · dsimp only
    split
    · intro t ht; exact nomatch ht
    · split
      · intro t ht; exact nomatch ht
      · exact fan_area _ _ _ _ _
  · intro t ht; exact nomatch ht

/-! packing -/

theorem chunks_spec {α : Type} (n : Nat) (hn : 0 < n) : ∀ (fuel : Nat) (l : List α), l.length < fuel →
    (chunks n fuel l).flatten = l ∧ ∀ w ∈ chunks n fuel l, w ≠ [] ∧ w.length ≤ n := by
  intro fuel
  induction fuel with
  | zero => intro l h; omega
  | succ fuel ih =>
    intro l h
    unfold chunks
    cases l with
    | nil => exact ⟨rfl, fun w hw => nomatch hw⟩
    | cons a l =>
      have hl : ((a :: l).drop n).length < fuel := by rw [List.length_drop, List.length_cons]; rw [List.length_cons] at h; omega
      obtain ⟨i1, i2⟩ := ih _ hl
      rw [if_neg (by simp)]
      refine ⟨?_, fun w hw => ?_⟩
      · rw [List.flatten_cons, i1, List.take_append_drop]
      · rcases List.mem_cons.mp hw with rfl | hw
        · refine ⟨fun h0 => ?_, by rw [List.length_take]; omega⟩
          have := congrArg List.length h0
          rw [List.length_take, List.length_cons, List.length_nil] at this
          omega
        · exact i2 w hw

theorem pack_spec (qs : List Quad) :
    (∀ w ∈ packQuads qs, w ≠ [] ∧ w.length ≤ 32 ∧ ∃ b, ∀ q ∈ w, quadBlock q = b) ∧ ∀ q, q ∈ (packQuads qs).flatten ↔ q ∈ qs := by
  unfold packQuads
  have h := fun b : Nat × Nat => chunks_spec 32 (by decide) ((qs.filter fun q => quadBlock q == b).length + 1) (qs.filter fun q => quadBlock q == b) (Nat.lt_succ_self _)
  refine ⟨fun w hw => ?_, fun q => ?_⟩
  · rw [List.mem_flatMap] at hw
    obtain ⟨b, -, hw⟩ := hw
    have := (h b).2 w hw
    refine ⟨this.1, this.2, b, fun q hq => ?_⟩
    have hm : q ∈ (qs.filter fun q => quadBlock q == b) := by
      rw [← (h b).1]
      exact List.mem_flatten.mpr ⟨w, hw, hq⟩
    exact beq_iff_eq.mp (List.mem_filter.mp hm).2
  · rw [List.mem_flatten]
    constructor
    · rintro ⟨w, hw, hq⟩
      rw [List.mem_flatMap] at hw
      obtain ⟨b, -, hw⟩ := hw
      have hm : q ∈ (qs.filter fun q => quadBlock q == b) := by
        rw [← (h b).1]
        exact List.mem_flatten.mpr ⟨w, hw, hq⟩
      exact (List.mem_filter.mp hm).1
    · intro hq
      have hm : q ∈ (qs.filter fun q' => quadBlock q' == quadBlock q) := List.mem_filter.mpr ⟨hq, beq_self_eq_true _⟩
      rw [← (h _).1] at hm
      obtain ⟨w, hw, hq2⟩ := List.mem_flatten.mp hm
      exact ⟨w, List.mem_flatMap.mpr ⟨quadBlock q, List.mem_eraseDups.mpr (List.mem_map.mpr ⟨q, hq, rfl⟩), hw⟩, hq2⟩

/-- What warps of quads become: nodes numbered from `id`, and their fragments. -/
def newFrags (g : Node) (r : RasterState) : Nat → List (List Quad) → List Fragment
  | _, [] => []
  | id, w :: ws => warpFragments r g.id id w ++ newFrags g r (id + 1) ws

theorem newFrags_mem (g : Node) (r : RasterState) (ws : List (List Quad)) : ∀ id f, f ∈ newFrags g r id ws ↔ ∃ i w, ws[i]? = some w ∧ f ∈ warpFragments r g.id (id + i) w := by
  induction ws with
  | nil => intro id f; simp [newFrags]
  | cons w ws ih =>
    intro id f
    show f ∈ warpFragments r g.id id w ++ newFrags g r (id + 1) ws ↔ _
    rw [List.mem_append, ih]
    constructor
    · rintro (h | ⟨i, w', h1, h2⟩)
      · exact ⟨0, w, rfl, h⟩
      · exact ⟨i + 1, w', h1, by rw [show id + (i + 1) = id + 1 + i from by omega]; exact h2⟩
    · rintro ⟨i, w', h1, h2⟩
      cases i with
      | zero => cases h1; exact .inl h2
      | succ i => exact .inr ⟨i, w', h1, by rw [show id + 1 + i = id + (i + 1) from by omega]; exact h2⟩

/-- A node but for its note of fragment warps. -/
def bare (m : Node) : Node := { m with fragTeams := [] }

theorem spawn_all (d : Fin 2) (g : Node) (r : RasterState) (ws : List (List Quad)) : ∀ s : State,
    ∃ nodes, let v := ws.foldl (spawnFragment d g r) s
      v.mem = s.mem ∧ v.agents = s.agents ∧ (v.die d).front = (s.die d).front ∧ (v.die d).frags = (s.die d).frags ++ newFrags g r s.nextId ws ∧
      (v.die d).nodes = ((s.die d).nodes.map fun m => if m.id = g.id then { m with
          fragTeams := m.fragTeams ++ (List.range ws.length).map (s.nextId + ·) } else m) ++ nodes ∧
      nodes.length = ws.length ∧
      ∀ i w n, ws[i]? = some w → nodes[i]? = some n → bare n = bare (fragmentNode g r (s.nextId + i) (stageNs s) w) := by
  induction ws with
  | nil =>
    intro s
    refine ⟨[], rfl, rfl, rfl, (List.append_nil _).symm, ?_, rfl, fun i w n h => nomatch h⟩
    rw [List.append_nil]
    have : ∀ l : List Node, (l.map fun m => if m.id = g.id then { m with fragTeams := m.fragTeams ++ (List.range 0).map (s.nextId + ·) } else m) = l := by
      intro l
      rw [List.map_congr_left (g := id) (fun m _ => by split <;> simp)]
      exact List.map_id _
    exact (this _).symm
  | cons w ws ih =>
    intro s
    obtain ⟨nodes, h1, h2, h3, h4, h5, h6, h7⟩ := ih (spawnFragment d g r s w)
    have hd : (spawnFragment d g r s w).die d = { s.die d with
        nodes := (s.die d).nodes.map (fun m : Node => if m.id == g.id then { m with fragTeams := m.fragTeams ++ [s.nextId] } else m) ++ [fragmentNode g r s.nextId (stageNs s) w]
        frags := (s.die d).frags ++ warpFragments r g.id s.nextId w } := by
      unfold spawnFragment
      exact onDie_die _ _ _
    have hn : (spawnFragment d g r s w).nextId = s.nextId + 1 := rfl
    have hst : stageNs (spawnFragment d g r s w) = stageNs s := rfl
    rw [hd, hn] at h4 h5
    rw [hn, hst] at h7
    rw [hd] at h3
    refine ⟨(fun m : Node => if m.id = g.id then { m with fragTeams := m.fragTeams ++ (List.range ws.length).map (s.nextId + 1 + ·) } else m) (fragmentNode g r s.nextId (stageNs s) w) :: nodes,
      h1, h2, h3, ?_, ?_, ?_, ?_⟩
    · rw [List.foldl_cons, h4, List.append_assoc]; rfl
    · rw [List.foldl_cons, h5, List.map_append, List.append_assoc, List.map_map]
      congr 1
      apply List.map_congr_left
      intro m _
      rw [Function.comp_apply]
      by_cases he : m.id = g.id
      · rw [if_pos (beq_iff_eq.mpr he), if_pos he, if_pos he]
        dsimp only
        rw [List.append_assoc, List.length_cons, List.range_succ_eq_map, List.map_cons, List.map_map]
        congr 2
        show _ :: _ = _
        congr 1
        apply List.map_congr_left
        intro k _
        show s.nextId + 1 + k = s.nextId + (k + 1)
        omega
      · rw [if_neg (fun h => he (beq_iff_eq.mp h)), if_neg he, if_neg he]
    · rw [List.length_cons, List.length_cons, h6]
    · intro i w' n hi hnn
      cases i with
      | zero =>
        cases hi
        have : (if (fragmentNode g r s.nextId (stageNs s) w).id = g.id then { fragmentNode g r s.nextId (stageNs s) w with
          fragTeams := (fragmentNode g r s.nextId (stageNs s) w).fragTeams ++ (List.range ws.length).map (s.nextId + 1 + ·) } else fragmentNode g r s.nextId (stageNs s) w) = n :=
          Option.some.inj hnn
        rw [← this]
        split <;> rfl
      | succ i =>
        rw [show s.nextId + (i + 1) = s.nextId + 1 + i from by omega]
        exact h7 i w' n hi hnn

theorem laneOfQuads_some (r : RasterState) (qs : List Quad) (l : Nat) (q : Quad) (h : qs[l / 4]? = some q) :
    ∃ x, laneOfQuads r qs l = some (q, x) := by
  unfold laneOfQuads
  rw [h]
  exact ⟨_, rfl⟩

theorem laneOfQuads_none (r : RasterState) (qs : List Quad) (l : Nat) (h : qs[l / 4]? = none) : laneOfQuads r qs l = none := by
  unfold laneOfQuads
  rw [h]
  rfl

theorem warpFragments_mem (r : RasterState) (node owner : Nat) (qs : List Quad) (f : Fragment) : f ∈ warpFragments r node owner qs ↔
    ∃ l q zf, l < 4 * qs.length ∧ qs[l / 4]? = some q ∧ (laneOfQuads r qs l).map (fun x => x.2.1) = some zf ∧ q.cover.testBit (l % 4) = true ∧
      f = { node, rs := r, owner, lane := l, px := quadPx q (l % 4), py := quadPy q (l % 4), zf := BitVec.ofNat 32 zf, depth := none, ops := [], test := .untested, complete := false } := by
  unfold warpFragments
  rw [List.mem_filterMap]
  constructor
  · rintro ⟨l, hl, h⟩
    have hl := List.mem_range.mp hl
    cases hq : qs[l / 4]? with
    | none => rw [laneOfQuads_none r qs l hq] at h; exact nomatch h
    | some q =>
      obtain ⟨x, hx⟩ := laneOfQuads_some r qs l q hq
      rw [hx] at h
      dsimp only at h
      split at h
      · rename_i hc
        exact ⟨l, q, x.1, hl, hq, by rw [hx]; rfl, hc, (Option.some.inj h).symm⟩
      · exact nomatch h
  · rintro ⟨l, q, zf, hl, hq, hz, hc, rfl⟩
    refine ⟨l, List.mem_range.mpr hl, ?_⟩
    obtain ⟨x, hx⟩ := laneOfQuads_some r qs l q hq
    rw [hx] at hz ⊢
    cases hz
    dsimp only
    rw [if_pos hc]

def FragHeld (before : List Fragment) (f : Fragment) : Prop := ∃ g ∈ before, g.px = f.px ∧ g.py = f.py ∧ shareTarget g.rs f.rs = true

def FragReady (f : Fragment) : Prop := f.depth.isSome = true ∧ (f.test = .untested ∨ f.ops ≠ [])

theorem ready_iff (f : Fragment) : fragmentReady f = true ↔ FragReady f := by
  unfold fragmentReady FragReady
  rw [Bool.and_eq_true, Bool.or_eq_true, beq_iff_eq, Bool.not_eq_true', List.isEmpty_eq_false_iff]

theorem held_iff (before : List Fragment) (f : Fragment) : (before.any fun g => g.px == f.px && g.py == f.py && shareTarget g.rs f.rs) = true ↔ FragHeld before f := by
  unfold FragHeld
  simp only [List.any_eq_true, Bool.and_eq_true, beq_iff_eq, and_assoc]

theorem next_none (l : List Fragment) : ∀ before, (∀ b f a, l = b ++ f :: a → FragReady f → FragHeld (before ++ b) f) → nextFragment before l = none := by
  induction l with
  | nil => intro before _; rfl
  | cons f l ih =>
    intro before h
    show (if (fragmentReady f && !(before.any fun g => g.px == f.px && g.py == f.py && shareTarget g.rs f.rs)) = true then some f else nextFragment (before ++ [f]) l) = none
    rw [if_neg (fun hc => by
      rw [Bool.and_eq_true, Bool.not_eq_true'] at hc
      have h1 := h [] f l rfl ((ready_iff f).1 hc.1)
      rw [List.append_nil, ← held_iff, hc.2] at h1
      exact nomatch h1)]
    apply ih
    intro b f' a e hr
    rw [List.append_assoc]
    exact h (f :: b) f' a (by rw [e]; rfl) hr

theorem next_some (b : List Fragment) : ∀ before f a, FragReady f → ¬ FragHeld (before ++ b) f →
    (∀ b2 f2 a2, b = b2 ++ f2 :: a2 → FragReady f2 → FragHeld (before ++ b2) f2) → nextFragment before (b ++ f :: a) = some f := by
  induction b with
  | nil =>
    intro before f a hr hh _
    rw [List.append_nil] at hh
    show (if (fragmentReady f && !(before.any fun g => g.px == f.px && g.py == f.py && shareTarget g.rs f.rs)) = true then some f else _) = some f
    rw [if_pos]
    rw [Bool.and_eq_true, Bool.not_eq_true', ← Bool.not_eq_true, held_iff]
    exact ⟨(ready_iff f).2 hr, hh⟩
  | cons x b ih =>
    intro before f a hr hh he
    show (if (fragmentReady x && !(before.any fun g => g.px == x.px && g.py == x.py && shareTarget g.rs x.rs)) = true then some x else nextFragment (before ++ [x]) (b ++ f :: a)) = some f
    rw [if_neg (fun hc => by
      rw [Bool.and_eq_true, Bool.not_eq_true'] at hc
      have h1 := he [] x b rfl ((ready_iff x).1 hc.1)
      rw [List.append_nil, ← held_iff, hc.2] at h1
      exact nomatch h1)]
    apply ih
    · exact hr
    · rw [List.append_assoc]; exact hh
    · intro b2 f2 a2 e hr2
      rw [List.append_assoc]
      exact he (x :: b2) f2 a2 (by rw [e]; rfl) hr2

theorem f32le_cond (a b : Nat) : f32le a b = floatCompares 3 (decodeFp fmtF32 a) (decodeFp fmtF32 b) := by
  rw [← cond_spec 3 (by decide)]
  unfold f32le f32val fpCond condHolds
  cases (decodeFp fmtF32 a).isNan <;> cases (decodeFp fmtF32 b).isNan <;> rfl

theorem zPasses_f32 (fn : Nat) (hf : fn < 8) (a b : Nat) :
    zPasses fn (f32lt a b) (f32le a b && f32le b a) (!(f32nan a) && !(f32nan b)) = depthHolds false fn a b := by
  rw [f32lt_below, f32le_cond, f32le_cond]
  unfold depthHolds f32nan f32val
  dsimp only
  generalize decodeFp fmtF32 a = x
  generalize decodeFp fmtF32 b = y
  have as := below_asymm x y
  have n1 : fvBelow x y = true → _ := below_nan x y
  have n2 : fvBelow y x = true → _ := below_nan y x
  interval_cases fn <;> simp only [zPasses, floatCompares] <;> revert as n1 n2 <;> cases x.isNan <;> cases y.isNan <;> cases fvBelow x y <;> cases fvBelow y x <;> simp

theorem zPasses_code (fn : Nat) (hf : fn < 8) (a b : Nat) : zPasses fn (decide (a < b)) (a == b) true = depthHolds true fn a b := by
  unfold depthHolds
  dsimp only
  have h1 : (a == b) = decide (a = b) := by rw [Bool.eq_iff_iff, beq_iff_eq, decide_eq_true_iff]
  rw [h1, Bool.eq_iff_iff]
  interval_cases fn <;> simp [zPasses] <;> omega

theorem inside_unit (z : Nat) : (!(f32le 0 z && f32le z f32one)) =
    ((decodeFp fmtF32 z).isNan || fvBelow (decodeFp fmtF32 z) (decodeFp fmtF32 0) || fvBelow (decodeFp fmtF32 0x3F800000) (decodeFp fmtF32 z)) := by
  rw [f32le_cond, f32le_cond]
  unfold f32one
  have h0 : (decodeFp fmtF32 0).isNan = false := by decide
  have h1 : (decodeFp fmtF32 0x3F800000).isNan = false := by decide
  generalize decodeFp fmtF32 0 = o at *
  generalize decodeFp fmtF32 0x3F800000 = i at *
  generalize decodeFp fmtF32 z = x
  unfold floatCompares
  dsimp only
  rw [h0, h1]
  cases x.isNan <;> cases fvBelow x o <;> cases fvBelow i x <;> rfl

theorem zfunc_lt (r : RasterState) : rsZfunc r < 8 := by
  unfold rsZfunc rsBits bits
  exact Nat.mod_lt _ (by decide)

/-- From `s` to `u` memory becomes `m`, and neither the agents nor any fragment changes. -/
def FragMem (s u : State) (m : Memory) : Prop := u.mem = m ∧ u.agents = s.agents ∧ ∀ e, (u.die e).frags = (s.die e).frags

theorem vlMask_pos (w : Warp) (pl : Nat) (h : pl < 128) : (vlMask w).getLsbD pl = (match posOf w pl with
    | some p => decide (p < w.vl)
    | none => false) := by
  unfold vlMask
  rw [buildMask_getLsbD _ _ h]
  all_goals (cases posOf w pl <;> rfl)

theorem division_rule {n : Nat} (hn : 1 < n) (sg : Bool) (a b : BitVec n) : DivisionRule n sg a b (quotient sg a b) (remainder sg a b) := by
  unfold DivisionRule
  unfold quotient remainder asInt
  refine ⟨fun h => ?_, fun h hs ha hb => ?_, fun h hne => ?_, fun hs hr => ?_⟩
  · rw [if_pos h, if_pos h]; exact ⟨rfl, rfl⟩
  · rw [if_neg h, if_neg h, if_pos hs, if_pos hs, ha, hb]
    refine ⟨BitVec.intMin_sdiv_neg_one, ?_⟩
    apply BitVec.eq_of_toInt_eq
    rw [BitVec.toInt_srem]
    have : (-1 : BitVec n).toInt = -1 := by
      show (-1#n).toInt = -1
      rw [BitVec.neg_one_eq_allOnes, BitVec.toInt_allOnes, if_pos (by omega)]
    rw [this]; simp
  · rw [if_neg h, if_neg h]
    cases sg
    · simp only [Bool.false_eq_true, if_false, BitVec.toNat_udiv, BitVec.toNat_umod]
      refine ⟨by simp [Int.tdiv_eq_ediv], ?_⟩
      have := Nat.div_add_mod a.toNat b.toNat
      push_cast
      have e : (a.toNat : Int) = b.toNat * (a.toNat / b.toNat) + a.toNat % b.toNat := by exact_mod_cast this.symm
      linarith [mul_comm (b.toNat : Int) ((a.toNat : Int) / b.toNat)]
    · simp only [if_true]
      have h1 : (a.sdiv b).toInt = a.toInt.tdiv b.toInt := by
        apply BitVec.toInt_sdiv_of_ne_or_ne
        by_contra hc
        push_neg at hc
        exact hne ⟨rfl, hc.1, hc.2⟩
      rw [h1, BitVec.toInt_srem]
      refine ⟨rfl, ?_⟩
      have := Int.mul_tdiv_add_tmod a.toInt b.toInt
      linarith [mul_comm b.toInt (a.toInt.tdiv b.toInt)]
  · subst hs
    by_cases h : b = 0
    · rw [if_pos h]
    · rw [if_neg h, if_pos rfl] at hr ⊢
      rw [BitVec.toInt_srem]
      have hne : a.toInt.tmod b.toInt ≠ 0 := by
        intro h0
        apply hr
        apply BitVec.eq_of_toInt_eq
        rw [BitVec.toInt_srem, h0]; simp
      constructor
      · intro hlt
        by_contra hc
        have := Int.tmod_nonneg b.toInt (Int.not_lt.mp hc)
        omega
      · intro hlt
        have h2 : (-a.toInt).tmod b.toInt = -(a.toInt.tmod b.toInt) := Int.neg_tmod _ _
        have := Int.tmod_nonneg (a := -a.toInt) b.toInt (by omega)
        omega

theorem parse_sub (w : Word) (c : Nat) (h : parse w = .error c) : c < 256 := by
  unfold parse at h
  split at h
  all_goals first
    | (cases h; decide)
    | (unfold parse01 at h; split at h <;> cases h <;> decide)
    | (unfold parse02 at h; split at h <;> cases h <;> decide)
    | (unfold parse03 at h; split at h <;> cases h <;> decide)
    | (unfold parse04 at h; split at h <;> cases h <;> decide)
    | (unfold parse05 at h; split at h <;> (try split at h) <;> cases h <;> decide)
    | (unfold parse06 at h; split at h <;> (try split at h) <;> (try split at h) <;> cases h <;> decide)
    | (unfold parse08 at h; split at h <;> cases h <;> decide)
    | (unfold parse09 at h; split at h <;> cases h <;> decide)
    | (unfold parse0A at h; split at h <;> cases h <;> decide)
    | (unfold parse0B at h; split at h <;> cases h <;> decide)
    | (unfold parse0C at h; split at h <;> cases h <;> decide)
    | (unfold parse10 at h; split at h <;> (try split at h) <;> (try split at h) <;> cases h <;> decide)
    | (unfold parse11 at h; split at h <;> (try split at h) <;> cases h <;> decide)
    | (unfold parse12 at h; split at h <;> (try split at h) <;> cases h <;> decide)
    | (unfold parse13 at h; split at h <;> (try split at h) <;> cases h <;> decide)
    | (unfold parse14 at h; split at h <;> cases h <;> decide)
    | (unfold parse15 at h; split at h <;> cases h <;> decide)
    | (unfold parse18 at h; split at h <;> cases h <;> decide)
    | (unfold parse19 at h; split at h <;> cases h <;> decide)
    | (unfold parse1A at h; split at h <;> cases h <;> decide)
    | (unfold parse1B at h; split at h <;> (try split at h) <;> cases h <;> decide)
    | (unfold parse1C at h; split at h <;> (try split at h) <;> cases h <;> decide)
    | (unfold parse1D at h; split at h <;> cases h <;> decide)
    | (unfold parse1E at h; split at h <;> (try split at h) <;> cases h <;> decide)
    | (unfold parse3D at h; split at h <;> (try split at h) <;> cases h <;> decide)

theorem decode_sub (w : Word) (c : Nat) (h : decode w = .error c) : c < 256 := by
  unfold decode at h
  cases hp : parse w with
  | error e => rw [hp] at h; injection h with h; subst h; exact parse_sub w _ hp
  | ok j =>
    rw [hp] at h
    dsimp only at h
    split at h
    · cases h; decide
    · split at h
      · cases h; decide
      · split at h <;> cases h; decide

end Sys2Proof.Machine
end

