-- ==== Sys2Proof/Laws/Frames.lean ====
section
/-! SUPPORT. What the shared accesses of memory leave as it was: one lemma for each operation of Machine/Caches.lean, Mem.lean,
Translate.lean, Reads.lean and Bus.lean. -/

set_option Elab.async false

namespace Sys2Proof.Machine

open Sys2Proof Sys2Proof.Claims

/-! ### Caches alone -/

theorem Beside.cachesOnly {s t : State} (h : Beside s t) : CachesOnly s t := by
  obtain ⟨a, b, rfl⟩ := h
  exact ⟨a, b, s.freeCtr, s.host, s.stage.hiLatch, rfl⟩

theorem beside_foldl {α : Type} (f : State → α → State) (h : ∀ s a, Beside s (f s a)) (l : List α) : ∀ s, Beside s (l.foldl f s) := by
  induction l with
  | nil => exact .refl
  | cons a l ih => exact fun s => (h s a).trans (ih _)

theorem beside_onDie (s : State) (d : Fin 2) (g : Die → Die) : Beside s (s.onDie d g) := ⟨_, s.dir, rfl⟩
theorem beside_onCore (s : State) (d : Fin 2) (c : Fin 24) (g : Core → Core) : Beside s (s.onCore d c g) := ⟨_, s.dir, rfl⟩
theorem beside_dir (s : State) (l : Tbl DirLine) : Beside s { s with dir := l } := ⟨s.dies, l, rfl⟩

theorem beside_agentFetch (s : State) (a : Fin 3) (part : Option (Fin 8)) (line : Nat) : Beside s (agentFetch s a part line).1 :=
  (quiet_agentFetch ..).beside
theorem beside_agentRead (s : State) (a : Fin 3) (part : Option (Fin 8)) (line : Nat) : Beside s (agentRead s a part line) :=
  (quiet_agentRead ..).beside
theorem beside_agentOwn (s : State) (a : Fin 3) (part : Option (Fin 8)) (line : Nat) : Beside s (agentOwn s a part line) :=
  (quiet_agentOwn ..).beside
theorem beside_letGo (s : State) (a : Fin 3) (part : Option (Fin 8)) (line : Nat) : Beside s (letGo s a part line) :=
  (quiet_letGo ..).beside
theorem beside_homeDrop (s : State) (line : Nat) : Beside s (homeDrop s line) := (quiet_homeDrop ..).beside
theorem beside_homeOwn (s : State) (line : Nat) : Beside s (homeOwn s line) := (quiet_homeOwn ..).beside

/-! ### The L1 of a core -/

theorem beside_renewLease (s : State) (d : Fin 2) (sec lease : Nat) : Beside s (renewLease s d sec lease).1 := ⟨_, _, rfl⟩

/-- A sector asked for at its home comes with the bytes memory holds (R221, R381). -/
theorem l1Ask_spec (s : State) (d : Fin 2) (part : Option (Fin 8)) (lease sec : Nat) :
    Beside s (l1Ask s d part lease sec).1 ∧ (l1Ask s d part lease sec).2.1.data = sectorBits s.mem sec := by
  have h := (beside_agentFetch s (dieAgent d) part (sec / 4)).trans (beside_renewLease _ d sec lease)
  exact ⟨h, by rw [← h.mem]; rfl⟩

theorem beside_passFills (s : State) (d : Fin 2) (c : Fin 24) (sec : Nat) : Beside s (passFills s d c sec) := beside_onCore ..

theorem beside_askSector (p : Party) (c : Fin 24) (r : Asked) (sec : Nat) : Beside r.s (askSector p c r sec).s := by
  unfold askSector
  split
  · exact .refl _
  · exact (l1Ask_spec r.s p.d p.part p.lease sec).1.trans (beside_passFills ..)

theorem beside_askLine (s : State) (p : Party) (c : Fin 24) (line : Nat) : Beside s (askLine s p c line).s := by
  unfold askLine
  have h : ∀ (l : List Nat) (r : Asked), Beside r.s (l.foldl (askSector p c) r).s := by
    intro l
    induction l with
    | nil => exact fun r => .refl _
    | cons a l ih => exact fun r => (beside_askSector p c r a).trans (ih _)
  exact h (lineSectors line) ⟨s, [], false⟩

theorem beside_meshSend (s : State) (d : Fin 2) (ranges : List (BitVec 128)) (va : Word) (data : BitVec 256) :
    Beside s (meshSend s d ranges va data) := ⟨_, _, rfl⟩

theorem beside_sendFills (s : State) (d : Fin 2) (c : Fin 24) (ranges : List (BitVec 128)) (place : Nat → Option Word)
    (fs : List Fill) : Beside s (sendFills s d c ranges place fs) := by
  unfold sendFills
  refine beside_foldl _ (fun s f => ?_) _ s
  split
  · exact beside_meshSend ..
  · exact .refl s

theorem beside_installFills (s : State) (d : Fin 2) (c : Fin 24) (weak : Bool) (fs : List Fill) :
    Beside s (installFills s d c weak fs) := ⟨_, _, rfl⟩

theorem beside_l1Read (s : State) (d : Fin 2) (c : Fin 24) (secs : List Nat) : Beside s (l1Read s d c secs) :=
  Beside.trans ⟨_, _, rfl⟩ ⟨_, _, rfl⟩

theorem beside_unhold (d : Fin 2) (s : State) (sec : Nat) : Beside s (unhold d s sec) := by
  unfold unhold
  dsimp only
  split
  · exact beside_onDie ..
  · exact (beside_letGo s _ _ _).trans (beside_onDie ..)

/-! ### Translation -/

theorem beside_translate (s : State) (d : Fin 2) (ctx ppn : Nat) (va : Word) (acc : Access) :
    Beside s (Machine.translate s d ctx ppn va acc).1 :=
  (quiet_translate ..).beside

theorem beside_translateOn (s : State) (d : Fin 2) (core : Option (Fin 24)) (ctx ppn : Nat) (va : Word) (acc : Access) :
    Beside s (translateOn s d core ctx ppn va acc).1 := by
  unfold translateOn
  split
  · exact beside_translate ..
  · rename_i c
    have h := (quiet_translateFrom (corePart (s.die d) d c) s d ctx ppn va acc).beside
    dsimp only
    split
    · exact .refl s
    · split
      · rename_i heq; rw [heq] at h; exact h
      · rename_i heq; rw [heq] at h; exact h.trans ⟨_, _, rfl⟩

theorem beside_translateFor (s : State) (w : Warp) (va : Word) (acc : Access) : Beside s (translateFor s w va acc).1 := by
  unfold translateFor
  split
  · exact .refl s
  · exact beside_translateOn ..

/-! ### Reads -/

/-- A read through a die's L2 answers the bytes of memory (R381). -/
theorem dieLoad_spec (s : State) (d : Fin 2) (part : Option (Fin 8)) (pa n : Nat) :
    Beside s (dieLoad s d part pa n).1 ∧ (dieLoad s d part pa n).2 = s.mem.read pa n := by
  unfold dieLoad
  split
  · rename_i h
    exact ⟨.refl s, by rw [h]; rfl⟩
  · have h := beside_foldl _ (fun s l => beside_agentRead s (dieAgent d) part l) (linesOf pa n) s
    exact ⟨h, by dsimp only⟩

/-- A read of the pool answers the copy of a live lease of its core on a PMA page, and the bytes of memory otherwise (R221, R230,
R381). -/
theorem poolRead_spec (s : State) (p : Party) (kind : PageKind) (pa n : Nat) : Beside s (poolRead s p kind pa n).1 ∧
    (poolRead s p kind pa n).2.bytes = match kind, p.core.bind fun c => l1Look s p.d c p.wclk (pa / 32) with
      | .pma, some l => toBytes (l.data.toNat >>> (8 * (pa % 32))) n
      | _, _ => s.mem.read pa n := by
  obtain ⟨d, core, part, wclk, lease, ranges⟩ := p
  unfold poolRead
  cases kind with
  | pma =>
    cases core with
    | none => exact dieLoad_spec s d part pa n
    | some c =>
      dsimp only [Option.bind]
      cases l1Look s d c wclk (pa / 32) with
      | some l => exact ⟨.refl s, rfl⟩
      | none =>
        have h := beside_askLine s ⟨d, some c, part, wclk, lease, ranges⟩ c (pa / 128)
        generalize askLine s ⟨d, some c, part, wclk, lease, ranges⟩ c (pa / 128) = r at h ⊢
        dsimp only
        exact ⟨h, by rw [h.mem]⟩
  | nc =>
    dsimp only
    exact ⟨beside_onDie s _ (fun x => dramUp x 5 n), rfl⟩
  | io =>
    dsimp only
    exact ⟨beside_onDie s _ (fun x => dramUp x 5 n), rfl⟩

theorem caches_refl (s : State) : CachesOnly s s := (Beside.refl s).cachesOnly

theorem caches_trans {s t u : State} (h1 : CachesOnly s t) (h2 : CachesOnly t u) : CachesOnly s u := by
  obtain ⟨a, b, c, d, e, rfl⟩ := h1
  obtain ⟨a', b', c', d', e', rfl⟩ := h2
  exact ⟨a', b', c', d', e', rfl⟩

theorem caches_mem {s t : State} (h : CachesOnly s t) : t.mem = s.mem := by obtain ⟨a, b, c, d, e, rfl⟩ := h; rfl
theorem caches_cur {s t : State} (h : CachesOnly s t) : t.cur = s.cur := by obtain ⟨a, b, c, d, e, rfl⟩ := h; rfl

theorem caches_stampTake (s : State) (d : Fin 2) : CachesOnly s (stampTake s d).1 := by
  unfold stampTake
  split
  · exact caches_refl s
  · exact ⟨_, _, _, _, _, rfl⟩

theorem caches_timeRead (s : State) (port : Nat) : CachesOnly s (timeRead s port).1 := by
  unfold timeRead
  split
  · exact ⟨s.dies, s.dir, s.freeCtr, s.host, _, rfl⟩
  · exact caches_refl s
  · exact caches_refl s
  · exact caches_refl s
  · exact caches_stampTake s 0
  · exact caches_refl s
  · exact caches_stampTake s 1
  · exact caches_refl s

theorem caches_portRead (s : State) (d : Fin 2) (q : Nat) : CachesOnly s (portRead s d q).1 := by
  unfold portRead
  split
  · exact caches_timeRead s q
  · exact caches_refl s

theorem caches_hirqTake (s : State) (d : Fin 2) : CachesOnly s (hirqTake s d).1 := by
  unfold hirqTake
  split
  · exact caches_refl s
  · exact by unfold setHirq; split <;> exact ⟨s.dies, s.dir, s.freeCtr, _, s.stage.hiLatch, rfl⟩

/-- A read of a window takes what the register it names takes and nothing else (R378, R392, R397). -/
theorem caches_windowRead (s : State) (pa : Nat) : CachesOnly s (windowRead s pa).1 := by
  unfold windowRead
  split
  · split
    · exact caches_portRead ..
    · exact caches_refl s
  · split
    · exact caches_refl s
    · exact caches_refl s
  · unfold hostRead
    split
    · exact caches_hirqTake s 0
    · split
      · exact caches_hirqTake s 1
      · exact caches_refl s
  · exact caches_refl s
  · exact caches_refl s
  · exact ⟨s.dies, s.dir, _, s.host, s.stage.hiLatch, rfl⟩
  · exact ⟨s.dies, s.dir, _, s.host, s.stage.hiLatch, rfl⟩
  · exact caches_refl s
  · exact caches_refl s

theorem caches_outsideBytes (s : State) (pa n : Nat) : CachesOnly s (outsideBytes s pa n).1 := caches_windowRead s _

/-- A read at a physical address (R230, R378). -/
theorem caches_busRead (s : State) (p : Party) (ph : Phys) (n : Nat) : CachesOnly s (busRead s p ph n).1 := by
  unfold busRead
  split
  · exact (poolRead_spec s p ph.kind ph.pa n).1.cachesOnly
  · exact caches_outsideBytes s ph.pa n

theorem beside_settleRead (s : State) (p : Party) (va : Word) (ph : Phys) (l : Loaded) (weak : Bool) :
    Beside s (settleRead s p va ph l weak) := by
  unfold settleRead
  split
  · exact beside_onDie ..
  · rename_i c _
    have h := fun ss => (((beside_sendFills s p.d c p.ranges (fun _ => some va) l.fills).trans
      (beside_installFills _ p.d c weak ss)).trans (beside_foldl _ (beside_unhold p.d) (lostSectors s (l.fills.map (·.sec))) _))
    dsimp only
    split
    · exact (h _).trans (beside_l1Read ..)
    · exact h _

theorem caches_readDword (s : State) (sp : Space) (p : Party) (va : Word) : CachesOnly s (readDword s sp p va).1 := by
  unfold readDword
  have h := (beside_translateOn s sp.d p.core sp.ctx sp.ppn va .read).cachesOnly
  generalize translateOn s sp.d p.core sp.ctx sp.ppn va .read = r at h ⊢
  obtain ⟨u, r⟩ := r
  cases r with
  | error e => exact h
  | ok ph => exact caches_trans (caches_trans h (caches_busRead u p ph 8)) (beside_settleRead ..).cachesOnly

/-- Dwords read through a context change no memory and no agent (R235, R437). -/
theorem caches_readDwords (sp : Space) (p : Party) (n : Nat) : ∀ (s : State) (va : Word), CachesOnly s (readDwords s sp p va n).1 := by
  induction n with
  | zero => exact fun s _ => caches_refl s
  | succ n ih =>
    intro s va
    unfold readDwords
    have h := caches_readDword s sp p va
    generalize readDword s sp p va = r at h ⊢
    obtain ⟨u, r⟩ := r
    cases r with
    | error e => exact h
    | ok r =>
      have h' := ih u (va + 8)
      dsimp only
      generalize readDwords u sp p (va + 8) n = q at h' ⊢
      obtain ⟨v, q⟩ := q
      cases q with
      | error e => exact caches_trans h h'
      | ok q => exact caches_trans h h'

/-! ### Writes -/

/-- From `s` to `t` memory became `m`, and beside it only what the dies hold, the directory and the list of soft errors changed. -/
def Writes (s t : State) (m : Memory) : Prop := ∃ dies dir errs, t = { s with
  dies := dies
  dir := dir
  softErrs := errs
  mem := m }

theorem Writes.mem {s t : State} {m : Memory} (h : Writes s t m) : t.mem = m := by obtain ⟨a, b, c, rfl⟩ := h; rfl
theorem Writes.cur {s t : State} {m : Memory} (h : Writes s t m) : t.cur = s.cur := by obtain ⟨a, b, c, rfl⟩ := h; rfl

theorem Beside.writes {s t : State} (h : Beside s t) : Writes s t s.mem := by
  obtain ⟨a, b, rfl⟩ := h
  exact ⟨a, b, s.softErrs, rfl⟩

theorem Writes.after {s t u : State} {m : Memory} (h1 : Beside s t) (h2 : Writes t u m) : Writes s u m := by
  obtain ⟨a, b, rfl⟩ := h1
  obtain ⟨c, d, e, rfl⟩ := h2
  exact ⟨c, d, e, rfl⟩

theorem Writes.then {s t u : State} {m : Memory} (h1 : Writes s t m) (h2 : Beside t u) : Writes s u m := by
  obtain ⟨a, b, c, rfl⟩ := h1
  obtain ⟨d, e, rfl⟩ := h2
  exact ⟨d, e, c, rfl⟩

/-- A write keeps the canonical form of memory. -/
theorem Writes.wf {s t : State} {pa : Nat} {bs : List Byte} (h : Writes s t (s.mem.write pa bs)) (hw : Memory.wf s.mem = true) :
    Memory.wf t.mem = true := by
  rw [h.mem]
  exact Memory.wf_write s.mem pa bs hw

/-- A write leaves every other byte (R381). -/
theorem Writes.other {s t : State} {pa : Nat} {bs : List Byte} (h : Writes s t (s.mem.write pa bs)) (hw : Memory.wf s.mem = true)
    (a : Nat) (ha : a < pa ∨ pa + bs.length ≤ a) : t.mem.get a = s.mem.get a := by
  rw [h.mem]
  exact Memory.get_write_other s.mem pa a bs hw ha

theorem beside_stampWrite (s : State) (d : Fin 2) (wclk sec : Nat) : Beside s (stampWrite s d wclk sec).1 :=
  Beside.trans (beside_onDie s d _) ⟨_, _, rfl⟩

theorem beside_stampOutside (s : State) (d : Fin 2) (sec : Nat) : Beside s (stampOutside s d sec) := ⟨_, _, rfl⟩

theorem beside_stamps (d : Fin 2) (wclk : Nat) (l : List Nat) : ∀ (s : State) (n : Nat),
    Beside s (l.foldl (fun (acc : State × Nat) sec =>
      ((stampWrite acc.1 d wclk sec).1, max acc.2 (stampWrite acc.1 d wclk sec).2)) (s, n)).1 := by
  induction l with
  | nil => exact fun s _ => .refl s
  | cons a l ih => exact fun s n => (beside_stampWrite s d wclk a).trans (ih _ _)

/-- A store through a die's L2 writes its bytes (R263, R381). -/
theorem writes_dieStore (s : State) (d : Fin 2) (part : Option (Fin 8)) (wclk pa : Nat) (bs : List Byte) :
    Writes s (dieStore s d part wclk pa bs).1 (s.mem.write pa bs) := by
  unfold dieStore
  split
  · rename_i h
    rw [h]
    exact (Beside.refl s).writes
  · have h := ((beside_onDie s d _).trans (beside_foldl _ (fun s l => beside_agentOwn s (dieAgent d) part l) (linesOf pa bs.length)
      (meshFlits s d (sectorsOf pa bs.length).length))).trans
      (beside_stamps d wclk (sectorsOf pa bs.length) _ 0)
    dsimp only at h ⊢
    rw [← h.mem]
    exact Writes.after h ⟨_, _, _, rfl⟩

/-- Several stores of one party write their bytes in order (R263). -/
theorem writes_dieStores (s : State) (d : Fin 2) (part : Option (Fin 8)) (wclk : Nat) (ws : List (Nat × List Byte)) :
    Writes s (dieStores s d part wclk ws).1 (ws.foldl (fun m w => m.write w.1 w.2) s.mem) := by
  unfold dieStores
  have h := ((beside_onDie s d _).trans (beside_foldl _ (fun s l => beside_agentOwn s (dieAgent d) part l)
    (distinct (ws.flatMap fun w => linesOf w.1 w.2.length))
    (meshFlits s d (distinct (ws.flatMap fun w => sectorsOf w.1 w.2.length)).length))).trans
    (beside_stamps d wclk (distinct (ws.flatMap fun w => sectorsOf w.1 w.2.length)) _ 0)
  dsimp only at h ⊢
  rw [← h.mem]
  exact Writes.after h ⟨_, _, _, rfl⟩

/-- A write from outside the dies (R221). -/
theorem writes_outsideStore (s : State) (pa : Nat) (bs : List Byte) : Writes s (outsideStore s pa bs) (s.mem.write pa bs) := by
  unfold outsideStore
  split
  · rename_i h
    rw [h]
    exact (Beside.refl s).writes
  · have h := beside_foldl _ (fun s sec => (beside_stampOutside s 0 sec).trans (beside_stampOutside _ 1 sec))
      (sectorsOf pa bs.length) s
    dsimp only
    rw [← h.mem]
    exact Writes.after h ⟨_, _, _, rfl⟩

theorem writes_ioStore (s : State) (pa : Nat) (bs : List Byte) : Writes s (ioStore s pa bs) (s.mem.write pa bs) := by
  have h := beside_foldl _ beside_homeOwn (if bs = [] then [] else linesOf pa bs.length) s
  unfold ioStore
  rw [← h.mem]
  exact Writes.after h (writes_outsideStore _ pa bs)

theorem writes_controllerWrite (s : State) (p : Party) (pa : Nat) (bs : List Byte) :
    Writes s (controllerWrite s p pa bs).1 (s.mem.write pa bs) := by
  have h := (beside_onDie s p.d fun x => { x with xts := max x.xts p.wclk }).trans
    (beside_foldl _ beside_homeDrop (if bs = [] then [] else linesOf pa bs.length) _)
  unfold controllerWrite
  dsimp only at h ⊢
  rw [← h.mem]
  exact (Writes.after h (writes_outsideStore _ pa bs)).then ⟨_, _, rfl⟩

/-- A write of a party to the pool, whatever the type of its page, writes its bytes (R230, R263). -/
theorem writes_poolWrite (s : State) (p : Party) (kind : PageKind) (pa : Nat) (bs : List Byte) :
    Writes s (poolWrite s p kind pa bs).1 (s.mem.write pa bs) := by
  have h : ∃ u, Beside s u ∧ poolWrite s p kind pa bs = match kind with
      | .pma => dieStore u p.d p.part p.wclk pa bs
      | _ => controllerWrite u p pa bs := by
    unfold poolWrite
    cases p.core with
    | none => exact ⟨s, .refl s, rfl⟩
    | some c => exact ⟨dropOwnSectors s p.d c pa bs.length, beside_onCore .., rfl⟩
  obtain ⟨u, hu, h⟩ := h
  rw [h, ← hu.mem]
  cases kind
  · exact Writes.after hu (writes_dieStore ..)
  · exact Writes.after hu (writes_controllerWrite ..)
  · exact Writes.after hu (writes_controllerWrite ..)

/-- An atomic of the pool answers the bytes memory held and writes the new value (R144). -/
theorem poolAtomic_spec (s : State) (p : Party) (kind : PageKind) (pa n : Nat) (f : Nat → Nat) :
    Writes s (poolAtomic s p kind pa n f).1 (s.mem.write pa (toBytes (f (s.mem.num pa n)) n)) ∧
      (poolAtomic s p kind pa n f).2.1 = s.mem.num pa n :=
  ⟨writes_poolWrite s p kind pa _, rfl⟩

theorem writes_busWrite (s : State) (p : Party) (ph : Phys) (bs : List Byte) (h : inPool ph.pa = true) :
    Writes s (busWrite s p ph bs).1 (s.mem.write ph.pa bs) := by
  unfold busWrite
  rw [if_pos h]
  exact writes_poolWrite ..

theorem writes_physWrite (s : State) (d : Fin 2) (pa : Nat) (bs : List Byte) (h : inPool pa = true) :
    Writes s (physWrite s d pa bs) (s.mem.write pa bs) := by
  unfold physWrite
  rw [if_pos h]
  exact (writes_dieStore s d none (s.die d).xts pa bs).then ⟨_, _, rfl⟩

end Sys2Proof.Machine
end

