-- ==== Sys2Proof/Laws/Words.lean ====
section
/-! SUPPORT. Fields of a packed word: what `unpack` and the opcode readers give on what `pack` wrote (03 R57 to R64). -/

set_option linter.unusedSimpArgs false

namespace Sys2Proof

theorem extract_hi {m n : Nat} (a : BitVec m) (b : BitVec n) (k l : Nat) (h : n ≤ k) :
    (a ++ b).extractLsb' k l = a.extractLsb' (k - n) l := BitVec.extractLsb'_append_eq_of_le h
theorem extract_lo {m n : Nat} (a : BitVec m) (b : BitVec n) (k l : Nat) (h : k + l ≤ n) :
    (a ++ b).extractLsb' k l = b.extractLsb' k l := BitVec.extractLsb'_append_eq_of_add_le h
theorem extract_all {m : Nat} (a : BitVec m) : a.extractLsb' 0 m = a := by simp

theorem imm_halves (x : BitVec 32) : x.extractLsb' 16 16 ++ x.extractLsb' 0 16 = x := by
  apply BitVec.eq_of_getLsbD_eq
  intro i hi
  simp only [BitVec.getLsbD_append, BitVec.getLsbD_extractLsb']
  by_cases h : i < 16
  · simp [h]
  · simp only [h, decide_false, if_false]
    have h2 : i - 16 < 16 := by omega
    simp [h2, show 16 + (i - 16) = i by omega]

theorem majorOf_packA (M m : BitVec 6) (f : FmtA) : majorOf (packA M m f) = M.toNat := by
  simp only [majorOf, packA]
  simp (disch := decide) only [extract_hi, extract_lo, extract_all, Nat.reduceSub]
theorem minorOf_packA (M m : BitVec 6) (f : FmtA) : minorOf (packA M m f) = m.toNat := by
  simp only [minorOf, packA]
  simp (disch := decide) only [extract_hi, extract_lo, extract_all, Nat.reduceSub]
theorem unpackA_packA (M m : BitVec 6) (f : FmtA) : unpackA (packA M m f) = f := by
  cases f
  simp only [unpackA, packA]
  simp (disch := decide) only [extract_hi, extract_lo, extract_all, Nat.reduceSub]
theorem majorOf_packI (M m : BitVec 6) (f : FmtI) : majorOf (packI M m f) = M.toNat := by
  simp only [majorOf, packI]
  simp (disch := decide) only [extract_hi, extract_lo, extract_all, Nat.reduceSub]
theorem minorOf_packI (M m : BitVec 6) (f : FmtI) : minorOf (packI M m f) = m.toNat := by
  simp only [minorOf, packI]
  simp (disch := decide) only [extract_hi, extract_lo, extract_all, Nat.reduceSub]
theorem unpackI_packI (M m : BitVec 6) (f : FmtI) : unpackI (packI M m f) = f := by
  cases f
  simp only [unpackI, packI]
  simp (disch := decide) only [extract_hi, extract_lo, extract_all, Nat.reduceSub, imm_halves]
theorem majorOf_packB (M m : BitVec 6) (f : FmtB) : majorOf (packB M m f) = M.toNat := by
  simp only [majorOf, packB]
  simp (disch := decide) only [extract_hi, extract_lo, extract_all, Nat.reduceSub]
theorem minorOf_packB (M m : BitVec 6) (f : FmtB) : minorOf (packB M m f) = m.toNat := by
  simp only [minorOf, packB]
  simp (disch := decide) only [extract_hi, extract_lo, extract_all, Nat.reduceSub]
theorem unpackB_packB (M m : BitVec 6) (f : FmtB) : unpackB (packB M m f) = f := by
  cases f
  simp only [unpackB, packB]
  simp (disch := decide) only [extract_hi, extract_lo, extract_all, Nat.reduceSub]
theorem majorOf_packK (M m : BitVec 6) (f : FmtK) : majorOf (packK M m f) = M.toNat := by
  simp only [majorOf, packK]
  simp (disch := decide) only [extract_hi, extract_lo, extract_all, Nat.reduceSub]
theorem minorOf_packK (M m : BitVec 6) (f : FmtK) : minorOf (packK M m f) = m.toNat := by
  simp only [minorOf, packK]
  simp (disch := decide) only [extract_hi, extract_lo, extract_all, Nat.reduceSub]
theorem unpackK_packK (M m : BitVec 6) (f : FmtK) : unpackK (packK M m f) = f := by
  cases f
  simp only [unpackK, packK]
  simp (disch := decide) only [extract_hi, extract_lo, extract_all, Nat.reduceSub]
theorem majorOf_packE (M m : BitVec 6) (f : FmtE) : majorOf (packE M m f) = M.toNat := by
  simp only [majorOf, packE]
  simp (disch := decide) only [extract_hi, extract_lo, extract_all, Nat.reduceSub]
theorem minorOf_packE (M m : BitVec 6) (f : FmtE) : minorOf (packE M m f) = m.toNat := by
  simp only [minorOf, packE]
  simp (disch := decide) only [extract_hi, extract_lo, extract_all, Nat.reduceSub]
theorem unpackE_packE (M m : BitVec 6) (f : FmtE) : unpackE (packE M m f) = f := by
  cases f
  simp only [unpackE, packE]
  simp (disch := decide) only [extract_hi, extract_lo, extract_all, Nat.reduceSub]
theorem majorOf_packS (M m : BitVec 6) (f : FmtS) : majorOf (packS M m f) = M.toNat := by
  simp only [majorOf, packS]
  simp (disch := decide) only [extract_hi, extract_lo, extract_all, Nat.reduceSub]
theorem minorOf_packS (M m : BitVec 6) (f : FmtS) : minorOf (packS M m f) = m.toNat := by
  simp only [minorOf, packS]
  simp (disch := decide) only [extract_hi, extract_lo, extract_all, Nat.reduceSub]
theorem unpackS_packS (M m : BitVec 6) (f : FmtS) : unpackS (packS M m f) = f := by
  cases f
  simp only [unpackS, packS]
  simp (disch := decide) only [extract_hi, extract_lo, extract_all, Nat.reduceSub]
theorem majorOf_packM (M : BitVec 6) (o : BitVec 4) (f : FmtM) : majorOf (packM M o f) = M.toNat := by
  simp only [majorOf, packM]
  simp (disch := decide) only [extract_hi, extract_lo, extract_all, Nat.reduceSub]
theorem unpackM_packM (M : BitVec 6) (o : BitVec 4) (f : FmtM) : unpackM (packM M o f) = f := by
  cases f
  simp only [unpackM, packM]
  simp (disch := decide) only [extract_hi, extract_lo, extract_all, Nat.reduceSub]
theorem opM_packM (M : BitVec 6) (o : BitVec 4) (f : FmtM) : (packM M o f).extractLsb' 52 4 = o := by
  simp only [packM]
  simp (disch := decide) only [extract_hi, extract_lo, extract_all, Nat.reduceSub]
theorem spaceM_packM (M : BitVec 6) (o : BitVec 4) (f : FmtM) : (packM M o f).extractLsb' 56 2 = f.space := by
  simp only [packM]
  simp (disch := decide) only [extract_hi, extract_lo, extract_all, Nat.reduceSub]
theorem mod_packA (M m : BitVec 6) (f : FmtA) : (packA M m f).extractLsb' 8 3 = f.mod.extractLsb' 8 3 := by
  simp only [packA]
  simp (disch := decide) only [extract_hi, extract_lo, extract_all, Nat.reduceSub]
theorem mod0_packA (M m : BitVec 6) (f : FmtA) : (packA M m f).extractLsb' 0 1 = f.mod.extractLsb' 0 1 := by
  simp only [packA]
  simp (disch := decide) only [extract_hi, extract_lo, extract_all, Nat.reduceSub]
theorem mod01_packA (M m : BitVec 6) (f : FmtA) : (packA M m f).extractLsb' 0 2 = f.mod.extractLsb' 0 2 := by
  simp only [packA]
  simp (disch := decide) only [extract_hi, extract_lo, extract_all, Nat.reduceSub]
theorem sel_packS (M m : BitVec 6) (f : FmtS) : (packS M m f).extractLsb' 20 8 = f.sel := by
  simp only [packS]
  simp (disch := decide) only [extract_hi, extract_lo, extract_all, Nat.reduceSub]

end Sys2Proof
end

