-- ==== Sys2Proof/Laws/PerInstr.lean ====
section
/-! SUPPORT. The family Encoding of LAWS.json: decoding the word of a well-formed instruction gives the instruction, shown for
each constructor (03 R57 to R73). Events have no word. -/

set_option Elab.async false

namespace Sys2Proof.Laws.Encoding

open Sys2Proof

/-- The words of a well-formed instruction decode to it. -/
def Statement (i : Instr) : Prop := i.wf = true → ∀ w, encode i = some w → decode w = .ok i

theorem decode_of_parse {i : Instr} {w : Word} (hp : parse w = .ok i) (hw : i.wf = true) : decode w = .ok i := by
  simp only [Instr.wf, Bool.and_eq_true] at hw
  simp [decode, hp, hw.1.1, hw.1.2, hw.2]

theorem of_word {i : Instr} {v : Word} (he : encode i = some v) (hp : i.wf = true → parse v = .ok i) : Statement i := by
  intro hw w hw'
  rw [he] at hw'
  cases hw'
  exact decode_of_parse (hp hw) hw

theorem reserved_of_wf {i : Instr} (hw : i.wf = true) : i.reservedOk = true := by
  simp only [Instr.wf, Bool.and_eq_true] at hw
  exact hw.1.1

theorem of_event {i : Instr} (he : encode i = none) : Statement i := by
  intro _ w hw
  rw [he] at hw
  cases hw

theorem space_ok (a : BitVec 2) (h : (a != 3) = true ∨ (a == 0) = true) : ¬a = 3#2 := by
  rintro rfl
  simp at h
theorem mask_xfmCvt : ∀ m : BitVec 11, m &&& ~~~0xFF = 0 → m.extractLsb' 8 3 = 0 := by decide +kernel
theorem mask_wtinv : ∀ m : BitVec 11, m &&& ~~~0 = 0 → m.extractLsb' 0 1 = 0 := by decide +kernel
theorem mask_gemitVtx : ∀ m : BitVec 11, m &&& ~~~0x7C = 0 → m.extractLsb' 0 2 = 0 := by decide +kernel

theorem add (f : FmtA) : Statement (.add f) := of_word rfl fun _ => by
  simp [parse, parse01, majorOf_packA, unpackA_packA, minorOf_packA]
theorem addImm (f : FmtI) : Statement (.addImm f) := of_word rfl fun _ => by
  simp [parse, parse02, majorOf_packI, unpackI_packI, minorOf_packI]
theorem sub (f : FmtA) : Statement (.sub f) := of_word rfl fun _ => by
  simp [parse, parse01, majorOf_packA, unpackA_packA, minorOf_packA]
theorem mul (f : FmtA) : Statement (.mul f) := of_word rfl fun _ => by
  simp [parse, parse01, majorOf_packA, unpackA_packA, minorOf_packA]
theorem mulImm (f : FmtI) : Statement (.mulImm f) := of_word rfl fun _ => by
  simp [parse, parse02, majorOf_packI, unpackI_packI, minorOf_packI]
theorem mulh (f : FmtA) : Statement (.mulh f) := of_word rfl fun _ => by
  simp [parse, parse01, majorOf_packA, unpackA_packA, minorOf_packA]
theorem div (f : FmtA) : Statement (.div f) := of_word rfl fun _ => by
  simp [parse, parse01, majorOf_packA, unpackA_packA, minorOf_packA]
theorem rem (f : FmtA) : Statement (.rem f) := of_word rfl fun _ => by
  simp [parse, parse01, majorOf_packA, unpackA_packA, minorOf_packA]
theorem and (f : FmtA) : Statement (.and f) := of_word rfl fun _ => by
  simp [parse, parse01, majorOf_packA, unpackA_packA, minorOf_packA]
theorem andImm (f : FmtI) : Statement (.andImm f) := of_word rfl fun _ => by
  simp [parse, parse02, majorOf_packI, unpackI_packI, minorOf_packI]
theorem or (f : FmtA) : Statement (.or f) := of_word rfl fun _ => by
  simp [parse, parse01, majorOf_packA, unpackA_packA, minorOf_packA]
theorem orImm (f : FmtI) : Statement (.orImm f) := of_word rfl fun _ => by
  simp [parse, parse02, majorOf_packI, unpackI_packI, minorOf_packI]
theorem xor (f : FmtA) : Statement (.xor f) := of_word rfl fun _ => by
  simp [parse, parse01, majorOf_packA, unpackA_packA, minorOf_packA]
theorem xorImm (f : FmtI) : Statement (.xorImm f) := of_word rfl fun _ => by
  simp [parse, parse02, majorOf_packI, unpackI_packI, minorOf_packI]
theorem andn (f : FmtA) : Statement (.andn f) := of_word rfl fun _ => by
  simp [parse, parse01, majorOf_packA, unpackA_packA, minorOf_packA]
theorem shl (f : FmtA) : Statement (.shl f) := of_word rfl fun _ => by
  simp [parse, parse01, majorOf_packA, unpackA_packA, minorOf_packA]
theorem shlImm (f : FmtI) : Statement (.shlImm f) := of_word rfl fun _ => by
  simp [parse, parse02, majorOf_packI, unpackI_packI, minorOf_packI]
theorem shr (f : FmtA) : Statement (.shr f) := of_word rfl fun _ => by
  simp [parse, parse01, majorOf_packA, unpackA_packA, minorOf_packA]
theorem shrImm (f : FmtI) : Statement (.shrImm f) := of_word rfl fun _ => by
  simp [parse, parse02, majorOf_packI, unpackI_packI, minorOf_packI]
theorem sar (f : FmtA) : Statement (.sar f) := of_word rfl fun _ => by
  simp [parse, parse01, majorOf_packA, unpackA_packA, minorOf_packA]
theorem sarImm (f : FmtI) : Statement (.sarImm f) := of_word rfl fun _ => by
  simp [parse, parse02, majorOf_packI, unpackI_packI, minorOf_packI]
theorem rol (f : FmtA) : Statement (.rol f) := of_word rfl fun _ => by
  simp [parse, parse01, majorOf_packA, unpackA_packA, minorOf_packA]
theorem rolImm (f : FmtI) : Statement (.rolImm f) := of_word rfl fun _ => by
  simp [parse, parse02, majorOf_packI, unpackI_packI, minorOf_packI]
theorem ror (f : FmtA) : Statement (.ror f) := of_word rfl fun _ => by
  simp [parse, parse01, majorOf_packA, unpackA_packA, minorOf_packA]
theorem rorImm (f : FmtI) : Statement (.rorImm f) := of_word rfl fun _ => by
  simp [parse, parse02, majorOf_packI, unpackI_packI, minorOf_packI]
theorem min (f : FmtA) : Statement (.min f) := of_word rfl fun _ => by
  simp [parse, parse01, majorOf_packA, unpackA_packA, minorOf_packA]
theorem minImm (f : FmtI) : Statement (.minImm f) := of_word rfl fun _ => by
  simp [parse, parse02, majorOf_packI, unpackI_packI, minorOf_packI]
theorem max (f : FmtA) : Statement (.max f) := of_word rfl fun _ => by
  simp [parse, parse01, majorOf_packA, unpackA_packA, minorOf_packA]
theorem maxImm (f : FmtI) : Statement (.maxImm f) := of_word rfl fun _ => by
  simp [parse, parse02, majorOf_packI, unpackI_packI, minorOf_packI]
theorem clz (f : FmtA) : Statement (.clz f) := of_word rfl fun _ => by
  simp [parse, parse01, majorOf_packA, unpackA_packA, minorOf_packA]
theorem ctz (f : FmtA) : Statement (.ctz f) := of_word rfl fun _ => by
  simp [parse, parse01, majorOf_packA, unpackA_packA, minorOf_packA]
theorem popc (f : FmtA) : Statement (.popc f) := of_word rfl fun _ => by
  simp [parse, parse01, majorOf_packA, unpackA_packA, minorOf_packA]
theorem brev (f : FmtA) : Statement (.brev f) := of_word rfl fun _ => by
  simp [parse, parse01, majorOf_packA, unpackA_packA, minorOf_packA]
theorem bfx (f : FmtA) : Statement (.bfx f) := of_word rfl fun _ => by
  simp [parse, parse01, majorOf_packA, unpackA_packA, minorOf_packA]
theorem bfi (f : FmtA) : Statement (.bfi f) := of_word rfl fun _ => by
  simp [parse, parse01, majorOf_packA, unpackA_packA, minorOf_packA]
theorem sel (f : FmtA) : Statement (.sel f) := of_word rfl fun _ => by
  simp [parse, parse01, majorOf_packA, unpackA_packA, minorOf_packA]
theorem mov (f : FmtA) : Statement (.mov f) := of_word rfl fun _ => by
  simp [parse, parse01, majorOf_packA, unpackA_packA, minorOf_packA]
theorem addsh (f : FmtA) : Statement (.addsh f) := of_word rfl fun _ => by
  simp [parse, parse01, majorOf_packA, unpackA_packA, minorOf_packA]
theorem cmp (f : FmtA) : Statement (.cmp f) := of_word rfl fun _ => by
  simp [parse, parse01, majorOf_packA, unpackA_packA, minorOf_packA]
theorem cmpImm (f : FmtI) : Statement (.cmpImm f) := of_word rfl fun _ => by
  simp [parse, parse02, majorOf_packI, unpackI_packI, minorOf_packI]
theorem movi (f : FmtI) : Statement (.movi f) := of_word rfl fun _ => by
  simp [parse, parse02, majorOf_packI, unpackI_packI, minorOf_packI]
theorem movhi (f : FmtI) : Statement (.movhi f) := of_word rfl fun _ => by
  simp [parse, parse02, majorOf_packI, unpackI_packI, minorOf_packI]
theorem fadd (f : FmtA) : Statement (.fadd f) := of_word rfl fun _ => by
  simp [parse, parse03, majorOf_packA, unpackA_packA, minorOf_packA]
theorem fsub (f : FmtA) : Statement (.fsub f) := of_word rfl fun _ => by
  simp [parse, parse03, majorOf_packA, unpackA_packA, minorOf_packA]
theorem fmul (f : FmtA) : Statement (.fmul f) := of_word rfl fun _ => by
  simp [parse, parse03, majorOf_packA, unpackA_packA, minorOf_packA]
theorem fma (f : FmtA) : Statement (.fma f) := of_word rfl fun _ => by
  simp [parse, parse03, majorOf_packA, unpackA_packA, minorOf_packA]
theorem fdiv (f : FmtA) : Statement (.fdiv f) := of_word rfl fun _ => by
  simp [parse, parse03, majorOf_packA, unpackA_packA, minorOf_packA]
theorem fmin (f : FmtA) : Statement (.fmin f) := of_word rfl fun _ => by
  simp [parse, parse03, majorOf_packA, unpackA_packA, minorOf_packA]
theorem fmax (f : FmtA) : Statement (.fmax f) := of_word rfl fun _ => by
  simp [parse, parse03, majorOf_packA, unpackA_packA, minorOf_packA]
theorem fcmp (f : FmtA) : Statement (.fcmp f) := of_word rfl fun _ => by
  simp [parse, parse03, majorOf_packA, unpackA_packA, minorOf_packA]
theorem fcvt (f : FmtA) : Statement (.fcvt f) := of_word rfl fun _ => by
  simp [parse, parse03, majorOf_packA, unpackA_packA, minorOf_packA]
theorem bra (f : FmtB) : Statement (.bra f) := of_word rfl fun _ => by
  simp [parse, parse04, majorOf_packB, unpackB_packB, minorOf_packB]
theorem braIndirect (f : FmtB) : Statement (.braIndirect f) := of_word rfl fun _ => by
  simp [parse, parse04, majorOf_packB, unpackB_packB, minorOf_packB]
theorem bcc (f : FmtB) : Statement (.bcc f) := of_word rfl fun _ => by
  simp [parse, parse04, majorOf_packB, unpackB_packB, minorOf_packB]
theorem bmk (f : FmtB) : Statement (.bmk f) := of_word rfl fun _ => by
  simp [parse, parse04, majorOf_packB, unpackB_packB, minorOf_packB]
theorem call (f : FmtB) : Statement (.call f) := of_word rfl fun _ => by
  simp [parse, parse04, majorOf_packB, unpackB_packB, minorOf_packB]
theorem callIndirect (f : FmtB) : Statement (.callIndirect f) := of_word rfl fun _ => by
  simp [parse, parse04, majorOf_packB, unpackB_packB, minorOf_packB]
theorem ret (f : FmtB) : Statement (.ret f) := of_word rfl fun _ => by
  simp [parse, parse04, majorOf_packB, unpackB_packB, minorOf_packB]
theorem loop (f : FmtB) : Statement (.loop f) := of_word rfl fun _ => by
  simp [parse, parse04, majorOf_packB, unpackB_packB, minorOf_packB]
theorem split (f : FmtA) : Statement (.split f) := of_word rfl fun _ => by
  simp [parse, parse05, majorOf_packA, unpackA_packA, minorOf_packA]
theorem arm (f : FmtS) : Statement (.arm f) := of_word rfl fun _ => by
  simp [parse, parse05, majorOf_packS, unpackS_packS, minorOf_packS]
theorem join : Statement .join := of_word rfl fun _ => by decide
theorem exit : Statement .exit := of_word rfl fun _ => by decide
theorem yield : Statement .yield := of_word rfl fun _ => by decide
theorem nop : Statement .nop := of_word rfl fun _ => by decide
theorem trap (f : FmtS) : Statement (.trap f) := of_word rfl fun _ => by
  simp [parse, parse06, majorOf_packS, unpackS_packS, minorOf_packS]
theorem svc (f : FmtS) : Statement (.svc f) := of_word rfl fun _ => by
  simp [parse, parse06, majorOf_packS, unpackS_packS, minorOf_packS]
theorem tret : Statement .tret := of_word rfl fun _ => by decide
theorem srrd (f : FmtS) : Statement (.srrd f) := of_word rfl fun _ => by
  simp [parse, parse06, majorOf_packS, unpackS_packS, minorOf_packS]
theorem srwr (f : FmtS) : Statement (.srwr f) := of_word rfl fun _ => by
  simp [parse, parse06, majorOf_packS, unpackS_packS, minorOf_packS]
theorem snap (f : FmtS) : Statement (.snap f) := of_word rfl fun _ => by
  simp [parse, parse06, majorOf_packS, unpackS_packS, minorOf_packS]
theorem roveOff : Statement .roveOff := of_word rfl fun _ => by decide
theorem roveOn : Statement .roveOn := of_word rfl fun _ => by decide
theorem halt : Statement .halt := of_word rfl fun _ => by decide
theorem vadd (f : FmtA) : Statement (.vadd f) := of_word rfl fun _ => by
  simp [parse, parse08, majorOf_packA, unpackA_packA, minorOf_packA]
theorem vsub (f : FmtA) : Statement (.vsub f) := of_word rfl fun _ => by
  simp [parse, parse08, majorOf_packA, unpackA_packA, minorOf_packA]
theorem vadds (f : FmtA) : Statement (.vadds f) := of_word rfl fun _ => by
  simp [parse, parse08, majorOf_packA, unpackA_packA, minorOf_packA]
theorem vsubs (f : FmtA) : Statement (.vsubs f) := of_word rfl fun _ => by
  simp [parse, parse08, majorOf_packA, unpackA_packA, minorOf_packA]
theorem vmul (f : FmtA) : Statement (.vmul f) := of_word rfl fun _ => by
  simp [parse, parse08, majorOf_packA, unpackA_packA, minorOf_packA]
theorem vmulh (f : FmtA) : Statement (.vmulh f) := of_word rfl fun _ => by
  simp [parse, parse08, majorOf_packA, unpackA_packA, minorOf_packA]
theorem vmad (f : FmtA) : Statement (.vmad f) := of_word rfl fun _ => by
  simp [parse, parse08, majorOf_packA, unpackA_packA, minorOf_packA]
theorem vdiv (f : FmtA) : Statement (.vdiv f) := of_word rfl fun _ => by
  simp [parse, parse08, majorOf_packA, unpackA_packA, minorOf_packA]
theorem vmin (f : FmtA) : Statement (.vmin f) := of_word rfl fun _ => by
  simp [parse, parse08, majorOf_packA, unpackA_packA, minorOf_packA]
theorem vmax (f : FmtA) : Statement (.vmax f) := of_word rfl fun _ => by
  simp [parse, parse08, majorOf_packA, unpackA_packA, minorOf_packA]
theorem vabs (f : FmtA) : Statement (.vabs f) := of_word rfl fun _ => by
  simp [parse, parse08, majorOf_packA, unpackA_packA, minorOf_packA]
theorem vneg (f : FmtA) : Statement (.vneg f) := of_word rfl fun _ => by
  simp [parse, parse08, majorOf_packA, unpackA_packA, minorOf_packA]
theorem vand (f : FmtA) : Statement (.vand f) := of_word rfl fun _ => by
  simp [parse, parse08, majorOf_packA, unpackA_packA, minorOf_packA]
theorem vor (f : FmtA) : Statement (.vor f) := of_word rfl fun _ => by
  simp [parse, parse08, majorOf_packA, unpackA_packA, minorOf_packA]
theorem vxor (f : FmtA) : Statement (.vxor f) := of_word rfl fun _ => by
  simp [parse, parse08, majorOf_packA, unpackA_packA, minorOf_packA]
theorem vandn (f : FmtA) : Statement (.vandn f) := of_word rfl fun _ => by
  simp [parse, parse08, majorOf_packA, unpackA_packA, minorOf_packA]
theorem vnot (f : FmtA) : Statement (.vnot f) := of_word rfl fun _ => by
  simp [parse, parse08, majorOf_packA, unpackA_packA, minorOf_packA]
theorem vshl (f : FmtA) : Statement (.vshl f) := of_word rfl fun _ => by
  simp [parse, parse08, majorOf_packA, unpackA_packA, minorOf_packA]
theorem vshr (f : FmtA) : Statement (.vshr f) := of_word rfl fun _ => by
  simp [parse, parse08, majorOf_packA, unpackA_packA, minorOf_packA]
theorem vsar (f : FmtA) : Statement (.vsar f) := of_word rfl fun _ => by
  simp [parse, parse08, majorOf_packA, unpackA_packA, minorOf_packA]
theorem vclz (f : FmtA) : Statement (.vclz f) := of_word rfl fun _ => by
  simp [parse, parse08, majorOf_packA, unpackA_packA, minorOf_packA]
theorem vpopc (f : FmtA) : Statement (.vpopc f) := of_word rfl fun _ => by
  simp [parse, parse08, majorOf_packA, unpackA_packA, minorOf_packA]
theorem vbfx (f : FmtA) : Statement (.vbfx f) := of_word rfl fun _ => by
  simp [parse, parse08, majorOf_packA, unpackA_packA, minorOf_packA]
theorem vcmp (f : FmtA) : Statement (.vcmp f) := of_word rfl fun _ => by
  simp [parse, parse08, majorOf_packA, unpackA_packA, minorOf_packA]
theorem vsel (f : FmtA) : Statement (.vsel f) := of_word rfl fun _ => by
  simp [parse, parse08, majorOf_packA, unpackA_packA, minorOf_packA]
theorem vmov (f : FmtA) : Statement (.vmov f) := of_word rfl fun _ => by
  simp [parse, parse08, majorOf_packA, unpackA_packA, minorOf_packA]
theorem vbcast (f : FmtA) : Statement (.vbcast f) := of_word rfl fun _ => by
  simp [parse, parse08, majorOf_packA, unpackA_packA, minorOf_packA]
theorem viota (f : FmtA) : Statement (.viota f) := of_word rfl fun _ => by
  simp [parse, parse08, majorOf_packA, unpackA_packA, minorOf_packA]
theorem vextr (f : FmtA) : Statement (.vextr f) := of_word rfl fun _ => by
  simp [parse, parse08, majorOf_packA, unpackA_packA, minorOf_packA]
theorem vins (f : FmtA) : Statement (.vins f) := of_word rfl fun _ => by
  simp [parse, parse08, majorOf_packA, unpackA_packA, minorOf_packA]
theorem vfadd (f : FmtA) : Statement (.vfadd f) := of_word rfl fun _ => by
  simp [parse, parse09, majorOf_packA, unpackA_packA, minorOf_packA]
theorem vfsub (f : FmtA) : Statement (.vfsub f) := of_word rfl fun _ => by
  simp [parse, parse09, majorOf_packA, unpackA_packA, minorOf_packA]
theorem vfmul (f : FmtA) : Statement (.vfmul f) := of_word rfl fun _ => by
  simp [parse, parse09, majorOf_packA, unpackA_packA, minorOf_packA]
theorem vfma (f : FmtA) : Statement (.vfma f) := of_word rfl fun _ => by
  simp [parse, parse09, majorOf_packA, unpackA_packA, minorOf_packA]
theorem vfmin (f : FmtA) : Statement (.vfmin f) := of_word rfl fun _ => by
  simp [parse, parse09, majorOf_packA, unpackA_packA, minorOf_packA]
theorem vfmax (f : FmtA) : Statement (.vfmax f) := of_word rfl fun _ => by
  simp [parse, parse09, majorOf_packA, unpackA_packA, minorOf_packA]
theorem vfcmp (f : FmtA) : Statement (.vfcmp f) := of_word rfl fun _ => by
  simp [parse, parse09, majorOf_packA, unpackA_packA, minorOf_packA]
theorem vfclass (f : FmtA) : Statement (.vfclass f) := of_word rfl fun _ => by
  simp [parse, parse09, majorOf_packA, unpackA_packA, minorOf_packA]
theorem vround (f : FmtA) : Statement (.vround f) := of_word rfl fun _ => by
  simp [parse, parse09, majorOf_packA, unpackA_packA, minorOf_packA]
theorem vfrac (f : FmtA) : Statement (.vfrac f) := of_word rfl fun _ => by
  simp [parse, parse09, majorOf_packA, unpackA_packA, minorOf_packA]
theorem vscale (f : FmtA) : Statement (.vscale f) := of_word rfl fun _ => by
  simp [parse, parse09, majorOf_packA, unpackA_packA, minorOf_packA]
theorem vdot2 (f : FmtA) : Statement (.vdot2 f) := of_word rfl fun _ => by
  simp [parse, parse09, majorOf_packA, unpackA_packA, minorOf_packA]
theorem vdot4 (f : FmtA) : Statement (.vdot4 f) := of_word rfl fun _ => by
  simp [parse, parse09, majorOf_packA, unpackA_packA, minorOf_packA]
theorem vcvt (f : FmtA) : Statement (.vcvt f) := of_word rfl fun _ => by
  simp [parse, parse09, majorOf_packA, unpackA_packA, minorOf_packA]
theorem vrcp (f : FmtA) : Statement (.vrcp f) := of_word rfl fun _ => by
  simp [parse, parse0A, majorOf_packA, unpackA_packA, minorOf_packA]
theorem vrsq (f : FmtA) : Statement (.vrsq f) := of_word rfl fun _ => by
  simp [parse, parse0A, majorOf_packA, unpackA_packA, minorOf_packA]
theorem vsqrt (f : FmtA) : Statement (.vsqrt f) := of_word rfl fun _ => by
  simp [parse, parse0A, majorOf_packA, unpackA_packA, minorOf_packA]
theorem vfdiv (f : FmtA) : Statement (.vfdiv f) := of_word rfl fun _ => by
  simp [parse, parse0A, majorOf_packA, unpackA_packA, minorOf_packA]
theorem vexp2 (f : FmtA) : Statement (.vexp2 f) := of_word rfl fun _ => by
  simp [parse, parse0A, majorOf_packA, unpackA_packA, minorOf_packA]
theorem vlog2 (f : FmtA) : Statement (.vlog2 f) := of_word rfl fun _ => by
  simp [parse, parse0A, majorOf_packA, unpackA_packA, minorOf_packA]
theorem vsinpi (f : FmtA) : Statement (.vsinpi f) := of_word rfl fun _ => by
  simp [parse, parse0A, majorOf_packA, unpackA_packA, minorOf_packA]
theorem vcospi (f : FmtA) : Statement (.vcospi f) := of_word rfl fun _ => by
  simp [parse, parse0A, majorOf_packA, unpackA_packA, minorOf_packA]
theorem vtanh (f : FmtA) : Statement (.vtanh f) := of_word rfl fun _ => by
  simp [parse, parse0A, majorOf_packA, unpackA_packA, minorOf_packA]
theorem vperm (f : FmtA) : Statement (.vperm f) := of_word rfl fun _ => by
  simp [parse, parse0B, majorOf_packA, unpackA_packA, minorOf_packA]
theorem vpermx (f : FmtA) : Statement (.vpermx f) := of_word rfl fun _ => by
  simp [parse, parse0B, majorOf_packA, unpackA_packA, minorOf_packA]
theorem vrot (f : FmtA) : Statement (.vrot f) := of_word rfl fun _ => by
  simp [parse, parse0B, majorOf_packA, unpackA_packA, minorOf_packA]
theorem vshufx (f : FmtA) : Statement (.vshufx f) := of_word rfl fun _ => by
  simp [parse, parse0B, majorOf_packA, unpackA_packA, minorOf_packA]
theorem vtrn (f : FmtA) : Statement (.vtrn f) := of_word rfl fun _ => by
  simp [parse, parse0B, majorOf_packA, unpackA_packA, minorOf_packA]
theorem vred (f : FmtA) : Statement (.vred f) := of_word rfl fun _ => by
  simp [parse, parse0B, majorOf_packA, unpackA_packA, minorOf_packA]
theorem vscan (f : FmtA) : Statement (.vscan f) := of_word rfl fun _ => by
  simp [parse, parse0B, majorOf_packA, unpackA_packA, minorOf_packA]
theorem vvote (f : FmtA) : Statement (.vvote f) := of_word rfl fun _ => by
  simp [parse, parse0B, majorOf_packA, unpackA_packA, minorOf_packA]
theorem vcomp (f : FmtA) : Statement (.vcomp f) := of_word rfl fun _ => by
  simp [parse, parse0B, majorOf_packA, unpackA_packA, minorOf_packA]
theorem vexpd (f : FmtA) : Statement (.vexpd f) := of_word rfl fun _ => by
  simp [parse, parse0B, majorOf_packA, unpackA_packA, minorOf_packA]
theorem mand (f : FmtA) : Statement (.mand f) := of_word rfl fun _ => by
  simp [parse, parse0C, majorOf_packA, unpackA_packA, minorOf_packA]
theorem mor (f : FmtA) : Statement (.mor f) := of_word rfl fun _ => by
  simp [parse, parse0C, majorOf_packA, unpackA_packA, minorOf_packA]
theorem mxor (f : FmtA) : Statement (.mxor f) := of_word rfl fun _ => by
  simp [parse, parse0C, majorOf_packA, unpackA_packA, minorOf_packA]
theorem mandn (f : FmtA) : Statement (.mandn f) := of_word rfl fun _ => by
  simp [parse, parse0C, majorOf_packA, unpackA_packA, minorOf_packA]
theorem mnot (f : FmtA) : Statement (.mnot f) := of_word rfl fun _ => by
  simp [parse, parse0C, majorOf_packA, unpackA_packA, minorOf_packA]
theorem mmov (f : FmtA) : Statement (.mmov f) := of_word rfl fun _ => by
  simp [parse, parse0C, majorOf_packA, unpackA_packA, minorOf_packA]
theorem mset (f : FmtA) : Statement (.mset f) := of_word rfl fun _ => by
  simp [parse, parse0C, majorOf_packA, unpackA_packA, minorOf_packA]
theorem mpopc (f : FmtA) : Statement (.mpopc f) := of_word rfl fun _ => by
  simp [parse, parse0C, majorOf_packA, unpackA_packA, minorOf_packA]
theorem mffs (f : FmtA) : Statement (.mffs f) := of_word rfl fun _ => by
  simp [parse, parse0C, majorOf_packA, unpackA_packA, minorOf_packA]
theorem mtox (f : FmtA) : Statement (.mtox f) := of_word rfl fun _ => by
  simp [parse, parse0C, majorOf_packA, unpackA_packA, minorOf_packA]
theorem xtom (f : FmtA) : Statement (.xtom f) := of_word rfl fun _ => by
  simp [parse, parse0C, majorOf_packA, unpackA_packA, minorOf_packA]
theorem cbld (f : FmtA) : Statement (.cbld f) := of_word rfl fun _ => by
  simp [parse, parse0C, majorOf_packA, unpackA_packA, minorOf_packA]
theorem cbst (f : FmtA) : Statement (.cbst f) := of_word rfl fun _ => by
  simp [parse, parse0C, majorOf_packA, unpackA_packA, minorOf_packA]
theorem ld (f : FmtM) : Statement (.ld f) := of_word rfl fun hw => by
  have hr : (f.b == 0 && f.noPred && f.space != 3) = true := reserved_of_wf hw
  simp only [Bool.and_eq_true] at hr
  have h := space_ok f.space (by tauto)
  simp [parse, parse10, majorOf_packM, unpackM_packM, opM_packM, spaceM_packM, h]
theorem st (f : FmtM) : Statement (.st f) := of_word rfl fun hw => by
  have hr : (f.b == 0 && f.noPred && f.space != 3) = true := reserved_of_wf hw
  simp only [Bool.and_eq_true] at hr
  have h := space_ok f.space (by tauto)
  simp [parse, parse10, majorOf_packM, unpackM_packM, opM_packM, spaceM_packM, h]
theorem vld (f : FmtM) : Statement (.vld f) := of_word rfl fun hw => by
  have hr : (f.b == 0 && f.space != 3) = true := reserved_of_wf hw
  simp only [Bool.and_eq_true] at hr
  have h := space_ok f.space (by tauto)
  simp [parse, parse10, majorOf_packM, unpackM_packM, opM_packM, spaceM_packM, h]
theorem vst (f : FmtM) : Statement (.vst f) := of_word rfl fun hw => by
  have hr : (f.b == 0 && f.space != 3) = true := reserved_of_wf hw
  simp only [Bool.and_eq_true] at hr
  have h := space_ok f.space (by tauto)
  simp [parse, parse10, majorOf_packM, unpackM_packM, opM_packM, spaceM_packM, h]
theorem vlds (f : FmtM) : Statement (.vlds f) := of_word rfl fun hw => by
  have h := space_ok f.space (.inl (reserved_of_wf hw))
  simp [parse, parse10, majorOf_packM, unpackM_packM, opM_packM, spaceM_packM, h]
theorem vsts (f : FmtM) : Statement (.vsts f) := of_word rfl fun hw => by
  have h := space_ok f.space (.inl (reserved_of_wf hw))
  simp [parse, parse10, majorOf_packM, unpackM_packM, opM_packM, spaceM_packM, h]
theorem vgath (f : FmtM) : Statement (.vgath f) := of_word rfl fun hw => by
  have h := space_ok f.space (.inl (reserved_of_wf hw))
  simp [parse, parse10, majorOf_packM, unpackM_packM, opM_packM, spaceM_packM, h]
theorem vscat (f : FmtM) : Statement (.vscat f) := of_word rfl fun hw => by
  have h := space_ok f.space (.inl (reserved_of_wf hw))
  simp [parse, parse10, majorOf_packM, unpackM_packM, opM_packM, spaceM_packM, h]
theorem pref (f : FmtM) : Statement (.pref f) := of_word rfl fun hw => by
  have hr : (f.d == 0 && f.b == 0 && f.noPred && f.ty == 0 && f.space == 0) = true := reserved_of_wf hw
  simp only [Bool.and_eq_true, beq_iff_eq] at hr
  have h : f.space = 0#2 := hr.2
  simp [parse, parse10, majorOf_packM, unpackM_packM, opM_packM, spaceM_packM, h]
theorem atomAdd (f : FmtM) : Statement (.atomAdd f) := of_word rfl fun hw => by
  have hr : (f.b == 0 && f.noPred && scopeCodeOk f.hi && f.space != 3) = true := reserved_of_wf hw
  simp only [Bool.and_eq_true] at hr
  have h := space_ok f.space (by tauto)
  simp [parse, parse11, majorOf_packM, unpackM_packM, opM_packM, spaceM_packM, h]
theorem atomAnd (f : FmtM) : Statement (.atomAnd f) := of_word rfl fun hw => by
  have hr : (f.b == 0 && f.noPred && scopeCodeOk f.hi && f.space != 3) = true := reserved_of_wf hw
  simp only [Bool.and_eq_true] at hr
  have h := space_ok f.space (by tauto)
  simp [parse, parse11, majorOf_packM, unpackM_packM, opM_packM, spaceM_packM, h]
theorem atomOr (f : FmtM) : Statement (.atomOr f) := of_word rfl fun hw => by
  have hr : (f.b == 0 && f.noPred && scopeCodeOk f.hi && f.space != 3) = true := reserved_of_wf hw
  simp only [Bool.and_eq_true] at hr
  have h := space_ok f.space (by tauto)
  simp [parse, parse11, majorOf_packM, unpackM_packM, opM_packM, spaceM_packM, h]
theorem atomXor (f : FmtM) : Statement (.atomXor f) := of_word rfl fun hw => by
  have hr : (f.b == 0 && f.noPred && scopeCodeOk f.hi && f.space != 3) = true := reserved_of_wf hw
  simp only [Bool.and_eq_true] at hr
  have h := space_ok f.space (by tauto)
  simp [parse, parse11, majorOf_packM, unpackM_packM, opM_packM, spaceM_packM, h]
theorem atomMin (f : FmtM) : Statement (.atomMin f) := of_word rfl fun hw => by
  have hr : (f.b == 0 && f.noPred && scopeCodeOk f.hi && f.space != 3) = true := reserved_of_wf hw
  simp only [Bool.and_eq_true] at hr
  have h := space_ok f.space (by tauto)
  simp [parse, parse11, majorOf_packM, unpackM_packM, opM_packM, spaceM_packM, h]
theorem atomMax (f : FmtM) : Statement (.atomMax f) := of_word rfl fun hw => by
  have hr : (f.b == 0 && f.noPred && scopeCodeOk f.hi && f.space != 3) = true := reserved_of_wf hw
  simp only [Bool.and_eq_true] at hr
  have h := space_ok f.space (by tauto)
  simp [parse, parse11, majorOf_packM, unpackM_packM, opM_packM, spaceM_packM, h]
theorem atomXchg (f : FmtM) : Statement (.atomXchg f) := of_word rfl fun hw => by
  have hr : (f.b == 0 && f.noPred && scopeCodeOk f.hi && f.space != 3) = true := reserved_of_wf hw
  simp only [Bool.and_eq_true] at hr
  have h := space_ok f.space (by tauto)
  simp [parse, parse11, majorOf_packM, unpackM_packM, opM_packM, spaceM_packM, h]
theorem atomCas (f : FmtM) : Statement (.atomCas f) := of_word rfl fun hw => by
  have hr : (f.noPred && scopeCodeOk f.hi && f.space != 3) = true := reserved_of_wf hw
  simp only [Bool.and_eq_true] at hr
  have h := space_ok f.space (by tauto)
  simp [parse, parse11, majorOf_packM, unpackM_packM, opM_packM, spaceM_packM, h]
theorem atomFadd (f : FmtM) : Statement (.atomFadd f) := of_word rfl fun hw => by
  have hr : (f.b == 0 && f.noPred && scopeCodeOk f.hi && f.space != 3) = true := reserved_of_wf hw
  simp only [Bool.and_eq_true] at hr
  have h := space_ok f.space (by tauto)
  simp [parse, parse11, majorOf_packM, unpackM_packM, opM_packM, spaceM_packM, h]
theorem atomFmin (f : FmtM) : Statement (.atomFmin f) := of_word rfl fun hw => by
  have hr : (f.b == 0 && f.noPred && scopeCodeOk f.hi && f.space != 3) = true := reserved_of_wf hw
  simp only [Bool.and_eq_true] at hr
  have h := space_ok f.space (by tauto)
  simp [parse, parse11, majorOf_packM, unpackM_packM, opM_packM, spaceM_packM, h]
theorem atomFmax (f : FmtM) : Statement (.atomFmax f) := of_word rfl fun hw => by
  have hr : (f.b == 0 && f.noPred && scopeCodeOk f.hi && f.space != 3) = true := reserved_of_wf hw
  simp only [Bool.and_eq_true] at hr
  have h := space_ok f.space (by tauto)
  simp [parse, parse11, majorOf_packM, unpackM_packM, opM_packM, spaceM_packM, h]
theorem vatomAdd (f : FmtM) : Statement (.vatomAdd f) := of_word rfl fun hw => by
  have hr : (scopeCodeOk f.hi && f.space != 3) = true := reserved_of_wf hw
  simp only [Bool.and_eq_true] at hr
  have h := space_ok f.space (by tauto)
  simp [parse, parse12, majorOf_packM, unpackM_packM, opM_packM, spaceM_packM, h]
theorem vatomAnd (f : FmtM) : Statement (.vatomAnd f) := of_word rfl fun hw => by
  have hr : (scopeCodeOk f.hi && f.space != 3) = true := reserved_of_wf hw
  simp only [Bool.and_eq_true] at hr
  have h := space_ok f.space (by tauto)
  simp [parse, parse12, majorOf_packM, unpackM_packM, opM_packM, spaceM_packM, h]
theorem vatomOr (f : FmtM) : Statement (.vatomOr f) := of_word rfl fun hw => by
  have hr : (scopeCodeOk f.hi && f.space != 3) = true := reserved_of_wf hw
  simp only [Bool.and_eq_true] at hr
  have h := space_ok f.space (by tauto)
  simp [parse, parse12, majorOf_packM, unpackM_packM, opM_packM, spaceM_packM, h]
theorem vatomXor (f : FmtM) : Statement (.vatomXor f) := of_word rfl fun hw => by
  have hr : (scopeCodeOk f.hi && f.space != 3) = true := reserved_of_wf hw
  simp only [Bool.and_eq_true] at hr
  have h := space_ok f.space (by tauto)
  simp [parse, parse12, majorOf_packM, unpackM_packM, opM_packM, spaceM_packM, h]
theorem vatomMin (f : FmtM) : Statement (.vatomMin f) := of_word rfl fun hw => by
  have hr : (scopeCodeOk f.hi && f.space != 3) = true := reserved_of_wf hw
  simp only [Bool.and_eq_true] at hr
  have h := space_ok f.space (by tauto)
  simp [parse, parse12, majorOf_packM, unpackM_packM, opM_packM, spaceM_packM, h]
theorem vatomMax (f : FmtM) : Statement (.vatomMax f) := of_word rfl fun hw => by
  have hr : (scopeCodeOk f.hi && f.space != 3) = true := reserved_of_wf hw
  simp only [Bool.and_eq_true] at hr
  have h := space_ok f.space (by tauto)
  simp [parse, parse12, majorOf_packM, unpackM_packM, opM_packM, spaceM_packM, h]
theorem vatomXchg (f : FmtM) : Statement (.vatomXchg f) := of_word rfl fun hw => by
  have hr : (scopeCodeOk f.hi && f.space != 3) = true := reserved_of_wf hw
  simp only [Bool.and_eq_true] at hr
  have h := space_ok f.space (by tauto)
  simp [parse, parse12, majorOf_packM, unpackM_packM, opM_packM, spaceM_packM, h]
theorem vatomCas (f : FmtM) : Statement (.vatomCas f) := of_word rfl fun hw => by
  have hr : (scopeCodeOk f.hi && f.space != 3) = true := reserved_of_wf hw
  simp only [Bool.and_eq_true] at hr
  have h := space_ok f.space (by tauto)
  simp [parse, parse12, majorOf_packM, unpackM_packM, opM_packM, spaceM_packM, h]
theorem vatomFadd (f : FmtM) : Statement (.vatomFadd f) := of_word rfl fun hw => by
  have hr : (scopeCodeOk f.hi && f.space != 3) = true := reserved_of_wf hw
  simp only [Bool.and_eq_true] at hr
  have h := space_ok f.space (by tauto)
  simp [parse, parse12, majorOf_packM, unpackM_packM, opM_packM, spaceM_packM, h]
theorem vatomFmin (f : FmtM) : Statement (.vatomFmin f) := of_word rfl fun hw => by
  have hr : (scopeCodeOk f.hi && f.space != 3) = true := reserved_of_wf hw
  simp only [Bool.and_eq_true] at hr
  have h := space_ok f.space (by tauto)
  simp [parse, parse12, majorOf_packM, unpackM_packM, opM_packM, spaceM_packM, h]
theorem vatomFmax (f : FmtM) : Statement (.vatomFmax f) := of_word rfl fun hw => by
  have hr : (scopeCodeOk f.hi && f.space != 3) = true := reserved_of_wf hw
  simp only [Bool.and_eq_true] at hr
  have h := space_ok f.space (by tauto)
  simp [parse, parse12, majorOf_packM, unpackM_packM, opM_packM, spaceM_packM, h]
theorem fenceAcq (f : FmtS) : Statement (.fenceAcq f) := of_word rfl fun hw => by
  have h : f.sel = 0 := by
    have hr : (f.only false false false true true false && scopeCodeOk f.scope && f.sel == 0) = true := reserved_of_wf hw
    simp only [Bool.and_eq_true, beq_iff_eq] at hr
    exact hr.2
  simp [parse, parse13, majorOf_packS, unpackS_packS, minorOf_packS, sel_packS, h]
theorem fenceRel (f : FmtS) : Statement (.fenceRel f) := of_word rfl fun hw => by
  have h : f.sel = 1 := by
    have hr : (f.only false false false true true false && scopeCodeOk f.scope && f.sel == 1) = true := reserved_of_wf hw
    simp only [Bool.and_eq_true, beq_iff_eq] at hr
    exact hr.2
  simp [parse, parse13, majorOf_packS, unpackS_packS, minorOf_packS, sel_packS, h]
theorem fenceAcqrel (f : FmtS) : Statement (.fenceAcqrel f) := of_word rfl fun hw => by
  have h : f.sel = 2 := by
    have hr : (f.only false false false true true false && scopeCodeOk f.scope && f.sel == 2) = true := reserved_of_wf hw
    simp only [Bool.and_eq_true, beq_iff_eq] at hr
    exact hr.2
  simp [parse, parse13, majorOf_packS, unpackS_packS, minorOf_packS, sel_packS, h]
theorem kcfg (f : FmtK) : Statement (.kcfg f) := of_word rfl fun _ => by
  simp [parse, parse14, majorOf_packK, unpackK_packK, minorOf_packK]
theorem karr (f : FmtK) : Statement (.karr f) := of_word rfl fun _ => by
  simp [parse, parse14, majorOf_packK, unpackK_packK, minorOf_packK]
theorem ksig (f : FmtK) : Statement (.ksig f) := of_word rfl fun _ => by
  simp [parse, parse14, majorOf_packK, unpackK_packK, minorOf_packK]
theorem kwait (f : FmtK) : Statement (.kwait f) := of_word rfl fun _ => by
  simp [parse, parse14, majorOf_packK, unpackK_packK, minorOf_packK]
theorem ktry (f : FmtK) : Statement (.ktry f) := of_word rfl fun _ => by
  simp [parse, parse14, majorOf_packK, unpackK_packK, minorOf_packK]
theorem karrw (f : FmtK) : Statement (.karrw f) := of_word rfl fun _ => by
  simp [parse, parse14, majorOf_packK, unpackK_packK, minorOf_packK]
theorem krd (f : FmtK) : Statement (.krd f) := of_word rfl fun _ => by
  simp [parse, parse14, majorOf_packK, unpackK_packK, minorOf_packK]
theorem tlaunch (f : FmtS) : Statement (.tlaunch f) := of_word rfl fun _ => by
  simp [parse, parse15, majorOf_packS, unpackS_packS, minorOf_packS]
theorem tfence (f : FmtS) : Statement (.tfence f) := of_word rfl fun _ => by
  simp [parse, parse15, majorOf_packS, unpackS_packS, minorOf_packS]
theorem notify (f : FmtS) : Statement (.notify f) := of_word rfl fun _ => by
  simp [parse, parse15, majorOf_packS, unpackS_packS, minorOf_packS]
theorem sleepuntil (f : FmtS) : Statement (.sleepuntil f) := of_word rfl fun _ => by
  simp [parse, parse15, majorOf_packS, unpackS_packS, minorOf_packS]
theorem cpy (f : FmtE) : Statement (.cpy f) := of_word rfl fun _ => by
  simp [parse, parse18, majorOf_packE, unpackE_packE, minorOf_packE]
theorem cpyt (f : FmtE) : Statement (.cpyt f) := of_word rfl fun _ => by
  simp [parse, parse18, majorOf_packE, unpackE_packE, minorOf_packE]
theorem cpyq (f : FmtE) : Statement (.cpyq f) := of_word rfl fun _ => by
  simp [parse, parse18, majorOf_packE, unpackE_packE, minorOf_packE]
theorem mxacq (f : FmtE) : Statement (.mxacq f) := of_word rfl fun _ => by
  simp [parse, parse19, majorOf_packE, unpackE_packE, minorOf_packE]
theorem mxrel (f : FmtE) : Statement (.mxrel f) := of_word rfl fun _ => by
  simp [parse, parse19, majorOf_packE, unpackE_packE, minorOf_packE]
theorem mxpush (f : FmtE) : Statement (.mxpush f) := of_word rfl fun _ => by
  simp [parse, parse19, majorOf_packE, unpackE_packE, minorOf_packE]
theorem mxqs (f : FmtE) : Statement (.mxqs f) := of_word rfl fun _ => by
  simp [parse, parse19, majorOf_packE, unpackE_packE, minorOf_packE]
theorem tsld (f : FmtA) : Statement (.tsld f) := of_word rfl fun _ => by
  simp [parse, parse1A, majorOf_packA, unpackA_packA, minorOf_packA]
theorem tsst (f : FmtA) : Statement (.tsst f) := of_word rfl fun _ => by
  simp [parse, parse1A, majorOf_packA, unpackA_packA, minorOf_packA]
theorem tszero (f : FmtA) : Statement (.tszero f) := of_word rfl fun _ => by
  simp [parse, parse1A, majorOf_packA, unpackA_packA, minorOf_packA]
theorem xfmCvt (f : FmtA) : Statement (.xfmCvt f) := of_word rfl fun hw => by
  have h : f.mod.extractLsb' 8 3 = 0 := by
    have hr : (f.only [.d, .a, .p, .ty, .rnd, .ty2] 0xFF && f.rndOk) = true := reserved_of_wf hw
    simp only [FmtA.only, Bool.and_eq_true, beq_iff_eq] at hr
    exact mask_xfmCvt f.mod (by tauto)
  simp [parse, parse1B, majorOf_packA, unpackA_packA, minorOf_packA, mod_packA, h]
theorem xfmQuant (f : FmtA) : Statement (.xfmQuant f) := of_word rfl fun hw => by
  have h : f.mod.extractLsb' 8 3 = 1 := by
    have hr : (f.only [.d, .a, .p, .ty, .rnd, .ty2] 0x1FF && f.rndOk && f.mod.extractLsb' 8 3 == 1) = true := reserved_of_wf hw
    simp only [Bool.and_eq_true, beq_iff_eq] at hr
    exact hr.2
  simp [parse, parse1B, majorOf_packA, unpackA_packA, minorOf_packA, mod_packA, h]
theorem xfmTr8 (f : FmtA) : Statement (.xfmTr8 f) := of_word rfl fun hw => by
  have h : f.mod.extractLsb' 8 3 = 2 := by
    have hr : (f.only [.d, .a] 0x700 && f.mod.extractLsb' 8 3 == 2) = true := reserved_of_wf hw
    simp only [Bool.and_eq_true, beq_iff_eq] at hr
    exact hr.2
  simp [parse, parse1B, majorOf_packA, unpackA_packA, minorOf_packA, mod_packA, h]
theorem xfmTr16 (f : FmtA) : Statement (.xfmTr16 f) := of_word rfl fun hw => by
  have h : f.mod.extractLsb' 8 3 = 3 := by
    have hr : (f.only [.d, .a] 0x700 && f.mod.extractLsb' 8 3 == 3) = true := reserved_of_wf hw
    simp only [Bool.and_eq_true, beq_iff_eq] at hr
    exact hr.2
  simp [parse, parse1B, majorOf_packA, unpackA_packA, minorOf_packA, mod_packA, h]
theorem xfmTr32 (f : FmtA) : Statement (.xfmTr32 f) := of_word rfl fun hw => by
  have h : f.mod.extractLsb' 8 3 = 4 := by
    have hr : (f.only [.d, .a] 0x700 && f.mod.extractLsb' 8 3 == 4) = true := reserved_of_wf hw
    simp only [Bool.and_eq_true, beq_iff_eq] at hr
    exact hr.2
  simp [parse, parse1B, majorOf_packA, unpackA_packA, minorOf_packA, mod_packA, h]
theorem xfmPack (f : FmtA) : Statement (.xfmPack f) := of_word rfl fun hw => by
  have h : f.mod.extractLsb' 8 3 = 5 := by
    have hr : (f.only [.d, .a, .ty] 0x700 && f.mod.extractLsb' 8 3 == 5) = true := reserved_of_wf hw
    simp only [Bool.and_eq_true, beq_iff_eq] at hr
    exact hr.2
  simp [parse, parse1B, majorOf_packA, unpackA_packA, minorOf_packA, mod_packA, h]
theorem xfmUnpack (f : FmtA) : Statement (.xfmUnpack f) := of_word rfl fun hw => by
  have h : f.mod.extractLsb' 8 3 = 6 := by
    have hr : (f.only [.d, .a, .ty] 0x700 && f.mod.extractLsb' 8 3 == 6) = true := reserved_of_wf hw
    simp only [Bool.and_eq_true, beq_iff_eq] at hr
    exact hr.2
  simp [parse, parse1B, majorOf_packA, unpackA_packA, minorOf_packA, mod_packA, h]
theorem xfmReply (d : Fin 2) (core : Fin 24) (pipe : Fin 2) : Statement (.xfmReply d core pipe) := of_event rfl
theorem sample (f : FmtA) : Statement (.sample f) := of_word rfl fun _ => by
  simp [parse, parse1C, majorOf_packA, unpackA_packA, minorOf_packA]
theorem sgath (f : FmtA) : Statement (.sgath f) := of_word rfl fun _ => by
  simp [parse, parse1C, majorOf_packA, unpackA_packA, minorOf_packA]
theorem tld (f : FmtA) : Statement (.tld f) := of_word rfl fun _ => by
  simp [parse, parse1C, majorOf_packA, unpackA_packA, minorOf_packA]
theorem tqry (f : FmtA) : Statement (.tqry f) := of_word rfl fun _ => by
  simp [parse, parse1C, majorOf_packA, unpackA_packA, minorOf_packA]
theorem wtinv (f : FmtA) : Statement (.wtinv f) := of_word rfl fun hw => by
  have h : f.mod.extractLsb' 0 1 = 0 := by
    have hr : (f.only [.a] 0) = true := reserved_of_wf hw
    simp only [FmtA.only, Bool.and_eq_true, beq_iff_eq] at hr
    exact mask_wtinv f.mod (by tauto)
  simp [parse, parse1C, majorOf_packA, unpackA_packA, minorOf_packA, mod0_packA, h]
theorem wtinvAll (f : FmtA) : Statement (.wtinvAll f) := of_word rfl fun hw => by
  have h : f.mod = 1 := by
    have hr : (f.only [] 1 && f.mod == 1) = true := reserved_of_wf hw
    simp only [Bool.and_eq_true, beq_iff_eq] at hr
    exact hr.2
  simp [parse, parse1C, majorOf_packA, unpackA_packA, minorOf_packA, mod0_packA, h]
theorem wtpf (f : FmtA) : Statement (.wtpf f) := of_word rfl fun _ => by
  simp [parse, parse1C, majorOf_packA, unpackA_packA, minorOf_packA]
theorem trace (f : FmtA) : Statement (.trace f) := of_word rfl fun _ => by
  simp [parse, parse1D, majorOf_packA, unpackA_packA, minorOf_packA]
theorem rqnext (f : FmtA) : Statement (.rqnext f) := of_word rfl fun _ => by
  simp [parse, parse1D, majorOf_packA, unpackA_packA, minorOf_packA]
theorem rqcommit (f : FmtA) : Statement (.rqcommit f) := of_word rfl fun _ => by
  simp [parse, parse1D, majorOf_packA, unpackA_packA, minorOf_packA]
theorem rqterm (f : FmtA) : Statement (.rqterm f) := of_word rfl fun _ => by
  simp [parse, parse1D, majorOf_packA, unpackA_packA, minorOf_packA]
theorem gemitVtx (f : FmtA) : Statement (.gemitVtx f) := of_word rfl fun hw => by
  have h : f.mod.extractLsb' 0 2 = 0 := by
    have hr : (f.only [.a, .b, .p, .ty] 0x7C) = true := reserved_of_wf hw
    simp only [FmtA.only, Bool.and_eq_true, beq_iff_eq] at hr
    exact mask_gemitVtx f.mod (by tauto)
  simp [parse, parse1E, majorOf_packA, unpackA_packA, minorOf_packA, mod01_packA, h]
theorem gemitPrim (f : FmtA) : Statement (.gemitPrim f) := of_word rfl fun hw => by
  have h : f.mod = 1 := by
    have hr : (f.only [.a, .p] 1 && f.mod == 1) = true := reserved_of_wf hw
    simp only [Bool.and_eq_true, beq_iff_eq] at hr
    exact hr.2
  simp [parse, parse1E, majorOf_packA, unpackA_packA, minorOf_packA, mod01_packA, h]
theorem gemitEnd (f : FmtA) : Statement (.gemitEnd f) := of_word rfl fun hw => by
  have h : f.mod = 2 := by
    have hr : (f.only [] 2 && f.mod == 2) = true := reserved_of_wf hw
    simp only [Bool.and_eq_true, beq_iff_eq] at hr
    exact hr.2
  simp [parse, parse1E, majorOf_packA, unpackA_packA, minorOf_packA, mod01_packA, h]
theorem femit (f : FmtA) : Statement (.femit f) := of_word rfl fun _ => by
  simp [parse, parse1E, majorOf_packA, unpackA_packA, minorOf_packA]
theorem qwait (f : FmtS) : Statement (.qwait f) := of_word rfl fun _ => by
  simp [parse, parse3D, majorOf_packS, unpackS_packS, minorOf_packS]
theorem qtail (f : FmtS) : Statement (.qtail f) := of_word rfl fun _ => by
  simp [parse, parse3D, majorOf_packS, unpackS_packS, minorOf_packS]
theorem qhandPacket (f : FmtS) : Statement (.qhandPacket f) := of_word rfl fun hw => by
  have h : f.sel = 0 := by
    have hr : (f.only true true true false true false && f.sel == 0) = true := reserved_of_wf hw
    simp only [Bool.and_eq_true, beq_iff_eq] at hr
    exact hr.2
  simp [parse, parse3D, majorOf_packS, unpackS_packS, minorOf_packS, sel_packS, h]
theorem qhandNode (f : FmtS) : Statement (.qhandNode f) := of_word rfl fun hw => by
  have h : f.sel = 1 := by
    have hr : (f.only true true true false true false && f.sel == 1) = true := reserved_of_wf hw
    simp only [Bool.and_eq_true, beq_iff_eq] at hr
    exact hr.2
  simp [parse, parse3D, majorOf_packS, unpackS_packS, minorOf_packS, sel_packS, h]
theorem prd (f : FmtS) : Statement (.prd f) := of_word rfl fun _ => by
  simp [parse, parse3D, majorOf_packS, unpackS_packS, minorOf_packS]
theorem pwr (f : FmtS) : Statement (.pwr f) := of_word rfl fun _ => by
  simp [parse, parse3D, majorOf_packS, unpackS_packS, minorOf_packS]
theorem fansw (f : FmtS) : Statement (.fansw f) := of_word rfl fun _ => by
  simp [parse, parse3D, majorOf_packS, unpackS_packS, minorOf_packS]
theorem loadDataReturn (who : Agent) (n : Nat) (bad : Option Nat) : Statement (.loadDataReturn who n bad) := of_event rfl
theorem roveEnter (who : Agent) : Statement (.roveEnter who) := of_event rfl
theorem roveInstructionLimit (who : Agent) : Statement (.roveInstructionLimit who) := of_event rfl
theorem roveRestoreDone (who : Agent) : Statement (.roveRestoreDone who) := of_event rfl
theorem logicalTick (d : Fin 2) : Statement (.logicalTick d) := of_event rfl
theorem knotUpdate (n : Nat) : Statement (.knotUpdate n) := of_event rfl
theorem deadlineReached (who : Agent) : Statement (.deadlineReached who) := of_event rfl
theorem deadlockDetect (d : Fin 2) (cluster : Nat) : Statement (.deadlockDetect d cluster) := of_event rfl
theorem commandStart (cmd : Nat) : Statement (.commandStart cmd) := of_event rfl
theorem copyComplete (cmd : Nat) : Statement (.copyComplete cmd) := of_event rfl
theorem matrixComplete (cmd : Nat) : Statement (.matrixComplete cmd) := of_event rfl
theorem stageCopyComplete (cmd : Nat) : Statement (.stageCopyComplete cmd) := of_event rfl
theorem spoolPost (d : Fin 2) : Statement (.spoolPost d) := of_event rfl
theorem errorLogPost (d : Fin 2) : Statement (.errorLogPost d) := of_event rfl
theorem teamPlace (d : Fin 2) : Statement (.teamPlace d) := of_event rfl
theorem teamRetire (team : Nat) : Statement (.teamRetire team) := of_event rfl
theorem preemptRequest (team : Nat) : Statement (.preemptRequest team) := of_event rfl
theorem preemptClass0 (d : Fin 2) : Statement (.preemptClass0 d) := of_event rfl
theorem teamResume (team : Nat) : Statement (.teamResume team) := of_event rfl
theorem launchGrid (q : QueueRef) (p : GridPacket) : Statement (.launchGrid q p) := of_event rfl
theorem launchGraph (q : QueueRef) (p : GraphPacket) : Statement (.launchGraph q p) := of_event rfl
theorem copy (q : QueueRef) (p : CopyPacket) : Statement (.copy q p) := of_event rfl
theorem waitFence (q : QueueRef) (addr value : Nat) (abortDep : Bool) : Statement (.waitFence q addr value abortDep) := of_event rfl
theorem waitFenceSatisfied (q : QueueRef) : Statement (.waitFenceSatisfied q) := of_event rfl
theorem signalFence (q : QueueRef) (addr value : Nat) : Statement (.signalFence q addr value) := of_event rfl
theorem flip (q : QueueRef) (p : FlipPacket) : Statement (.flip q p) := of_event rfl
theorem timestamp (q : QueueRef) (addr : Nat) : Statement (.timestamp q addr) := of_event rfl
theorem queueBarrier (q : QueueRef) : Statement (.queueBarrier q) := of_event rfl
theorem setContext (q : QueueRef) (recAddr cid : Nat) : Statement (.setContext q recAddr cid) := of_event rfl
theorem setEnergy (q : QueueRef) (cap period : Nat) : Statement (.setEnergy q cap period) := of_event rfl
theorem resetQueueDrain (q : QueueRef) (target : Fin 64) (addr value : Nat) : Statement (.resetQueueDrain q target addr value) := of_event rfl
theorem resetQueueAbort (q : QueueRef) (target : Fin 64) (addr value : Nat) : Statement (.resetQueueAbort q target addr value) := of_event rfl
theorem nopPacket (q : QueueRef) : Statement (.nopPacket q) := of_event rfl
theorem queueNotify (q : QueueRef) (v : BitVec 64) : Statement (.queueNotify q v) := of_event rfl
theorem queueEnable (q : QueueRef) (v : BitVec 64) : Statement (.queueEnable q v) := of_event rfl
theorem queueDisable (q : QueueRef) (v : BitVec 64) : Statement (.queueDisable q v) := of_event rfl
theorem threadResume (d : Fin 2) (t : Fin 64) : Statement (.threadResume d t) := of_event rfl
theorem hostirq (d : Fin 2) (v : BitVec 64) : Statement (.hostirq d v) := of_event rfl
theorem hirqRead (d : Fin 2) : Statement (.hirqRead d) := of_event rfl
theorem fkown (d : Fin 2) (k : Fin 2048) (v : BitVec 64) : Statement (.fkown d k v) := of_event rfl
theorem resume (d : Fin 2) (v : BitVec 64) : Statement (.resume d v) := of_event rfl
theorem kill (d : Fin 2) (v : BitVec 64) : Statement (.kill d v) := of_event rfl
theorem shootdownPage (d : Fin 2) (cid : Nat) : Statement (.shootdownPage d cid) := of_event rfl
theorem shootdownContext (d : Fin 2) (cid : Nat) : Statement (.shootdownContext d cid) := of_event rfl
theorem shootdownAll (d : Fin 2) : Statement (.shootdownAll d) := of_event rfl
theorem shootdownComplete (d : Fin 2) : Statement (.shootdownComplete d) := of_event rfl
theorem sptailWrite (d : Fin 2) (v : BitVec 64) : Statement (.sptailWrite d v) := of_event rfl
theorem eltailWrite (d : Fin 2) (v : BitVec 64) : Statement (.eltailWrite d v) := of_event rfl
theorem load (d : Fin 2) (p : Fin 8) : Statement (.load d p) := of_event rfl
theorem swapout (d : Fin 2) (p : Fin 8) : Statement (.swapout d p) := of_event rfl
theorem swapin (d : Fin 2) (p : Fin 8) : Statement (.swapin d p) := of_event rfl
theorem swapComplete (d : Fin 2) : Statement (.swapComplete d) := of_event rfl
theorem svnminRaise (v : BitVec 64) : Statement (.svnminRaise v) := of_event rfl
theorem romend : Statement (.romend) := of_event rfl
theorem lock4 : Statement (.lock4) := of_event rfl
theorem extend (idx : Fin 8) : Statement (.extend idx) := of_event rfl
theorem report : Statement (.report) := of_event rfl
theorem attestOpComplete : Statement (.attestOpComplete) := of_event rfl
theorem clockSet (v : BitVec 64) : Statement (.clockSet v) := of_event rfl
theorem step (v : BitVec 64) : Statement (.step v) := of_event rfl
theorem secloRead (d : Fin 2) : Statement (.secloRead d) := of_event rfl
theorem timestampQueueRead (e : Fin 2) : Statement (.timestampQueueRead e) := of_event rfl
theorem ptpTimestamp (e : Fin 2) (egress : Bool) (msgType : BitVec 4) (seqId : BitVec 16) : Statement (.ptpTimestamp e egress msgType seqId) := of_event rfl
theorem reelRun : Statement (.reelRun) := of_event rfl
theorem reelStop : Statement (.reelStop) := of_event rfl
theorem reelLockWrite (lock : Bool) : Statement (.reelLockWrite lock) := of_event rfl
theorem reelSecondBoundary : Statement (.reelSecondBoundary) := of_event rfl
theorem tableSwitch (v : BitVec 64) : Statement (.tableSwitch v) := of_event rfl
theorem tableTakesForce : Statement (.tableTakesForce) := of_event rfl
theorem linkTrain (l : Fin 8) : Statement (.linkTrain l) := of_event rfl
theorem linkUp (l : Fin 8) (rounds : List (Nat × Nat)) (peer : BitVec 8) : Statement (.linkUp l rounds peer) := of_event rfl
theorem linkTrainTimeout (l : Fin 8) : Statement (.linkTrainTimeout l) := of_event rfl
theorem linkLoss (l : Fin 8) : Statement (.linkLoss l) := of_event rfl
theorem slotTransmit (l : Fin 8) : Statement (.slotTransmit l) := of_event rfl
theorem flitReceive (l : Fin 8) (flit : BitVec 2048) : Statement (.flitReceive l flit) := of_event rfl
theorem receiverTimeout (stream : Nat) : Statement (.receiverTimeout stream) := of_event rfl
theorem headEnable (d : Fin 2) (h : Fin 2) (v : BitVec 64) : Statement (.headEnable d h v) := of_event rfl
theorem frameStart (d : Fin 2) (h : Fin 2) : Statement (.frameStart d h) := of_event rfl
theorem rasterBatch (d : Fin 2) : Statement (.rasterBatch d) := of_event rfl
theorem fragmentApply (d : Fin 2) : Statement (.fragmentApply d) := of_event rfl
theorem readShared (agent : Fin 3) (line : Nat) : Statement (.readShared agent line) := of_event rfl
theorem readUnique (agent : Fin 3) (line : Nat) : Statement (.readUnique agent line) := of_event rfl
theorem upgrade (agent : Fin 3) (line : Nat) : Statement (.upgrade agent line) := of_event rfl
theorem writeBack (agent : Fin 3) (line : Nat) (lost : Option Nat) : Statement (.writeBack agent line lost) := of_event rfl
theorem evictionNotice (agent : Fin 3) (line : Nat) : Statement (.evictionNotice agent line) := of_event rfl
theorem ioRead (addr : Nat) (size : Nat) : Statement (.ioRead addr size) := of_event rfl
theorem ioWrite (addr : Nat) (data : List (BitVec 8)) : Statement (.ioWrite addr data) := of_event rfl
theorem ioAtomic (addr : Nat) (op : IoAtomicOp) (wide : Bool) (a b : BitVec 64) : Statement (.ioAtomic addr op wide a b) := of_event rfl
theorem directoryEvict (line : Nat) : Statement (.directoryEvict line) := of_event rfl
theorem imsicWrite (addr : Nat) (v : BitVec 64) : Statement (.imsicWrite addr v) := of_event rfl
theorem mgmtRead (d : Fin 2) (frame : List (BitVec 8)) : Statement (.mgmtRead d frame) := of_event rfl
theorem arbiterPeriod (m : PeriodMeter) : Statement (.arbiterPeriod m) := of_event rfl
theorem energyPeriod (d : Fin 2) (p : Fin 8) : Statement (.energyPeriod d p) := of_event rfl
theorem calFit (d : Fin 2) (fit : Nat) : Statement (.calFit d fit) := of_event rfl
theorem patrolScrub (d : Fin 2) (sector : Nat) (corrected : Bool) : Statement (.patrolScrub d sector corrected) := of_event rfl
theorem fatalError (jorradLink : Bool) : Statement (.fatalError jorradLink) := of_event rfl
theorem reset : Statement (.reset) := of_event rfl
theorem bootRomLoad (linksTrain : Bool) (manifest image : List (BitVec 8)) : Statement (.bootRomLoad linksTrain manifest image) := of_event rfl
theorem distaffImageStart (d : Fin 2) (manifest image : List (BitVec 8)) : Statement (.distaffImageStart d manifest image) := of_event rfl
theorem memoryTraining (d : Fin 2) (ok : Bool) : Statement (.memoryTraining d ok) := of_event rfl
theorem loaderStart (manifest image : List (BitVec 8)) : Statement (.loaderStart manifest image) := of_event rfl
theorem regWrite (addr : Nat) (v : BitVec 64) : Statement (.regWrite addr v) := of_event rfl
theorem copyElementFault (cmd : Nat) : Statement (.copyElementFault cmd) := of_event rfl

end Sys2Proof.Laws.Encoding
end

