-- ==== Sys2Proof/Laws/Readback.lean ====
section
/-! SUPPORT. What a word that a parser accepts is packed from: its own fields, so that encoding what it reads gives the word back
(03 R57 to R73). -/

set_option Elab.async false

namespace Sys2Proof

theorem field_eq (w : Word) (M : BitVec 6) (h : majorOf w = M.toNat) : M = w.extractLsb' 58 6 := (BitVec.eq_of_toNat_eq h).symm
theorem minor_eq (w : Word) (m : BitVec 6) (h : minorOf w = m.toNat) : m = w.extractLsb' 52 6 := (BitVec.eq_of_toNat_eq h).symm

theorem packA_unpackA (w : Word) (M m : BitVec 6) (h1 : majorOf w = M.toNat) (h2 : minorOf w = m.toNat) : packA M m (unpackA w) = w := by
  rw [field_eq w M h1, minor_eq w m h2]
  unfold packA unpackA
  dsimp only
  apply BitVec.eq_of_getLsbD_eq
  intro i hi
  simp only [BitVec.getLsbD_append, BitVec.getLsbD_extractLsb']
  interval_cases i <;> simp

theorem packI_unpackI (w : Word) (M m : BitVec 6) (h1 : majorOf w = M.toNat) (h2 : minorOf w = m.toNat) : packI M m (unpackI w) = w := by
  rw [field_eq w M h1, minor_eq w m h2]
  unfold packI unpackI
  dsimp only
  apply BitVec.eq_of_getLsbD_eq
  intro i hi
  simp only [BitVec.getLsbD_append, BitVec.getLsbD_extractLsb']
  interval_cases i <;> simp

theorem packB_unpackB (w : Word) (M m : BitVec 6) (h1 : majorOf w = M.toNat) (h2 : minorOf w = m.toNat) : packB M m (unpackB w) = w := by
  rw [field_eq w M h1, minor_eq w m h2]
  unfold packB unpackB
  dsimp only
  apply BitVec.eq_of_getLsbD_eq
  intro i hi
  simp only [BitVec.getLsbD_append, BitVec.getLsbD_extractLsb']
  interval_cases i <;> simp

theorem packK_unpackK (w : Word) (M m : BitVec 6) (h1 : majorOf w = M.toNat) (h2 : minorOf w = m.toNat) : packK M m (unpackK w) = w := by
  rw [field_eq w M h1, minor_eq w m h2]
  unfold packK unpackK
  dsimp only
  apply BitVec.eq_of_getLsbD_eq
  intro i hi
  simp only [BitVec.getLsbD_append, BitVec.getLsbD_extractLsb']
  interval_cases i <;> simp

theorem packE_unpackE (w : Word) (M m : BitVec 6) (h1 : majorOf w = M.toNat) (h2 : minorOf w = m.toNat) : packE M m (unpackE w) = w := by
  rw [field_eq w M h1, minor_eq w m h2]
  unfold packE unpackE
  dsimp only
  apply BitVec.eq_of_getLsbD_eq
  intro i hi
  simp only [BitVec.getLsbD_append, BitVec.getLsbD_extractLsb']
  interval_cases i <;> simp

theorem packS_unpackS (w : Word) (M m : BitVec 6) (h1 : majorOf w = M.toNat) (h2 : minorOf w = m.toNat) : packS M m (unpackS w) = w := by
  rw [field_eq w M h1, minor_eq w m h2]
  unfold packS unpackS
  dsimp only
  apply BitVec.eq_of_getLsbD_eq
  intro i hi
  simp only [BitVec.getLsbD_append, BitVec.getLsbD_extractLsb']
  interval_cases i <;> simp

theorem packM_unpackM (w : Word) (M : BitVec 6) (op : BitVec 4) (h1 : majorOf w = M.toNat) (h2 : (w.extractLsb' 52 4).toNat = op.toNat) : packM M op (unpackM w) = w := by
  have e : op = w.extractLsb' 52 4 := (BitVec.eq_of_toNat_eq h2).symm
  rw [field_eq w M h1, e]
  unfold packM unpackM
  dsimp only
  apply BitVec.eq_of_getLsbD_eq
  intro i hi
  simp only [BitVec.getLsbD_append, BitVec.getLsbD_extractLsb']
  interval_cases i <;> simp

theorem rt01 (w : Word) (hM : majorOf w = 1) (i : Instr) (h : parse01 w = .ok i) : encode i = some w := by
  unfold parse01 at h
  split at h <;> cases h <;> rename_i hm <;> exact congrArg some (packA_unpackA w _ _ hM hm)

theorem word_split (w : Word) : w = (w.extractLsb' 58 6 ++ w.extractLsb' 52 6 ++ w.extractLsb' 0 52 : BitVec 64) := by
  apply BitVec.eq_of_getLsbD_eq
  intro i hi
  simp only [BitVec.getLsbD_append, BitVec.getLsbD_extractLsb']
  interval_cases i <;> simp

theorem low_split (w : Word) : w.extractLsb' 0 52 = (w.extractLsb' 28 24 ++ w.extractLsb' 20 8 ++ w.extractLsb' 0 20 : BitVec 52) := by
  apply BitVec.eq_of_getLsbD_eq
  intro i hi
  simp only [BitVec.getLsbD_append, BitVec.getLsbD_extractLsb']
  interval_cases i <;> simp

theorem bare_word (w : Word) (M m : BitVec 6) (l : BitVec 52) (h1 : majorOf w = M.toNat) (h2 : minorOf w = m.toNat) (h3 : w.extractLsb' 0 52 = l) :
    (M ++ m ++ l : BitVec 64) = w := by
  rw [field_eq w M h1, minor_eq w m h2, ← h3]
  exact (word_split w).symm

theorem rt02 (w : Word) (hM : majorOf w = 2) (i : Instr) (h : parse02 w = .ok i) : encode i = some w := by
  unfold parse02 at h
  split at h <;> cases h <;> rename_i hm <;> exact congrArg some (packI_unpackI w _ _ hM hm)

theorem rt03 (w : Word) (hM : majorOf w = 3) (i : Instr) (h : parse03 w = .ok i) : encode i = some w := by
  unfold parse03 at h
  split at h <;> cases h <;> rename_i hm <;> exact congrArg some (packA_unpackA w _ _ hM hm)

theorem rt04 (w : Word) (hM : majorOf w = 4) (i : Instr) (h : parse04 w = .ok i) : encode i = some w := by
  unfold parse04 at h
  split at h <;> cases h <;> rename_i hm <;> exact congrArg some (packB_unpackB w _ _ hM hm)

theorem rt08 (w : Word) (hM : majorOf w = 8) (i : Instr) (h : parse08 w = .ok i) : encode i = some w := by
  unfold parse08 at h
  split at h <;> cases h <;> rename_i hm <;> exact congrArg some (packA_unpackA w _ _ hM hm)

theorem rt09 (w : Word) (hM : majorOf w = 9) (i : Instr) (h : parse09 w = .ok i) : encode i = some w := by
  unfold parse09 at h
  split at h <;> cases h <;> rename_i hm <;> exact congrArg some (packA_unpackA w _ _ hM hm)

theorem rt0A (w : Word) (hM : majorOf w = 10) (i : Instr) (h : parse0A w = .ok i) : encode i = some w := by
  unfold parse0A at h
  split at h <;> cases h <;> rename_i hm <;> exact congrArg some (packA_unpackA w _ _ hM hm)

theorem rt0B (w : Word) (hM : majorOf w = 11) (i : Instr) (h : parse0B w = .ok i) : encode i = some w := by
  unfold parse0B at h
  split at h <;> cases h <;> rename_i hm <;> exact congrArg some (packA_unpackA w _ _ hM hm)

theorem rt0C (w : Word) (hM : majorOf w = 12) (i : Instr) (h : parse0C w = .ok i) : encode i = some w := by
  unfold parse0C at h
  split at h <;> cases h <;> rename_i hm <;> exact congrArg some (packA_unpackA w _ _ hM hm)

theorem rt14 (w : Word) (hM : majorOf w = 20) (i : Instr) (h : parse14 w = .ok i) : encode i = some w := by
  unfold parse14 at h
  split at h <;> cases h <;> rename_i hm <;> exact congrArg some (packK_unpackK w _ _ hM hm)

theorem rt15 (w : Word) (hM : majorOf w = 21) (i : Instr) (h : parse15 w = .ok i) : encode i = some w := by
  unfold parse15 at h
  split at h <;> cases h <;> rename_i hm <;> exact congrArg some (packS_unpackS w _ _ hM hm)

theorem rt18 (w : Word) (hM : majorOf w = 24) (i : Instr) (h : parse18 w = .ok i) : encode i = some w := by
  unfold parse18 at h
  split at h <;> cases h <;> rename_i hm <;> exact congrArg some (packE_unpackE w _ _ hM hm)

theorem rt19 (w : Word) (hM : majorOf w = 25) (i : Instr) (h : parse19 w = .ok i) : encode i = some w := by
  unfold parse19 at h
  split at h <;> cases h <;> rename_i hm <;> exact congrArg some (packE_unpackE w _ _ hM hm)

theorem rt1A (w : Word) (hM : majorOf w = 26) (i : Instr) (h : parse1A w = .ok i) : encode i = some w := by
  unfold parse1A at h
  split at h <;> cases h <;> rename_i hm <;> exact congrArg some (packA_unpackA w _ _ hM hm)

theorem rt1D (w : Word) (hM : majorOf w = 29) (i : Instr) (h : parse1D w = .ok i) : encode i = some w := by
  unfold parse1D at h
  split at h <;> cases h <;> rename_i hm <;> exact congrArg some (packA_unpackA w _ _ hM hm)

theorem rt13 (w : Word) (hM : majorOf w = 19) (i : Instr) (h : parse13 w = .ok i) : encode i = some w := by
  unfold parse13 at h
  split at h
  all_goals rename_i hm
  all_goals first
    | (cases h; done)
    | (cases h; exact congrArg some (packS_unpackS w _ _ hM hm))
    | (split at h <;> cases h <;> exact congrArg some (packS_unpackS w _ _ hM hm))

theorem rt1B (w : Word) (hM : majorOf w = 27) (i : Instr) (h : parse1B w = .ok i) : encode i = some w := by
  unfold parse1B at h
  split at h
  all_goals rename_i hm
  all_goals first
    | (cases h; done)
    | (cases h; exact congrArg some (packA_unpackA w _ _ hM hm))
    | (split at h <;> cases h <;> exact congrArg some (packA_unpackA w _ _ hM hm))

theorem rt1C (w : Word) (hM : majorOf w = 28) (i : Instr) (h : parse1C w = .ok i) : encode i = some w := by
  unfold parse1C at h
  split at h
  all_goals rename_i hm
  all_goals first
    | (cases h; done)
    | (cases h; exact congrArg some (packA_unpackA w _ _ hM hm))
    | (split at h <;> cases h <;> exact congrArg some (packA_unpackA w _ _ hM hm))

theorem rt1E (w : Word) (hM : majorOf w = 30) (i : Instr) (h : parse1E w = .ok i) : encode i = some w := by
  unfold parse1E at h
  split at h
  all_goals rename_i hm
  all_goals first
    | (cases h; done)
    | (cases h; exact congrArg some (packA_unpackA w _ _ hM hm))
    | (split at h <;> cases h <;> exact congrArg some (packA_unpackA w _ _ hM hm))

theorem rt3D (w : Word) (hM : majorOf w = 61) (i : Instr) (h : parse3D w = .ok i) : encode i = some w := by
  unfold parse3D at h
  split at h
  all_goals rename_i hm
  all_goals first
    | (cases h; done)
    | (cases h; exact congrArg some (packS_unpackS w _ _ hM hm))
    | (split at h <;> cases h <;> exact congrArg some (packS_unpackS w _ _ hM hm))

theorem rt10 (w : Word) (hM : majorOf w = 16) (i : Instr) (h : parse10 w = .ok i) : encode i = some w := by
  unfold parse10 at h
  split at h
  · cases h
  split at h
  all_goals rename_i hm
  all_goals first
    | (cases h; done)
    | (cases h; exact congrArg some (packM_unpackM w _ _ hM hm))
    | (split at h <;> cases h <;> exact congrArg some (packM_unpackM w _ _ hM hm))

theorem rt11 (w : Word) (hM : majorOf w = 17) (i : Instr) (h : parse11 w = .ok i) : encode i = some w := by
  unfold parse11 at h
  split at h
  · cases h
  split at h
  all_goals rename_i hm
  all_goals first
    | (cases h; done)
    | (cases h; exact congrArg some (packM_unpackM w _ _ hM hm))
    | (split at h <;> cases h <;> exact congrArg some (packM_unpackM w _ _ hM hm))

theorem rt12 (w : Word) (hM : majorOf w = 18) (i : Instr) (h : parse12 w = .ok i) : encode i = some w := by
  unfold parse12 at h
  split at h
  · cases h
  split at h
  all_goals rename_i hm
  all_goals first
    | (cases h; done)
    | (cases h; exact congrArg some (packM_unpackM w _ _ hM hm))
    | (split at h <;> cases h <;> exact congrArg some (packM_unpackM w _ _ hM hm))

theorem rt05 (w : Word) (hM : majorOf w = 5) (i : Instr) (h : parse05 w = .ok i) : encode i = some w := by
  unfold parse05 at h
  split at h
  all_goals rename_i hm
  · cases h; exact congrArg some (packA_unpackA w _ _ hM hm)
  · cases h; exact congrArg some (packS_unpackS w _ _ hM hm)
  · split at h <;> cases h; rename_i h0; exact congrArg some (bare_word w 5 2 0 hM hm h0)
  · split at h <;> cases h; rename_i h0; exact congrArg some (bare_word w 5 3 0 hM hm h0)
  · split at h <;> cases h; rename_i h0; exact congrArg some (bare_word w 5 4 0 hM hm h0)
  · split at h <;> cases h; rename_i h0; exact congrArg some (bare_word w 5 5 0 hM hm h0)
  · cases h

theorem rt06 (w : Word) (hM : majorOf w = 6) (i : Instr) (h : parse06 w = .ok i) : encode i = some w := by
  unfold parse06 at h
  split at h
  all_goals rename_i hm
  · cases h; exact congrArg some (packS_unpackS w _ _ hM hm)
  · split at h <;> cases h; rename_i h0; exact congrArg some (bare_word w 6 1 0 hM hm h0)
  · cases h; exact congrArg some (packS_unpackS w _ _ hM hm)
  · cases h; exact congrArg some (packS_unpackS w _ _ hM hm)
  · cases h; exact congrArg some (packS_unpackS w _ _ hM hm)
  · cases h; exact congrArg some (packS_unpackS w _ _ hM hm)
  · split at h
    · rename_i h0
      have hl := low_split w
      rw [h0.1, h0.2] at hl
      split at h
      · rename_i hs
        cases h
        have e : w.extractLsb' 20 8 = 0 := BitVec.eq_of_toNat_eq hs
        rw [e] at hl
        exact congrArg some (bare_word w 6 6 _ hM hm hl)
      · rename_i hs
        cases h
        have e : w.extractLsb' 20 8 = 1 := BitVec.eq_of_toNat_eq hs
        rw [e] at hl
        exact congrArg some (bare_word w 6 6 _ hM hm hl)
      · cases h
    · cases h
  · split at h <;> cases h; rename_i h0; exact congrArg some (bare_word w 6 7 0 hM hm h0)
  · cases h

end Sys2Proof
end

