-- ==== Sys2Proof/Tests/Slice0.lean ====
section
/-! SUPPORT. Tests: ill-formed terms refused, words of the spec decoded, single steps with results worked out from the spec, and
for every statement with hypotheses a state and operands that meet them. -/

set_option Elab.async false
set_option maxRecDepth 100000

namespace Sys2Proof.Tests

open Sys2Proof Sys2Proof.Machine Sys2Proof.Claims

/-! ### Instructions with every field zero -/

def zA : FmtA := ⟨0, 0, 0, 0, 0, 0, 0, 0, 0, 0, 0⟩
def zI : FmtI := ⟨0, 0, 0, 0, 0, 0⟩
def zM : FmtM := ⟨0, 0, 0, 0, 0, 0, 0, 0, 0, 0⟩
def zB : FmtB := ⟨0, 0, 0, 0, 0, 0, 0⟩
def zK : FmtK := ⟨0, 0, 0, 0, 0, 0, 0, 0⟩
def zE : FmtE := ⟨0, 0, 0, 0, 0, 0, 0⟩
def zS : FmtS := ⟨0, 0, 0, 0, 0, 0⟩

/-! ### Ill-formed terms (R73) -/

/-- Check 4: a field the instruction does not use, a MOD bit it does not read, or a reserved code (R49, R58 to R68). -/
theorem test_reserved_a : ∀ i ∈ [Instr.add { zA with c := 1 }, .clz { zA with b := 1 }, .sel { zA with mod := 1 }, .addsh { zA with mod := 8 },
    .cmp { zA with mod := 8 }, .fadd { zA with rnd := 5 }, .fma { zA with mod := 0x100 }, .fmin { zA with rnd := 1 }, .fcvt { zA with rnd := 7 },
    .split { zA with mod := 3 }, .vadd { zA with rnd := 1 }, .vabs { zA with bx := 1 }, .vmad { zA with mod := 1 }, .vbfx { zA with b := 1 },
    .vcmp { zA with mod := 8 }, .vsel { zA with ty2 := 1 }, .vbcast { zA with a := 1 }, .vextr { zA with pm := 1 }], i.reservedOk = false := by
  decide
theorem test_reserved_v : ∀ i ∈ [Instr.vfadd { zA with rnd := 6 }, .vfma { zA with ty2 := 1 }, .vround { zA with b := 1 }, .vdot2 { zA with rnd := 1 },
    .vcvt { zA with mod := 0x100 }, .vpermx { zA with bx := 1 }, .vrot { zA with bx := 1 }, .vshufx { zA with mod := 3 }, .vtrn { zA with mod := 0x20 },
    .vred { zA with mod := 6 }, .vscan { zA with mod := 15 }, .vvote { zA with mod := 4 }, .mand { zA with c := 1 }, .mnot { zA with b := 1 },
    .mset { zA with mod := 2 }, .mpopc { zA with pm := 1 }, .mtox { zA with mod := 2 }, .xtom { zA with b := 1 }, .cbld { zA with d := 1 },
    .cbst { zA with a := 1 }], i.reservedOk = false := by
  decide
theorem test_reserved_i : ∀ i ∈ [Instr.addImm { zI with res := 1 }, .cmpImm { zI with res := 1 }, .movi { zI with a := 1 }, .movhi { zI with mod := 1 }],
    i.reservedOk = false := by
  decide
theorem test_reserved_b : ∀ i ∈ [Instr.bra { zB with res1 := 1 }, .braIndirect { zB with b := 1 }, .bcc { zB with cond := 8 }, .bmk { zB with cond := 4 },
    .call { zB with a := 1 }, .callIndirect { zB with res2 := 1 }, .ret { zB with off := 1 }, .loop { zB with uns := 1 }], i.reservedOk = false := by
  decide
theorem test_reserved_s : ∀ i ∈ [Instr.arm { zS with sel := 4 }, .trap { zS with d := 1 }, .srrd { zS with a := 1 }, .srwr { zS with d := 1 },
    .snap { zS with sel := 4 }, .fenceAcq { zS with scope := 7 }, .fenceRel { zS with sel := 1, scope := 31 }, .fenceAcqrel { zS with sel := 2, imm := 1 },
    .tlaunch { zS with imm := 1 }, .notify { zS with d := 1 }, .sleepuntil { zS with b := 1 }, .qwait { zS with a := 1 },
    .qhandPacket { zS with sel := 1 }, .qhandNode { zS with sel := 2 }, .prd { zS with b := 1 }, .fansw { zS with d := 1 }], i.reservedOk = false := by
  decide
theorem test_reserved_m : ∀ i ∈ [Instr.ld { zM with space := 3 }, .st { zM with pm := 1 }, .vld { zM with b := 1 }, .vgath { zM with space := 3 },
    .pref { zM with ty := 1 }, .atomAdd { zM with hi := 7 }, .atomCas { zM with hi := 31 }, .vatomAdd { zM with space := 3 }], i.reservedOk = false := by
  decide
theorem test_reserved_k : ∀ i ∈ [Instr.kcfg { zK with d := 1 }, .karr { zK with kmode := 1 }, .ksig { zK with b := 1 }, .kwait { zK with scope := 1 },
    .ktry { zK with b := 1 }, .karrw { zK with kspace := 3 }, .krd { zK with kval := 1 }], i.reservedOk = false := by
  decide
theorem test_reserved_e : ∀ i ∈ [Instr.cpy { zE with eng := 1 }, .cpyt { zE with res := 1 }, .cpyq { zE with slot := 1 }, .mxacq { zE with stream := 1 },
    .mxrel { zE with d := 1 }, .mxpush { zE with b := 1 }, .mxqs { zE with a := 1 }], i.reservedOk = false := by
  decide
theorem test_reserved_f : ∀ i ∈ [Instr.tsld { zA with b := 1 }, .tsst { zA with d := 1 }, .tszero { zA with mod := 0x100 }, .xfmCvt { zA with mod := 0x100 },
    .xfmQuant zA, .xfmTr8 zA, .xfmTr16 { zA with pm := 1 }, .xfmTr32 zA, .xfmPack zA, .xfmUnpack zA, .sample { zA with mod := 3 },
    .sgath { zA with mod := 0x40 }, .tld { zA with c := 1 }, .tqry { zA with a := 1 }, .wtinv { zA with mod := 1 }, .wtinvAll zA, .wtpf { zA with d := 1 },
    .trace { zA with bx := 1 }, .rqnext { zA with b := 1 }, .rqcommit { zA with d := 1 }, .gemitVtx { zA with mod := 1 }, .gemitPrim zA, .gemitEnd zA,
    .femit { zA with b := 1 }], i.reservedOk = false := by
  decide

/-- Check 5: a selector that names no special register (R19). -/
theorem test_selector : (Instr.srrd { zS with sel := 18 }).selOk = false ∧ (Instr.srwr { zS with sel := 255 }).selOk = false ∧
    (Instr.srrd { zS with sel := 17 }).selOk = true := by
  decide

/-- Check 6: a type the instruction does not take, or a register field that breaks a rule of R17, R65 or R117. -/
theorem test_operand_scalar : ∀ i ∈ [Instr.add zA, .bfx { zA with ty := 4 }, .cmp { zA with ty := 4, mod := 6 }, .addImm zI, .cmpImm { zI with ty := 4, mod := 6 },
    .movi { zI with ty := 4 }, .fadd { zA with ty := 8 }, .fadd { zA with ty := 10, rnd := 4 }, .fmin { zA with ty := 9 }, .fcvt zA,
    .fcvt { zA with ty := 10, rnd := 4 }, .bcc { zB with cond := 6 }, .bmk { zB with a := 16 }, .loop zB, .split { zA with ty := 4 }], i.operandOk = false := by
  decide
theorem test_operand_vector : ∀ i ∈ [Instr.vadd { zA with ty := 8 }, .vadd { zA with ty := 6, d := 1 }, .vnot { zA with ty := 7, a := 3 }, .vdiv { zA with ty := 6 },
    .vabs { zA with ty := 1 }, .vbfx { zA with ty := 0, mod := 8 }, .vcmp { zA with ty := 4, d := 16 }, .vcmp { zA with ty := 2, mod := 0x20 },
    .vfcmp { zA with ty := 11 }, .vsel { zA with c := 16 }, .vmov { zA with ty := 11 }, .vbcast { zA with ty := 6, d := 63 }, .viota { zA with ty := 10 },
    .vextr { zA with ty := 6, a := 1 }, .vins { zA with ty := 6, d := 1 }, .vfadd { zA with ty := 12 }, .vfmin { zA with ty := 4 },
    .vdot2 { zA with ty := 10, ty2 := 10 }, .vdot4 { zA with ty := 4, ty2 := 2 }, .vcvt { zA with ty := 10, ty2 := 10 },
    .vcvt { zA with ty := 10, ty2 := 8, d := 1 }, .vrcp { zA with ty := 9 }], i.operandOk = false := by
  decide
theorem test_operand_cross : ∀ i ∈ [Instr.vperm { zA with ty := 6 }, .vtrn { zA with ty := 6 }, .vtrn { zA with ty := 4, mod := 0x0E }, .vred { zA with ty := 10, mod := 3 },
    .vvote { zA with ty := 4, d := 16 }, .mand { zA with b := 16 }, .mnot { zA with a := 16 }, .mset { zA with d := 16 }, .mpopc { zA with a := 16 },
    .cbld { zA with ty := 8 }, .tsld { zA with ty := 4 }, .xfmCvt { zA with ty := 14, ty2 := 8 }, .xfmQuant { zA with ty := 14, ty2 := 8, a := 1 },
    .xfmTr32 { zA with d := 1 }, .xfmPack { zA with ty := 1, a := 2 }, .xfmUnpack { zA with ty := 2, d := 1 }, .sample { zA with ty := 8, d := 1 },
    .sgath { zA with ty := 8, a := 1 }, .trace { zA with ty := 10, a := 4 }, .rqnext { zA with ty := 10, d := 2 }, .gemitVtx { zA with ty := 10, mod := 0x44 },
    .femit { zA with ty := 10, a := 2 }], i.operandOk = false := by
  decide
theorem test_operand_memory : ∀ i ∈ [Instr.ld { zM with ty := 14 }, .vld { zM with ty := 11 }, .vld { zM with ty := 6, d := 1 }, .vlds { zM with ty := 14 },
    .vgath { zM with ty := 4, b := 1 }, .atomAdd { zM with ty := 3 }, .atomAdd { zM with ty := 4, hi := 6 }, .atomAdd { zM with ty := 4, hi := 3, space := 1 },
    .atomXchg { zM with ty := 9 }, .atomFadd { zM with ty := 4 }, .vatomAdd { zM with ty := 6 }, .vatomXchg { zM with ty := 10, b := 1 },
    .vatomCas { zM with ty := 4, d := 1 }, .vatomFadd { zM with ty := 11 }, .kcfg zK, .karr zK, .kwait { zK with kval := 2 }, .mxacq { zE with d := 16 }],
    i.operandOk = false := by
  decide

/-- A well-formed instruction passes all three. -/
theorem test_well_formed : (Instr.vfadd { zA with d := 63, ty := 10, rnd := 3, bx := 1, pm := 15, pi := 1 }).wf = true ∧
    (Instr.vcvt { zA with ty := 8, ty2 := 10, d := 5, a := 4, mod := 0x30 }).wf = true := by
  decide

/-! ### Words written out from the encoding tables (R57 to R73, and the examples of the instructions' own sections) -/

/-- Fields of the eight formats laid down bit by bit, from the high bit down (R58 to R64). -/
theorem test_decode_integer :
    decode 0x0400C41400300000 = .ok (.add { zA with d := 3, a := 4, b := 5, ty := 6 }) ∧
    decode 0x0800C40000300080 = .ok (.addImm { zI with d := 3, a := 4, imm := 16, ty := 6 }) ∧
    decode 0x05A0C41400300002 = .ok (.cmp { zA with d := 3, a := 4, b := 5, ty := 6, mod := 2 }) := by
  refine ⟨rfl, rfl, rfl⟩
theorem test_decode_float :
    decode 0x0C30C41460500200 = .ok (.fma { zA with d := 3, a := 4, b := 5, c := 6, ty := 10, mod := 0x200 }) ∧
    decode 0x2401461C03500000 = .ok (.vfadd { zA with d := 5, a := 6, b := 7, pm := 3, ty := 10 }) := by
  refine ⟨rfl, rfl⟩
theorem test_decode_control :
    decode 0x10603E0000000000 = .ok (.ret { zB with a := 62 }) ∧ decode 0x10700C03FFFFFFEC = .ok (.loop { zB with a := 12, off := -5 }) ∧
    decode 0x10220427FFFFFFF4 = .ok (.bcc { zB with cond := 2, a := 4, b := 9, off := -3 }) ∧
    decode 0x1402822400280001 = .ok (.split { zA with d := 10, a := 2, b := 9, ty := 5, mod := 1 }) ∧
    decode 0x1410000000100000 = .ok (.arm { zS with sel := 1 }) ∧ decode 0x1420000000000000 = .ok .join ∧ decode 0x1450000000000000 = .ok .nop := by
  refine ⟨rfl, rfl, rfl, rfl, rfl, rfl, rfl⟩
theorem test_decode_system :
    decode 0x180000000000002A = .ok (.trap { zS with imm := 0x2A }) ∧ decode 0x1810000000000000 = .ok .tret ∧
    decode 0x1831400000300000 = .ok (.srrd { zS with d := 5, sel := 3 }) ∧ decode 0x1851460000100000 = .ok (.snap { zS with d := 5, a := 6, sel := 1 }) := by
  refine ⟨rfl, rfl, rfl, rfl⟩
theorem test_decode_convert :
    decode 0x24D18C000040A030 = .ok (.vcvt { zA with d := 6, a := 12, ty := 8, ty2 := 10, mod := 0x30 }) ∧
    decode 0x2C45030005500000 = .ok (.vred { zA with d := 20, a := 3, pm := 5, ty := 10 }) := by
  refine ⟨rfl, rfl⟩
theorem test_decode_memory :
    decode 0x4001460000280020 = .ok (.ld { zM with d := 5, a := 6, ty := 5, lo := 16 }) ∧
    decode 0x4062040800500000 = .ok (.vgath { zM with d := 8, a := 4, b := 2, ty := 10 }) ∧
    decode 0x4802840840200000 = .ok (.vatomAdd { zM with d := 10, a := 4, b := 2, hi := 4, ty := 4 }) ∧
    decode 0x4C00000030100000 = .ok (.fenceRel { zS with scope := 3, sel := 1 }) := by
  refine ⟨rfl, rfl, rfl, rfl⟩
theorem test_decode_knots :
    decode 0x50000000100C0003 = .ok (.kcfg { zK with scope := 1, kidx := 3, kval := 3 }) ∧
    decode 0x50514000000C0001 = .ok (.karrw { zK with d := 5, kidx := 3, kval := 1 }) ∧
    decode 0x5031C02400300001 = .ok (.kwait { zK with d := 7, b := 9, kidx := 12, kval := 1 }) := by
  refine ⟨rfl, rfl, rfl⟩
theorem test_decode_tasks :
    decode 0x5401461C00000000 = .ok (.tlaunch { zS with d := 5, a := 6, b := 7 }) ∧
    decode 0x5412052400000000 = .ok (.tfence { zS with d := 8, a := 5, b := 9 }) := by
  refine ⟨rfl, rfl⟩
theorem test_decode_units :
    decode 0x6C02080000000300 = .ok (.xfmTr16 { zA with d := 8, a := 8, mod := 0x300 }) ∧
    decode 0x7800001000500008 = .ok (.gemitVtx { zA with b := 4, ty := 10, mod := 8 }) := by
  refine ⟨rfl, rfl⟩
theorem test_decode_distaff :
    decode 0xF401400000000000 = .ok (.qwait { zS with d := 5 }) ∧ decode 0xF411800000000000 = .ok (.qtail { zS with d := 6 }) ∧
    decode 0xF421C80000100000 = .ok (.qhandNode { zS with d := 7, a := 8, sel := 1 }) ∧
    decode 0xF4324A0000000000 = .ok (.prd { zS with d := 9, a := 10 }) ∧ decode 0xF4400A2C00000000 = .ok (.pwr { zS with a := 10, b := 11 }) ∧
    decode 0xF4500C3400000000 = .ok (.fansw { zS with a := 12, b := 13 }) := by
  refine ⟨rfl, rfl, rfl, rfl, rfl, rfl⟩
theorem test_decode_engines :
    decode 0x6000090100000000 = .ok (.cpy { zE with a := 9, slot := 2 }) ∧ decode 0x6400C00000000000 = .ok (.mxacq { zE with d := 3 }) ∧
    decode 0x6420080280030000 = .ok (.mxpush { zE with a := 8, slot := 5, eng := 3 }) ∧
    decode 0x6801070000280002 = .ok (.tsld { zA with d := 4, a := 7, ty := 5, mod := 2 }) := by
  refine ⟨rfl, rfl, rfl, rfl⟩
theorem test_decode_graphics :
    decode 0x7021061400400001 = .ok (.tld { zA with d := 4, a := 6, b := 5, ty := 8, mod := 1 }) ∧
    decode 0x7401080C20500000 = .ok (.trace { zA with d := 4, a := 8, b := 3, c := 2, ty := 10 }) := by
  refine ⟨rfl, rfl⟩

/-- The causes a word can fail for (R73): a MAJOR or a MINOR unassigned, a reserved field, a selector, an operand rule. -/
theorem test_decode_refusals :
    decode 0 = .error 0 ∧ decode (0x0400C41400300000 ||| 0x3F <<< 52) = .error 1 ∧ decode 0x0400C41420300000 = .error 2 ∧
    decode 0x1831400001200000 = .error 7 ∧ decode 0x0400C41400000000 = .error 3 := by
  refine ⟨rfl, rfl, rfl, rfl, rfl⟩

/-! ### Single steps -/

/-- A warp placed before a NOP, and thread 0 of CD0 before a QWAIT (log entry 1). -/
def warp0 : State := State.reset.withFetchWord 64 0x1450000000000000
def thread0 : State := State.reset.withFetchWord 64 0xF401400000000000

/-- The issuing agent with x[r] at a value, with v[r] at one, with one more field changed. -/
def setX (s : State) (r : BitVec 6) (v : Word) : State := { s with cur := writeX s.cur r v }
def setV (s : State) (r : Fin 64) (v : VReg) : State := { s with cur := { s.cur with v := s.cur.v.set r v } }
def onCur (s : State) (g : Warp → Warp) : State := { s with cur := g s.cur }

/-- What a step's outcome satisfies. -/
def leaves (o : Host.Outcome State Fault Refusal) (p : State → Bool) : Bool :=
  match o with
  | .next t => p t
  | _ => false

/-- A NOP, a distaff thread's QWAIT and the VFADD of the encoding example each run as the first instruction after reset (R57). -/
theorem test_step_nop : leaves (step warp0) (fun t => t.cur.pc == 0x10008) = true := by decide +kernel
theorem test_step_qwait : leaves (step thread0) (fun t => t.cur.status == .qwait 5) = true := by decide +kernel
theorem test_step_vfadd : leaves (step (State.reset.withFetchWord 64 0x2401461C03500000)) (fun t => t.cur.pc == 0x10008) = true := by decide +kernel
/-- A word of zeros is ILLEGAL with sub-cause 0 and freezes the warp (R73, R365). -/
theorem test_step_illegal : leaves (step (State.reset.withFetchWord 64 0)) (fun t =>
    t.cur.status == .frozen .violation && t.cur.cause == 0x8000000000000010) = true := by decide +kernel
/-- TRAP with no trap vector freezes, with sr.tval the immediate (R109). -/
theorem test_step_trap : leaves (step (State.reset.withFetchWord 64 0x180000000000002A)) (fun t =>
    t.cur.status == .frozen .trapNoVector && t.cur.tval == 0x2A && t.cur.cause == 1) = true := by decide +kernel

/-- BFX of R96: x4 = 0xB700, x5 = 0x408 gives 7; length 5 gives 0xFFFFFFFFFFFFFFF7. -/
def bfxState (x5 : Word) : State := setX (setX warp0 4 0xB700) 5 x5
theorem test_bfx : leaves (exec (.bfx { zA with d := 3, a := 4, b := 5, ty := 6 }) (bfxState 0x408)) (fun t => readX t.cur 3 == 7) = true := by
  decide +kernel
theorem test_bfx_sign : leaves (exec (.bfx { zA with d := 3, a := 4, b := 5, ty := 6 }) (bfxState 0x508)) (fun t =>
    readX t.cur 3 == 0xFFFFFFFFFFFFFFF7) = true := by decide +kernel

/-- MIN by -1 and a divisor of 0 (R42); a sum that wraps is extended by its type (R94, R95); x0 stays 0 (R14). -/
theorem test_div_min : leaves (exec (.div { zA with d := 3, a := 4, b := 5, ty := 4 }) (setX (setX warp0 4 0x80000000) 5 0xFFFFFFFF)) (fun t =>
    readX t.cur 3 == 0xFFFFFFFF80000000) = true := by decide +kernel
theorem test_rem_zero : leaves (exec (.rem { zA with d := 3, a := 4, b := 5, ty := 7 }) (setX warp0 4 9)) (fun t => readX t.cur 3 == 9) = true := by
  decide +kernel
theorem test_add_wraps : leaves (exec (.addImm { zI with d := 3, a := 4, imm := 1, ty := 5 }) (setX warp0 4 0xFFFFFFFF)) (fun t =>
    readX t.cur 3 == 0) = true := by decide +kernel
theorem test_add_x0 : leaves (exec (.addImm { zI with d := 0, a := 4, imm := 1, ty := 7 }) warp0) (fun t => readX t.cur 0 == 0) = true := by
  decide +kernel

/-- Conversions of the table after R52 and of the example after R98. -/
theorem test_fcvt_e4m3 : leaves (exec (.fcvt { zA with d := 3, a := 4, ty := 12, ty2 := 10, mod := 0x20 }) (setX warp0 4 0x43FA0000)) (fun t =>
    readX t.cur 3 == 0x7F) = true := by decide +kernel
theorem test_convert_float :
    convertElem 9 10 .rne (policyOf 0) 0x3F808000 = .ok 0x3F80 ∧ convertElem 9 10 .rup (policyOf 0) 0x3F808000 = .ok 0x3F81 ∧
    convertElem 12 10 .rne (policyOf 0) 0x3F880000 = .ok 0x38 ∧ convertElem 12 10 .rne (policyOf 0) 0x43FA0000 = .ok 0x7E ∧
    convertElem 12 10 .rne (policyOf 0) 0x43E80000 = .ok 0x7E ∧ convertElem 8 10 .rne (policyOf 0x20) 0x477FF000 = .ok 0x7C00 ∧
    convertElem 8 10 .rtz (policyOf 0x20) 0x477FF000 = .ok 0x7BFF ∧ convertElem 13 10 .rne (policyOf 0) 0x35800000 = .ok 1 ∧
    convertElem 13 10 .rne (policyOf 0x40) 0x35800000 = .ok 0 ∧ convertElem 9 10 (.sr 0xD1E2) (policyOf 0) 0x3F804000 = .ok 0x3F81 ∧
    convertElem 9 10 (.sr 0x1234) (policyOf 0) 0x3F804000 = .ok 0x3F80 := by decide +kernel
theorem test_convert_int :
    convertElem 0 10 .rtz (policyOf 0) 0xC06CCCCD = .ok 0xFD ∧ convertElem 1 10 .rne (policyOf 0) 0xBF800000 = .ok 0 ∧
    convertElem 0 4 .rne (policyOf 0x20) 0x12C = .ok 0x2C := by decide +kernel

/-- The window of R53: the third term falls below it and the sum is +0. -/
theorem test_group_sum : groupSum 0x3F800000 [Fv.mul (valueOf 9 0x3F80) (valueOf 9 0xBF80), Fv.mul (valueOf 9 0x33C0) (valueOf 9 0x3380)] = 0 := by
  decide +kernel

/-- SPLIT, ARM and JOIN of the example after R105. -/
def splitState : State := onCur (setV warp0 2 (0x0000000100000002000000010000000000000001000000020000000000000001 : VReg)) fun w => { w with vl := 8 }
theorem test_split : leaves (exec (.split { zA with d := 10, a := 2, b := 9, ty := 5, mod := 1 }) splitState) (fun t =>
    readX t.cur 9 == 0x20402 && (t.cur.v[(10 : Fin 64)]).extractLsb' 0 72 == 0xFF0602070503000401#72 && t.cur.vl == 8) = true := by decide +kernel
theorem test_arm : leaves (exec (.split { zA with d := 10, a := 2, b := 9, ty := 5, mod := 1 }) splitState) (fun t =>
    leaves (exec (.arm { zS with sel := 1 }) t) fun u => u.cur.vl == 4 && u.cur.mapping == some [0, 3, 5, 7] &&
      leaves (exec .join u) fun v => v.cur.vl == 8 && v.cur.mapping == none) = true := by decide +kernel

/-- CALL leaves its return address in x62 (R14, R99); LOOP counts down (R99). -/
theorem test_call : leaves (exec (.call { zB with off := -1 }) warp0) (fun t => readX t.cur 62 == 0x10008 && t.cur.pc == 0xFFF8) = true := by
  decide +kernel
theorem test_loop : leaves (exec (.loop { zB with a := 12, off := -5 }) (setX warp0 12 2)) (fun t => readX t.cur 12 == 1 && t.cur.pc == 0xFFD8) = true := by
  decide +kernel

/-- A scratchpad store and load (R139, R142): the bytes come back, and BOUNDS stops the first byte beyond the 1,024 of the kernel. -/
theorem test_scratch : leaves (exec (.st { zM with space := 1, d := 3, ty := 6 }) (setX warp0 3 0x1122334455667788)) (fun t =>
    leaves (exec (.ld { zM with space := 1, d := 4, ty := 0, lo := 3 }) t) fun u => readX u.cur 4 == 0x55) = true := by decide +kernel
theorem test_scratch_bounds : leaves (exec (.ld { zM with space := 1, d := 4, ty := 0, lo := 1024 }) warp0) (fun t =>
    t.cur.status == .frozen .violation) = true := by decide +kernel
/-- A tile-store row holds what was stored to it (R194). -/
theorem test_tile : leaves (exec (.tsst { zA with b := 1, ty := 5 }) (setV warp0 1 0x7700000005)) (fun t =>
    tileCell t t.cur.team (curPly t) 0 0 == 5 && tileCell t t.cur.team (curPly t) 0 1 == 0x77) = true := by decide +kernel

/-! ### Witnesses: states and operands that meet the hypotheses of the statements, at the bounds of each clause -/

/-- A result that is there and satisfies `p`, or is an error that does. -/
def okOf {ε α : Type} (r : Except ε α) (p : α → Bool) : Bool :=
  match r with
  | .ok a => p a
  | .error _ => false
def errOf {ε α : Type} (r : Except ε α) (p : ε → Bool) : Bool :=
  match r with
  | .ok _ => false
  | .error e => p e
theorem ok_exists {σ ε α : Type} {r : σ × Except ε α} {p : α → Bool} (h : okOf r.2 p = true) : ∃ u a, r = (u, .ok a) ∧ p a = true := by
  obtain ⟨u, a | a⟩ := r
  · cases h
  · exact ⟨u, a, rfl, h⟩
theorem err_exists {σ ε α : Type} {r : σ × Except ε α} {p : ε → Bool} (h : errOf r.2 p = true) : ∃ u e, r = (u, .error e) ∧ p e = true := by
  obtain ⟨u, a | a⟩ := r
  · exact ⟨u, a, rfl, h⟩
  · cases h

theorem witness_ScalarIntegerResults :
    (ScalarIntType ({ zA with d := 63, ty := 4 } : FmtA).ty ∧ ({ zA with mod := 5 } : FmtA).mod.toNat < 6) ∧
    ScalarIntType ({ zA with ty := 7 } : FmtA).ty ∧ ScalarIntType ({ zI with ty := 5 } : FmtI).ty ∧ ({ zI with mod := 5 } : FmtI).mod.toNat < 6 := by
  unfold ScalarIntType; decide
/-- A field that ends at bit 63, one cut there, one of length 0; x0 as the destination. -/
theorem witness_BitFields : (∀ f ∈ [{ zA with d := 3, b := 5, ty := 6 }, { zA with d := 0, b := 5, ty := 7 }], f.ty = 6 ∨ f.ty = 7) ∧
    (readX (setX warp0 5 0x083F).cur 5).toNat % 64 = 63 ∧ (readX (setX warp0 5 0x0001).cur 5).toNat / 256 % 128 = 0 ∧
    (readX (setX warp0 5 0x7F01).cur 5).toNat / 256 % 128 = 127 := by decide +kernel
theorem witness_IntegerDivision : ScalarIntType ({ zA with ty := 6 } : FmtA).ty ∧
    ({ zA with d := 63, ty := 0 } : FmtA).ty.toNat < 8 ∧ tyWidth ({ zA with d := 63, ty := 0 } : FmtA).ty ≠ 64 ∧
    tyWidth ({ zA with d := 62, ty := 7 } : FmtA).ty = 64 ∧ ({ zA with d := 62, ty := 7 } : FmtA).d.toNat % 2 = 0 := by
  unfold ScalarIntType; decide
/-- No mapping, the mapping of an arm, no replay. -/
theorem witness_HardWiredRegisters : warp0.cur.mapping = none ∧ warp0.cur.replayNext = false ∧
    ∃ l, (onCur warp0 fun w => { w with mapping := some [3, 127], vl := 2 }).cur.mapping = some l := by
  refine ⟨by decide +kernel, by decide +kernel, _, rfl⟩

/-- The classes of operands: NaN, zeros, values in order; a conversion that goes through and one whose policy is fault. -/
theorem witness_ScalarFloats : (∀ f ∈ [{ zA with ty := 10, mod := 7 }, { zA with ty := 11, rnd := 3 }], f.ty = 10 ∨ f.ty = 11) ∧
    (floatX (setX warp0 4 0x7FC00000) 4 fmtF32).isNan = true ∧ (floatX (setX warp0 4 0x80000000) 4 fmtF32).isZero = true ∧
    fvBelow (floatX (setX warp0 4 0xBF800000) 4 fmtF32) (floatX warp0 4 fmtF32) = true ∧
    convertElem 12 10 .rne (policyOf 0) 0x43FA0000 = .ok 0x7E ∧ convertElem 12 10 .rne (policyOf 0xFF) 0x43FA0000 = .fault 2 ∧
    (encode (.fcvt { zA with d := 3, a := 4, ty := 12, ty2 := 10, mod := 0xFF })).isSome = true := by
  refine ⟨by decide, by decide +kernel, by decide +kernel, by norm_num [fvBelow, floatX, setX]; decide +kernel, by decide +kernel, by decide +kernel, rfl⟩
/-- 1.0 and 1.0 are equal values. -/
theorem witness_ScalarFloats_equal : EqualValues (floatX (setX warp0 4 0x3F800000) 4 fmtF32) (floatX (setX warp0 4 0x3F800000) 4 fmtF32) := by
  have h : floatX (setX warp0 4 0x3F800000) 4 fmtF32 = .fin false (2 ^ 23) (-23) := by decide +kernel
  rw [h]
  exact ⟨rfl, rfl, rfl, by norm_num [fvBelow], by norm_num [fvBelow]⟩

/-- BCC's last condition, LOOP at 1 and not; a mask whose bits are all, some or none set. -/
theorem witness_Branches : ({ zB with cond := 5 } : FmtB).cond.toNat < 6 ∧ readX (setX warp0 12 1).cur 12 = 1 ∧ readX warp0.cur 12 ≠ 1 ∧
    ({ zB with a := 15, cond := 3 } : FmtB).a.toNat < 16 ∧ ({ zB with a := 15, cond := 3 } : FmtB).cond.toNat < 4 := by decide +kernel
theorem witness_Branches_masks : let s := onCur warp0 fun w => writeM w 15 (BitVec.twoPow 128 127)
    (∃ pl < 128, belowVl s.cur pl = true ∧ (readM s.cur 15).getLsbD pl = true) ∧ (∃ pl < 128, belowVl s.cur pl = true ∧ (readM s.cur 15).getLsbD pl = false) ∧
    ¬ (∃ pl < 128, belowVl s.cur pl = true ∧ (readM s.cur 14).getLsbD pl = true) ∧
    ¬ (∃ pl < 128, belowVl s.cur pl = true ∧ (readM s.cur 0).getLsbD pl = false) := by decide +kernel

/-- A stack of seven entries, of eight, of one entry whose last arm is named and whose first arm too many is. -/
def stackOf (n : Nat) : State := onCur warp0 fun w => { w with
  split := List.replicate n { vl := 128, masks := w.m, arms := [[0], [1, 2]], active := some 1 } }
theorem witness_Divergence : (stackOf 7).cur.split.length < 8 ∧ 8 ≤ (stackOf 8).cur.split.length ∧ isThread warp0.cur.who = false ∧
    warp0.cur.split = [] ∧ (stackOf 1).cur.split.map (fun e => e.arms[1]?) = [some [1, 2]] ∧ (stackOf 1).cur.split.map (fun e => e.arms.length) = [2] ∧
    (encode (.split { zA with d := 10, a := 2, b := 9, ty := 5, mod := 2 })).isSome = true ∧ (encode (.arm { zS with sel := 2 })).isSome = true ∧
    (encode .join).isSome = true := by
  refine ⟨?_, ?_, ?_, ?_, ?_, ?_, rfl, rfl, rfl⟩ <;> decide +kernel

/-- The context of the team with a trap vector. -/
def vectored : State := { warp0 with teams := warp0.teams.map fun t => { t with ctxRec := { t.ctxRec with tvec := 0x2000 } } }
theorem witness_Traps : isThread warp0.cur.who = false ∧ (drainXfm warp0).cur.cause.setWidth 8 = 0#8 ∧ vectorOf (drainXfm warp0) = 0 ∧
    vectorOf (drainXfm vectored) ≠ 0 ∧ (drainXfm (onCur warp0 fun w => { w with cause := 0x80000000000000FF })).cur.cause.setWidth 8 ≠ 0#8 := by
  decide +kernel
theorem witness_WarpControl : isThread warp0.cur.who = false ∧ thread0.cur.who = .thread 0 0 := by decide +kernel
/-- The last WIDX of sr.warp, no split, the last words of each snapshot and the first beyond. -/
theorem witness_SpecialRegisters : (onCur warp0 fun w => { w with widx := 31 }).cur.widx < 32 ∧ warp0.cur.split = [] ∧ isThread warp0.cur.who = false ∧
    readX warp0.cur 0 = 0 ∧ 1 ≤ (readX (setX warp0 5 1).cur 5).toNat ∧ 512 ≤ (readX (setX warp0 5 512).cur 5).toNat ∧
    2048 ≤ (readX (setX warp0 5 2048).cur 5).toNat ∧ 256 ≤ (readX (setX warp0 5 256).cur 5).toNat := by decide +kernel

theorem witness_VectorIntegerResults : ∀ f ∈ [{ zA with d := 63, ty := 0 }, { zA with d := 62, ty := 7 }],
    f.ty.toNat < 8 ∧ (tyWidth f.ty = 64 → f.d.toNat % 2 = 0) := by decide
/-- An element below VL and one at VL. -/
theorem witness_VectorMovesAndPlacements : (∀ f ∈ [{ zA with d := 63, ty := 10 }, { zA with d := 62, ty := 6 }],
    f.ty ≠ 11 ∧ (tyWidth f.ty = 64 → f.d.toNat % 2 = 0)) ∧ ({ zA with ty := 5 } : FmtA).ty.toNat < 6 ∧
    numbered (onCur warp0 fun w => { w with vl := 100 }).cur 128 99 = some 99 ∧ numbered (onCur warp0 fun w => { w with vl := 100 }).cur 128 100 = none := by
  decide +kernel
/-- The lowest set bit at the last position, and none. -/
theorem witness_MasksAndCompares : ({ zA with d := 15 } : FmtA).d.toNat < 16 ∧ ({ zA with mod := 5 } : FmtA).mod.toNat % 16 < 6 ∧
    ({ zA with mod := 7 } : FmtA).mod.toNat % 16 < 8 ∧
    let s := onCur warp0 fun w => writeM w 15 (BitVec.twoPow 128 127)
    (∀ q < 127, (readM s.cur 15).getLsbD q = false) ∧ (readM s.cur 15).getLsbD 127 = true ∧ ∀ q < 128, (readM s.cur 14).getLsbD q = false := by
  decide +kernel

/-- v1 with a pattern in its first element gives that element. -/
theorem element_of_pattern : (elt (setV warp0 1 0x7FC00000).cur 1 10 0).toNat = 0x7FC00000 := by decide +kernel
/-- Values of every class: NaN, the infinities, zeros of both signs, a subnormal, a normal, a power of two, an integer, a half. -/
theorem float_classes : decodeFp fmtF32 0x7FC00000 = .nan ∧ decodeFp fmtF32 0x7F800000 = .inf false ∧ decodeFp fmtF32 0xFF800000 = .inf true ∧
    (∃ k, decodeFp fmtF32 0x80000000 = .fin true 0 k) ∧ (∃ k, decodeFp fmtF32 0 = .fin false 0 k) ∧ decodeFp fmtF32 1 = .fin false 1 (-149) ∧
    decodeFp fmtF32 0x3F800000 = .fin false (2 ^ 23) (-23) ∧ decodeFp fmtF32 0xBFC00000 = .fin true (3 * 2 ^ 22) (-23) ∧
    decodeFp fmtF32 0x43000000 = .fin false (2 ^ 23) (-16) ∧ decodeFp fmtF32 0x3F000000 = .fin false (2 ^ 23) (-24) := by
  refine ⟨rfl, rfl, rfl, ⟨_, rfl⟩, ⟨_, rfl⟩, rfl, rfl, rfl, rfl, rfl⟩
theorem witness_VectorFloatArithmetic : (∀ f ∈ [{ zA with ty := 8 }, { zA with ty := 9 }, { zA with ty := 10 }], f.ty = 8 ∨ f.ty = 9 ∨ f.ty = 10) ∧
    (decodeFp fmtF32 (elt (setV warp0 1 0x7FC00000).cur 1 10 0).toNat).isNan = true ∧ (decodeFp fmtF32 0x80000000).isZero = true ∧
    fvBelow (.fin true (3 * 2 ^ 22) (-23)) (.fin false (2 ^ 23) (-23)) = true := by
  refine ⟨by decide, by rw [element_of_pattern]; rfl, rfl, by norm_num [fvBelow, numberOf]⟩
theorem witness_VectorFloatShapes : (1 ≠ 0 ∧ |numberOf (.fin false 1 (-149))| < (2 : Rat) ^ (1 - (fmtF32.bias : Int))) ∧
    (2 : Rat) ^ (1 - (fmtF32.bias : Int)) ≤ |numberOf (.fin false (2 ^ 23) (-149))| := by
  constructor <;> norm_num [numberOf, fmtF32]
/-- VEXP2 at its overflow and at an integer, VLOG2 at a power of two, VSINPI at an integer and VCOSPI at a half. -/
theorem witness_SpecialFunctions : (∀ f ∈ [{ zA with ty := 8 }, { zA with ty := 10 }], f.ty = 8 ∨ f.ty = 10) ∧
    (fmtF32.bias + 1 : Rat) ≤ numberOf (.fin false (2 ^ 23) (-16)) ∧ numberOf (.fin false (2 ^ 23) (-23)) = ((1 : Int) : Rat) ∧ fmtF32.qmin ≤ 1 ∧
    (1 : Int) ≤ fmtF32.bias ∧ numberOf (.fin false (2 ^ 23) (-24)) = 2 ^ (-1 : Int) ∧ numberOf (.fin false (2 ^ 23) (-24)) = ((0 : Int) : Rat) + 1 / 2 := by
  refine ⟨by decide, ?_, ?_, by decide, by decide, ?_, ?_⟩ <;> norm_num [numberOf, fmtF32]
/-- VRCP where its result is a number and where it overflows, VRSQ of a number, and the operands of each bound of 2 ulp. -/
theorem witness_SpecialFunctions_numbers : (2 : ℝ) ^ (fmtF32.bias + 1) ≤ |1 / ((numberOf (.fin false 1 (-149)) : Rat) : ℝ)| ∧
    |1 / ((numberOf (.fin false (2 ^ 23) (-23)) : Rat) : ℝ)| < 2 ^ (fmtF32.bias + 1) ∧ (2 ^ 23 : Nat) ≠ 0 := by
  refine ⟨?_, ?_, by decide⟩ <;> norm_num [numberOf, fmtF32]
theorem witness_SpecialFunctionAccuracy : decodeFp fmtF32 (elt (setV warp0 1 0x3F800000).cur 1 10 0).toNat = .fin false (2 ^ 23) (-23) ∧
    ((numberOf (.fin false (2 ^ 23) (-23)) : Rat) : ℝ) < fmtF32.bias + 1 ∧ 0 < ((numberOf (.fin false (2 ^ 23) (-23)) : Rat) : ℝ) := by
  refine ⟨by decide +kernel, ?_, ?_⟩ <;> norm_num [numberOf, fmtF32]
theorem witness_DotProducts : ({ zA with ty := 10, ty2 := 9 } : FmtA).ty2 = 9 ∧ ({ zA with ty := 10, ty2 := 13 } : FmtA).ty2 = 13 ∧
    ({ zA with ty := 4, ty2 := 1 } : FmtA).ty = 4 ∧ ({ zA with ty := 4, ty2 := 1 } : FmtA).ty2 = 1 := by decide
/-- Each form of VSHUFX, the last operation of a reduction of each kind. -/
theorem witness_CrossLane : (∀ k : BitVec 11, k.toNat < 3 → ({ zA with mod := k } : FmtA).mod.toNat % 4 = k.toNat) ∧ tyWidth ({ zA with ty := 0 } : FmtA).ty ≠ 64 ∧
    ({ zA with ty := 4, mod := 5 } : FmtA).mod.toNat % 8 < 6 ∧ ({ zA with ty := 10, mod := 2 } : FmtA).mod.toNat % 8 < 3 ∧
    ({ zA with d := 15, ty := 5 } : FmtA).d.toNat < 16 := by
  refine ⟨fun k h => Nat.mod_eq_of_lt (by show k.toNat < 4; omega), ?_⟩; decide

/-- A conversion of lanes without a fault case, one of 500.0 whose policy is fault; the last destination group. -/
theorem witness_VectorConversion : ({ zA with d := 60, ty := 10, ty2 := 12 } : FmtA).d.toNat + groupSize (cvtCount 10 12) (tyWidth 10) ≤ 64 ∧
    (∀ e < cvtCount 8 10, activeElt warp0.cur { zA with d := 6, a := 12, ty := 8, ty2 := 10 } (cvtCount 8 10) e = true →
      isFaultCase (cvtResult warp0.cur { zA with d := 6, a := 12, ty := 8, ty2 := 10 } e) = false) ∧
    (encode (.vcvt { zA with d := 6, a := 1, ty := 12, ty2 := 10, mod := 0xFF })).isSome = true := by
  refine ⟨by decide +kernel, by decide +kernel, rfl⟩
theorem witness_VectorConversion_fault : let s := setV warp0 1 0x43FA0000
    let f : FmtA := { zA with d := 6, a := 1, ty := 12, ty2 := 10, mod := 0xFF }
    ∃ e < cvtCount f.ty f.ty2, activeElt s.cur f (cvtCount f.ty f.ty2) e = true ∧ isFaultCase (cvtResult s.cur f e) = true := by
  refine ⟨0, by decide +kernel, by decide +kernel, by decide +kernel⟩

/-- Every lane of a VLD inside up to the last byte, an LD that ends at it and one past it; 64-bit elements with an even register. -/
theorem witness_ScratchpadAccesses : ({ zM with space := 1 } : FmtM).space ≠ 0 ∧ warp0.softErrs = [] ∧ isThread warp0.cur.who = false ∧
    (spdTarget warp0 warp0.cur 1 1016 8).isSome = true ∧ (spdTarget warp0 warp0.cur 1 1024 1).isSome = false ∧
    (∀ e < 128, (activeMask warp0.cur 0 0).getLsbD (e * 128 / 128) = true →
      (spdTarget warp0 (setX warp0 4 512).cur 1 (contiguousAddr (setX warp0 4 512).cur { zM with space := 1, a := 4, ty := 4 } e).toNat 4).isSome = true) ∧
    tyWidth ({ zM with ty := 6, d := 62 } : FmtM).ty = 64 ∧ ({ zM with ty := 6, d := 62 } : FmtM).d.toNat % 2 = 0 ∧ tyWidth ({ zM with ty := 0 } : FmtM).ty ≠ 4 := by
  decide +kernel
theorem witness_ScratchpadAccesses_stores : ({ zM with space := 2 } : FmtM).space ≠ 0 ∧ (spdTarget warp0 warp0.cur 2 1023 1).isSome = true ∧
    (spdTarget warp0 warp0.cur 2 1024 1).isSome = false ∧ (spdTarget warp0 warp0.cur 2 (2 ^ 22) 1).isSome = false ∧
    (∀ e < 128, (activeMask warp0.cur 0 0).getLsbD (e * 128 / 128) = true →
      (spdTarget warp0 warp0.cur 1 (contiguousAddr warp0.cur { zM with space := 1, ty := 6 } e).toNat 8).isSome = true) := by decide +kernel

/-- A VLD and a VST whose lane 1 lies outside and lane 0 inside. -/
theorem witness_ScratchpadAccesses_outside : let s := setX warp0 4 1020
    (activeMask s.cur 0 0).getLsbD (1 * 128 / 128) = true ∧
    (spdTarget s s.cur 1 (contiguousAddr s.cur { zM with space := 1, a := 4, ty := 4 } 1).toNat 4).isSome = false ∧
    ∀ k < 1, (spdTarget s s.cur 1 (contiguousAddr s.cur { zM with space := 1, a := 4, ty := 4 } k).toNat 4).isSome = true := by decide +kernel
/-- Loads and stores of the pool: no active lane; the program's own page, which translates; the form of memory. -/
theorem witness_PoolAccesses : contiguousUnits (onCur warp0 fun w => writeM w 1 0).cur { zM with pm := 1, ty := 4 } = [] ∧
    scalarUnit { zM with ty := 6 } 0x10000 ≠ [] ∧ (reachAll warp0 .read true (scalarUnit { zM with ty := 6 } 0x10000)).2.2 = [] ∧
    (∀ r ∈ (reachAll warp0 .read true (scalarUnit { zM with ty := 6 } 0x10000)).2.1, ∀ p ∈ r.parts, inPool p.1.pa = true) ∧
    (reachAll warp0 .write true (scalarUnit { zM with ty := 6 } 0x10000)).2.2 = [] ∧
    (∀ r ∈ (reachAll warp0 .write true (scalarUnit { zM with ty := 6 } 0x10000)).2.1, ∀ p ∈ r.parts, inPool p.1.pa = true) ∧
    Memory.wf warp0.mem = true := by decide +kernel
/-- A gather whose lane 0 translates and whose lane 1 lies beyond the mapped 256 TiB. -/
def mixed : State := onCur (setV (setV warp0 2 0x10000) 3 (BitVec.ofNat 4096 (2 ^ 50))) fun w => writeM w 1 3
theorem witness_MemoryFaults : let us := indexedUnits mixed.cur { zM with b := 2, pm := 1, ty := 4 } 0
    let faults := (reachAll mixed .read true us).2.2
    isThread mixed.cur.who = false ∧ faults ≠ [] ∧ ((reachAll mixed .read true us).2.1.filter fun r => !laneFaults faults r.u.lane) ≠ [] ∧
    ∀ r ∈ (reachAll mixed .read true us).2.1.filter fun r => !laneFaults faults r.u.lane, ∀ q ∈ r.parts, inPool q.1.pa = true := by decide +kernel
theorem witness_MemoryFaults_store : let us := scalarUnit { zM with ty := 4 } (2 ^ 48)
    (reachAll warp0 .write true us).2.2 ≠ [] ∧ ((reachAll warp0 .write true us).2.1.filter fun r => !laneFaults (reachAll warp0 .write true us).2.2 r.u.lane) = [] := by
  decide +kernel

/-- A scalar atomic beyond the mapped memory; a vector atomic whose lane 0 is reached and lane 1 is not. -/
theorem witness_MemoryFaults_atomics : (reachAll (setX warp0 4 (2 ^ 48)) .atomic (ioAtomicOk .add)
      (scalarUnit { zM with ty := 4 } (atomicAddressOf (setX warp0 4 (2 ^ 48)).cur { zM with a := 4, ty := 4 }))).2.2 ≠ [] ∧
    (let r := reachAll mixed .atomic (ioAtomicOk .add) (indexedUnits mixed.cur { zM with b := 2, pm := 1, ty := 5 } 0)
     r.2.2 ≠ [] ∧ ((r.2.1.filter fun q => !laneFaults r.2.2 q.u.lane).all fun q => q.parts == [(⟨0x10000, .pma⟩, 4)]) = true ∧
     (r.2.1.filter fun q => !laneFaults r.2.2 q.u.lane).length = 1) ∧ mixed.softErrs = [] ∧ isThread mixed.cur.who = false := by decide +kernel
theorem witness_ScalarAtomics : (AtomOp.add, Instr.atomAdd) ∈ scalarAtomics ∧ AtomicType .add ({ zM with ty := 4 } : FmtM).ty ∧
    (reachUnit warp0 .atomic (ioAtomicOk .add) ⟨0, 0, 0x10000, 4⟩).2 = ([(⟨0x10000, .pma⟩, 4)], []) ∧ inPool 0x10000 = true ∧ warp0.softErrs = [] ∧
    (spdTarget warp0 warp0.cur 1 1020 4).isSome = true ∧ (spdTarget warp0 warp0.cur 1 1024 4).isSome = false ∧ isThread warp0.cur.who = false := by
  refine ⟨by simp [scalarAtomics], by simp [AtomicType, ScalarIntType], ?_⟩; decide +kernel
theorem witness_VectorAtomics : (AtomOp.add, Instr.vatomAdd) ∈ vectorAtomics ∧ AtomicType .add ({ zM with ty := 5 } : FmtM).ty ∧
    let us := indexedUnits (setX warp0 4 0x10000).cur { zM with a := 4, ty := 5 } 0
    (reachAll warp0 .atomic (ioAtomicOk .add) us).2.2 = [] ∧
    ((reachAll warp0 .atomic (ioAtomicOk .add) us).2.1.all fun r => r.parts == [(⟨0x10000, .pma⟩, 4)]) = true := by
  refine ⟨by simp [vectorAtomics], by simp [AtomicType, ScalarIntType], ?_⟩; decide +kernel
theorem witness_VectorAtomics_local : warp0.softErrs = [] ∧
    ∀ u ∈ indexedUnits (setX warp0 4 1020).cur { zM with space := 1, a := 4, ty := 5 } 0, (spdTarget warp0 warp0.cur 1 u.va.toNat 4).isSome = true := by
  decide +kernel
theorem witness_FencesAndNotify : 4 ≤ ({ zS with scope := 4 } : FmtS).scope.toNat ∧ ¬ 4 ≤ ({ zS with scope := 3 } : FmtS).scope.toNat ∧
    (reachUnit (releaseAt warp0 5) .write true ⟨0, 0, 0x10000, 8⟩).2 = ([(⟨0x10000, .pma⟩, 8)], []) ∧ inPool 0x10000 = true := by decide +kernel

/-- The last knot of a team and the first beyond; the last index of each space and the first beyond; a far knot allocated and one not. -/
def farKnot : State := warp0.onDie 0 fun x => { x with fkown := [(5, 0x8000)] }
theorem witness_Knots : knotTarget warp0 { zK with kidx := 7 } = .ok (.team 1 7) ∧ knotTarget warp0 { zK with kidx := 8 } = .error (.bounds 8) ∧
    knotTarget (setX warp0 4 1) { zK with a := 4, kidx := 1023 } = .error .illegal ∧
    knotTarget warp0 { zK with kspace := 1, kidx := 7 } = .ok (.team 1 7) ∧ knotTarget (setX warp0 4 0x10000) { zK with a := 4, kspace := 1 } = .error .illegal ∧
    knotTarget farKnot { zK with kspace := 2, kidx := 5 } = .ok (.far 5) ∧ knotTarget warp0 { zK with kspace := 2, kidx := 5 } = .error (.bounds 5) ∧
    knotTarget (setX warp0 4 4095) { zK with a := 4, kspace := 2, kidx := 1 } = .error .illegal ∧ warp0.curTeam.isSome = true ∧ isThread warp0.cur.who = false := by
  decide +kernel
/-- A wait met and one not; no deadline, one passed, one to come; a KARRW that has arrived and one that has not. -/
def at5 : State := { warp0 with stage := { warp0.stage with nsec := 5 } }
theorem witness_Knots_waits : (∀ a, warp0.cur.karrw = some a → a.addr ≠ warp0.cur.pc) ∧ ¬ deadlinePassed warp0 0 ∧ deadlinePassed at5 5 ∧ ¬ deadlinePassed at5 6 ∧
    warp0.softErrs = [] ∧ warp0.knotQ = [] ∧ waitHolds (.phase false) (Knot.fresh 1) ≠ waitHolds (.phase true) (Knot.fresh 1) ∧ promisesAt at5.cur 5 = [] ∧
    (onCur warp0 fun w => { w with karrw := some ⟨w.pc, 7, some 3⟩ }).cur.karrw = some ⟨warp0.cur.pc, 7, some 3⟩ := by
  refine ⟨?_, ?_⟩
  · intro a h; have := (by decide +kernel : warp0.cur.karrw = none); rw [this] at h; cases h
  · unfold deadlinePassed; decide +kernel

/-- A node for the team of the placed warp, and a partition that keeps four slots aside. -/
def node0 : Node :=
  { id := 0, q := ⟨0, 0⟩, origin := .launch 0 0, join := false, cls := 1, deadline := 0, args := 0, fence := 0, fval := 0, ctx := 0, part := 0, preds := 0,
    succ := [], variants := [⟨benchKernel, 1, 0, 0⟩], chosen := some 0, tile := none, pref := none, start := 0, st := .running, readyAt := 0, placed := 1,
    ended := 0, killed := false, near := none, rsb := none, tts := 0, fragTeams := [], init := none, passed := none, seq := 0, aborted := false, doneAt := none }
def part0 : PartRec :=
  { cores := #v[0xFFFFFF, 0], shways := #v[0, 0], resv := 4, margin := 0, scways := #v[0, 0], qos := 0 }
/-- A task descriptor at 0x20000 and its kernel's at 0x20040, of one warp and one team. -/
def launcher (resv : Nat) (kernel : Nat) : State :=
  let s := warp0.onDie 0 fun x => { x with nodes := [node0], parts := [(0, { part0 with resv := resv })] }
  setX { s with mem := (s.mem.write 0x20000 (toBytes (0x20040 + 2 ^ 64) 64)).write 0x20040 (toBytes kernel 64) } 6 0x20000
def taskKernel : Nat := 2 ^ 232 + 2 ^ 240 + 2 ^ 243 + 2 ^ 256
/-- The two reads of a TLAUNCH and what they find. -/
def descriptors (s : State) (p : State → KDesc → Team → Node → Bool) : Bool :=
  let r1 := readDwords s (warpSpace s s.cur) (curParty s false) (readX s.cur 6) 8
  okOf r1.2 fun a => !(taskDescBad (ofBytes a.1)) &&
    let s1 := { r1.1 with cur := { r1.1.cur with rmax := max r1.1.cur.rmax a.2 } }
    let r2 := readDwords s1 (warpSpace s1 s1.cur) (curParty s1 false) (BitVec.ofNat 64 (bits (ofBytes a.1) 63 0)) 8
    okOf r2.2 fun b =>
      let s2 := { r2.1 with cur := { r2.1.cur with rmax := max r2.1.cur.rmax b.2 } }
      s2.cur.who == .warp 0 0 0 0 && ((s2.findTeam s2.cur.team).bind fun t => ((s2.die 0).findNode t.node).map fun ln => p s2 (parseKDesc b.1) t ln).getD false
theorem witness_Tasks : readX (setX warp0 6 0x20008).cur 6 = 0x20008 ∧ 0x20008 % 64 ≠ 0 ∧
    (okOf (readDwords warp0 (warpSpace warp0 warp0.cur) (curParty warp0 false) 0x20000 8).2 fun a => taskDescBad (ofBytes a.1)) = true ∧
    descriptors (launcher 4 (taskKernel - 2 ^ 256)) (fun _ k t _ => taskKernelBad k t.ctxRec 0) = true := by decide +kernel
theorem witness_Tasks_entered :
    descriptors (launcher 0 taskKernel) (fun s k t ln => !(taskKernelBad k t.ctxRec 0) && taskRefusal s 0 0 ln.part ln.ctx k t.ctxRec == some 1) = true ∧
    descriptors (launcher 4 taskKernel) (fun s k t ln => !(taskKernelBad k t.ctxRec 0) && taskRefusal s 0 0 ln.part ln.ctx k t.ctxRec == none) = true := by
  decide +kernel
/-- A task that has ended, one that has not, one that is none; a sleep that is over and one that is not. -/
def task0 (ended : Option Bool) : Task := { slot := 3, gen := 1, team := 1, node := 0, core := 0, slots := 0, regions := [], outcome := ended, tts := 0 }
def waiter (ended : Option Bool) : State := setX ({ warp0.onDie 0 (fun x => { x with tasks := [task0 ended] }) with stage := at5.stage }) 6 (taskHandle (task0 none))
theorem witness_Tasks_waits : taskOf warp0 0 = none ∧ (taskOf (waiter (some true)) (readX (waiter (some true)).cur 6)).map (·.outcome) = some (some true) ∧
    (taskOf (waiter none) (readX (waiter none).cur 6)).map (·.outcome) = some none ∧ ¬ deadlinePassed (waiter none) 6 ∧ deadlinePassed (waiter none) 5 ∧
    promisesAt (waiter none).cur 5 = [] ∧ (5 : Word).toNat ≤ (at5.stage.sec * 1000000000 + at5.stage.nsec) % 2 ^ 64 ∧
    (at5.stage.sec * 1000000000 + at5.stage.nsec) % 2 ^ 64 < (6 : Word).toNat := by
  unfold deadlinePassed; decide +kernel

/-- The last row of the tile store and the first beyond; a range of rows inside, and one that runs out. -/
theorem witness_TileStore : (∃ tm, warp0.curTeam = some tm ∧ tm.kernel.cells ≤ 256 ∧ (255 : Word).toNat < tm.kernel.cells ∧ tm.kernel.cells ≤ (256 : Word).toNat ∧
      (∀ k ≤ 255, (0 + BitVec.ofNat 64 k : Word).toNat < tm.kernel.cells) ∧ tm.kernel.cells ≤ (255 + BitVec.ofNat 64 1 : Word).toNat) ∧
    warp0.softErrs = [] ∧ isThread warp0.cur.who = false := by
  refine ⟨⟨benchTeam 1, by decide +kernel, ?_⟩, by decide +kernel, by decide +kernel⟩; decide +kernel

/-- Records: a copy of one word to the last word of the scratchpad, a matrix step and a stage copy of one flit, none of which waits. -/
def copyRec : Nat := 1 + 3 * 2 ^ 42 + 1020 * 2 ^ 192 + 2 ^ 256 + 2 ^ 272 + 2 ^ 288 + 2 ^ 304 + 5 * 2 ^ 480 + 5 * 2 ^ 484
def mxRec : Nat := 3 + 3 * 2 ^ 42 + 2 ^ 278 + 2 * 2 ^ 372
def stageRec : Nat := 2 + 3 * 2 ^ 42 + 16 * 2 ^ 256
/-- A command of the placed warp's core. -/
def cmd0 (kind : CmdKind) (entry record : Nat) (st : CmdState) : Cmd :=
  { id := 500 + entry, kind, d := 0, core := 0, entry, team := 1, widx := 0, ctx := 0, record := record, st, next := 0, token := 0, err := 0, time := 0,
    maxTs := 0, promise := 0, copyNo := 0, sent := [], since := 0, ready := true, failErr := 0, answered := none, lastSector := none }
/-- The record in slot 0 of v1, and a field A that names it. -/
def pushing (record : Nat) : State := setV warp0 1 (BitVec.ofNat 4096 record)
def pushF : FmtE := { zE with a := 1 }
theorem witness_EngineCommands_copy : (pushing copyRec).cur.who = .warp 0 0 0 0 ∧ slotRecord (pushing copyRec).cur pushF = BitVec.ofNat 512 copyRec ∧
    freeEntry { warp0 with cmds := (List.range 32).map fun k => cmd0 .copy k copyRec .waiting } (isCopyOf 0 0) 32 = none ∧
    freeEntry { warp0 with cmds := (List.range 31).map fun k => cmd0 .copy k copyRec .waiting } (isCopyOf 0 0) 32 = some 31 ∧
    headerSub 1 1 0 = some 2 ∧ headerSub 1 1 (BitVec.ofNat 512 mxRec) = some 3 ∧ headerSub 1 1 (BitVec.ofNat 512 copyRec) = none ∧
    copyBodySub (BitVec.ofNat 512 (copyRec + 2 ^ 511)) = some 2 ∧ copyBodySub (BitVec.ofNat 512 (copyRec + 2 ^ 498)) = some 3 ∧
    copyBodySub (BitVec.ofNat 512 copyRec) = none ∧ copyOutside (BitVec.ofNat 512 copyRec) (curScratch warp0) = none ∧
    recordKnotBad warp0 warp0.cur.team warp0.cur.ctx (BitVec.ofNat 512 copyRec) = none := by decide +kernel
def holdsEngine (k : Nat) : State := { warp0.onCore 0 0 (fun x => { x with engines := [(0, (1, false))] }) with
  cmds := (List.range k).map fun k => cmd0 (.matrix 0) k mxRec .waiting }
theorem witness_EngineCommands_matrix : (∃ tm, (holdsEngine 0).curTeam = some tm ∧ mxOutside (BitVec.ofNat 512 mxRec) 1024 (128 * tm.kernel.cells) = none) ∧
    tblGet ((holdsEngine 0).coreAt 0 0).engines 0 = some (1, false) ∧ freeEntry (holdsEngine 16) (isMatrixOf 0 0 0) 16 = none ∧
    freeEntry (holdsEngine 15) (isMatrixOf 0 0 0) 16 = some 15 ∧ headerSub 3 1 (BitVec.ofNat 512 mxRec) = none ∧ mxBodySub (BitVec.ofNat 512 mxRec) = none ∧
    mxAmask (BitVec.ofNat 512 mxRec) &&& mxBmask (BitVec.ofNat 512 mxRec) = 0 ∧
    recordKnotBad (holdsEngine 0) 1 0 (BitVec.ofNat 512 mxRec) = none := by
  refine ⟨⟨benchTeam 1, ?_, ?_⟩, ?_⟩ <;> decide +kernel
/-- A reel that runs under a table which grants stream 0 to context 0 on link 0. -/
def granted : State := { warp0 with reel := { warp0.reel with st := .run, table := some (Memory.write [] 64 (toBytes (2 ^ 13 + 2 ^ 14) 8)) } }
theorem witness_EngineCommands_stage : headerSub 2 1 (BitVec.ofNat 512 stageRec) = none ∧ stageBodySub (BitVec.ofNat 512 stageRec) = none ∧
    warp0.reel.table = none ∧ granted.reel.table.isSome = true ∧ granted.reel.st = .run ∧ streamGranted granted 0 0 = true ∧ streamGranted granted 1 0 = false ∧
    granted.cur.promises.length < 8 ∧ 8 ≤ (onCur granted fun w => { w with promises := List.replicate 8 (0, 0, 0) }).cur.promises.length ∧
    stageOutside (BitVec.ofNat 512 stageRec) (curScratch granted) = none ∧ recordKnotBad granted 1 0 (BitVec.ofNat 512 stageRec) = none := by decide +kernel
/-- A team whose plies' engines are free, and one of whose engines another team holds. -/
theorem witness_EngineState : warp0.cur.who = .warp 0 0 0 0 ∧ warp0.curTeam = some (benchTeam 1) ∧
    (∀ q ∈ distinct (teamPlies (benchTeam 1).base (benchTeam 1).kernel.warps), tblGet (warp0.coreAt 0 0).engines q = none) ∧
    0 ∈ distinct (teamPlies (benchTeam 1).base (benchTeam 1).kernel.warps) ∧
    tblGet ((warp0.onCore 0 0 fun x => { x with engines := [(0, (9, false))] }).coreAt 0 0).engines 0 = some (9, false) ∧
    (mxQueue { warp0 with cmds := [cmd0 (.matrix 0) 0 mxRec .running] } 0 0 0).any (·.st == .running) = true ∧ mxQueue warp0 0 0 0 = [] := by decide +kernel

/-- The last even and the last aligned destination; policies with and without fault; a pipe with an entry. -/
def piped : State := warp0.onCore 0 0 fun x => { x with pipe0 := [{ word := 0, owner := warpId warp0.cur, active := 0, writes := [] }], pipe1 := [{ word := 0, owner := warpId warp0.cur, active := 0, writes := [] }] }
theorem witness_TransformPipe : warp0.cur.who = .warp 0 0 0 0 ∧ ({ zA with d := 62 } : FmtA).d.toNat % 2 = 0 ∧ tyWidth ({ zA with ty := 3 } : FmtA).ty ≤ 16 ∧
    ({ zA with d := 60, ty := 1 } : FmtA).d.toNat % (32 / tyWidth 1) = 0 ∧ (1 : BitVec 4).toNat < 4 ∧
    hasFaultPolicy { zA with ty := 12, ty2 := 10 } = false ∧ hasFaultPolicy { zA with ty := 12, ty2 := 10, mod := 0xFF } = true ∧
    ({ zA with d := 63, ty := 12, ty2 := 10 } : FmtA).d.toNat + groupSize (cvtCount 12 10) (tyWidth 12) ≤ 64 ∧
    (piped.coreAt 0 0).pipe0.length = 1 ∧ (piped.coreAt 0 0).pipe1.length = 1 := by decide +kernel

/-- A texture descriptor at 0x20000 and a sampler descriptor at 0x20020; lane 0 alone is active. -/
def textured (tex samp : Nat) : State :=
  onCur (setX (setX { warp0 with mem := (warp0.mem.write 0x20000 (toBytes tex 32)).write 0x20020 (toBytes samp 16) } 5 0x20000) 6 0x20020) fun w => writeM w 1 1
def goodTex : Nat := 0x30000 + 16 * 2 ^ 64 + 16 * 2 ^ 80 + 2 * 2 ^ 96 + 2 ^ 104 + 64 * 2 ^ 128
def texF : FmtA := { zA with d := 8, a := 10, b := 5, c := 6, pm := 1, ty := 8 }
/-- The descriptor a texture instruction reads, and the state after it. -/
def afterTex (s : State) (p : State → Nat → Bool) : Bool :=
  let r := readDescriptor s (readX s.cur 5) 32
  okOf r.2 fun a => p { r.1 with cur := { r.1.cur with rmax := max r.1.cur.rmax a.2 } } a.1
theorem witness_Textures : (textured 0 0).cur.who = .warp 0 0 0 0 ∧ afterTex (textured 0 0) (fun _ n => texBad n) = true ∧
    afterTex (textured goodTex 0) (fun v n => !(texBad n) &&
      let t := parseTex n
      let got := gotAlso (textured goodTex 0) 0 (gotNone (textured goodTex 0)) (descAsked (textured goodTex 0) (readX (textured goodTex 0).cur 5) 32)
      let work := lanesOf v got (loadLane (fetchOf v false false) t 0 (fun _ => 0) fun _ => 0) 1
      work.faults.isEmpty && work.bad.isNone) = true := by decide +kernel
theorem witness_Textures_sampler : afterTex (textured goodTex 4) (fun v _ => okOf (readDescriptor v (readX v.cur 6) 16).2 fun b => sampBad b.1) = true ∧
    afterTex (textured goodTex 0xF00) (fun v n => okOf (readDescriptor v (readX v.cur 6) 16).2 fun b => !(sampBad b.1) &&
      let arg := fun k q => (laneOf (vAt v.cur (10 + k)) q).toNat
      let g := lanesOf v (gotNone v) (gatherLane (fetchOf v false false) (parseTex n) (parseSamp b.1) 0 0 (arg 0) (arg 1)) 1
      let h := lanesOf v (gotNone v) (sampleLane (fetchOf v false false) (parseTex n) (parseSamp b.1) 0 (arg 0) (arg 1) (arg 2)) 1
      g.faults.isEmpty && g.bad.isNone && h.faults.isEmpty && h.bad.isNone) = true := by decide +kernel

/-- An entry of a core's TLB that maps the first 256 TiB to themselves, NC; a texture of one texel. -/
def texLeaf : TlbEntry := ⟨0, 4, 0, 0x20000000000000DF⟩
def oneTex : TexDesc := { base := 0x30000, width := 1, height := 1, fmt := 2, levels := 1, pitch := 64, slot := 0 }
def heldLeaf (m : Memory) (s : State) (_ : SampGot) : Prop := (s.coreAt 0 0).tlb = [texLeaf] ∧ s.mem = m
/-- While it is there a texel of that texture is read at its home. -/
theorem leaf_reads (s : State) (m : Memory) (g : SampGot) (ppn : Nat) (h : heldLeaf m s g) :
    translateOn s 0 (some 0) 0 ppn 0x30000 .read = (s, .ok ⟨0x30000, .nc⟩) := by
  unfold translateOn
  have hf : tlbCovers [texLeaf] 0 ((0x30000 : Word).toNat % 2 ^ 57) = some texLeaf := by decide +kernel
  have hr : leafReason texLeaf.level texLeaf.pte.toNat ((0x30000 : Word).toNat % 2 ^ 57) .read = none ∧
      ((0x30000 : Word).toNat / 2 ^ 56 = 0 ∨ (0x30000 : Word).toNat / 2 ^ 56 = 255) := by decide +kernel
  have hp : (⟨leafPa texLeaf.level texLeaf.pte.toNat ((0x30000 : Word).toNat % 2 ^ 57), leafKind texLeaf.pte.toNat
      (leafPa texLeaf.level texLeaf.pte.toNat ((0x30000 : Word).toNat % 2 ^ 57))⟩ : Phys) = ⟨0x30000, .nc⟩ := by decide +kernel
  simp only [h.1, hf, if_pos hr, hp]
theorem leaf_fetches (m : Memory) (k : Fetch) (hd : k.sp.d = 0) (hc : k.core = 0) (hx : k.sp.ctx = 0) (hq : k.quiet = false) :
    Fetches (heldLeaf m) k oneTex fun _ _ _ => texelChannels 2 (bits (lineBytes m 0x600).toNat 31 0) := by
  intro a l x y hl hx' hy ha hP
  have hl : l = 0 := by change l < 1 at hl; omega
  subst hl
  have hx0 : x = 0 := by change x < 1 at hx'; omega
  have hy0 : y = 0 := by change y < 1 at hy; omega
  subst hx0 hy0
  unfold texelAt
  rw [ha]
  unfold sampLine
  rw [hd, hc, hx]
  have ht := leaf_reads a.s m a.got k.sp.ppn hP
  have hb : (BitVec.ofNat 64 ((levelBase oneTex 0 + 0 * levelPitch oneTex 0 + 0 * (texelBytes oneTex.fmt).getD 1) / 128 * 128)) = 0x30000#64 := by decide
  simp only [Bool.not_true, Bool.false_eq_true, if_false, show oneTex.fmt ≠ 16 by decide, hb]
  erw [ht]
  simp only [hq, sampFetch, show inPool 0x30000 = true by decide, if_neg (show ¬ (!true) = true by decide), if_neg (show ¬ PageKind.nc = PageKind.pma by decide), if_neg (show ¬ false = true by decide)]
  refine ⟨ha, ⟨?_, hP.2⟩, ?_⟩
  · refine Eq.trans ?_ hP.1
    rw [show lineHome (196608 / 128) = 0 from by decide]
    simp [State.coreAt, State.die, State.onDie, dramUp, workUp, countUp]
  · show _ = texelChannels 2 (bits (lineBytes m 0x600).toNat 31 0)
    rw [← hP.2]; rfl
def leafed : State := (textured (0x30000 + 2 ^ 64 + 2 ^ 80 + 2 * 2 ^ 96 + 2 ^ 104 + 64 * 2 ^ 128) 0xF00).onCore 0 0 fun x => { x with tlb := [texLeaf] }
theorem witness_Textures_texels : afterTex leafed (fun v n => okOf (readDescriptor v (readX v.cur 6) 16).2 fun b => !(texBad n) && !(sampBad b.1) &&
      parseTex n == oneTex && (v.coreAt 0 0).tlb == [texLeaf] && v.mem == leafed.mem &&
      (let u := (readDescriptor v (readX v.cur 6) 16).1
       (u.coreAt 0 0).tlb == [texLeaf] && u.mem == leafed.mem && (fetchOf u false false).sp.d == 0 && (fetchOf u false false).core == 0 && (fetchOf u false false).sp.ctx == 0)) = true := by
  decide +kernel

/-- A query with a NaN operand, over at once, and lanes without a query. -/
def traced : State := onCur (setV warp0 8 0x7FC00000) fun w => writeM w 1 1
def rayF : FmtA := { zA with d := 60, a := 8, b := 5, c := 2, pm := 1, ty := 10 }
theorem witness_RayQueries : traced.cur.who = .warp 0 0 0 0 ∧ rayF.d.toNat ≤ 60 ∧ activeLanes traced.cur rayF = [0] ∧
    (let r := walkLanes (warpSpace traced traced.cur) (curParty traced false) (fun l => some (startQuery traced.cur rayF l)) [0] ⟨traced, [], [], 0, [], false⟩
     r.endless = false ∧ r.faults = []) ∧
    let r := walkLanes (warpSpace traced traced.cur) (curParty traced false) (fun _ => none) [0] ⟨traced, [], [], 0, [], false⟩
    r.endless = false ∧ r.faults = [] ∧ traced.softErrs = [] := by decide +kernel

/-- A raster state with target 0 enabled at a 16 x 16 surface, no depth; a node that carries it; its fragment node and fragment. -/
def tex0 : TexDesc := { base := 0x30000, width := 16, height := 16, fmt := 2, levels := 1, pitch := 64, slot := 0 }
def raster0 : RasterState := { raw := BitVec.twoPow 1024 448, targets := some tex0 :: List.replicate 7 none, depth := none, kernel := benchKernel }
def fragment0 (test : DepthTest) (ops : List (Nat × Nat × Vector (BitVec 32) 4)) (depth : Option (BitVec 32 × Option Nat)) : Fragment :=
  { node := 7, rs := raster0, owner := 0, lane := 0, px := 3, py := 2, zf := 0x3F000000, depth, ops, test, complete := false }
def geometry : State := onCur (warp0.onDie 0 fun x => { x with nodes := [{ node0 with rsb := some raster0 }] }) fun w => writeM w 1 1
def fragments : State :=
  onCur ({ warp0.onDie 0 (fun x => { x with nodes := [{ node0 with origin := .fragment 7 }, { node0 with id := 7, rsb := some raster0 }], frags := [fragment0 .untested [] none] }) with
    teams := [{ benchTeam 1 with fragment := true }] }) fun w => writeM w 1 1
def blankVertex : Vertex := ⟨0, 0, 0, 0, []⟩
/-- Batches at 255, 256 and 511 and 512, which one more lane fills or passes; a triangle's word with and without bits 31:30. -/
theorem witness_RasterInstructions : geometry.cur.who = .warp 0 0 0 0 ∧ geometryState warp0 = none ∧ geometryState geometry = some raster0 ∧
    (((List.range 128).filterMap fun q => (physOf geometry.cur q).bind fun l => if (activeMask geometry.cur 1 0).getLsbD l then some l else none) = [0]) ∧
    (List.replicate 255 blankVertex).length + 1 ≤ 256 ∧ 256 < (List.replicate 256 blankVertex).length + 1 ∧
    (laneOf (vAt (setV geometry 2 0x3FFFFFFF).cur 2) 0).toNat < 2 ^ 30 ∧ 2 ^ 30 ≤ (laneOf (vAt (setV geometry 2 0x40000000).cur 2) 0).toNat ∧
    (onCur geometry fun w => { w with batch := some ⟨[], []⟩ }).cur.batch = some ⟨[], []⟩ ∧ geometry.curTeam = some (benchTeam 1) ∧ geometry.cur.batch = none := by
  decide +kernel
theorem witness_RasterInstructions_femit : fragmentState warp0 = none ∧ fragmentState fragments = some ({ benchTeam 1 with fragment := true }, raster0) ∧
    raster0.raw.getLsbD (448 + 1) = false ∧ raster0.raw.getLsbD (448 + 0) = true ∧
    (femitLanes { zA with pm := 1, ty := 10 } { benchTeam 1 with fragment := true } raster0 (activeLanes fragments.cur { zA with pm := 1 }) fragments ⟨[], []⟩).2 = ⟨[], []⟩ ∧
    raster0.targets.getD 0 none ≠ none ∧ (fragments.die 0).frags.Pairwise (fun g g' => ¬(g.owner = g'.owner ∧ g.lane = g'.lane)) := by decide +kernel

/-- A thread with events and without; a port's last address and a HIRQ queue with room for one more and full; a queue with a packet and without. -/
def hirqFull (n : Nat) : State := { thread0 with host := { thread0.host with hirq0 := List.replicate n 0 } }
def queue0 (x : Queue) : State := thread0.onDie 0 fun d => { d with queues := d.queues.set 0 x }
def reading0 (pub : BitVec 32) : Queue := { Queue.reset with en := true, st := .idle, pub }
theorem witness_DistaffInstructions : warp0.cur.who = .warp 0 0 0 0 ∧ thread0.cur.who = .thread 0 0 ∧ thread0.cur.events = 0 ∧
    (onCur thread0 fun w => { w with events := 15 }).cur.events ≠ 0 ∧ portAssigned 0x1208 = true ∧ portAssigned 0x5FF8 = true ∧
    (hirqOf (hirqFull 63) 0).length < 64 ∧ 64 ≤ (hirqOf (hirqFull 64) 0).length ∧ readX thread0.cur 1 = 0 ∧ readX (setX thread0 1 1).cur 1 = 1 ∧
    queueReads ((queue0 (reading0 1)).queue ⟨0, 0⟩) = true ∧ queueReads ((queue0 (reading0 0)).queue ⟨0, 0⟩) = false ∧
    judgeSlot 0 (1 + 2 ^ 8) = .taken ∧ judgeSlot 0 0 = .unwritten := by decide +kernel
/-- A graph launch of one node, which a QHAND names; and none. -/
theorem witness_DistaffInstructions_node : graphLaunch { thread0 with launches := [⟨5, ⟨0, 0⟩, 0, true, 0, 0, [4], false⟩] } ⟨0, 0⟩ 0 =
    some ⟨5, ⟨0, 0⟩, 0, true, 0, 0, [4], false⟩ ∧ graphLaunch thread0 ⟨0, 0⟩ 0 = none := by decide +kernel

/-- A warp owed data, one that may rove, one that roves and has run its 1,024 instructions, one that is restored. -/
def owed0 : Pending :=
  { xw := [(3, 5)], vw := [(2, 1, 1)], mw := [], sectors := [(0x800, 0), (0x801, 1)], replay := false, pc := 0, fills := [], weak := false, samp := .empty
    missed := true }
def roving0 (phase : RovePhase) (count : Nat) : Roving :=
  { phase, needs := [.x 3], minv := [], entered := 0, x := warp0.cur.x, m := warp0.cur.m, cb := warp0.cur.cb, vl := 128, split := [], mapping := none
    pc := 0x10000, inv := [], shadow := [], stores := [], overflow := false, clean := [], count }
theorem witness_WarpEvents_data : warp0.cur.status ≠ .exited ∧ (onCur warp0 fun w => { w with pend := [owed0] }).cur.pend[0]? = some owed0 ∧ owed0.replay = false ∧
    (∀ q ∈ owed0.sectors, ErrSite.sector q.1 ∉ warp0.softErrs) ∧ 0x800 ∈ owed0.sectors.map Prod.fst ∧ (owedList owed0)[0]? = some (.x 3) ∧ (0x800, 0) ∈ owed0.sectors ∧
    (let w' := (onCur warp0 fun w => { w with rove := some (roving0 .rove 0) }).cur
     (roving0 .rove 0).phase ≠ .restore ∧ ∀ q ∈ (roving0 .rove 0).needs, q ∉ owedRegs w') ∧
    (let w' := (onCur warp0 fun w => { w with pend := [owed0], rove := some (roving0 .rove 0) }).cur
     ¬ ∀ q ∈ (roving0 .rove 0).needs, q ∉ owedRegs w') ∧
    warp0.softErrs = [] ∧ isThread warp0.cur.who = false ∧ ({ owed0 with replay := true } : Pending).replay = true ∧ warp0.cur.rove = none ∧ (onCur warp0 fun w => { w with rove := some (roving0 .rove 1024) }).cur.rove = some (roving0 .rove 1024) ∧
    1024 ≤ (roving0 .rove 1024).count ∧ (roving0 .restore 0).entered + 8 ≤ ((warp0.onDie 0 fun x => { x with clock := 8 }).die (agentDie warp0.cur.who)).clock := by
  decide +kernel
/-- ADDI on a register that is owed, in a context whose record enables roving, whose floor is no higher than its balance. -/
def mayRove0 : State :=
  let s := State.reset.withFetchWord 64 0x0800C00000300080
  onCur { s with teams := s.teams.map fun t => { t with ctxRec := { t.ctxRec with roveEn := true } } } fun w => { w with pend := [{ owed0 with xw := [(0, 5), (3, 5)] }] }
theorem witness_WarpEvents_rove : (fetchInstr mayRove0).2 = .instr (.addImm { zI with d := 3, imm := 16, ty := 6 }) ∧
    mayRove mayRove0 (.addImm { zI with d := 3, imm := 16, ty := 6 }) = true := by decide +kernel
/-- Waits at their deadline, without a promise there and with one. -/
def waiting0 (st : Status) (promises : List (Nat × Nat × Nat)) : State := onCur at5 fun w => { w with status := st, promises }
theorem witness_WarpEvents_deadline : deadlinePassed (waiting0 (.taskWait 3 9 5) []) 5 ∧ promisesAt (waiting0 (.taskWait 3 9 5) []).cur 5 = [] ∧
    promisesAt (waiting0 (.taskWait 3 9 5) [(2, 5, 0)]).cur 5 ≠ [] ∧ (waiting0 (.sleepUntil 3 5) []).cur.status = .sleepUntil 3 5 ∧
    (5 : Word).toNat ≤ ((waiting0 (.sleepUntil 3 5) []).stage.sec * 1000000000 + (waiting0 (.sleepUntil 3 5) []).stage.nsec) % 2 ^ 64 := by
  unfold deadlinePassed; decide +kernel
/-- Another agent first among the others. -/
theorem witness_WarpEvents_other : ∃ w rest, thread0.others = w :: rest ∧ thread0.cur.who ≠ w.who := by
  refine ⟨thread0.others.headD (Warp.idleThread 0 0), thread0.others.tail, ?_, ?_⟩ <;> decide +kernel
/-- A logical tick that is due, an update on its way, a cluster whose one warp waits on a knot of its own for 65,536 clocks. -/
def knotSent : KnotUpdate := { home := .team 1 0, op := .arrive 1 false, src := some ⟨1, 0⟩, ctx := 0, d := 0, time := 0, note := none, cmdTeam := none, recv := none }
def stuck : State :=
  onCur (warp0.onDie 0 fun x => { x with stalls := [((warp0.findTeam 1).map (·.cluster) |>.getD 0, 65536)] }) fun w => { w with
    status := .knotWait ⟨3, .team 1 0, 0, true, .phase true, 0⟩ }
theorem witness_WarpEvents_clocks : ((warp0.onDie 0 fun x => { x with clock := 1024 }).die 0).tc < ((warp0.onDie 0 fun x => { x with clock := 1024 }).die 0).clock / 1024 ∧
    ({ warp0 with knotQ := [knotSent] }).knotQ[0]? = some knotSent ∧ (warp0.findTeam 1).isSome = true ∧ farOwned farKnot 5 0 = true ∧
    65536 ≤ tblGetD (stuck.die 0).stalls 1 0 ∧ clusterStuck stuck 1 = true := by decide +kernel

/-- Commands that may start, that run to their end, and that meet a fault. -/
def commanded (c : Cmd) : State := { warp0 with cmds := [c] }
def copyCmd (st : CmdState) (record : Nat) : Cmd := { cmd0 .copy 0 record st with id := 500 }
/-- The same copy with its source in an unmapped region. -/
def faultRec : Nat := copyRec + 2 ^ 50 * 2 ^ 128
theorem witness_CommandEvents_copy : (commanded (copyCmd .waiting copyRec)).findCmd 500 = some (copyCmd .waiting copyRec) ∧
    isCopyKind (copyCmd .waiting copyRec) = true ∧ nextCopy (commanded (copyCmd .waiting copyRec)) 0 = some (copyCmd .waiting copyRec) ∧
    cmdTotal (copyCmd .waiting copyRec) ≠ 0 ∧ cmdTotal (copyCmd .waiting (copyRec - 2 ^ 256)) = 0 ∧
    nextCopy (commanded (copyCmd .waiting (copyRec - 2 ^ 256))) 0 = some (copyCmd .waiting (copyRec - 2 ^ 256)) ∧
    cmdMayRun (commanded (copyCmd .running copyRec)) (copyCmd .running copyRec) = true := by decide +kernel
theorem witness_CommandEvents_moves : (moveAll (commanded (copyCmd .running copyRec)) (copyCmd .running copyRec)).2.2 = none ∧
    (moveAll (commanded (copyCmd .running faultRec)) (copyCmd .running faultRec)).2.2.isSome = true := by decide +kernel
/-- The same with every trip count 1. -/
def mxOnce : BitVec 512 := BitVec.ofNat 512 (mxRec + 2 ^ 144 + 2 ^ 156 + 2 ^ 168 + 2 ^ 180)
def matrixCmd (st : CmdState) : Cmd := { cmd0 (.matrix 0) 0 mxRec st with id := 500 }
theorem witness_CommandEvents_matrix : mxShared (matrixCmd .waiting).record = false ∧ (∀ o ∈ mxQueue (commanded (matrixCmd .waiting)) 0 0 0, o.st ≠ .running) ∧
    (matrixCmd .waiting).ready = true ∧ cmdMayRun (commanded (matrixCmd .waiting)) (matrixCmd .waiting) = true ∧
    (mxQueue (commanded (matrixCmd .waiting)) 0 0 0).find? (mxWaited (commanded (matrixCmd .waiting))) = some (matrixCmd .waiting) ∧
    mxHead (mxQueue (commanded (matrixCmd .waiting)) 0 0 0) = some (matrixCmd .waiting) ∧
    0 ∈ matrixTrips (matrixCmd .waiting).record ∧ mxHead (mxQueue (commanded { matrixCmd .waiting with record := mxOnce }) 0 0 0) = some { matrixCmd .waiting with record := mxOnce } ∧
    (0 ∉ matrixTrips mxOnce ∧ (mxQueue (commanded { matrixCmd .waiting with record := mxOnce }) 0 0 0).find? (mxWaited (commanded { matrixCmd .waiting with record := mxOnce })) =
      some { matrixCmd .waiting with record := mxOnce }) ∧
    (let c := { matrixCmd .running with record := mxOnce }
     let s := commanded c
     runningSet s c = [c] ∧ leader [c] c = c ∧ (mxSteps c ((matrixTrips c.record).foldl (· * ·) 1 - c.next) c.next (chargeTo s none) none [⟨c, none⟩]).2.2 = none ∧
     (let bad := { s with softErrs := [.scratch 1 0] }
      (mxSteps c ((matrixTrips c.record).foldl (· * ·) 1 - c.next) c.next (chargeTo bad none) none [⟨c, none⟩]).2.2.isSome = true)) ∧
    (let c := { matrixCmd .running with record := 2 ^ 8 ||| mxOnce }
     (runningSet (commanded c) c).all (fun o => o.st == .running) = true ∧
     (runningSet { warp0 with cmds := [c, { c with id := 501, kind := .matrix 1, st := .frozen }] } c).any (fun o => o.st != .running) = true) ∧
    (∀ q ∈ ({ matrixCmd .running with kind := .stage 0, record := BitVec.ofNat 512 stageRec, sent := [(0, 1)] } : Cmd).sent, stageFlits (BitVec.ofNat 512 stageRec) ≤ q.2) := by
  decide +kernel

/-- A die with a resident partition of core 0 and a context, whose nodes are given. -/
def swiftDie (nodes : List Node) (resv : Nat) : State :=
  warp0.onDie 0 fun x => { x with
    nodes
    parts := [(0, { part0 with cores := #v[1, 0], shways := #v[1, 0], resv })]
    res := 1
    contexts := [(0, benchCtx)] }
def readyNode (id cls : Nat) : Node := { node0 with id, cls, st := .ready, placed := 0 }
def placing : State := swiftDie [node0, readyNode 9 1] 0
/-- The same where the team of the placed warp is saved with its warp, or takes the whole scratchpad. -/
def savedAway : State :=
  { swiftDie [node0] 0 with
    cur := Warp.idleThread 0 0
    teams := [{ benchTeam 1 with phase := .saved, saved := [warp0.cur] }] }
def full (old cls : Nat) : State :=
  { swiftDie [{ node0 with cls := old }, { readyNode 9 cls with passed := some 0 }] 0 with
    teams := [{ benchTeam 1 with kernel := { benchKernel with scratch := 4194304 } }]
    stage := { warp0.stage with nsec := 10000 } }
theorem witness_TeamEvents : ((rankAll (placing.die 0) (candidates placing 0)).map (·.cand)) = [.fresh 9] ∧ (placeNode placing 0 9).isSome = true ∧
    ((rankAll (savedAway.die 0) (candidates savedAway 0)).map (·.cand)) = [.saved 0 1] ∧ (savedAway.findTeam 1).map (·.d) = some 0 ∧
    (resumeCluster savedAway 0 0 1).isSome = true ∧ (savedCluster savedAway 1).map (·.id) = [1] ∧ (savedCluster savedAway 1).all (fun m => m.phase == .saved && m.crank == 0) = true ∧
    ((rankAll ((full 2 1).die 0) (candidates (full 2 1) 0)).map (·.cand)) = [.fresh 9] ∧ tryPlace (full 2 1) 0 (.fresh 9) = none := by decide +kernel
def finished : State := { warp0 with cur := Warp.idleThread 0 0 }
theorem witness_TeamEvents_end : finished.findTeam 1 = some (benchTeam 1) ∧ finished.teamWarps 1 = [] ∧ (benchTeam 1).saved = [] ∧ finished.cmds = [] ∧ finished.knotQ = [] ∧ warp0.teamWarps 1 ≠ [] ∧
    { knotSent with cmdTeam := some 1 }.cmdTeam = some (benchTeam 1).id ∧ wantsSaved warp0 (benchTeam 1) = false := by decide +kernel
/-- A SWAPOUT of the partition of the placed warp's team. -/
def swapping : State := (swiftDie [node0] 0).onDie 0 fun x => { x with partOp := some (.swapout, 0) }
theorem witness_TeamEvents_save : swapping.findTeam 1 = some (benchTeam 1) ∧ wantsSaved swapping (benchTeam 1) = true ∧
    ((swapping.agents.filter fun w => w.status != .exited).map (·.who)).Nodup ∧ benchTeam 1 ∈ clusterOf swapping 1 ∧
    (swapping.teams.filter fun x => x.id == 1) = [benchTeam 1] := by decide +kernel
theorem witness_TeamEvents_class0 : (∀ m ∈ (placing.die 0).nodes, passedOver placing 0 m = false) ∧
    (((full 2 0).die 0).nodes.filter (passedOver (full 2 0) 0)).map (·.id) = [9] ∧
    (((full 2 0).die 0).nodes.filter (passedOver (full 2 0) 0)).all (fun m => preemptChoice (full 2 0) 0 m == some [1]) = true ∧
    (((full 1 0).die 0).nodes.filter (passedOver (full 1 0) 0)).map (·.id) = [9] ∧
    (((full 1 0).die 0).nodes.filter (passedOver (full 1 0) 0)).all (fun m => preemptChoice (full 1 0) 0 m == none) = true := by decide +kernel

/-! Queues -/

/-- Queue 0 of die 0 as given, under a loaded context, with some memory besides. -/
def atQueue (x : Queue) (a : Nat) (bs : List Byte) : State :=
  let s := warp0.onDie 0 fun d => { d with queues := d.queues.set 0 x, contexts := [(0, benchCtx)] }
  { s with mem := s.mem.write a bs }
def q0 : QueueRef := ⟨0, 0⟩
/-- Translation of an address for queue 0. -/
def reachesFor (s : State) (va : Nat) (acc : Access) (p : Phys → Bool) : Bool :=
  okOf (Machine.translate s 0 (s.queue q0).ctx (ctxPpn s 0 (s.queue q0).ctx) (BitVec.ofNat 64 va) acc).2 p
theorem witness_QueuePackets : Reading ((atQueue (reading0 1) 0 []).queue q0) ∧ Reading ((atQueue { reading0 1 with st := .blocked } 0 []).queue q0) ∧
    ((atQueue (reading0 1) 0 []).queue q0).open_ = [] ∧ ((atQueue { reading0 1 with open_ := [4] } 0 []).queue q0).open_ ≠ [] ∧
    reachesFor (atQueue (reading0 1) 0 []) 0x20000 .atomic (fun ph => ph.kind != .io) = true ∧
    reachesFor (atQueue (reading0 1) 0 []) 0x20000 .write (fun ph => inPool ph.pa && inPool (ph.pa + 8)) = true := by
  unfold Reading; decide +kernel
/-- A context record that is good and one whose VERSION dword is 0; a group table with a reserved bit. -/
def goodCtx : Nat := 1 + 10 * 2 ^ 60 + 16 * 2 ^ 64
theorem witness_QueuePackets_context : ctxRecordBad 0x20000 0 = true ∧ ctxRecordBad 0x20000 goodCtx = false ∧
    (readGroups (atQueue (reading0 1) 0x20100 (toBytes (2 ^ 48) 8)) 0 0x20100).2 = none ∧ (readGroups (atQueue (reading0 1) 0 []) 0 0x20100).2.isSome = true := by
  decide +kernel
/-- A fence word below its value, at it, and aborted; a read that fails. -/
def fenceRead (s : State) (va : Nat) : Except (Word × Nat) (List Byte × Nat) :=
  (readDwords s ⟨0, (s.queue q0).ctx, ctxPpn s 0 (s.queue q0).ctx⟩ ⟨0, none, none, (s.die 0).xts, ctxLease s 0 (s.queue q0).ctx, []⟩ (BitVec.ofNat 64 va) 1).2
theorem witness_QueuePackets_fence : okOf (fenceRead (atQueue (reading0 1) 0x20000 (toBytes 6 8)) 0x20000) (fun a => !((ofBytes a.1).testBit 63) && ofBytes a.1 % 2 ^ 63 == 6) = true ∧
    okOf (fenceRead (atQueue (reading0 1) 0x20000 (toBytes (2 ^ 63) 8)) 0x20000) (fun a => (ofBytes a.1).testBit 63) = true ∧
    errOf (fenceRead (atQueue (reading0 1) 0 []) (2 ^ 50)) (fun _ => true) = true ∧
    ((atQueue { reading0 1 with hold := some (.fence 0x20000 7 true) } 0 []).queue q0).hold = some (.fence 0x20000 7 true) ∧
    awaitsAnswer (atQueue { reading0 1 with hold := some (.fence 0x20000 7 true) } 0 []) q0 = false := by decide +kernel
/-- The reads of a LAUNCH_GRID: a kernel that is malformed, one that can never be placed, one that is entered, a read that fails. -/
def kernelRead (k : Nat) (p : State → KDesc → Bool) : Bool :=
  let r := packetReads q0 8 [0x20040] (atQueue (reading0 1) 0x20040 (toBytes k 64))
  okOf r.2 fun l => p r.1 (parseKDesc (toBytes (l.headD 0) 64))
theorem witness_LaunchPackets : kernelRead 0 (fun _ k => kernelMalformed k) = true ∧
    kernelRead (taskKernel - 2 ^ 232) (fun u k => !(kernelMalformed k) && kernelNever u q0 k) = true ∧
    kernelRead taskKernel (fun u k => !(kernelMalformed k) && !(kernelNever u q0 k) && 7 % (k.cw * k.ch) == 0) = true ∧
    errOf (packetReads q0 8 [2 ^ 50] (atQueue (reading0 1) 0 [])).2 (fun _ => true) = true := by decide +kernel
/-- The reads of a LAUNCH_GRAPH of one node: an entry of KIND 0, and a grid of one team. -/
def goodEntry : Nat := 1 + 2 ^ 10 + (0x20040 / 64 + 2 ^ 58) * 2 ^ 256
theorem witness_LaunchPackets_graph :
    okOf (packetReads q0 16 [0x30000] (atQueue (reading0 1) 0 [])).2 (fun es => tableBad es 0) = true ∧
    (let s := { atQueue (reading0 1) 0x20040 (toBytes taskKernel 64) with mem := ((atQueue (reading0 1) 0x20040 (toBytes taskKernel 64)).mem.write 0x30000 (toBytes goodEntry 128)) }
     let r := packetReads q0 16 [0x30000] s
     okOf r.2 fun es => !(tableBad es 0) && es.length == 1 && (es.filter fun e => !(ntNtile e == 0 || decide (4 < ntNtile e))).isEmpty &&
       let r3 := packetReads q0 8 (es.flatMap entryKernels) r.1
       okOf r3.2 fun ks => (dealKernels es (kernelsOf ks)).all fun e => (entryVariants e.1 e.2).all fun v => !(variantBad r3.1 q0 v.teams v.kernel)) = true := by
  decide +kernel

/-- Heads off, on, refused; room for a last FLIP and none; a frame that is due and one that is not. -/
def headOn (flips : List Flip) (nextFrame now : Nat) : State :=
  { warp0.onHead 0 0 (fun h => { h with cfg := 0x80000000, rate := 0x100000001, st := .on, flips, nextFrame }) with stage := { warp0.stage with nsec := now } }
theorem witness_DisplayHeads : (warp0.head 0 0).cfg.getLsbD 31 = false ∧ ((headOn [] 0 0).head 0 0).cfg.getLsbD 31 = true ∧
    ((headOn (List.replicate 3 ⟨0, 0, 0, 0⟩) 0 0).head 0 0).flips.length < 4 ∧ 4 ≤ ((headOn (List.replicate 4 ⟨0, 0, 0, 0⟩) 0 0).head 0 0).flips.length ∧
    (0x80000000 : Word).getLsbD 31 = true ∧ headRefused { warp0.head 0 0 with cfg := 0x80000000 } = true ∧
    headRefused { warp0.head 0 0 with cfg := 0x80000000, timing := 0x020D032001E00280, rate := 0x3C00000001 } = false ∧
    frameTime ((headOn [] 0 0).head 0 0) 0 ≤ 0 ∧ ¬ (((headOn [] 1 0).head 0 0).st = .on ∧ frameTime ((headOn [] 1 0).head 0 0) 1 ≤ 0) := by decide +kernel

/-- Queue states of a teardown: nothing open, something open, aborting, disabled; EN set and clear. -/
theorem witness_QueueRegisters : (0x1000000 : Word).getLsbD 24 = true ∧ (warp0.queue q0).en = false ∧ ((atQueue (reading0 1) 0 []).queue q0).en = true ∧
    (warp0.queue q0).st = .disabled ∧ ({ reading0 1 with st := .aborting } : Queue).st = .aborting ∧ (∀ x ∈ [reading0 1, { reading0 1 with open_ := [3] }], ¬ (x.st = .disabled ∨ x.st = .stopped ∨ x.st = .malformed) ∧ x.st ≠ .aborting) ∧
    ({ reading0 1 with open_ := [3] } : Queue).open_ ≠ [] ∧ (reading0 1).hold = none ∧ (reading0 1).resets = [] ∧
    (((2 ^ 31 - 1 : Word).setWidth 32 - (0 : BitVec 32)).toNat ≤ 2 ^ 31 - 1) ∧ ¬ (((2 ^ 31 : Word).setWidth 32 - (0 : BitVec 32)).toNat ≤ 2 ^ 31 - 1) := by
  decide +kernel
/-- Threads frozen and not; a halted warp and its RESUME word; a KILL word; addresses of a port and of an interrupt file. -/
def halted : State := onCur warp0 fun w => { w with status := .halted }
theorem witness_DistaffEvents : ((warp0.onDie 0 fun x => { x with tctl := x.tctl.set 0 { x.tctl[0] with frozen := true } }).die 0).tctl[0].frozen = true ∧
    (warp0.die 0).tctl[0].frozen = false ∧ (warp0.die 0).tctl[0].halted = false ∧
    (0 : Word).toNat % 4 = 0 ∧ (0 : Word).toNat / 2 ^ 44 % 16 = 0 ∧ warpAt halted (((0 : Word).extractLsb' 48 11).setWidth 16) = some halted.cur ∧ halted.cur.status = .halted ∧
    (1 : Word).toNat % 4 = 1 ∧ halted.findTeam halted.cur.team = some (benchTeam 1) ∧ (benchTeam 1).d = 0 ∧
    warp0.host.hart0 = true ∧ ({ warp0.host with hart0 := false, harts := false } : HostBlock).hart0 = false ∧ regionOf 0x20000001200 = .control 0 0x1200 ∧ portAssigned 0x1200 = true ∧ 0x20000001201 % 8 ≠ 0 ∧ regionOf 0x20030001000 = .imsic 0x1000 ∧
    regionOf 0x20040001000 = .imsicM 0x1000 ∧ 0x20030001000 % 4096 = 0 ∧ agentDie halted.cur.who = 0 := by
  refine ⟨?_, ?_, ?_, ?_, ?_, ?_, ?_, ?_, ?_, ?_, ?_, ?_, rfl, ?_, ?_, rfl, rfl, ?_, ?_⟩ <;> decide +kernel

/-- A fault and an advisory record with room and without; an error log with room. -/
def spoolRec (kind : Nat) : SpoolRec :=
  { token := 1, master := .none, kind, access := 0, agent := 0, ctx := 0, reason := 0, agentId := 0, fkind := 0, pc := 0, va := 0, lanes := 0, cause := 0, tval := 0 }
def spooled (kind used : Nat) : State := warp0.onDie 0 fun x => { x with
  spEn := true, spLog2n := 6, spBase := 0x40000, spHead := BitVec.ofNat 32 used, spoolQ := [spoolRec kind], elEn := true, elBase := 0x50000, elogQ := [⟨2, 0, 0, 0, 0, 0⟩] }
theorem witness_RecordsPosted : postable (warp0.die 0) (spoolRec 1) = false ∧ postable ((spooled 1 63).die 0) (spoolRec 1) = true ∧
    postable ((spooled 2 64).die 0) (spoolRec 2) = true ∧ ((spooled 1 63).die 0).spEn = true ∧
    (((spooled 1 63).die 0).spHead - ((spooled 1 63).die 0).spTail).toNat < 2 ^ ((spooled 1 63).die 0).spLog2n ∧
    ¬ (((spooled 2 64).die 0).spHead - ((spooled 2 64).die 0).spTail).toNat < 2 ^ ((spooled 2 64).die 0).spLog2n ∧
    inPool (((spooled 1 63).die 0).spBase.toNat + 64 * (((spooled 1 63).die 0).spHead.toNat % 2 ^ 6)) = true ∧ ((spooled 1 0).die 0).elEn = true ∧
    (((spooled 1 0).die 0).elHead - ((spooled 1 0).die 0).elTail).toNat < 2 ^ ((spooled 1 0).die 0).elLog2n ∧ (warp0.die 0).elogQ = [] ∧
    inPool (((spooled 1 0).die 0).elBase.toNat + 32 * 0) = true := by decide +kernel

/-- A partition operation of each kind that runs; records refused for each cause, and one in force; pinned, resident, and held elsewhere. -/
def parting (op : Option (PartOp × Fin 8)) (record : Nat) (res : BitVec 8) (shways : Nat) : State :=
  let s := warp0.onDie 0 fun x => { x with partOp := op, ptBase := 0x60000, res, nodes := [node0], parts := [(0, { part0 with shways := #v[shways, 0] }), (1, part0)] }
  { s with mem := s.mem.write 0x60000 (toBytes record 64) }
def readPart (s : State) : PartRec × Bool := parsePart (ofBytes (physRead s 0 ((s.die 0).ptBase.toNat + 64 * 0) 64).2)
theorem witness_Partitions : ((parting none 0 0 0).die 0).partOp = none ∧ ((parting (some (.load, 0)) 0 0 0).die 0).partOp = some (.load, 0) ∧
    (readPart (parting (some (.load, 0)) (2 ^ 511) 0 0)).2 = false ∧ 4 < (readPart (parting (some (.load, 0)) (5 * 2 ^ 64) 0 0)).1.resv ∧
    (readPart (parting (some (.load, 0)) (4 * 2 ^ 64) 0 0)).2 = true ∧ (readPart (parting (some (.load, 0)) (4 * 2 ^ 64) 0 0)).1.resv ≤ 4 ∧
    (∃ t ∈ (parting (some (.load, 0)) 0 0 0).teams, t.d = 0 ∧ (((parting (some (.load, 0)) 0 0 0).die 0).findNode t.node).map (·.part) = some 0 ∧ t.phase ≠ .ended) ∧
    { parting (some (.load, 0)) 0 0 0 with teams := [] }.teams = [] := by
  refine ⟨?_, ?_, ?_, ?_, ?_, ?_, ⟨benchTeam 1, ?_⟩, rfl⟩ <;> decide +kernel
theorem witness_Partitions_swap : isPinned ((parting (some (.swapout, 0)) 0 0 0).die 0) 0 0 = true ∧ isPinned ((parting (some (.swapout, 0)) 0 0 1).die 0) 0 0 = false ∧
    ((parting (some (.swapout, 0)) 0 0 1).die 0).res.getLsbD 0 = false ∧ ((parting (some (.swapout, 0)) 0 1 1).die 0).res.getLsbD 0 = true ∧
    (tblGet ((parting (some (.swapin, 0)) 0 0 1).die 0).parts 0).isSome = true ∧
    ((parting (some (.swapin, 0)) 0 2 1).die 0).parts.any (fun e => decide (e.1 < 8) && (2 : BitVec 8).getLsbD e.1 && (e.2.cores[0] &&& 0xFFFFFF) != 0) = true := by
  decide +kernel
/-- A LOAD of too few shared ways: 8,192 lines a way for one core's 6,208 suffice, for two they do not. -/
theorem witness_Partitions_few : (1 : Nat) ≠ 0 ∧ 1 * 8192 < maskCount (3 : BitVec 24) * 6208 ∧ ¬ 1 * 8192 < maskCount (1 : BitVec 24) * 6208 ∧ 16 < 16 + 1 := by
  decide +kernel

/-- A raise that is a raise, one that is not, one past 64; the engine busy and free; registers that may be extended and not. -/
def hosted (h : HostBlock) : State := { warp0 with host := h }
theorem witness_Measurements : HostBlock.reset.hart0 = true ∧ ({ HostBlock.reset with hart0 := false } : HostBlock).harts = false ∧ HostBlock.reset.lock4 = false ∧ ((0x140 : Word).extractLsb' 8 2).toFin ≠ (0 : Fin 4) ∧ ((0x140 : Word).extractLsb' 0 8).toNat ≤ 64 ∧
    HostBlock.reset.svnMin[1] < ((0x140 : Word).extractLsb' 0 8).toNat ∧ 64 < ((0x141 : Word).extractLsb' 0 8).toNat ∧ HostBlock.reset.busy = none ∧
    (hosted { HostBlock.reset with busy := some (.extend 7 []) }).host.busy = some (.extend 7 []) ∧ HostBlock.reset.waiting = [] ∧
    Extendable HostBlock.reset 0 ∧ Extendable HostBlock.reset 4 ∧ Extendable HostBlock.reset 7 ∧ ¬ Extendable HostBlock.reset 1 ∧
    ¬ Extendable { HostBlock.reset with romMode := false, lock4 := true } 0 ∧ ¬ Extendable { HostBlock.reset with romMode := false, lock4 := true } 4 := by
  unfold Extendable; decide +kernel
/-- Each step of the boot, with a manifest that fails. Which manifests verify is a matter of the key fuses, which are open (log entry 8). -/
def booting (n : BitVec 8) : State := hosted { HostBlock.reset with bootStat := n, mr := HostBlock.reset.mr.set 3 (List.replicate 64 1) }
theorem witness_BootSequence : (booting 0).host.bootStat = 0 ∧ (booting 0).host.romMode = true ∧ (booting 0).host.hart0 = true ∧ (booting 0).host.mr[3] ≠ List.replicate 64 0 ∧
    verifyImage (booting 0).host 1 [] (((booting 0).host.l3.write (mfield64 [] 16) [7]).read (mfield64 [] 16) 1) = 0x81 ∧
    verifyImage (booting 1).host 2 [] ((((booting 1).die 0).dmem.write (mfield64 [] 16) [7]).read (mfield64 [] 16) 1) ≠ 0 ∧
    ((booting 1).die 0).image = none ∧ (booting 2).host.bootStat = 2 ∧
    verifyImage (booting 3).host 3 [] (((booting 3).mem.write (mfield64 [] 16) [7]).read (mfield64 [] 16) 1) ≠ 0 := by decide +kernel
/-- An account refilled every microsecond whose turn has come, one whose turn has not, one without a period. -/
def metered (period : Nat) : State :=
  { warp0.onDie 0 (fun x => { x with ecfg := x.ecfg.set 0 (BitVec.ofNat 64 period) }) with stage := { warp0.stage with nsec := 1000 } }
theorem witness_TimeAndEnergy_period : ((metered 1).die 0).ecfg[0].toNat % 1048576 ≠ 0 ∧
    ((metered 1).stage.sec * 1000000000 + (metered 1).stage.nsec) % 2 ^ 64 / (1000 * 1) ≠ ((metered 1).die 0).refills[0] ∧
    ((metered 2).stage.sec * 1000000000 + (metered 2).stage.nsec) % 2 ^ 64 / (1000 * 2) = ((metered 2).die 0).refills[0] ∧
    ((metered 0).die 0).ecfg[0].toNat % 1048576 = 0 := by decide +kernel
/-- A clock word in range and out of it; a queue of timestamps with room for one and full; fits at their bounds. -/
theorem witness_TimeAndEnergy : (999999999 : Word).toNat % 2 ^ 32 < 1000000000 ∧ 1000000000 ≤ (1000000000 : Word).toNat % 2 ^ 32 ∧ (3 : BitVec 4).toNat < 4 ∧
    4 ≤ (4 : BitVec 4).toNat ∧ (List.replicate 63 (0 : BitVec 64)).length < 64 ∧ 64 ≤ (List.replicate 64 (0 : BitVec 64)).length ∧ 0xC000 ≤ 0xC000 ∧ 0xC000 ≤ 0x14000 ∧
    0x14000 < 0x14001 ∧ 0xBFFF < 0xC000 ∧ ((spooled 1 0).die 0).elEn = true ∧ (((spooled 1 0).die 0).elogQ.filter (·.kind != 1)).length < 16 := by decide +kernel
/-- Usage over, at and below 90 % of an allowance; a step that fits and a budget that no step fits. -/
theorem witness_ArbiterPeriods : warp0.etBase = 0 ∧ (warp0.stage.sec * 1000000000 + warp0.stage.nsec) % 2 ^ 64 / 10000 = warp0.arbiter ∧
    warp0.arbiter < (0 * 1000000000 + 10000) % 2 ^ 64 / 10000 ∧ 2000 * 10000 < 20000001 ∧ 17999999 * 10 < 2000 * 10000 * 9 ∧ 18000000 ≤ 2000 * 10000 ∧ 2000 * 10000 * 9 ≤ 18000000 * 10 ∧
    800 ∈ clockSteps ∧ 2000 ∈ clockSteps ∧ 0 * 800 * 2 ≤ 1200 * 1000 * 1000 * (2000 * 10) ∧ ∀ f ∈ clockSteps, ¬ 1 * f * 2 ≤ 0 := by decide +kernel
/-- States of the reel, a switch that is due and one that is not, tables good and bad; a link in training at its longest delay. -/
def reelTable : Memory := (Memory.write [] 0 (toBytes 0x52545A44 4)).write 4 (toBytes 1 2)
def atReel (r : Reel) (sec : Nat) : State := { warp0 with reel := r, stage := { warp0.stage with sec } }
theorem witness_ReelEvents : warp0.reel.st = .off ∧ granted.reel.st = .run ∧ ({ Reel.reset with st := .wait, since := 3, lock := true } : Reel).since ≠ 4 ∧ warp0.reel.switch = none ∧
    (atReel { Reel.reset with switch := some (true, 5, reelTable) } 4).stage.sec < 5 ∧ 5 ≤ (atReel { Reel.reset with switch := some (true, 5, reelTable) } 5).stage.sec ∧
    tableError [] ≠ 0 ∧ ({ Link.reset with training := true } : Link).training = true ∧ (4000 : Nat) ≤ 4000 ∧ (Link.reset).training = false ∧
    (let rounds := List.replicate 64 (8001, 1)
     rounds.length = 64 ∧ (∃ p ∈ rounds, (4000 : Nat) = (p.1 - p.2 + 1) / 2) ∧ ∀ p ∈ rounds, 4000 ≤ (p.1 - p.2 + 1) / 2) ∧
    (let rounds := List.replicate 64 (8003, 1)
     rounds.length = 64 ∧ (∃ p ∈ rounds, (4001 : Nat) = (p.1 - p.2 + 1) / 2) ∧ ∀ p ∈ rounds, 4001 ≤ (p.1 - p.2 + 1) / 2) ∧
    ({ Reel.reset with st := .train } : Reel).trainAt + 250000000 * 2 ^ 40 ≤ 250000000 * 2 ^ 40 ∧ ({ Link.reset with up := true } : Link).up = true := by decide +kernel
/-- Beyond its six bytes the good table reads as zeros, so that no entry of it is enabled. -/
theorem reelTable_read (n : Nat) : ∀ a, 6 ≤ a → ofBytes (reelTable.read a n) = 0 := by
  induction n with
  | zero => intro a _; rfl
  | succ n ih =>
    intro a h
    have ht : reelTable = [(0, 0x44), (1, 0x5A), (2, 0x54), (3, 0x52), (4, 1)] := by decide
    have hg : reelTable.get a = 0 := by
      rw [ht]
      simp only [Memory.get, poolDefault]
      repeat rw [if_neg (by omega), if_neg (by omega)]
    rw [Memory.read, ofBytes, hg, ih (a + 1) (by omega)]
    rfl
theorem reelTable_streams (n : Nat) : streamEntry reelTable n = 0 := reelTable_read 8 _ (by omega)
theorem reelTable_slots (k l : Nat) : slotEntry reelTable k l = 0 := reelTable_read 2 _ (by omega)
theorem witness_ReelEvents_table : tableError reelTable = 0 := by
  have hn : (bits 0 31 22 == 0 && bits 0 63 46 == 0) = true := by decide
  have hs : (bits 0 14 10 == 0) = true := by decide
  have hv : ∀ k l, slotStream reelTable k l = none := fun k l => by rw [slotStream, reelTable_slots]; decide
  have hl : ∀ n, streamLinks reelTable n = [] := fun n => by rw [streamLinks, reelTable_streams]; decide
  have hh : (reelTable.num 0 4 != 0x52545A44 || reelTable.num 4 2 != 1 || !((reelTable.read 7 57).all (· == 0))) = false := by decide
  simp only [tableError, hh, reelTable_streams, reelTable_slots, hn, hs, hv, hl, List.any_nil]
  simp
/-- A stage copy whose next flit's slot is due, its source in the scratchpad and in an unmapped region. -/
def flying (record now : Nat) : State :=
  let t := (Memory.write [] 64 (toBytes (2 ^ 13 + 2 ^ 14 + 2 ^ 45) 8)).write 0x4000 (toBytes 0x8000 2)
  { warp0 with
    reel := { warp0.reel with st := .run, table := some t, links := warp0.reel.links.set 0 { Link.reset with up := true, lat := 1 } }
    stage := { warp0.stage with nsec := now }
    cmds := [{ cmd0 (.stage 0) 0 record .running with sent := [(0, 0)] }] }
theorem witness_StageFlits : slotDue (flying stageRec 0) 0 = none ∧ (slotDue (flying stageRec 3) 0).isSome = true ∧
    okOf (stageRead (flying (stageRec + 2 ^ 8) 3) (cmd0 (.stage 0) 0 (stageRec + 2 ^ 8) .running) 0 16).2 (fun _ => true) = true ∧
    (stageRead (flying (stageRec + 2 ^ 178) 3) (cmd0 (.stage 0) 0 (stageRec + 2 ^ 178) .running) 0 16).2.isOk = false := by decide +kernel
/-- A flit of 208 bytes that is handled, one that is not; its receiver's open copy, and one that is stale. -/
def flit0 (last : Bool) : BitVec 2048 := buildFlit 0 0 0 5 0 1 0x20000 0 0 last (List.replicate 208 7)
theorem witness_StageFlits_received : flitGood (flying stageRec 0) 0 (flit0 true) = true ∧ flitGood (flying stageRec 0) 0 0 = false ∧
    (flit0 true).toNat / 2 ^ 62 % 2 = 1 ∧ (flit0 false).toNat / 2 ^ 62 % 2 = 0 ∧ flitGood (flying stageRec 0) 0 (flit0 false) = true ∧
    laterCopy 1 0 = true ∧ laterCopy 0 1 = false ∧ laterCopy 0 4095 = true ∧ tblGet (flying stageRec 0).reel.rx 0 = none ∧ rxStale (flying stageRec 0) ⟨5, 0, 1, false, false, 0, 0, 0⟩ = false ∧
    rxStale (flying stageRec 100000) ⟨5, 0, 1, false, false, 0, 0, 0⟩ = true := by decide +kernel

/-- Lines held in each way: by nobody, by a clean and a dirty owner, by a sharer, by two with an owner. -/
theorem witness_HomeTransactions : inPool (128 * 0) = true ∧ inPool 0x10000000000 = false ∧
    (match regionOf 0x10000000000 with
      | .ecam _ => true
      | .pcie _ => true
      | _ => false) = false ∧
    ((match regionOf 0x30000000000 with
      | .ecam _ => true
      | .pcie _ => true
      | _ => false) = true ∧ inPool 0x30000000000 = false) ∧ 0x10000000000 % 8 = 0 ∧ tblGet warp0.dir 0 = none ∧
    (let l : DirLine := ⟨.x, some 1, [(1, .m)], some 0⟩
     l.st = .x ∧ l.owner = some 1 ∧ dirtyLine l = true ∧ heldBy l 0 = none ∧ heldBy l 1 ≠ none ∧ l.stale = some 0) ∧
    (let l : DirLine := ⟨.x, some 1, [(1, .e)], none⟩
     dirtyLine l = false ∧ heldBy l 1 = some .e) ∧
    (let l : DirLine := ⟨.o, some 1, [(0, .s), (1, .o)], some 0⟩
     l.st ≠ .x ∧ heldBy l 0 = some .s ∧ l.owner ≠ none ∧ dirtyLine l = true) ∧
    let l : DirLine := ⟨.s, none, [(0, .s), (1, .s)], none⟩
    heldBy l 0 = some .s ∧ l.owner = none ∧ (∀ o ∈ l.owner, False) := by
  decide +kernel
/-- A die with and without a shootdown under way; entries dropped and kept, lines under a page and not. -/
theorem witness_Shootdowns : (warp0.die 0).shootdown = none ∧ ((warp0.onDie 0 fun x => { x with shootdown := some ⟨0, 3, 5⟩ }).die 0).shootdown = some ⟨0, 3, 5⟩ ∧
    ShotDown ⟨0, 3, 5⟩ ⟨3, 0, 5, 0⟩ ∧ ¬ ShotDown ⟨0, 3, 5⟩ ⟨3, 0, 6, 0⟩ ∧ ShotDown ⟨1, 3, 5⟩ ⟨3, 0, 6, 0⟩ ∧ ¬ ShotDown ⟨1, 3, 5⟩ ⟨4, 0, 6, 0⟩ ∧ ShotDown ⟨2, 3, 5⟩ ⟨4, 0, 6, 0⟩ := by
  unfold ShotDown; decide +kernel
/-- A batch at the head of a front end; fragments ready for their test, for a colour passed and failed, and held back. -/
theorem witness_RasterEvents : (warp0.die 0).front = [] ∧
    (let s := warp0.onDie 0 fun x => { x with nodes := [{ node0 with rsb := some raster0 }], front := [⟨0, ⟨[], []⟩⟩] }
     (s.die 0).front = [⟨0, ⟨[], []⟩⟩] ∧ ((s.die 0).findNode 0).bind (·.rsb) = some raster0) ∧
    (let f := fragment0 .untested [] (some (0, none))
     f.depth.isSome = true ∧ f.test = .untested) ∧
    (∀ test ∈ [DepthTest.passed, .failed], (fragment0 test [(0, 0, #v[0, 0, 0, 0])] (some (0, none))).test ≠ .untested ∧
      (fragment0 test [(0, 0, #v[0, 0, 0, 0])] (some (0, none))).ops ≠ []) ∧
    raster0.targets.getD 0 none = some tex0 ∧ shareTarget raster0 raster0 = true := by decide +kernel
/-- A well-formed instruction with a word, and a word that decodes. -/
theorem witness_EncodingRoundTrip : (Instr.vfadd { zA with d := 63, ty := 10, pm := 15 }).wf = true ∧ (encode (.vfadd { zA with d := 63, ty := 10, pm := 15 })).isSome = true ∧
    ∃ i, decode 0x2401461C03500000 = .ok i := by
  refine ⟨by decide, rfl, _, rfl⟩
/-- A warp that goes on issuing: nothing to do of the hardware's own, a word that decodes, one that does not, a distaff word. -/
def issuing (w : Nat) : State := { State.reset.withFetchWord 64 w with agenda := [] }
def fetches (s : State) (p : Word → Bool) : Bool :=
  let at_ := chargeTo (roveAll (tick s)) none
  at_.cur.who == .warp 0 0 0 0 && at_.cur.status == .running && !at_.cur.yielded && at_.cur.rove.isNone && at_.softErrs.isEmpty &&
    okOf (translateFor at_ at_.cur at_.cur.pc .fetch).2 fun ph => inPool ph.pa && p (BitVec.ofNat 64 (at_.mem.num ph.pa 8))
theorem witness_StepRuns : (nextInternal (issuing 0x1450000000000000)).isNone = true ∧
    fetches (issuing 0x1450000000000000) (fun w => okOf (decode w) (fun i => i == .nop) && majorOf w != 0x3D) = true ∧
    fetches (issuing 0) (fun w => errOf (decode w) (fun k => k == 0) && majorOf w != 0x3D) = true ∧
    fetches (issuing 0x1450000000000000) (fun _ => true) = true := by decide +kernel
theorem witness_StepRuns_operands : (let s := chargeTo (roveAll (tick (issuing 0x0800C00000300080))) none
     readyTo s (.addImm { zI with d := 3, imm := 16, ty := 6 }) = .go) ∧
    (let s := onCur (chargeTo (roveAll (tick (issuing 0x0800C40000300080))) none) (fun w => { w with pend := [{ owed0 with xw := [(4, 5)] }] })
     readyTo s (.addImm { zI with d := 3, a := 4, imm := 16, ty := 6 }) = .stall) := by decide +kernel
/-- The form of memory, and a step that is taken from a state that has it. -/
theorem witness_StepKeepsMemoryForm : Memory.wf warp0.mem = true ∧ (∀ d, Memory.wf (warp0.die d).dmem = true) ∧ leaves (step warp0) (fun t => t.mem.wf) = true := by
  decide +kernel

/-- Launches without and with a raster state block: all that they read; a block that is refused, one that is not. -/
def launching (k : Nat) : State :=
  let s := atQueue (reading0 1) 0x20040 (toBytes taskKernel 64)
  { s with mem := ((s.mem.write 0x20080 (toBytes (taskKernel + 2 ^ 227) 64)).write 0x30000 (toBytes goodEntry 128)).write 0x40000 (toBytes k 128) }
def grid0 (rsb : Nat) : GridPacket := ⟨0x20040, 0, 7, 0, 0, 0, 0, rsb⟩
def graph0 (nodes rsb : Nat) : GraphPacket := ⟨nodes, 0, 0, 0, 0, rsb⟩
def goodBlock : Nat := 0x20080 + 0x3F800000 * 2 ^ 320 + 0x3F800000 * 2 ^ 352
def goodRaster : RasterBlock := ⟨goodBlock, List.replicate 8 none, none, parseKDesc (toBytes (taskKernel + 2 ^ 227) 64)⟩
theorem witness_LaunchPackets_reads :
    okOf (gridReads q0 (grid0 0) (launching 0)).2 (fun r => r.2 == none) = true ∧
    okOf (gridReads q0 (grid0 0x40000) (launching 0)).2 (fun r => r.2.any fun b => b.block == 0) = true ∧
    errOf (gridReads q0 (grid0 (2 ^ 50)) (launching 0)).2 (fun _ => true) = true ∧
    okOf (gridReads q0 (grid0 0x40000) (launching goodBlock)).2 (fun r => r.2 == some goodRaster) = true ∧
    okOf (graphReads q0 (graph0 0x30000 0) (launching 0)).2 (fun r => r.2.2.2 == none) = true ∧
    okOf (graphReads q0 (graph0 0x30000 0x40000) (launching 0)).2 (fun r => r.2.2.2.any fun b => b.block == 0) = true ∧
    errOf (graphReads q0 (graph0 (2 ^ 50) 0) (launching 0)).2 (fun _ => true) = true ∧
    errOf (graphReads q0 (graph0 0x30000 (2 ^ 50)) (launching 0)).2 (fun _ => true) = true := by decide +kernel
theorem witness_LaunchPackets_raster : ¬ RefusedRaster goodRaster ∧ ∀ k, RefusedRaster ⟨0, [], none, k⟩ := by
  have one : FinitePositive 0x3F800000 := ⟨2 ^ 23, -23, rfl, by decide⟩
  have zero : ¬ FinitePositive 0 := by rintro ⟨m, e, h, hm⟩; exact hm (by injection (h.symm.trans (rfl : decodeFp fmtF32 0 = .fin false 0 _)))
  constructor
  · rintro (h | h | h | h | h | h | h | h | ⟨t, ht, h, -⟩ | ⟨d, h, -⟩ | ⟨d, h, -⟩ | h | h | h | h | h | h)
    · revert h; decide +kernel
    · revert h; decide +kernel
    · revert h; decide +kernel
    · revert h; decide +kernel
    · revert h; decide +kernel
    · exact h (by rw [show field goodRaster.block 351 320 = 0x3F800000 by decide +kernel]; exact one)
    · exact h (by rw [show field goodRaster.block 383 352 = 0x3F800000 by decide +kernel]; exact one)
    · revert h; decide +kernel
    · revert t; decide +kernel
    · exact absurd (List.eq_of_mem_replicate h) (by simp)
    · cases h
    all_goals revert h; decide +kernel
  · intro k
    exact .inr (.inr (.inr (.inr (.inr (.inl (show ¬ FinitePositive (field 0 351 320) by
      rw [show field 0 351 320 = 0 by decide +kernel]; exact zero))))))

/-- Frozen warps of each kind that RESUME restarts, one whose start failed; a KILL of a running team, of one that launched a task. -/
def frozen (k : FreezeKind) : State := onCur warp0 fun w => { w with status := .frozen k }
def parent : State := warp0.onDie 0 fun x => { x with nodes := [{ node0 with origin := .task 3 }], tasks := [task0 none] }
theorem witness_DistaffEvents_resume : (∀ k ∈ [FreezeKind.failedAnswer, .trapNoVector, .startFailed], mctlWarp (frozen k) 0 = some (frozen k).cur) ∧
    (frozen .startFailed).findTeam (frozen .startFailed).cur.team = some (benchTeam 1) ∧ mctlWarp warp0 (2 ^ 48) = none ∧
    field (2 ^ 44 : Word).toNat 47 44 ≠ 0 := by decide +kernel
theorem witness_DistaffEvents_kill : mctlTeam warp0 1 = some 1 ∧ (benchTeam 1).killed = false ∧ (benchTeam 1).d = 0 ∧
    (((warp0.die 0).tasks ++ (warp0.die 1).tasks).filter fun k => k.team == 1 && k.outcome == none) = [] ∧ warp0.launches = [] ∧
    mctlTeam parent 1 = some 1 ∧ parent.findTeam 1 = some (benchTeam 1) ∧
    ((parent.die 0).tasks.filter fun k => k.team == (benchTeam 1).id && k.outcome == none) = [task0 none] ∧ (parent.die 1).tasks = [] ∧
    (parent.die 0).findNode (task0 none).node = some { node0 with origin := .task 3 } ∧ node0.st = .running ∧ (parent.die 0).frags = [] ∧
    mctlTeam (pushing copyRec) (1 + 2 ^ 44) = none ∧
    mctlTeam (commanded { copyCmd .waiting copyRec with entry := 5 }) (1 + 2 ^ 44 + 5 * 2 ^ 32) = some 1 := by decide +kernel
/-- An account behind its multiples; a sector that a die homes, one that it does not; a log with room for a record and full. -/
theorem witness_TimeAndEnergy_scrub : (let x := (metered 1).die 0
      x.refills[0] < ((metered 1).stage.sec * 1000000000 + (metered 1).stage.nsec) % 2 ^ 64 / (1000 * 1)) ∧
    inPool (32 * 7) = true ∧ (32 * 7).testBit 12 = false ∧ (32 * 128).testBit 12 = true ∧ inPool (32 * 2 ^ 40) = false ∧
    ((spooled 1 0).die 0).elEn = true ∧ (((spooled 1 0).die 0).elHead - ((spooled 1 0).die 0).elTail).toNat < 2 ^ ((spooled 1 0).die 0).elLog2n ∧
    (warp0.die 0).elEn = false := by decide +kernel
/-- The last link of a training reel comes up, with a table and without; a flit that is LAST, of a copy later than the open one. -/
def training (t : Option Memory) : State := atReel { Reel.reset with
  st := .train, table := t, links := (Vector.replicate 8 { Link.reset with up := true }).set 3 { Link.reset with training := true } } 0
theorem witness_ReelEvents_last : (training none).reel.st = .train ∧ ((training none).reel.links[3]).training = true ∧ (training none).reel.table.isSome = false ∧
    (training (some [])).reel.table.isSome = true ∧ ∀ k : Fin 8, k ≠ 3 → ((training none).reel.links[k]).up = true := by decide +kernel
def receiving : State := { flying stageRec 0 with reel := { (flying stageRec 0).reel with rx := [(0, ⟨0, 0, 2, false, false, 0, 0, 0⟩)] } }
def flitOf (copy : Nat) (last : Bool) : BitVec 2048 := buildFlit 0 0 0 copy 0 1 0x20000 0 0 last (List.replicate 208 7)
theorem witness_StageFlits_later : flitGood receiving 0 (flitOf 1 true) = true ∧ flitGood receiving 0 (flitOf 1 false) = true ∧
    (flitOf 1 true).toNat / 2 ^ 62 % 2 = 1 ∧ (flitOf 1 true).toNat / 2 ^ 32 % 2 ^ 12 = 1 ∧
    (tblGet receiving.reel.rx 0).map (·.copy) = some 0 ∧ laterCopy 1 0 = true := by decide +kernel
/-- The L3 before POOLRDY; DMA without a root, through a root whose walk gives an address, and through one that gives none. -/
def rooted (pte : Nat) : State := { warp0 with mem := warp0.mem.write 0x50000 (toBytes pte 8), host := { warp0.host with ioRoot := some 0x50 } }
theorem witness_HomeTransactions_dma : State.reset.host.poolRdy = false ∧ Reaches State.reset .read 64 8 64 ∧ Reaches (rooted 0xDF) .write 0x100 8 0x100 ∧
    Unreached (rooted 0) .read 0x100 8 ∧ Unreached (rooted 0xDF) .atomic (2 ^ 56) 1 ∧ Unreached (rooted 0xDB) .write 0x100 8 := by
  refine ⟨rfl, .inl ⟨rfl, rfl⟩, .inr ⟨0x50, 4, 0xDF, rfl, ?_⟩, ⟨0x50, rfl, ?_, .inr (.inl ⟨0, ?_⟩)⟩, ⟨0x50, rfl, ?_, .inl ?_⟩,
    ⟨0x50, rfl, ?_, .inr (.inr ⟨4, 0xDB, ?_⟩)⟩⟩ <;> decide +kernel
/-- A fragment that passed, its pixel over a lost sector and over none. -/
theorem witness_RasterEvents_lost : PixelLost { warp0 with softErrs := [.sector 0x1800] } 0x30000 4 0x1800 ∧ ∀ k, ¬ PixelLost warp0 0x30000 4 k := by
  refine ⟨⟨by decide, by decide, by decide⟩, fun k h => ?_⟩
  have : warp0.softErrs = [] := by decide +kernel
  rw [PixelLost, this] at h
  exact absurd h.1 (by simp)

end Sys2Proof.Tests
end

section
/-! SUPPORT. The hard-wired registers (01 R14): what a read of x and m returns after a write, the lanes m0 selects, and x62 after
a CALL. -/

namespace Sys2Proof.Machine

open Sys2Proof Sys2Proof.Claims

/-! ### Reads after writes of x and m -/

@[simp] theorem readX_zero (w : Warp) : readX w 0 = 0 := rfl

@[simp] theorem writeX_zero (w : Warp) (v : Word) : writeX w 0 v = w := rfl

@[simp] theorem readM_zero (w : Warp) : readM w 0 = vlMask w := rfl

@[simp] theorem writeM_zero (w : Warp) (v : Mask) : writeM w 0 v = w := rfl

theorem readX_writeX_same (w : Warp) (r : BitVec 6) (v : Word) (hr : r ≠ 0) : readX (writeX w r v) r = v := by
  simp only [readX, writeX, if_neg hr, Vector.getElem_set_self]

theorem readX_writeX_other (w : Warp) (r k : BitVec 6) (v : Word) (hk : k ≠ r) : readX (writeX w r v) k = readX w k := by
  have hne : r.toNat ≠ k.toNat := fun h => hk (BitVec.eq_of_toNat_eq h.symm)
  by_cases hr : r = 0
  · rw [hr, writeX_zero]
  · simp only [readX, writeX, if_neg hr, Vector.getElem_set_ne _ _ hne]

/-- m0 depends on VL and the mapping alone, which no write to a mask changes. -/
theorem vlMask_writeM (w : Warp) (r : BitVec 4) (v : Mask) : vlMask (writeM w r v) = vlMask w := by
  simp only [vlMask, posOf, writeM_vl, writeM_mapping]

theorem readM_writeM_same (w : Warp) (r : BitVec 4) (v : Mask) (hr : r ≠ 0) : readM (writeM w r v) r = v := by
  simp only [readM, writeM, if_neg hr, Vector.getElem_set_self]

theorem readM_writeM_other (w : Warp) (r k : BitVec 4) (v : Mask) (hk : k ≠ r) : readM (writeM w r v) k = readM w k := by
  have hne : r.toNat ≠ k.toNat := fun h => hk (BitVec.eq_of_toNat_eq h.symm)
  by_cases hr : r = 0
  · rw [hr, writeM_zero]
  by_cases h0 : k = 0
  · rw [h0, readM_zero, readM_zero, vlMask_writeM]
  · simp only [readM, writeM, if_neg hr, if_neg h0, Vector.getElem_set_ne _ _ hne]

/-! ### The lanes m0 covers and selects -/

theorem belowVl_iff (w : Warp) (pl : Nat) : belowVl w pl = true ↔ ∃ p < w.vl, posOf w pl = some p := by
  unfold belowVl
  cases posOf w pl <;> simp

theorem posOf_identity (w : Warp) (h : w.mapping = none) (pl : Nat) : posOf w pl = some pl := by rw [posOf, h]

theorem posOf_arm (w : Warp) (l : List Nat) (h : w.mapping = some l) (pl : Nat) : posOf w pl = l.idxOf? pl := by rw [posOf, h]

/-- Where no arm is active, bits 0 to VL - 1 of m0 are set and no others (R14). -/
theorem readM_zero_identity (w : Warp) (h : w.mapping = none) (p : Nat) (hp : p < 128) :
    (readM w 0).getLsbD p = decide (p < w.vl) := by
  rw [readM_zero, vlMask_bit w p hp, belowVl, posOf_identity w h]
  rfl

/-- Under an arm m0 covers the arm's lanes whose position in its list lies below VL (R14, R24). -/
theorem readM_zero_arm (w : Warp) (l : List Nat) (h : w.mapping = some l) (pl : Nat) (hpl : pl < 128) :
    (readM w 0).getLsbD pl = true ↔ ∃ p < w.vl, l.idxOf? pl = some p := by
  rw [readM_zero, vlMask_bit w pl hpl, belowVl_iff, posOf_arm w l h]

theorem replayLanes_of_no_replay (w : Warp) (h : w.replayNext = false) : replayLanes w = BitVec.allOnes 128 := by
  rw [replayLanes, h]; rfl

/-- A predicate naming m0 without inversion adds nothing to the bound that VL gives, so outside a replay it selects all that
m0 covers (R14, R18). -/
theorem activeMask_zero (w : Warp) (h : w.replayNext = false) : activeMask w 0 0 = readM w 0 := by
  have hpi : ¬ (0 : BitVec 1) = 1 := by decide
  rw [activeMask, if_neg hpi, readM_zero, replayLanes_of_no_replay w h, BitVec.and_self, BitVec.and_allOnes]

/-! ### x62 after a CALL -/

@[simp] theorem readX_jump (w : Warp) (target : Word) (r : BitVec 6) : readX (jump w target) r = readX w r := rfl

/-- An instruction that writes its return address to x62 and jumps leaves it there, whatever its target (R14, R99). -/
theorem link_then_jump (s : State) (target v : Word) :
    ∃ t, answer s (jump (writeX s.cur 62 v) target) = .next t ∧ readX t.cur 62 = v :=
  ⟨_, rfl, (readX_jump _ target 62).trans (readX_writeX_same s.cur 62 v (by decide))⟩

theorem call_writes_link (f : FmtB) (s : State) : ∃ t, exec (.call f) s = .next t ∧ readX t.cur 62 = s.cur.pc + 8 := by
  rw [exec_call, execCall]
  exact link_then_jump s _ _

theorem callIndirect_writes_link (f : FmtB) (s : State) :
    ∃ t, exec (.callIndirect f) s = .next t ∧ readX t.cur 62 = s.cur.pc + 8 := by
  rw [exec_callIndirect, execCallIndirect]
  exact link_then_jump s _ _

/-- Settles O4: the reads after writes of x and m, the lanes of m0, and the link register of both CALLs. -/
theorem hardWiredRegisters : Obligations.HardWiredRegisters := by
  unfold Obligations.HardWiredRegisters
  intro s
  refine ⟨⟨readX_zero s.cur, fun v => ⟨writeX_zero s.cur v, fun r hr => ⟨?sameX, ?otherX⟩⟩⟩,
    fun v => ⟨writeM_zero s.cur v, fun r hr => ⟨?sameM, ?otherM⟩⟩, ?identity, ?arm, ?predicate, ?link⟩
  case sameX => exact readX_writeX_same s.cur r v hr
  case otherX => exact fun k hk => readX_writeX_other s.cur r k v hk
  case sameM => exact readM_writeM_same s.cur r v hr
  case otherM => exact fun k hk => readM_writeM_other s.cur r k v hk
  case identity => exact readM_zero_identity s.cur
  case arm => exact readM_zero_arm s.cur
  case predicate => exact activeMask_zero s.cur
  case link => exact fun f => ⟨call_writes_link f s, callIndirect_writes_link f s⟩

end Sys2Proof.Machine
end

section
/-! SUPPORT. Integer division (02 R42): DIV, REM and VDIV give the quotient and the remainder of the statements' vocabulary, which
`division_rule` shows to be those of the table. -/

namespace Sys2Proof.Machine

open Sys2Proof Sys2Proof.Claims

/-- The narrowest element type of R66 has 4 bits, so that `division_rule` applies to every type. -/
theorem one_lt_tyWidth (t : BitVec 4) : 1 < tyWidth t := by
  have hw := tyWidth_cases t
  omega

/-- DIV completes, the divisor 0 and MIN by -1 included, with the quotient extended by its type (R42, R94). -/
theorem exec_div_quotient (s : State) (f : FmtA) (ht : ScalarIntType f.ty) :
    exec (.div f) s = scalarResult s f.d
      (extended f.ty (quotient (signedType f.ty) (lowX s f.a (tyWidth f.ty)) (lowX s f.b (tyWidth f.ty)))) := by
  rw [exec_div, execDiv]
  exact intA_spec s f ht aluDiv _ (ofNat_aluDiv _ _ _)

/-- REM completes likewise, with the remainder (R42, R94). -/
theorem exec_rem_remainder (s : State) (f : FmtA) (ht : ScalarIntType f.ty) :
    exec (.rem f) s = scalarResult s f.d
      (extended f.ty (remainder (signedType f.ty) (lowX s f.a (tyWidth f.ty)) (lowX s f.b (tyWidth f.ty)))) := by
  rw [exec_rem, execRem]
  exact intA_spec s f ht aluRem _ (ofNat_aluRem _ _ _)

/-- The model's division of two elements, source B being a register's or x[B] under BX (R42, R117). -/
theorem ofNat_aluDiv_elements (w : Warp) (f : FmtA) (ht : f.ty.toNat < 8) (e : Nat) :
    BitVec.ofNat (tyWidth f.ty) (aluDiv (tyWidth f.ty) (tySigned f.ty.toNat)
      (srcElem w f.a (elemCount f.ty) (tyWidth f.ty) e) (srcB w f (elemCount f.ty) (tyWidth f.ty) e)) =
    quotient (signedType f.ty) (elt w f.a f.ty e) (eltB w f e) := by
  rw [← elt_toNat, ← eltB_toNat, tySigned_signedType f.ty ht, ofNat_aluDiv]

/-- VDIV completes, each active element taking the quotient of its own two (R42, R120). -/
theorem vdiv_completes (s : State) (f : FmtA) (ht : f.ty.toNat < 8) (hd : tyWidth f.ty = 64 → f.d.toNat % 2 = 0) :
    Completes (.vdiv f) s fun t =>
      Elementwise s t f fun e => quotient (signedType f.ty) (elt s.cur f.a f.ty e) (eltB s.cur f e) := by
  rw [Completes, exec_vdiv, execVdiv]
  exact vecOp_spec s f hd _ _ (ofNat_aluDiv_elements s.cur f ht) _ rfl

/-- Settles O3: the witnesses are the quotient and the remainder of the operands, which obey the table. -/
theorem integerDivision : Obligations.IntegerDivision := by
  unfold Obligations.IntegerDivision
  intro s f
  have rule := division_rule (one_lt_tyWidth f.ty) (signedType f.ty)
  refine ⟨fun ht => ⟨_, _, ?div, ?rem, rule _ _⟩, fun ht hd => ⟨_, _, ?vdiv, fun e => rule _ _⟩⟩
  case div => exact exec_div_quotient s f ht
  case rem => exact exec_rem_remainder s f ht
  case vdiv => exact vdiv_completes s f ht hd

end Sys2Proof.Machine
end

section
/-! SUPPORT. Bit fields (05 R96): the bits that BFX extracts and those that BFI inserts. -/

namespace Sys2Proof.Machine

open Sys2Proof Sys2Proof.Claims

/-- BFX and BFI take the 64-bit types alone, s64 being the signed one (R66, R96). -/
theorem tySigned_of_wide (t : BitVec 4) (ht : t = 6 ∨ t = 7) : tySigned t.toNat = (t == 6) := by
  rcases ht with rfl | rfl <;> rfl

/-- Above its `n` bits an extended value repeats its top bit where it is signed, and is 0 where it is not (R94). -/
theorem getLsbD_extendTo64 (n : Nat) (sg : Bool) (x k : Nat) (hn : 0 < n) (hk : k < 64) :
    (extendTo64 n sg x).getLsbD k = if k < n then x.testBit k else sg && x.testBit (n - 1) := by
  rw [widened_ext, widened]
  by_cases hkn : k < n
  · cases sg <;> simp [-BitVec.getLsbD_eq_getElem, BitVec.getLsbD_signExtend, BitVec.getLsbD_ofNat, hk, hkn]
  · cases sg <;> simp [-BitVec.getLsbD_eq_getElem, BitVec.getLsbD_signExtend, BitVec.msb_eq_getLsbD_last,
      BitVec.getLsbD_ofNat, hk, hkn, hn]

theorem testBit_fieldOnes (len k : Nat) : (fieldOnes len).testBit k = decide (k < len) :=
  Nat.testBit_two_pow_sub_one len k

/-- Bit `k` of what BFX extracts (R96): of the field where it lies in the field, and else of its extension. -/
theorem getLsbD_aluBfx (sg : Bool) (a b k : Nat) (hk : k < 64) :
    (aluBfx sg a b).getLsbD k = if k < fieldLen b then a.testBit (b % 64 + k)
      else (sg && decide (0 < fieldLen b) && a.testBit (b % 64 + fieldLen b - 1)) := by
  rw [aluBfx]
  by_cases hlen : fieldLen b = 0
  · simp [hlen]
  · have hpos : 0 < fieldLen b := by omega
    have hlast : b % 64 + (fieldLen b - 1) = b % 64 + fieldLen b - 1 := by omega
    rw [if_neg hlen, getLsbD_extendTo64 _ _ _ _ hpos hk]
    simp only [Nat.testBit_shiftRight, hlast, hpos, decide_true, Bool.and_true]

/-- Bit `k` of what BFI leaves (R96): of `a` where it lies in the field, and else of the word the field is put into. -/
theorem getLsbD_aluBfi (d a b k : Nat) (hk : k < 64) :
    (aluBfi d a b).getLsbD k =
      if b % 64 ≤ k ∧ k < b % 64 + fieldLen b then a.testBit (k - b % 64) else d.testBit k := by
  rw [aluBfi]
  simp only [BitVec.getLsbD_or, BitVec.getLsbD_and, BitVec.getLsbD_not, BitVec.getLsbD_ofNat, Nat.testBit_shiftLeft,
    Nat.testBit_and, testBit_fieldOnes, hk, decide_true, Bool.true_and]
  by_cases hlo : b % 64 ≤ k
  · have hoffset : k - b % 64 < fieldLen b ↔ k < b % 64 + fieldLen b := by omega
    by_cases hhi : k < b % 64 + fieldLen b <;> simp [hlo, hoffset, hhi]
  · simp [hlo]

/-- A result for x0 is discarded: the agent only goes on (R14). -/
theorem scalarResult_zero (s : State) (v : Word) : scalarResult s 0 v = becomes s (retire s.cur) := by
  rw [scalarResult, writeX_zero]

theorem exec_bfx_result (s : State) (f : FmtA) :
    exec (.bfx f) s =
      scalarResult s f.d (aluBfx (tySigned f.ty.toNat) (readX s.cur f.a).toNat (readX s.cur f.b).toNat) :=
  exec_bfx f s

theorem exec_bfi_result (s : State) (f : FmtA) :
    exec (.bfi f) s =
      scalarResult s f.d (aluBfi (readX s.cur f.d).toNat (readX s.cur f.a).toNat (readX s.cur f.b).toNat) :=
  exec_bfi f s

/-- Settles O2: the words are those of the model's extract and insert, read bit by bit. -/
theorem bitFields : Obligations.BitFields := by
  unfold Obligations.BitFields
  intro s f ht
  refine ⟨⟨_, exec_bfx_result s f, fun k hk => ?extract⟩, fun hd => ⟨?extractX0, ?insertX0⟩,
    ⟨_, exec_bfi_result s f, fun k hk => ?insert⟩⟩
  case extract =>
    rw [getLsbD_aluBfx _ _ _ _ hk, tySigned_of_wide f.ty ht, len_eq]
    simp only [BitVec.testBit_toNat]
  case extractX0 => rw [exec_bfx_result, hd, scalarResult_zero]
  case insertX0 => rw [exec_bfi_result, hd, scalarResult_zero]
  case insert =>
    rw [getLsbD_aluBfi _ _ _ _ hk, len_eq]
    simp only [BitVec.testBit_toNat]

end Sys2Proof.Machine
end
